-- ==== Sys2Proof/Word.lean ====
section
/-! DEFINITION. Word types and the sorted association lists (FMap) that hold registers, memories and tables as plain data. -/

namespace Sys2Proof

/-- A 64-bit word (R39). -/
abbrev Word := BitVec 64
/-- A byte (R2). -/
abbrev Byte := BitVec 8
/-- A 32-bit sequencer word or micro-order (R30). -/
abbrev IWord := BitVec 32

/-- A table of values by key, keys rising. -/
abbrev FMap (α : Type) := List (Nat × α)

/-- The value at key `k`, if one is listed. The search stops at the first larger key. -/
def FMap.get? {α : Type} : FMap α → Nat → Option α
  | [], _ => none
  | (j, v) :: t, k => if k = j then some v else if k < j then none else FMap.get? t k

/-- The value at key `k`, or `d` where none is listed. -/
def FMap.getD {α : Type} (d : α) (m : FMap α) (k : Nat) : α := (FMap.get? m k).getD d

/-- Set the value at key `k`. -/
def FMap.set {α : Type} : FMap α → Nat → α → FMap α
  | [], k, v => [(k, v)]
  | (j, w) :: t, k, v =>
    if k = j then (k, v) :: t else if k < j then (k, v) :: (j, w) :: t else (j, w) :: FMap.set t k v

/-- Drop every listing of key `k`. -/
def FMap.erase {α : Type} (m : FMap α) (k : Nat) : FMap α := m.filter (fun x => x.1 ≠ k)

/-- A bank of `w`-bit registers by number; a register not listed holds zero. -/
abbrev Bank (w : Nat) := FMap (BitVec w)

/-- Read register `k` of a bank. -/
def Bank.get {w : Nat} (b : Bank w) (k : Nat) : BitVec w := FMap.getD 0 b k

/-- The first element of a list that satisfies a test, with its position. -/
def findIdxFrom {α : Type} (p : α → Bool) : List α → Nat → Option (Nat × α)
  | [], _ => none
  | a :: t, n => if p a then some (n, a) else findIdxFrom p t (n + 1)

/-- The list without its element at position `n`. -/
def dropAt {α : Type} : List α → Nat → List α
  | [], _ => []
  | _ :: t, 0 => t
  | a :: t, n + 1 => a :: dropAt t n

/-- The list with `f` applied to its element at position `n`. -/
def modAt {α : Type} (f : α → α) : List α → Nat → List α
  | [], _ => []
  | a :: t, 0 => f a :: t
  | a :: t, n + 1 => a :: modAt f t n

/-- The list without its first element equal to `x` (one transit of a handle, R334). -/
def removeOne {α : Type} [DecidableEq α] (x : α) : List α → List α
  | [] => []
  | a :: t => if a = x then t else a :: removeOne x t

/-- Bits `lo` to `lo + n - 1` of a number. -/
def bitsN (x lo n : Nat) : Nat := x / 2 ^ lo % 2 ^ n

/-- Bit `k` of a number. -/
def bitN (x k : Nat) : Bool := x / 2 ^ k % 2 = 1

end Sys2Proof
end

