-- ==== Sys2Proof/Config.lean ====
section
/-! DEFINITION. What one part fixes: the package's figures (R7, R8, R10, R17), the places of the address spaces in the one
memory, and the free values of the model, which have no body. -/

namespace Sys2Proof.Config

/-- First offset of a tile window that is not backed (R17). -/
def scratchEnd : Nat := 0xC0000
/-- Bytes of a tile's window (R16). -/
def windowSize : Nat := 0x100000
/-- The key in State.mem of HBM address 0; scratchpads lie below, tile `p` at `p * windowSize`. -/
def hbmBase : Nat := 2 ^ 64
/-- The key in State.mem of host address 0. -/
def hostBase : Nat := 2 ^ 65
/-- Bytes of a far page (R19). -/
def pageSize : Nat := 0x10000
/-- Most granules that a phase store buffer holds (R76). -/
def psbGranules : Nat := 512
/-- Places of a step-table engine's queue (R93). -/
def entryQueue : Nat := 16
/-- Places of the CE and of the IE (R99). -/
def ceQueue : Nat := 32
/-- Places of the IE (R99). -/
def ieQueue : Nat := 16
/-- Places of the reply queue (R105). -/
def replyQueue : Nat := 32
/-- Places of a token FIFO (R104). -/
def tokenFifo : Nat := 8
/-- Beats after which an engine entry is stopped (R147). -/
def watchdogBeats : Nat := 2 ^ 22
/-- Entries of a die's spawn queue (R135). -/
def spawnQueue : Nat := 256
/-- Live tags of one context (R120). -/
def tagLimit : Nat := 4096
/-- Words of a tile's instruction cache of 64 KiB (R10). -/
def icacheWords : Nat := 16384
/-- HBM stacks of a memory die (R7), of which the package has 16 (R26). -/
def dieStacks : Nat := 2
/-- Bytes of the HBM: 16 stacks of 48 GiB (R26). -/
def hbmSize : Nat := 16 * (48 * 2 ^ 30)
/-- Entries of the dependence table (R127). -/
def tableSize : Nat := 2 ^ 20
/-- Slots of a tile's cloakroom (R10) and of an IOD station's (R304). -/
def tileCloakroom : Nat := 16
/-- Slots of an IOD station's cloakroom (14, "Meeting stations"). -/
def iodCloakroom : Nat := 64
/-- Concurrent walks of the IOD walker (R248). -/
def walkers : Nat := 256
/-- Sets of a memory die's hot-row store: 32 MiB of 64-byte lines in sets of 16 ways (R268). -/
def hotSets : Nat := 32768
/-- Ways of a set of the hot-row store (R268). -/
def hotWays : Nat := 16
/-- Stream TLB entries of a copy or index engine (R248). -/
def streamTlb : Nat := 64

/-- The number of tiles of each die (R7); 0 where the die is no compute die. -/
def dieTiles (die : Nat) : Nat :=
  if die < 8 then 128 else if die < 12 then 64 else if die < 14 then 32 else 0

/-- The class code of a compute die's tiles (R7, R110); 0 where the die is no compute die. -/
def dieClass (die : Nat) : Nat :=
  if die < 8 then 1 else if die < 10 then 2 else if die < 12 then 3 else if die < 14 then 4 else 0

/-- FREE VALUE (log 2): where the search for a free number starts, at each use of State.fresh: accession numbers, tag
indexes, page-request identifiers, arena places and pool frames, whose choice the manual leaves open. -/
opaque freePick : Nat → Nat

/-- FREE VALUE (log 13): a byte, or half a descriptor, that another package's buffer gives to a command that names its proxy
(R382), at each use of State.fresh and place in the line. -/
opaque remoteByte : Nat → Nat → BitVec 8

/-- FREE VALUE (log 83): a byte of an HBM frame that is read under another key than the one it was written under (R267), or that
lies beyond the stacks (R26), at each use of State.fresh and place in the line. -/
opaque scrambled : Nat → Nat → BitVec 8

/-- FREE VALUE (log 17): a byte of a save slot's reserved block, in an encoding reserved to the device (R369), at each use of
State.fresh and place. -/
opaque deviceByte : Nat → Nat → BitVec 8

/-- FREE VALUE (log 64): a byte of what a checkpoint's stream writes (R389), whose layout the manual does not give, at each use of
State.fresh and place. -/
opaque streamByte : Nat → Nat → BitVec 8

/-- FREE VALUE (log 17): what a place of a save slot whose packing the manual does not give says once software has changed it, by the
mark of the save and the number of the value. -/
opaque unpacked : Nat → Nat → Nat

/-- FREE VALUE (log 9): the SHA-512 digest that a measurement block carries (R384), by the index of the block and what the
state holds of its content (the deaccession record). -/
opaque digest : Nat → List Nat → BitVec 512

end Sys2Proof.Config
end

