-- ==== Sys2Proof/Syntax.lean ====
section
/-! DEFINITION. The instructions: one constructor for each row of the opcode table. Sequencer words and micro-orders carry
their encoded fields; a row without an encoding is an event of the package, and what it happens to stands in State.arg. -/

namespace Sys2Proof

/-- The step-table engines of a tile: the vector engine and the class engine (R10). -/
inductive Eng where
  | ve | xe
  deriving DecidableEq, Repr

/-- The command engines of a tile: the copy engine and the index engine (R10). -/
inductive CEng where
  | ce | ie
  deriving DecidableEq, Repr

/-- The command queues of a tile: load queue and store queue of the CE, queue of the IE (R185). -/
inductive Que where
  | lq | sq | iq
  deriving DecidableEq, Repr

/-- The regions of the management aperture (R373). -/
inductive Page where
  | pkg | iod | scd
  deriving DecidableEq, Repr

/-- A Stalith Span request from another package (R382). -/
inductive SpanReq where
  | takeRef (handle : BitVec 64)
  | dropRef (handle : BitVec 64)
  | bind (acc tag : Nat) (pages : List Nat)
  | read (acc tag off : Nat)
  | write (acc tag off : Nat) (data : List (BitVec 8)) (desc : Option (BitVec 16))
  | add (acc tag off fmt : Nat) (val : BitVec 32)
  | stage (acc tag : Nat) (key : List Nat) (off fmt : Nat) (val : BitVec 32)
  | endCmd (acc tag : Nat)
  | bound (tag : Nat)
  deriving DecidableEq, Repr

/-- One constructor per row of the opcode table. -/
inductive Instr where
  /-- ADD: R63. -/
  | add (d a b : BitVec 5)
  /-- SUB: R63. -/
  | sub (d a b : BitVec 5)
  /-- ADDW: R63. -/
  | addw (d a b : BitVec 5)
  /-- SUBW: R63. -/
  | subw (d a b : BitVec 5)
  /-- MUL: R63. -/
  | mul (d a b : BitVec 5)
  /-- MULH: R63. -/
  | mulh (d a b : BitVec 5)
  /-- MULHZ: R63. -/
  | mulhz (d a b : BitVec 5)
  /-- DIV: R64. -/
  | div (d a b : BitVec 5)
  /-- DIVZ: R64. -/
  | divz (d a b : BitVec 5)
  /-- REM: R64. -/
  | rem (d a b : BitVec 5)
  /-- REMZ: R64. -/
  | remz (d a b : BitVec 5)
  /-- AND: R63. -/
  | and (d a b : BitVec 5)
  /-- OR: R63. -/
  | or (d a b : BitVec 5)
  /-- XOR: R63. -/
  | xor (d a b : BitVec 5)
  /-- ANDN: R63. -/
  | andn (d a b : BitVec 5)
  /-- SHL: R63. -/
  | shl (d a b : BitVec 5)
  /-- SHR: R63. -/
  | shr (d a b : BitVec 5)
  /-- SAR: R63. -/
  | sar (d a b : BitVec 5)
  /-- MIN: R63. -/
  | min (d a b : BitVec 5)
  /-- MAX: R63. -/
  | max (d a b : BitVec 5)
  /-- MINZ: R63. -/
  | minz (d a b : BitVec 5)
  /-- MAXZ: R63. -/
  | maxz (d a b : BitVec 5)
  /-- CLZ: R63. -/
  | clz (d a : BitVec 5)
  /-- CTZ: R63. -/
  | ctz (d a : BitVec 5)
  /-- POPC: R63. -/
  | popc (d a : BitVec 5)
  /-- ADDI: R65. -/
  | addi (d a : BitVec 5) (imm : BitVec 16)
  /-- ANDI: R65. -/
  | andi (d a : BitVec 5) (imm : BitVec 16)
  /-- ORI: R65. -/
  | ori (d a : BitVec 5) (imm : BitVec 16)
  /-- XORI: R65. -/
  | xori (d a : BitVec 5) (imm : BitVec 16)
  /-- SHLI: R66. -/
  | shli (d a : BitVec 5) (n : BitVec 6)
  /-- SHRI: R66. -/
  | shri (d a : BitVec 5) (n : BitVec 6)
  /-- SARI: R66. -/
  | sari (d a : BitVec 5) (n : BitVec 6)
  /-- MOVW: R67. -/
  | movw (d : BitVec 5) (imm : BitVec 16)
  /-- MOVK: R67. -/
  | movk (d : BitVec 5) (k : BitVec 2) (imm : BitVec 16)
  /-- CMP: R69. -/
  | cmp (pd : BitVec 3) (cond : BitVec 4) (a b : BitVec 5)
  /-- CMPI: R69. -/
  | cmpi (pd : BitVec 3) (cond : BitVec 4) (a : BitVec 5) (imm : BitVec 14)
  /-- PAND: R70. -/
  | pand (pd pa pb : BitVec 3)
  /-- POR: R70. -/
  | por (pd pa pb : BitVec 3)
  /-- PXOR: R70. -/
  | pxor (pd pa pb : BitVec 3)
  /-- PANDN: R70. -/
  | pandn (pd pa pb : BitVec 3)
  /-- PNOT: R70. -/
  | pnot (pd pa : BitVec 3)
  /-- PSET: R70. -/
  | pset (pd : BitVec 3) (v : BitVec 1)
  /-- SEL: R71. -/
  | sel (d a b : BitVec 5) (p : BitVec 3)
  /-- BFX: R68. -/
  | bfx (d a : BitVec 5) (pos wm1 : BitVec 6)
  /-- BFXS: R68. -/
  | bfxs (d a : BitVec 5) (pos wm1 : BitVec 6)
  /-- BFI: R68. -/
  | bfi (d a : BitVec 5) (pos wm1 : BitVec 6)
  /-- BR: R72. -/
  | br (p : BitVec 3) (disp : BitVec 22)
  /-- BR_F: R72. -/
  | brF (p : BitVec 3) (disp : BitVec 22)
  /-- J: R72. -/
  | j (disp : BitVec 26)
  /-- JAL: R72. -/
  | jal (disp : BitVec 26)
  /-- JR: R72. -/
  | jr (a : BitVec 5)
  /-- JALR: R72. -/
  | jalr (d a : BitVec 5)
  /-- BDEC: R72. -/
  | bdec (a : BitVec 5) (disp : BitVec 21)
  /-- LD: R74, R77. -/
  | ld (d base : BitVec 5) (size : BitVec 2) (z : BitVec 1) (off : BitVec 13)
  /-- ST: R74, R75. -/
  | st (d base : BitVec 5) (size : BitVec 2) (off : BitVec 13)
  /-- LDE: R74, R78. -/
  | lde (d base : BitVec 5) (size : BitVec 2) (z : BitVec 1) (off : BitVec 13)
  /-- STE: R74, R78. -/
  | ste (d base : BitVec 5) (size : BitVec 2) (off : BitVec 13)
  /-- AMO_ADD: R82, R83. -/
  | amoAdd (d a b : BitVec 5) (ord : BitVec 2) (size : BitVec 1)
  /-- AMO_AND: R82, R83. -/
  | amoAnd (d a b : BitVec 5) (ord : BitVec 2) (size : BitVec 1)
  /-- AMO_OR: R82, R83. -/
  | amoOr (d a b : BitVec 5) (ord : BitVec 2) (size : BitVec 1)
  /-- AMO_XOR: R82, R83. -/
  | amoXor (d a b : BitVec 5) (ord : BitVec 2) (size : BitVec 1)
  /-- AMO_MIN: R82, R83. -/
  | amoMin (d a b : BitVec 5) (ord : BitVec 2) (size : BitVec 1)
  /-- AMO_MAX: R82, R83. -/
  | amoMax (d a b : BitVec 5) (ord : BitVec 2) (size : BitVec 1)
  /-- AMO_MINZ: R82, R83. -/
  | amoMinz (d a b : BitVec 5) (ord : BitVec 2) (size : BitVec 1)
  /-- AMO_MAXZ: R82, R83. -/
  | amoMaxz (d a b : BitVec 5) (ord : BitVec 2) (size : BitVec 1)
  /-- AMO_SWAP: R82, R83. -/
  | amoSwap (d a b : BitVec 5) (ord : BitVec 2) (size : BitVec 1)
  /-- AMO_CAS: R82, R83. -/
  | amoCas (d a b : BitVec 5) (ord : BitVec 2) (size : BitVec 1)
  /-- PHASE: R88, R89. -/
  | phase (scope : BitVec 4)
  /-- FENCE: R90. -/
  | fence (scope : BitVec 4)
  /-- BAR: R88, R89. -/
  | bar (scope : BitVec 4)
  /-- BARA: R89. -/
  | bara (scope : BitVec 4)
  /-- BARW: R89. -/
  | barw (scope : BitVec 4)
  /-- CAPQ: R118. -/
  | capq (d : BitVec 5) (c : BitVec 6)
  /-- CAPDUP: R118. -/
  | capdup (c c2 : BitVec 6)
  /-- CAPDROP: R118. -/
  | capdrop (c : BitVec 6)
  /-- CAPNEW: R118. -/
  | capnew (d : BitVec 5) (c : BitVec 6) (b : BitVec 5)
  /-- CAPPUB: R118, R119. -/
  | cappub (c : BitVec 6)
  /-- CAPNRW: R118. -/
  | capnrw (c : BitVec 6) (b : BitVec 5)
  /-- CAPXFER: R118. -/
  | capxfer (d : BitVec 5) (c : BitVec 6)
  /-- CAPRT: R118. -/
  | caprt (c : BitVec 6) (b : BitVec 5)
  /-- DSET: R85. -/
  | dset (a b : BitVec 5)
  /-- DGET: R85. -/
  | dget (d a : BitVec 5)
  /-- ERUN: R94, R95; n 0 is the VE, 1 the class engine. -/
  | erun (n : BitVec 1) (a b c : BitVec 5) (flags : BitVec 4)
  /-- ESET: R94. -/
  | eset (n : BitVec 1) (a c : BitVec 5)
  /-- EGET: R94. -/
  | eget (n : BitVec 1) (a c : BitVec 5)
  /-- EWAIT: R94; n is the engine code of R35. -/
  | ewait (n : BitVec 2)
  /-- ESTAT: R94, R98. -/
  | estat (n : BitVec 2) (a : BitVec 5)
  /-- EKLD: R96. -/
  | ekld (n : BitVec 1) (a b c : BitVec 5)
  /-- ESTOP: R97. -/
  | estop (n : BitVec 2) (a : BitVec 5)
  /-- EPRG: R97. -/
  | eprg (n : BitVec 1) (a b c : BitVec 5)
  /-- FPR: R94, R95. -/
  | fpr (n : BitVec 1) (a : BitVec 5)
  /-- CPY: R99, R100. -/
  | cpy (a d : BitVec 5) (xb : BitVec 4)
  /-- IDX: R99, R100. -/
  | idx (a d : BitVec 5) (xb : BitVec 4)
  /-- TKPUSH: R104. -/
  | tkpush (pair : BitVec 2)
  /-- TKPOP: R104. -/
  | tkpop (pair : BitVec 2)
  /-- TKTEST: R104. -/
  | tktest (d : BitVec 5) (pair : BitVec 2)
  /-- RDDBC: R109. -/
  | rddbc (d : BitVec 5)
  /-- RDAOT: R109. -/
  | rdaot (d : BitVec 5)
  /-- SLEEPU: R109. -/
  | sleepu (a : BitVec 5)
  /-- SLEEPA: R109. -/
  | sleepa (a : BitVec 5)
  /-- STAMP: R109. -/
  | stamp (d a : BitVec 5)
  /-- RQPOP: R105. -/
  | rqpop (d : BitVec 5)
  /-- RQPEEK: R105. -/
  | rqpeek (d : BitVec 5)
  /-- XBWAIT: R101. -/
  | xbwait (d : BitVec 5) (xb : BitVec 4)
  /-- XBTEST: R101. -/
  | xbtest (d : BitVec 5) (xb : BitVec 4)
  /-- XBARM: R101. -/
  | xbarm (a : BitVec 5) (xb : BitVec 4)
  /-- HOLD: R102. -/
  | hold (a b : BitVec 5) (w : BitVec 3)
  /-- FREE: R102. -/
  | free (w : BitVec 3)
  /-- CHLINK: R107; n 0 is the CE, 1 the IE. -/
  | chlink (a : BitVec 5) (n : BitVec 1)
  /-- CHKICK: R107. -/
  | chkick (n : BitVec 1)
  /-- SCWAIT: R107. -/
  | scwait (a : BitVec 5) (sc : BitVec 4)
  /-- SCPOST: R107. -/
  | scpost (a : BitVec 5) (sc : BitVec 4)
  /-- QINIT: R108. -/
  | qinit (a : BitVec 5)
  /-- QPUSH: R108. -/
  | qpush (a b : BitVec 5)
  /-- QPOP: R108. -/
  | qpop (d a : BitVec 5)
  /-- SPAWN: R115. -/
  | spawn (d a b : BitVec 5)
  /-- DONE: R116. -/
  | done
  /-- CONDW: R114. -/
  | condw (d a b : BitVec 5)
  /-- YIELD: R114, R146, R355. -/
  | yield
  /-- SELF: R114. -/
  | self (d : BitVec 5)
  /-- DEADL: R114. -/
  | deadl (d : BitVec 5)
  /-- TAILW: R113. -/
  | tailw (d a b : BitVec 5)
  /-- HEADR: R113. -/
  | headr (d a : BitVec 5)
  /-- TAGA: R120. -/
  | taga (d a b : BitVec 5)
  /-- TAGF: R120, R354. -/
  | tagf (a : BitVec 5)
  /-- MEET: R120, R310. -/
  | meet (d a b : BitVec 5) (op : BitVec 2)
  /-- MFS: R121, R41. -/
  | mfs (d : BitVec 5) (sr : BitVec 10)
  /-- MTS: R121, R41. -/
  | mts (a : BitVec 5) (sr : BitVec 10)
  /-- TRAP: R121. -/
  | trap (code : BitVec 10)
  /-- RTE: R121, R359. -/
  | rte
  /-- ICINV: R121. -/
  | icinv (scope : BitVec 4)
  /-- WFE: R106. -/
  | wfe
  /-- HALT: R121. -/
  | halt
  /-- ILLEGAL_WORD: R55; any word that fails decode. -/
  | illegalWord (w : BitVec 32)
  /-- VADD_F: R214. -/
  | vaddF (d : BitVec 5) (kA : BitVec 2) (A : BitVec 5) (kB : BitVec 2) (B : BitVec 5) (m : BitVec 3) (t : BitVec 2)
  /-- VSUB_F: R214. -/
  | vsubF (d : BitVec 5) (kA : BitVec 2) (A : BitVec 5) (kB : BitVec 2) (B : BitVec 5) (m : BitVec 3) (t : BitVec 2)
  /-- VMUL_F: R214. -/
  | vmulF (d : BitVec 5) (kA : BitVec 2) (A : BitVec 5) (kB : BitVec 2) (B : BitVec 5) (m : BitVec 3) (t : BitVec 2)
  /-- VFMA_F: R214. -/
  | vfmaF (d : BitVec 5) (kA : BitVec 2) (A : BitVec 5) (kB : BitVec 2) (B : BitVec 5) (m : BitVec 3) (t : BitVec 2)
  /-- VMIN_F: R214. -/
  | vminF (d : BitVec 5) (kA : BitVec 2) (A : BitVec 5) (kB : BitVec 2) (B : BitVec 5) (m : BitVec 3) (t : BitVec 2)
  /-- VMAX_F: R214. -/
  | vmaxF (d : BitVec 5) (kA : BitVec 2) (A : BitVec 5) (kB : BitVec 2) (B : BitVec 5) (m : BitVec 3) (t : BitVec 2)
  /-- VABS_F: R214. -/
  | vabsF (d : BitVec 5) (kA : BitVec 2) (A : BitVec 5) (m : BitVec 3) (t : BitVec 2)
  /-- VNEG_F: R214. -/
  | vnegF (d : BitVec 5) (kA : BitVec 2) (A : BitVec 5) (m : BitVec 3) (t : BitVec 2)
  /-- VCVT: R215. -/
  | vcvt (d : BitVec 5) (kA : BitVec 2) (A : BitVec 5) (rm : BitVec 2) (code : BitVec 5) (m : BitVec 3) (t : BitVec 2)
  /-- VEXP2: R216. -/
  | vexp2 (d : BitVec 5) (kA : BitVec 2) (A : BitVec 5) (m : BitVec 3)
  /-- VLOG2: R216. -/
  | vlog2 (d : BitVec 5) (kA : BitVec 2) (A : BitVec 5) (m : BitVec 3)
  /-- VRCP: R216. -/
  | vrcp (d : BitVec 5) (kA : BitVec 2) (A : BitVec 5) (m : BitVec 3)
  /-- VRSQ: R216. -/
  | vrsq (d : BitVec 5) (kA : BitVec 2) (A : BitVec 5) (m : BitVec 3)
  /-- VTANH: R216. -/
  | vtanh (d : BitVec 5) (kA : BitVec 2) (A : BitVec 5) (m : BitVec 3)
  /-- VCMP_F: R218. -/
  | vcmpF (h : BitVec 2) (d : BitVec 3) (kA : BitVec 2) (A : BitVec 5) (kB : BitVec 2) (B : BitVec 5) (m : BitVec 3) (l : BitVec 2)
  /-- VADD_I: R217. -/
  | vaddI (d : BitVec 5) (kA : BitVec 2) (A : BitVec 5) (kB : BitVec 2) (B : BitVec 5) (m : BitVec 3) (t : BitVec 2)
  /-- VSUB_I: R217. -/
  | vsubI (d : BitVec 5) (kA : BitVec 2) (A : BitVec 5) (kB : BitVec 2) (B : BitVec 5) (m : BitVec 3) (t : BitVec 2)
  /-- VMUL_I: R217. -/
  | vmulI (d : BitVec 5) (kA : BitVec 2) (A : BitVec 5) (kB : BitVec 2) (B : BitVec 5) (m : BitVec 3) (t : BitVec 2)
  /-- VMAC_I: R217. -/
  | vmacI (d : BitVec 5) (kA : BitVec 2) (A : BitVec 5) (kB : BitVec 2) (B : BitVec 5) (m : BitVec 3) (t : BitVec 2)
  /-- VAND: R217. -/
  | vand (d : BitVec 5) (kA : BitVec 2) (A : BitVec 5) (kB : BitVec 2) (B : BitVec 5) (m : BitVec 3)
  /-- VOR: R217. -/
  | vor (d : BitVec 5) (kA : BitVec 2) (A : BitVec 5) (kB : BitVec 2) (B : BitVec 5) (m : BitVec 3)
  /-- VXOR: R217. -/
  | vxor (d : BitVec 5) (kA : BitVec 2) (A : BitVec 5) (kB : BitVec 2) (B : BitVec 5) (m : BitVec 3)
  /-- VSHL: R217. -/
  | vshl (d : BitVec 5) (kA : BitVec 2) (A : BitVec 5) (kB : BitVec 2) (B : BitVec 5) (m : BitVec 3) (t : BitVec 2)
  /-- VSHR: R217. -/
  | vshr (d : BitVec 5) (kA : BitVec 2) (A : BitVec 5) (kB : BitVec 2) (B : BitVec 5) (m : BitVec 3) (t : BitVec 2)
  /-- VSAR: R217. -/
  | vsar (d : BitVec 5) (kA : BitVec 2) (A : BitVec 5) (kB : BitVec 2) (B : BitVec 5) (m : BitVec 3) (t : BitVec 2)
  /-- VMIN_I: R217. -/
  | vminI (d : BitVec 5) (kA : BitVec 2) (A : BitVec 5) (kB : BitVec 2) (B : BitVec 5) (m : BitVec 3) (t : BitVec 2)
  /-- VMAX_I: R217. -/
  | vmaxI (d : BitVec 5) (kA : BitVec 2) (A : BitVec 5) (kB : BitVec 2) (B : BitVec 5) (m : BitVec 3) (t : BitVec 2)
  /-- VSAT: R217. -/
  | vsat (d : BitVec 5) (kA : BitVec 2) (A : BitVec 5) (kB : BitVec 2) (B : BitVec 5) (m : BitVec 3) (t : BitVec 2)
  /-- VCMP_I: R218. -/
  | vcmpI (h : BitVec 2) (d : BitVec 3) (kA : BitVec 2) (A : BitVec 5) (kB : BitVec 2) (B : BitVec 5) (m : BitVec 3) (l : BitVec 2)
  /-- MAND: R219. -/
  | mand (d : BitVec 3) (kA : BitVec 1) (A : BitVec 5) (kB : BitVec 1) (B : BitVec 5)
  /-- MOR: R219. -/
  | mor (d : BitVec 3) (kA : BitVec 1) (A : BitVec 5) (kB : BitVec 1) (B : BitVec 5)
  /-- MXOR: R219. -/
  | mxor (d : BitVec 3) (kA : BitVec 1) (A : BitVec 5) (kB : BitVec 1) (B : BitVec 5)
  /-- MNOT: R219. -/
  | mnot (d : BitVec 3) (kA : BitVec 1) (A : BitVec 5)
  /-- MPOPC: R219. -/
  | mpopc (d : BitVec 5) (kA : BitVec 1) (A : BitVec 5)
  /-- VMOV: R220. -/
  | vmov (d : BitVec 5) (kA : BitVec 2) (A : BitVec 5) (m : BitVec 3)
  /-- VSEL: R220. -/
  | vsel (d : BitVec 5) (kA : BitVec 2) (A : BitVec 5) (kB : BitVec 2) (B : BitVec 5) (m : BitVec 3)
  /-- VBCAST: R220. -/
  | vbcast (d A : BitVec 5) (kB : BitVec 2) (B : BitVec 5) (m : BitVec 3)
  /-- VPERM: R220. -/
  | vperm (d A B : BitVec 5) (m : BitVec 3)
  /-- VRED: R221. -/
  | vred (d A op : BitVec 5) (m : BitVec 3)
  /-- VLD: R222. -/
  | vld (d eb es : BitVec 5) (pi : BitVec 1) (m : BitVec 3)
  /-- VST: R222, R223. -/
  | vst (d eb es : BitVec 5) (pi : BitVec 1) (m : BitVec 3) (t : BitVec 1)
  /-- VLDX: R222. -/
  | vldx (d eb x : BitVec 5) (m : BitVec 3)
  /-- VSTX: R222. -/
  | vstx (d eb x : BitVec 5) (m : BitVec 3)
  /-- VSK48: R224. -/
  | vsk48 (d A : BitVec 5) (t : BitVec 2)
  /-- VXP48: R225. -/
  | vxp48 (d A B : BitVec 5) (t : BitVec 2)
  /-- VQNT: R226. -/
  | vqnt (d A : BitVec 5) (kB : BitVec 2) (B : BitVec 5) (m : BitVec 3)
  /-- VDQ: R227. -/
  | vdq (d : BitVec 5) (kA : BitVec 2) (A : BitVec 5) (kB : BitVec 2) (B : BitVec 5) (m : BitVec 3)
  /-- VPUSHC: R228. -/
  | vpushc (A : BitVec 5) (kB : BitVec 2) (B : BitVec 5) (m : BitVec 3)
  /-- VPOPC: R228. -/
  | vpopc (d : BitVec 5) (kB : BitVec 2) (B : BitVec 5) (m : BitVec 3)
  /-- EADDI: R229. -/
  | eaddi (e : BitVec 5) (imm : BitVec 19)
  /-- EMOVI: R229. -/
  | emovi (e : BitVec 5) (imm : BitVec 19)
  /-- KBASE: R229. -/
  | kbase (k : BitVec 8)
  /-- LOOP: R230. -/
  | loop (lc : BitVec 2) (body : BitVec 10)
  /-- LOOPP: R230. -/
  | loopp (lc : BitVec 2) (body : BitVec 10) (stages : BitVec 4)
  /-- ENDL: R231. -/
  | endl
  /-- SSTOP: R229. -/
  | sstop
  /-- SNOP: R229. -/
  | snop
  /-- MMA: R277, R278. -/
  | mma (acc : BitVec 3) (eA eB : BitVec 5) (ec : BitVec 3) (mode : BitVec 2) (kc : BitVec 6)
  /-- MMA_R: R277, R278. -/
  | mmaR (acc : BitVec 3) (eA eB : BitVec 5) (ec : BitVec 3) (mode : BitVec 2) (kc : BitVec 6)
  /-- MMA_S: R277, R278. -/
  | mmaS (acc : BitVec 3) (eA eB : BitVec 5) (ec : BitVec 3) (mode : BitVec 2) (kc : BitVec 6)
  /-- ACCNEW: R284. -/
  | accnew (acc : BitVec 3) (ty : BitVec 1)
  /-- ACCZ: R284. -/
  | accz (acc : BitVec 3) (ty : BitVec 1)
  /-- ACCLD: R284. -/
  | accld (acc : BitVec 3) (ty : BitVec 1) (eA eS : BitVec 5)
  /-- DRAIN: R287. -/
  | drain (acc : BitVec 3) (eD eC eF : BitVec 5)
  /-- MDLD: R286. -/
  | mdld (md : BitVec 2) (eA : BitVec 5)
  /-- BSTR: R297. -/
  | bstr (n : BitVec 4) (eS : BitVec 5)
  /-- BFS: R298, R300. -/
  | bfs (eX dst : BitVec 5) (L c : BitVec 4) (P D IF OF : BitVec 1)
  /-- BFC: R298, R300. -/
  | bfc (eX dst : BitVec 5) (L c : BitVec 4) (P D IF OF : BitVec 1)
  /-- SORT: R316. -/
  | sort (eA eD : BitVec 5) (kt : BitVec 3) (ds pl : BitVec 1)
  /-- TOPK: R316. -/
  | topk (eA eB eD : BitVec 5) (kt : BitVec 3) (ds pl : BitVec 1)
  /-- MERGE: R316. -/
  | merge (eA eB eD : BitVec 5) (kt : BitVec 3) (ds pl : BitVec 1)
  /-- SEGSORT: R316. -/
  | segsort (eA eB eD : BitVec 5) (kt : BitVec 3) (ds pl : BitVec 1)
  /-- UNIQ: R316. -/
  | uniq (eA eD : BitVec 5) (kt : BitVec 3) (ds pl : BitVec 1)
  /-- RANKOF: R316. -/
  | rankof (eA eB eD : BitVec 5) (kt : BitVec 3) (ds pl : BitVec 1)
  /-- SPMV: R325. -/
  | spmv (eH eX eY : BitVec 5) (acc xf : BitVec 1)
  /-- SPMM: R325. -/
  | spmm (eH eX eY : BitVec 5) (acc xf : BitVec 1)
  /-- SPGEMM: R326. -/
  | spgemm (eH eX eY : BitVec 5)
  /-- TDIR: R327. -/
  | tdir (eH : BitVec 5)
  /-- ILLEGAL_MICRO_ORDER: R44, R56. -/
  | illegalMicroOrder (w : BitVec 32)
  /-- ENGINE_ENTRY_START: R338, R343. -/
  | engineEntryStart
  /-- ENGINE_ENTRY_COMPLETE: R95. -/
  | engineEntryComplete
  /-- STAMP_BEAT: R347, R348. -/
  | stampBeat
  /-- ENGINE_WATCHDOG: R147. -/
  | engineWatchdog
  /-- COPY: R190. -/
  | copy
  /-- GFILL: R191. -/
  | gfill
  /-- FILL: R192. -/
  | fill
  /-- MCAST: R193, R194. -/
  | mcast
  /-- CHNOP: R196. -/
  | chnop
  /-- GATHER: R200. -/
  | gather
  /-- SCATTER: R200. -/
  | scatter
  /-- GPOOL: R201. -/
  | gpool
  /-- SCADD: R202. -/
  | scadd
  /-- HASHACC: R203. -/
  | hashacc
  /-- DENSIFY: R204. -/
  | densify
  /-- COMPACT: R205. -/
  | compact
  /-- COMMAND_SIGNALS: R186. -/
  | commandSignals
  /-- CHAIN_BLOCK_FETCH: R209. -/
  | chainBlockFetch
  /-- PROMISE_MISS: R100. -/
  | promiseMiss
  /-- SCRATCHPAD_CLEAR: R14. -/
  | scratchpadClear
  /-- BARRIER_COMPLETION: R88. -/
  | barrierCompletion
  /-- NEAR_READ: R21. -/
  | nearRead
  /-- NEAR_WRITE: R21. -/
  | nearWrite
  /-- FAR_READ: R21, R235. -/
  | farRead
  /-- FAR_WRITE: R259. -/
  | farWrite
  /-- READ_RETURN: R21. -/
  | readReturn
  /-- WRITE_ACKNOWLEDGEMENT: R21. -/
  | writeAcknowledgement
  /-- LANDING_WRITE: R103, R194. -/
  | landingWrite
  /-- BARRIER_MESSAGE: R87. -/
  | barrierMessage
  /-- SCHEDULER_MESSAGE: R21. -/
  | schedulerMessage
  /-- ARBITRATION_GRANT: R22; the next arbitration point, or none for the destination. -/
  | arbitrationGrant
  /-- PACKET_AGING: R22. -/
  | packetAging
  /-- MEETING_OPERAND: R305-R307. -/
  | meetingOperand
  /-- MEETING_RESULT: R308. -/
  | meetingResult
  /-- MEETING_WITHDRAWAL: R354. -/
  | meetingWithdrawal
  /-- HELD_OPERAND_TAKEN: R306. -/
  | heldOperandTaken
  /-- MEETING_TIMEOUT: R309. -/
  | meetingTimeout
  /-- REPLY_PLACEMENT: R350. -/
  | replyPlacement
  /-- RING_CONSUME: R112. -/
  | ringConsume
  /-- EDGE_DECREMENT: R128, R129, R132. -/
  | edgeDecrement
  /-- SPAWN_QUEUE_DRAIN: R135. -/
  | spawnQueueDrain
  /-- SPAWN_PROBE: R136. -/
  | spawnProbe
  /-- SPAWN_STARVED: R136. -/
  | spawnStarved
  /-- DISPATCH_POP: R139; place is the tile from which free groups are searched. -/
  | dispatchPop
  /-- STRICT_LANE_PROMOTION: R140. -/
  | strictLanePromotion
  /-- NODE_RETIRE: R130. -/
  | nodeRetire
  /-- PREEMPTION: R146, R367. -/
  | preemption
  /-- TASK_WATCHDOG: R366. -/
  | taskWatchdog
  /-- FAULT_DELIVERY: R363. -/
  | faultDelivery
  /-- SOFT_ERROR: R365. -/
  | softError
  /-- DEBUG_HALT: R372. -/
  | debugHalt
  /-- DEBUG_RELEASE: R372. -/
  | debugRelease
  /-- PAGE_WALK_COMPLETE: R248, R252. -/
  | pageWalkComplete
  /-- PAGE_REQUEST: R253. -/
  | pageRequest
  /-- PRESP_RETRY: R254. -/
  | prespRetry
  /-- PRESP_FAIL: R254. -/
  | prespFail
  /-- INVREQ: R250. -/
  | invreq
  /-- INVALIDATION_COMPLETE: R250. -/
  | invalidationComplete
  /-- PAGE_SWAP: R260, R262. -/
  | pageSwap
  /-- FRAME_RELEASE: R261. -/
  | frameRelease
  /-- ACVAL_CLR: R258. -/
  | acvalClr
  /-- NQCTL_WRITE: R237. -/
  | nqctlWrite
  /-- PRQCTL_WRITE: R253. -/
  | prqctlWrite
  /-- CONTEXT_CREATE: R376. -/
  | contextCreate
  /-- CONTEXT_END: R376. -/
  | contextEnd
  /-- CREATE: R377. -/
  | create
  /-- GRANT: R377. -/
  | grant
  /-- REVOKE: R377. -/
  | revoke
  /-- IMPORT: R382; the owner's answer: size and rights, none when it found the handle stale. -/
  | importBuf
  /-- RINGREG: R378. -/
  | ringreg
  /-- RINGDEL: R378. -/
  | ringdel
  /-- RTAIL: R378. -/
  | rtail
  /-- REGISTER_WRITE: R373. -/
  | registerWrite
  /-- FMAPDRV_WRITE: R380. -/
  | fmapdrvWrite
  /-- CKPT_START: R389. -/
  | ckptStart
  /-- CKPT_DONE: R389. -/
  | ckptDone
  /-- EBUD_REFILL: R386; the energy in nanojoules measured outside matrix work in the period. -/
  | ebudRefill
  /-- CORRECTED_ERROR: R388. -/
  | correctedError
  /-- UNIT_DRAIN: R388. -/
  | unitDrain
  /-- SPAN_LINK_FAILURE: R382. -/
  | spanLinkFailure
  /-- MEMORY_UNCORRECTABLE_ERROR: R101. -/
  | memoryUncorrectableError
  /-- POWER_ON: R383; the dies whose image check fails. -/
  | powerOn
  /-- LINK_TRAINING: R373, R380. -/
  | linkTraining
  /-- GET_VERSION: R384. -/
  | getVersion
  /-- GET_CAPABILITIES: R384. -/
  | getCapabilities
  /-- NEGOTIATE_ALGORITHMS: R384. -/
  | negotiateAlgorithms
  /-- GET_DIGESTS: R384. -/
  | getDigests
  /-- GET_CERTIFICATE: R384. -/
  | getCertificate
  /-- CHALLENGE: R384. -/
  | challenge
  /-- GET_MEASUREMENTS: R384. -/
  | getMeasurements
  /-- KEY_EXCHANGE: R384. -/
  | keyExchange
  /-- FINISH: R384. -/
  | finish
  /-- END_SESSION: R384. -/
  | endSession
  /-- KEYGEN: R385. -/
  | keygen
  /-- KEYDEL: R385. -/
  | keydel
  /-- SPDM_UNSUPPORTED_REQUEST: R384. -/
  | spdmUnsupportedRequest
  /-- SLEEP_EXPIRY: R109. -/
  | sleepExpiry
  /-- DRIVER_REQUEST_UNKNOWN_OP: R377. -/
  | driverRequestUnknownOp
  /-- COMPANION_FAR_WRITE: R251; space 0 HBM, 1 host memory. -/
  | companionFarWrite
  /-- SPAN_REQUEST: R382. -/
  | spanRequest
  deriving DecidableEq, Repr

end Sys2Proof
end

