-- ==== Sys2Proof/Machine/State.lean ====
section
/-! DEFINITION. The state of a G920 package as plain data, and the state after reset. INVENTORY.md lists every field with
the rule that names it and its reset value. -/

namespace Sys2Proof.Machine

/-- Why the machine stops. -/
inductive Fault where
  /-- Raised by Sys2Proof.Machine.step when no translation serves an instruction fetch; the manual gives no outcome. Safe:
  the model stops where the hardware may go on (log 7). -/
  | fetchUntranslated
  deriving DecidableEq, Repr

/-- Why an instruction has no meaning. -/
inductive Refusal where
  /-- Raised by an arm of exec whose meaning is not written. Safe. -/
  | notModelled (mnemonic : String)
  deriving DecidableEq, Repr

/-- The kinds of barrier arrival (R88, R89). -/
inductive SyncKind where
  | phase | bar | bara
  deriving DecidableEq, Repr

/-- The six sources of delivered faults, in the order of R363. -/
inductive Source where
  | ce | ie | ve | xe | promise | landing
  deriving DecidableEq, Repr

/-- A filled delivery slot (R361), with the beat on which the fault became pending (R363). -/
structure Delivery where
  source : Source
  cause : Nat
  tval : Word
  beat : Word := 0
  deriving DecidableEq, Repr

/-- Footprint ranges in 32-byte granules of the own slice: start and length (R53, R337). -/
structure Footprint where
  rd : List (Nat × Nat) := []
  wr : List (Nat × Nat) := []
  deriving DecidableEq, Repr

/-- What a queued engine entry does (R94); an eprg names the entry that was running when it issued (R97). -/
inductive EntryKind where
  | run (base start count : Nat)
  | eset (r : Nat) (v : Word)
  | ekld (src first count : Nat)
  | eprg (base start count : Nat) (target : Option Nat)
  deriving DecidableEq, Repr

/-- One entry of a step-table engine's queue (R93, R95). -/
structure Entry where
  no : Nat
  kind : EntryKind
  fp : Footprint := {}
  pop : Bool := false
  push : Bool := false
  reply : Bool := false
  stamp : Option Word := none
  rec_ : Option Nat := none
  deriving DecidableEq, Repr

/-- One level of the loop stack (R230): `p` the loop step, `c` its closing step, `k` the pass, `passes` P, `trip` N. -/
structure Loop where
  p : Nat
  c : Nat
  k : Nat
  passes : Nat
  trip : Nat
  stages : Nat
  lc : Nat
  piped : Bool
  deriving DecidableEq, Repr

/-- The running entry of an engine: its table base and window end (R95), the step it executes next, its loop stack, the beat
it started on, the beat of its next step when it is stamped (R292), the chunk, row group and element format that an MMA
micro-order runs next once it has issued (R275, R278, R279), the descriptors that the micro-order in progress has read, by line
(R165), with the lines themselves (R342), the micro-orders of its group that have issued on this beat and the registers that they
wrote (R212), how it ended (reply status and VAL) while it still has its signals to give, whether it is stamped and has executed no
step yet, and whether the token that it pops is still in its FIFO, which it leaves with that first step (R347, R348). -/
structure Running where
  entry : Entry
  base : Nat
  step : Nat
  wend : Nat
  loops : List Loop := []
  startBeat : Word := 0
  nextBeat : Option Word := none
  mma : Option (Nat × Nat × Nat) := none
  descs : FMap (BitVec 16) := []
  lines : FMap (List Byte) := []
  slots : Nat := 0
  written : List Nat := []
  ended : Option (Nat × Nat) := none
  first : Bool := false
  owes : Bool := false
  deriving DecidableEq, Repr

/-- What the VE and each class engine hold alike (R43, R93, R229). -/
structure Engine where
  e : Bank 64 := []
  cb : Bank 32 := []
  lc : Bank 24 := []
  q : BitVec 8 := 0
  queue : List Entry := []
  run : Option Running := none
  latch : Option Nat := none
  flt : Bool := false
  deriving DecidableEq, Repr

/-- The vector engine's own registers: v by physical number (64 * register + lane), masks, KB, rotating base (R43, R233). -/
structure Vec where
  v : Bank 32 := []
  m : Bank 64 := []
  kb : BitVec 8 := 0
  rrb : Nat := 0
  deriving DecidableEq, Repr

/-- A drain of a stamped entry that has yet to read its tile: the physical tile, the lines it writes, and the beat by which it
has done so (R285, R291). -/
structure Drain where
  phys : Nat
  lines : List Nat
  done : Word
  deriving DecidableEq, Repr

/-- A per-tensor update that a drain has yet to make (R184, R289): the word's near address, the encoding of the amax, the order, the
register that takes the flags and the flags so far (R290), and the number of the drain's entry. -/
structure TensorUpd where
  addr : Word
  enc : Nat
  ord : Nat
  eF : BitVec 5
  flags : Nat
  no : Nat
  deriving DecidableEq, Repr

/-- The matrix engine's own registers (R43, R274): accumulator elements by physical tile (1024 * tile + 32 * row + column),
the physical tile of each logical accumulator, types (bit N set: I32), sticky overflow bits, metadata (1536 * register +
byte), stride registers, RPR, the pending drains of a stamped entry, and the per-tensor updates still to be made, oldest first. -/
structure Mat where
  acc : Bank 32 := []
  phys : List Nat := [0, 1, 2, 3, 4, 5, 6, 7]
  ty : BitVec 8 := 0
  sticky : BitVec 8 := 0
  md : Bank 8 := []
  b : Bank 64 := []
  rpr : Word := 0
  drains : List Drain := []
  tensor : List TensorUpd := []
  deriving DecidableEq, Repr

/-- How a command ended: barrier code (R101), reply status and VAL (R206, R207). -/
structure CmdEnd where
  code : Nat
  st : Nat
  val : Nat
  deriving DecidableEq, Repr

/-- A source line that a command has read and not yet taken whole (R240): its number, its bytes and its descriptor. -/
structure HeldLine where
  line : Nat
  data : List Byte
  desc : BitVec 16
  deriving DecidableEq, Repr

/-- An accepted command: issue number (R336), the tile that accepted it, queue, the 64 bytes of its block, the block's window
offset, its transfer barrier (none for a chain block), the capability handles it names by slot with the view bound for each,
whether it has removed its token (R344), whether it has begun, its position (row, bag or line) and place within it, the request
it is parked on, its ending while signals are still to give, its promised beat, the receivers that refused a line, the index
words read so far, the count so far of bytes, rows or elements, the columns skipped, the page (and whether for a write) whose
translation it waits for, the buffers whose cappub awaits it (R119), the lines of its own slice that it has finished writing
(R340), the source line it holds (R240), the offset words and partial sums of the bag under way (R199, R201), whether it has passed
its chain wait (R186 step 1), the lines of which a landing write has been refused, by tile (R188), and the source lines of the row
under way, when its kind assigns rows whole (R191, R200). -/
structure Cmd where
  no : Nat
  que : Que
  blk : BitVec 512
  at_ : Nat
  born : Nat := 0
  xb : Option Nat := none
  chain : Bool := false
  caps : List (Nat × Word × Nat) := []
  popped : Bool := false
  begun : Bool := false
  pos : Nat := 0
  sub : Nat := 0
  park : Option Nat := none
  ended : Option CmdEnd := none
  promise : Option Word := none
  refused : Nat := 0
  idx : List Nat := []
  count : Nat := 0
  skip : Nat := 0
  want : Option (Nat × Bool) := none
  awaited : List Nat := []
  clear : List Nat := []
  held : Option HeldLine := none
  bag : Option (Nat × Nat) := none
  acc : List Nat := []
  passed : Bool := false
  torn : List (Nat × Nat) := []
  row : List HeldLine := []
  deriving DecidableEq, Repr

/-- A command engine (R99, R107, R185, R209): accepted commands in order of acceptance, chain head, the address of the next
block of a running chain, the issue number of the last block of a chain that has fetched it, FLT. -/
structure CmdEngine where
  cmds : List Cmd := []
  head : Word := 0
  chain : Option Word := none
  chainLast : Option Nat := none
  flt : Bool := false
  deriving DecidableEq, Repr

/-- A transfer barrier (R101). -/
structure XBar where
  pending : Nat := 0
  status : Nat := 0
  deriving DecidableEq, Repr

/-- An in-use window (R102). -/
structure Window where
  base : Nat := 0
  len : Nat := 0
  inUse : Bool := false
  deriving DecidableEq, Repr

/-- A spawn that has emptied its slots and waits for its node to be taken (R115): the beat since which it is blocked, the
tick of its last starvation event (R136), the slots its handles come from, in their order, and the instruction's address. -/
structure Spawning where
  rec_ : List Word
  handles : List Word
  since : Word
  starved : Word
  slots : List Nat := []
  pc : Word := 0
  deriving DecidableEq, Repr

/-- A read of the sequencer that has issued and not yet returned (R84): the identifier that its packet carries, the register it
is for, the tile it reads, bytes and zero extension, the bytes that the phase store buffer held at issue (R77), and whether it is
an acquire. -/
structure PendRead where
  txid : Nat
  d : BitVec 5
  home : Nat
  bytes : Nat
  zero : Bool := true
  buf : List (Option Byte) := []
  acq : Bool := false
  deriving DecidableEq, Repr

/-- A compute tile (R10, R39 to R43). `nextTx` numbers its packets, `out` holds its outstanding arrivals: scope, kind and the
number of its next packet at the arrival (R87, R89), `banks` the scratchpad banks that accesses of the present beat have taken,
each with its place in the order of R349 (R12), `interrupted` the spawns that were interrupted with their slots empty
(R115), and `stop` says that the member stops at its next instruction boundary, once its condw or cappub has retired (R92, R142). -/
structure Tile where
  task : Option Nat := none
  fin : Bool := false
  s : Bank 64 := []
  p : BitVec 8 := 0
  caps : Bank 64 := []
  pc : Word := 0
  hm : Bool := false
  tvec : Word := 0
  epc : Word := 0
  cause : Word := 0
  tval : Word := 0
  taskid : Word := 0
  rank : Word := 0
  gang : Word := 0
  vtile : Nat := 0
  ctx : Nat := 0
  stamp : Word := 0
  deadline : Word := 0
  scratch0 : Word := 0
  scratch1 : Word := 0
  ebud : Nat := 0
  ebudUsed : Bool := false
  psb : FMap Byte := []
  reads : List PendRead := []
  nextTx : Nat := 0
  arr : FMap Nat := []
  comp : FMap Nat := []
  out : List (Nat × SyncKind × Nat) := []
  wait : Option Nat := none
  pend : List Delivery := []
  handling : Option Source := none
  evLatch : Bool := false
  icache : Bank 32 := []
  rq : List Word := []
  rqHeld : List Word := []
  lcTok : Nat := 0
  csTok : Nat := 0
  slTok : Nat := 0
  tkAt : Option Nat := none
  xb : FMap XBar := []
  sc : Bank 16 := []
  win : FMap Window := []
  issueNo : Nat := 0
  lastCtx : Option Nat := none
  banks : List (Nat × Nat) := []
  ret : Option Word := none
  sent : Bool := false
  sleep : Option (Bool × Word) := none
  spawning : Option Spawning := none
  interrupted : List Spawning := []
  stop : Bool := false
  ve : Engine := {}
  xe : Engine := {}
  vec : Vec := {}
  mat : Mat := {}
  ce : CmdEngine := {}
  ie : CmdEngine := {}
  deriving DecidableEq, Repr

/-- A die (R25, R135, R372, R383). -/
structure Die where
  dbc : Word := 0
  halted : Bool := false
  outOfReset : Bool := false
  spawnQ : List Nat := []
  spill : List Nat := []
  deriving DecidableEq, Repr

/-- Who sends landing writes (R103, R153, R194, R308): a command, by its tile and issue number, or one partner's result of a
meeting, by twice the meeting's number plus one for the second partner. -/
inductive LandUnit where
  | cmd (tile no : Nat)
  | meeting (k : Nat)
  deriving DecidableEq, Repr

/-- Where a packet is on the mesh and the die links (R20 to R22): source and destination, age, the arbitration point it waits at
(65536 times the die, plus a number within the die), its input port there, the beats it has waited there, whether it has
reached its destination, and the transaction identifier and context of its header (R21). -/
structure Route where
  stile : Nat
  sdie : Nat
  dtile : Nat
  ddie : Nat
  age : Nat := 0
  point : Nat := 0
  port : Nat := 0
  waited : Nat := 0
  arrived : Bool := false
  txid : Nat := 0
  ctx : Nat := 0
  deriving DecidableEq, Repr

/-- A landing write or meeting result in flight, kinds 10 and 7 (R21, R103, R153, R194): the unit that sent it, the line's
offset, the bytes it writes, the descriptor of a line written in full, and the virtual tile that its command addresses, whose
physical tile it follows (R370). -/
structure Landing extends Route where
  unit : LandUnit
  line : Nat
  data : List (Nat × Byte)
  desc : Option (BitVec 16)
  vt : Option Nat := none
  deriving DecidableEq, Repr

/-- A line's landing bit set by a unit's landing writes at a tile (R153). -/
structure LineBit where
  unit : LandUnit
  tile : Nat
  line : Nat
  deriving DecidableEq, Repr

/-- An atomic on its way to its home (R82): operation, operand and expected value. -/
structure AmoReq where
  op : Nat
  b : Nat
  d : Nat
  deriving DecidableEq, Repr

/-- A packet of the other kinds: its route, the header fields of R21, its payload, and what it is for: a descriptor, an atomic,
an ld, which R84 does not order, or a payload of data; `no` is its place among the units of its tile (R341), `vt` the virtual tile
whose window it goes to, wherever that is when it is performed (R370). -/
structure Packet extends Route where
  len : Nat
  kind : Nat
  addr : Nat
  data : List Byte
  isDesc : Bool := false
  plain : Bool := false
  amo : Option AmoReq := none
  no : Nat := 0
  vt : Option Nat := none
  deriving DecidableEq, Repr

/-- A cached translation (R248): holder (a stream TLB: 2 * tile + engine, or a memory die: 2^20 + die), context, page, leaf
entry, and the buffer, by accession number and generation, and its view generation in which it was installed. -/
structure Xlat where
  holder : Nat
  ctx : Nat
  vpn : Nat
  pte : Word
  large : Bool
  vgen : Nat
  owner : Nat × Nat := (0, 0)
  deriving DecidableEq, Repr

/-- A walk under way (R248): context, page, whether it serves a write, the stream TLBs that asked and whether it is only a
prefetch (R249). -/
structure Walk where
  ctx : Nat
  vpn : Nat
  write : Bool
  askers : List Nat
  prefetch : Bool
  deriving DecidableEq, Repr

/-- A line of a memory die's hot-row store (R268). -/
structure HotLine where
  ctx : Nat
  line : Nat
  vgen : Nat
  data : List Byte
  desc : BitVec 16
  deriving DecidableEq, Repr

/-- A byte of a published frame that the companion or the driver has overwritten (R251): its key, the value it had, and the
pages, by context, that mapped it then and have not been invalidated since. -/
structure Overwritten where
  key : Nat
  was : Byte
  maps : List (Nat × Nat) := []
  deriving DecidableEq, Repr

/-- A descriptor of a published frame that the companion or the driver has overwritten (R251): its line, the value it had, and the
pages that mapped it then and have not been invalidated since. -/
structure OverwrittenDesc where
  line : Nat
  was : BitVec 16
  maps : List (Nat × Nat) := []
  deriving DecidableEq, Repr

/-- The key, by id and number, under which the device wrote an HBM frame, and the lines of it, by number, that have been written
otherwise since (R267, R385). -/
structure FrameKey where
  id : Nat
  gen : Nat
  lines : List Nat := []
  deriving DecidableEq, Repr

/-- A page request (R252 to R256): identifier, page, reason, write, engine, first parked command's tile; written to the
queue or held; the answer once given (true RETRY, false FAIL). -/
structure PageReq where
  id : Nat
  vpn : Nat
  reason : Nat
  write : Bool
  eng : Nat
  tile : Nat
  written : Bool := false
  failed : Bool := false
  deriving DecidableEq, Repr

/-- A live meeting tag (R120, R309) with its storeroom entry (R306). -/
structure Tag where
  tag : Nat
  len : Nat
  timeout : Nat
  entry : Nat := 0
  deriving DecidableEq, Repr

/-- A virtual tile held by a task (R143): its physical tile, and whether the task is SAVED. -/
structure VTile where
  phys : Nat
  saved : Bool := false
  deriving DecidableEq, Repr

/-- A context (R373 to R377): registers of its IOD and SCD pages by offset, the CTXROOT in
effect (R244), and the tables the service dies hold for it; `pool` are the pool frames in use, `left` those that have left the
pool (R335). -/
structure Ctx where
  live : Bool := false
  cgen : Nat := 0
  root : Word := 0
  iod : Bank 64 := [(0x018, 256), (0x088, 50000)]
  scd : Bank 64 := []
  inv : List Word := []
  invDone : Nat := 0
  nqWritten : Nat := 0
  nqLost : Nat := 0
  evWritten : Nat := 0
  evLost : Nat := 0
  prWritten : Nat := 0
  prStale : Nat := 0
  preqs : List PageReq := []
  transit : List Word := []
  tags : List Tag := []
  tagGen : FMap Nat := []
  tmap : FMap VTile := []
  acnt : FMap Nat := []
  acMiss : Nat := 0
  drq : List Word := []
  drqDone : Nat := 0
  rtres : Nat := 0
  pool : List Nat := []
  left : List Nat := []
  saveUsed : List Nat := []
  deriving DecidableEq, Repr

/-- A staged deterministic update (R272): its order key, the far page and offset in it, the format code and the addend. -/
structure Staged where
  key : List Nat
  page : Nat
  off : Nat
  fmt : Nat
  val : BitVec 32
  deriving DecidableEq, Repr

/-- A leaf that a swap replaced (R261): the view generation that it served last, the page and the entry. -/
structure OldLeaf where
  vgen : Nat
  vpn : Nat
  pte : Word
  large : Bool
  deriving DecidableEq, Repr

/-- What a command of another package has bound in a buffer (R382): its tag, its view, whether the buffer is its destination, and
whether a cappub awaits it (R119). -/
structure Bind where
  tag : Nat
  view : Nat
  writes : Bool := false
  awaited : Bool := false
  deriving DecidableEq, Repr

/-- An accession record (R243, R259 to R266, R382). `shadow` maps a page to its shadow frame, `stage` to the frame of its staged
updates, `swapping` is the tile whose cappub waits for its swap, `proxy` the owner's package and the remote handle of an
imported buffer, `binds` what the commands of other packages have bound, `imports` the handles of the
references that other packages hold (R382). -/
structure Buf where
  gen : Nat := 0
  live : Bool := false
  ctx : Nat := 0
  size : Nat := 0
  vbase : Nat := 0
  count : Nat := 0
  vgen : Nat := 0
  origin : Nat := 0
  shadow : FMap Nat := []
  staged : List Staged := []
  stage : FMap Nat := []
  old : List OldLeaf := []
  swapping : Option Nat := none
  proxy : Option (Nat × Word) := none
  binds : List Bind := []
  imports : List Word := []
  deriving DecidableEq, Repr

/-- The states of a node (R130), with the spawn queue before the table's processing (R115). -/
inductive NState where
  | queued | wait | held | ready | run | saved
  deriving DecidableEq, Repr

/-- Where a node came from (R124). -/
inductive NSource where
  | ring (r : Nat) (index : Nat)
  | spawn (tile : Nat)
  | graph (addr : Nat)
  deriving DecidableEq, Repr

/-- A node instance in the dependence table (R124 to R146): its record (eight words), handles, count and marks, state, the
class it waits in and whether it fell back, its bank or its place in the strict lane, order of becoming READY, passed-over
count, gang (physical tiles by rank) and virtual block, AOT of its last dispatch, restarts, snapshot
handles, whether an attempt did what forbids a restart, how it ended (code, cause, TVAL), and the members' saves, the transits that its attempts created and nothing has
redeemed, the shadow pages they wrote (buffer, page) and the tiles to avoid after a restart (R144), whether it holds a reserve
entry (R136), its place in the overflow area (R135), whether its gang stands suspended for a page of that area (R135), the
tile whose yield has given up its gang, when its save is to follow (R355), the ticks it has run since its dispatch and its limit (R366), the mark
of the reserved blocks of its save slots (R369), and whether its completion has sent its decrements and waits for them (R130,
R138). -/
structure Node where
  ctx : Nat
  rec_ : List Word
  handles : List Word := []
  source : NSource
  count : Nat := 0
  seen : Bool := false
  dead : Bool := false
  st : NState := .wait
  cls : Nat := 0
  fellBack : Bool := false
  bank : Nat := 0
  lane : Option Nat := none
  seq : Nat := 0
  passed : Nat := 0
  gang : List Nat := []
  vfirst : Nat := 0
  vsize : Nat := 0
  lastAot : Word := 0
  restarts : Nat := 0
  snapshot : Option (List Word) := none
  noRestart : Bool := false
  outcome : Option (Nat × Nat × Word) := none
  saves : List (Nat × Tile) := []
  xfers : List Word := []
  wrote : List (Nat × Nat) := []
  avoid : List Nat := []
  res : Bool := false
  spillAt : Option Nat := none
  overflow : Option Nat := none
  yielding : Option Nat := none
  ran : Nat := 0
  limit : Nat := 0
  saveTag : Nat := 0
  sending : Bool := false
  deriving DecidableEq, Repr

/-- A decrement on its way (R128, R129): kind 0 SKIP, 1 LIVE, 2 DEAD, the graph entry's address, the sender's node id, the
address of the list entry (R379), and whether TABLE_FULL has been posted for it (R138). -/
structure Edge where
  ctx : Nat
  kind : Nat
  addr : Nat
  sender : Word
  list : Nat
  full : Bool := false
  deriving DecidableEq, Repr

/-- A launch ring (R111 to R113, R378); `pend` are the node slots of its entries that have not yet been dispatched or
retired, oldest first (R133), `unret` those not yet retired (R134); `head` counts in full 64 bits (R112; log 16). -/
structure Ring where
  ctx : Nat
  host : Bool
  base : Nat
  widx : Nat
  lsize : Nat
  head : Word := 0
  tail : BitVec 32 := 0
  awake : Bool := false
  pend : List Nat := []
  unret : List Nat := []
  deriving DecidableEq, Repr

/-- An operand of a meeting (R305): context, tag, combine operation, the sender's node slot, virtual and physical tile, data,
destination, arrival tick with the ticks excluded (R311), its tag's storeroom entry, and whether it lies in the storeroom and at
which far address (R306, R375). -/
structure Operand where
  ctx : Nat
  tag : Nat
  op : Nat
  node : Nat
  vtile : Nat
  ptile : Nat
  data : List Byte
  dest : Word
  at_ : Word := 0
  timeout : Nat := 0
  entry : Nat := 0
  spilled : Bool := false
  strAt : Nat := 0
  deriving DecidableEq, Repr

/-- What reaches a station's input (R305, R354). -/
inductive StationIn where
  | operand (o : Operand)
  | withdraw (ctx tag : Nat)
  deriving DecidableEq, Repr

/-- A meeting operand or withdrawal on its way to a station, kind 6 (R21, R305). -/
structure Mail extends Route where
  station : Nat
  what : StationIn
  deriving DecidableEq, Repr

/-- A meeting station: waiting operands (in slots or spilled) and held input (R305, R306). -/
structure Station where
  waiting : List Operand := []
  held : List StationIn := []
  deriving DecidableEq, Repr

/-- A combined meeting whose results are still to write (R308): its station, both operands as sent, the result, the replies'
status, and per partner whether its result is written and whether a line was refused. -/
structure Meeting where
  id : Nat
  station : Nat := 0
  a : Operand
  b : Operand
  data : List Byte
  st : Nat
  aSent : Bool := false
  bSent : Bool := false
  aRefused : Bool := false
  bRefused : Bool := false
  deriving DecidableEq, Repr

/-- A retired record (R381). -/
structure Retired where
  kind : Nat
  die : Nat
  index : Nat
  reason : Nat
  deriving DecidableEq, Repr

/-- An entry of the deaccession record (R388). -/
structure Deaccession where
  aot : Word
  unit : Retired
  in60s : Nat
  in24h : Nat
  deriving DecidableEq, Repr

/-- The algorithms of the trust die (R384). -/
inductive Algorithm where
  | ecdsaP521 | sha512 | secp521r1 | aes256Gcm
  deriving DecidableEq, Repr

/-- The two mailboxes over which the trust die answers (R384): Data Object Exchange of the PCIe function, and the Ndezor Link's. -/
inductive Mailbox where
  | doe | ndezor
  deriving DecidableEq, Repr

/-- A firmware image as the boot ROM finds it (R383): the SHA-512 digest of its bytes, the digest in its manifest, the SHA-512 digest
of the root key that the manifest names, whether the manifest's ECDSA P-521 signature verifies against that key, and its security
version. -/
structure Image where
  digest : BitVec 512
  manifest : BitVec 512
  key : BitVec 512
  signed : Bool
  version : Nat
  deriving DecidableEq, Repr

/-- SPDM responses of the trust die (R384). -/
inductive SpdmResp where
  | version | capabilities
  | algorithms (asym hash exchange aead : Algorithm)
  | digests | certificate | challengeAuth
  | measurements (index : Nat) (digest : BitVec 512)
  | keyExchange | finish | endSessionAck | vendorDefined | unsupportedRequest (code : BitVec 8)
  deriving DecidableEq, Repr

/-- The trust die's SPDM session (R384): 0 none, 1 key exchanged, 2 secured; and the responses given, with their mailboxes, latest
first. -/
structure Spdm where
  session : Nat := 0
  sent : List (Mailbox × SpdmResp) := []
  deriving DecidableEq, Repr

/-- The package (R1, R7, R28, R380 to R389). `present` is the die mask; `errs` are the corrected errors (kind, die, index,
AOT); `hwLog` the source dies of packets dropped with HW_ERROR (R21); `marked` the units marked for retirement; `keyGen` counts the keys that each id has had (R385); `ckpt` a running checkpoint with the views it bound; `rootKey` the fused digest
of the root key, `fused` the fused version counters by die type, `images` the images that passed by die, and `bootFail` the die whose
image kept the package from starting (R383). -/
structure Pkg where
  dense : Bool := false
  badDies : List Nat := []
  booted : Bool := false
  linkUp : Bool := false
  retired : List Retired := []
  marked : List Retired := []
  catGen : Nat := 0
  lastChange : Word := 0
  index : Nat := 0
  packages : Nat := 1
  fmapDev : BitVec 128 := 0x7F
  fmapDrv : BitVec 128 := 0
  fmapOn : Bool := false
  ckctl : Word := 0
  ckpt : Option (List (Nat × Nat)) := none
  errs : List (Retired × Word) := []
  hwLog : List Nat := []
  deacc : List Deaccession := []
  deaccOver : Bool := false
  keys : List Nat := []
  keyGen : FMap Nat := []
  spdm : Spdm := {}
  rootKey : BitVec 512 := 0
  fused : FMap Nat := []
  images : FMap Image := []
  bootFail : Option Nat := none
  deriving DecidableEq, Repr

/-- What an event happens to and brings with it: the arguments of a row without an encoding. Each such meaning's docstring
says which it reads; the tile is State.cur. -/
structure Arg where
  que : Que := .lq
  cmd : CEng := .ce
  n : Nat := 0
  m : Nat := 0
  k : Nat := 0
  ctx : Nat := 0
  v : Word := 0
  page : Page := .pkg
  ok : Bool := false
  point : Option Nat := none
  answer : Option (Nat × Nat) := none
  list : List Nat := []
  data : List Byte := []
  span : Option SpanReq := none
  size : Nat := 8
  box : Mailbox := .doe
  images : FMap Image := []
  deriving DecidableEq, Repr

/-- One move of the machine (log 1): a sequencer runs a word, an engine runs a step, an event of the table happens, time
passes on every die and in AOT, or on one die alone (R25), a tile or a translation cache drops what it holds, a stream TLB
prefetches a page (R249). A word run by seqLate leaves its own-window accesses to be performed later (log 79), and a step run by
engPart reads at most so many lines in its turn (R342). -/
inductive Turn where
  | seq (tile : Nat)
  | seqLate (tile : Nat)
  | eng (tile : Nat) (e : Eng)
  | engPart (tile : Nat) (e : Eng) (n : Nat)
  | event (i : Instr) (tile : Nat) (e : Eng) (a : Arg)
  | time (beats ticks : Nat)
  | beats (die n : Nat)
  | evictCode (tile n : Nat)
  | evictXlat (n : Nat)
  | prefetch (tile : Nat) (e : CEng) (vpn : Nat)
  deriving DecidableEq, Repr

/-- The whole package and its memories. `late` says that the word in focus sends its accesses to the own window as packets, to
be performed later, where R84 lets it (log 79); `land` and `bits` are the landing writes in flight and the landing bits that they
set (R153); `overwritten` and `overDescs` are the bytes and descriptors that a read may still find until an invalidation (R251);
`frameKey` is the key under which the device wrote an HBM frame (R267); `part` bounds the lines that the step in focus reads in this
turn (R342); `spanOut` are the requests sent to other packages, by package, and `bound` the tags of the binds that their owners have
answered (R382). -/
structure State where
  agenda : List Turn := []
  cur : Nat := 0
  eng : Eng := .ve
  arg : Arg := {}
  fresh : Nat := 0
  aot : Word := 0
  mem : List Host.Cell := []
  desc : FMap (BitVec 16) := []
  dies : FMap Die := []
  tiles : FMap Tile := []
  land : List Landing := []
  bits : List LineBit := []
  late : Bool := false
  part : Option Nat := none
  net : List Packet := []
  tlb : List Xlat := []
  walks : List Walk := []
  hot : List HotLine := []
  overwritten : List Overwritten := []
  overDescs : List OverwrittenDesc := []
  frameKey : FMap FrameKey := []
  spanOut : List (Nat × SpanReq) := []
  bound : List Nat := []
  ctxs : FMap Ctx := []
  bufs : FMap Buf := []
  nodes : FMap Node := []
  igen : FMap Nat := []
  edges : List Edge := []
  rings : FMap Ring := []
  lfsr : BitVec 16 := 0xACE1
  seqNo : Nat := 0
  laneNo : Nat := 0
  reserve : Nat := 16
  stations : FMap Station := []
  meets : List Mail := []
  meetings : List Meeting := []
  meetNo : Nat := 0
  pkg : Pkg := {}
  deriving DecidableEq, Repr

/-- The package at power-on: every field at its reset value (R24, R25, R41, R42, R139, R237, R375, R383; log 3 to 5 for the
fields the manual gives none). No context is live and no tile runs a task. -/
def State.reset : State := {}

end Sys2Proof.Machine
end

