-- ==== Sys2Proof/Machine/Ops.lean ====
section
/-! DEFINITION. The operations the meanings share: tiles and registers, memory, near addresses, landing lines, replies,
deliveries, taking a trap and returning from one, failing a task, page tables, events and buffer references. -/

namespace Sys2Proof.Machine

/-- What an instruction or event answers. -/
abbrev Res := Host.Outcome State Fault Refusal

/-! ### Parts of the state -/

/-- The tile with physical number `t`; one not listed is as at reset. -/
def State.tile (s : State) (t : Nat) : Tile := FMap.getD {} s.tiles t
/-- Replace tile `t`. -/
def State.setTile (s : State) (t : Nat) (x : Tile) : State := { s with tiles := FMap.set s.tiles t x }
/-- Change tile `t` by `f`. -/
def State.modTile (s : State) (t : Nat) (f : Tile → Tile) : State := s.setTile t (f (s.tile t))
/-- The tile that the instruction or event is about. -/
def State.here (s : State) : Tile := s.tile s.cur
/-- Replace the tile that the instruction or event is about. -/
def State.setHere (s : State) (x : Tile) : State := s.setTile s.cur x
/-- Context `c`. -/
def State.ctxAt (s : State) (c : Nat) : Ctx := FMap.getD {} s.ctxs c
/-- Replace context `c`. -/
def State.setCtx (s : State) (c : Nat) (x : Ctx) : State := { s with ctxs := FMap.set s.ctxs c x }
/-- Change context `c` by `f`. -/
def State.modCtx (s : State) (c : Nat) (f : Ctx → Ctx) : State := s.setCtx c (f (s.ctxAt c))
/-- Die `d`. -/
def State.die (s : State) (d : Nat) : Die := FMap.getD {} s.dies d
/-- Replace die `d`. -/
def State.setDie (s : State) (d : Nat) (x : Die) : State := { s with dies := FMap.set s.dies d x }
/-- Change die `d` by `f`. -/
def State.modDie (s : State) (d : Nat) (f : Die → Die) : State := s.setDie d (f (s.die d))
/-- The accession record of number `a` (R243). -/
def State.buf (s : State) (a : Nat) : Buf := FMap.getD {} s.bufs a
/-- Replace the accession record of number `a`. -/
def State.setBuf (s : State) (a : Nat) (x : Buf) : State := { s with bufs := FMap.set s.bufs a x }
/-- Change the accession record of number `a` by `f`. -/
def State.modBuf (s : State) (a : Nat) (f : Buf → Buf) : State := s.setBuf a (f (s.buf a))
/-- Change the node in dependence-table entry `n`, if there is one. -/
def State.modNode (s : State) (n : Nat) (f : Node → Node) : State :=
  match FMap.get? s.nodes n with
  | some x => { s with nodes := FMap.set s.nodes n (f x) }
  | none => s
/-- Change the package record. -/
def State.modPkg (s : State) (f : Pkg → Pkg) : State := { s with pkg := f s.pkg }

/-- The die of a physical tile. -/
def dieOf (t : Nat) : Nat := t / 256
/-- The die beat counter that tile `t` sees (R25). -/
def State.dbc (s : State) (t : Nat) : Word := (s.die (dieOf t)).dbc

/-- Take the next free value (log 2). -/
def State.pick (s : State) : Nat := Config.freePick s.fresh
/-- The state once a free value has been taken. -/
def State.picked (s : State) : State := { s with fresh := s.fresh + 1 }

/-- The first `k` at or after `start`, among `fuel` tries wrapping within `[lo, lo + n)`, that satisfies `ok`. -/
def firstFree (ok : Nat → Bool) (lo n start : Nat) : Nat → Option Nat
  | 0 => none
  | fuel + 1 =>
    let k := lo + (start % n)
    if ok k then some k else firstFree ok lo n (start + 1) fuel

/-! ### Sequencer registers (R39) -/

/-- Read s register `r`; s0 reads zero. -/
def Tile.rd (x : Tile) (r : BitVec 5) : Word := if r = 0 then 0 else Bank.get x.s r.toNat
/-- Write s register `r`; a write to s0 is discarded. -/
def Tile.wr (x : Tile) (r : BitVec 5) (v : Word) : Tile :=
  if r = 0 then x else { x with s := FMap.set x.s r.toNat v }
/-- Read predicate `p`; p0 reads true. -/
def Tile.rdP (x : Tile) (p : BitVec 3) : Bool := if p = 0 then true else x.p.getLsbD p.toNat
/-- An 8-bit word with bit `k` set to `b`. -/
def setBit8 (v : BitVec 8) (k : Nat) (b : Bool) : BitVec 8 :=
  if b then v ||| ((1 : BitVec 8) <<< k) else v &&& ~~~((1 : BitVec 8) <<< k)
/-- Write predicate `p`; a write to p0 is discarded. -/
def Tile.wrP (x : Tile) (p : BitVec 3) (b : Bool) : Tile :=
  if p = 0 then x else { x with p := setBit8 x.p p.toNat b }
/-- The program counter moves to the next word (R62). -/
def Tile.adv (x : Tile) : Tile := { x with pc := x.pc + 4 }
/-- The instruction retires: write `d` and move to the next word. -/
def State.retire (s : State) (d : BitVec 5) (v : Word) : State := s.setHere ((s.here.wr d v).adv)
/-- Move to the next word. -/
def State.nextPc (s : State) : State := s.setHere s.here.adv

/-- An address that may be fetched from (R30): a multiple of 4 with bits [63:55] zero. -/
def pcOk (a : Word) : Bool := a.toNat % 4 = 0 ∧ a.toNat < 2 ^ 55

/-- Read capability slot `c`; an empty slot reads 0 (R118). -/
def Tile.cap (x : Tile) (c : Nat) : Word := Bank.get x.caps c
/-- Write capability slot `c`; 0 empties it. -/
def Tile.setCap (x : Tile) (c : Nat) (h : Word) : Tile := { x with caps := FMap.set x.caps c h }

/-- The engine registers `e`; e0 reads zero (R43). -/
def Engine.rdE (g : Engine) (r : BitVec 5) : Word := if r = 0 then 0 else Bank.get g.e r.toNat
/-- Write engine register `r`; a write to e0 is discarded (R43). -/
def Engine.wrE (g : Engine) (r : BitVec 5) (v : Word) : Engine :=
  if r = 0 then g else { g with e := FMap.set g.e r.toNat v }

/-- The engine of a tile by name. -/
def Tile.engine (x : Tile) : Eng → Engine
  | .ve => x.ve
  | .xe => x.xe
/-- Replace an engine of a tile. -/
def Tile.setEngine (x : Tile) (e : Eng) (g : Engine) : Tile :=
  match e with
  | .ve => { x with ve := g }
  | .xe => { x with xe := g }
/-- The command engine of a tile by name. -/
def Tile.cengine (x : Tile) : CEng → CmdEngine
  | .ce => x.ce
  | .ie => x.ie
/-- Replace a command engine of a tile. -/
def Tile.setCengine (x : Tile) (e : CEng) (g : CmdEngine) : Tile :=
  match e with
  | .ce => { x with ce := g }
  | .ie => { x with ie := g }

/-! ### Memory -/

/-- The byte at key `k`; a byte not listed reads zero (log 4). -/
def Mem.get (m : List Host.Cell) (k : Nat) : Byte := FMap.getD 0 m k
/-- Set the byte at key `k`, keeping the canonical form: zero bytes are not listed. -/
def Mem.set (m : List Host.Cell) (k : Nat) (b : Byte) : List Host.Cell :=
  if b = 0 then FMap.erase m k else FMap.set m k b
/-- Keys strictly rising from `lo` on, and no zero byte listed. -/
def Mem.wfFrom (lo : Nat) : List Host.Cell → Bool
  | [] => true
  | (k, b) :: t => decide (lo ≤ k) && decide (b ≠ 0) && Mem.wfFrom (k + 1) t
/-- The canonical form of the memory. -/
def Memory.wf (m : List Host.Cell) : Bool := Mem.wfFrom 0 m
/-- The `n` bytes from key `k` on. -/
def Mem.bytes (m : List Host.Cell) (k : Nat) : Nat → List Byte
  | 0 => []
  | n + 1 => Mem.get m k :: Mem.bytes m (k + 1) n
/-- Store a list of bytes from key `k` on. -/
def Mem.store (m : List Host.Cell) (k : Nat) : List Byte → List Host.Cell
  | [] => m
  | b :: t => Mem.store (Mem.set m k b) (k + 1) t
/-- Little-endian value of a list of bytes (R2). -/
def leNat : List Byte → Nat
  | [] => 0
  | b :: t => b.toNat + 256 * leNat t
/-- The `n` low bytes of a value, little-endian (R2). -/
def leBytes (v : Nat) : Nat → List Byte
  | 0 => []
  | n + 1 => BitVec.ofNat 8 v :: leBytes (v / 256) n

/-- Read `n` bytes at key `k` as a number. -/
def State.load (s : State) (k n : Nat) : Nat := leNat (Mem.bytes s.mem k n)
/-- Store `n` bytes of a number at key `k`. -/
def State.store (s : State) (k n v : Nat) : State := { s with mem := Mem.store s.mem k (leBytes v n) }
/-- Store a list of bytes at key `k`. -/
def State.storeBytes (s : State) (k : Nat) (l : List Byte) : State := { s with mem := Mem.store s.mem k l }
/-- The descriptor of the 64-byte line at key `k` (R13); one not listed is 0. -/
def State.descAt (s : State) (k : Nat) : BitVec 16 := FMap.getD 0 s.desc (k / 64)
/-- Set the descriptor of the line at key `k`. -/
def State.setDesc (s : State) (k : Nat) (v : BitVec 16) : State := { s with desc := FMap.set s.desc (k / 64) v }
/-- Drop the descriptors of the lines of `[k, k + n)`. -/
def State.clearDesc (s : State) (k n : Nat) : State :=
  { s with desc := s.desc.filter (fun d => decide (d.1 * 64 < k ∨ k + n ≤ d.1 * 64)) }
/-- Set every byte of `[k, k + n)` to zero, descriptors included (R14). -/
def State.clearMem (s : State) (k n : Nat) : State :=
  { s with mem := s.mem.filter (fun c => decide (c.1 < k ∨ k + n ≤ c.1)) }.clearDesc k n
/-- The key of offset `off` of tile `t`'s window. -/
def nearKey (t off : Nat) : Nat := t * Config.windowSize + off
/-- The key of a physical far address in tier `tier` (R267). -/
def farKey (tier addr : Nat) : Nat := (if tier = 0 then Config.hbmBase else Config.hostBase) + addr

/-! ### Scratchpad banks (R12, R349) -/

/-- The scratchpad bank of a window offset (R12). -/
def bankOf (off : Nat) : Nat := off / 32 % 48
/-- The banks of `n` bytes from an offset on. -/
def banksOf (off n : Nat) : List Nat :=
  if n = 0 then [] else (List.range ((off + n - 1) / 32 - off / 32 + 1)).map (fun k => bankOf (off + 32 * k))
/-- An access to `n` bytes at offset `off` takes their banks for the present beat; `rank` is the accessor's place in the order of
R349: 0 what arrives from the mesh, 1 the sequencer, 2 the CE, 3 the IE, 4 the class engine, 5 the VE (log 6). -/
def Tile.useBanks (x : Tile) (rank off n : Nat) : Tile :=
  { x with banks := (((banksOf off n).map (fun b => (b, rank))).filter (fun u => !x.banks.contains u)) ++ x.banks }
/-- Another accessor than that of `rank` has a bank of these bytes on the present beat (R349): the access is not granted on it. Where
that other comes later in the order of R349, the bank is gone all the same, so no run has it granted before one that it yields to. -/
def Tile.bankTaken (x : Tile) (rank off n : Nat) : Bool :=
  (banksOf off n).any (fun b => x.banks.any (fun u => decide (u.1 = b ∧ u.2 ≠ rank)))
/-- An access to tile `t`'s slice takes its banks. -/
def State.touch (s : State) (t rank off n : Nat) : State := s.modTile t (fun x => x.useBanks rank off n)

/-! ### Running tasks and holds -/

/-- A member's sequencer has work: the tile runs a task whose `done` it has not executed. -/
def Tile.active (x : Tile) : Bool := x.task.isSome && !x.fin
/-- A debugger holds the context: one of its running tiles lies on a halted die (R372). -/
def State.heldCtx (s : State) (c : Nat) : Bool :=
  s.tiles.any (fun t => t.2.task.isSome && decide (t.2.ctx = c) && (s.die (dieOf t.1)).halted)
/-- Tile `t` is held by a debugger (R372). -/
def State.held (s : State) (t : Nat) : Bool :=
  (s.die (dieOf t)).halted || ((s.tile t).task.isSome && s.heldCtx (s.tile t).ctx)

/-- The physical tiles that run the task of node slot `n`, with their ranks. -/
def State.members (s : State) (n : Nat) : List (Nat × Tile) := s.tiles.filter (fun t => decide (t.2.task = some n))

/-! ### Near addresses (R16 to R18) -/

/-- The outcome of checking a near access: the physical tile and offset, a wait for a saved or held window (R370), or the
cause of a trap. -/
inductive Near where
  | ok (tile off : Nat)
  | wait
  | bad (cause : Nat)
  deriving DecidableEq, Repr

/-- The near address of virtual tile `v` at offset `off`. -/
def nearOf (v off : Nat) : Word := BitVec.ofNat 64 (v * Config.windowSize + off)

/-- Where a near address lies, for context `c` (R16, R18 check 3, R143, R370). -/
def State.findNear (s : State) (c : Nat) (a : Word) : Near :=
  let off := a.toNat % Config.windowSize
  match FMap.get? (s.ctxAt c).tmap (a.toNat / Config.windowSize) with
  | none => .bad 0x03
  | some v =>
    if Config.scratchEnd ≤ off then .bad 0x03
    else if v.saved || s.held v.phys then .wait else .ok v.phys off

/-- The checks of R18 on an access of `size` bytes. -/
def State.near (s : State) (c : Nat) (a : Word) (size : Nat) : Near :=
  if 2 ^ 33 ≤ a.toNat then .bad 0x03
  else if a.toNat % size ≠ 0 then .bad 0x02
  else s.findNear c a

/-- The checks of R18 on an access that is required to lie in tile `t`'s own window (R95, R96, R99, R102): the offset, or
the cause. -/
def State.ownNear (s : State) (t : Nat) (a : Word) (size : Nat) : Except Nat Nat :=
  let off := a.toNat % Config.windowSize
  if 2 ^ 33 ≤ a.toNat then .error 0x03
  else if a.toNat % size ≠ 0 then .error 0x02
  else if a.toNat / Config.windowSize ≠ (s.tile t).vtile then .error 0x03
  else if Config.scratchEnd ≤ off then .error 0x03
  else .ok off

/-! ### Footprints and landing lines (R53, R153, R337) -/

/-- The range of a footprint word (R53): start and length in granules. Bits [31:30], which R53 gives as zero and whose other values
it gives no fate outside a command block, are not read (DESIGN CHOICE, log 85). -/
def rangeOf (w : Nat) : Nat × Nat := (w % 2 ^ 15, w / 2 ^ 15 % 2 ^ 15)
/-- The footprint of six range words (R51, R53). -/
def footprintOf (w : List Nat) : Footprint :=
  { rd := ((w.take 4).map rangeOf).filter (fun r => r.2 ≠ 0), wr := ((w.drop 4).map rangeOf).filter (fun r => r.2 ≠ 0) }
/-- The check of R53 on a range word; a word of length 0 is judged like any other (DESIGN CHOICE, log 98). -/
def rangeOk (w : Nat) : Bool := decide ((rangeOf w).1 + (rangeOf w).2 ≤ 24576)
/-- Two granule ranges meet. -/
def rangesMeet (a b : Nat × Nat) : Bool := decide (a.1 < b.1 + b.2 ∧ b.1 < a.1 + a.2)
/-- Two units conflict (R337). -/
def Footprint.conflicts (a b : Footprint) : Bool :=
  a.wr.any (fun r => b.wr.any (rangesMeet r) || b.rd.any (rangesMeet r)) || b.wr.any (fun r => a.rd.any (rangesMeet r))
/-- Granule `g` lies in one of the ranges. -/
def inRanges (l : List (Nat × Nat)) (g : Nat) : Bool := l.any (fun r => decide (r.1 ≤ g ∧ g < r.1 + r.2))

/-- Byte `k` of a command block. -/
def Cmd.byte (c : Cmd) (k : Nat) : Nat := c.blk.toNat / 2 ^ (8 * k) % 256
/-- `n` bytes of a command block from byte `k`. -/
def Cmd.field (c : Cmd) (k n : Nat) : Nat := c.blk.toNat / 2 ^ (8 * k) % 2 ^ (8 * n)
/-- The six range words of a block (R51). -/
def Cmd.ranges (c : Cmd) : List Nat := [c.field 40 4, c.field 44 4, c.field 48 4, c.field 52 4, c.field 56 4, c.field 60 4]
/-- The footprint of a command. -/
def Cmd.fp (c : Cmd) : Footprint := footprintOf c.ranges

/-- A line lies in the bytes that an MCAST addresses to virtual tile `vt`, if that is one of its receivers (R153, R193). -/
def Cmd.mcastTo (c : Cmd) (vt line : Nat) : Bool :=
  let a := c.field 23 5
  let off := a % Config.windowSize
  let len := if c.field 28 2 = 0 then 65536 else c.field 28 2
  decide (c.byte 0 = 0x03) && decide (off / 64 ≤ line ∧ 64 * line < off + len) &&
    (List.range 16).any (fun j => c.field 30 2 / 2 ^ j % 2 = 1 && decide (a / Config.windowSize + j = vt))
/-- A command sets the landing bit of a line of the slice of its own tile, virtual tile `vt`: a line of its write ranges until it
has ended or has performed its writes to the line, or a line that its own multicast has yet to reach (R153, R340). -/
def Cmd.marks (c : Cmd) (vt line : Nat) : Bool :=
  !c.clear.contains line && ((c.ended.isNone && (inRanges c.fp.wr (2 * line) || inRanges c.fp.wr (2 * line + 1))) || c.mcastTo vt line)
/-- A line of a tile's own slice is landing for a command of the tile (R340). -/
def Tile.ownLanding (x : Tile) (line : Nat) : Bool := (x.ce.cmds ++ x.ie.cmds).any (fun c => c.marks x.vtile line)
/-- The tile whose command a landing unit is. -/
def LandUnit.tile? : LandUnit → Option Nat
  | .cmd t _ => some t
  | .meeting _ => none
/-- The landing bit of a line set by landing writes of units other than `but` (R153). -/
def State.bitSet (s : State) (t line : Nat) (but : Option LandUnit) : Bool :=
  s.bits.any (fun b => decide (b.tile = t ∧ b.line = line ∧ some b.unit ≠ but))
/-- The landing bit of a line set by landing writes (R153). -/
def State.foreignLanding (s : State) (t line : Nat) : Bool := s.bitSet t line none
/-- The line that holds an offset is landing for a sequencer access (R80, R154). -/
def State.landing (s : State) (t off : Nat) : Bool :=
  (s.tile t).ownLanding (off / 64) || s.foreignLanding t (off / 64)
/-- An access of `n` bytes at an offset of tile `t`'s slice waits: its line is landing (R80, R154), or its bank is not granted to an
accessor of `rank` on this beat (R349). -/
def State.stalls (s : State) (t rank off n : Nat) : Bool := s.landing t off || (s.tile t).bankTaken rank off n
/-- A line of tile `t`'s slice is landing for the tile's unit numbered `no`: by landing writes other than its own, or by a command
that the tile accepted before the unit (R154, R341). -/
def State.unitLanding (s : State) (t line no : Nat) : Bool :=
  s.bitSet t line (some (.cmd t no)) ||
    ((s.tile t).ce.cmds ++ (s.tile t).ie.cmds).any (fun c => decide (c.no < no) && c.marks (s.tile t).vtile line)
/-- A line of tile `d`'s slice is landing for a command of another tile; the bits that the command's own landing writes set do
not act on it (DEDUCED, log 80). -/
def State.farLanding (s : State) (d line : Nat) (u : LandUnit) : Bool := (s.tile d).ownLanding line || s.bitSet d line (some u)

/-! ### Units of a tile and the range checker (R336 to R338) -/

/-- Entries of an engine with their footprints, by issue number: those queued and the one running, unless it has faulted
(R338). -/
def Engine.units (g : Engine) : List (Nat × Footprint) :=
  g.queue.map (fun e => (e.no, e.fp)) ++ (match g.run with
    | some r => if (r.ended.map (·.1)) = some 1 then [] else [(r.entry.no, r.entry.fp)]
    | none => [])
/-- A command has neither completed nor faulted (R338). -/
def Cmd.unended (c : Cmd) : Bool :=
  match c.ended with
  | some r => decide (r.code = 0 ∨ r.code = 2)
  | none => true
/-- Every unit of a tile that has not ended (R338). -/
def Tile.units (x : Tile) : List (Nat × Footprint) :=
  x.ve.units ++ x.xe.units ++ ((x.ce.cmds ++ x.ie.cmds).filter (·.unended)).map (fun c => (c.no, c.fp))
/-- The range checker lets the unit numbered `no` begin (R338). -/
def Tile.mayBegin (x : Tile) (no : Nat) (fp : Footprint) : Bool :=
  x.units.all (fun u => decide (no ≤ u.1) || !(fp.conflicts u.2))

/-! ### Replies, tokens and deliveries -/

/-- Places of a reply entry (R105). -/
def replyWord (src st sel val : Nat) : Word :=
  BitVec.ofNat 64 (src * 2 ^ 56 + st * 2 ^ 48 + sel * 2 ^ 44 + val % 2 ^ 44)
/-- The reply queue has room (R105). -/
def Tile.replyRoom (x : Tile) : Bool := decide (x.rq.length < Config.replyQueue)
/-- A reply reaches the queue, or is kept by its producer until there is room (R350); it sets the event latch (R106). -/
def Tile.reply (x : Tile) (w : Word) : Tile :=
  if x.replyRoom then { x with rq := x.rq ++ [w], evLatch := true } else { x with rqHeld := x.rqHeld ++ [w] }

/-- Tokens in a FIFO: 0 LC, 1 CS, 2 SL (R104). -/
def Tile.tokens (x : Tile) (pair : Nat) : Nat := if pair = 0 then x.lcTok else if pair = 1 then x.csTok else x.slTok
/-- Set the tokens of a FIFO. -/
def Tile.setTokens (x : Tile) (pair n : Nat) : Tile :=
  if pair = 0 then { x with lcTok := n } else if pair = 1 then { x with csTok := n } else { x with slTok := n }

/-- The place of a source in the order of R363. -/
def Source.rank : Source → Nat
  | .ce => 0
  | .ie => 1
  | .ve => 2
  | .xe => 3
  | .promise => 4
  | .landing => 5

/-- Put a delivery in its place: by beat, and on one beat by source (R363). -/
def insertDelivery (d : Delivery) : List Delivery → List Delivery
  | [] => [d]
  | h :: t => if h.beat = d.beat ∧ d.source.rank < h.source.rank then d :: h :: t else h :: insertDelivery d t

/-- FLT of an engine source is set (R361). -/
def Tile.setFlt (x : Tile) (src : Source) (b : Bool) : Tile :=
  match src with
  | .ce => { x with ce := { x.ce with flt := b } }
  | .ie => { x with ie := { x.ie with flt := b } }
  | .ve => { x with ve := { x.ve with flt := b } }
  | .xe => { x with xe := { x.xe with flt := b } }
  | .promise => x
  | .landing => x

/-- The mark that a second fault of a full slot leaves in the held TVAL (R362). -/
def secondFault : Source → Word
  | .promise => 0x20
  | .landing => 0x8000000000000000
  | _ => 0

/-- A fault becomes pending on beat `beat` (R361, R362). -/
def Tile.fault (x : Tile) (src : Source) (cause : Nat) (tval beat : Word) : Tile :=
  if x.pend.any (fun d => decide (d.source = src)) then
    { x with pend := x.pend.map fun d => if d.source = src then { d with tval := d.tval ||| secondFault src } else d }
  else
    { x with
      pend := insertDelivery { source := src, cause := cause, tval := tval, beat := beat } x.pend
      evLatch := x.evLatch || decide (src.rank < 4) }.setFlt src true

/-- A fault becomes pending at tile `t` now. -/
def State.raise (s : State) (t : Nat) (src : Source) (cause : Nat) (tval : Word) : State :=
  s.modTile t (fun x => x.fault src cause tval (s.dbc t))

/-- The delivery source of an engine. -/
def engSource : Eng → Source
  | .ve => .ve
  | .xe => .xe
/-- The delivery source of a command engine. -/
def cengSource : CEng → Source
  | .ce => .ce
  | .ie => .ie

/-! ### Page tables (R244 to R247) -/

/-- A register of a context's IOD page. -/
def Ctx.iodReg (c : Ctx) (off : Nat) : Word := Bank.get c.iod off
/-- A register of a context's SCD page. -/
def Ctx.scdReg (c : Ctx) (off : Nat) : Word := Bank.get c.scd off
/-- FMAPEN (R380): FMAPDEV AND FMAPDRV once enabled; 0 before the enabling write. -/
def Pkg.fmapen (p : Pkg) : BitVec 128 := if p.fmapOn then p.fmapDev &&& p.fmapDrv else 0

/-- The outcome of a walk: the key of the leaf entry, the entry, and whether it is large; or the reason of a request
(R252). -/
inductive WalkRes where
  | leaf (key pte : Nat) (large : Bool)
  | bad (reason : Nat)
  deriving DecidableEq, Repr

/-- TIER of an entry (R245). -/
def pteTier (e : Nat) : Nat := e / 2 ^ 6 % 4
/-- The frame address of an entry (R245). -/
def pteFrame (e : Nat) : Nat := e / 2 ^ 16 % 2 ^ 36 * 2 ^ 16
/-- A non-leaf entry of R246, given V set. -/
def nonLeafOk (e : Nat) : Bool := decide (e / 2 ^ 52 = 0 ∧ pteTier e < 2 ∧ e / 2 % 32 = 0 ∧ e / 2 ^ 8 % 256 = 0)
/-- The reason a leaf gives a request, if it does (R246, R252, R380, R385). -/
def State.leafBad (s : State) (e : Nat) (large : Bool) : Option Nat :=
  if e / 2 ^ 52 ≠ 0 ∨ pteTier e = 3 then some 3
  else if large ∧ pteFrame e / 2 ^ 16 % 2 ^ 13 ≠ 0 then some 3
  else if pteTier e = 2 then some 2
  else if pteTier e = 1 ∧ !s.pkg.fmapen.getLsbD 1 then some 3
  else if pteTier e = 0 ∧ !s.pkg.keys.contains (e / 2 ^ 8 % 256) then some 3
  else none

/-- Walk the page tables of context `c` for virtual page `vpn` (R244 to R246). An entry with V clear gives NOT_VALID
before it is judged malformed (DEDUCED, log 10). -/
def State.walk (s : State) (c vpn : Nat) : WalkRes :=
  let root := (s.ctxAt c).root.toNat
  if root % 2 = 0 ∨ 2 ≤ pteTier root then .bad 0
  else
    let k1 := farKey (pteTier root) (pteFrame root + 8 * (vpn / 2 ^ 26 % 2 ^ 13))
    let e1 := s.load k1 8
    if e1 % 2 = 0 then .bad 0
    else if !nonLeafOk e1 then .bad 3
    else
      let k2 := farKey (pteTier e1) (pteFrame e1 + 8 * (vpn / 2 ^ 13 % 2 ^ 13))
      let e2 := s.load k2 8
      if e2 % 2 = 0 then .bad 0
      else if bitN e2 5 then
        match s.leafBad e2 true with
        | some r => .bad r
        | none => .leaf k2 e2 true
      else if !nonLeafOk e2 then .bad 3
      else
        let k3 := farKey (pteTier e2) (pteFrame e2 + 8 * (vpn % 2 ^ 13))
        let e3 := s.load k3 8
        if e3 % 2 = 0 then .bad 0
        else if bitN e3 5 then .bad 3
        else match s.leafBad e3 false with
          | some r => .bad r
          | none => .leaf k3 e3 false

/-- The physical key of page `vpn` under a leaf entry. -/
def leafKey (pte vpn : Nat) (large : Bool) : Nat :=
  farKey (pteTier pte) (pteFrame pte + (if large then vpn % 2 ^ 13 * 2 ^ 16 else 0))

/-- OR bits into a 64-bit entry in memory (R247, R257). -/
def State.orEntry (s : State) (k mask : Nat) : State := s.store k 8 (s.load k 8 ||| mask)

/-! ### Queues in host memory (R237, R238, R253, R374, R379) -/

/-- A queue of 2^LSIZE entries is enabled (R237). -/
def lsizeOk (ctl : Word) : Bool := decide (4 ≤ ctl.toNat % 32 ∧ ctl.toNat % 32 ≤ 16)
/-- An enabled queue has room for an entry (R238). -/
def queueRoom (ctl : Word) (written : Nat) : Bool :=
  lsizeOk ctl && decide ((written + 2 ^ 32 - ctl.toNat / 2 ^ 32) % 2 ^ 32 < 2 ^ (ctl.toNat % 32))
/-- The key of the slot of entry SEQ in a queue of entries of `size` bytes (R238). -/
def queueSlot (base ctl : Word) (seq size : Nat) : Nat :=
  farKey 1 (base.toNat / 2 ^ 12 * 2 ^ 12 + size * ((seq + 2 ^ 32 - 1) % 2 ^ 32 % 2 ^ (ctl.toNat % 32)))
/-- Store 64-bit words in a row. -/
def State.storeWords (s : State) (k : Nat) : List Nat → State
  | [] => s
  | w :: t => (s.store k 8 w).storeWords (k + 8) t

/-- Post an event to the context's event queue (R131, R379); with no room it is lost (R374). -/
def State.post (s : State) (c code cause a b : Nat) : State :=
  let x := s.ctxAt c
  let ctl := x.scdReg 0x008
  if queueRoom ctl x.evWritten then
    let seq := (x.evWritten + 1) % 2 ^ 32
    let s := s.storeWords (queueSlot (x.scdReg 0x000) ctl seq 32) [code + cause * 256, a, b, c * 2 ^ 48 + seq]
    s.modCtx c (fun x => { x with evWritten := seq })
  else s.modCtx c (fun x => { x with evLost := min (x.evLost + 1) (2 ^ 32 - 1) })

/-! ### Handles, references and shadows (R117, R242 to R243, R263 to R266) -/

/-- The accession number of a handle (R117). -/
def accOf (h : Word) : Nat := h.toNat % 2 ^ 32
/-- The generation of a handle. -/
def genOf (h : Word) : Nat := h.toNat / 2 ^ 32 % 2 ^ 16
/-- The rights of a handle: 0 R, 1 W, 2 PUB, 3 XFER, 4 DUP, 5 NARROW. -/
def hasRight (h : Word) (k : Nat) : Bool := h.getLsbD (48 + k)
/-- The handle names a live buffer of context `c` and is not stale (R117). -/
def State.fresh? (s : State) (c : Nat) (h : Word) : Bool :=
  decide (h.toNat / 2 ^ 54 = 0) && (s.buf (accOf h)).live && decide ((s.buf (accOf h)).gen = genOf h)
    && decide ((s.buf (accOf h)).ctx = c) && decide (accOf h ≠ 0)
/-- A handle of accession number `a` with rights `r`. -/
def handleOf (a gen r : Nat) : Word := BitVec.ofNat 64 (r * 2 ^ 48 + gen * 2 ^ 32 + a)

/-- A command writes the buffer `a`: one of its far destinations names it. -/
def Cmd.writes (c : Cmd) (a : Nat) : Bool :=
  let far := fun (k : Nat) => decide (c.byte k / 128 = 1)
  let slot := fun (k : Nat) => c.byte k % 64
  let dst : List Nat :=
    match c.byte 0 with
    | 0x01 | 0x04 => if far 17 then [slot 17] else []
    | 0x12 | 0x13 | 0x16 => if far 16 then [slot 16] else []
    | _ => []
  c.caps.any (fun x => dst.contains x.1 && decide (accOf x.2.1 = a))

/-- The handles that a tile holds: in its slots, and taken from them by spawns that wait or were interrupted (R115). -/
def Tile.slotHandles (x : Tile) : List Word :=
  x.caps.map (·.2) ++ (x.spawning.toList ++ x.interrupted).flatMap (·.handles)
/-- The references with W to buffer `a` (R263). -/
def State.wRefs (s : State) (a : Nat) : Bool :=
  let w := fun (h : Word) => decide (accOf h = a) && hasRight h 1
  let cmdW := fun (x : Tile) => (x.ce.cmds ++ x.ie.cmds).any (fun c => c.ended.isNone && c.writes a)
  let slotW := fun (x : Tile) => x.slotHandles.any w
  s.tiles.any (fun t => slotW t.2 || cmdW t.2)
    || s.ctxs.any (fun c => c.2.transit.any w) || (s.buf a).imports.any w
    || s.nodes.any (fun n => n.2.handles.any w || (n.2.snapshot.getD []).any w
        || n.2.saves.any (fun t => slotW t.2 || cmdW t.2))

/-- Return pool frames to context `c`'s pool (R263, R266). -/
def State.freeFrames (s : State) (c : Nat) (l : List Nat) : State :=
  s.modCtx c (fun x => { x with pool := x.pool.filter (fun f => !l.contains f) })

/-- Discard the shadows of a buffer and its staged updates, with the frames of both (R263). -/
def State.discardShadows (s : State) (a : Nat) : State :=
  let b := s.buf a
  (s.freeFrames b.ctx ((b.shadow ++ b.stage).map (·.2))).setBuf a { b with shadow := [], staged := [], stage := [] }

/-- The tag under which a command binds in another package: its tile, package and issue number (R382; DESIGN CHOICE, log 99). -/
def State.bindTag (s : State) (born no : Nat) : Nat := 2 ^ 19 * no + 2 ^ 13 * (s.pkg.index % 64) + born
/-- The package whose command a tag names. -/
def tagPackage (g : Nat) : Nat := g / 2 ^ 13 % 64
/-- A request goes to package `p` (R382). -/
def State.sendSpan (s : State) (p : Nat) (q : SpanReq) : State := { s with spanOut := s.spanOut ++ [(p, q)] }
/-- The driver's access reaches the aperture: the link has trained, and the access is one of 64 bits (R373). -/
def State.apertureTakes (s : State) : Bool := s.pkg.linkUp && decide (s.arg.size = 8)

/-- Drop every cached translation and hot-row line of pages `[lo, lo + n)` of context `c` (R250). -/
def State.dropXlat (s : State) (c lo n : Nat) : State :=
  { s with
    tlb := s.tlb.filter (fun x => !(decide (x.ctx = c ∧ (if x.large then x.vpn / 2 ^ 13 * 2 ^ 13 < lo + n ∧
      lo < (x.vpn / 2 ^ 13 + 1) * 2 ^ 13 else lo ≤ x.vpn ∧ x.vpn < lo + n))))
    hot := s.hot.filter (fun l => !(decide (l.ctx = c ∧ lo ≤ l.line / 2 ^ 10 ∧ l.line / 2 ^ 10 < lo + n))) }

/-- Pages `[lo, lo + n)` of context `c` show what the companion or the driver has written to their frames (R251). -/
def State.seenAll (s : State) (c lo n : Nat) : State :=
  let left := fun (l : List (Nat × Nat)) => l.filter (fun m => !decide (m.1 = c ∧ lo ≤ m.2 ∧ m.2 < lo + n))
  { s with
    overwritten := (s.overwritten.map (fun o => { o with maps := left o.maps })).filter (fun o => !o.maps.isEmpty)
    overDescs := (s.overDescs.map (fun o => { o with maps := left o.maps })).filter (fun o => !o.maps.isEmpty) }
/-- An invalidation of pages `[lo, lo + n)` of context `c` completes: no cached translation and no hot-row line of them remains
(R250), and their frames show what has been written to them from outside (R251). -/
def State.invalidate (s : State) (c lo n : Nat) : State := (s.dropXlat c lo n).seenAll c lo n

/-- The key of the level-3 entry of a page, when the tables above it are there (R244). -/
def State.leafSlot (s : State) (c vpn : Nat) : Option Nat :=
  let root := (s.ctxAt c).root.toNat
  if root % 2 = 0 ∨ 2 ≤ pteTier root then none
  else
    let e1 := s.load (farKey (pteTier root) (pteFrame root + 8 * (vpn / 2 ^ 26 % 2 ^ 13))) 8
    if e1 % 2 = 0 ∨ !nonLeafOk e1 then none
    else
      let e2 := s.load (farKey (pteTier e1) (pteFrame e1 + 8 * (vpn / 2 ^ 13 % 2 ^ 13))) 8
      if e2 % 2 = 0 ∨ !nonLeafOk e2 then none
      else some (farKey (pteTier e2) (pteFrame e2 + 8 * (vpn % 2 ^ 13)))
/-- Write the leaf of each of `n` pages from `vpn` with V clear, returning pool frames, whatever else the leaf holds (R266). -/
def State.unmapPages (s : State) (c vpn : Nat) : Nat → State
  | 0 => s
  | n + 1 =>
    let s := match s.leafSlot c vpn with
      | some k =>
        let e := s.load k 8
        if e % 2 = 1 then (if pteTier e = 0 then s.freeFrames c [pteFrame e] else s).store k 8 (e / 2 * 2) else s
      | none => s
    s.unmapPages c (vpn + 1) n

/-- The pages of a buffer. -/
def Buf.pages (b : Buf) : Nat := (b.size + 0xFFFF) / 0x10000

/-- Release one replaced frame: to its pool, or to the driver with an event (R261). -/
def State.releaseFrame (s : State) (c : Nat) (o : OldLeaf) : State :=
  let e := o.pte.toNat
  if pteTier e = 0 ∧ (s.ctxAt c).pool.contains (pteFrame e) then s.freeFrames c [pteFrame e]
  else s.post c 0x23 0 (pteFrame e) (pteTier e)
/-- Release the replaced frames of buffer `a` that none of the views listed still reads (R261). -/
def State.releaseUnread (s : State) (a : Nat) (views : List Nat) : State :=
  let b := s.buf a
  let busy := fun (o : OldLeaf) => views.any (fun v => decide (v ≤ o.vgen))
  (b.old.filter (fun o => !busy o)).foldl (fun s o => s.releaseFrame b.ctx o)
    (s.setBuf a { b with old := b.old.filter busy })
/-- The views of buffer `a` that a checkpoint or commands of other packages read (R382, R389). -/
def State.outerViews (s : State) (a : Nat) : List Nat :=
  ((s.pkg.ckpt.getD []).filter (fun y => decide (y.1 = a))).map (·.2) ++ (s.buf a).binds.map (·.view)
/-- The pool frames that the leaves of `n` pages from `vpn` name pass to the driver with the pages (R335). -/
def State.leavePool (s : State) (c vpn : Nat) : Nat → State
  | 0 => s
  | n + 1 =>
    (match s.walk c vpn with
      | .leaf _ e _ =>
        if pteTier e = 0 ∧ (s.ctxAt c).pool.contains (pteFrame e) then
          s.modCtx c (fun x => { x with pool := x.pool.filter (fun f => decide (f ≠ pteFrame e)), left := pteFrame e :: x.left })
        else s
      | .bad _ => s).leavePool c (vpn + 1) n
/-- The shadows of buffer `a` that an attempt wrote are its no more: they have been published, or are gone (R144, R263). -/
def State.forgetWrites (s : State) (a : Nat) : State :=
  { s with nodes := s.nodes.map (fun n => (n.1, { n.2 with wrote := n.2.wrote.filter (fun w => decide (w.1 ≠ a)) })) }

/-- What happens to a buffer once a reference of it has gone (R263, R266): at COUNT zero it retires (a proxy's owner then drops
its reference, R382), the frames that swaps replaced in it being released first (R335); with no reference that carries W its
shadows go. -/
def State.settle (s : State) (a : Nat) : State :=
  let b := s.buf a
  if !b.live then s
  else if b.count = 0 then
    let s := ((s.discardShadows a).forgetWrites a).releaseUnread a (s.outerViews a)
    let s := match b.proxy with
      | some q => s.sendSpan q.1 (SpanReq.dropRef q.2)
      | none => if b.origin = 0 then
        (s.unmapPages b.ctx (b.vbase / 2 ^ 16) b.pages).invalidate b.ctx (b.vbase / 2 ^ 16) b.pages
      else (s.leavePool b.ctx (b.vbase / 2 ^ 16) b.pages).post b.ctx 0x24 0 a b.vbase
    s.modBuf a (fun b => { b with live := false, gen := b.gen + 1 })
  else if s.wRefs a then s else (s.discardShadows a).forgetWrites a

/-- Drop one reference of buffer `a` (R264). The reference itself is gone from the state before. -/
def State.dropRef (s : State) (a : Nat) : State :=
  (s.modBuf a (fun b => { b with count := b.count - 1 })).settle a

/-- Drop one reference for each handle of a list, in order. -/
def State.dropRefs (s : State) : List Word → State
  | [] => s
  | h :: t => (if h = 0 then s else s.dropRef (accOf h)).dropRefs t

/-- A spawn that is interrupted while it waits leaves its slots empty, and executed again goes on with the handles that it took
from them (R115; log 30). -/
def Tile.unspawn (x : Tile) : Tile :=
  match x.spawning with
  | none => x
  | some p => { x with spawning := none, interrupted := p :: x.interrupted }

/-- Empty every capability slot of tile `t`, one reference each, with those of its interrupted spawns (R115, R116, R142). -/
def State.dropSlots (s : State) (t : Nat) : State :=
  let hs := (s.tile t).slotHandles
  (s.modTile t (fun x => { x with caps := [], spawning := none, interrupted := [] })).dropRefs hs

/-! ### Stopping engines (R97) and failing a task (R142, R352) -/

/-- A reply of an engine entry (R95): SRC 3 for the VE, 4 for the class engine. -/
def engReply (e : Eng) (st val : Nat) : Word := replyWord (match e with | .ve => 3 | .xe => 4) st 0 (val % 2 ^ 17)

/-- Discard the queued entries of a step-table engine, and stop the running one (R97). -/
def Tile.stopEngine (x : Tile) (e : Eng) : Tile :=
  let g := x.engine e
  let x := (g.queue.filter (·.reply)).foldl (fun x _ => x.reply (engReply e 4 0)) x
  let g := { g with queue := [] }
  match g.run with
  | none => x.setEngine e g
  | some r =>
    if r.ended.isSome then x.setEngine e g
    else
      let x := x.setEngine e { g with run := none }
      if r.entry.reply then x.reply (engReply e 4 r.step) else x

/-- What estop returns (R97): the index of the step that would have executed next, or all ones. -/
def Engine.stopIndex (g : Engine) : Word :=
  match g.run with
  | some r => if r.ended.isSome then 0xFFFFFFFFFFFFFFFF else BitVec.ofNat 64 r.step
  | none => 0xFFFFFFFFFFFFFFFF

/-- Barrier `n` of a tile (R101). -/
def Tile.xbar (x : Tile) (n : Nat) : XBar := FMap.getD {} x.xb n
/-- One completion signalled to a transfer barrier (R101); the event latch is set when the count reaches 0 (R106). -/
def Tile.signalXb (x : Tile) (n code : Nat) : Tile :=
  let b := x.xbar n
  let b := { pending := b.pending - 1, status := max b.status code }
  { x with xb := FMap.set x.xb n b, evLatch := x.evLatch || decide (b.pending = 0) }

/-- SRC of a command engine's reply (R105). -/
def cengSrc : CEng → Nat
  | .ce => 1
  | .ie => 2

/-- SEL of a chain block's reply (R207): the counter that it posts to, 0 when it posts nothing. -/
def Cmd.chainSel (c : Cmd) : Nat := if bitN (c.byte 1) 1 then c.byte 2 / 16 else 0
/-- The reply of a command (R105, R206, R207): SEL is its barrier, or that of a chain block. -/
def Cmd.replyOf (c : Cmd) (e : CEng) (st val : Nat) : Word :=
  replyWord (cengSrc e) st (match c.xb with | some n => n | none => if c.chain then c.chainSel else 0) val

/-- A command has started: it has begun, or removed its token (R344). -/
def Cmd.started (c : Cmd) : Bool := c.begun || c.popped
/-- One handle of each buffer that a list names. -/
def oneEach : List Word → List Word
  | [] => []
  | h :: r => h :: (oneEach r).filter (fun g => decide (accOf g ≠ accOf h))
/-- The references that a command holds: one to each buffer that its slots name (R99, R264). -/
def Cmd.refs (c : Cmd) : List Word := oneEach (c.caps.map (·.2.1))

/-- A command reads the buffer in slot `k` (R155). -/
def Cmd.readsSlot (c : Cmd) (k : Nat) : Bool :=
  [0x01, 0x02, 0x03, 0x10, 0x11, 0x13, 0x15].contains (c.byte 0) && decide (128 ≤ c.byte 16 ∧ c.byte 16 % 64 = k)
/-- Every tile of the package, with those of saved tasks. -/
def State.allTiles (s : State) : List Tile := s.tiles.map (·.2) ++ s.nodes.flatMap (fun n => n.2.saves.map (·.2))
/-- Every accepted command of the package. -/
def State.allCmds (s : State) : List Cmd := s.allTiles.flatMap (fun x => x.ce.cmds ++ x.ie.cmds)
/-- The views of buffer `a` that something still reads: accepted commands with a source in it, a checkpoint, commands of other
packages (R261, R382, R389). -/
def State.boundViews (s : State) (a : Nat) : List Nat :=
  (s.allCmds.flatMap (fun c => (c.caps.filter (fun y => decide (accOf y.2.1 = a) && c.readsSlot y.1)).map (·.2.2))) ++ s.outerViews a
/-- Release every replaced frame of buffer `a` that no bound view still reads (R261). -/
def State.releaseOld (s : State) (a : Nat) : State := s.releaseUnread a (s.boundViews a)
/-- The owner learns that a command that named a proxy of its buffer has ended (R382). -/
def State.endBinds (s : State) (born no : Nat) (l : List Word) : State :=
  l.foldl (fun s h => match (s.buf (accOf h)).proxy with
    | some q => s.sendSpan q.1 (SpanReq.endCmd (accOf q.2) (s.bindTag born no))
    | none => s) s
/-- A command that has left its tile reads nothing more: its references go, and at once the replaced frames that it was the last to
read are released (R261, R264, R335). -/
def State.endRefs (s : State) (c : Cmd) : State :=
  c.refs.foldl (fun s h => s.releaseOld (accOf h)) ((s.endBinds c.born c.no c.refs).dropRefs c.refs)

/-- Discard the commands of a command engine that have not started (R97, R344): barrier ABORT, reply STOPPED, references
dropped; a chain fetches no further block, and runs until the last of its blocks that has started ends. A command that has removed its
token and waits for the range checker has started (R344) and stays, and the replies of those that go carry VAL 0 (DESIGN CHOICE, log
98). -/
def State.discardCmds (s : State) (t : Nat) (e : CEng) : State :=
  let g := (s.tile t).cengine e
  let gone := g.cmds.filter (fun c => !c.started)
  let s := s.modTile t fun x =>
    let x := x.setCengine e { g with
      cmds := g.cmds.filter (·.started)
      chain := none
      chainLast := if g.chain.isSome || g.chainLast.isSome then
        ((g.cmds.filter (fun c => c.started && c.chain)).getLast?).map (·.no) else none }
    gone.foldl (fun x c =>
      let x := match c.xb with | some n => x.signalXb n 3 | none => x
      if bitN (c.byte 1) 4 then x.reply (c.replyOf e 4 0) else x) x
  gone.foldl (·.endRefs) s

/-- The member stands inside a condw or a cappub, or a spawn whose node has been taken, which nothing interrupts (R92, R115). -/
def Tile.inside (x : Tile) : Bool := x.sent || x.ret.isSome
/-- Stop a member of a failed task (R142): engines as by estop, buffer discarded, slots dropped; one inside a condw or a cappub once it
has retired (R92). -/
def State.stopMember (s : State) (t : Nat) : State :=
  if (s.tile t).inside then s.modTile t (fun x => { x with stop := true })
  else
    let s := s.modTile t (fun x =>
      { (x.unspawn.stopEngine .ve).stopEngine .xe with psb := [], fin := true, wait := none, sleep := none, reads := [], stop := false })
    ((s.discardCmds t .ce).discardCmds t .ie).dropSlots t

/-- End the task of node slot `n` with a failure (R131, R142): every member is stopped, and the node keeps the outcome until
it retires. -/
def State.failTask (s : State) (n code cause : Nat) (tval : Word) : State :=
  let s := (s.members n).foldl (fun s m => s.stopMember m.1) s
  s.modNode n (fun d => { d with outcome := some (code, cause, tval), overflow := none, yielding := none })

/-- Fail the member on tile `t`: the task retires TASK_TRAP with CAUSE and TVAL (R142, R352, R358). -/
def State.fail (s : State) (t cause : Nat) (tval : Word) : State :=
  match (s.tile t).task with
  | some n => s.failTask n 0x14 cause tval
  | none => s.stopMember t

/-! ### Taking a trap and returning from it (R358, R359) -/

/-- A trap raised by a word (`d` clear) or a delivery (`d` set) is taken at tile `t` (R358). -/
def State.take (s : State) (t cause : Nat) (tval : Word) (d : Bool) : State :=
  let x := s.tile t
  if x.hm || decide (x.tvec = 0) || !pcOk x.tvec then s.fail t cause tval
  else s.setTile t { x with
    epc := x.pc ||| (if d then 1 else 0)
    cause := BitVec.ofNat 64 cause
    tval := tval
    hm := true
    sleep := none
    pc := x.tvec }

/-- The word at the current tile raises a trap (R62, R92). -/
def State.trap (s : State) (cause : Nat) (tval : Word) : State := s.take s.cur cause tval false

/-- TVAL of a SCHEDULE_MISS that carries a reason (R348). -/
def missTval (why step : Nat) : Word := BitVec.ofNat 64 (2 ^ 63 + why * 2 ^ 16 + step % 2 ^ 16)
/-- The start step of a queued entry. -/
def Entry.start (e : Entry) : Nat :=
  match e.kind with
  | .run _ s _ => s
  | _ => 0
/-- A queued stamped entry misses (R348): it is dropped without a reply, and the fault becomes pending. -/
def Tile.dropEntry (x : Tile) (e : Eng) (q : Entry) (tval beat : Word) : Tile :=
  let g := x.engine e
  (x.setEngine e { g with queue := g.queue.filter (fun k => decide (k.no ≠ q.no)) }).fault (engSource e) 0x11 tval beat
/-- A queued stamped entry misses for a reason code (R348). -/
def Tile.missEntry (x : Tile) (e : Eng) (q : Entry) (why : Nat) (beat : Word) : Tile := x.dropEntry e q (missTval why q.start) beat
/-- Once FLT is clear, a stamped entry of the engine whose beat has passed misses with WHY 6 (R361). -/
def Tile.missHeld (x : Tile) (src : Source) (beat : Word) : Tile :=
  let go := fun (e : Eng) =>
    match (x.engine e).queue.find? (fun q => match q.stamp with | some b => b.ult beat | none => false) with
    | some q => x.missEntry e q 6 beat
    | none => x
  match src with
  | .ve => go .ve
  | .xe => go .xe
  | _ => x

/-- rte (R359): resume at EPC, leave handler mode, and let the engine whose delivery was handled take its units again, unless another
fault of it is pending (R361). A target that fails R30 traps with the target as TVAL (R364). -/
def State.rte (s : State) (t : Nat) : State :=
  let x := s.tile t
  if x.epc.toNat ≥ 2 ^ 55 then s.take t 0x04 (BitVec.ofNat 64 (x.epc.toNat / 4 * 4)) false
  else
    let x := match x.handling with
      | some src =>
        if x.pend.any (fun d => decide (d.source = src)) then { x with handling := none }
        else { x.setFlt src false with handling := none }.missHeld src (s.dbc t)
      | none => x
    s.setTile t { x with pc := BitVec.ofNat 64 (x.epc.toNat / 4 * 4), hm := false }

/-- The node id of the node in a table entry (R127): IGEN and SLOT. -/
def State.nodeId (s : State) (n : Nat) : Nat := FMap.getD 0 s.igen n * 2 ^ 20 + n

/-! ### Tiles, dies and the catalogue (R7, R28, R381) -/

/-- The type of a die (R7, R381): its class for a compute die, 0x10 a memory die, 0x11 the IOD, 0x12 the trust die, 0x13 the scheduler
die. -/
def typeCode (d : Nat) : Nat :=
  if d < 14 then Config.dieClass d else if d < 24 then 0x10 else if d = 24 then 0x11 else if d = 25 then 0x12 else 0x13
/-- A die is present in the running package (R7, R383). -/
def State.present (s : State) (d : Nat) : Bool :=
  decide (d < 27 ∧ d ≠ 14 ∧ d ≠ 15) && !(s.pkg.dense && decide (d = 8 ∨ d = 9)) && !s.pkg.badDies.contains d
/-- A unit is retired (R381). -/
def State.retired (s : State) (kind d i : Nat) : Bool :=
  s.pkg.retired.any (fun r => decide (r.kind = kind ∧ r.die = d ∧ r.index = i))
/-- A unit is marked for retirement (R28, R388). -/
def State.marked (s : State) (kind d i : Nat) : Bool :=
  s.pkg.marked.any (fun r => decide (r.kind = kind ∧ r.die = d ∧ r.index = i))
/-- The catalogue lists tile `t` as usable (R28). -/
def State.usable (s : State) (t : Nat) : Bool :=
  s.present (dieOf t) && decide (t % 256 < Config.dieTiles (dieOf t)) && !s.retired 1 (dieOf t) (t % 256)
/-- The usable tiles of a die. -/
def State.usableTiles (s : State) (d : Nat) : Nat :=
  ((List.range (Config.dieTiles d)).filter (fun i => s.usable (256 * d + i))).length
/-- A class is present: it has a usable tile; class 0 stands for any (R29). -/
def State.classPresent (s : State) (k : Nat) : Bool :=
  (List.range 14).any (fun d => (decide (k = 0) || decide (Config.dieClass d = k)) && decide (0 < s.usableTiles d))
/-- The tile has no class engine (R11). -/
def noXe (t : Nat) : Bool := decide (Config.dieClass (dieOf t) = 3)

/-- The state register with a number (R41, R42). -/
def State.stateReg (s : State) (t k : Nat) : Word :=
  let x := s.tile t
  match k with
  | 0 => (if x.hm then 1 else 0) + (if x.pend.isEmpty then 0 else 2)
  | 1 => x.tvec
  | 2 => x.epc
  | 3 => x.cause
  | 4 => x.tval
  | 5 => x.taskid
  | 6 => x.rank
  | 7 => x.gang
  | 8 => nearOf x.vtile 0
  | 9 => BitVec.ofNat 64 x.ctx
  | 10 => BitVec.ofNat 64 x.ebud
  | 11 => x.stamp
  | 12 => x.deadline
  | 13 => x.scratch0
  | 14 => x.scratch1
  | 15 => BitVec.ofNat 64 s.pkg.fmapen.toNat
  | _ => 0

end Sys2Proof.Machine
end

