-- ==== Sys2Proof/Machine/Flags.lean ====
section
/-! DEFINITION. The condition computations: sequencer compares (R37, R69) and predicate operations (R70). The machine has no
flags register: a compare writes one predicate. -/

namespace Sys2Proof.Machine

/-- The condition of R37 and R69 on two words: eq, ne, lt, ge, le, gt, the unsigned four, bits and nbits. -/
def condHolds (c : BitVec 4) (a b : Word) : Bool :=
  match c.toNat with
  | 0 => a = b
  | 1 => a ≠ b
  | 2 => a.slt b
  | 3 => !a.slt b
  | 4 => a.ult b
  | 5 => !a.ult b
  | 6 => a.sle b
  | 7 => !a.sle b
  | 8 => a.ule b
  | 9 => !a.ule b
  | 10 => a &&& b ≠ 0
  | _ => a &&& b = 0

end Sys2Proof.Machine
end

