-- ==== Sys2Proof/Machine/Alu.lean ====
section
/-! DEFINITION. Integer arithmetic, immediates, bitfields, compares, predicates and select (R62 to R71). -/

namespace Sys2Proof.Machine

/-- A two-operand ALU instruction: `d` receives `f` of the two register values (R63). -/
def alu (f : Word → Word → Word) (d a b : BitVec 5) (s : State) : Res :=
  .next (s.retire d (f (s.here.rd a) (s.here.rd b)))
/-- A one-operand ALU instruction (R63). -/
def alu1 (f : Word → Word) (d a : BitVec 5) (s : State) : Res := .next (s.retire d (f (s.here.rd a)))

/-- The upper half of a signed product (R63 mulh). -/
def mulHigh (a b : Word) : Word := ((a.signExtend 128 * b.signExtend 128) >>> 64).truncate 64
/-- The upper half of an unsigned product (R63 mulhz). -/
def mulHighU (a b : Word) : Word := ((a.zeroExtend 128 * b.zeroExtend 128) >>> 64).truncate 64
/-- Signed division truncated towards zero, with the edge cases of R64. -/
def divS (a b : Word) : Word := if b = 0 then 0xFFFFFFFFFFFFFFFF else a.sdiv b
/-- Unsigned division with the edge case of R64. -/
def divU (a b : Word) : Word := if b = 0 then 0xFFFFFFFFFFFFFFFF else a / b
/-- Signed remainder with the sign of `a` (R63), and the edge cases of R64. -/
def remS (a b : Word) : Word := if b = 0 then a else a.srem b
/-- Unsigned remainder with the edge case of R64. -/
def remU (a b : Word) : Word := if b = 0 then a else a % b
/-- The shift amount b[5:0] (R63). -/
def shamt (b : Word) : Nat := b.toNat % 64
/-- Sign-extend the low 32 bits (R63 addw, subw). -/
def sextW (v : Word) : Word := (v.truncate 32 : BitVec 32).signExtend 64
/-- Number of leading zero bits among the low `n` bits (R63). -/
def clzN (v : Word) : Nat → Nat
  | 0 => 0
  | n + 1 => if v.getLsbD n then 0 else clzN v n + 1
/-- Number of trailing zero bits from bit `k` on, among `n` bits (R63). -/
def ctzN (v : Word) (k : Nat) : Nat → Nat
  | 0 => 0
  | n + 1 => if v.getLsbD k then 0 else ctzN v (k + 1) n + 1
/-- Number of one bits among the low `n` bits (R63). -/
def popN (v : Word) : Nat → Nat
  | 0 => 0
  | n + 1 => (if v.getLsbD n then 1 else 0) + popN v n

/-- ADD: R63. -/
def execAdd (d a b : BitVec 5) (s : State) : Res := alu (fun a b => a + b) d a b s
/-- SUB: R63. -/
def execSub (d a b : BitVec 5) (s : State) : Res := alu (fun a b => a - b) d a b s
/-- ADDW: R63. -/
def execAddw (d a b : BitVec 5) (s : State) : Res := alu (fun a b => sextW (a + b)) d a b s
/-- SUBW: R63. -/
def execSubw (d a b : BitVec 5) (s : State) : Res := alu (fun a b => sextW (a - b)) d a b s
/-- MUL: R63. -/
def execMul (d a b : BitVec 5) (s : State) : Res := alu (fun a b => a * b) d a b s
/-- MULH: R63. -/
def execMulh (d a b : BitVec 5) (s : State) : Res := alu (fun a b => mulHigh a b) d a b s
/-- MULHZ: R63. -/
def execMulhz (d a b : BitVec 5) (s : State) : Res := alu (fun a b => mulHighU a b) d a b s
/-- DIV: R63, R64. -/
def execDiv (d a b : BitVec 5) (s : State) : Res := alu (fun a b => divS a b) d a b s
/-- DIVZ: R63, R64. -/
def execDivz (d a b : BitVec 5) (s : State) : Res := alu (fun a b => divU a b) d a b s
/-- REM: R63, R64. -/
def execRem (d a b : BitVec 5) (s : State) : Res := alu (fun a b => remS a b) d a b s
/-- REMZ: R63, R64. -/
def execRemz (d a b : BitVec 5) (s : State) : Res := alu (fun a b => remU a b) d a b s
/-- AND: R63. -/
def execAnd (d a b : BitVec 5) (s : State) : Res := alu (fun a b => a &&& b) d a b s
/-- OR: R63. -/
def execOr (d a b : BitVec 5) (s : State) : Res := alu (fun a b => a ||| b) d a b s
/-- XOR: R63. -/
def execXor (d a b : BitVec 5) (s : State) : Res := alu (fun a b => a ^^^ b) d a b s
/-- ANDN: R63. -/
def execAndn (d a b : BitVec 5) (s : State) : Res := alu (fun a b => a &&& ~~~b) d a b s
/-- SHL: R63. -/
def execShl (d a b : BitVec 5) (s : State) : Res := alu (fun a b => a <<< shamt b) d a b s
/-- SHR: R63. -/
def execShr (d a b : BitVec 5) (s : State) : Res := alu (fun a b => a >>> shamt b) d a b s
/-- SAR: R63. -/
def execSar (d a b : BitVec 5) (s : State) : Res := alu (fun a b => a.sshiftRight (shamt b)) d a b s
/-- MIN: R63. -/
def execMin (d a b : BitVec 5) (s : State) : Res := alu (fun a b => if a.sle b then a else b) d a b s
/-- MAX: R63. -/
def execMax (d a b : BitVec 5) (s : State) : Res := alu (fun a b => if a.sle b then b else a) d a b s
/-- MINZ: R63. -/
def execMinz (d a b : BitVec 5) (s : State) : Res := alu (fun a b => if a.ule b then a else b) d a b s
/-- MAXZ: R63. -/
def execMaxz (d a b : BitVec 5) (s : State) : Res := alu (fun a b => if a.ule b then b else a) d a b s
/-- CLZ: R63. -/
def execClz (d a : BitVec 5) (s : State) : Res := alu1 (fun a => BitVec.ofNat 64 (clzN a 64)) d a s
/-- CTZ: R63. -/
def execCtz (d a : BitVec 5) (s : State) : Res := alu1 (fun a => BitVec.ofNat 64 (ctzN a 0 64)) d a s
/-- POPC: R63. -/
def execPopc (d a : BitVec 5) (s : State) : Res := alu1 (fun a => BitVec.ofNat 64 (popN a 64)) d a s
/-- ADDI: R65. -/
def execAddi (d a : BitVec 5) (imm : BitVec 16) (s : State) : Res := alu1 (fun a => a + imm.signExtend 64) d a s
/-- ANDI: R65. -/
def execAndi (d a : BitVec 5) (imm : BitVec 16) (s : State) : Res := alu1 (fun a => a &&& imm.zeroExtend 64) d a s
/-- ORI: R65. -/
def execOri (d a : BitVec 5) (imm : BitVec 16) (s : State) : Res := alu1 (fun a => a ||| imm.zeroExtend 64) d a s
/-- XORI: R65. -/
def execXori (d a : BitVec 5) (imm : BitVec 16) (s : State) : Res := alu1 (fun a => a ^^^ imm.zeroExtend 64) d a s
/-- SHLI: R66. -/
def execShli (d a : BitVec 5) (n : BitVec 6) (s : State) : Res := alu1 (fun a => a <<< n.toNat) d a s
/-- SHRI: R66. -/
def execShri (d a : BitVec 5) (n : BitVec 6) (s : State) : Res := alu1 (fun a => a >>> n.toNat) d a s
/-- SARI: R66. -/
def execSari (d a : BitVec 5) (n : BitVec 6) (s : State) : Res := alu1 (fun a => a.sshiftRight n.toNat) d a s
/-- MOVW: d := sext(imm16, 16) (R67). -/
def execMovw (d : BitVec 5) (imm : BitVec 16) (s : State) : Res := .next (s.retire d (imm.signExtend 64))
/-- A word with bits [16k+15:16k] replaced (R67). -/
def putHalf (v : Word) (k : BitVec 2) (imm : BitVec 16) : Word :=
  (v &&& ~~~((0xFFFF : Word) <<< (16 * k.toNat))) ||| (imm.zeroExtend 64 <<< (16 * k.toNat))
/-- MOVK: R67. -/
def execMovk (d : BitVec 5) (k : BitVec 2) (imm : BitVec 16) (s : State) : Res :=
  .next (s.retire d (putHalf (s.here.rd d) k imm))

/-- The word 2^w - 1. -/
def lowMask (w : Nat) : Word := BitVec.ofNat 64 (2 ^ w - 1)
/-- The field of R68, `w` = wm1 + 1. -/
def bfField (a : Word) (pos wm1 : BitVec 6) : Word := (a >>> pos.toNat) &&& lowMask (wm1.toNat + 1)
/-- Sign-extend the low `w` bits (R68). -/
def sextBits (v : Word) (w : Nat) : Word := (v <<< (64 - w)).sshiftRight (64 - w)
/-- BFX: R68. -/
def execBfx (d a : BitVec 5) (pos wm1 : BitVec 6) (s : State) : Res := alu1 (fun a => bfField a pos wm1) d a s
/-- BFXS: R68. -/
def execBfxs (d a : BitVec 5) (pos wm1 : BitVec 6) (s : State) : Res :=
  alu1 (fun a => sextBits (bfField a pos wm1) (wm1.toNat + 1)) d a s
/-- The insertion of R68. -/
def bfInsert (d a : Word) (pos wm1 : BitVec 6) : Word :=
  (d &&& ~~~(lowMask (wm1.toNat + 1) <<< pos.toNat)) ||| ((a &&& lowMask (wm1.toNat + 1)) <<< pos.toNat)
/-- BFI: R68. -/
def execBfi (d a : BitVec 5) (pos wm1 : BitVec 6) (s : State) : Res :=
  .next (s.retire d (bfInsert (s.here.rd d) (s.here.rd a) pos wm1))

/-- An instruction that writes predicate `pd` retires (R69, R70). -/
def State.retireP (s : State) (pd : BitVec 3) (b : Bool) : State := s.setHere ((s.here.wrP pd b).adv)
/-- CMP: R69. -/
def execCmp (pd : BitVec 3) (cond : BitVec 4) (a b : BitVec 5) (s : State) : Res :=
  .next (s.retireP pd (condHolds cond (s.here.rd a) (s.here.rd b)))
/-- CMPI: R69. -/
def execCmpi (pd : BitVec 3) (cond : BitVec 4) (a : BitVec 5) (imm : BitVec 14) (s : State) : Res :=
  .next (s.retireP pd (condHolds cond (s.here.rd a) (imm.signExtend 64)))
/-- PAND: R70. -/
def execPand (pd pa pb : BitVec 3) (s : State) : Res := .next (s.retireP pd (s.here.rdP pa && s.here.rdP pb))
/-- POR: R70. -/
def execPor (pd pa pb : BitVec 3) (s : State) : Res := .next (s.retireP pd (s.here.rdP pa || s.here.rdP pb))
/-- PXOR: R70. -/
def execPxor (pd pa pb : BitVec 3) (s : State) : Res := .next (s.retireP pd (xor (s.here.rdP pa) (s.here.rdP pb)))
/-- PANDN: R70. -/
def execPandn (pd pa pb : BitVec 3) (s : State) : Res := .next (s.retireP pd (s.here.rdP pa && !s.here.rdP pb))
/-- PNOT: R70. -/
def execPnot (pd pa : BitVec 3) (s : State) : Res := .next (s.retireP pd (!s.here.rdP pa))
/-- PSET: R70. -/
def execPset (pd : BitVec 3) (v : BitVec 1) (s : State) : Res := .next (s.retireP pd (v = 1))
/-- SEL: R71. -/
def execSel (d a b : BitVec 5) (p : BitVec 3) (s : State) : Res :=
  .next (s.retire d (if s.here.rdP p then s.here.rd a else s.here.rd b))

end Sys2Proof.Machine
end

