-- ==== Sys2Proof/Machine/Far.lean ====
section
/-! DEFINITION. Far memory as commands reach it: held translations, bound views, access counters and notifications, the
hot-row store, shadows and page requests (R235 to R240, R242 to R263, R268). -/

namespace Sys2Proof.Machine

/-! ### Translations (R248, R260) -/

/-- The holder number of a stream TLB. -/
def streamHolder (t : Nat) (e : CEng) : Nat := 2 * t + (match e with | .ce => 0 | .ie => 1)
/-- The holder number of the memory die that caches page `vpn` (R248). -/
def dieHolder (vpn : Nat) : Nat := 2 ^ 20 + 16 + vpn % 8
/-- A held translation covers a page. -/
def Xlat.covers (x : Xlat) (vpn : Nat) : Bool :=
  if x.large then decide (x.vpn / 2 ^ 13 = vpn / 2 ^ 13) else decide (x.vpn = vpn)
/-- The buffer that page `vpn` of context `c` belongs to. -/
def State.pageBuf (s : State) (c vpn : Nat) : Option (Nat × Buf) :=
  s.bufs.find? (fun b => b.2.live && b.2.proxy.isNone
      && decide (b.2.ctx = c ∧ b.2.vbase / 2 ^ 16 ≤ vpn ∧ vpn < b.2.vbase / 2 ^ 16 + b.2.pages))
/-- The view generation under which page `vpn` is installed: that of the buffer it belongs to (R248, R260). -/
def State.pageView (s : State) (c vpn : Nat) : Nat := ((s.pageBuf c vpn).map (·.2.vgen)).getD 0
/-- The buffer of page `vpn`, by accession number and generation; zeros for a page of none. -/
def State.pageOwner (s : State) (c vpn : Nat) : Nat × Nat := ((s.pageBuf c vpn).map (fun b => (b.1, b.2.gen))).getD (0, 0)

/-- A translation of page `vpn` that a stream TLB or its memory die holds, installed under view `v` or a later one of the buffer
the page belongs to (R248, R260); one installed before the page was its buffer's serves no view after a swap. -/
def State.held? (s : State) (holder c vpn v : Nat) : Option Xlat :=
  s.tlb.find? (fun x => decide ((x.holder = holder ∨ x.holder = dieHolder vpn) ∧ x.ctx = c) && x.covers vpn &&
    (if x.owner = s.pageOwner c vpn then decide (v ≤ x.vgen) else decide (v = 0)))

/-- The leaf that serves page `vpn` of buffer `a` in view `v`: the leaf it had there if a swap has replaced it (R261; the first
one replaced from that view on), or a held translation. -/
def State.viewLeaf (s : State) (holder c a v vpn : Nat) : Option (Nat × Bool) :=
  match (s.buf a).old.find? (fun o => decide (v ≤ o.vgen ∧ (if o.large then o.vpn / 2 ^ 13 = vpn / 2 ^ 13 else o.vpn = vpn))) with
  | some o => some (o.pte.toNat, o.large)
  | none => (s.held? holder c vpn v).map (fun x => (x.pte.toNat, x.large))

/-- Add a walk of page `vpn` for a stream TLB; a walk under way serves every one that asks, and one that finds every walker busy asks
again (R248). -/
def State.askWalk (s : State) (holder c vpn : Nat) (write prefetch : Bool) : State :=
  if s.walks.any (fun w => decide (w.ctx = c ∧ w.vpn = vpn)) then
    { s with walks := s.walks.map fun w =>
        if w.ctx = c ∧ w.vpn = vpn then
          { w with askers := if w.askers.contains holder then w.askers else w.askers ++ [holder]
                   write := w.write || write, prefetch := w.prefetch && prefetch }
        else w }
  else if Config.walkers ≤ s.walks.length then s
  else { s with walks := s.walks ++ [{ ctx := c, vpn := vpn, write := write, askers := [holder], prefetch := prefetch }] }

/-! ### Access counters and notifications (R235 to R239, R258) -/

/-- Write one notification, or count it lost (R237, R238). -/
def State.notify (s : State) (c vpn count : Nat) : State :=
  let x := s.ctxAt c
  let ctl := x.iodReg 0x028
  if queueRoom ctl x.nqWritten then
    let seq := (x.nqWritten + 1) % 2 ^ 32
    let s := s.storeWords (queueSlot (x.iodReg 0x020) ctl seq 16) [vpn * 2 ^ 16 + 1, c * 2 ^ 48 + count * 2 ^ 32 + seq]
    s.modCtx c (fun x => { x with nqWritten := seq })
  else s.modCtx c (fun x => { x with nqLost := min (x.nqLost + 1) (2 ^ 32 - 1) })

/-- Counters in use by every context (R258). -/
def State.counters (s : State) : Nat := s.ctxs.foldl (fun n c => n + c.2.acnt.length) 0

/-- Count one line read of page `vpn` (R235, R236, R258). -/
def State.countRead (s : State) (c vpn : Nat) : State :=
  let x := s.ctxAt c
  match FMap.get? x.acnt vpn with
  | none =>
    if 2 ^ 20 ≤ s.counters then s.modCtx c (fun x => { x with acMiss := min (x.acMiss + 1) (2 ^ 32 - 1) })
    else
      let s := s.modCtx c (fun x => { x with acnt := FMap.set x.acnt vpn 1 })
      if (x.iodReg 0x018).toNat % 2 ^ 16 = 1 then s.notify c vpn 1 else s
  | some n =>
    if n = 0xFFFF then s
    else
      let s := s.modCtx c (fun x => { x with acnt := FMap.set x.acnt vpn (n + 1) })
      if (x.iodReg 0x018).toNat % 2 ^ 16 = n + 1 then s.notify c vpn (n + 1) else s

/-- A line read through a leaf is counted when the leaf is of tier 1 with WB clear (R235). -/
def State.countLeaf (s : State) (c vpn pte : Nat) : State :=
  if pteTier pte = 1 ∧ !bitN pte 2 then s.countRead c vpn else s

/-! ### Reading a line of a bound view -/

/-- A line as a command read it. -/
structure LineRead where
  data : List Byte
  desc : BitVec 16
  deriving DecidableEq, Repr

/-- The bytes of a line that may still read as before a write of the companion or the driver: one for which no invalidation of the
page has completed since reads as old or new (R251), by a free value. -/
def State.olds (s : State) (c vpn k : Nat) : List (Option Byte) :=
  (List.range 64).map fun i =>
    match s.overwritten.find? (fun o => decide (o.key = k + i ∧ (c, vpn) ∈ o.maps)) with
    | some o => if Config.freePick (s.fresh + i) % 2 = 0 then some o.was else none
    | none => none
/-- The descriptor that the line may still be read with in the same way (R251). -/
def State.oldDesc (s : State) (c vpn k : Nat) : Option (BitVec 16) :=
  match s.overDescs.find? (fun o => decide (o.line = k / 64 ∧ (c, vpn) ∈ o.maps)) with
  | some o => if Config.freePick (s.fresh + 64) % 2 = 0 then some o.was else none
  | none => none
/-- The key that a leaf names, with its number, as the device writes a frame under it (R267, R385). -/
def State.leafKeyId (s : State) (pte : Nat) : FrameKey := { id := pte / 2 ^ 8 % 256, gen := FMap.getD 0 s.pkg.keyGen (pte / 2 ^ 8 % 256) }
/-- The frame that holds key `k`, read through the leaf `pte`, is of host memory, or an HBM frame of the package's stacks (R26) that
the device, if it wrote it, last wrote under the leaf's key (R267). -/
def State.frameFits (s : State) (pte k : Nat) : Bool :=
  decide (pteTier pte ≠ 0) || (decide (k - Config.hbmBase < Config.hbmSize) &&
    (match FMap.get? s.frameKey ((k - Config.hbmBase) / 2 ^ 16) with
      | some x => decide (x.id = (s.leafKeyId pte).id ∧ x.gen = (s.leafKeyId pte).gen)
      | none => true))
/-- The line at key `k` reads as it stands through the leaf `pte`: its frame does, or it has been written from outside since the
device wrote the frame (log 83). -/
def State.keyFits (s : State) (pte k : Nat) : Bool :=
  s.frameFits pte k || (decide (k - Config.hbmBase < Config.hbmSize) &&
    (match FMap.get? s.frameKey ((k - Config.hbmBase) / 2 ^ 16) with
      | some x => x.lines.contains ((k - Config.hbmBase) / 64 % 1024)
      | none => false))
/-- The line of page `vpn` at far virtual address `va`, as it is read through the leaf `pte` (R251, R267; log 83). -/
def State.frameLine (s : State) (c vpn va pte : Nat) (large : Bool) : State × LineRead :=
  let k := leafKey pte vpn large + va % 2 ^ 16
  let data := if s.keyFits pte k then
      List.zipWith (fun o b => o.getD b) (s.olds c vpn k) (Mem.bytes s.mem k 64)
    else (List.range 64).map (Config.scrambled s.fresh)
  let sure := s.keyFits pte k && !s.overwritten.any (fun o => decide (k ≤ o.key ∧ o.key < k + 64 ∧ (c, vpn) ∈ o.maps))
    && !s.overDescs.any (fun o => decide (o.line = k / 64 ∧ (c, vpn) ∈ o.maps))
  (if sure then s else s.picked, { data := data, desc := (s.oldDesc c vpn k).getD (s.descAt k) })

/-- The hot-row line of a view, by its place in the store. -/
def State.hotAt (s : State) (c v line : Nat) : Option (Nat × HotLine) :=
  findIdxFrom (fun h => decide (h.ctx = c ∧ h.line = line ∧ h.vgen = v)) s.hot 0
/-- The set of its memory die's store that a line lies in, whose die is that of its page (R248, R268): which set is open (DESIGN
CHOICE, log 84). -/
def hotSet (line : Nat) : Nat := (line / 2 ^ 13 * 2 ^ 10 + line % 2 ^ 10) % Config.hotSets
/-- Two lines lie in one set of one memory die's store (R268). -/
def sameSet (a b : Nat) : Bool := decide (a / 2 ^ 10 % 8 = b / 2 ^ 10 % 8 ∧ hotSet a = hotSet b)
/-- The cache slice of a line is retired or marked for retirement, so that nothing new is put into it (R388); a slice is a set
(DESIGN CHOICE, log 84). -/
def State.sliceGone (s : State) (line : Nat) : Bool :=
  let die := 16 + line / 2 ^ 10 % 8
  s.retired 2 die (hotSet line) || s.marked 2 die (hotSet line)
/-- Put a line into the store, least recently used first: in a set whose ways are all taken the first one of the list goes (R268,
R269). A request takes the line's bytes in the move that looks the line up, so its pin ends before another request can meet it. -/
def State.putHot (s : State) (h : HotLine) : State :=
  if s.sliceGone h.line then s
  else
  let n := (s.hot.filter (fun x => sameSet x.line h.line)).length
  let l := if Config.hotWays ≤ n then
      match findIdxFrom (fun x => sameSet x.line h.line) s.hot 0 with
      | some i => dropAt s.hot i.1
      | none => s.hot
    else s.hot
  { s with hot := l ++ [h] }

/-- Read the 64-byte line at far virtual address `va` (64-aligned) of buffer `a` in view `v`, counting it (R235) when `count`
is set, and through the hot-row store, which allocates the line when `alloc` is set (R268). None where no translation is
held. -/
def State.readFarLine (s : State) (holder c a v va : Nat) (count alloc : Bool) : Option (State × LineRead) :=
  if (s.buf a).proxy.isSome then
    some (s.picked, { data := (List.range 64).map (Config.remoteByte s.fresh)
                      desc := BitVec.ofNat 16 (leNat [Config.remoteByte s.fresh 64, Config.remoteByte s.fresh 65]) })
  else match s.viewLeaf holder c a v (va / 2 ^ 16) with
  | none => none
  | some (pte, large) =>
    let s := if count then s.countLeaf c (va / 2 ^ 16) pte else s
    match s.hotAt c v (va / 64) with
    | some (i, h) => some ({ s with hot := dropAt s.hot i ++ [h] }, { data := h.data, desc := h.desc })
    | none =>
      let x := s.frameLine c (va / 2 ^ 16) va pte large
      some (if alloc then x.1.putHot { ctx := c, line := va / 64, vgen := v, data := x.2.data, desc := x.2.desc } else x.1, x.2)

/-! ### Page requests (R252 to R254) -/

/-- Raise a page request, or join one that is outstanding for the same page and reason; its identifier is a free one. -/
def State.request (s : State) (c vpn reason : Nat) (write : Bool) (eng tile : Nat) : State × Nat :=
  let x := s.ctxAt c
  match x.preqs.find? (fun r => decide (r.vpn = vpn ∧ r.reason = reason ∧ !r.failed)) with
  | some r => (s, r.id)
  | none =>
    let id := (firstFree (fun k => x.preqs.all (fun r => decide (r.id ≠ k))) 0 (2 ^ 20) s.pick (2 ^ 20)).getD 0
    (s.picked.setCtx c { x with preqs := x.preqs ++
      [{ id := id, vpn := vpn, reason := reason, write := write, eng := eng, tile := tile }] }, id)

/-! ### Shadows (R243, R259) -/

/-- Frames of a context's pool that are free: the k-th frame from FPBASE, k below N (R375). -/
def Ctx.poolFrame (x : Ctx) (k : Nat) : Nat := (x.iodReg 0x070).toNat / 2 ^ 16 % 2 ^ 36 * 2 ^ 16 + k * 2 ^ 16
/-- Take a free frame of the pool, a free one (R375); none if none is left. -/
def State.takeFrame (s : State) (c : Nat) : Option (State × Nat) :=
  let x := s.ctxAt c
  let n := (x.iodReg 0x078).toNat % 2 ^ 32
  if n = 0 then none
  else match firstFree (fun k => !x.pool.contains (x.poolFrame k) && !x.left.contains (x.poolFrame k)) 0 n s.pick n with
    | none => none
    | some k => some (s.picked.setCtx c { x with pool := x.poolFrame k :: x.pool }, x.poolFrame k)

/-- Copy `n` bytes of memory and their line descriptors from key `src` to key `dst` (R259). -/
def State.copyRange (s : State) (src dst n : Nat) : State :=
  let cells := s.mem.filter (fun c => decide (src ≤ c.1 ∧ c.1 < src + n))
  let descs := s.desc.filter (fun d => decide (src ≤ d.1 * 64 ∧ d.1 * 64 < src + n))
  let s := s.clearMem dst n
  let s := { s with mem := cells.foldl (fun m (c : Nat × Byte) => Mem.set m (c.1 - src + dst) c.2) s.mem }
  { s with desc := descs.foldl (fun m (d : Nat × BitVec 16) => FMap.set m (d.1 - src / 64 + dst / 64) d.2) s.desc }

/-- The device writes a frame under the key of a leaf (R267). -/
def State.keyFrame (s : State) (frame key : Nat) : State :=
  { s with frameKey := FMap.set s.frameKey (frame / 2 ^ 16) { id := key, gen := FMap.getD 0 s.pkg.keyGen key } }
/-- The lines of the frame at key `k` that do not read as they stand through the leaf `pte` (R267). -/
def State.unfit (s : State) (pte k : Nat) : List Nat :=
  if s.frameFits pte k then [] else (List.range 1024).filter (fun i => !s.keyFits pte (k + 64 * i))
/-- The listed lines of the frame at key `k` hold what decrypting them under another key gives: free bytes (log 83). -/
def State.scramble (s : State) (k : Nat) (l : List Nat) : State :=
  if l.isEmpty then s
  else l.foldl (fun x i => x.storeBytes (k + 64 * i) ((List.range 64).map (fun j => Config.scrambled s.fresh (64 * i + j)))) s.picked
/-- The published frame at key `k`, as it is read through the leaf `pte`, is copied to key `dst` (R259, R267). -/
def State.copyFrame (s : State) (pte k dst : Nat) : State := (s.copyRange k dst Config.pageSize).scramble dst (s.unfit pte k)
/-- The scheduler die comes to the frame at key `k` through the leaf `pte` (R247, R267): a frame of another key holds for it what that
key makes of it, and one that it writes is under the leaf's key from then on. -/
def State.underKey (s : State) (pte k : Nat) (write : Bool) : State :=
  let l := s.unfit pte k
  if pteTier pte ≠ 0 ∨ (l.isEmpty ∧ !write) then s
  else (s.scramble k l).keyFrame (k - Config.hbmBase) (pte / 2 ^ 8 % 256)

/-- What a write to a buffer page finds (R252, R259). -/
inductive ShadowRes where
  | ok (s : State) (frame : Nat)
  | need
  | park (reason : Nat)
  deriving DecidableEq, Repr

/-- A frame of the pool for page `vpn` of buffer `a`, which is to be written, and the page's published leaf; the write wants
a writable small leaf and a free frame (R252). -/
inductive FrameRes where
  | ok (s : State) (frame pte : Nat)
  | need
  | park (reason : Nat)
  deriving DecidableEq, Repr
/-- Take a frame for a written page. -/
def State.writeFrame (s : State) (holder c a vpn : Nat) : FrameRes :=
  match s.held? holder c vpn (s.buf a).vgen with
  | none => .need
  | some x =>
    if !bitN x.pte.toNat 1 then .park 1
    else if x.large then .park 5
    else match s.takeFrame c with
      | none => .park 4
      | some (s, f) => .ok (s.keyFrame f (x.pte.toNat / 2 ^ 8 % 256)) f x.pte.toNat

/-- The shadow frame of page `vpn` of buffer `a`, created and filled if there is none (R259). -/
def State.shadowFor (s : State) (holder c a vpn : Nat) : ShadowRes :=
  match FMap.get? (s.buf a).shadow vpn with
  | some f => .ok s f
  | none => match s.writeFrame holder c a vpn with
    | .need => .need
    | .park r => .park r
    | .ok s f pte =>
      .ok ((s.copyFrame pte (leafKey pte vpn false) (farKey 0 f)).modBuf a (fun b => { b with shadow := FMap.set b.shadow vpn f })) f
/-- The frame that holds the staged updates of page `vpn` of buffer `a`, taken from the pool if there is none (R252, R272;
log 25). -/
def State.stageFor (s : State) (holder c a vpn : Nat) : ShadowRes :=
  match FMap.get? (s.buf a).stage vpn with
  | some f => .ok s f
  | none => match s.writeFrame holder c a vpn with
    | .need => .need
    | .park r => .park r
    | .ok s f _ => .ok (s.modBuf a (fun b => { b with stage := FMap.set b.stage vpn f })) f

/-! ### Access by the scheduler die (R125, R247) -/

/-- What a scheduler-die access to a graph page finds: its key, or a wait for the answer of a page request, or the answer
that it fails. -/
inductive ScdRes where
  | ok (s : State) (key : Nat)
  | wait (s : State)
  | failed (s : State)
  deriving DecidableEq, Repr

/-- Forget the failed requests of the page of `va`, once the access that met the failure has taken its consequence. -/
def State.forgetFailed (s : State) (c va : Nat) : State :=
  s.modCtx c (fun x => { x with preqs := x.preqs.filter (fun q => !(q.failed && decide (q.vpn = va / 2 ^ 16))) })
/-- Translate far address `va` for the scheduler die, setting A, and D for a write (R247), and bring its frame under the leaf's key
(R267). -/
def State.scd (s : State) (c va : Nat) (write : Bool) : ScdRes :=
  let vpn := va / 2 ^ 16
  let ask := fun (reason : Nat) =>
    match (s.ctxAt c).preqs.find? (fun r => decide (r.vpn = vpn ∧ r.reason = reason) && r.failed) with
    | some _ => ScdRes.failed s
    | none => .wait (s.request c vpn reason write 0 (26 * 256)).1
  match s.walk c vpn with
  | .bad r => ask r
  | .leaf k pte large =>
    if write && !bitN pte 1 then ask 1
    else .ok ((s.orEntry k (8 + (if write then 16 else 0))).underKey pte (leafKey pte vpn large) write) (leafKey pte vpn large + va % 2 ^ 16)

end Sys2Proof.Machine
end

