-- ==== Sys2Proof/Machine/NearMem.lean ====
section
/-! DEFINITION. Near loads and stores, atomics and descriptors (R74 to R85), and the near packets that carry them to other
tiles (R21). ste, whose template aperture starts a copy, stands in Transfer.lean. -/

namespace Sys2Proof.Machine

/-- Bytes of a size field (R74). -/
def sizeBytes (size : BitVec 2) : Nat := 2 ^ size.toNat
/-- A loaded value of `n` bytes, extended by sign, or by zero when `z` is set (R74). -/
def extendLoad (v n : Nat) (z : Bool) : Word :=
  if z then BitVec.ofNat 64 v else (BitVec.ofNat 64 (v * 2 ^ (64 - 8 * n))).sshiftRight (64 - 8 * n)
/-- The address of a load or store (R74). -/
def memAddr (x : Tile) (base : BitVec 5) (off : BitVec 13) : Word := x.rd base + off.signExtend 64

/-- The physical tile a packet goes to, and the one it comes from. -/
def Route.dst (p : Route) : Nat := 256 * p.ddie + p.dtile
/-- The physical tile a packet comes from. -/
def Route.src (p : Route) : Nat := 256 * p.sdie + p.stile
/-- The arbitration point at which the traffic of tile `t` starts, at input port 0 (DESIGN CHOICE, log 68). -/
def startPoint (t : Nat) : Nat := 65536 * dieOf t + t % 256
/-- A route from tile `t` to tile `d`; one to the tile itself crosses no link. -/
def routeTo (t d : Nat) : Route :=
  { stile := t % 256, sdie := dieOf t, dtile := d % 256, ddie := dieOf d, point := startPoint t, arrived := decide (t = d) }
/-- The reads, writes and atomics of tile `t` that have not been performed. -/
def State.accesses (s : State) (t : Nat) : List Packet := s.net.filter (fun p => decide (p.kind < 2 ∧ p.src = t))
/-- The virtual tile of context `c` that physical tile `d` holds (R143). -/
def State.virtualOf (s : State) (c d : Nat) : Option Nat :=
  ((s.ctxAt c).tmap.find? (fun v => !v.2.saved && decide (v.2.phys = d))).map (·.1)
/-- A packet from tile `t` to tile `d` (R21); its transaction identifier counts the tile's packets (DESIGN CHOICE, log 82). -/
def packetTo (s : State) (kind t d addr : Nat) (data : List Byte) : Packet :=
  { routeTo t d with
    txid := (s.tile t).nextTx, len := (data.length + 31) / 32, kind := kind, ctx := (s.tile t).ctx, addr := addr, data := data
    no := (s.tile t).issueNo, vt := s.virtualOf (s.tile t).ctx d }
/-- Send a packet of the current tile. -/
def State.send (s : State) (p : Packet) : State :=
  { s with net := s.net ++ [p] }.setHere { s.here with nextTx := s.here.nextTx + 1 }
/-- The two words of the header of a packet of kind `kind` with `len` payload words of 32 bytes, for address `addr` (R21). -/
def Route.header (p : Route) (len kind addr : Nat) : Nat × Nat :=
  (p.txid % 2 ^ 15 * 2 ^ 49 + len % 2 ^ 7 * 2 ^ 42 + kind % 16 * 2 ^ 38 + p.stile % 256 * 2 ^ 30 + p.sdie % 32 * 2 ^ 25
      + p.dtile % 256 * 2 ^ 17 + p.ddie % 32 * 2 ^ 12 + p.age % 256,
    p.ctx % 2 ^ 16 * 2 ^ 48 + addr % 2 ^ 48)
/-- The header of a packet (R21). -/
def Packet.header (p : Packet) : Nat × Nat := p.toRoute.header p.len p.kind p.addr
/-- The header of a landing write, kind 10, or of a meeting's result, kind 7 (R21): its line is at most two words of 32 bytes. -/
def Landing.header (r : Landing) : Nat × Nat :=
  r.toRoute.header ((r.data.length + 31) / 32) (match r.unit with | .cmd _ _ => 10 | .meeting _ => 7) (64 * r.line)
/-- An earlier access `q` of a tile is performed before its later access to `n` bytes at offset `off` of tile `d`'s window: both
are exposed and fall in one window, or the later one is an ld of bytes that the earlier one reads or writes (R77, R84). -/
def Packet.orders (q : Packet) (d off n : Nat) (plain : Bool) : Bool :=
  decide (q.dst = d) &&
    (if plain then !q.isDesc && decide (q.addr < off + n ∧ off < q.addr + q.data.length) else !q.plain)
/-- An access of the current tile to its own window can be performed at once: no access that R84 places before it is under way,
and the word is not one whose accesses are performed later. -/
def State.atOnce (s : State) (d off n : Nat) (plain : Bool) : Bool :=
  decide (d = s.cur) && !s.late && !(s.accesses s.cur).any (fun q => q.orders d off n plain)
/-- An acquire of the tile has not returned: no later ld, lde, amo, dset or dget is performed before it (R84). -/
def Tile.acquires (x : Tile) : Bool := x.reads.any (·.acq) || x.mat.tensor.any (fun u => decide (u.ord % 2 = 1))

/-- What the phase store buffer holds of `n` bytes from `a` on (R77). -/
def psbBytes (psb : FMap Byte) (a : Nat) : Nat → List (Option Byte)
  | 0 => []
  | n + 1 => FMap.get? psb a :: psbBytes psb (a + 1) n
/-- Bytes of the buffer over those of home (R77). -/
def overlay : List (Option Byte) → List Byte → List Byte
  | some b :: o, _ :: t => b :: overlay o t
  | none :: o, h :: t => h :: overlay o t
  | [], t => t
  | _, [] => []
/-- The distinct granules of a phase store buffer (R75). -/
def granulesOf (psb : FMap Byte) : List Nat := (psb.map (fun c => c.1 / 32)).eraseDups
/-- Enter bytes in a phase store buffer (R75). -/
def psbEnter (psb : FMap Byte) (a : Nat) : List Byte → FMap Byte
  | [] => psb
  | b :: t => psbEnter (FMap.set psb a b) (a + 1) t

/-- Send a read or an atomic, whose return the tile awaits while it goes on (R84). -/
def State.sendRead (s : State) (p : Packet) (r : PendRead) : State :=
  let s1 := s.send p
  s1.setHere { s1.here with reads := s1.here.reads ++ [r], pc := s1.here.pc + 4 }

/-- A load of `n` bytes at near address `a` into `d`; `buf` holds for ld, which sees the own buffer (R77), and not for lde
(R78). A home in another tile's window is read by a packet. -/
def loadNear (s : State) (d : BitVec 5) (n : Nat) (z buf : Bool) (a : Word) : State :=
  if s.here.acquires then s
  else match s.near s.here.ctx a n with
  | .bad c => s.trap c a
  | .wait => s
  | .ok t off =>
    let buffered := if buf then psbBytes s.here.psb a.toNat n else []
    if s.atOnce t off n buf then
      if s.stalls t 1 off n then s
      else (s.touch t 1 off n).retire d (extendLoad (leNat (overlay buffered (Mem.bytes s.mem (nearKey t off) n))) n z)
    else s.sendRead { packetTo s 0 s.cur t off (leBytes 0 n) with plain := buf }
      { txid := s.here.nextTx, d := d, home := t, bytes := n, zero := z, buf := buffered }

/-- LD: R74, R77, R80. -/
def execLd (d base : BitVec 5) (size : BitVec 2) (z : BitVec 1) (off : BitVec 13) (s : State) : Res :=
  .next (loadNear s d (sizeBytes size) (z = 1) true (memAddr s.here base off))
/-- LDE: R74, R78, R80. -/
def execLde (d base : BitVec 5) (size : BitVec 2) (z : BitVec 1) (off : BitVec 13) (s : State) : Res :=
  .next (loadNear s d (sizeBytes size) (z = 1) false (memAddr s.here base off))

/-- ST: the bytes enter the phase store buffer (R75, R76). -/
def execSt (d base : BitVec 5) (size : BitVec 2) (off : BitVec 13) (s : State) : Res :=
  let a := memAddr s.here base off
  let n := sizeBytes size
  .next (match s.near s.here.ctx a n with
    | .bad c => s.trap c a
    | _ =>
      let psb := s.here.psb
      if !(granulesOf psb).contains (a.toNat / 32) && decide (Config.psbGranules ≤ (granulesOf psb).length) then
        s.trap 0x18 a
      else s.setHere { s.here with psb := psbEnter psb a.toNat (leBytes (s.here.rd d).toNat n) }.adv)

/-- An exposed write to near address `a`: performed at once by `f` in the own window, by the packet `p` elsewhere (R78, R85); one to a
window whose gang is saved waits at the sending router (R370). -/
def exposedWrite (s : State) (a : Word) (n : Nat) (f : State → Nat → State) (p : Nat → Nat → Packet) : State :=
  match s.near s.here.ctx a n with
  | .bad c => s.trap c a
  | .wait =>
    let v := a.toNat / Config.windowSize
    (s.send { p (((FMap.get? (s.ctxAt s.here.ctx).tmap v).map (·.phys)).getD 0) (a.toNat % Config.windowSize) with vt := some v }).nextPc
  | .ok t off =>
    if s.atOnce t off n false then (if s.stalls t 1 off n then s else (f (s.touch t 1 off n) (nearKey t off)).nextPc)
    else (s.send (p t off)).nextPc
/-- An exposed store of bytes to near address `a` (R78). -/
def storeExposed (s : State) (a : Word) (n : Nat) (l : List Byte) : State :=
  exposedWrite s a n (fun s k => s.storeBytes k l) (fun t off => packetTo s 1 s.cur t off l)

/-- DSET: R85. -/
def execDset (a b : BitVec 5) (s : State) : Res :=
  let v := s.here.rd b
  .next (if s.here.acquires then s
    else exposedWrite s (s.here.rd a) 1 (fun s k => s.setDesc k (v.truncate 16))
      (fun t off => { packetTo s 1 s.cur t off (leBytes v.toNat 2) with isDesc := true }))
/-- DGET: R85. -/
def execDget (d a : BitVec 5) (s : State) : Res :=
  let addr := s.here.rd a
  .next (if s.here.acquires then s
    else match s.near s.here.ctx addr 1 with
      | .bad c => s.trap c addr
      | .wait => s
      | .ok t off =>
        if s.atOnce t off 1 false then
          if s.stalls t 1 off 1 then s else (s.touch t 1 off 1).retire d (BitVec.ofNat 64 (s.descAt (nearKey t off)).toNat)
        else s.sendRead { packetTo s 0 s.cur t off [0, 0] with isDesc := true }
          { txid := s.here.nextTx, d := d, home := t, bytes := 2 })

/-- The new value of an atomic on `w` bits (R83); none where nothing is written. -/
def amoNew (op : Nat) (w old b d : Nat) : Option Nat :=
  let half := 2 ^ (w - 1)
  let signed := fun v => if half ≤ v then (v : Int) - 2 ^ w else (v : Int)
  match op with
  | 0 => some ((old + b) % 2 ^ w)
  | 1 => some (old &&& b)
  | 2 => some (old ||| b)
  | 3 => some (old ^^^ b)
  | 4 => some (if signed old ≤ signed b then old else b)
  | 5 => some (if signed old ≤ signed b then b else old)
  | 6 => some (min old b)
  | 7 => some (max old b)
  | 8 => some b
  | _ => if old = d then some b else none

/-- Perform an atomic of `n` bytes at key `k` (R82, R83): the state after, and the old value. -/
def State.performAmo (s : State) (k n : Nat) (r : AmoReq) : State × Nat :=
  let old := s.load k n
  (match amoNew r.op (8 * n) old (r.b % 2 ^ (8 * n)) (r.d % 2 ^ (8 * n)) with
    | some v => s.store k n v
    | none => s, old)

/-- An amo: one indivisible read, change and write at the home bank (R82, R83), ordered as R84 gives. -/
def amo (op : Nat) (d a b : BitVec 5) (ord : BitVec 2) (size : BitVec 1) (s : State) : Res :=
  let n := 4 * (size.toNat + 1)
  let addr := s.here.rd a
  let r : AmoReq := { op := op, b := (s.here.rd b).toNat, d := (s.here.rd d).toNat }
  .next (if s.here.acquires then s
    else match s.near s.here.ctx addr n with
    | .bad c => s.trap c addr
    | .wait => s
    | .ok t off =>
      if ord.getLsbD 1 && !((s.accesses s.cur).isEmpty && s.here.reads.isEmpty) then s
      else if s.atOnce t off n false then
        if s.stalls t 1 off n then s
        else let x := (s.touch t 1 off n).performAmo (nearKey t off) n r; x.1.retire d (BitVec.ofNat 64 x.2)
      else s.sendRead { packetTo s 0 s.cur t off (leBytes 0 n) with amo := some r }
        { txid := s.here.nextTx, d := d, home := t, bytes := n, acq := ord.getLsbD 0 })

/-- AMO_ADD: R82, R83. -/
def execAmoAdd (d a b : BitVec 5) (ord : BitVec 2) (size : BitVec 1) (s : State) : Res := amo 0 d a b ord size s
/-- AMO_AND: R82, R83. -/
def execAmoAnd (d a b : BitVec 5) (ord : BitVec 2) (size : BitVec 1) (s : State) : Res := amo 1 d a b ord size s
/-- AMO_OR: R82, R83. -/
def execAmoOr (d a b : BitVec 5) (ord : BitVec 2) (size : BitVec 1) (s : State) : Res := amo 2 d a b ord size s
/-- AMO_XOR: R82, R83. -/
def execAmoXor (d a b : BitVec 5) (ord : BitVec 2) (size : BitVec 1) (s : State) : Res := amo 3 d a b ord size s
/-- AMO_MIN: R82, R83. -/
def execAmoMin (d a b : BitVec 5) (ord : BitVec 2) (size : BitVec 1) (s : State) : Res := amo 4 d a b ord size s
/-- AMO_MAX: R82, R83. -/
def execAmoMax (d a b : BitVec 5) (ord : BitVec 2) (size : BitVec 1) (s : State) : Res := amo 5 d a b ord size s
/-- AMO_MINZ: R82, R83. -/
def execAmoMinz (d a b : BitVec 5) (ord : BitVec 2) (size : BitVec 1) (s : State) : Res := amo 6 d a b ord size s
/-- AMO_MAXZ: R82, R83. -/
def execAmoMaxz (d a b : BitVec 5) (ord : BitVec 2) (size : BitVec 1) (s : State) : Res := amo 7 d a b ord size s
/-- AMO_SWAP: R82, R83. -/
def execAmoSwap (d a b : BitVec 5) (ord : BitVec 2) (size : BitVec 1) (s : State) : Res := amo 8 d a b ord size s
/-- AMO_CAS: R82, R83. -/
def execAmoCas (d a b : BitVec 5) (ord : BitVec 2) (size : BitVec 1) (s : State) : Res := amo 9 d a b ord size s

/-! ### Near packets (R21) -/

/-- The packet that an event names by its place in the net, when it has arrived with the kind wanted. -/
def State.arrivedAt (s : State) (n kind : Nat) : Option Packet :=
  match s.net[n]? with
  | some p => if p.arrived && decide (p.kind = kind) then some p else none
  | none => none
/-- Drop the packet at place `n` of the net. -/
def State.dropPacket (s : State) (n : Nat) : State := { s with net := dropAt s.net n }
/-- An earlier access of the same tile, still in the net, is to be performed before the packet at place `n` (R77, R84). -/
def State.packetBefore (s : State) (n : Nat) (p : Packet) : Bool :=
  (s.net.take n).any (fun q => decide (q.kind < 2 ∧ q.src = p.src) && q.orders p.dst p.addr p.data.length p.plain)
/-- Accesses to tile `t`'s window wait (R14, R370). -/
def State.windowWaits (s : State) (t ctx : Nat) : Bool :=
  s.held t || decide ((s.tile t).task.isSome ∧ (s.tile t).ctx ≠ ctx)
/-- Where the packet's window lies now (R370): a gang that was saved may have come back on other tiles, and one that has ended has left
its slice where it was. -/
def State.homeOf (s : State) (p : Packet) : Near :=
  match p.vt with
  | some v => match s.findNear p.ctx (nearOf v p.addr) with
    | .bad _ => .ok p.dst p.addr
    | w => w
  | none => .ok p.dst p.addr
/-- The place in the order of R349 of an access of tile `u` to tile `t`'s slice. -/
def rankAt (u t : Nat) : Nat := if t = u then 1 else 0
/-- The packet's access is held up at its home by a landing line (R154) or a bank (R349). For the tile's own window only what was
accepted before the access counts (R341). -/
def State.packetStalls (s : State) (p : Packet) : Bool :=
  (if p.src = p.dst then s.unitLanding p.dst (p.addr / 64) p.no else s.landing p.dst p.addr)
    || (s.tile p.dst).bankTaken (rankAt p.src p.dst) p.addr p.data.length
/-- The packet's access can be performed at its home now (R154, R349, R370). -/
def State.packetReady (s : State) (p : Packet) : Bool :=
  (match s.homeOf p with | .ok t _ => decide (t = p.dst) | _ => false) && !s.packetStalls p && !s.windowWaits p.dst p.ctx
/-- The packet goes on from where it stands to tile `t`, which holds its window now (R370). -/
def Packet.reroute (p : Packet) (t : Nat) : Packet :=
  { p with dtile := t % 256, ddie := dieOf t, point := startPoint p.dst, port := 0, waited := 0, arrived := false }

/-- The answer to a packet: the same transaction, on its way back (R21). -/
def Packet.back (p : Packet) (kind : Nat) (data : List Byte) : Packet :=
  { p with
    toRoute := { routeTo p.dst p.src with txid := p.txid, ctx := p.ctx }
    kind := kind, len := (data.length + 31) / 32, data := data, amo := none, vt := none }
/-- Perform the access of a near read or near write packet at its home (R83, R148): a read or an atomic is answered by a read
return, a write from another tile by a write acknowledgement (R21), unless its sender has been saved since. -/
def performAccess (s : State) (p : Packet) : State :=
  let k := nearKey p.dst p.addr
  if p.kind = 1 then
    let s1 := if p.isDesc then s.setDesc k (BitVec.ofNat 16 (leNat p.data)) else s.storeBytes k p.data
    if p.src = p.dst ∨ 2 ^ 40 ≤ p.src then s1 else { s1 with net := s1.net ++ [p.back 5 []] }
  else match p.amo with
    | some r =>
      let x := s.performAmo k p.data.length r
      { x.1 with net := x.1.net ++ [p.back 4 (leBytes x.2 p.data.length)] }
    | none =>
      { s with net := s.net ++ [p.back 4
          (if p.isDesc then leBytes (s.descAt k).toNat 2 else Mem.bytes s.mem k p.data.length)] }
/-- The access of the packet at place arg.n of the net, of kind `kind`, is performed at its home, unless it waits: on a landing line
(R154) or a bank (R349), behind earlier accesses of its tile (R84), or for a saved or held window (R370). A packet whose window has
moved follows it. -/
def nearAccess (s : State) (kind : Nat) : State :=
  match s.arrivedAt s.arg.n kind with
  | none => s
  | some p =>
    match s.homeOf p with
    | .ok t _ =>
      if t ≠ p.dst then { s with net := modAt (fun q => q.reroute t) s.net s.arg.n }
      else if s.packetBefore s.arg.n p || !s.packetReady p then s
      else performAccess ((s.dropPacket s.arg.n).touch p.dst (rankAt p.src p.dst) p.addr p.data.length) p
    | _ => s

/-- NEAR_READ: the near read packet at place arg.n of the net is served at its home and answered by a read return (R21,
R148). -/
def execNearRead (s : State) : Res := .next (nearAccess s 0)
/-- NEAR_WRITE: the near write packet at place arg.n of the net is performed at its home (R21, R78, R148). -/
def execNearWrite (s : State) : Res := .next (nearAccess s 1)
/-- A returned read gives its register its value (R74, R77, R83, R85). -/
def Tile.takeReturn (x : Tile) (p : Packet) : Tile :=
  match x.reads.find? (fun r => decide (r.txid = p.txid)) with
  | none => x
  | some r =>
    { x.wr r.d (extendLoad (leNat (overlay r.buf p.data)) r.bytes r.zero) with
      reads := x.reads.filter (fun r => decide (r.txid ≠ p.txid)) }
/-- READ_RETURN: the read return at place arg.n reaches the tile that asked; one for which no read waits any more is dropped
(R21, R142). -/
def execReadReturn (s : State) : Res :=
  .next (match s.arrivedAt s.arg.n 4 with
    | none => s
    | some p => (s.dropPacket s.arg.n).modTile p.dst (·.takeReturn p))
/-- WRITE_ACKNOWLEDGEMENT: the acknowledgement at place arg.n reaches its source and is consumed; the model counts a write
as performed at its home (R21). -/
def execWriteAcknowledgement (s : State) : Res :=
  .next (match s.arrivedAt s.arg.n 5 with
    | none => s
    | some _ => s.dropPacket s.arg.n)

end Sys2Proof.Machine
end

