-- ==== Sys2Proof/Machine/Commands.lean ====
section
/-! DEFINITION. Command blocks: their fields and checks, acceptance by cpy, idx, the template aperture and chains, promises,
transfer barriers, chains and signals (R51 to R54, R99 to R101, R107, R185 to R189, R196 to R198, R206 to R209). -/

namespace Sys2Proof.Machine

/-! ### Fields of a block (R51, R189, R198) -/

/-- A field in which 0 means 65 536. -/
def full16 (v : Nat) : Nat := if v = 0 then 65536 else v
/-- A place that a block names, as one number: a near address, or slot and offset of a far one. -/
def placeOf (sel addr : Nat) : Nat := if sel / 128 = 1 then 2 ^ 64 * (sel % 64 + 1) + addr else addr
/-- A place is far. -/
def placeFar (p : Nat) : Bool := decide (2 ^ 64 ≤ p)
/-- The slot of a far place. -/
def placeSlot (p : Nat) : Nat := p / 2 ^ 64 - 1
/-- The offset of a far place. -/
def placeOff (p : Nat) : Nat := p % 2 ^ 64

/-- A row of bytes that a command moves; a row out of range ends the command at that place. -/
structure Row where
  src : Option Nat
  dst : Nat
  len : Nat
  bad : Bool := false
  deriving DecidableEq, Repr

/-- The rows of COPY and FILL in order (R190, R192). -/
def patternRows (src : Option Nat) (dst x y z sys szs dys dzs : Nat) : List Row :=
  (List.range z).flatMap fun k => (List.range y).map fun j =>
    { src := src.map (· + 32 * (k * szs + j * sys)), dst := dst + 32 * (k * dzs + j * dys), len := x }

/-- KIND of a block (R51). -/
def Cmd.kind (c : Cmd) : Nat := c.byte 0
/-- Source and destination of a copy block (R189), the table of an index block (R198). -/
def Cmd.ssrc (c : Cmd) : Nat := placeOf (c.byte 16) (c.field 18 5)
/-- The destination of a copy block (R189). -/
def Cmd.sdst (c : Cmd) : Nat := placeOf (c.byte 17) (c.field 23 5)
/-- The table of an index block (R198). -/
def Cmd.table (c : Cmd) : Nat := placeOf (c.byte 16) (c.field 18 6)
/-- XLEN or ROWB. -/
def Cmd.xlen (c : Cmd) : Nat := full16 (c.field 28 2)
/-- ROWB of an index block (R198). -/
def Cmd.rowb (c : Cmd) : Nat := full16 (c.field 32 2)
/-- NIDX of an index block (R198). -/
def Cmd.nidx (c : Cmd) : Nat := c.field 34 2
/-- NOFF, IOFF, X4, MODE of an index block (R198). -/
def Cmd.noff (c : Cmd) : Nat := c.field 24 3
/-- IOFF of an index block. -/
def Cmd.ioff (c : Cmd) : Nat := c.field 28 3
/-- X4 of an index block. -/
def Cmd.x4 (c : Cmd) : Nat := c.field 36 4
/-- MODE of an index block. -/
def Cmd.mode (c : Cmd) : Nat := c.byte 17
/-- Width in bytes that MODE[1:0] selects (R204). -/
def Cmd.w (c : Cmd) : Nat := 2 ^ (c.mode % 4)
/-- Output row length of GPOOL (R201). -/
def Cmd.orowb (c : Cmd) : Nat :=
  c.rowb / (if bitN c.mode 3 then 4 else 2) * (if c.mode % 4 = 0 then 4 else 2)
/-- Index bytes (R200). -/
def Cmd.iw (c : Cmd) : Nat := if bitN c.mode 0 then 8 else 4

/-- The rows of a byte-moving block, given its index words (R190 to R192, R200). `own` is the issuing tile's virtual number;
`size` gives the bytes that a table row may reach: the buffer's SIZE for a far table, the scratchpad end for a near one. The place of a
row wraps modulo 2^64, which R200 says of GATHER and SCATTER, and the model takes for GFILL too (DESIGN CHOICE, log 98). -/
def Cmd.rows (c : Cmd) (own : Nat) (size : Nat → Nat) : List Row :=
  let reach := fun (base p len : Nat) =>
    if placeFar base then decide (p % 2 ^ 64 + len ≤ size (placeSlot base))
    else decide (p % Config.windowSize + len ≤ Config.scratchEnd ∧ p < 2 ^ 33)
  let row := fun (base i stride : Nat) =>
    if placeFar base then base / 2 ^ 64 * 2 ^ 64 + (placeOff base + i * stride) % 2 ^ 64 else (base + i * stride) % 2 ^ 64
  match c.kind with
  | 0x01 => patternRows (some c.ssrc) c.sdst c.xlen (c.byte 30 + 1) (c.byte 31 + 1) (c.field 32 2) (c.field 34 2)
      (c.field 36 2) (c.field 38 2)
  | 0x04 => patternRows none c.sdst c.xlen (c.byte 30 + 1) (c.byte 31 + 1) 0 0 (c.field 36 2) (c.field 38 2)
  | 0x02 => c.idx.mapIdx fun k i =>
      let p := row c.ssrc i (c.field 36 4)
      { src := some p, dst := c.sdst + k * c.xlen, len := c.xlen, bad := !reach c.ssrc p c.xlen }
  | 0x10 => c.idx.mapIdx fun k i =>
      let p := row c.table i c.x4
      { src := some p, dst := own * Config.windowSize + c.noff + k * c.rowb, len := c.rowb
        bad := !reach c.table p c.rowb || !placeFar c.table && decide (p / Config.windowSize ≠ own) }
  | 0x12 => c.idx.mapIdx fun k i =>
      let p := row c.table i c.x4
      { src := some (own * Config.windowSize + c.noff + k * c.rowb), dst := p, len := c.rowb
        bad := !reach c.table p c.rowb || !placeFar c.table && decide (p / Config.windowSize ≠ own) }
  | _ => []

/-! ### Legality (R54, R189 to R205) -/

/-- A selector byte (R189). -/
def selOk (b : Nat) : Bool := decide (128 ≤ b ∧ b < 192 ∨ b = 0)

/-- The skeleton of R51 has its zero fields zero. -/
def Cmd.skeletonOk (c : Cmd) : Bool := decide (c.byte 1 < 32 ∧ c.byte 3 = 0 ∧ c.byte 7 = 0) &&
  c.ranges.all (fun w => decide (w < 2 ^ 30))

/-- A copy block is legal (R54, R189 to R196); `slot` is the issuing tile's virtual slot. -/
def Cmd.copyLegal (c : Cmd) (slot : Nat) : Bool :=
  c.skeletonOk && match c.kind with
  | 0x01 => selOk (c.byte 16) && selOk (c.byte 17)
  | 0x02 => selOk (c.byte 16) && decide (c.byte 17 = 0 ∧ c.field 32 4 < 2 ^ 20)
  | 0x04 => selOk (c.byte 17) && decide (c.byte 16 = 0 ∧ c.byte 22 < 2 ∧ c.field 34 2 = 0)
  | 0x03 => selOk (c.byte 16) && decide (c.byte 17 = 0 ∧ c.field 30 2 ≠ 0 ∧ c.field 23 5 / 2 ^ 20 % 16 = 0 ∧
      c.field 23 5 / 2 ^ 28 = slot ∧ c.byte 32 < 32 ∧ c.field 33 7 = 0)
  | 0x05 => decide (c.byte 16 < 2 ∧ c.field 17 23 = 0 ∧ c.field 40 24 = 0)
  | _ => false

/-- An index block is legal (R54, R198 to R205); `dscadd` is the feature bit of R380. -/
def Cmd.indexLegal (c : Cmd) (dscadd : Bool) : Bool :=
  c.skeletonOk && selOk (c.byte 16) && decide (c.byte 23 = 0 ∧ c.byte 26 < 16 ∧ c.byte 27 = 0 ∧ c.byte 30 < 16 ∧ c.byte 31 = 0) &&
  match c.kind with
  | 0x10 => decide (c.mode < 2)
  | 0x12 => decide (c.mode < 2)
  | 0x11 => decide (c.mode % 4 ≠ 3 ∧ c.mode < 32 ∧ c.field 18 5 % 64 = 0 ∧ c.noff % 64 = 0 ∧ c.x4 % 64 = 0 ∧
      c.rowb % 64 = 0 ∧ c.orowb % 64 = 0)
  | 0x13 => decide (c.mode < (if dscadd then 4 else 2) ∧ c.field 18 5 % 64 = 0 ∧ c.noff % 64 = 0 ∧ c.x4 % 64 = 0 ∧
      c.rowb % 64 = 0)
  | 0x14 => decide (c.byte 16 = 0 ∧ 1 ≤ c.mode ∧ c.mode ≤ 16 ∧ c.x4 ≤ c.nidx ∧ c.field 18 5 % 64 = 0 ∧ c.noff % 64 = 0 ∧
      c.rowb % 64 = 0)
  | 0x15 => decide (c.mode < 3 ∧ c.x4 < 2 ^ 16 ∧ c.rowb % 64 = 0)
  | 0x16 => decide (c.mode < 3 ∧ c.rowb % c.w = 0 ∧ c.x4 % 2 ^ 16 ≠ 0)
  | _ => false

/-- A block is legal for an engine (R54). -/
def State.blockLegal (s : State) (t : Nat) (e : CEng) (c : Cmd) : Bool :=
  match e with
  | .ce => c.copyLegal ((s.tile t).vtile / 256)
  | .ie => c.indexLegal (s.pkg.fmapen.getLsbD 4)

/-! ### Slots and ranges (R99 step 4, R187) -/

/-- One use of a slot: the rights needed, and the far bytes known without data: first offset and end, where known whole. -/
structure SlotUse where
  slot : Nat
  right : Nat
  lo : Nat
  hi : Option Nat
  deriving DecidableEq, Repr

/-- The far span of a list of rows: first offset and end. -/
def rowsSpan (l : List (Nat × Nat)) : Nat × Nat :=
  l.foldl (fun a r => (min a.1 r.1, max a.2 (r.1 + r.2))) (2 ^ 64, 0)

/-- The slots a block names, with what each use needs (R99 step 4). -/
def Cmd.uses (c : Cmd) : List SlotUse :=
  let f := fun (sel : Nat) (u : SlotUse) => if 128 ≤ sel then [u] else []
  let rows := c.rows 0 (fun _ => 0)
  match c.kind with
  | 0x01 =>
    let a := rowsSpan (rows.map (fun r => (placeOff (r.src.getD 0), r.len)))
    let b := rowsSpan (rows.map (fun r => (placeOff r.dst, r.len)))
    f (c.byte 16) { slot := c.byte 16 % 64, right := 0, lo := a.1, hi := some a.2 } ++
      f (c.byte 17) { slot := c.byte 17 % 64, right := 1, lo := b.1, hi := some b.2 }
  | 0x04 =>
    let b := rowsSpan (rows.map (fun r => (placeOff r.dst, r.len)))
    f (c.byte 17) { slot := c.byte 17 % 64, right := 1, lo := b.1, hi := some b.2 }
  | 0x03 => f (c.byte 16) { slot := c.byte 16 % 64, right := 0, lo := c.field 18 5, hi := some (c.field 18 5 + c.xlen) }
  | 0x02 => f (c.byte 16) { slot := c.byte 16 % 64, right := 0, lo := c.field 18 5, hi := none }
  | 0x10 => f (c.byte 16) { slot := c.byte 16 % 64, right := 0, lo := c.field 18 6, hi := none }
  | 0x11 => f (c.byte 16) { slot := c.byte 16 % 64, right := 0, lo := c.field 18 6, hi := none }
  | 0x15 => f (c.byte 16) { slot := c.byte 16 % 64, right := 0, lo := c.field 18 6, hi := none }
  | 0x12 => f (c.byte 16) { slot := c.byte 16 % 64, right := 1, lo := c.field 18 6, hi := none }
  | 0x13 => f (c.byte 16) { slot := c.byte 16 % 64, right := 0, lo := c.field 18 6, hi := none } ++
      f (c.byte 16) { slot := c.byte 16 % 64, right := 1, lo := c.field 18 6, hi := none }
  | 0x16 =>
    let hi := c.field 18 6 + c.x4 % 2 ^ 16 * c.w
    f (c.byte 16) { slot := c.byte 16 % 64, right := 1, lo := c.field 18 6, hi := some hi }
  | _ => []

/-- The outcome of the slot checks of one use (R99 step 4): a cause, or none. -/
def State.slotFault (s : State) (t : Nat) (u : SlotUse) : Option Nat :=
  let h := (s.tile t).cap u.slot
  if h = 0 then some 0x08
  else if !s.fresh? (s.tile t).ctx h then some 0x0B
  else if !hasRight h u.right then some 0x09
  else
    let size := (s.buf (accOf h)).size
    match u.hi with
    | some e => if size < e then some 0x0A else none
    | none => if size ≤ u.lo then some 0x0A else none

/-- The first failing slot check, in ascending slot order: cause and slot. Of two failing uses of one slot, such as a source and a
destination, the first that the block names decides (DESIGN CHOICE, log 94). -/
def State.slotCheck (s : State) (t : Nat) : List SlotUse → Option (Nat × Nat)
  | [] => none
  | u :: r =>
    let rest := s.slotCheck t r
    match s.slotFault t u with
    | none => rest
    | some k => match rest with
      | some (k', n) => if n < u.slot then some (k', n) else some (k, u.slot)
      | none => some (k, u.slot)

/-- A near access of a block: its address, alignment and length, whether it is required to lie in the own window, and the
address that the block holds for it. -/
structure NearUse where
  addr : Nat
  held : Nat
  align : Nat
  len : Nat
  own : Bool
  deriving DecidableEq, Repr

/-- The R18 check of a near access of a block (R187): the cause and the address that the block holds. -/
def State.nearUseFault (s : State) (t : Nat) (u : NearUse) : Option (Nat × Word) :=
  let v := BitVec.ofNat 64 u.held
  let x := s.tile t
  if 2 ^ 33 ≤ u.addr then some (0x03, v)
  else if u.addr % u.align ≠ 0 then some (0x02, v)
  else if u.len = 0 then none
  else if u.own && decide (u.addr / Config.windowSize ≠ x.vtile) then some (0x03, v)
  else match s.findNear x.ctx (BitVec.ofNat 64 u.addr) with
    | .bad k => some (k, v)
    | _ => if Config.scratchEnd < u.addr % Config.windowSize + u.len then some (0x03, v) else none

/-- The own-window bytes a block will read and write, as far as they do not depend on data (R187): offset and length. -/
def Cmd.ownRanges (c : Cmd) (own : Nat) : List (Nat × Nat) × List (Nat × Nat) :=
  let mine := fun (l : List (Nat × Nat)) =>
    let l := l.filter (fun r => !placeFar r.1 && decide (r.1 / Config.windowSize = own ∧ r.2 ≠ 0))
    let sp := rowsSpan l
    if l.isEmpty then [] else [(sp.1 % Config.windowSize, sp.2 - sp.1)]
  let rows := c.rows own (fun _ => 0)
  let noff := fun (n : Nat) => if n = 0 then [] else [(c.noff, n)]
  match c.kind with
  | 0x01 => (mine (rows.map (fun r => (r.src.getD 0, r.len))), mine (rows.map (fun r => (r.dst, r.len))))
  | 0x04 => ([], mine (rows.map (fun r => (r.dst, r.len))))
  | 0x02 => ((if c.field 30 2 = 0 then [] else [(c.field 32 4, 4 * c.field 30 2)]), mine [(c.sdst, c.field 30 2 * c.xlen)])
  | 0x03 => (mine [(c.ssrc, c.xlen)], [])
  | 0x10 => ((if c.nidx = 0 then [] else [(c.ioff, c.iw * c.nidx)]), noff (c.nidx * c.rowb))
  | 0x12 => ((if c.nidx = 0 then [] else [(c.ioff, c.iw * c.nidx)]) ++ noff (c.nidx * c.rowb), [])
  | 0x13 => ((if c.nidx = 0 then [] else [(c.ioff, c.iw * c.nidx)]) ++ noff (c.nidx * c.rowb), [])
  | 0x11 => ([(c.ioff, 4 * (c.nidx + 1))], noff (c.nidx * c.orowb + if bitN c.mode 4 then 4 * c.nidx else 0))
  | 0x14 =>
    let tab := (c.field 18 6 % Config.windowSize, 2 ^ c.mode * (64 + c.rowb))
    ([(c.ioff, 4 * (c.nidx + 1)), tab] ++
      (if c.nidx ≤ c.x4 then [] else [(c.noff + c.x4 * c.rowb, (c.nidx - c.x4) * c.rowb)]), [tab])
  | 0x15 => ([(c.ioff, 4 * (c.nidx + 1))], noff (c.nidx * c.rowb))
  | 0x16 => (noff (c.nidx * c.rowb), [(c.ioff, 4 * (c.nidx + 1) + 4 * (c.x4 % 2 ^ 16))] ++
      (if placeFar c.table then [] else [(c.table % Config.windowSize, c.x4 % 2 ^ 16 * c.w)]))
  | _ => ([], [])

/-- The near accesses of a block that acceptance checks (R187, R193, R198); HASHACC reads its dense rows from FIRST on (R203). -/
def Cmd.nearUses (c : Cmd) (own : Nat) : List NearUse :=
  let rows := c.rows own (fun _ => 0)
  let at_ := fun (h p n : Nat) => if placeFar p then [] else [{ addr := p, held := h, align := 1, len := n, own := false : NearUse }]
  let pl := fun (p n : Nat) => at_ p p n
  let o := fun (off al n : Nat) => [{ addr := own * Config.windowSize + off, held := own * Config.windowSize + off, align := al, len := n, own := true : NearUse }]
  match c.kind with
  | 0x01 => rows.flatMap (fun r => at_ c.ssrc (r.src.getD 0) r.len) ++ rows.flatMap (fun r => at_ c.sdst r.dst r.len)
  | 0x04 => rows.flatMap (fun r => at_ c.sdst r.dst r.len)
  | 0x02 => pl c.ssrc 1 ++ pl c.sdst (c.field 30 2 * c.xlen) ++ o (c.field 32 4) 4 (4 * c.field 30 2)
  | 0x03 => (if placeFar c.ssrc then [] else [{ addr := c.ssrc, held := c.ssrc, align := 1, len := c.xlen, own := true }]) ++
      ((List.range 16).filter (fun j => bitN (c.field 30 2) j)).map (fun j =>
        { addr := c.field 23 5 + j * Config.windowSize, held := c.field 23 5 + j * Config.windowSize, align := 1, len := c.xlen, own := false })
  | 0x05 => []
  | _ =>
    let tab := if placeFar c.table then [] else
      [{ addr := c.table, held := c.table, align := 1, len := (match c.kind with
          | 0x14 => 2 ^ c.mode * (64 + c.rowb) | 0x16 => c.x4 % 2 ^ 16 * c.w | _ => 1), own := true : NearUse }]
    let nlen := if c.kind = 0x11 then c.nidx * c.orowb + (if bitN c.mode 4 then 4 * c.nidx else 0) else c.nidx * c.rowb
    let dense := own * Config.windowSize + c.noff
    let rows := if c.kind = 0x14 then
        [{ addr := dense + c.x4 * c.rowb, held := dense, align := 1, len := (c.nidx - c.x4) * c.rowb, own := true : NearUse }]
      else o c.noff (if c.kind = 0x15 then 64 else 1) nlen
    let ilen := match c.kind with
      | 0x10 | 0x12 | 0x13 => c.iw * c.nidx
      | 0x16 => 4 * (c.nidx + 1) + 4 * (c.x4 % 2 ^ 16)
      | _ => 4 * (c.nidx + 1)
    tab ++ rows ++ o c.ioff (match c.kind with | 0x10 | 0x12 | 0x13 => c.iw | _ => 4) ilen

/-- The first granule of `[off, off + len)` that no range of the footprint holds (R53, R187, R339). -/
def uncovered (fp : List (Nat × Nat)) (off len : Nat) : Option Nat :=
  if len = 0 then none
  else (List.range ((off + len - 1) / 32 - off / 32 + 1)).findSome?
    (fun k => if inRanges fp (off / 32 + k) then none else some (off / 32 + k))

/-- The footprint check of R53 and R187 at acceptance: the failing granule's offset. -/
def Cmd.footprintFault (c : Cmd) (own : Nat) : Option Nat :=
  match c.ranges.find? (fun w => !rangeOk w) with
  | some w => some (32 * max (rangeOf w).1 24576)
  | none =>
    let r := c.ownRanges own
    match r.1.findSome? (fun x => uncovered c.fp.rd x.1 x.2) with
    | some g => some (32 * g)
    | none => (r.2.findSome? (fun x => uncovered c.fp.wr x.1 x.2)).map (32 * ·)

/-! ### Acceptance (R99, R185, R240, R257, R336) -/

/-- The queue of a command (R185): a multicast whose only receiver is the issuing tile has its destination in the own slice, and rows
that lie in several windows go by the one of DADDR (DESIGN CHOICE, log 98). -/
def Cmd.queue (c : Cmd) (e : CEng) (own : Nat) : Que :=
  match e with
  | .ie => .iq
  | .ce => match c.kind with
    | 0x05 => if c.byte 16 % 2 = 1 then .sq else .lq
    | 0x03 => if (List.range 16).all (fun j => !bitN (c.field 30 2) j || decide (c.field 23 5 / Config.windowSize + j = own)) then .lq else .sq
    | _ => if placeFar c.sdst || decide (c.sdst / Config.windowSize ≠ own) then .sq else .lq

/-- The place of a command engine in the order of R349. -/
def cengRank : CEng → Nat
  | .ce => 2
  | .ie => 3
/-- Places of a command engine (R99). -/
def cengPlaces : CEng → Nat
  | .ce => Config.ceQueue
  | .ie => Config.ieQueue
/-- The engine holds as many commands as it can (R99). -/
def Tile.cengFull (x : Tile) (e : CEng) : Bool := decide (cengPlaces e ≤ (x.cengine e).cmds.length)

/-- The far pages of a block's declared destination (R257), those of proxies or the others; rows chosen by index data may lie
anywhere from TADDR to the buffer's end (DEDUCED, log 11). -/
def State.farPages (s : State) (t : Nat) (c : Cmd) (proxy : Bool) : List Nat :=
  let x := s.tile t
  let span := fun (slot lo hi : Nat) =>
    let b := s.buf (accOf (x.cap slot))
    if hi ≤ lo ∨ b.proxy.isSome ≠ proxy then [] else
      (List.range ((b.vbase + hi - 1) / 2 ^ 16 - (b.vbase + lo) / 2 ^ 16 + 1)).map (fun k => (b.vbase + lo) / 2 ^ 16 + k)
  match c.kind with
  | 0x01 | 0x04 => if placeFar c.sdst then
      ((c.rows 0 (fun _ => 0)).flatMap (fun r => span (placeSlot r.dst) (placeOff r.dst) (placeOff r.dst + r.len))).eraseDups else []
  | 0x12 | 0x13 => if placeFar c.table then
      span (placeSlot c.table) (placeOff c.table) (s.buf (accOf (x.cap (placeSlot c.table)))).size else []
  | 0x16 => if placeFar c.table then
      span (placeSlot c.table) (placeOff c.table) (placeOff c.table + c.x4 % 2 ^ 16 * c.w) else []
  | _ => []

/-- The far pages of a block's declared destination in this package (R257). -/
def State.destPages (s : State) (t : Nat) (c : Cmd) : List Nat := s.farPages t c false

/-- The leaf in use for a page: the translation held of its view, else the entry in memory (R240, R260). -/
def State.leafInUse (s : State) (holder c vpn : Nat) : Option Nat :=
  match s.held? holder c vpn (s.pageView c vpn) with
  | some x => some x.pte.toNat
  | none => match s.walk c vpn with
    | .leaf _ pte _ => some pte
    | .bad _ => none

/-- The dirty burst of acceptance (R257). -/
def State.markDirty (s : State) (c : Nat) : List Nat → State
  | [] => s
  | vpn :: r => (match s.walk c vpn with
      | .leaf k pte _ => if bitN pte 4 then s else s.orEntry k 16
      | .bad _ => s).markDirty c r

/-- What the checks of a block give. -/
inductive Accept where
  | ok (c : Cmd)
  | stall
  | unbound (c : Cmd)
  | trap (cause : Nat) (tval : Word)
  | illegal
  deriving DecidableEq, Repr

/-- The block at offset `off` of tile `t`'s window, as a command not yet accepted. -/
def State.blockAt (s : State) (t off : Nat) (e : CEng) (xb : Option Nat) (chain : Bool) : Cmd :=
  let x := s.tile t
  let c : Cmd := { no := x.issueNo, born := t, que := .lq, blk := BitVec.ofNat 512 (s.load (nearKey t off) 64), at_ := off, xb := xb,
                   chain := chain }
  let c := { c with que := c.queue e x.vtile }
  let c := { c with idx := if c.kind = 0x02 then (List.range (c.field 30 2)).map (fun k => s.load (nearKey t (c.field 32 4 + 4 * k)) 4)
                           else [] }
  let slots := (c.uses.map (·.slot)).eraseDups
  { c with caps := slots.map (fun k => (k, x.cap k, (s.buf (accOf (x.cap k))).vgen)) }

/-- A line of the index words that GFILL reads at acceptance is landing (R154, R191). -/
def State.indexLanding (s : State) (t : Nat) (c : Cmd) : Bool :=
  decide (c.kind = 0x02) && c.idx.zipIdx.any (fun i => s.landing t (c.field 32 4 + 4 * i.2))

/-- The binds that a block asks for in other packages, one for each buffer that it names by proxy, with the pages of its declared
destination where that is the buffer (R382). -/
def State.bindsOf (s : State) (t : Nat) (c : Cmd) : List (Nat × SpanReq) :=
  c.refs.filterMap fun h => (s.buf (accOf h)).proxy.map (fun q =>
    (q.1, SpanReq.bind (accOf q.2) (s.bindTag t c.no) (if c.writes (accOf h) then s.farPages t c true else [])))
/-- The owners have answered the binds of a block (R382). -/
def State.bindsDone (s : State) (t : Nat) (c : Cmd) : Bool :=
  decide ((s.bindsOf t c).length ≤ (s.bound.filter (fun g => decide (g = s.bindTag t c.no))).length)
/-- A block whose acceptance waits for its binds asks for those that it has not asked for (R382). -/
def State.askBinds (s : State) (t : Nat) (c : Cmd) : State :=
  { s with spanOut := s.spanOut ++ (s.bindsOf t c).filter (fun q => !s.spanOut.contains q) }

/-- The checks of R99 steps 2 to 5 and R187 on the block at offset `off`, and the count limits of R101 and R265; the block of a command
that names a proxy waits for its owner (R382). -/
def State.checkBlock (s : State) (t off : Nat) (e : CEng) (xb : Option Nat) (chain : Bool) : Accept :=
  let x := s.tile t
  let c := s.blockAt t off e xb chain
  if !s.blockLegal t e c then .illegal
  else match s.slotCheck t c.uses with
    | some (k, n) => .trap k (BitVec.ofNat 64 n)
    | none => match (c.nearUses x.vtile).findSome? (s.nearUseFault t) with
      | some (k, a) => .trap k a
      | none => match c.footprintFault x.vtile with
        | some o => .trap 0x17 (nearOf x.vtile o)
        | none =>
          match c.caps.find? (fun y => decide (2 ^ 32 - 1 ≤ (s.buf (accOf y.2.1)).count)) with
          | some y => .trap 0x0A (BitVec.ofNat 64 y.1)
          | none =>
            let full := match xb with | some n => decide (255 ≤ (x.xbar n).pending) | none => false
            if full then .trap 0x18 (BitVec.ofNat 64 (xb.getD 0))
            else if s.indexLanding t c then .stall
            else if (s.destPages t c).any (fun p =>
                match s.leafInUse (streamHolder t e) x.ctx p with | some pte => bitN pte 2 | none => false) then .stall
            else if s.bindsDone t c then .ok c else .unbound c

/-- A pending count one higher (R101). -/
def Tile.armXb (x : Tile) (xb : Option Nat) : Tile :=
  match xb with
  | some n => let b := x.xbar n; { x with xb := FMap.set x.xb n { b with pending := b.pending + 1 } }
  | none => x

/-- Accept a checked block: issue number, place in the queue, barrier, references, dirty burst (R99, R257, R336). -/
def State.accept (s : State) (t : Nat) (e : CEng) (c : Cmd) : State :=
  let pages := s.destPages t c
  let s := s.modTile t fun x =>
    let g := x.cengine e
    { (x.setCengine e { g with cmds := g.cmds ++ [c] }).armXb c.xb with issueNo := x.issueNo + 1 }
  let s := c.refs.foldl (fun s h => s.modBuf (accOf h) (fun b => { b with count := b.count + 1 })) s
  { s.markDirty (s.tile t).ctx pages with bound := s.bound.filter (fun g => decide (g ≠ s.bindTag t c.no)) }

/-- Every far page that COPY, FILL or MCAST names is in the stream TLB (R100). -/
def State.translated (s : State) (t : Nat) (e : CEng) (c : Cmd) : Bool :=
  c.uses.all fun u =>
    let b := s.buf (accOf ((s.tile t).cap u.slot))
    let hi := u.hi.getD 0
    (List.range ((b.vbase + hi - 1) / 2 ^ 16 - (b.vbase + u.lo) / 2 ^ 16 + 1)).all fun k =>
      s.tlb.any (fun x => decide (x.holder = streamHolder t e ∧ x.ctx = (s.tile t).ctx ∧ b.vgen ≤ x.vgen) &&
        x.covers ((b.vbase + u.lo) / 2 ^ 16 + k))

/-- The promise that d asks for: a free beat after the current one, or none (R100, R208). -/
def State.promise (s : State) (t : Nat) (e : CEng) (c : Cmd) (d : BitVec 5) : Option Word :=
  if d ≠ 0 ∧ e = .ce ∧ (c.kind = 0x01 ∨ c.kind = 0x03 ∨ c.kind = 0x04) ∧ s.translated t e c
      ∧ ((s.tile t).ce.cmds.all (fun k => decide (k.que ≠ c.que) || k.park.isNone)) then
    some (s.dbc t + 1 + BitVec.ofNat 64 (s.pick % 2 ^ 32))
  else none

/-- cpy and idx (R99, R100), once the tile's reads have returned (R155). -/
def issueBlock (s : State) (e : CEng) (a d : BitVec 5) (xb : BitVec 4) : State :=
  let t := s.cur
  let addr := s.here.rd a
  if s.here.cengFull e || !s.here.reads.isEmpty then s
  else match s.ownNear t addr 64 with
    | .error k => s.trap k addr
    | .ok off =>
      if s.stalls t 1 off 64 then s
      else match s.checkBlock t off e (some xb.toNat) false with
        | .stall => s
        | .unbound c => s.askBinds t c
        | .trap k v => s.trap k v
        | .illegal => (s.raise t (cengSource e) 0x13 addr).retire d 0
        | .ok c =>
          match s.promise t e c d with
          | none => ((s.touch t 1 off 64).accept t e c).retire d 0
          | some p => ((s.picked.touch t 1 off 64).accept t e { c with promise := some p }).retire d p

/-- CPY: R99, R100. -/
def execCpy (a d : BitVec 5) (xb : BitVec 4) (s : State) : Res := .next (issueBlock s .ce a d xb)
/-- IDX: R99, R100. -/
def execIdx (a d : BitVec 5) (xb : BitVec 4) (s : State) : Res := .next (issueBlock s .ie a d xb)

/-- The template index and barrier that an ste.64 of `v` to own offset `off` starts (R197). -/
def templateOf (off : Nat) (v : Word) : Option (Nat × Nat) :=
  if 0xF80 ≤ off ∧ off < 0x1000 ∧ v.toNat / 2 ^ 14 = 0xA5 * 2 ^ 42 ∧ 64 ≤ v.toNat % 2 ^ 14 ∧ v.toNat % 2 ^ 14 ≤ 12287 then
    some (v.toNat % 2 ^ 14, (off - 0xF80) / 8)
  else none

/-- The template copy of block `i`, once the store is performed, as the checks of the block came out (R197); a failing check is
delivered. -/
def startTemplate (s : State) (i : Nat) (r : Accept) : State :=
  match r with
  | .ok c => s.accept s.cur .ce c
  | .trap k v => s.raise s.cur .ce k v
  | .illegal => s.raise s.cur .ce 0x13 (nearOf s.here.vtile (64 * i))
  | .stall | .unbound _ => s

/-- STE: an exposed store (R78); an ste.64 of a marked value to the template aperture starts a copy (R197). It waits while the CE
is full, while the store or the acceptance would wait, and while the block's line is landing (R80, R154). -/
def execSte (d base : BitVec 5) (size : BitVec 2) (off : BitVec 13) (s : State) : Res :=
  let a := memAddr s.here base off
  let v := s.here.rd d
  let n := sizeBytes size
  .next (match s.ownNear s.cur a n, (if size = 3 then templateOf (a.toNat % Config.windowSize) v else none) with
    | .ok o, some (i, x) =>
      let s' := s.storeBytes (nearKey s.cur o) (leBytes v.toNat n)
      if s.here.cengFull .ce || !s.here.reads.isEmpty || (s.accesses s.cur).any (fun q => q.orders s.cur o n false)
          || s.stalls s.cur 1 o n || s.stalls s.cur 1 (64 * i) 64 then s
      else match s'.checkBlock s.cur (64 * i) .ce (some x) false with
        | .stall => s
        | .unbound c => s.askBinds s.cur c
        | r => startTemplate ((s'.touch s.cur 1 o n).touch s.cur 1 (64 * i) 64).nextPc i r
    | _, _ => storeExposed s a n (leBytes v.toNat n))

/-! ### Transfer barriers (R101) -/

/-- XBWAIT: R101. -/
def execXbwait (d : BitVec 5) (xb : BitVec 4) (s : State) : Res :=
  let b := s.here.xbar xb.toNat
  .next (if b.pending ≠ 0 then s
    else (s.setHere { s.here with xb := FMap.set s.here.xb xb.toNat { b with status := 0 } }).retire d
      (BitVec.ofNat 64 (b.status * 256)))
/-- XBTEST: R101. -/
def execXbtest (d : BitVec 5) (xb : BitVec 4) (s : State) : Res :=
  let b := s.here.xbar xb.toNat
  .next (s.retire d (BitVec.ofNat 64 (b.status * 256 + b.pending)))
/-- XBARM: R101. -/
def execXbarm (a : BitVec 5) (xb : BitVec 4) (s : State) : Res :=
  let b := s.here.xbar xb.toNat
  let n := b.pending + (s.here.rd a).toNat
  .next (if 255 < n then s.trap 0x18 (BitVec.ofNat 64 xb.toNat)
    else (s.setHere { s.here with xb := FMap.set s.here.xb xb.toNat { b with pending := n } }).nextPc)

/-! ### Chains and slot counters (R107, R209) -/

/-- The command engine of a CHN word. -/
def chainEng (n : BitVec 1) : CEng := if n = 0 then .ce else .ie
/-- CHLINK: R107. -/
def execChlink (a : BitVec 5) (n : BitVec 1) (s : State) : Res :=
  let addr := s.here.rd a
  .next (match s.ownNear s.cur addr 64 with
    | .error k => s.trap k addr
    | .ok _ =>
      let g := s.here.cengine (chainEng n)
      (s.setHere (s.here.setCengine (chainEng n) { g with head := addr })).nextPc)
/-- A chain of the engine runs (R107, R209): it has a block to fetch, or its last block has not ended. -/
def CmdEngine.chainRuns (g : CmdEngine) : Bool := g.chain.isSome || g.chainLast.isSome
/-- CHKICK: stalls while a chain of the engine runs (R107). -/
def execChkick (n : BitVec 1) (s : State) : Res :=
  let g := s.here.cengine (chainEng n)
  .next (if g.chainRuns then s
    else (s.setHere (s.here.setCengine (chainEng n) { g with chain := some g.head })).nextPc)
/-- Counter c has reached v (R107). -/
def reached (c v : Nat) : Bool := decide ((c + 2 ^ 16 - v % 2 ^ 16) % 2 ^ 16 < 2 ^ 15)
/-- Counter `n` of a tile. -/
def Tile.counter (x : Tile) (n : Nat) : Nat := (Bank.get x.sc n).toNat
/-- Add to a counter and set the event latch (R106, R107). -/
def Tile.postCounter (x : Tile) (n v : Nat) : Tile :=
  { x with sc := FMap.set x.sc n (BitVec.ofNat 16 (x.counter n + v)), evLatch := true }
/-- SCWAIT: R107. -/
def execScwait (a : BitVec 5) (sc : BitVec 4) (s : State) : Res :=
  .next (if reached (s.here.counter sc.toNat) ((s.here.rd a).toNat % 2 ^ 16) then s.nextPc else s)
/-- SCPOST: R107. -/
def execScpost (a : BitVec 5) (sc : BitVec 4) (s : State) : Res :=
  .next (s.setHere (s.here.postCounter sc.toNat ((s.here.rd a).toNat % 2 ^ 16))).nextPc

/-- The chain of an engine after the block `c` has been queued (R209): it goes on at NEXT, or ends with this block. -/
def CmdEngine.chained (g : CmdEngine) (c : Cmd) : CmdEngine :=
  if c.field 8 8 = 0 then { g with chain := none, chainLast := some c.no }
  else { g with chain := some (BitVec.ofNat 64 (c.field 8 8)) }
/-- CHAIN_BLOCK_FETCH: engine arg.cmd of the current tile fetches the next block of its running chain, checks it and queues
it (R209); a failing block ends the chain with a reply of status FAULT (R107), whose SEL is 0 where the address fails and no block is
read (DESIGN CHOICE, log 98). It waits while the engine is full, and while its FLT is set, as units do (R361; DESIGN CHOICE, log 98). -/
def execChainBlockFetch (s : State) : Res :=
  let t := s.cur
  let e := s.arg.cmd
  let g := s.here.cengine e
  let fail := fun (s : State) (sel : Nat) =>
    (s.modTile t fun x => ((x.setCengine e { x.cengine e with chain := none }).reply (replyWord (cengSrc e) 1 sel 0)))
  .next (match g.chain with
    | none => s
    | some a =>
      if g.flt ∨ s.here.cengFull e ∨ s.held t then s
      else match s.ownNear t a 64 with
        | .error _ => fail s 0
        | .ok off =>
          if s.stalls t (cengRank e) off 64 then s
          else
            let c := s.blockAt t off e none true
            match s.checkBlock t off e none true with
            | .stall => s
            | .unbound c => s.askBinds t c
            | .trap _ _ => fail s c.chainSel
            | .illegal => fail s c.chainSel
            | .ok c => ((s.touch t (cengRank e) off 64).accept t e c).modTile t fun x => x.setCengine e ((x.cengine e).chained c))

/-! ### Signals (R186 step 5, R206, R207) -/

/-- The head command of a queue. -/
def CmdEngine.headOf (g : CmdEngine) (q : Que) : Option Cmd := g.cmds.find? (fun c => decide (c.que = q))
/-- The command engine of a queue. -/
def queEng : Que → CEng
  | .iq => .ie
  | _ => .ce
/-- Replace a command of an engine, found by its issue number. -/
def Tile.putCmd (x : Tile) (e : CEng) (c : Cmd) : Tile :=
  let g := x.cengine e
  x.setCengine e { g with cmds := g.cmds.map (fun k => if k.no = c.no then c else k) }
/-- A command gives a reply (R186, R207). -/
def Cmd.replies (c : Cmd) (r : CmdEnd) : Bool :=
  bitN (c.byte 1) 4 || decide (r.st = 8) || (c.chain && decide (r.st ≠ 0))
/-- A store command (R185): one of the store queue, or an index command whose destination is a far table. -/
def Cmd.stores (c : Cmd) : Bool :=
  decide (c.que = .sq ∨ c.que = .iq ∧ placeFar c.table ∧ (c.kind = 0x12 ∨ c.kind = 0x13 ∨ c.kind = 0x16))
/-- The FIFO that a command pushes: LC for a load command, SL for a store command (R186). -/
def Cmd.pushes (c : Cmd) : Nat := if c.stores then 2 else 0
/-- The FIFO that a command pops: SL for a load command, CS for a store command (R186). -/
def Cmd.pops (c : Cmd) : Nat := if c.stores then 1 else 2

/-- A receiver of an MCAST is saved: what goes to it waits (R370). -/
def State.receiverSaved (s : State) (ctx : Nat) (c : Cmd) : Bool :=
  decide (c.kind = 0x03) && (List.range 16).any (fun j => bitN (c.field 30 2) j &&
    (match FMap.get? (s.ctxAt ctx).tmap (c.field 23 5 / Config.windowSize + j) with
      | some v => v.saved
      | none => false))
/-- The receivers of an MCAST with RX enabled: physical tile, barrier, code (R194). -/
def State.receivers (s : State) (ctx : Nat) (c : Cmd) : List (Nat × Nat × Nat) :=
  if c.kind = 0x03 ∧ bitN (c.byte 32) 4 then
    ((List.range 16).filter (fun j => bitN (c.field 30 2) j)).filterMap fun j =>
      match FMap.get? (s.ctxAt ctx).tmap (c.field 23 5 / Config.windowSize + j) with
      | some v => some (v.phys, c.byte 32 % 16, if bitN c.refused j then 2 else 0)
      | none => none
  else []

/-- The landing writes of a command that have not been performed. -/
def State.landingsOf (s : State) (t no : Nat) : List Landing := s.land.filter (fun l => decide (l.unit = .cmd t no))
/-- How a command whose writes have all been performed ends (R194, R206, R207): a refused line gives LANDING, unless the command
was aborted, and VAL of COPY, FILL and MCAST counts what reached its place. -/
def Cmd.settled (c : Cmd) (r : CmdEnd) : CmdEnd :=
  let v := match c.kind with
    | 0x01 | 0x04 => c.count
    | 0x03 => c.refused
    | _ => r.val
  if c.refused ≠ 0 ∧ r.code < 2 then { code := 2, st := 2, val := v } else { r with val := v }

/-- A command that has given its signals leaves the tile (R186): a chain whose last block it was has run to its end (R209). -/
def CmdEngine.leave (g : CmdEngine) (c : Cmd) : CmdEngine :=
  { g with cmds := g.cmds.filter (fun k => decide (k.no ≠ c.no)), chainLast := if g.chainLast = some c.no then none else g.chainLast }
/-- The head of a queue of tile `t` can give its signals: it has ended, its writes have all been performed (R152), no receiver of it is
saved (R370), and the token and the reply that it owes have their places (R186). -/
def State.signalsReady (s : State) (t : Nat) (c : Cmd) (r : CmdEnd) : Bool :=
  (s.landingsOf t c.no).isEmpty && !s.receiverSaved (s.tile t).ctx c && !(c.replies r && !(s.tile t).replyRoom)
    && !(bitN (c.byte 1) 3 && decide (Config.tokenFifo ≤ (s.tile t).tokens c.pushes))
/-- A command of engine `e` of tile `t` is about to place its reply (R350). -/
def State.cmdReply (s : State) (t : Nat) (e : CEng) : Bool :=
  (match e with | .ce => [Que.lq, .sq] | .ie => [Que.iq]).any fun q =>
    match ((s.tile t).cengine e).headOf q with
    | some c => match c.ended.map c.settled with
      | some r => c.replies r && s.signalsReady t c r
      | none => false
    | none => false
/-- COMMAND_SIGNALS: the head command of queue arg.que, ended and with all of its writes performed (R152), gives all of its signals
together and leaves the queue; it waits while a reply or a token it owes has no place (R186), and one of the IE while a reply of the
CE goes first (R350). -/
def execCommandSignals (s : State) : Res :=
  let t := s.cur
  let e := queEng s.arg.que
  .next (match (s.here.cengine e).headOf s.arg.que with
    | none => s
    | some c => match c.ended.map c.settled with
      | none => s
      | some r =>
        let pushes := bitN (c.byte 1) 3
        if !s.signalsReady t c r || (decide (e = .ie) && c.replies r && s.cmdReply t .ce) then s
        else
          let s1 := s.modTile t fun x =>
            let x := match c.xb with | some n => x.signalXb n r.code | none => x
            let x := if pushes then { x.setTokens c.pushes (x.tokens c.pushes + 1) with evLatch := true } else x
            let x := if bitN (c.byte 1) 1 then x.postCounter (c.byte 2 / 16) (c.byte 6) else x
            let x := if c.replies r then x.reply (c.replyOf e r.st r.val) else x
            x.setCengine e ((x.cengine e).leave c)
          let s2 := (s1.receivers s.here.ctx c).foldl (fun s r => s.modTile r.1 (fun x => x.signalXb r.2.1 r.2.2)) s1
          { s2 with bits := s2.bits.filter (fun b => decide (b.unit ≠ LandUnit.cmd t c.no)) }.endRefs c)

/-- PROMISE_MISS: a command of the current tile that has not completed on its promised beat becomes a pending fault; the promise is
the one of the command numbered arg.n (R100, R362). -/
def execPromiseMiss (s : State) : Res :=
  .next (match (s.here.ce.cmds ++ s.here.ie.cmds).find? (fun c => decide (c.no = s.arg.n)) with
    | none => s
    | some c => match c.promise with
      | none => s
      | some p =>
        if (s.dbc s.cur).ult p then s
        else (s.modTile s.cur (fun x => (x.putCmd .ce { c with promise := none }))).raise s.cur .promise 0x10
          (BitVec.ofNat 64 (c.xb.getD 0)))

end Sys2Proof.Machine
end

