-- ==== Sys2Proof/Machine/Numbers.lean ====
section
/-! DEFINITION. Number formats, rounding and the arithmetic on encodings (R161 to R184, R214 to R216). Values are exact:
a sign, a natural number and a power of two. -/

namespace Sys2Proof.Machine

/-! ### Exact values -/

/-- A decoded floating-point value: NaN, an infinity, or (-1)^neg * m * 2^e exactly. -/
inductive Num where
  | nan
  | inf (neg : Bool)
  | fin (neg : Bool) (m : Nat) (e : Int)
  deriving DecidableEq, Repr

/-- A binary floating-point format (R167): exponent and mantissa bits, bias, and whether it has infinities. -/
structure FFmt where
  exp : Nat
  man : Nat
  bias : Nat
  hasInf : Bool
  deriving DecidableEq, Repr

/-- FP32 (R167). -/
def fp32 : FFmt := { exp := 8, man := 23, bias := 127, hasInf := true }
/-- FP16 (R167). -/
def fp16 : FFmt := { exp := 5, man := 10, bias := 15, hasInf := true }
/-- BF16 (R167). -/
def bf16 : FFmt := { exp := 8, man := 7, bias := 127, hasInf := true }
/-- E4M3 (R167, R168). -/
def e4m3 : FFmt := { exp := 4, man := 3, bias := 7, hasInf := false }
/-- E5M2 (R167). -/
def e5m2 : FFmt := { exp := 5, man := 2, bias := 15, hasInf := true }

/-- Width in bits. -/
def FFmt.width (F : FFmt) : Nat := 1 + F.exp + F.man
/-- The least exponent of the grid: that of the smallest subnormal. -/
def FFmt.emin (F : FFmt) : Int := 1 - (F.bias : Int) - F.man
/-- The magnitude code of the largest finite value. -/
def FFmt.maxCode (F : FFmt) : Nat := if F.hasInf then (2 ^ F.exp - 1) * 2 ^ F.man - 1 else 2 ^ (F.exp + F.man) - 2
/-- The canonical NaN (R167, R171). -/
def FFmt.qnan (F : FFmt) : Nat :=
  if F.hasInf then (2 ^ F.exp - 1) * 2 ^ F.man + 2 ^ (F.man - 1) else 2 ^ (F.exp + F.man) - 1
/-- The code of an infinity, or of the largest finite value where the format has none (R175). -/
def FFmt.infCode (F : FFmt) (neg : Bool) : Nat :=
  (if neg then 2 ^ (F.exp + F.man) else 0) + (if F.hasInf then F.maxCode + 1 else F.maxCode)

/-- Decode an encoding (R167, R168). -/
def FFmt.decode (F : FFmt) (c : Nat) : Num :=
  let neg := bitN c (F.exp + F.man)
  let mag := c % 2 ^ (F.exp + F.man)
  let E := mag / 2 ^ F.man
  let M := mag % 2 ^ F.man
  if F.hasInf then
    if E = 2 ^ F.exp - 1 then (if M = 0 then .inf neg else .nan)
    else if E = 0 then .fin neg M F.emin else .fin neg (M + 2 ^ F.man) (F.emin + E - 1)
  else if mag = 2 ^ (F.exp + F.man) - 1 then .nan
  else if E = 0 then .fin neg M F.emin else .fin neg (M + 2 ^ F.man) (F.emin + E - 1)

/-! ### Rounding (R174) -/

/-- Round the quotient `n + r / d` (0 ≤ r < d) of a magnitude to an integer: RNE, RTZ, RUP, RDN (R174). -/
def roundQuot (rm : Nat) (neg : Bool) (n r d : Nat) : Nat :=
  let up := match rm with
    | 0 => decide (d < 2 * r) || (decide (2 * r = d) && decide (n % 2 = 1))
    | 1 => false
    | 2 => !neg && decide (r ≠ 0)
    | _ => neg && decide (r ≠ 0)
  if up then n + 1 else n

/-- A nonnegative rational `num / den` times 2^k as a numerator and a denominator. -/
def scale2 (num den : Nat) (k : Int) : Nat × Nat := (num * 2 ^ k.toNat, den * 2 ^ (-k).toNat)

/-- The floor of log2 of the positive rational `num / den`. -/
def floorLog2 (num den : Nat) : Int :=
  let t : Int := (Nat.log2 num : Int) - Nat.log2 den
  let p := scale2 num den (-t)
  if p.2 ≤ p.1 then t else t - 1

/-- Round and encode the magnitude `num / den` with a sign (R174, R175): subnormals at the bottom, overflow to infinity
or, without one or with `sat`, to the largest finite value. -/
def FFmt.encodeRat (F : FFmt) (rm : Nat) (sat neg : Bool) (num den : Nat) : Nat :=
  let sgn := if neg then 2 ^ (F.exp + F.man) else 0
  if num = 0 then sgn
  else
    let q := max (floorLog2 num den - F.man) F.emin
    let p := scale2 num den (-q)
    let n := roundQuot rm neg (p.1 / p.2) (p.1 % p.2) p.2
    let code := (q - F.emin).toNat * 2 ^ F.man + n
    if F.maxCode < code then sgn + (if F.hasInf && !sat then F.maxCode + 1 else F.maxCode) else sgn + code

/-- cvt of R174 to a binary format. -/
def FFmt.cvt (F : FFmt) (rm : Nat) (sat : Bool) : Num → Nat
  | .nan => F.qnan
  | .inf neg => F.infCode neg
  | .fin neg m e => let p := scale2 m 1 e; F.encodeRat rm sat neg p.1 p.2

/-- rne(x, F) of R6. -/
def FFmt.rne (F : FFmt) (x : Num) : Nat := F.cvt 0 false x

/-- The magnitudes of FP4 STYPE 1 to 3 by index, in quarters (R169). -/
def fp4Grid (stype : Nat) : List Nat :=
  if stype = 1 then [0, 2, 4, 6, 8, 12, 16, 24] else if stype = 2 then [0, 1, 2, 4, 8, 16, 32, 64]
  else [0, 4, 8, 12, 16, 32, 64, 128]

/-- The value of an FP4 code (R169). -/
def fp4Decode (stype c : Nat) : Num :=
  if stype = 0 then (if c < 8 then .fin false c 0 else .fin true (16 - c) 0)
  else .fin (decide (8 < c)) ((fp4Grid stype).getD (c % 8) 0) (-2)

/-- The index of the grid magnitude that `num / den` quarters round to, from index `j` with magnitude `g` on. -/
def fp4Round (rm : Nat) (neg : Bool) (num den j g : Nat) : List Nat → Nat
  | [] => j
  | h :: t =>
    if h * den ≤ num then fp4Round rm neg num den (j + 1) h t
    else
      let r := 2 * (num - g * den)
      let w := (h - g) * den
      let up := match rm with
        | 0 => decide (w < r) || (decide (r = w) && decide (j % 2 = 1))
        | 1 => false
        | 2 => !neg && decide (r ≠ 0)
        | _ => neg && decide (r ≠ 0)
      if up then j + 1 else j

/-- cvt of R174 to FP4 of a scale type; every result saturates (R175). -/
def fp4Cvt (stype rm : Nat) : Num → Nat
  | .nan => 0
  | .inf neg => if stype = 0 then (if neg then 8 else 7) else (if neg then 15 else 7)
  | .fin neg m e =>
    if stype = 0 then
      let p := scale2 m 1 e
      let n := roundQuot rm neg (p.1 / p.2) (p.1 % p.2) p.2
      if neg then (16 - min n 8) % 16 else min n 7
    else
      let p := scale2 m 1 (e + 2)
      let j := fp4Round rm neg p.1 p.2 0 0 ((fp4Grid stype).drop 1)
      if j = 0 then 0 else (if neg then 8 else 0) + j

/-- Round a value to an integer and clamp it to a range (R176); NaN gives 0. -/
def numToInt (rm : Nat) (lo hi : Int) : Num → Int
  | .nan => 0
  | .inf neg => if neg then lo else hi
  | .fin neg m e =>
    let p := scale2 m 1 e
    let n : Int := roundQuot rm neg (p.1 / p.2) (p.1 % p.2) p.2
    max lo (min hi (if neg then -n else n))

/-- A two's-complement code of `w` bits (R176). -/
def intCode (w : Nat) (v : Int) : Nat := (v % (2 ^ w : Int)).toNat
/-- The signed value of a code of `w` bits. -/
def signedOf (w c : Nat) : Int := if 2 ^ (w - 1) ≤ c % 2 ^ w then ((c % 2 ^ w : Nat) : Int) - 2 ^ w else ((c % 2 ^ w : Nat) : Int)
/-- An integer as an exact value; zero is +0. -/
def numOfInt (v : Int) : Num := .fin (decide (v < 0)) v.natAbs 0

/-! ### Exact arithmetic (R171, R172) -/

/-- The negative of a value. -/
def Num.negate : Num → Num
  | .nan => .nan
  | .inf n => .inf (!n)
  | .fin n m e => .fin (!n) m e
/-- A value times 2^k (R164). -/
def Num.scale (k : Int) : Num → Num
  | .fin n m e => .fin n m (e + k)
  | x => x
/-- A value is zero of either sign. -/
def Num.isZero : Num → Bool
  | .fin _ m _ => decide (m = 0)
  | _ => false
/-- The signed numerator of a finite value over 2^e0, where e0 is at most its exponent. -/
def Num.signedAt (e0 : Int) (neg : Bool) (m : Nat) (e : Int) : Int :=
  let v : Int := ((m * 2 ^ (e - e0).toNat : Nat) : Int)
  if neg then -v else v
/-- The exact sum (R172). -/
def Num.add : Num → Num → Num
  | .nan, _ => .nan
  | _, .nan => .nan
  | .inf a, .inf b => if a = b then .inf a else .nan
  | .inf a, .fin _ _ _ => .inf a
  | .fin _ _ _, .inf b => .inf b
  | .fin n1 m1 e1, .fin n2 m2 e2 =>
    let e0 := min e1 e2
    let v := Num.signedAt e0 n1 m1 e1 + Num.signedAt e0 n2 m2 e2
    if v = 0 then .fin (n1 && n2 && decide (m1 = 0) && decide (m2 = 0)) 0 0 else .fin (decide (v < 0)) v.natAbs e0
/-- The exact product (R172). -/
def Num.mul : Num → Num → Num
  | .nan, _ => .nan
  | _, .nan => .nan
  | .inf a, .inf b => .inf (xor a b)
  | .inf a, .fin b m _ => if m = 0 then .nan else .inf (xor a b)
  | .fin a m _, .inf b => if m = 0 then .nan else .inf (xor a b)
  | .fin n1 m1 e1, .fin n2 m2 e2 => .fin (xor n1 n2) (m1 * m2) (e1 + e2)

/-- Order of two values that are no NaN: strictly less, with -0 below +0 when `z` is set (R214). -/
def Num.lt (z : Bool) : Num → Num → Bool
  | .nan, _ => false
  | _, .nan => false
  | .inf a, .inf b => a && !b
  | .inf a, .fin _ _ _ => a
  | .fin _ _ _, .inf b => !b
  | .fin n1 m1 e1, .fin n2 m2 e2 =>
    let e0 := min e1 e2
    let a := Num.signedAt e0 n1 m1 e1
    let b := Num.signedAt e0 n2 m2 e2
    decide (a < b) || (z && decide (a = b) && decide (m1 = 0) && n1 && !n2)

/-! ### Operations on encodings, each rounded once by RNE (R173, R214) -/

/-- rne(a + b). -/
def FFmt.add (F : FFmt) (a b : Nat) : Nat := F.rne ((F.decode a).add (F.decode b))
/-- rne(a - b). -/
def FFmt.sub (F : FFmt) (a b : Nat) : Nat := F.rne ((F.decode a).add (F.decode b).negate)
/-- rne(a × b). -/
def FFmt.mul (F : FFmt) (a b : Nat) : Nat := F.rne ((F.decode a).mul (F.decode b))
/-- rne(a × b + c), one rounding. -/
def FFmt.fma (F : FFmt) (a b c : Nat) : Nat := F.rne (((F.decode a).mul (F.decode b)).add (F.decode c))
/-- The smaller, -0 below +0; canonical NaN if either is NaN. -/
def FFmt.minF (F : FFmt) (a b : Nat) : Nat :=
  let x := F.decode a
  let y := F.decode b
  if x = .nan ∨ y = .nan then F.qnan else if y.lt true x then b else a
/-- The larger, -0 below +0; canonical NaN if either is NaN. -/
def FFmt.maxF (F : FFmt) (a b : Nat) : Nat :=
  let x := F.decode a
  let y := F.decode b
  if x = .nan ∨ y = .nan then F.qnan else if x.lt true y then b else a
/-- rne of a quotient of finite values (R216, R201); `b` is not zero. -/
def divNum (F : FFmt) : Num → Num → Nat
  | .fin n1 m1 e1, .fin n2 m2 e2 =>
    let p := scale2 m1 m2 (e1 - e2)
    F.encodeRat 0 false (xor n1 n2) p.1 p.2
  | .nan, _ => F.qnan
  | .inf a, .fin b _ _ => F.infCode (xor a b)
  | .fin a _ _, .inf b => F.encodeRat 0 false (xor a b) 0 1
  | _, _ => F.qnan

/-- The formats of the .F types (R47). -/
def floatType (t : Nat) : FFmt := match t with | 0 => fp32 | 1 => bf16 | 2 => fp16 | _ => e4m3

/-- The float literal table in FP32 (R46). -/
def literal32 (sel : Nat) : Nat :=
  (if 16 ≤ sel then 2 ^ 31 else 0) + ([0x00000000, 0x3F800000, 0x40000000, 0x40800000, 0x41000000, 0x41800000, 0x3F000000, 0x3E800000, 0x3E000000, 0x40400000, 0x41200000, 0x3DCCCCCD, 0x3F317218, 0x3FB8AA3B, 0x40490FDB, 0x3F3504F3]).getD (sel % 16) 0

/-! ### Transcendentals (R216) -/

/-- rne(C + f × p) with C given by its FP32 code, in turn for each C of the list. -/
def horner (f : Num) : List Nat → Nat → Nat
  | [], p => p
  | c :: t, p => horner f t (fp32.rne ((fp32.decode c).add (f.mul (fp32.decode p))))

/-- The nearest integer of a finite value, ties to even. -/
def nearestInt : Num → Int
  | .fin neg m e =>
    let p := scale2 m 1 e
    let n : Int := roundQuot 0 neg (p.1 / p.2) (p.1 % p.2) p.2
    if neg then -n else n
  | _ => 0

/-- vexp2 of R216. -/
def vexp2Of (x : Nat) : Nat :=
  match fp32.decode x with
  | .nan => fp32.qnan
  | .inf neg => if neg then 0 else fp32.infCode false
  | v =>
    if !v.lt false (numOfInt 128) then fp32.infCode false
    else if v.lt false (numOfInt (-150)) then 0
    else
      let n := nearestInt v
      let f := v.add (numOfInt (-n))
      let p := horner f [0x39218489, 0x3AAEC3FF, 0x3C1D955B, 0x3D635847, 0x3E75FDF0, 0x3F317218, 0x3F800000] 0x377FE5FE
      fp32.rne ((fp32.decode p).scale n)

/-- vlog2 of R216. -/
def vlog2Of (x : Nat) : Nat :=
  match fp32.decode x with
  | .nan => fp32.qnan
  | .inf neg => if neg then fp32.qnan else fp32.infCode false
  | .fin neg m e =>
    if m = 0 then fp32.infCode true
    else if neg then fp32.qnan
    else
      let t := floorLog2 m 1
      let ex := e + t
      let mant : Num := .fin false m (-t)
      let big := !mant.lt false (.fin false 181 (-7))
      let mant := if big then mant.scale (-1) else mant
      let ex := if big then ex + 1 else ex
      let s := divNum fp32 (mant.add (numOfInt (-1))) (fp32.decode (fp32.rne (mant.add (numOfInt 1))))
      let z := fp32.mul s s
      let q := horner (fp32.decode z) [0x3ED30BB1, 0x3F13BB63, 0x3F76384F, 0x4038AA3B] 0x3EA4258A
      fp32.rne ((numOfInt ex).add (fp32.decode (fp32.mul s q)))

/-- vrcp of R216. -/
def vrcpOf (x : Nat) : Nat :=
  match fp32.decode x with
  | .nan => fp32.qnan
  | .inf neg => fp32.encodeRat 0 false neg 0 1
  | .fin neg m e => if m = 0 then fp32.infCode neg else divNum fp32 (numOfInt 1) (.fin neg m e)

/-- Integer square root, bit by bit from bit `k - 1` down. -/
def isqrt (x : Nat) (r : Nat) : Nat → Nat
  | 0 => r
  | k + 1 => if (r + 2 ^ k) * (r + 2 ^ k) ≤ x then isqrt x (r + 2 ^ k) k else isqrt x r k

/-- vrsq of R216: 1 / √x from an integer root of 2^192 / m' with a sticky bit, so that the one rounding is exact. -/
def vrsqOf (x : Nat) : Nat :=
  match fp32.decode x with
  | .nan => fp32.qnan
  | .inf neg => if neg then fp32.qnan else 0
  | .fin neg m e =>
    if m = 0 then fp32.infCode neg
    else if neg then fp32.qnan
    else
      let m' := if e % 2 = 0 then m else 2 * m
      let e' := if e % 2 = 0 then e else e - 1
      let z := 2 ^ 192 / m'
      let y := isqrt z 0 97
      let exact := decide (y * y * m' = 2 ^ 192)
      let n := 2 * y + (if exact then 0 else 1)
      let p := scale2 n (2 ^ 97) (-(e' / 2))
      fp32.encodeRat 0 false false p.1 p.2

/-- vtanh of R216. -/
def vtanhOf (x : Nat) : Nat :=
  let sgn := if bitN x 31 then 2 ^ 31 else 0
  let a := x % 2 ^ 31
  match fp32.decode a with
  | .nan => fp32.qnan
  | v =>
    if !v.lt false (numOfInt 10) then sgn + 0x3F800000
    else if v.lt false (.fin false 1 (-2)) then
      let z := fp32.mul a a
      let q := horner (fp32.decode z) [0x3CB327A4, 0xBD5D0DD1, 0x3E088889, 0xBEAAAAAB, 0x3F800000] 0xBC11371B
      sgn + fp32.mul a q
    else
      let g := vexp2Of (fp32.rne ((v.scale 1).mul (fp32.decode 0x3FB8AA3B)))
      let h := fp32.add g 0x3F800000
      let r := divNum fp32 (numOfInt 2) (fp32.decode h)
      sgn + fp32.sub 0x3F800000 r

/-! ### Line formats (R161 to R166) -/

/-- A format that a line can hold numerically (R162). -/
inductive LineFmt where
  | flt (F : FFmt)
  | fp4 (stype : Nat)
  | int (w : Nat) (signed : Bool)
  deriving DecidableEq, Repr

/-- Bits of an element. -/
def LineFmt.width : LineFmt → Nat
  | .flt F => F.width
  | .fp4 _ => 4
  | .int w _ => w

/-- The format a descriptor names, when a line that carries it may be consumed numerically at all (R162, R163). -/
def lineFmt (d : BitVec 16) : Option LineFmt :=
  let stype := d.toNat / 2 ^ 14
  let raw := d.toNat / 2 ^ 8
  if stype ≠ 0 ∧ d.toNat % 256 ≠ 0x30 then none
  else match d.toNat % 256 with
    | 0x10 => some (.flt fp32)
    | 0x11 => some (.flt fp16)
    | 0x12 => some (.flt bf16)
    | 0x20 => some (.flt e4m3)
    | 0x21 => some (.flt e5m2)
    | 0x30 => some (.fp4 stype)
    | 0x40 => if raw = 0x20 then some (.int 8 true) else none
    | 0x41 => if raw = 0x20 then some (.int 8 false) else none
    | 0x42 => if raw = 0x20 then some (.int 16 true) else none
    | 0x43 => if raw = 0x20 then some (.int 32 true) else none
    | _ => none

/-- The scale exponent of a descriptor: SEXP - 32 (R161, R164). -/
def lineScale (d : BitVec 16) : Int := ((d.toNat / 2 ^ 8 % 64 : Nat) : Int) - 32

/-- The decoded value of an element code (R164, without the scale). -/
def LineFmt.value (f : LineFmt) (c : Nat) : Num :=
  match f with
  | .flt F => F.decode c
  | .fp4 st => fp4Decode st c
  | .int w sg => numOfInt (if sg then signedOf w c else (c % 2 ^ w : Nat))

/-- Element `i` of `w` bits of a run of bytes given as a little-endian number (R166). -/
def elemOf (v w i : Nat) : Nat := v / 2 ^ (w * i) % 2 ^ w

/-! ### Block quantising (R181, R182) -/

/-- The largest magnitude of a list, NaN excluded; +0 if none (R181). -/
def amaxOf : List Num → Num
  | [] => .fin false 0 0
  | x :: t =>
    let r := amaxOf t
    match x with
    | .nan => r
    | .inf _ => .inf false
    | .fin _ m e => if r.lt false (.fin false m e) then .fin false m e else r

/-- maxc of R181 as numerator over 1: target 0 E4M3, 1 E5M2, 4 to 7 FP4 STYPE 0 to 3. -/
def maxcOf (target : Nat) : Nat :=
  match target with
  | 0 => 448
  | 1 => 57344
  | 4 => 7
  | 5 => 6
  | 6 => 16
  | _ => 32

/-- X of R181. -/
def scaleX (target : Nat) (amax : Num) : Nat :=
  match amax with
  | .inf _ => 63
  | .nan => 32
  | .fin _ m e =>
    if m = 0 then 32
    else
      -- the least k with m * 2^e ≤ maxc * 2^k
      let p := scale2 m (maxcOf target) e
      let t := floorLog2 p.1 p.2
      let q := scale2 p.1 p.2 (-t)
      let k := if q.1 ≤ q.2 then t else t + 1
      (max 0 (min 63 (k + 32))).toNat

/-- One element of a quantised block (R182). -/
def quantElem (target X : Nat) (v : Num) : Nat :=
  let y := v.scale (32 - (X : Int))
  match target with
  | 0 => e4m3.cvt 0 true y
  | 1 => e5m2.cvt 0 true y
  | k => fp4Cvt (k - 4) 0 y

/-- Element width of a quantised target. -/
def quantWidth (target : Nat) : Nat := if target < 4 then 8 else 4
/-- The descriptor of a quantised line (R182). -/
def quantDesc (target X : Nat) : BitVec 16 :=
  BitVec.ofNat 16 ((if target = 0 then 0x20 else if target = 1 then 0x21 else 0x30)
    + 256 * ((if target < 4 then 0 else target - 4) * 64 + X))

/-- Element codes of `w` bits packed into one little-endian number (R166). -/
def packElems (w : Nat) : List Nat → Nat
  | [] => 0
  | c :: t => c % 2 ^ w + 2 ^ w * packElems w t

end Sys2Proof.Machine
end

