-- ==== Sys2Proof/Machine/Transfer.lean ====
section
/-! DEFINITION. How commands run: the steps of R186 and the transfer of every copy and index kind (R188 to R206), with far
rows read from the bound view and written into shadows. -/

namespace Sys2Proof.Machine

/-! ### Beginning (R186 steps 1 to 3, R343) -/

/-- A tkpop waits on a FIFO in a place before the unit numbered `no` (R343); tkAt holds 4 times the issue number at which
it issued, plus the FIFO. -/
def Tile.tkpopBefore (x : Tile) (pair no : Nat) : Bool :=
  match x.tkAt with
  | some v => decide (v % 4 = pair ∧ v / 4 ≤ no)
  | none => false

/-- Step 1 of R186 is passed, now or before: a counter that moves on does not undo it. -/
def Cmd.chainOk (c : Cmd) (x : Tile) : Bool :=
  c.passed || !bitN (c.byte 1) 0 || reached (x.counter (c.byte 2 % 16)) (c.field 4 2)
/-- The command still waits to pop a token (R186 step 2). -/
def Cmd.wantsToken (c : Cmd) : Bool := bitN (c.byte 1) 2 && !c.popped

/-- Tokens that stamped entries in their first step are about to remove from LC (R347). -/
def Tile.owed (x : Tile) (pair : Nat) : Nat :=
  if pair = 0 then ([x.ve, x.xe].filter (fun g => match g.run with | some r => r.owes | none => false)).length else 0
/-- A unit accepted before number `no` waits to pop the FIFO (R343): it heads its queue, past its chain wait, and its engine is not held by a
fault (R361; DEDUCED, log 95). -/
def Tile.unitBefore (x : Tile) (pair no : Nat) : Bool :=
  match pair with
  | 0 => [x.ve, x.xe].any (fun g => g.run.isNone && !g.flt && (match g.queue.head? with
      | some q => q.pop && decide (q.no < no) | none => false))
  | _ => [(CEng.ce, Que.lq), (CEng.ce, Que.sq), (CEng.ie, Que.iq)].any (fun k =>
      match (x.cengine k.1).headOf k.2 with
      | some c => !(x.cengine k.1).flt && c.chainOk x && c.wantsToken && decide (c.pops = pair) && decide (c.no < no)
      | none => false)
/-- The command writes a buffer whose cappub waits, and was accepted after that wait began: it writes into the shadow that
follows the swap (R157, R273). -/
def State.behindSwap (s : State) (c : Cmd) : Bool :=
  c.caps.any fun y => c.writes (accOf y.2.1) && (s.buf (accOf y.2.1)).swapping.isSome && !c.awaited.contains (accOf y.2.1)

/-- Store what has become of a command. -/
def State.putCmd (s : State) (t : Nat) (e : CEng) (c : Cmd) : State := s.modTile t (fun x => x.putCmd e c)
/-- The block that a command has once it has fetched it again behind its token, bytes 0 and 1 being those that it was accepted with
(R345). -/
def State.refetched (s : State) (t : Nat) (c : Cmd) : Cmd :=
  let blk := s.load (nearKey t c.at_) 64 / 2 ^ 16 * 2 ^ 16 + c.blk.toNat % 2 ^ 16
  let c := { c with blk := BitVec.ofNat 512 blk }
  { c with idx := if c.kind = 0x02 then (List.range (c.field 30 2)).map (fun k => s.load (nearKey t (c.field 32 4 + 4 * k)) 4) else [] }
/-- A block fetched again is one that the command could have been accepted with: it is legal, goes to the same queue, names no other
slot, and passes the checks of R187 (DESIGN CHOICE, log 102). -/
def State.stillGood (s : State) (t : Nat) (e : CEng) (old c : Cmd) : Bool :=
  let x := s.tile t
  s.blockLegal t e c && decide (c.queue e x.vtile = old.que) && c.uses.all (fun u => old.caps.any (fun y => decide (y.1 = u.slot) &&
      hasRight y.2.1 u.right && decide (u.hi.getD (u.lo + 1) ≤ (s.buf (accOf y.2.1)).size)))
    && ((c.nearUses x.vtile).findSome? (s.nearUseFault t)).isNone && (c.footprintFault x.vtile).isNone
/-- A command that has removed its token performs its accesses after what came before the token's push, the fetch of its block
included (R345): it has the block as it stands then. -/
def State.refetch (s : State) (t : Nat) (e : CEng) (c : Cmd) : Cmd :=
  if c.chain then c
  else if s.stillGood t e c (s.refetched t c) then s.refetched t c else c
/-- The line of a command's block, which it fetches when it removes its token, is landing (R154). -/
def State.blockWaits (s : State) (t : Nat) (c : Cmd) : Bool := !c.chain && s.unitLanding t (c.at_ / 64) c.no
/-- Try to begin the head command of a queue: it removes its token once past its chain wait and in its turn, fetches its block, and
begins once the range checker lets it (R186, R338, R343, R345); FLT and a debugger hold it back (R361, R372). -/
def State.beginCmd (s : State) (t : Nat) (e : CEng) (c : Cmd) : State × Cmd :=
  let x := s.tile t
  if c.begun ∨ (x.cengine e).flt ∨ s.held t ∨ !c.chainOk x ∨ s.behindSwap c then (s, c)
  else
    let c := { c with passed := true }
    if c.wantsToken ∧ (x.tokens c.pops = 0 ∨ x.tkpopBefore c.pops c.no ∨ x.unitBefore c.pops c.no ∨ s.blockWaits t c) then (s, c)
    else
      let c1 := if c.wantsToken then { s.refetch t e c with popped := true } else c
      let s := if c.wantsToken then (s.modTile t (fun x => x.setTokens c.pops (x.tokens c.pops - 1))).putCmd t e c1 else s
      (s, { c1 with begun := (s.tile t).mayBegin c1.no c1.fp })

/-! ### Units of a transfer -/

/-- What one unit of a transfer comes to. -/
inductive Xfer where
  | go (s : State) (c : Cmd)
  | stall
  | need (vpn : Nat) (write : Bool)
  | park (vpn reason : Nat) (write : Bool)
  | fin (s : State) (c : Cmd) (e : CmdEnd) (flt : Option (Nat × Word))
  deriving DecidableEq, Repr

/-- An ending of status FAULT (R206). -/
def faultEnd (val : Nat) : CmdEnd := { code := 1, st := 1, val := val }
/-- An ending of status OK (R206). -/
def okEnd (val : Nat) : CmdEnd := { code := 0, st := 0, val := val }
/-- The command goes on with its next row, bag or line. -/
def Cmd.next (c : Cmd) : Cmd := { c with pos := c.pos + 1, sub := 0, held := none, bag := none, acc := [], row := [] }
/-- The command goes on with the next part of its row or bag. -/
def Cmd.more (c : Cmd) : Cmd := { c with sub := c.sub + 1 }

/-- The accesses of a unit to the own slice, by offset and length, take their banks (R12, R349). -/
def Xfer.touching (t : Nat) (e : CEng) (l : List (Nat × Nat)) : Xfer → Xfer
  | .go s c => .go (l.foldl (fun s r => s.touch t (cengRank e) r.1 r.2) s) c
  | x => x
/-- A unit whose accesses to the own slice are those of `l` waits for a bank that is not granted to it on this beat (R349). -/
def Xfer.banked (s : State) (t : Nat) (e : CEng) (l : List (Nat × Nat)) (x : Xfer) : Xfer :=
  if l.any (fun r => (s.tile t).bankTaken (cengRank e) r.1 r.2) then .stall else x.touching t e l
/-- The bytes of the own slice among `n` bytes from place `p`; none elsewhere. -/
def Tile.ownBytes (x : Tile) (p n : Nat) : List (Nat × Nat) :=
  if p < 2 ^ 33 ∧ p / Config.windowSize = x.vtile then [(p % Config.windowSize, n)] else []

/-- Run the units of a command of `n` rows, bags or lines from its position on, stopping at the first that cannot be completed. -/
def runUnits (t : Nat) (e : CEng) (n : Nat) (step : State → Cmd → Xfer) (last : State → Cmd → Option CmdEnd) :
    Nat → State → Cmd → State
  | 0, s, c => s.putCmd t e c
  | fuel + 1, s, c =>
    if n ≤ c.pos then s.putCmd t e { c with ended := last s c, want := none }
    else match step s c with
      | .go s c => runUnits t e n step last fuel s { c with want := none }
      | .stall => s.putCmd t e c
      | .need vpn write =>
        ((s.putCmd t e { c with want := some (vpn, write) }).askWalk (streamHolder t e) (s.tile t).ctx vpn write false)
      | .park vpn reason write =>
        let r := s.request (s.tile t).ctx vpn reason write (match e with | .ce => 0 | .ie => 1) t
        r.1.putCmd t e { c with want := some (vpn, write), park := some r.2 }
      | .fin s c r flt =>
        let s := s.putCmd t e { c with ended := some r, want := none }
        match flt with
        | some (k, v) => s.raise t (cengSource e) k v
        | none => s

/-- How many units a turn may run: arg.n, or with 0 as many as the command has. -/
def State.unitsNow (s : State) (n : Nat) : Nat := if s.arg.n = 0 then (n + 1) * 2 ^ 29 else s.arg.n

/-- The head command of queue `q` of the current tile runs when its kind is `kind`: it begins if it may, and then its units
run, at most arg.n of them unless that is 0; `n` counts its rows, bags or lines. -/
def runCmd (s : State) (q : Que) (kind : Nat) (n : State → Cmd → Nat) (step : State → Cmd → Xfer)
    (last : State → Cmd → Option CmdEnd) : State :=
  let t := s.cur
  let e := queEng q
  match (s.here.cengine e).headOf q with
  | none => s
  | some c =>
    if c.kind ≠ kind ∨ c.ended.isSome ∨ c.park.isSome ∨ s.held t then s
    else
      let r := s.beginCmd t e c
      let s := r.1.putCmd t e r.2
      if r.2.begun then runUnits t e (n s r.2) step last (s.unitsNow (n s r.2)) s r.2 else s

/-! ### Places (R155, R156, R188) -/

/-- The buffer and bound view of a slot that a command names. -/
def Cmd.bound (c : Cmd) (slot : Nat) : Nat × Nat :=
  match c.caps.find? (fun y => decide (y.1 = slot)) with
  | some y => (accOf y.2.1, y.2.2)
  | none => (0, 0)
/-- The far virtual address of a far place (R242). -/
def State.farVa (s : State) (c : Cmd) (p : Nat) : Nat := (s.buf (c.bound (placeSlot p)).1).vbase + placeOff p

/-- What reading the line of a place gives. -/
inductive Got where
  | key (s : State) (k : Nat)
  | line (s : State) (r : LineRead)
  | stall
  | need (vpn : Nat)
  | bad
  deriving DecidableEq, Repr

/-- A landing write of the command itself to a line of tile `d` is in flight: the command's accesses to the line fall in element
order (R151). -/
def State.ownInFlight (s : State) (t : Nat) (c : Cmd) (d line : Nat) : Bool :=
  s.land.any (fun l => decide (l.unit = .cmd t c.no ∧ l.dst = d ∧ l.line = line))
/-- A near line is landing for a command of tile `t` (R153, R154, R341), or awaits the command's own earlier write. -/
def State.lineWaits (s : State) (t : Nat) (c : Cmd) (d line : Nat) : Bool :=
  (if d = t then s.unitLanding t line c.no else s.farLanding d line (.cmd t c.no)) || s.ownInFlight t c d line
/-- A line of `[off, off + len)` of the own slice is landing for a command of the tile (R154, R341). -/
def State.rangeWaits (s : State) (t : Nat) (c : Cmd) (off len : Nat) : Bool :=
  decide (len ≠ 0) && (List.range ((off + len - 1) / 64 - off / 64 + 1)).any (fun k => s.lineWaits t c t (off / 64 + k))

/-- Read the line that holds a place: a near line is read where it lies, a far line from the bound view (R155), that of a buffer of
another package over Stalith Span (R382). -/
def State.fetchLine (s : State) (t : Nat) (e : CEng) (c : Cmd) (p : Nat) (count alloc : Bool) : Got :=
  let ctx := (s.tile t).ctx
  if placeFar p then
    let b := c.bound (placeSlot p)
    let va := s.farVa c p
    match s.readFarLine (streamHolder t e) ctx b.1 b.2 (va / 64 * 64) count alloc with
    | some (s, r) =>
      .line (match (s.buf b.1).proxy with
        | some q => s.sendSpan q.1 (.read (accOf q.2) (s.bindTag c.born c.no) (placeOff p / 64 * 64))
        | none => s) r
    | none => .need (va / 2 ^ 16)
  else match s.findNear ctx (BitVec.ofNat 64 p) with
    | .bad _ => .bad
    | .wait => .stall
    | .ok d off =>
      let line := off / 64 * 64
      if s.lineWaits t c d (off / 64) || (decide (d ≠ t) && (s.tile d).bankTaken 0 line 64) then .stall
      else .key (if d = t then s else s.touch d 0 line 64) (nearKey d off)
/-- The near source lines of a row that is assigned whole (R191, R200), as they are when the command comes to the row; `false` where one
of them is yet to be waited for, `true` where it lies in no window. -/
def State.holdRow (s : State) (t : Nat) (e : CEng) (c : Cmd) (p : Nat) : Nat → Except Bool (List HeldLine)
  | 0 => .ok []
  | n + 1 => match s.fetchLine t e c p false false with
    | .key s1 k => match s1.holdRow t e c (p + 64) n with
      | .ok l => .ok ({ line := p / 64, data := Mem.bytes s1.mem k 64, desc := s1.descAt k } :: l)
      | x => x
    | .bad => .error true
    | _ => .error false
/-- The command with the near source of its row, when it begins one and its kind assigns rows whole (R191, R200). -/
def State.wholeRow (s : State) (t : Nat) (e : CEng) (c : Cmd) (row : Row) : Except Bool Cmd :=
  match row.src with
  | some p =>
    if (c.kind = 0x02 ∨ c.kind = 0x10 ∨ c.kind = 0x12) ∧ !placeFar p ∧ c.sub = 0 then
      match s.holdRow t e c (p / 64 * 64) ((p + row.len + 63) / 64 - p / 64) with
      | .ok l => .ok { c with row := l }
      | .error b => .error b
    else .ok c
  | none => .ok c
/-- The source line of a place: the one that the command holds, unless it comes to the line afresh (R240), or that of a row which it
assigns whole (R191, R200). -/
def State.sourceLine (s : State) (t : Nat) (e : CEng) (c : Cmd) (p : Nat) (first alloc : Bool) : Got :=
  match c.row.find? (fun h => decide (h.line = p / 64)) with
  | some h => .line s { data := h.data, desc := h.desc }
  | none => match c.held with
  | some h =>
    if placeFar p ∧ !first ∧ h.line = p / 64 then .line s { data := h.data, desc := h.desc } else s.fetchLine t e c p first alloc
  | none => s.fetchLine t e c p first alloc
/-- The far line at place `p` stays with the command until it has taken it whole (R240). -/
def Got.hold (g : Got) (p : Nat) : Option HeldLine :=
  match g with
  | .line _ r => some { line := p / 64, data := r.data, desc := r.desc }
  | _ => none

/-- Where a written line lies: in memory at a key, in another tile, reached by a landing write, or in a buffer of another package,
reached over Stalith Span (R382), of whose memory the model holds nothing: the package, its accession number and the offset. -/
inductive Put where
  | key (s : State) (k : Nat)
  | land (tile off : Nat)
  | remote (package acc off : Nat)
  | stall
  | need (vpn : Nat)
  | park (vpn reason : Nat)
  | bad
  deriving DecidableEq, Repr

/-- The task of tile `t` has written the shadow of page `vpn` of buffer `a` (R144). -/
def State.wroteShadow (s : State) (t a vpn : Nat) : State :=
  match (s.tile t).task with
  | some n => s.modNode n (fun d => if d.wrote.contains (a, vpn) then d else { d with wrote := (a, vpn) :: d.wrote })
  | none => s

/-- Find the home of a place to be written (R156, R194, R259). -/
def State.findDest (s : State) (t : Nat) (e : CEng) (c : Cmd) (p : Nat) : Put :=
  let ctx := (s.tile t).ctx
  if placeFar p then
    match (s.buf (c.bound (placeSlot p)).1).proxy with
    | some q => .remote q.1 (accOf q.2) (placeOff p)
    | none =>
    let va := s.farVa c p
    match s.shadowFor (streamHolder t e) ctx (c.bound (placeSlot p)).1 (va / 2 ^ 16) with
    | .ok s f => .key (s.wroteShadow t (c.bound (placeSlot p)).1 (va / 2 ^ 16)) (farKey 0 f + va % 2 ^ 16)
    | .need => .need (va / 2 ^ 16)
    | .park r => .park (va / 2 ^ 16) r
  else match s.findNear ctx (BitVec.ofNat 64 p) with
    | .bad _ => .bad
    | .wait => .stall
    | .ok d off =>
      if d = t then (if s.unitLanding t (off / 64) c.no then .stall else .key s (nearKey d off)) else .land d off

/-! ### Byte-moving kinds: COPY, FILL, GFILL, GATHER, SCATTER -/

/-- A run of bytes within one source line and one destination line: `x` is its place in its row, `first` that it begins a
source line of the row, `last` that it ends the row. -/
structure Chunk where
  src : Option Nat
  dst : Nat
  len : Nat
  x : Nat
  first : Bool
  last : Bool
  deriving DecidableEq, Repr

/-- Cut a row into chunks. -/
def chunksOf (src : Option Nat) (dst len x : Nat) : Nat → List Chunk
  | 0 => []
  | fuel + 1 =>
    if len = 0 then []
    else
      let room := min (64 - dst % 64) (match src with | some p => 64 - p % 64 | none => 64)
      let n := min len room
      { src := src, dst := dst, len := n, x := x
        first := decide (x = 0 ∨ src.getD 0 % 64 = 0), last := decide (n = len) } ::
        chunksOf (src.map (· + n)) (dst + n) (len - n) (x + n) fuel
/-- The chunks of a row. -/
def Row.chunks (r : Row) : List Chunk := chunksOf r.src r.dst r.len 0 (r.len + 1)

/-- The bytes `[p, p + n)` meet the line numbered `line`. -/
def meetsLine (line : Nat) (r : Nat × Nat) : Bool := decide (r.2 ≠ 0 ∧ r.1 < 64 * (line + 1) ∧ 64 * line < r.1 + r.2)
/-- The source place of destination byte `b` under the rows written so far: of the last that writes it. -/
def sourceOf (rows : List Row) (b : Nat) : Option (Option Nat) :=
  (rows.reverse.find? (fun r => decide (r.dst ≤ b ∧ b < r.dst + r.len))).map (fun r => r.src.map (· + (b - r.dst)))
/-- What R188 gives the line that begins at place `p`, from the rows written so far: none where it is written in part; the source
line where it is taken whole from one at the same positions; none inside where it is written in full otherwise. -/
def lineSource (rows : List Row) (p : Nat) : Option (Option Nat) :=
  let l := (List.range 64).map (fun k => sourceOf rows (p + k))
  if l.any (·.isNone) then none
  else match l.head? with
    | some (some (some q)) =>
      if q % 64 = 0 ∧ l = (List.range 64).map (fun k => some (some (q + k))) then some (some q) else some none
    | _ => some none
/-- The rows written once the chunk `h` of row `row`, after the rows `done`, has been written, as far as they meet its line. -/
def rowsSoFar (done : List Row) (row : Row) (h : Chunk) : List Row :=
  (done.filter (fun r => meetsLine (h.dst / 64) (r.dst, r.len))) ++ [{ row with len := h.x + h.len }]

/-- The places that a byte-moving command writes after its current row: those of SCATTER may lie anywhere in its table. -/
def Cmd.rowsToCome (c : Cmd) (own : Nat) (rows : List Row) : List (Nat × Nat) :=
  match c.kind with
  | 0x10 => (List.range (c.nidx - (c.pos + 1))).map (fun k => (own * Config.windowSize + c.noff + (c.pos + 1 + k) * c.rowb, c.rowb))
  | 0x12 => if c.pos + 1 < c.nidx ∧ !placeFar c.table then [(own * Config.windowSize, Config.scratchEnd)] else []
  | _ => (rows.drop (c.pos + 1)).map (fun r => (r.dst, r.len))
/-- The places that a byte-moving command has yet to write, its current row included. -/
def Cmd.toWrite (c : Cmd) (own : Nat) (rows : List Row) : List (Nat × Nat) :=
  (match rows[c.pos]? with
    | some r => (r.chunks.drop c.sub).map (fun h => (h.dst, h.len))
    | none => []) ++ c.rowsToCome own rows

/-- Copy `n` bytes one after another, each read before it is written (R190). -/
def Mem.copyLoop (m : List Host.Cell) (src dst : Nat) : Nat → List Host.Cell
  | 0 => m
  | n + 1 => Mem.copyLoop (Mem.set m dst (Mem.get m src)) (src + 1) (dst + 1) n

/-- The bytes of FILL's pattern from row position `x` on (R192). -/
def patBytes (pat x : Nat) : Nat → List Byte
  | 0 => []
  | n + 1 => BitVec.ofNat 8 (pat / 2 ^ (8 * (x % 4))) :: patBytes pat (x + 1) n

/-- A landing write of a command of tile `t` to tile `u`, which holds virtual tile `v` (R21, R103, R370); its identifier is the command's
issue number (DESIGN CHOICE, log 82). -/
def State.landingTo (s : State) (t : Nat) (c : Cmd) (u v line : Nat) (data : List (Nat × Byte)) (desc : Option (BitVec 16)) : Landing :=
  { toRoute := { routeTo t u with txid := c.no, ctx := (s.tile t).ctx }
    unit := .cmd t c.no, line := line, data := data, desc := desc, vt := some v }
/-- Write the bytes of a chunk for place `p`, and the descriptor that it gives its line; `src` is a key or the bytes. A landing write
carries the bytes that the byte loop of R190 gives. -/
def State.putChunk (s : State) (t : Nat) (c : Cmd) (p : Nat) (src : Except Nat (List Byte)) (n : Nat) (d : Option (BitVec 16)) :
    Put → Option (State × Bool)
  | .key s' k =>
    let s' := match src with
      | .error sk => { s' with mem := Mem.copyLoop s'.mem sk k n }
      | .ok l => s'.storeBytes k l
    some ((match d with | some v => s'.setDesc k v | none => s'), true)
  | .land u off =>
    let l := match src with
      | .error sk => Mem.bytes (Mem.copyLoop s.mem sk (nearKey u off) n) (nearKey u off) n
      | .ok l => l
    let r := s.landingTo t c u (p / Config.windowSize) (off / 64) (l.mapIdx (fun i b => (off % 64 + i, b))) d
    some ({ s with land := s.land ++ [r] }, false)
  | .remote q a off =>
    let l := match src with
      | .error sk => Mem.bytes s.mem sk n
      | .ok l => l
    some (s.sendSpan q (.write a (s.bindTag c.born c.no) off l d), true)
  | _ => none

/-- The rows of a command of the current tile (R242: a far row may reach SIZE, not beyond). -/
def State.rowsOf (s : State) (t : Nat) (c : Cmd) : List Row :=
  c.rows (s.tile t).vtile (fun slot => (s.buf (c.bound slot).1).size)

/-- The command with the index word of its current row, which it reads when it comes to the row (R200); none while its line is
landing. -/
def State.nextIndex (s : State) (t : Nat) (c : Cmd) : Option Cmd :=
  if c.pos < c.idx.length then some c
  else
    let off := c.ioff + c.iw * c.pos
    if s.rangeWaits t c off c.iw then none else some { c with idx := c.idx ++ [s.load (nearKey t off) c.iw] }

/-- A chunk of the row `row` has been written: the command's count, its held line, and the line of its own slice that it has
finished (R340). -/
def Cmd.wrote (c : Cmd) (own : Nat) (rows : List Row) (row : Row) (h : Chunk) (here : Bool) (hold : Option HeldLine) : Cmd :=
  let bytes := decide (c.kind = 0x01 ∨ c.kind = 0x04)
  let line := h.dst / 64
  let again := (row.chunks.drop (c.sub + 1)).any (fun k => decide (k.dst / 64 = line)) || (c.rowsToCome own rows).any (meetsLine line)
  let mine := !placeFar h.dst && decide (h.dst / Config.windowSize = own)
  let c := { c with
    count := if bytes then (if here then c.count + h.len else c.count) else if h.last then c.count + 1 else c.count
    clear := if mine && !again then h.dst % Config.windowSize / 64 :: c.clear else c.clear }
  if h.last then c.next else { c.more with held := hold }

/-- One chunk of a byte-moving command. -/
def moveStep (t : Nat) (e : CEng) (s : State) (c : Cmd) : Xfer :=
  let x := s.tile t
  match (if c.kind = 0x10 ∨ c.kind = 0x12 then s.nextIndex t c else some c) with
  | none => .stall
  | some c =>
  let rows := s.rowsOf t c
  match rows[c.pos]? with
  | none => .stall
  | some row =>
  if row.bad then .fin s c (faultEnd c.count) none
  else match row.chunks[c.sub]? with
  | none => .stall
  | some h =>
    match s.wholeRow t e c row with
    | .error true => .fin s c (faultEnd c.count) none
    | .error false => .stall
    | .ok c =>
    let tableAcc := decide (c.kind = 0x02 ∨ c.kind = 0x10)
    -- data-dependent near accesses of the own slice are checked against the footprint when made (R187)
    let dep := fun (p : Option Nat) (fp : List (Nat × Nat)) => match p with
      | some p => if placeFar p || decide (p / Config.windowSize ≠ x.vtile) then none else uncovered fp (p % Config.windowSize) h.len
      | none => none
    match (if tableAcc then dep h.src c.fp.rd else if c.kind = 0x12 then dep (some h.dst) c.fp.wr else none) with
    | some g => .fin s c (faultEnd c.count) (some (0x17, nearOf x.vtile (32 * g)))
    | none =>
    match s.findDest t e c h.dst with
    | .stall => .stall
    | .bad => .fin s c (faultEnd c.count) none
    | .need v => .need v true
    | .park v r => .park v r true
    | dest =>
      let s1 := match dest with | .key s' _ => s' | _ => s
      let from_ := lineSource (rowsSoFar (rows.take c.pos) row h) (h.dst / 64 * 64)
      let goOn := fun (s : State) (src : Except Nat (List Byte)) (d : Option (BitVec 16)) (hold : Option HeldLine) =>
        match s.putChunk t c h.dst src h.len d (match dest with | .key _ k => Put.key s k | d => d) with
        | none => Xfer.stall
        | some (s, here) => .go s (c.wrote x.vtile rows row h here hold)
      match h.src with
      | none =>
        goOn s1 (.ok (patBytes (c.field 18 4) h.x h.len))
          (if bitN (c.byte 22) 0 && from_.isSome then some (BitVec.ofNat 16 (c.field 32 2)) else none) none
      | some p =>
        let desc := fun (d : BitVec 16) => from_.map (fun q => if q.isSome then d else 0)
        match s1.sourceLine t e c p h.first tableAcc with
        | .stall => .stall
        | .need v => .need v false
        | .bad => .fin s1 c (faultEnd c.count) none
        | .key s k => goOn s (.error k) (desc (s.descAt k)) none
        | .line s r => goOn s (.ok ((r.data.drop (p % 64)).take h.len)) (desc r.desc) (if placeFar p then (Got.line s r).hold p else none)

/-- A command whose writes have all been made or sent ends OK; what becomes of its landing writes is judged when it gives its
signals (R194, R206). -/
def endMoved (val : Cmd → Nat) (_ : State) (c : Cmd) : Option CmdEnd := some (okEnd (val c))

/-- The bytes of the own slice that the next chunk of a byte-moving command accesses: its index word, its source, or the whole source
of its row, and its destination. -/
def State.moveBytes (s : State) (t : Nat) (c : Cmd) : List (Nat × Nat) :=
  let word := if c.kind = 0x10 ∨ c.kind = 0x12 then (if c.sub = 0 then [(c.ioff + c.iw * c.pos, c.iw)] else []) else []
  let row := (s.rowsOf t ((s.nextIndex t c).getD c))[c.pos]?
  let source := fun (r : Row) (h : Chunk) => match h.src with
    | some p => if c.kind = 0x01 then (s.tile t).ownBytes p h.len
      else if c.sub = 0 then (s.tile t).ownBytes p r.len else []
    | none => []
  match row, row.bind (fun r => r.chunks[c.sub]?) with
  | some r, some h => word ++ (s.tile t).ownBytes h.dst h.len ++ source r h
  | _, _ => word

/-- The number of rows of a byte-moving command. -/
def Cmd.nRows (c : Cmd) : Nat :=
  match c.kind with
  | 0x02 => c.field 30 2
  | 0x10 | 0x12 => c.nidx
  | _ => (c.byte 30 + 1) * (c.byte 31 + 1)
/-- Run a byte-moving command. -/
def runMove (s : State) (q : Que) (kind : Nat) : State :=
  let t := s.cur
  runCmd s q kind (fun _ c => c.nRows) (fun s c => (moveStep t (queEng q) s c).banked s t (queEng q) (s.moveBytes t c)) (endMoved (·.count))

/-- COPY: the head of queue arg.que of the current tile, when it is a COPY, runs (R186, R190). -/
def execCopy (s : State) : Res := .next (runMove s s.arg.que 0x01)
/-- GFILL: R186, R191. -/
def execGfill (s : State) : Res := .next (runMove s s.arg.que 0x02)
/-- FILL: R186, R192. -/
def execFill (s : State) : Res := .next (runMove s s.arg.que 0x04)
/-- GATHER: R186, R200. -/
def execGather (s : State) : Res := .next (runMove s .iq 0x10)
/-- SCATTER: R186, R200. -/
def execScatter (s : State) : Res := .next (runMove s .iq 0x12)
/-- CHNOP: transfers nothing and runs the steps of R186 (R196). -/
def execChnop (s : State) : Res :=
  .next (runCmd s s.arg.que 0x05 (fun _ _ => 0) (fun _ _ => .stall) (fun _ _ => some (okEnd 0)))

/-! ### MCAST (R193, R194) -/

/-- The lines of an MCAST in one receiver: line number, first byte in the line, place in the transfer, length. -/
def mcastLines (off len : Nat) : List (Nat × Nat × Nat × Nat) :=
  (List.range ((off + len + 63) / 64 - off / 64)).map fun k =>
    let lo := max off (64 * (off / 64 + k))
    let hi := min (off + len) (64 * (off / 64 + k + 1))
    (off / 64 + k, lo % 64, lo - off, hi - lo)

/-- The receivers of an MCAST: the virtual tiles of its mask, with the physical tile of each (R193). A saved one is reached where it
comes back (R370). -/
def State.receiverTiles (s : State) (ctx : Nat) (c : Cmd) : List (Nat × Nat) :=
  ((List.range 16).filter (fun j => bitN (c.field 30 2) j)).filterMap fun j =>
    let v := c.field 23 5 / Config.windowSize + j
    (FMap.get? (s.ctxAt ctx).tmap v).map (fun m => (v, m.phys))
/-- One destination line of an MCAST (R193): the bytes that it takes from one or two source lines are sent at once to every
receiver. -/
def mcastStep (t : Nat) (e : CEng) (s : State) (c : Cmd) : Xfer :=
  let x := s.tile t
  let off := c.field 23 5 % Config.windowSize
  match (mcastLines off c.xlen)[c.pos]? with
  | none => .stall
  | some (line, lo, x0, n) =>
    let p := c.ssrc + x0
    let n1 := min n (64 - p % 64)
    match s.sourceLine t e c p (decide (c.pos = 0 ∨ p % 64 = 0)) false with
    | .stall => .stall
    | .bad => .fin s c (faultEnd 0) none
    | .need v => .need v false
    | g1 =>
      let s1 := match g1 with | .key s _ => s | .line s _ => s | _ => s
      let hold1 := g1.hold p
      let take := fun (g : Got) (q m : Nat) => match g with
        | .key s k => Mem.bytes s.mem k m
        | .line _ r => (r.data.drop (q % 64)).take m
        | _ => []
      match (if n1 < n then s1.fetchLine t e c (p + n1) true false else g1) with
      | .stall => .stall
      | .bad => .fin s c (faultEnd 0) none
      | .need v => .need v false
      | g2 =>
        let s2 := match g2 with | .key s _ => s | .line s _ => s | _ => s1
        let data := take g1 p n1 ++ (if n1 < n then take g2 (p + n1) (n - n1) else [])
        let d : Option (BitVec 16) :=
          if n < 64 then none
          else if p % 64 ≠ 0 then some 0
          else match g1 with | .key s k => some (s.descAt k) | .line _ r => some r.desc | _ => none
        let lands := (s.receiverTiles x.ctx c).map fun u => s.landingTo t c u.2 u.1 line (data.mapIdx (fun i b => (lo + i, b))) d
        .go { s2 with land := s2.land ++ lands } { c.next with held := if n1 < n then g2.hold (p + n1) else hold1 }

/-- The bytes of the own slice that the next line of an MCAST reads. -/
def State.mcastBytes (s : State) (t : Nat) (c : Cmd) : List (Nat × Nat) :=
  match (mcastLines (c.field 23 5 % Config.windowSize) c.xlen)[c.pos]? with
  | some (_, _, x0, n) => (s.tile t).ownBytes (c.ssrc + x0) n
  | none => []

/-- MCAST: R186, R193, R194. -/
def execMcast (s : State) : Res :=
  let t := s.cur
  .next (runCmd s s.arg.que 0x03
    (fun _ c => (mcastLines (c.field 23 5 % Config.windowSize) c.xlen).length)
    (fun s c => (mcastStep t .ce s c).banked s t .ce (s.mcastBytes t c)) (endMoved (·.refused)))

/-- A line lies, by any byte, in a window whose in-use bit is set (R103). -/
def Tile.inUse (x : Tile) (line : Nat) : Bool :=
  x.win.any (fun w => w.2.inUse && decide (w.2.base < 64 * (line + 1) ∧ 64 * line < w.2.base + w.2.len))

/-- The lines that a unit has yet to write at tile `d`: those in flight, and those that its command has yet to send (R153). -/
def State.linesToCome (s : State) (u : LandUnit) (d : Nat) : List Nat :=
  let flying := (s.land.filter (fun l => decide (l.unit = u ∧ l.dst = d))).map (·.line)
  match u with
  | .meeting _ => flying
  | .cmd t no =>
    let x := s.tile t
    match (x.ce.cmds ++ x.ie.cmds).find? (fun c => decide (c.no = no)) with
    | none => flying
    | some c =>
      let there := fun (p : Nat) => !placeFar p && (match FMap.get? (s.ctxAt x.ctx).tmap (p / Config.windowSize) with
        | some v => !v.saved && decide (v.phys = d) | none => false)
      if c.ended.isSome then flying
      else if c.kind = 0x03 then
        if (s.receiverTiles x.ctx c).any (fun u => decide (u.2 = d)) then
          flying ++ ((mcastLines (c.field 23 5 % Config.windowSize) c.xlen).drop c.pos).map (·.1) else flying
      else flying ++ ((c.toWrite x.vtile (s.rowsOf t c)).filter (fun r => there r.1)).flatMap fun r =>
        (List.range ((r.1 + r.2 + 63) / 64 - r.1 / 64)).map (fun k => r.1 % Config.windowSize / 64 + k)
/-- The landing bits that a unit sets at tile `d` are those of the lines that it has yet to write there (R153). -/
def State.rebit (s : State) (u : LandUnit) (d : Nat) : State :=
  { s with bits := s.bits.filter (fun b => decide (b.unit ≠ u ∨ b.tile ≠ d)) ++
      (s.linesToCome u d).eraseDups.map (fun l => { unit := u, tile := d, line := l }) }

/-- The bytes of a line that a landing write covers, as a mask. -/
def Landing.mask (r : Landing) : Nat := r.data.foldl (fun m b => m ||| 2 ^ b.1) 0
/-- A line of a tile as one number. -/
def Landing.place (r : Landing) : Nat := 16384 * r.dst + r.line
/-- The bytes of a landing write's line that refused writes of its command have left unwritten (R103, R188). -/
def Cmd.tornAt (c : Cmd) (r : Landing) : Nat := FMap.getD 0 c.torn r.place
/-- The descriptor that a landing write gives its line: none where an earlier write of its command to the line has been refused, so that
the line is not written in full (R188, R192). -/
def Cmd.landingDesc (c : Cmd) (r : Landing) : Option (BitVec 16) :=
  if c.tornAt r &&& (2 ^ 64 - 1 - r.mask) = 0 then r.desc else none
/-- What a refused or performed line does to the command of tile `t` that sent it (R188, R194, R207); a line of its own slice is no
longer landing for it (R153). -/
def Cmd.landed (c : Cmd) (t : Nat) (r : Landing) (ok : Bool) : Cmd :=
  let left := if ok then c.tornAt r &&& (2 ^ 64 - 1 - r.mask) else c.tornAt r ||| r.mask
  let c := { c with torn := if left = 0 then FMap.erase c.torn r.place else FMap.set c.torn r.place left }
  let c := if r.dst = t then { c with clear := r.line :: c.clear } else c
  if ok then (if c.kind = 0x01 ∨ c.kind = 0x04 then { c with count := c.count + r.data.length } else c)
  else { c with refused := c.refused ||| (if c.kind = 0x03 then 2 ^ (r.vt.getD 0 - c.field 23 5 / Config.windowSize) else 1) }

/-- What a refused line does to the meeting whose result it carries: the reply to the partner tells of it (R308). -/
def Meeting.refuse (m : Meeting) (k : Nat) : Meeting := if k % 2 = 0 then { m with aRefused := true } else { m with bRefused := true }
/-- The partner of a meeting whose result a landing unit carries. -/
def Meeting.partner (m : Meeting) (k : Nat) : Operand := if k % 2 = 0 then m.a else m.b
/-- Where a landing write goes now: to the tile that holds its virtual tile (R370), and a meeting's result to the one that holds that
of its destination (R308, R311). A command's write to a virtual tile that no task holds any more lands where it was sent. -/
def State.landsAt (s : State) (r : Landing) : Near :=
  match r.unit with
  | .cmd _ _ => match r.vt with
    | some v => match s.findNear r.ctx (nearOf v (64 * r.line)) with
      | .bad _ => .ok r.dst (64 * r.line)
      | w => w
    | none => .ok r.dst (64 * r.line)
  | .meeting k => match s.meetings.find? (fun m => decide (m.id = k / 2)) with
    | some m => s.findNear (m.partner k).ctx (m.partner k).dest
    | none => .bad 0x03
/-- Where the task of an operand's sender stands. -/
inductive Sender where
  | live (tile : Nat)
  | saved
  | dead
  deriving DecidableEq, Repr
/-- The sender of an operand. -/
def State.sender (s : State) (o : Operand) : Sender :=
  match FMap.get? s.nodes (o.node % 2 ^ 20) with
  | some n =>
    if s.nodeId (o.node % 2 ^ 20) ≠ o.node then .dead
    else if n.st = .saved then .saved
    else match FMap.get? (s.ctxAt o.ctx).tmap o.vtile with
      | some v => if (s.tile v.phys).task = some (o.node % 2 ^ 20) ∧ !(s.tile v.phys).fin then .live v.phys else .dead
      | none => .dead
  | none => .dead
/-- A line of a result has been written at tile `t`: an attempt whose meet it was may not restart when that is another tile than the
sender's (R144, R311), whatever the sender has done since. -/
def State.delivered (s : State) (t : Nat) (o : Operand) : State :=
  let n := o.node % 2 ^ 20
  let there := match FMap.get? (s.ctxAt o.ctx).tmap o.vtile with
    | some v => !v.saved && decide (v.phys = t)
    | none => false
  if s.nodeId n = o.node ∧ !there then s.modNode n (fun n => { n with noRestart := true }) else s
/-- A line of the result of meeting `k / 2` has been written at tile `t`, or refused. -/
def State.resultLanded (s : State) (k t : Nat) (ok : Bool) : State :=
  match s.meetings.find? (fun m => decide (m.id = k / 2)) with
  | none => s
  | some m =>
    if ok then (s.delivered t m.a).delivered t m.b
    else { s with meetings := s.meetings.map (fun n => if n.id = k / 2 then n.refuse k else n) }

/-- The landing write at a place has arrived, at a tile that no debugger holds and whose bank is granted to it, and no earlier write of
its unit to the same bytes, or with a descriptor for the same line, is in flight (R151, R349, R370). -/
def State.landingReady (s : State) (n : Nat) (r : Landing) : Bool :=
  r.arrived && !s.held r.dst && !(s.tile r.dst).bankTaken 0 (64 * r.line) 64 && !(s.land.take n).any (fun l =>
    decide (l.unit = r.unit ∧ l.dst = r.dst ∧ l.line = r.line) &&
      (l.desc.isSome || r.desc.isSome || l.data.any (fun b => r.data.any (fun k => decide (k.1 = b.1)))))

/-- The command that sent a landing write. -/
def State.landingCmd (s : State) (r : Landing) : Option Cmd :=
  match r.unit with
  | .cmd t no => (s.tile t).ce.cmds.find? (fun c => decide (c.no = no))
  | .meeting _ => none
/-- LANDING_WRITE: the landing write at place arg.n in flight reaches its line: it is judged by the in-use windows (R103), and
written with its descriptor, or refused. The first that a unit writes at another tile sets the bits of all of its lines there,
and each clears its own (R153). A meeting's result for a virtual tile that no task holds any more is refused without a fault, one
for a window that is saved or held waits, and one whose destination has moved follows it (R308, R311). -/
def execLandingWrite (s : State) : Res :=
  .next (match s.land[s.arg.n]? with
    | none => s
    | some r =>
      if !s.landingReady s.arg.n r then s
      else match s.landsAt r with
      | .wait => s
      | w =>
        let there := match w with | .ok t _ => some t | _ => none
        if there.isSome ∧ there ≠ some r.dst then
          { s with land := modAt (fun l => { l with toRoute := { routeTo r.dst (there.getD 0) with txid := r.txid, ctx := r.ctx } }) s.land s.arg.n }
        else
        let x := s.tile r.dst
        let ok := !x.inUse r.line && there.isSome
        let desc := match s.landingCmd r with
          | some c => c.landingDesc r
          | none => r.desc
        let base := nearKey r.dst (64 * r.line)
        let s1 := { s with land := dropAt s.land s.arg.n }
        let s2 := if ok then
            let s : State := { s1 with mem := r.data.foldl (fun (m : List Host.Cell) (b : Nat × Byte) => Mem.set m (base + b.1) b.2) s1.mem }
            (match desc with | some d => s.setDesc base d | none => s).touch r.dst 0 (64 * r.line) 64
          else if there.isSome then s1.raise r.dst .landing 0x12 (nearOf x.vtile (64 * r.line)) else s1
        let own := decide (r.unit.tile? = some r.dst)
        let s3 := if !own && (ok || s.bits.any (fun b => decide (b.unit = r.unit ∧ b.tile = r.dst))) then s2.rebit r.unit r.dst else s2
        match r.unit with
        | .cmd t no =>
          s3.modTile t fun y =>
            match y.ce.cmds.find? (fun c => decide (c.no = no)) with
            | some c => y.putCmd .ce (c.landed t r ok)
            | none => y
        | .meeting k => s3.resultLanded k r.dst ok)

/-! ### Bag lists and numeric lines (R199, R163) -/

/-- Offset word `b` of the bag list (R199). -/
def State.bagWord (s : State) (t : Nat) (c : Cmd) (b : Nat) : Nat := s.load (nearKey t (c.ioff + 4 * b)) 4
/-- Window offset of key `p` (R199). -/
def Cmd.keyOff (c : Cmd) (p : Nat) : Nat := c.ioff + 4 * (c.nidx + 1) + 4 * p
/-- Key `p` (R199). -/
def State.key (s : State) (t : Nat) (c : Cmd) (p : Nat) : Nat := s.load (nearKey t (c.keyOff p)) 4
/-- What opening a bag gives: its first position and the one after its last. -/
inductive BagRes where
  | stall
  | bad
  | ok (c : Cmd) (lo hi : Nat)
  deriving DecidableEq, Repr
/-- Open bag `b`: its two offset words are read when the command comes to it; one of 2^28 or more is out of range (R199). -/
def State.openBag (s : State) (t : Nat) (c : Cmd) (b : Nat) : BagRes :=
  match c.bag with
  | some (lo, hi) => .ok c lo hi
  | none =>
    if s.rangeWaits t c (c.ioff + 4 * b) 8 then .stall
    else
      let lo := s.bagWord t c b
      let hi := s.bagWord t c (b + 1)
      if 2 ^ 28 ≤ lo ∨ 2 ^ 28 ≤ hi then .bad else .ok { c with bag := some (lo, hi) } lo hi
/-- What reading a key gives. -/
inductive KeyRes where
  | stall
  | breach (a : Word)
  | ok (k : Nat)
  deriving DecidableEq, Repr
/-- Read key `p`: checked against the footprint when it is made (R187, R199). -/
def State.keyAt (s : State) (t : Nat) (c : Cmd) (p : Nat) : KeyRes :=
  match uncovered c.fp.rd (c.keyOff p) 4 with
  | some g => .breach (nearOf (s.tile t).vtile (32 * g))
  | none => if s.rangeWaits t c (c.keyOff p) 4 then .stall else .ok (s.key t c p)
/-- The ending of a command over bags that opens none of them: its one offset word is judged all the same (R199). -/
def State.noBag (s : State) (t : Nat) (c : Cmd) (bags val : Nat) : Option CmdEnd :=
  if bags ≠ 0 then some (okEnd val)
  else if s.rangeWaits t c (c.ioff + 4 * c.nidx) 4 then none
  else if 2 ^ 28 ≤ s.bagWord t c c.nidx then some (faultEnd val) else some (okEnd val)

/-- FORMAT's TVAL for a line at a place (R163, R206). -/
def State.formatTval (s : State) (t : Nat) (p : Nat) : Word :=
  if placeFar p then BitVec.ofNat 64 (2 ^ 63 + placeSlot p * 2 ^ 56 + placeOff p / 64 * 64 % 2 ^ 40)
  else nearOf (s.tile t).vtile (p % Config.windowSize / 64 * 64)

/-- Element values of a line with its scale (R164), or none where the line may not be consumed as `ok` says (R163). -/
def lineValues (ok : LineFmt → Bool) (r : LineRead) : Option (List Num) :=
  match lineFmt r.desc with
  | none => none
  | some f =>
    if ok f then
      let v := leNat r.data
      some ((List.range (512 / f.width)).map (fun i => (f.value (elemOf v f.width i)).scale (lineScale r.desc)))
    else none

/-- A line of the own slice. -/
def State.ownLine (s : State) (t off : Nat) : LineRead :=
  { data := Mem.bytes s.mem (nearKey t off) 64, desc := s.descAt (nearKey t off) }
/-- Write a line of the own slice with a descriptor. -/
def State.putLine (s : State) (t off v : Nat) (d : BitVec 16) : State :=
  (s.store (nearKey t off) 64 v).setDesc (nearKey t off) d
/-- Write elements of `w` bits to whole lines from offset `off`, each with descriptor `d`. -/
def State.putElems (s : State) (t off w : Nat) (l : List Nat) (d : BitVec 16) : Nat → State
  | 0 => s
  | n + 1 =>
    let k := 512 / w
    (s.putLine t off (packElems w (l.take k)) d).putElems t (off + 64) w (l.drop k) d n

/-- What reading a list of lines numerically gives. -/
inductive Lines where
  | ok (s : State) (l : List Num)
  | stall
  | need (vpn : Nat)
  | bad
  | format (s : State) (p : Nat)
  deriving DecidableEq, Repr

/-- Read `n` lines from place `p` numerically. -/
def State.readLines (s : State) (t : Nat) (e : CEng) (c : Cmd) (ok : LineFmt → Bool) (p : Nat) : Nat → Lines
  | 0 => .ok s []
  | n + 1 =>
    match s.fetchLine t e c p true true with
    | .stall => .stall
    | .need v => .need v
    | .bad => .bad
    | g =>
      let s1 := match g with | .key s _ => s | .line s _ => s | _ => s
      let r : LineRead := match g with
        | .key s k => { data := Mem.bytes s.mem k 64, desc := s.descAt k }
        | .line _ r => r
        | _ => { data := [], desc := 0 }
      match lineValues ok r with
      | none => .format s1 p
      | some l => match s1.readLines t e c ok (p + 64) n with
        | .ok s m => .ok s (l ++ m)
        | x => x

/-- The pages of a far row whose translation is not held. -/
def State.missing (s : State) (t : Nat) (e : CEng) (c : Cmd) (p len : Nat) : Option Nat :=
  if placeFar p then
    let va := s.farVa c p
    let b := c.bound (placeSlot p)
    (List.range ((va + len - 1) / 2 ^ 16 - va / 2 ^ 16 + 1)).findSome? fun k =>
      if (s.buf b.1).proxy.isNone && (s.viewLeaf (streamHolder t e) (s.tile t).ctx b.1 b.2 (va / 2 ^ 16 + k)).isNone then some (va / 2 ^ 16 + k) else none
  else none

/-! ### GPOOL (R201) -/

/-- Formats that GPOOL's input width accepts (R201). -/
def poolFmt (wide : Bool) (f : LineFmt) : Bool :=
  if wide then decide (f = .flt fp32) else decide (f = .flt fp16 ∨ f = .flt bf16)

/-- The place of table row `i` (R200, R201); that it wraps modulo 2^64 R200 says of GATHER and SCATTER, and the model takes for GPOOL too
(DESIGN CHOICE, log 98). -/
def Cmd.rowPlace (c : Cmd) (i : Nat) : Nat :=
  if placeFar c.table then c.table / 2 ^ 64 * 2 ^ 64 + (placeOff c.table + i * c.x4) % 2 ^ 64 else (c.table + i * c.x4) % 2 ^ 64
/-- A table row lies within the buffer, or within the own scratchpad (R200, R201). -/
def State.rowInside (s : State) (t : Nat) (c : Cmd) (p : Nat) : Bool :=
  if placeFar p then decide (placeOff p + c.rowb ≤ (s.buf (c.bound (placeSlot p)).1).size)
  else decide (p / Config.windowSize = (s.tile t).vtile ∧ p % Config.windowSize + c.rowb ≤ Config.scratchEnd)
/-- A data-dependent near access breaches the footprint (R187): the near address of the granule. -/
def State.nearBreach (s : State) (t : Nat) (fp : List (Nat × Nat)) (p len : Nat) : Option Word :=
  if placeFar p then none
  else (uncovered fp (p % Config.windowSize) len).map (fun g => nearOf (s.tile t).vtile (32 * g))

/-- The lines of `[off, off + len)`, finished. -/
def Cmd.finished (c : Cmd) (off len : Nat) : Cmd :=
  { c with clear := (if len = 0 then [] else (List.range ((off + len - 1) / 64 - off / 64 + 1)).map (fun k => off / 64 + k)) ++ c.clear }

/-- Add the row of key `k` to the partial sums of a bag (R201). -/
def poolRow (t : Nat) (s : State) (c : Cmd) (k : Nat) : Xfer :=
  let e := CEng.ie
  let row := c.rowPlace k
  if !s.rowInside t c row then .fin s c (faultEnd c.count) none
  else match s.nearBreach t c.fp.rd row c.rowb with
    | some a => .fin s c (faultEnd c.count) (some (0x17, a))
    | none => match s.missing t e c row c.rowb with
      | some v => .need v false
      | none => match s.readLines t e c (poolFmt (bitN c.mode 3)) row (c.rowb / 64) with
        | .stall => .stall
        | .need v => .need v false
        | .bad => .fin s c (faultEnd c.count) none
        | .format s p => .fin s c (faultEnd c.count) (some (0x14, s.formatTval t p))
        | .ok s l => .go s { c.more with acc := List.zipWith (fun a v => fp32.rne ((fp32.decode a).add v)) c.acc l }
/-- Write the output row of bag `b` of `n` keys, and its count (R201); a line of counts keeps its descriptor, as R188 names none for
bytes of no source line (DESIGN CHOICE, log 98). -/
def poolOut (t : Nat) (s : State) (c : Cmd) (b n : Nat) : Xfer :=
  let out := c.noff + b * c.orowb
  let cnt := c.noff + c.nidx * c.orowb + 4 * b
  if s.rangeWaits t c out c.orowb || (bitN c.mode 4 && s.rangeWaits t c cnt 4) then .stall
  else
    let acc := if bitN c.mode 2 ∧ n ≠ 0 then c.acc.map (fun a => divNum fp32 (fp32.decode a) (numOfInt n)) else c.acc
    let F := if c.mode % 4 = 0 then fp32 else if c.mode % 4 = 1 then fp16 else bf16
    let s := s.putElems t out F.width (acc.map (fun a => F.rne (fp32.decode a))) (BitVec.ofNat 16 (0x2010 + c.mode % 4)) (c.orowb / 64)
    let s := if bitN c.mode 4 then s.store (nearKey t cnt) 4 n else s
    let c := { c.next with count := c.count + 1 }.finished out c.orowb
    .go s (if bitN c.mode 4 ∧ ((b + 1) % 16 = 0 ∨ b + 1 = c.nidx) then c.finished cnt 4 else c)
/-- One key of a bag of GPOOL, or after the last its output row. -/
def poolStep (t : Nat) (s : State) (c : Cmd) : Xfer :=
  match s.openBag t c c.pos with
  | .stall => .stall
  | .bad => .fin s c (faultEnd c.count) none
  | .ok c lo hi =>
    let c := if c.sub = 0 then { c with acc := List.replicate (c.rowb / (if bitN c.mode 3 then 4 else 2)) 0 } else c
    if hi ≤ lo + c.sub then poolOut t s c c.pos (hi - lo)
    else match s.keyAt t c (lo + c.sub) with
      | .stall => .stall
      | .breach a => .fin s c (faultEnd c.count) (some (0x17, a))
      | .ok k => poolRow t s c k

/-- The bytes of the own slice that the next key of an open bag accesses: the key itself, and the row that `row` gives it; before the
bag is open, its two offset words; after its last key, its output `out`. -/
def State.bagBytes (s : State) (t : Nat) (c : Cmd) (b : Nat) (row : Nat → List (Nat × Nat)) (out : List (Nat × Nat)) : List (Nat × Nat) :=
  match c.bag with
  | none => [(c.ioff + 4 * b, 8)]
  | some (lo, hi) => if hi ≤ lo + c.sub then out else (c.keyOff (lo + c.sub), 4) :: row (s.key t c (lo + c.sub))
/-- The bytes of the own slice that the next part of a GPOOL accesses. -/
def State.poolBytes (s : State) (t : Nat) (c : Cmd) : List (Nat × Nat) :=
  s.bagBytes t c c.pos (fun k => (s.tile t).ownBytes (c.rowPlace k) c.rowb)
    ((c.noff + c.pos * c.orowb, c.orowb) :: (if bitN c.mode 4 then [(c.noff + c.nidx * c.orowb + 4 * c.pos, 4)] else []))

/-- GPOOL: R186, R201. -/
def execGpool (s : State) : Res :=
  let t := s.cur
  .next (runCmd s .iq 0x11 (fun _ c => c.nidx) (fun s c => (poolStep t s c).banked s t .ie (s.poolBytes t c)) (fun s c => s.noBag t c c.nidx c.count))

/-! ### SCADD (R202, R271 to R273) -/

/-- Formats that SCADD adds in (R202): descriptor of FP32, FP16, BF16 or I32 with scale byte 0x20. -/
def addFmt (d : BitVec 16) : Option LineFmt :=
  if d.toNat / 2 ^ 8 = 0x20 then
    match d.toNat % 256 with
    | 0x10 => some (.flt fp32)
    | 0x11 => some (.flt fp16)
    | 0x12 => some (.flt bf16)
    | 0x43 => some (.int 32 true)
    | _ => none
  else none
/-- One element of an addition (R202). -/
def addElem (f : LineFmt) (a b : Nat) : Nat :=
  match f with
  | .flt F => F.add a b
  | .int w _ => (a + b) % 2 ^ w
  | .fp4 _ => a
/-- Add element `v` to the element of format `f` at key `k` (R202, R271). -/
def State.addAt (s : State) (k : Nat) (f : LineFmt) (v : Nat) : State :=
  s.store k (f.width / 8) (addElem f (s.load k (f.width / 8)) v)
/-- SCADD goes on after elements that reach up to half-word `slot` of a line of its row. -/
def Cmd.scadded (c : Cmd) (slot : Nat) : Cmd :=
  if c.rowb / 2 ≤ c.sub / 32 * 32 + slot then { c.next with count := c.count + 1 } else { c with sub := c.sub / 32 * 32 + slot }
/-- The staged updates of a whole line (R272), in the order of their key: source package, die and tile, the command's place in the
order of acceptance of its tile, list position. -/
def State.stagedLine (s : State) (c : Cmd) (va line : Nat) (f : LineFmt) (fmt v : Nat) : List Staged :=
  (List.range (512 / f.width)).map fun i =>
    { key := [s.pkg.index, dieOf c.born, c.born % 256, c.no, c.pos, 64 * line + i * f.width / 8]
      page := va / 2 ^ 16, off := va % 2 ^ 16 + i * f.width / 8, fmt := fmt, val := BitVec.ofNat 32 (elemOf v f.width i) }

/-- What a line of SCADD sends to the owner of a proxy (R382): an addition for each element, or its deterministic updates. -/
def State.scaddSpan (s : State) (c : Cmd) (q : Nat × Word) (off line : Nat) (f : LineFmt) (fmt v : Nat) : State :=
  let tag := s.bindTag c.born c.no
  (List.range (512 / f.width)).foldl (fun s i =>
    let o := off + i * f.width / 8
    let x := BitVec.ofNat 32 (elemOf v f.width i)
    s.sendSpan q.1 (if bitN c.mode 1 then
        .stage (accOf q.2) tag [s.pkg.index, dieOf c.born, c.born % 256, c.no, c.pos, 64 * line + i * f.width / 8] o fmt x
      else .add (accOf q.2) tag o fmt x)) s
/-- One element of a row of SCADD; of a line that is staged, or that lies in another package, all of its elements. A row is counted
in half-words: c.sub is the place of the next element. Of a table line and a dense line that are both refused FORMAT names the table
line (DESIGN CHOICE, log 98). The table line of a proxy, whose descriptor its owner does not send back, goes by that of the dense line
(DESIGN CHOICE, log 99). -/
def scaddStep (t : Nat) (s : State) (c : Cmd) : Xfer :=
  let e := CEng.ie
  let x := s.tile t
  match s.nextIndex t c with
  | none => .stall
  | some c =>
  let row := c.rowPlace (c.idx.getD c.pos 0)
  let line := c.sub / 32
  let slot := c.sub % 32
  let p := row + 64 * line
  let off := c.noff + c.pos * c.rowb + 64 * line
  let far := placeFar p
  let proxy := if far then (s.buf (c.bound (placeSlot p)).1).proxy else none
  if !s.rowInside t c row then .fin s c (faultEnd c.pos) none
  else match (match s.nearBreach t c.fp.rd p 64 with | some a => some a | none => s.nearBreach t c.fp.wr p 64) with
  | some a => .fin s c (faultEnd c.pos) (some (0x17, a))
  | none =>
  if slot = 0 ∧ s.rangeWaits t c off 64 then .stall
  else
    -- the dense line is read once, and stays with the command (R165)
    let dense : HeldLine := match slot, c.held with
      | 0, _ | _, none => { line := 0, data := Mem.bytes s.mem (nearKey t off) 64, desc := s.descAt (nearKey t off) }
      | _, some h => h
    let c := { c with held := some dense }
    let v := leNat dense.data
    let format := fun (s : State) (d : BitVec 16) (f : LineFmt → Xfer) => match addFmt d with
      | none => .fin s c (faultEnd c.pos) (some (0x14, s.formatTval t p))
      | some g => if addFmt dense.desc = some g then f g else .fin s c (faultEnd c.pos) (some (0x14, nearOf x.vtile off))
    if far && (proxy.isSome || bitN c.mode 1) then
      match s.fetchLine t e c p false true with
      | .need v => .need v true
      | .line s r => format s (if proxy.isSome then dense.desc else r.desc) fun f =>
        match proxy with
        | some q => .go (s.scaddSpan c q (placeOff p) line f (dense.desc.toNat % 256) v) (c.scadded 32)
        | none =>
          let va := s.farVa c p
          let a := (c.bound (placeSlot p)).1
          match s.stageFor (streamHolder t e) x.ctx a (va / 2 ^ 16) with
          | .need => .need (va / 2 ^ 16) true
          | .park r => .park (va / 2 ^ 16) r true
          | .ok s _ => .go ((s.modBuf a (fun b => { b with staged := b.staged ++ s.stagedLine c va line f (r.desc.toNat % 256) v })).wroteShadow
              t a (va / 2 ^ 16)) (c.scadded 32)
      | _ => .stall
    else if !far && s.lineWaits t c t (p % Config.windowSize / 64) then .stall
    else match s.findDest t e c p with
      | .stall => .stall
      | .need v => .need v true
      | .park v r => .park v r true
      | .key s k =>
        -- the read of the row allocates the line in the hot-row store, when its translation is at hand (R268)
        let s := if far && slot = 0 then (match s.fetchLine t e c p false true with | .line s _ => s | _ => s) else s
        format s (s.descAt k) fun f =>
          .go (s.addAt (k + 2 * slot) f (elemOf v f.width (2 * slot * 8 / f.width))) (c.scadded (slot + f.width / 16))
      | _ => .fin s c (faultEnd c.pos) none

/-- The bytes of the own slice that the next part of a SCADD accesses. -/
def State.scaddBytes (s : State) (t : Nat) (c : Cmd) : List (Nat × Nat) :=
  let row := c.rowPlace (((s.nextIndex t c).getD c).idx.getD c.pos 0) + 64 * (c.sub / 32)
  (if c.sub = 0 then [(c.ioff + c.iw * c.pos, c.iw)] else [])
    ++ (if c.sub % 32 = 0 then [(c.noff + c.pos * c.rowb + 64 * (c.sub / 32), 64)] else []) ++ (s.tile t).ownBytes row 64

/-- SCADD: R186, R202, R271, R272. -/
def execScadd (s : State) : Res :=
  let t := s.cur
  .next (runCmd s .iq 0x13 (fun _ c => c.nidx) (fun s c => (scaddStep t s c).banked s t .ie (s.scaddBytes t c)) (endMoved (·.count)))

/-! ### HASHACC (R203) -/

/-- Formats of HASHACC's dense rows (R203). -/
def hashFmt (f : LineFmt) : Bool := decide (f = .flt fp32 ∨ f = .flt fp16 ∨ f = .flt bf16)

/-- What probing for a key gives: its bucket or an empty one (and which), no place, or a wait for a landing line. -/
inductive Probe where
  | at_ (j : Nat) (found : Bool)
  | full
  | stall
  deriving DecidableEq, Repr
/-- The bucket that key `k` finds from bucket `j` on (R203). -/
def State.probe (s : State) (t : Nat) (c : Cmd) (k : Nat) (j : Nat) : Nat → Probe
  | 0 => .full
  | n + 1 =>
    let off := c.table % Config.windowSize + j * (64 + c.rowb)
    if s.rangeWaits t c off 4 then .stall
    else
      let q := s.load (nearKey t off) 4
      if q = k then .at_ j true
      else if q = 0xFFFFFFFF then .at_ j false
      else s.probe t c k ((j + 1) % 2 ^ c.mode) n
/-- The bucket at which the probe of key `k` starts (R203). -/
def hashOf (mode k : Nat) : Nat := k * 0x9E3779B1 % 2 ^ 32 / 2 ^ (32 - mode)
/-- Apply key `k` with the dense row `row` to bucket `j` (R203); the elements of a value row are the first ROWB / 4 of the dense row
(DEDUCED, log 12). -/
def hashApply (t : Nat) (c : Cmd) (s : State) (row : List Num) (k j : Nat) (found : Bool) : State :=
  let off := c.table % Config.windowSize + j * (64 + c.rowb)
  let old := leNat (Mem.bytes s.mem (nearKey t (off + 64)) c.rowb)
  let vals := (List.range (c.rowb / 4)).map fun i =>
    fp32.rne ((if found then fp32.decode (elemOf old 32 i) else .fin false 0 0).add (row.getD i (.fin false 0 0)))
  let s := if found then s else s.store (nearKey t off) 4 k
  s.putElems t (off + 64) 32 vals 0x2010 (c.rowb / 64)

/-- One key of a bag of HASHACC. -/
def hashStep (t : Nat) (s : State) (c : Cmd) : Xfer :=
  let b := c.x4 + c.pos
  let val := fun (p : Nat) => b * 2 ^ 28 + p % 2 ^ 28
  match s.openBag t c b with
  | .stall => .stall
  | .bad => .fin s c (faultEnd (val (s.bagWord t c b))) none
  | .ok c lo hi =>
    let p := lo + c.sub
    if hi ≤ p then .go s c.next
    else match s.keyAt t c p with
      | .stall => .stall
      | .breach a => .fin s c (faultEnd (val p)) (some (0x17, a))
      | .ok k =>
        if k = 0xFFFFFFFF then .go s c.more
        else match s.probe t c k (hashOf c.mode k) (2 ^ c.mode) with
          | .stall => .stall
          | .full => .fin s c { code := 0, st := 8, val := val p } none
          | .at_ j found =>
            match s.readLines t .ie c hashFmt ((s.tile t).vtile * Config.windowSize + c.noff + b * c.rowb) (c.rowb / 64) with
            | .format s q => .fin s c (faultEnd (val p)) (some (0x14, s.formatTval t q))
            | .ok s row =>
              let off := c.table % Config.windowSize + j * (64 + c.rowb)
              if s.rangeWaits t c off (64 + c.rowb) then .stall else .go (hashApply t c s row k j found) c.more
            | _ => .stall

/-- The bytes of the own slice that the next part of a HASHACC accesses. -/
def State.hashBytes (s : State) (t : Nat) (c : Cmd) : List (Nat × Nat) :=
  s.bagBytes t c (c.x4 + c.pos) (fun k =>
    if k = 0xFFFFFFFF then []
    else match s.probe t c k (hashOf c.mode k) (2 ^ c.mode) with
      | .at_ j _ => [(c.noff + (c.x4 + c.pos) * c.rowb, c.rowb), (c.table % Config.windowSize + j * (64 + c.rowb), 64 + c.rowb)]
      | _ => []) []

/-- HASHACC: R186, R203. -/
def execHashacc (s : State) : Res :=
  let t := s.cur
  .next (runCmd s .iq 0x14 (fun _ c => c.nidx - c.x4) (fun s c => (hashStep t s c).banked s t .ie (s.hashBytes t c))
    (fun s c => s.noBag t c (c.nidx - c.x4) (c.nidx * 2 ^ 28 + s.bagWord t c c.nidx % 2 ^ 28)))

/-! ### DENSIFY and COMPACT (R204, R205) -/

/-- What reading the `w` bytes of a value gives. -/
inductive ValRes where
  | ok (s : State) (l : List Byte)
  | stop (x : Xfer)
  deriving DecidableEq, Repr
/-- The bytes of the value at place `q`, in one line or two (R204). -/
def State.valueAt (s : State) (t : Nat) (c : Cmd) (q w : Nat) (out : CmdEnd) : ValRes :=
  match s.missing t .ie c q w with
  | some v => .stop (.need v false)
  | none =>
    let n1 := min w (64 - q % 64)
    let bytes := fun (g : Got) (q n : Nat) => match g with
      | .key s k => Mem.bytes s.mem k n
      | .line _ r => (r.data.drop (q % 64)).take n
      | _ => []
    match s.fetchLine t .ie c q true false with
    | .stall => .stop .stall
    | .need v => .stop (.need v false)
    | .bad => .stop (.fin s c out none)
    | g1 =>
      let s1 := match g1 with | .key s _ => s | .line s _ => s | _ => s
      match (if n1 < w then s1.fetchLine t .ie c (q + n1) true false else g1) with
      | .stall => .stop .stall
      | .need v => .stop (.need v false)
      | .bad => .stop (.fin s c out none)
      | g2 =>
        let s2 := match g2 with | .key s _ => s | .line s _ => s | _ => s1
        .ok s2 (bytes g1 q n1 ++ (if n1 < w then bytes g2 (q + n1) (w - n1) else []))

/-- Place the value of key position `p`, if its column `col` lies in row `r` (R204). -/
def densifyKey (t : Nat) (s : State) (c : Cmd) (r p col : Nat) : Xfer :=
  let out := faultEnd (c.count * 2 ^ 28 + c.skip)
  let own := (s.tile t).vtile
  if c.rowb / c.w ≤ col then .go s { c.more with skip := c.skip + 1 }
  else
    let q := c.table + p * c.w
    let inside := if placeFar q then decide (placeOff q + c.w ≤ (s.buf (c.bound (placeSlot q)).1).size)
      else decide (q / Config.windowSize = own ∧ q % Config.windowSize + c.w ≤ Config.scratchEnd)
    let dst := c.noff + r * c.rowb + col * c.w
    if !inside then .fin s c out none
    else match s.nearBreach t c.fp.rd q c.w with
      | some a => .fin s c out (some (0x17, a))
      | none =>
        if s.rangeWaits t c dst c.w then .stall
        else match s.valueAt t c q c.w out with
          | .stop x => x
          | .ok s l => .go (s.storeBytes (nearKey t dst) l) c.more

/-- One part of DENSIFY: while c.pos is 0 a line of the output is zeroed and takes DESC; at c.pos = r + 1 the next key of row r is
placed. -/
def densifyStep (t : Nat) (s : State) (c : Cmd) : Xfer :=
  let out := faultEnd (c.count * 2 ^ 28 + c.skip)
  match c.pos with
  | 0 =>
    let off := c.noff + 64 * c.sub
    if c.nidx * c.rowb ≤ 64 * c.sub then .go s c.next
    else if s.rangeWaits t c off 64 then .stall
    else .go (s.putLine t off 0 (BitVec.ofNat 16 c.x4)) c.more
  | r + 1 =>
    match s.openBag t c r with
    | .stall => .stall
    | .bad => .fin s c out none
    | .ok c lo hi =>
      if hi ≤ lo + c.sub then .go s ({ c.next with count := c.count + 1 }.finished (c.noff + r * c.rowb) c.rowb)
      else match s.keyAt t c (lo + c.sub) with
        | .stall => .stall
        | .breach a => .fin s c out (some (0x17, a))
        | .ok col => densifyKey t s c r (lo + c.sub) col

/-- The bytes of the own slice that the next part of a DENSIFY accesses. -/
def State.densifyBytes (s : State) (t : Nat) (c : Cmd) : List (Nat × Nat) :=
  match c.pos with
  | 0 => [(c.noff + 64 * c.sub, 64)]
  | r + 1 => s.bagBytes t c r (fun col =>
      if c.rowb / c.w ≤ col then []
      else (c.noff + r * c.rowb + col * c.w, c.w) ::
        (s.tile t).ownBytes (c.table + ((c.bag.map (·.1)).getD 0 + c.sub) * c.w) c.w) []

/-- DENSIFY: R186, R204. -/
def execDensify (s : State) : Res :=
  let t := s.cur
  .next (runCmd s .iq 0x15 (fun _ c => c.nidx + 1) (fun s c => (densifyStep t s c).banked s t .ie (s.densifyBytes t c))
    (fun s c => s.noBag t c c.nidx (c.count * 2 ^ 28 + c.skip)))

/-- The bits of the element in column `k` of dense row `r` (R205). -/
def State.denseElem (s : State) (t : Nat) (c : Cmd) (r k : Nat) : Nat := s.load (nearKey t (c.noff + r * c.rowb + k * c.w)) c.w
/-- The number of elements of a dense row whose bits are not all zero (R205). -/
def State.nonZeros (s : State) (t : Nat) (c : Cmd) (r : Nat) : Nat :=
  ((List.range (c.rowb / c.w)).filter (fun k => decide (s.denseElem t c r k ≠ 0))).length
/-- The places of a value's bytes in one line or two: place, first byte and number. -/
def valueParts (q w : Nat) : List (Nat × Nat × Nat) :=
  let n1 := min w (64 - q % 64)
  if n1 < w then [(q, 0, n1), (q + n1, n1, w - n1)] else [(q, 0, w)]
/-- The bytes of the own slice that a COMPACT may yet write: its offset words, keys and near values, from the next ones on. -/
def Cmd.compactToCome (c : Cmd) : List (Nat × Nat) :=
  let left := c.x4 % 2 ^ 16 - c.count
  [(c.ioff + 4 * c.pos, 4 * (c.nidx + 1 - c.pos)), (c.keyOff c.count, 4 * left)] ++
    (if placeFar c.table then [] else [(c.table % Config.windowSize + c.count * c.w, left * c.w)])
/-- Of the lines of `[off, off + len)`, just written by a COMPACT, those that it writes no more are finished (R153, R340). -/
def Cmd.compacted (c : Cmd) (off len : Nat) : Cmd :=
  let lines := (List.range ((off + len - 1) / 64 - off / 64 + 1)).map (fun k => off / 64 + k)
  { c with clear := lines.filter (fun l => !c.compactToCome.any (meetsLine l)) ++ c.clear }
/-- Append the element `v` of column `col`: its column to the key area, its bits to the value array, whose lines take DESC (R205); lines
of offset words and keys keep their descriptors (DESIGN CHOICE, log 98). -/
def compactElem (t : Nat) (s : State) (c : Cmd) (r col v : Nat) : Xfer :=
  let q := c.table + c.count * c.w
  let go := fun (s : State) (parts : List (Put × Nat × Nat)) =>
    let s := s.store (nearKey t (c.keyOff c.count)) 4 col
    let bits := fun (y : Put × Nat × Nat) => leBytes (v / 2 ^ (8 * y.2.1)) y.2.2
    let desc := BitVec.ofNat 16 (c.x4 / 2 ^ 16)
    let s := parts.foldl (fun s y => match y.1 with
      | .key _ k => (s.storeBytes k (bits y)).setDesc k desc
      | .remote p a off => s.sendSpan p (.write a (s.bindTag c.born c.no) off (bits y) (some desc))
      | _ => s) s
    let c1 := { c.more with count := c.count + 1 }.compacted (c.keyOff c.count) 4
    Xfer.go s (if placeFar c.table then c1 else c1.compacted (q % Config.windowSize) c.w)
  let step := fun (s : State) (p : Nat) (f : State → Put → Xfer) => match s.findDest t .ie c p with
    | .need v => Xfer.need v true
    | .park v r => .park v r true
    | .bad => .fin s c (faultEnd (r * 2 ^ 28 + c.count)) none
    | .stall => .stall
    | .key s k => f s (.key s k)
    | d => f s d
  if s.rangeWaits t c (c.keyOff c.count) 4 then .stall
  else match valueParts q c.w with
    | [(p1, b1, n1), (p2, b2, n2)] => step s p1 fun s d1 => step s p2 fun s d2 => go s [(d1, b1, n1), (d2, b2, n2)]
    | _ => step s q fun s d => go s [(d, 0, c.w)]

/-- One part of COMPACT: at c.pos = 0 the first offset word is written; at c.pos = r + 1 the next column of row r is looked at, the
capacity having been tested before its first (R205). -/
def compactStep (t : Nat) (s : State) (c : Cmd) : Xfer :=
  match c.pos with
  | 0 => if s.rangeWaits t c c.ioff 4 then .stall else .go (s.store (nearKey t c.ioff) 4 0) (c.next.compacted c.ioff 4)
  | r + 1 =>
    if (if c.sub = 0 then s.rangeWaits t c (c.noff + r * c.rowb) c.rowb
      else decide (c.sub < c.rowb / c.w) && s.rangeWaits t c (c.noff + r * c.rowb + c.sub * c.w) c.w) then .stall
    else if c.sub = 0 ∧ c.x4 % 2 ^ 16 < c.count + s.nonZeros t c r then
      .fin s c { code := 0, st := 8, val := r * 2 ^ 28 + c.count } none
    else if c.rowb / c.w ≤ c.sub then
      let o := c.ioff + 4 * (r + 1)
      if s.rangeWaits t c o 4 then .stall else .go (s.store (nearKey t o) 4 c.count) (c.next.compacted o 4)
    else match s.denseElem t c r c.sub with
      | 0 => .go s c.more
      | v => compactElem t s c r c.sub v

/-- The bytes of the own slice that the next part of a COMPACT accesses. -/
def State.compactBytes (s : State) (t : Nat) (c : Cmd) : List (Nat × Nat) :=
  match c.pos with
  | 0 => [(c.ioff, 4)]
  | r + 1 =>
    (if c.sub = 0 then [(c.noff + r * c.rowb, c.rowb)] else []) ++
    if c.rowb / c.w ≤ c.sub then [(c.ioff + 4 * (r + 1), 4)]
    else (c.noff + r * c.rowb + c.sub * c.w, c.w) :: (if s.denseElem t c r c.sub = 0 then []
      else (c.keyOff c.count, 4) :: (s.tile t).ownBytes (c.table + c.count * c.w) c.w)

/-- COMPACT: R186, R205. -/
def execCompact (s : State) : Res :=
  let t := s.cur
  .next (runCmd s .iq 0x16 (fun _ c => c.nidx + 1) (fun s c => (compactStep t s c).banked s t .ie (s.compactBytes t c)) (fun _ c => some (okEnd (c.nidx * 2 ^ 28 + c.count))))

end Sys2Proof.Machine
end

