-- ==== Sys2Proof/Machine/Engines.lean ====
section
/-! DEFINITION. The sequencer's engine instructions and the life of an engine entry (R35, R93 to R98, R336 to R348), and
the step bookkeeping that every micro-order shares. -/

namespace Sys2Proof.Machine

/-! ### Issuing (R93 to R97) -/

/-- The step-table engine of an ENG word. -/
def engOf (n : BitVec 1) : Eng := if n = 0 then .ve else .xe
/-- The word names the class engine of a tile that has none (R11, R35). -/
def State.noEngine (s : State) (n : BitVec 1) : Bool := decide (n = 1) && noXe s.cur
/-- The engine's queue is full (R93). -/
def Engine.full (g : Engine) : Bool := decide (Config.entryQueue ≤ g.queue.length)
/-- Place an entry in an engine's queue with the next issue number (R93, R336). -/
def State.enqueue (s : State) (e : Eng) (q : Entry) : State :=
  let x := s.here
  let g := x.engine e
  s.setHere { x.setEngine e { g with queue := g.queue ++ [{ q with no := x.issueNo }] } with issueNo := x.issueNo + 1 }

/-- The operand checks of erun and eprg (R95): a trap's cause and value, or the table's window offset. -/
def State.tableCheck (s : State) (a b c : Word) : Except (Nat × Word) Nat :=
  match s.ownNear s.cur a 4 with
  | .error k => .error (k, a)
  | .ok off => if 65536 < b.toNat + c.toNat then .error (0x13, b) else .ok off

/-- The footprint an accepted entry takes: of the latched record, or empty (R53, R95). -/
inductive FpRes where
  | ok (fp : Footprint)
  | stall
  | bad (cause : Nat) (tval : Word)
  deriving DecidableEq, Repr

/-- Read the footprint record at near address `a` for tile `u` (R53, R95). -/
def State.recordAt (s : State) (u a : Nat) : FpRes :=
  match s.findNear (s.tile u).ctx (BitVec.ofNat 64 a) with
  | .bad k => .bad k (BitVec.ofNat 64 a)
  | .wait => .stall
  | .ok t off =>
    if s.stalls t (rankAt u t) off 24 || s.landing t (off + 23) then .stall
    else
      let w := (List.range 6).map (fun k => s.load (nearKey t (off + 4 * k)) 4)
      match w.find? (fun v => !rangeOk v) with
      | some v => .bad 0x17 (nearOf (s.tile u).vtile (32 * max (rangeOf v).1 24576))
      | none => .ok (footprintOf w)
/-- Read the latched footprint record (R53, R95). -/
def State.latched (s : State) (g : Engine) : FpRes :=
  match g.latch with
  | none => .ok {}
  | some a => s.recordAt s.cur a

/-- ERUN: R94, R95, R347. -/
def execErun (n : BitVec 1) (a b c : BitVec 5) (flags : BitVec 4) (s : State) : Res :=
  let e := engOf n
  let g := s.here.engine e
  let va := s.here.rd a
  let vb := s.here.rd b
  let vc := s.here.rd c
  .next (if s.noEngine n then s.trap 0x13 va
    else if g.full then s
    else match s.tableCheck va vb vc with
      | .error (k, v) => s.trap k v
      | .ok off => match s.latched g with
        | .stall => s
        | .bad k v => s.trap k v
        | .ok fp =>
          let st := if flags.getLsbD 2 then some s.here.stamp else none
          if flags.getLsbD 2 ∧ s.here.stamp.ult (s.dbc s.cur) then s.trap 0x11 s.here.stamp
          else
            let s := s.setHere (s.here.setEngine e { g with latch := none })
            (s.enqueue e {
              no := 0
              kind := .run off vb.toNat vc.toNat
              fp := fp
              pop := flags.getLsbD 0
              push := flags.getLsbD 1
              reply := flags.getLsbD 3
              stamp := st
              rec_ := g.latch }).nextPc)
/-- ESET: R94. -/
def execEset (n : BitVec 1) (a c : BitVec 5) (s : State) : Res :=
  let e := engOf n
  .next (if s.noEngine n then s.trap 0x13 (s.here.rd a)
    else if (s.here.engine e).full then s
    else (s.enqueue e { no := 0, kind := .eset c.toNat (s.here.rd a) }).nextPc)
/-- No entry of an engine is queued or running. -/
def Engine.idle (g : Engine) : Bool := g.queue.isEmpty && g.run.isNone
/-- EGET: waits until every earlier entry has completed (R94). -/
def execEget (n : BitVec 1) (a c : BitVec 5) (s : State) : Res :=
  let g := s.here.engine (engOf n)
  .next (if s.noEngine n then s.trap 0x13 (s.here.rd a)
    else if g.idle then s.retire a (g.rdE c) else s)
/-- No command of an engine is queued, running or parked, and no chain runs (R94, R209). -/
def CmdEngine.idle (g : CmdEngine) : Bool := g.cmds.isEmpty && !g.chainRuns
/-- The engine with a code of R35 is idle. -/
def Tile.idleEng (x : Tile) (n : Nat) : Bool :=
  match n with
  | 0 => x.ce.idle
  | 1 => x.ie.idle
  | 2 => x.ve.idle
  | _ => x.xe.idle && x.mat.tensor.isEmpty
/-- EWAIT: R94, R35. -/
def execEwait (n : BitVec 2) (s : State) : Res :=
  .next (if (n = 3 && noXe s.cur) || s.here.idleEng n.toNat then s.nextPc else s)

/-- The status word of a step-table engine (R98). -/
def Engine.status (g : Engine) : Nat :=
  let step := match g.run with | some r => r.step % 2 ^ 16 | none => 0
  step * 2 ^ 16 + (if g.flt then 2 ^ 9 else 0) + (if g.run.isSome then 2 ^ 8 else 0) + g.queue.length % 256
/-- The status word of a command engine (R98): a command that has removed its token and waits for the range checker is neither queued
nor running in it (DESIGN CHOICE, log 98). -/
def CmdEngine.status (g : CmdEngine) : Nat :=
  (if g.cmds.any (fun c => c.park.isSome) then 2 ^ 10 else 0) + (if g.flt then 2 ^ 9 else 0)
    + (if g.cmds.any (·.begun) then 2 ^ 8 else 0) + (g.cmds.filter (fun c => !c.started)).length % 256
/-- The status word of the engine with a code of R35. -/
def Tile.statusEng (x : Tile) (n : Nat) : Nat :=
  match n with
  | 0 => x.ce.status
  | 1 => x.ie.status
  | 2 => x.ve.status
  | _ => x.xe.status
/-- ESTAT: R94, R98. -/
def execEstat (n : BitVec 2) (a : BitVec 5) (s : State) : Res :=
  .next (s.retire a (if n = 3 && noXe s.cur then 0 else BitVec.ofNat 64 (s.here.statusEng n.toNat)))

/-- EKLD: R96. -/
def execEkld (n : BitVec 1) (a b c : BitVec 5) (s : State) : Res :=
  let e := engOf n
  let va := s.here.rd a
  let vc := s.here.rd c
  .next (if s.noEngine n then s.trap 0x13 va
    else if (s.here.engine e).full then s
    else match s.ownNear s.cur va 4 with
      | .error k => s.trap k va
      | .ok off =>
        if Config.scratchEnd < off + 4 * vc.toNat then s.trap 0x03 va
        else if 256 < vc.toNat then s.trap 0x13 vc
        else
          let g := (off + 4 * vc.toNat + 31) / 32 - off / 32
          let q : Entry := { no := 0, kind := .ekld off ((s.here.rd b).toNat % 256) vc.toNat }
          (s.enqueue e { q with fp := { rd := if vc = 0 then [] else [(off / 32, g)] } }).nextPc)
/-- The commands that an estop of a command engine discards. -/
def CmdEngine.waiting (g : CmdEngine) : Nat := (g.cmds.filter (fun c => !c.started)).length
/-- The running MMA stands inside a chunk, which it finishes before it stops (R97, R295). -/
def Engine.inChunk (g : Engine) : Bool :=
  match g.run with
  | some r => r.ended.isNone && (match r.mma with | some (_, rg, _) => decide (rg ≠ 0) | none => false)
  | none => false
/-- ESTOP: R97, R35; of the class engine, it waits for the end of the chunk that an MMA is in, and for the per-tensor updates of drains
that are done (R152). -/
def execEstop (n : BitVec 2) (a : BitVec 5) (s : State) : Res :=
  .next (match n.toNat with
    | 0 => (s.discardCmds s.cur .ce).retire a (BitVec.ofNat 64 s.here.ce.waiting)
    | 1 => (s.discardCmds s.cur .ie).retire a (BitVec.ofNat 64 s.here.ie.waiting)
    | 2 => (s.setHere (s.here.stopEngine .ve)).retire a s.here.ve.stopIndex
    | _ =>
      if noXe s.cur then s.retire a 0xFFFFFFFFFFFFFFFF
      else if s.here.xe.inChunk || !s.here.mat.tensor.isEmpty then s
      else (s.setHere (s.here.stopEngine .xe)).retire a s.here.xe.stopIndex)
/-- The entry is an eprg that acts on the running entry numbered `no` (R97). -/
def Entry.rebases (q : Entry) (no : Nat) : Bool :=
  match q.kind with
  | .eprg _ _ _ target => decide (target = some no)
  | _ => false
/-- An eprg re-bases a running entry (R97, R234). -/
def Running.rebase (r : Running) (k : EntryKind) : Running :=
  match k with
  | .eprg base start count _ =>
    { r with
      base := base, step := start, wend := start + count, loops := [], mma := none, descs := [], lines := [], slots := 0, written := []
      ended := if count = 0 then some (0, start) else none }
  | _ => r
/-- At a step boundary of the running entry, the eprg entries that name it take effect and leave the queue (R97). -/
def Engine.rebased (g : Engine) : Engine :=
  match g.run with
  | none => g
  | some r =>
    let mine := g.queue.filter (·.rebases r.entry.no)
    if mine.isEmpty ∨ r.mma.isSome ∨ r.ended.map (·.1) = some 1 then g
    else { g with
      queue := g.queue.filter (fun q => !q.rebases r.entry.no)
      run := some (mine.foldl (fun r q => r.rebase q.kind) r)
      q := 0 }
/-- At a step boundary of an engine, the eprg entries that name its running entry take effect; each completes, which sets the event
latch (R97, R106). -/
def Tile.rebase (x : Tile) (e : Eng) : Tile :=
  let g := x.engine e
  { x.setEngine e g.rebased with evLatch := x.evLatch || decide (g.rebased.queue.length < g.queue.length) }
/-- The entry that an eprg acts on: the one that runs now (R97). -/
def Engine.target (g : Engine) : Option Nat := g.run.bind (fun r => if r.ended.isSome then none else some r.entry.no)
/-- EPRG: places an entry, which re-bases the running one at its next step boundary (R93, R97, R234). -/
def execEprg (n : BitVec 1) (a b c : BitVec 5) (s : State) : Res :=
  let e := engOf n
  let va := s.here.rd a
  let vb := s.here.rd b
  let vc := s.here.rd c
  let g := s.here.engine e
  .next (if s.noEngine n then s.trap 0x13 va
    else if g.full then s
    else match s.tableCheck va vb vc with
      | .error (k, v) => s.trap k v
      | .ok off =>
        let s := s.enqueue e { no := 0, kind := .eprg off vb.toNat vc.toNat g.target }
        (s.setHere (s.here.rebase e)).nextPc)
/-- FPR: R94, R95. -/
def execFpr (n : BitVec 1) (a : BitVec 5) (s : State) : Res :=
  let e := engOf n
  let va := s.here.rd a
  .next (if s.noEngine n then s.trap 0x13 va
    else match s.near s.here.ctx va 8, s.near s.here.ctx (va + 16) 8 with
      | .bad k, _ => s.trap k va
      | _, .bad k => s.trap k va
      | _, _ => (s.setHere (s.here.setEngine e { s.here.engine e with latch := some va.toNat })).nextPc)

/-! ### Steps (R56, R95, R213, R348) -/

/-- Change the running entry of an engine of tile `t`. -/
def State.modRun (s : State) (t : Nat) (e : Eng) (f : Running → Running) : State :=
  s.modTile t fun x =>
    let g := x.engine e
    x.setEngine e { g with run := g.run.map f }
/-- The running entry goes on at step `k`; at the window end it completes (R95). A stamped entry's next step falls
`beats` later (R292). -/
def Running.goto (r : Running) (k beats : Nat) : Running :=
  { r with
    step := k
    nextBeat := r.nextBeat.map (· + BitVec.ofNat 64 beats)
    ended := if k = r.wend ∧ r.ended.isNone then some (0, k) else r.ended }
/-- A stamped entry that executes its first step removes its token with it (R347). -/
def Tile.firstStep (x : Tile) (e : Eng) : Tile :=
  match (x.engine e).run with
  | some r =>
    if r.first then { x.setEngine e { x.engine e with run := some { r with first := false, owes := false } } with
      lcTok := if r.owes then x.lcTok - 1 else x.lcTok }
    else x
  | none => x
/-- The engine in focus executes a step, which may be its entry's first. -/
def State.begun (s : State) : State := s.modTile s.cur (fun x => x.firstStep s.eng)
/-- The engine in focus executes a step, and its running entry becomes `f` of what it was. -/
def State.stepTo (s : State) (f : Running → Running) : State := s.begun.modRun s.cur s.eng f
/-- A step of the engine in focus is done and took `beats` beats: the next step follows. -/
def State.stepDone (s : State) (beats : Nat) : State := s.stepTo (fun r => r.goto (r.step + 1) beats)
/-- The same, of a step that holds the lines that it read (R342). -/
def State.readDone (s : State) (beats : Nat) : State := s.stepTo (fun r => { r with descs := [], lines := [] }.goto (r.step + 1) beats)
/-- The running entry of the engine in focus stands at a step boundary: a pending eprg acts (R97). -/
def State.rebase (s : State) : State := s.modTile s.cur (fun x => x.rebase s.eng)
/-- The index of the step in progress. -/
def State.stepNo (s : State) : Nat := match (s.here.engine s.eng).run with | some r => r.step | none => 0
/-- The entry in focus is a stamped one that has executed no step yet (R347). -/
def State.atFirst (s : State) : Bool := match (s.here.engine s.eng).run with | some r => r.first | none => false
/-- A step faults: it has no effect, the entry stops before it, and the fault becomes pending (R56, R213). A stamped entry that misses
at its first step has executed none: it goes without a reply, and its token stays (R95, R348). -/
def State.stepFault (s : State) (cause : Nat) (tval : Word) : State :=
  (if s.atFirst ∧ cause = 0x11 then s.modTile s.cur (fun x => x.setEngine s.eng { x.engine s.eng with run := none })
    else s.stepTo (fun r => { r with ended := some (1, r.step), loops := [], mma := none, descs := [], lines := [] })).raise
      s.cur (engSource s.eng) cause tval
/-- The entry in focus is stamped. -/
def State.stamped (s : State) : Bool :=
  match (s.here.engine s.eng).run with | some r => r.entry.stamp.isSome | none => false
/-- The issue number of the entry in focus. -/
def State.entryNo (s : State) : Nat := match (s.here.engine s.eng).run with | some r => r.entry.no | none => 0
/-- The place of the engine in focus in the order of R349. -/
def State.engRank (s : State) : Nat := match s.eng with | .ve => 5 | .xe => 4
/-- The footprint of the entry in focus. -/
def State.stepFp (s : State) : Footprint :=
  match (s.here.engine s.eng).run with | some r => r.entry.fp | none => {}
/-- ILLEGAL_MICRO_ORDER: a micro-order that its engine does not decode raises ENGINE_ILLEGAL (R44, R56). -/
def execIllegalMicroOrder (_w : BitVec 32) (s : State) : Res := .next (s.stepFault 0x13 (BitVec.ofNat 64 s.stepNo))

/-- One scratchpad access of a step: offset, bytes, alignment, and whether it writes. -/
structure Access where
  off : Int
  len : Nat
  align : Nat
  write : Bool
  deriving DecidableEq, Repr

/-- What the checks of a step's accesses give: go on, stall on a landing line, or a fault (R154, R213). -/
inductive Check where
  | pass
  | stall
  | fault (cause : Nat) (tval : Word)
  deriving DecidableEq, Repr

/-- The near address of an own-window offset, as TVAL reports it. -/
def State.ownAddr (s : State) (off : Int) : Word := BitVec.ofInt 64 ((s.here.vtile * Config.windowSize : Nat) + off)

/-- The first landing line that an access meets. -/
def State.accessLanding (s : State) (a : Access) : Option Nat :=
  if a.len = 0 then none
  else (List.range ((a.off.toNat + a.len - 1) / 64 - a.off.toNat / 64 + 1)).findSome? fun k =>
    if s.unitLanding s.cur (a.off.toNat / 64 + k) s.entryNo then some (a.off.toNat / 64 + k) else none
/-- The step in progress holds the line that an access reads: it has read it in an earlier turn (R342). -/
def State.lineHeld (s : State) (a : Access) : Bool :=
  !a.write && (match (s.here.engine s.eng).run with | some r => (FMap.get? r.lines (a.off.toNat / 64)).isSome | none => false)
/-- The access meets the tensor word of a drain of the class engine whose update is still to be made: the drain's access to that
location comes first (R149, R151). -/
def State.wordPending (s : State) (a : Access) : Bool :=
  decide (s.eng = .xe) && s.here.mat.tensor.any fun u => match s.findNear s.here.ctx u.addr with
    | .ok t off => decide (t = s.cur ∧ a.off < off + 4 ∧ off < a.off + a.len)
    | _ => false
/-- Check one access: alignment, bounds, footprint, landing, in this order (R154, R213, R276, R339). A breach of the
footprint reports the first granule that breaks it (R364). An access whose bank is taken waits, and a stamped one misses with WHY 4 (R12,
R349); one behind a tensor word waits in the same way, and a stamped one misses with the line (R151, R292). -/
def State.accessCheck (s : State) (a : Access) : Check :=
  if a.off % a.align ≠ 0 then .fault 0x02 (s.ownAddr a.off)
  else if a.off < 0 ∨ (Config.scratchEnd : Int) < a.off + a.len then .fault 0x03 (s.ownAddr a.off)
  else
    let fp := s.stepFp
    match uncovered (if a.write then fp.wr else fp.rd) a.off.toNat a.len with
    | some g => .fault 0x17 (s.ownAddr (32 * g))
    | none => if s.lineHeld a then .pass else match s.accessLanding a with
      | some line => if s.stamped then .fault 0x11 (s.ownAddr (64 * line)) else .stall
      | none =>
        if s.wordPending a then (if s.stamped then .fault 0x11 (s.ownAddr (a.off / 64 * 64)) else .stall)
        else if s.here.bankTaken s.engRank a.off.toNat a.len then (if s.stamped then .fault 0x11 (missTval 4 s.stepNo) else .stall) else .pass
/-- The first check that does not pass decides. -/
def Check.andThen (a b : Check) : Check :=
  match a with
  | .pass => b
  | c => c
/-- Check the accesses of a step, in order, before any of its writes (R154, R213). -/
def State.checkAll (s : State) : List Access → Check
  | [] => .pass
  | a :: t => (s.accessCheck a).andThen (s.checkAll t)
/-- Go on as a check says: perform the step, stall, or fault. -/
def State.after (s : State) (c : Check) (f : State → State) : State :=
  match c with
  | .pass => f s
  | .stall => s
  | .fault k v => s.stepFault k v
/-- The accesses of a step take their banks (R349). -/
def State.touchAll (s : State) (l : List Access) : State := l.foldl (fun s a => s.touch s.cur s.engRank a.off.toNat a.len) s
/-- A step reads the line of an access, and holds it with its descriptor (R165, R342). -/
def State.holdLine (s : State) (a : Access) : State :=
  let line := a.off.toNat / 64
  (s.touchAll [a]).modRun s.cur s.eng (fun r => { r with
    lines := FMap.set r.lines line (Mem.bytes s.mem (nearKey s.cur (64 * line)) 64)
    descs := if (FMap.get? r.descs line).isSome then r.descs else FMap.set r.descs line (s.descAt (nearKey s.cur (64 * line))) })
/-- The first `n` lines of a step that it does not hold yet, in its own order, as far as each, judged when it is read, can be (R342). -/
def State.readPart (s : State) (judge : State → Access → Check) : Nat → List Access → State
  | _, [] => s
  | n, a :: t =>
    if s.lineHeld a then s.readPart judge n t
    else match n, judge s a with
      | k + 1, .pass => (s.holdLine a).readPart judge k t
      | _, _ => s
/-- A step reads its lines one after another (R342): in a turn that is bounded (State.part), some of those that it does not hold yet; in
another, or once it holds all of them, it goes on as `f` says. -/
def State.inParts (s : State) (judge : State → Access → Check) (l : List Access) (f : Option Nat → State) : State :=
  match s.part with
  | some n => if l.all s.lineHeld then f (some n) else s.readPart judge n l
  | none => f none
/-- The bytes of the line at a window offset, as the step in progress has read it (R342). -/
def State.lineBytes (s : State) (off : Nat) : List Byte :=
  match (s.here.engine s.eng).run.bind (fun r => FMap.get? r.lines (off / 64)) with
  | some l => l
  | none => Mem.bytes s.mem (nearKey s.cur (off / 64 * 64)) 64
/-- `n` bytes at a window offset within one line, as the step in progress has read them, as a number. -/
def State.lineNum (s : State) (off n : Nat) : Nat :=
  match (s.here.engine s.eng).run.bind (fun r => FMap.get? r.lines (off / 64)) with
  | some l => leNat ((l.drop (off % 64)).take n)
  | none => s.load (nearKey s.cur off) n
/-- Perform a step once its accesses pass their checks. -/
def State.guarded (s : State) (l : List Access) (f : State → State) : State := s.after (s.checkAll l) (fun s => f (s.touchAll l))

/-! ### Entries (R95, R147, R338, R343, R347, R348) -/

/-- Something before the entry numbered `no` waits to pop LC: a tkpop, or the head of the other engine's queue (R343). -/
def Tile.lcBefore (x : Tile) (no : Nat) : Bool := x.tkpopBefore 0 no || x.unitBefore 0 no
/-- The token that the entry needs is there for it (R343). -/
def Tile.tokenReady (x : Tile) (q : Entry) : Bool := !q.pop || (decide (x.owed 0 < x.lcTok) && !x.lcBefore q.no)

/-- Load constant-bank entries (R96). -/
def loadConst (s : State) (t src : Nat) (cb : Bank 32) (first i : Nat) : Nat → Bank 32
  | 0 => cb
  | n + 1 => loadConst s t src (FMap.set cb ((first + i) % 256) (BitVec.ofNat 32 (s.load (nearKey t (src + 4 * i)) 4))) first (i + 1) n

/-- The head entry of an engine begins: eset and ekld take effect and complete, an eprg whose entry no longer runs completes without
effect (R97); a table entry removes its token, a stamped one with its first step, and its
loop state starts afresh (R94 to R96, R234, R347). -/
def State.beginEntry (s : State) (t : Nat) (e : Eng) (q : Entry) : State :=
  let x := s.tile t
  let g := x.engine e
  let g := { g with queue := g.queue.drop 1 }
  match q.kind with
  | .eset r v => s.setTile t { x.setEngine e (g.wrE (BitVec.ofNat 5 r) v) with evLatch := true }
  | .ekld src first n => s.setTile t { x.setEngine e { g with cb := loadConst s t src g.cb first 0 n } with evLatch := true }
  | .eprg _ _ _ _ => s.setTile t { x.setEngine e g with evLatch := true }
  | .run base start count =>
    let first := q.stamp.isSome && decide (count ≠ 0)
    let r : Running := { entry := q, base := base, step := start, wend := start + count, startBeat := s.dbc t,
                         nextBeat := q.stamp, ended := if count = 0 then some (0, start) else none
                         first := first, owes := first && q.pop }
    let x := if q.pop && !first then { x with lcTok := x.lcTok - 1 } else x
    let x := match e with | .ve => { x with vec := { x.vec with rrb := 0 } } | .xe => x
    s.setTile t (x.setEngine e { g with run := some r, q := 0 })

/-- An entry that ekld queued meets a landing line (R154). -/
def State.entryStalls (s : State) (t : Nat) (q : Entry) : Bool :=
  match q.kind with
  | .ekld src _ n => n ≠ 0 && (List.range ((src + 4 * n - 1) / 64 - src / 64 + 1)).any (fun k => s.unitLanding t (src / 64 + k) q.no)
  | _ => false

/-- An entry that pops a token reads its footprint record behind it (R345): it has the record as it stands when it begins, or waits for
it; a record that R53 refuses by then leaves the footprint that it was accepted with (DESIGN CHOICE, log 102). -/
def State.freshRecord (s : State) (t : Nat) (q : Entry) : Option Entry :=
  match q.rec_ with
  | some a => if q.pop then (match s.recordAt t a with
      | .ok fp => some { q with fp := fp }
      | .stall => none
      | .bad _ _ => some q) else some q
  | none => some q
/-- ENGINE_ENTRY_START: the head entry of the engine in focus begins, when it carries no stamp and nothing holds it back
(R338, R343, R345, R361, R372). -/
def execEngineEntryStart (s : State) : Res :=
  let g := s.here.engine s.eng
  .next (match g.run, g.queue.head?.bind (s.freshRecord s.cur) with
    | none, some q =>
      if q.stamp.isSome ∨ g.flt ∨ s.held s.cur ∨ !s.here.tokenReady q ∨ !s.here.mayBegin q.no q.fp ∨ s.entryStalls s.cur q then s
      else s.beginEntry s.cur s.eng q
    | _, _ => s)

/-- The ended entry of engine `e` of tile `t` can complete: its drains and their updates are over (R152, R291), and the token and the
reply that it owes have their places (R95, R186, R350). -/
def State.entryReady (s : State) (t : Nat) (e : Eng) (r : Running) (st : Nat) : Bool :=
  let x := s.tile t
  !(decide (e = .xe) && (!x.mat.tensor.isEmpty || x.mat.drains.any (fun d => (s.dbc t).ult d.done)))
    && !(r.entry.push && decide (st = 0 ∧ Config.tokenFifo ≤ x.csTok)) && !(r.entry.reply && !x.replyRoom)
/-- An entry of engine `e` of tile `t` is about to place its reply (R350). -/
def State.entryReply (s : State) (t : Nat) (e : Eng) : Bool :=
  match ((s.tile t).engine e).run with
  | some r => match r.ended with
    | some (st, _) => r.entry.reply && s.entryReady t e r st
    | none => false
  | none => false
/-- A producer that comes before the source `src` in the order of R350 is about to place its reply on this beat. -/
def State.replyBefore (s : State) (t src : Nat) : Bool :=
  (decide (1 < src) && s.cmdReply t .ce) || (decide (2 < src) && s.cmdReply t .ie) ||
    (decide (3 < src) && s.entryReply t .ve) || (decide (4 < src) && s.entryReply t .xe)
/-- A station or the scheduler die gives tile `t` a reply: it is placed, or kept while there is no room or another goes first (R350). -/
def State.giveReply (s : State) (t : Nat) (w : Word) : State :=
  if s.replyBefore t (w.toNat / 2 ^ 56) then s.modTile t (fun x => { x with rqHeld := x.rqHeld ++ [w] })
  else s.modTile t (fun x => x.reply w)
/-- ENGINE_ENTRY_COMPLETE: the entry of the engine in focus, ended, gives its token and its reply and leaves; it waits while
either has no place or another reply goes first (R95, R186, R350) and, stamped, for its drains (R291). -/
def execEngineEntryComplete (s : State) : Res :=
  let x := s.here
  let g := x.engine s.eng
  .next (match g.run with
    | none => s
    | some r => match r.ended with
      | none => s
      | some (st, val) =>
        let push := r.entry.push && decide (st = 0)
        if !s.entryReady s.cur s.eng r st || (r.entry.reply && s.replyBefore s.cur (match s.eng with | .ve => 3 | .xe => 4)) then s
        else
          let x := if push then { x with csTok := x.csTok + 1 } else x
          let x := if r.entry.reply then x.reply (engReply s.eng st val) else x
          let x := { x.setEngine s.eng { g with run := none } with evLatch := true }
          let x := match s.eng with | .xe => { x with mat := { x.mat with drains := [] } } | .ve => x
          s.setHere x)

/-- STAMP_BEAT: the stamped entry numbered arg.n of the engine in focus is judged on its beat (R347, R348): it begins when it
is at the head of a free queue with its token and the checker's leave, and misses otherwise. Not while FLT is set or a debugger
holds the tile (R361, R372). -/
def execStampBeat (s : State) : Res :=
  let g := s.here.engine s.eng
  let now := s.dbc s.cur
  let miss := fun (q : Entry) (why : Nat) => s.setHere (s.here.missEntry s.eng q why now)
  .next (if g.flt || s.held s.cur then s
    else match g.queue.find? (fun q => decide (q.no = s.arg.n)) with
      | some q => match q.stamp with
        | none => s
        | some b =>
          if now.ult b then s
          else if now ≠ b ∨ g.run.isSome ∨ g.queue.head?.map (·.no) ≠ some q.no then miss q 1
          else if !s.here.tokenReady q then miss q 2
          else match s.freshRecord s.cur q with
            | none => s.setHere (s.here.dropEntry s.eng q (BitVec.ofNat 64 (q.rec_.getD 0 / 64 * 64)) now)
            | some q =>
              if !s.here.mayBegin q.no q.fp then miss q 3
              else s.beginEntry s.cur s.eng q
      | none => s)

/-- The entry of an engine that runs, or that holds its completion, has done so for 2^22 beats (R147, R350). -/
def State.overdue (s : State) (t : Nat) (g : Engine) (beats : Nat) : Bool :=
  match g.run with
  | none => false
  | some r => decide (r.ended.map (·.1) ≠ some 1 ∧ Config.watchdogBeats ≤ (s.dbc t - r.startBeat).toNat + beats)
/-- ENGINE_WATCHDOG: the entry of the engine in focus has run, or has held its completion, for 2^22 beats: it ends before its next
step with the status FAULT, and the fault becomes pending; the queued units wait, as behind any fault (R147, R213, R350, R361,
R364; log 20). -/
def execEngineWatchdog (s : State) : Res :=
  let g := s.here.engine s.eng
  .next (match g.run with
    | none => s
    | some r => if s.overdue s.cur g 0 then s.stepFault 0x16 (BitVec.ofNat 64 r.step) else s)

end Sys2Proof.Machine
end

