-- ==== Sys2Proof/Machine/Operands.lean ====
section
/-! DEFINITION. The operands of the vector engine: registers by their rotated number, active lanes, the four kinds of source,
and the shapes that its micro-orders share (R45 to R47, R210, R211, R217, R233). -/

namespace Sys2Proof.Machine

/-- The physical number of a logical vector register (R233). -/
def Vec.phys (x : Vec) (r : Nat) : Nat := if r < 16 then r else 16 + (r - 16 + x.rrb) % 16
/-- Lane `i` of logical vector register `r`. -/
def Vec.lane (x : Vec) (r i : Nat) : Nat := (Bank.get x.v (64 * x.phys r + i)).toNat
/-- Lane `i` is active under mask field `m` (R211). -/
def Vec.active (x : Vec) (m : BitVec 3) (i : Nat) : Bool := decide (m = 0) || (Bank.get x.m m.toNat).getLsbD i
/-- Set the lanes `lo` to `lo + n - 1` of the register with physical number `base / 64` that `p` selects. -/
def setLanes (p : Nat → Bool) (f : Nat → Nat) (base lo : Nat) (v : Bank 32) : Nat → Bank 32
  | 0 => v
  | n + 1 => setLanes p f base (lo + 1) (if p lo then FMap.set v (base + lo) (BitVec.ofNat 32 (f lo)) else v) n
/-- Write the lanes of logical register `r` that `p` selects. -/
def Vec.write (x : Vec) (r : Nat) (p : Nat → Bool) (f : Nat → Nat) : Vec :=
  { x with v := setLanes p f (64 * x.phys r) 0 x.v 64 }
/-- The 64 lanes of a register as one little-endian number (R166). -/
def Vec.whole (x : Vec) (r : Nat) : Nat := packElems 32 ((List.range 64).map (x.lane r))

/-- Change the vector registers of the tile in focus. -/
def State.modVec (s : State) (f : Vec → Vec) : State := s.modTile s.cur (fun x => { x with vec := f x.vec })
/-- Change the engine in focus. -/
def State.modEng (s : State) (f : Engine → Engine) : State :=
  s.modTile s.cur (fun x => x.setEngine s.eng (f (x.engine s.eng)))

/-- What a source of format V delivers to lane `i` (R45); `lit` is what an inline literal delivers. -/
def State.source (s : State) (k : BitVec 2) (sel : BitVec 5) (lit i : Nat) : Nat :=
  match k.toNat with
  | 0 => s.here.vec.lane sel.toNat i
  | 1 => (s.here.ve.rdE sel).toNat % 2 ^ 32
  | 2 => (Bank.get s.here.ve.cb ((s.here.vec.kb.toNat + sel.toNat) % 256)).toNat
  | _ => lit

/-- The same element in every place of a 32-bit lane. -/
def splat (w c : Nat) : Nat := packElems w (List.replicate (32 / w) c)
/-- An integer literal of element width `w`: sext(sel, 5) in every element (R45, R217). -/
def litInt (w : Nat) (sel : BitVec 5) : Nat := splat w (intCode w (signedOf 5 sel.toNat))
/-- A float literal: the table's entry rounded to the format, in every element (R45, R46). -/
def litFloat (F : FFmt) (sel : BitVec 5) : Nat := splat F.width (F.rne (fp32.decode (literal32 sel.toNat)))
/-- Element widths of the .I types (R47). -/
def intWidth (t : Nat) : Nat := match t with | 1 => 16 | 2 => 8 | _ => 32

/-- Apply `f` to the elements of width `w` of two lanes and of the old destination lane. -/
def lanewise (w : Nat) (f : Nat → Nat → Nat → Nat) (a b d : Nat) : Nat :=
  packElems w ((List.range (32 / w)).map (fun k => f (elemOf a w k) (elemOf b w k) (elemOf d w k)))

/-- A step that writes `f i` to each active lane `i` of register `d` and goes on (R211, R213). -/
def State.laneStep (s : State) (d : BitVec 5) (m : BitVec 3) (f : Nat → Nat) : State :=
  (s.modVec (fun x => x.write d.toNat (x.active m) f)).stepDone 1
/-- A .F micro-order: `f` on the elements of A, B and the old d (R214). -/
def State.floatStep (s : State) (d : BitVec 5) (kA : BitVec 2) (A : BitVec 5) (kB : BitVec 2) (B : BitVec 5) (m : BitVec 3)
    (t : BitVec 2) (f : FFmt → Nat → Nat → Nat → Nat) : State :=
  let F := floatType t.toNat
  let la := litFloat F A
  let lb := litFloat F B
  s.laneStep d m (fun i => lanewise F.width (f F) (s.source kA A la i) (s.source kB B lb i) (s.here.vec.lane d.toNat i))
/-- A .I micro-order: `f width unsigned` on the elements of A, B and the old d (R217). -/
def State.intStep (s : State) (d : BitVec 5) (kA : BitVec 2) (A : BitVec 5) (kB : BitVec 2) (B : BitVec 5) (m : BitVec 3)
    (t : BitVec 2) (f : Nat → Bool → Nat → Nat → Nat → Nat) : State :=
  let w := intWidth t.toNat
  let la := litInt w A
  let lb := litInt w B
  s.laneStep d m (fun i => lanewise w (f w (decide (t = 3))) (s.source kA A la i) (s.source kB B lb i)
    (s.here.vec.lane d.toNat i))
/-- A unary FP32 micro-order (R216). -/
def State.unaryStep (s : State) (d : BitVec 5) (kA : BitVec 2) (A : BitVec 5) (m : BitVec 3) (f : Nat → Nat) : State :=
  let la := litFloat fp32 A
  s.laneStep d m (fun i => f (s.source kA A la i))

/-- A mask-operation source (R219). -/
def State.maskSource (s : State) (k : BitVec 1) (sel : BitVec 5) : Word :=
  if k = 0 then Bank.get s.here.vec.m (sel.toNat % 8) else s.here.ve.rdE sel
/-- Write a mask register and go on. -/
def State.maskStep (s : State) (d : BitVec 3) (v : Word) : State :=
  (s.modVec (fun x => { x with m := FMap.set x.m d.toNat v })).stepDone 1
/-- A mask word whose bit `i` is `p i`. -/
def maskOf (p : Nat → Bool) : Word := BitVec.ofNat 64 (packElems 1 ((List.range 64).map (fun i => if p i then 1 else 0)))
/-- Write an engine register and go on. -/
def State.eStep (s : State) (d : BitVec 5) (v : Word) (beats : Nat) : State := (s.modEng (fun g => g.wrE d v)).stepDone beats

/-- A QCW and the queue it describes are valid (R108): reserved bits, depth, alignment, and room in the scratchpad. -/
def qcwOk (q : Nat) : Bool :=
  decide (q / 2 ^ 38 = 0 ∧ 1 ≤ q / 2 ^ 20 % 2 ^ 16 ∧ q / 2 ^ 20 % 2 ^ 16 ≤ 15 ∧ q % 2 ^ 20 % 32 = 0
    ∧ q % 2 ^ 20 + 32 + 2 ^ (q / 2 ^ 20 % 2 ^ 16) * (4 * 2 ^ (q / 2 ^ 36 % 4)) ≤ Config.scratchEnd)
/-- Bytes of an element of a queue. -/
def qcwSize (q : Nat) : Nat := 4 * 2 ^ (q / 2 ^ 36 % 4)
/-- Depth of a queue in elements. -/
def qcwDepth (q : Nat) : Nat := 2 ^ (q / 2 ^ 20 % 2 ^ 16)
/-- The offset of element `j` of a queue (R108, R228). -/
def elemAt (q j : Nat) : Nat := q % 2 ^ 20 + 32 + j % qcwDepth q * qcwSize q

end Sys2Proof.Machine
end

