-- ==== Sys2Proof/Machine/Matrix.lean ====
section
/-! DEFINITION. The matrix engine's micro-orders: the MMA family chunk by chunk, the accumulator and metadata orders, and the
quantising drain (R177 to R184, R274 to R295). -/

namespace Sys2Proof.Machine

/-! ### Registers and lines (R276) -/

/-- e register `k` of the class engine in focus, as a number. -/
def State.eReg (s : State) (k : Nat) : Nat := (s.here.xe.rdE (BitVec.ofNat 5 k)).toNat
/-- The window offset that e register `k` gives (R276). -/
def State.eOff (s : State) (k : Nat) : Nat := s.eReg k % Config.windowSize
/-- A field of the step is illegal (R44, R276, R280). -/
def State.stepIllegal (s : State) : State := s.stepFault 0x13 (BitVec.ofNat 64 s.stepNo)
/-- Change the matrix registers. -/
def State.modMat (s : State) (f : Mat → Mat) : State := s.modTile s.cur (fun x => { x with mat := f x.mat })

/-- The access of one line. -/
def lineAccess (off : Nat) (write : Bool) : Access := { off := (off : Int), len := 64, align := 1, write := write }
/-- The checks of R276 on accesses to rows from `base`, `str` apart, in the order given. -/
def State.rowParts (s : State) (base str : Nat) (parts : List Access) : Check :=
  if parts ≠ [] ∧ (base % 64 ≠ 0 ∨ str % 64 ≠ 0) then .fault 0x02 (s.ownAddr base) else s.checkAll parts
/-- The checks of R276 on whole lines. -/
def State.rowLines (s : State) (base str : Nat) (lines : List Nat) (write : Bool) : Check :=
  s.rowParts base str (lines.map (lineAccess · write))

/-- A FORMAT fault for the line at an offset (R163). -/
def State.formatFault (s : State) (off : Nat) : Check := .fault 0x14 (s.ownAddr (off / 64 * 64 : Nat))
/-- The first check of a list that does not pass. -/
def checkSeq : List Check → Check
  | [] => .pass
  | c :: t => c.andThen (checkSeq t)

/-! ### Pending drains of a stamped entry (R284, R285, R291) -/

/-- The beat of the step in progress of a stamped entry. -/
def State.stepBeat (s : State) : Word :=
  match (s.here.engine s.eng).run with | some r => r.nextBeat.getD 0 | none => 0
/-- The latest beat that a step has to wait for: of the pending drains that `f` picks. -/
def State.drainWait (s : State) (f : Drain → Bool) : Option Word :=
  if s.stamped then
    ((s.here.mat.drains.filter (fun d => f d && s.stepBeat.ult d.done)).map (·.done)).foldl
      (fun (m : Option Word) d => match m with | some v => some (if v.ult d then d else v) | none => some d) none
  else none
/-- Perform a step unless it waits for a drain: then its beat moves to the drain's end (R285). -/
def State.afterDrains (s : State) (f : Drain → Bool) (g : State) : State :=
  match s.drainWait f with
  | some b => s.modRun s.cur s.eng (fun r => { r with nextBeat := some b })
  | none => g

/-! ### The MMA family (R277 to R282) -/

/-- An MMA micro-order: form 0 mma, 1 mma.r, 2 mma.s; `mode` is M for mma.s; `n` chunks. -/
structure Mma where
  form : Nat
  acc : Nat
  eA : Nat
  eB : Nat
  ec : Nat
  mode : Nat
  n : Nat
  deriving DecidableEq, Repr

/-- The fields of an MMA micro-order. -/
def mmaOf (form : Nat) (acc : BitVec 3) (eA eB : BitVec 5) (ec : BitVec 3) (mode : BitVec 2) (kc : BitVec 6) : Mma :=
  { form := form, acc := acc.toNat, eA := eA.toNat, eB := eB.toNat, ec := ec.toNat, mode := mode.toNat, n := kc.toNat + 1 }
/-- Operand formats come from descriptors (R277, R279). -/
def Mma.byDesc (o : Mma) : Bool := decide (o.form = 2 ∨ o.mode = 0)
/-- The format that modes 1 to 3 fix (R279). -/
def Mma.fixed (o : Mma) : LineFmt := if o.mode = 1 then .flt bf16 else if o.mode = 2 then .flt e4m3 else .int 8 true
/-- A format that mode 0 accepts (R177). -/
def mmaFmt (f : LineFmt) : Bool :=
  match f with
  | .flt F => decide (F ≠ fp32)
  | .fp4 _ => true
  | .int w _ => decide (w = 8)
/-- A format's width and family as one number: twice the width, plus one for the float family. -/
def fmtCode (f : LineFmt) : Nat := 2 * f.width + (match f with | .int _ _ => 0 | _ => 1)
/-- The descriptor by which the micro-order in progress decodes the line at an offset: the one that it read first (R165). -/
def State.lineDesc (s : State) (off : Nat) : BitVec 16 :=
  match (s.here.engine s.eng).run.bind (fun r => FMap.get? r.descs (off / 64)) with
  | some d => d
  | none => s.descAt (nearKey s.cur off)
/-- The code of the line at an offset, if mode 0 accepts it. -/
def State.mmaCode (s : State) (off : Nat) : Option Nat :=
  match lineFmt (s.lineDesc off) with
  | some f => if mmaFmt f then some (fmtCode f) else none
  | none => none
/-- Rows, columns and row groups that take part (R280); none when the shape record is malformed. -/
def State.mmaShape (s : State) (o : Mma) : Option (Nat × Nat) :=
  if o.form ≠ 1 then some (32, 32)
  else
    let v := s.eReg (o.eA + 2)
    if v / 2 ^ 14 ≠ 0 ∨ v / 2 ^ 6 % 4 ≠ 0 ∨ 32 < v % 64 ∨ 32 < v / 2 ^ 8 % 64 then none else some (v % 64, v / 2 ^ 8 % 64)
/-- Valid 8-row groups (R280). -/
def groupsOf (nrow : Nat) : Nat := (nrow + 7) / 8

/-- The offset of chunk `c` of A row `i` (R277). -/
def State.aRow (s : State) (o : Mma) (i c : Nat) : Nat := s.eOff o.eA + i * s.eReg (o.eA + 1) + 192 * c
/-- The offset of chunk `c` of B row `j` (R277). -/
def State.bRow (s : State) (o : Mma) (j c : Nat) : Nat :=
  s.eOff o.eB + j * s.eReg (o.eB + 1) + (if o.form = 2 then 96 else 192) * c
/-- The lines that hold `n` bytes from an offset, ascending. -/
def linesFrom (off n : Nat) : List Nat := (List.range ((off + n - 1) / 64 - off / 64 + 1)).map (fun k => 64 * (off / 64 + k))
/-- The accesses to `n` bytes from an offset, line by line, each from the line's first granule on, which brings its descriptor
(R339). -/
def partsFrom (off n : Nat) (write : Bool := false) : List Access :=
  (linesFrom off n).map (fun (l : Nat) => { off := (l : Int), len := min 64 (off + n - l), align := 1, write := write })
/-- The lines of chunk `c` of A, in the order of R278. -/
def State.aLines (s : State) (o : Mma) (nrow c : Nat) : List Nat :=
  (List.range nrow).flatMap (fun i => linesFrom (s.aRow o i c) 192)
/-- The lines of chunk `c` of B, in the order of R278. -/
def State.bLines (s : State) (o : Mma) (ncol c : Nat) : List Nat :=
  (List.range ncol).flatMap (fun j => linesFrom (s.bRow o j c) (if o.form = 2 then 96 else 192))

/-- The accesses of chunk `c` to A. -/
def State.aParts (s : State) (o : Mma) (nrow c : Nat) : List Access :=
  (List.range nrow).flatMap (fun i => partsFrom (s.aRow o i c) 192)
/-- The accesses of chunk `c` to B. -/
def State.bParts (s : State) (o : Mma) (ncol c : Nat) : List Access :=
  (List.range ncol).flatMap (fun j => partsFrom (s.bRow o j c) (if o.form = 2 then 96 else 192))

/-- The set bits of the low `n` bits of a number. -/
def popOf (v : Nat) : Nat → Nat
  | 0 => 0
  | n + 1 => (if bitN v n then 1 else 0) + popOf v n
/-- Elements of a chunk, for a width (R178). -/
def chunkElems (w : Nat) : Nat := 192 * 8 / w
/-- The mask byte that covers element `k` of chunk `c` for B row `j` (R281). -/
def maskByte (w n c j k : Nat) : Nat := j * (chunkElems w / 8) * n + c * (chunkElems w / 8) + k / 8
/-- Byte `k` of metadata register `m`. -/
def Mat.mdByte (x : Mat) (m k : Nat) : Nat := (Bank.get x.md (1536 * m + k)).toNat
/-- The mask check of R282 for chunk `c`. -/
def State.maskCheck (s : State) (o : Mma) (w c : Nat) : Check :=
  if o.form ≠ 2 then .pass
  else
    let l := (List.range 32).flatMap fun j => (List.range (chunkElems w / 8)).map fun q => maskByte w o.n c j (8 * q)
    match l.find? (fun k => decide (popOf (s.here.mat.mdByte o.mode k) 8 ≠ 4)) with
    | some k => .fault 0x15 (BitVec.ofNat 64 (k * 2 ^ 16 + s.stepNo))
    | none => .pass
/-- The checks of one line of a chunk: R276, and in mode 0 those of R177. -/
def State.mmaLine (s : State) (o : Mma) (code : Nat) (a : Access) : Check :=
  (s.accessCheck a).andThen
    (if o.byDesc && decide (s.mmaCode a.off.toNat ≠ some code) then s.formatFault a.off.toNat else .pass)
/-- The alignment check of an operand's rows, reported at its first line (R276). -/
def State.alignCheck (s : State) (base str first : Nat) : Check :=
  if base % 64 ≠ 0 ∨ str % 64 ≠ 0 then .fault 0x02 (s.ownAddr first) else .pass
/-- The checks of chunk `c` (R278). -/
def State.chunkCheck (s : State) (o : Mma) (nrow ncol code c : Nat) : Check :=
  checkSeq
    (s.alignCheck (s.eOff o.eA) (s.eReg (o.eA + 1)) (s.aRow o 0 c) :: (s.aParts o nrow c).map (s.mmaLine o code) ++
      s.alignCheck (s.eOff o.eB) (s.eReg (o.eB + 1)) (s.bRow o 0 c) :: (s.bParts o ncol c).map (s.mmaLine o code) ++
      [s.maskCheck o (code / 2) c])

/-- The scaled values of `n` elements of `w` bits at an offset within one line (R164, R178). -/
def State.elemsAt (s : State) (o : Mma) (off w n : Nat) : List Num :=
  let d := s.lineDesc off
  let f := if o.byDesc then (lineFmt d).getD o.fixed else o.fixed
  let k : Int := if o.byDesc then (match f with | .int _ _ => 0 | _ => lineScale d) else 0
  let v := s.lineNum off (n * w / 8)
  (List.range n).map (fun i => (f.value (elemOf v w i)).scale k)
/-- The elements that a mask keeps, each paired with the next packed element (R281). -/
def keptPairs (mask : Nat → Bool) : Nat → List Num → List Num → List (Num × Num)
  | _, [], _ => []
  | k, a :: r, b => if mask k then (match b with
      | v :: t => (a, v) :: keptPairs mask (k + 1) r t
      | [] => []) else keptPairs mask (k + 1) r b
/-- The exact sum of products; the sum of no term is -0 until a term comes (R178, R179). -/
def dotOf (l : List (Num × Num)) : Num := l.foldl (fun p t => p.add (t.1.mul t.2)) (.fin true 0 0)
/-- One group applied to an accumulator element, with its sticky bit (R178, R180). -/
def groupStep (flt : Bool) (v : Nat × Bool) (p : Num) : Nat × Bool :=
  if flt then (fp32.rne ((fp32.decode v.1).add (fp32.decode (fp32.rne p))), v.2)
  else
    let t := signedOf 32 v.1 + nearestInt p
    (intCode 32 t, v.2 || decide (t < -(2 ^ 31) ∨ 2 ^ 31 ≤ t))
/-- The term pairs of group `g` of chunk `c` for row `i` and column `j`, given the values of A and B of that group. -/
def State.groupPairs (s : State) (o : Mma) (w c j g : Nat) (a b : List Num) : List (Num × Num) :=
  if o.form = 2 then
    keptPairs (fun k => bitN (s.here.mat.mdByte o.mode (maskByte w o.n c j (32 * g + k))) (k % 8)) 0 a b
  else List.zip a b
/-- The groups of one row of an operand. -/
def State.rowGroups (s : State) (o : Mma) (off w n : Nat) : List (List Num) :=
  (List.range (chunkElems w / 32)).map (fun g => s.elemsAt o (off + g * (n * w / 8)) w n)
/-- The updated accumulator element of row `i`, column `j` (R178). -/
def State.elemStep (s : State) (o : Mma) (code c j : Nat) (a b : List (List Num)) (v : Nat × Bool) : Nat × Bool :=
  ((List.zip a b).mapIdx (fun g ab => dotOf (s.groupPairs o (code / 2) c j g ab.1 ab.2))).foldl (groupStep (bitN code 0)) v
/-- The key of an accumulator element. -/
def accKey (phys i j : Nat) : Nat := 1024 * phys + 32 * i + j
/-- The physical tile of accumulator `n`. -/
def Mat.tileOf (x : Mat) (n : Nat) : Nat := x.phys.getD n 0
/-- Row group `rg` of chunk `c` (R278). -/
def State.rowGroupStep (s : State) (o : Mma) (nrow ncol code c rg : Nat) : State :=
  let w := code / 2
  let p := s.here.mat.tileOf o.acc
  let bs := (List.range ncol).map (fun j => (j, s.rowGroups o (s.bRow o j c) w (if o.form = 2 then 16 else 32)))
  let rows := ((List.range 8).map (8 * rg + ·)).filter (fun i => decide (i < nrow))
  let cells := rows.flatMap fun i =>
    let a := s.rowGroups o (s.aRow o i c) w 32
    bs.map fun jb =>
      let k := accKey p i jb.1
      (k, s.elemStep o code c jb.1 a jb.2 ((Bank.get s.here.mat.acc k).toNat, false))
  let ovf := cells.any (fun x => x.2.2)
  s.modMat fun m => { m with
    acc := cells.foldl (fun b x => FMap.set b x.1 (BitVec.ofNat 32 x.2.1)) m.acc
    sticky := if ovf then setBit8 m.sticky o.acc true else m.sticky }
/-- Row groups `rg` to `rg + n - 1` of chunk `c`. -/
def State.rowGroupsStep (s : State) (o : Mma) (nrow ncol code c rg : Nat) : Nat → State
  | 0 => s
  | n + 1 => (s.rowGroupStep o nrow ncol code c rg).rowGroupsStep o nrow ncol code c (rg + 1) n

/-- Beats of one chunk (R277). -/
def Mma.chunkBeats (o : Mma) (nrow : Nat) : Nat := if o.form = 1 then 6 * groupsOf nrow else if o.form = 2 then 12 else 24
/-- The energy debit (R293). -/
def Mma.debit (o : Mma) (w nrow : Nat) : Nat :=
  let low := (if w = 16 then 3 else if w = 8 then 4 else 5) - (if o.form = 2 then 1 else 0)
  let cost := 8 + 8 * max o.ec low
  if o.form = 1 then (cost * o.n * groupsOf nrow + 3) / 4 else cost * o.n

/-- The checks before chunk 0 (R278 to R281): the element code, none when nothing is to be done, or what stops the step. -/
inductive MmaIssue where
  | go (code : Nat)
  | empty
  | stop (c : Check)
  deriving DecidableEq, Repr
/-- The accumulator type suits the family (R279). -/
def Mat.typeOk (x : Mat) (acc code : Nat) : Bool := decide (x.ty.getLsbD acc = !bitN code 0)
/-- Judge an MMA micro-order before its first chunk. -/
def State.mmaIssue (s : State) (o : Mma) : MmaIssue :=
  let first := s.aRow o 0 0
  if 31 < o.eA + (if o.form = 1 then 2 else 1) ∨ 31 < o.eB + 1 then .stop (.fault 0x13 (BitVec.ofNat 64 s.stepNo))
  else match s.mmaShape o with
    | none => .stop (.fault 0x13 (BitVec.ofNat 64 s.stepNo))
    | some (nrow, ncol) =>
      if nrow = 0 ∨ ncol = 0 then .empty
      else if !o.byDesc then
        if s.here.mat.typeOk o.acc (fmtCode o.fixed) then .go (fmtCode o.fixed) else .stop (s.formatFault first)
      else match (s.alignCheck (s.eOff o.eA) (s.eReg (o.eA + 1)) first).andThen (s.accessCheck (lineAccess first false)) with
        | .pass => match s.mmaCode first with
          | none => .stop (s.formatFault first)
          | some code =>
            if !s.here.mat.typeOk o.acc code then .stop (s.formatFault first)
            else if o.form = 2 ∧ 1536 < 32 * (chunkElems (code / 2) / 8) * o.n then .stop (s.formatFault first)
            else .go code
        | c => .stop c

/-- The position that the running MMA goes on from. -/
def State.mmaAt (s : State) : Option (Nat × Nat × Nat) :=
  match (s.here.engine s.eng).run with | some r => r.mma | none => none
/-- Put the running MMA at a position; within a chunk it keeps the lines that it has read. -/
def State.mmaGoto (s : State) (c rg code beats : Nat) : State :=
  s.stepTo (fun r => { r with
    mma := some (c, rg, code)
    lines := if rg = 0 then [] else r.lines
    nextBeat := r.nextBeat.map (· + BitVec.ofNat 64 beats) })
/-- The step of an MMA is done; a pending eprg acts at this boundary (R97). -/
def State.mmaDone (s : State) (beats : Nat) : State :=
  (s.stepTo (fun r => { r with mma := none, descs := [], lines := [] }.goto (r.step + 1) beats)).rebase
/-- The step waits for drain `d`: for its accumulator, or for a line that some chunk reads (R285). -/
def State.mmaDrains (s : State) (o : Mma) (nrow ncol : Nat) (d : Drain) : Bool :=
  decide (d.phys = s.here.mat.tileOf o.acc) ||
    (List.range o.n).any (fun c => (s.aLines o nrow c ++ s.bLines o ncol c).any (fun l => d.lines.contains l))
/-- The descriptors of the lines of a chunk stay with the micro-order (R165). -/
def State.holdDescs (s : State) (o : Mma) (lines : List Nat) : State :=
  if o.byDesc then
    s.modRun s.cur s.eng (fun r => { r with descs := lines.foldl (fun m l => FMap.set m (l / 64) (s.lineDesc l)) r.descs })
  else s

/-- Chunk `c`, checked, from row group `rg`, up to `upTo` groups of it when that is given (R295): its beats are split evenly over its
row groups (R291). -/
def State.chunkRun (s : State) (o : Mma) (nrow ncol c rg code : Nat) (upTo : Option Nat) : State :=
  let s := (s.touchAll ((s.aParts o nrow c ++ s.bParts o ncol c).filter (fun a => !s.lineHeld a))).holdDescs o (s.aLines o nrow c ++ s.bLines o ncol c)
  let left := groupsOf nrow - rg
  let n := min (upTo.getD left) left
  let s1 := s.rowGroupsStep o nrow ncol code c rg n
  let b := n * (o.chunkBeats nrow / groupsOf nrow)
  if n < left then s1.mmaGoto c (rg + n) code b
  else if c + 1 = o.n then s1.mmaDone b
  else s1.mmaGoto (c + 1) 0 code b
/-- The lines of chunk `c` in the order of R278, as far as the alignment of the operands lets it read them (R276). -/
def State.chunkReads (s : State) (o : Mma) (nrow ncol c : Nat) : List Access :=
  if s.alignCheck (s.eOff o.eA) (s.eReg (o.eA + 1)) 0 ≠ .pass then []
  else s.aParts o nrow c ++ (if s.alignCheck (s.eOff o.eB) (s.eReg (o.eB + 1)) 0 ≠ .pass then [] else s.bParts o ncol c)
/-- Check chunk `c` and go on with it (R278), all of it or, in a bounded turn, first its lines and then some of its row groups (R295,
R342). -/
def State.chunkTurn (s : State) (o : Mma) (nrow ncol c code : Nat) (upTo : Option Nat) (f : State → Option Nat → State) : State :=
  s.inParts (fun s a => s.mmaLine o code a) (s.chunkReads o nrow ncol c) fun n =>
    s.after (s.chunkCheck o nrow ncol code c) fun s => f s (match n with | some n => some (max 1 n) | none => upTo)
/-- Chunk `c`, from row group `rg` on (R278). -/
def State.mmaChunk (s : State) (o : Mma) (c rg code : Nat) (upTo : Option Nat) : State :=
  match s.mmaShape o with
  | none => s.stepIllegal
  | some (nrow, ncol) => s.chunkTurn o nrow ncol c code upTo fun s n => s.chunkRun o nrow ncol c rg code n

/-- The issue of an MMA: its checks and those of its first chunk, its energy debit (R293, R294), then that chunk; a stamped one
that stalls has done nothing (R292). -/
def State.mmaStart (s : State) (o : Mma) (upTo : Option Nat) : State :=
  match s.mmaIssue o, s.mmaShape o with
  | .stop c, _ => s.after c id
  | .empty, _ => s.mmaDone 1
  | .go _, none => s.stepIllegal
  | .go code, some (nrow, ncol) =>
    s.chunkTurn o nrow ncol 0 code upTo fun s n =>
      let debit := o.debit (code / 2) nrow
      if s.here.ebud < debit then
        (if s.stamped then s.stepFault 0x11 (missTval 0 s.stepNo) else s.modRun s.cur s.eng (fun r => { r with descs := [], lines := [] }))
      else
        let s1 := s.modTile s.cur (fun x => { x with ebud := x.ebud - debit, ebudUsed := x.ebudUsed || decide (0 < debit) })
        s1.chunkRun o nrow ncol 0 0 code n
/-- The drains that an MMA has to wait for, one with nothing to do excepted, are waited for before anything of it is judged (R285,
R292). -/
def State.mmaIssues (s : State) (o : Mma) (upTo : Option Nat) : State :=
  match s.mmaShape o with
  | none => s.stepIllegal
  | some (nrow, ncol) =>
    if nrow = 0 ∨ ncol = 0 then s.mmaStart o upTo else s.afterDrains (s.mmaDrains o nrow ncol) (s.mmaStart o upTo)

/-- One turn of an MMA micro-order: it issues and applies one chunk, or goes on with the next (R278, R295), a chunk or, in a bounded
turn, part of one. -/
def State.mmaTurn (s : State) (o : Mma) (upTo : Option Nat) : State :=
  match s.mmaAt with
  | some (c, rg, code) => s.mmaChunk o c rg code upTo
  | none => s.mmaIssues o upTo

/-- MMA: R277, R278. -/
def execMma (acc : BitVec 3) (eA eB : BitVec 5) (ec : BitVec 3) (mode : BitVec 2) (kc : BitVec 6) (s : State) : Res :=
  .next (s.mmaTurn (mmaOf 0 acc eA eB ec mode kc) none)
/-- MMA_R: R277, R278, R280. -/
def execMmaR (acc : BitVec 3) (eA eB : BitVec 5) (ec : BitVec 3) (mode : BitVec 2) (kc : BitVec 6) (s : State) : Res :=
  .next (s.mmaTurn (mmaOf 1 acc eA eB ec mode kc) none)
/-- MMA_S: R277, R278, R281, R282. -/
def execMmaS (acc : BitVec 3) (eA eB : BitVec 5) (ec : BitVec 3) (mode : BitVec 2) (kc : BitVec 6) (s : State) : Res :=
  .next (s.mmaTurn (mmaOf 2 acc eA eB ec mode kc) none)

/-! ### Accumulators (R284) -/

/-- Zero a physical tile. -/
def zeroTile (b : Bank 32) (p : Nat) : Bank 32 := b.filter (fun x => !decide (x.1 / 1024 = p))
/-- A free physical tile: of no logical accumulator, and awaiting no drain (R284). -/
def State.freeTile (s : State) : Option Nat :=
  (List.range 24).find? fun p => !s.here.mat.phys.contains p &&
    !(s.stamped && s.here.mat.drains.any (fun d => decide (d.phys = p) && s.stepBeat.ult d.done))
/-- The first beat on which a pending drain frees its tile. -/
def State.firstDrain (s : State) : Word :=
  ((s.here.mat.drains.filter (fun d => s.stepBeat.ult d.done)).map (·.done)).foldl (fun m d => if d.ult m then d else m)
    0xFFFFFFFFFFFFFFFF
/-- Map accumulator `n` onto free tile `p` of zeros (R284). -/
def Mat.mapNew (x : Mat) (n p : Nat) (i32 : Bool) : Mat :=
  { x with
    acc := zeroTile x.acc p
    phys := modAt (fun _ => p) x.phys n
    ty := setBit8 x.ty n i32
    sticky := setBit8 x.sticky n false }
/-- Wait for a tile to come free, if none is (R284). -/
def State.afterTile (s : State) (f : Nat → State) : State :=
  match s.freeTile with
  | some p => f p
  | none => s.modRun s.cur s.eng (fun r => { r with nextBeat := some s.firstDrain })
/-- Take a free tile for accumulator `n`, or wait for one (R284). -/
def State.withTile (s : State) (n : Nat) (i32 : Bool) (f : State → Nat → State) : State :=
  s.afterTile (fun p => f (s.modMat (fun m => m.mapNew n p i32)) p)

/-- ACCNEW: R284. -/
def execAccnew (acc : BitVec 3) (ty : BitVec 1) (s : State) : Res :=
  .next (s.withTile acc.toNat (ty = 1) (fun s _ => s.stepDone 1))
/-- ACCZ: R284. -/
def execAccz (acc : BitVec 3) (ty : BitVec 1) (s : State) : Res :=
  let p := s.here.mat.tileOf acc.toNat
  .next (s.afterDrains (fun d => decide (d.phys = p)) ((s.modMat (fun m => { m with
    acc := zeroTile m.acc p
    ty := setBit8 m.ty acc.toNat (ty = 1)
    sticky := setBit8 m.sticky acc.toNat false })).stepDone 1))
/-- The 32-bit words of row `i` of an accumulator load. -/
def State.accRow (s : State) (base str i : Nat) : List Nat :=
  (List.range 32).map (fun j => s.lineNum (base + i * str + 4 * j) 4)
/-- ACCLD: the waits of R284 and R285 come before any line is judged (R292). -/
def execAccld (acc : BitVec 3) (ty : BitVec 1) (eA eS : BitVec 5) (s : State) : Res :=
  let base := s.eOff eA.toNat
  let str := s.eReg eS.toNat
  let lines := (List.range 32).flatMap (fun i => linesFrom (base + i * str) 128)
  .next (if str ≠ 0 ∧ str < 128 then s.stepIllegal
    else s.afterDrains (fun d => lines.any (fun l => d.lines.contains l)) <|
      s.afterTile fun p =>
        s.inParts (fun s a => s.rowParts base str [a]) (lines.map (lineAccess · false)) fun _ =>
          s.after (s.rowLines base str lines false) fun s =>
            let rows := (List.range 32).map (fun i => (i, s.accRow base str i))
            ((s.touchAll ((lines.map (lineAccess · false)).filter (fun a => !s.lineHeld a))).modMat (fun m => { m.mapNew acc.toNat p (ty = 1) with
              acc := rows.foldl (fun b r => (r.2.mapIdx (fun j v => (j, v))).foldl
                (fun b v => FMap.set b (accKey p r.1 v.1) (BitVec.ofNat 32 v.2)) b) (m.mapNew acc.toNat p (ty = 1)).acc })).readDone 64)

/-- MDLD: R286, R342. -/
def execMdld (md : BitVec 2) (eA : BitVec 5) (s : State) : Res :=
  let base := s.eOff eA.toNat
  let lines := linesFrom base 1536
  let ok := fun (s : State) (l : Nat) =>
    let d := (s.lineDesc l).toNat
    if d % 256 = 0x50 ∧ d / 2 ^ 14 = 0 then Check.pass else s.formatFault l
  .next (s.afterDrains (fun d => lines.any (fun l => d.lines.contains l)) <|
    s.inParts (fun s a => ((s.alignCheck base 0 base).andThen (s.accessCheck a)).andThen (ok s a.off.toNat)) (lines.map (lineAccess · false)) fun _ =>
      s.after ((s.alignCheck base 0 base).andThen
          (checkSeq (lines.map (fun l => (s.accessCheck (lineAccess l false)).andThen (ok s l))))) fun s =>
        ((s.touchAll ((lines.map (lineAccess · false)).filter (fun a => !s.lineHeld a))).modMat (fun m => { m with
          md := ((lines.flatMap s.lineBytes).mapIdx (fun k b => (k, b))).foldl
            (fun x v => FMap.set x (1536 * md.toNat + v.1) v.2) m.md })).readDone 24)

/-! ### Drain (R181 to R184, R287 to R290) -/

/-- The targets of a drain: binary floats, quantised, integers (R287). -/
inductive Target where
  | flt (F : FFmt)
  | quant (k : Nat)
  | int (w : Nat) (signed : Bool)
  deriving DecidableEq, Repr
/-- The target of a control word (R287). -/
def targetOf (fmt stype : Nat) : Option Target :=
  if fmt ≠ 0x30 ∧ stype ≠ 0 then none
  else match fmt with
    | 0x10 => some (.flt fp32)
    | 0x11 => some (.flt fp16)
    | 0x12 => some (.flt bf16)
    | 0x20 => some (.quant 0)
    | 0x21 => some (.quant 1)
    | 0x30 => some (.quant (4 + stype))
    | 0x40 => some (.int 8 true)
    | 0x41 => some (.int 8 false)
    | 0x42 => some (.int 16 true)
    | 0x43 => some (.int 32 true)
    | _ => none
/-- Bits of an element of a target. -/
def Target.width : Target → Nat
  | .flt F => F.width
  | .quant k => quantWidth k
  | .int w _ => w
/-- A target takes an I32 accumulator (R183). -/
def Target.isInt : Target → Bool
  | .int _ _ => true
  | _ => false

/-- What a drain does, once its words are judged: base, stride, target, valid rows and columns, tensor word and order. -/
structure DrainOp where
  base : Nat
  dstr : Nat
  tgt : Target
  fmt : Nat
  nrow : Nat
  ncol : Nat
  word : Option Word
  ord : Nat
  deriving DecidableEq, Repr

/-- e register `k` of the class engine in focus. -/
def State.xeWord (s : State) (k : Nat) : Word := s.here.xe.rdE (BitVec.ofNat 5 k)
/-- Read the control word of a drain (R287); none when it, the shape record or a derived register is illegal. -/
def State.drainOp (s : State) (eD eC : Nat) : Option DrainOp :=
  let v := s.eReg eC
  let tmax := bitN v 25
  let shp := bitN v 24
  let dstr := bitsN v 28 20
  if (tmax ∧ 31 < eC + 1) ∨ (shp ∧ 31 < eC + 2) ∨ v / 2 ^ 48 ≠ 0 ∨ bitsN v 16 8 ≠ 0 ∨ bitsN v 8 6 ≠ 0 then none
  else match targetOf (v % 256) (bitsN v 14 2) with
    | none => none
    | some t =>
      let r := s.eReg (eC + 2)
      if dstr % 64 ≠ 0 ∨ dstr < (if t.width = 32 then 128 else 64) then none
      else if shp ∧ (r / 2 ^ 14 ≠ 0 ∨ r / 2 ^ 6 % 4 ≠ 0 ∨ 32 < r % 64 ∨ 32 < r / 2 ^ 8 % 64) then none
      else some {
        base := s.eOff eD
        dstr := dstr
        tgt := t
        fmt := v % 256
        nrow := if shp then r % 64 else 32
        ncol := if shp then r / 2 ^ 8 % 64 else 32
        word := if tmax then some (s.xeWord (eC + 1)) else none
        ord := bitsN v 26 2 }

/-- The offset of output line `l` (R288). -/
def DrainOp.line (o : DrainOp) (l : Nat) : Nat :=
  if o.tgt.width = 32 then o.base + l / 2 * o.dstr + 64 * (l % 2) else o.base + l * o.dstr
/-- The output lines in order. -/
def DrainOp.lines (o : DrainOp) : List Nat := (List.range (2 * o.tgt.width)).map o.line
/-- The elements of output line `l`: value and validity (R288). -/
def State.drainElems (s : State) (o : DrainOp) (acc l : Nat) : List (Nat × Bool) :=
  let n := 512 / o.tgt.width
  (List.range n).map fun k =>
    let i := (l * n + k) / 32
    let j := (l * n + k) % 32
    ((Bank.get s.here.mat.acc (accKey (s.here.mat.tileOf acc) i j)).toNat, decide (i < o.nrow ∧ j < o.ncol))

/-- The largest finite or infinite magnitude of the valid elements (R181); of an I32 accumulator, of its values. -/
def lineAmax (i32 : Bool) (l : List (Nat × Bool)) : Num :=
  amaxOf ((l.filter (·.2)).map (fun e => if i32 then numOfInt (signedOf 32 e.1) else fp32.decode e.1))
/-- One line of a drain: element codes, descriptor, and flags of R290 bits 1 and 2. -/
def drainLine (o : DrainOp) (l : List (Nat × Bool)) : List Nat × BitVec 16 × Bool × Bool :=
  let nan := l.any (fun e => e.2 && !o.tgt.isInt && decide (fp32.decode e.1 = .nan))
  match o.tgt with
  | .flt F => (l.map (fun e => if e.2 then F.rne (fp32.decode e.1) else 0), BitVec.ofNat 16 (0x2000 + o.fmt), false, nan)
  | .int w sg =>
    let lo : Int := if sg then -(2 ^ (w - 1)) else 0
    let hi : Int := if sg then 2 ^ (w - 1) - 1 else 2 ^ w - 1
    let v := fun (c : Nat) => max lo (min hi (signedOf 32 c))
    (l.map (fun e => if e.2 then intCode w (v e.1) else 0), BitVec.ofNat 16 (0x2000 + o.fmt),
      l.any (fun e => e.2 && decide (v e.1 ≠ signedOf 32 e.1)), false)
  | .quant k =>
    let X := scaleX k (lineAmax false l)
    let wide := fun (c : Nat) => match fp32.decode c with
      | .fin _ m e => (numOfInt (maxcOf k)).lt false ((Num.fin false m e).scale (32 - (X : Int)))
      | _ => false
    (l.map (fun e => if e.2 then quantElem k X (fp32.decode e.1) else 0), quantDesc k X,
      l.any (fun e => e.2 && wide e.1), nan)

/-- Write the lines of a drain from number `l` on; the flags so far and the amax so far. -/
def State.drainLines (s : State) (o : DrainOp) (acc l : Nat) (clip nan : Bool) (amax : Num) : Nat → State × Bool × Bool × Num
  | 0 => (s, clip, nan, amax)
  | n + 1 =>
    let es := s.drainElems o acc l
    let r := drainLine o es
    let k := nearKey s.cur (o.line l)
    let s1 := (s.store k 64 (packElems o.tgt.width r.1)).setDesc k r.2.1
    s1.drainLines o acc (l + 1) (clip || r.2.2.1) (nan || r.2.2.2) (amaxOf [amax, lineAmax o.tgt.isInt es]) n

/-- The tensor word at offset `off` of tile `d`'s window lies in a line that is landing for the entry numbered `no` of tile `t`
(R154, R341). -/
def State.tensorLanding (s : State) (t d off no : Nat) : Bool :=
  if d = t then s.unitLanding t (off / 64) no else s.landing d off
/-- The check of a drain's tensor word before any write (R18, R289): a word in a saved window waits for the update itself (R370); a
landing one makes a stamped entry miss (R154). -/
def State.tensorCheck (s : State) (o : DrainOp) : Check :=
  match o.word with
  | none => .pass
  | some a => match s.near s.here.ctx a 4 with
    | .bad c => .fault c a
    | .wait => .pass
    | .ok t off =>
      if t = s.cur ∧ !inRanges s.stepFp.wr (off / 32) then .fault 0x17 (s.ownAddr (off / 32 * 32 : Nat))
      else if s.stamped && s.tensorLanding s.cur t off s.entryNo then .fault 0x11 (BitVec.ofNat 64 (a.toNat / 64 * 64))
      else .pass
/-- The oldest per-tensor update of tile `t` is made, or dropped where no live task holds the word's tile any more (R184, R289, R290);
none while it waits: for a saved window, a landing line, or the accesses that its order puts before it (R84, R370). -/
def State.tensorStep (s : State) (t : Nat) : Option State :=
  let x := s.tile t
  match x.mat.tensor with
  | [] => none
  | u :: rest =>
    let done := fun (s : State) (f : Nat) => s.modTile t (fun x =>
      { x with xe := x.xe.wrE u.eF (x.xe.rdE u.eF ||| BitVec.ofNat 64 f), mat := { x.mat with tensor := rest } })
    match s.findNear x.ctx u.addr with
    | .bad _ => some (done s (u.flags + 8))
    | .wait => none
    | .ok d off =>
      if s.tensorLanding t d off u.no || (decide (2 ≤ u.ord) && !((s.accesses t).isEmpty && x.reads.isEmpty)) then none
      else some (done (s.store (nearKey d off) 4 (max (s.load (nearKey d off) 4) u.enc)) u.flags)
/-- A drain's per-tensor update waits behind the tile's earlier ones, and is made at once when it can be. -/
def State.tensorUpdate (s : State) (u : TensorUpd) : State :=
  let s1 := s.modMat (fun m => { m with tensor := m.tensor ++ [u] })
  if s.here.mat.tensor.isEmpty then (s1.tensorStep s.cur).getD s1 else s1

/-- The beat by which a drain issued now has finished: its unit starts two beats later, behind the drains before it (R291). -/
def State.drainDone (s : State) : Word :=
  s.here.mat.drains.foldl (fun b d => if b.ult (d.done + 32) then d.done + 32 else b) (s.stepBeat + 34)

/-- DRAIN: R287 to R291. -/
def execDrain (acc : BitVec 3) (eD eC eF : BitVec 5) (s : State) : Res :=
  let n := acc.toNat
  .next (match s.drainOp eD.toNat eC.toNat with
    | none => s.stepIllegal
    | some o =>
      if s.here.mat.ty.getLsbD n ≠ o.tgt.isInt then s.after (.fault 0x14 (s.ownAddr o.base)) id
      else s.after ((s.rowLines o.base o.dstr o.lines true).andThen (s.tensorCheck o)) fun s =>
        let r := (s.touchAll (o.lines.map (lineAccess · true))).drainLines o n 0 false false (.fin false 0 0) (2 * o.tgt.width)
        let f : Nat := (if o.tgt.isInt && s.here.mat.sticky.getLsbD n then 1 else 0) + (if r.2.1 then 2 else 0)
          + (if r.2.2.1 then 4 else 0)
        let s1 := r.1.modTile s.cur fun x =>
          if s.stamped then { x with mat := { x.mat with
            drains := x.mat.drains ++ [{ phys := s.here.mat.tileOf n, lines := o.lines, done := s.drainDone }] } } else x
        let s2 := match o.word with
          | some a => s1.tensorUpdate { addr := a, enc := fp32.rne r.2.2.2, ord := o.ord, eF := eF, flags := f, no := s.entryNo }
          | none => s1.modTile s.cur (fun x => { x with xe := x.xe.wrE eF (x.xe.rdE eF ||| BitVec.ofNat 64 f) })
        s2.stepDone 2)

end Sys2Proof.Machine
end

