-- ==== Sys2Proof/Machine/Butterfly.lean ====
section
/-! DEFINITION. Butterfly stages on the matrix engine (R296 to R303). -/

namespace Sys2Proof.Machine

/-- BSTR: R296, R297. -/
def execBstr (n : BitVec 4) (eS : BitVec 5) (s : State) : Res :=
  let v := s.eReg eS.toNat
  .next (if 11 < n.toNat ∨ v / 2 ^ 40 ≠ 0 ∨ bitsN v 4 16 ≠ 0 ∨ 11 < v % 16 then s.stepIllegal
    else (s.modMat (fun m => { m with b := FMap.set m.b n.toNat (BitVec.ofNat 64 v) })).stepDone 1)

/-- A butterfly step, once its fields are judged: rows, log2 of the width, input and output bases and strides, the stages as
(LS, WOFF), the input, intermediate and output formats, and the accumulator when it is the destination (R298 to R300). -/
structure Bfly where
  rows : Nat
  L : Nat
  xBase : Nat
  xStr : Nat
  yBase : Nat
  yStr : Nat
  stages : List (Nat × Nat)
  fin : FFmt
  mid : FFmt
  fout : FFmt
  acc : Option Nat
  deriving DecidableEq, Repr

/-- The stages that a step uses (R298). -/
def State.bflyStages (s : State) (chain : Bool) (c : Nat) : List (Nat × Nat) :=
  let one := fun (k : Nat) => let v := (Bank.get s.here.mat.b k).toNat; (v % 16, bitsN v 20 20)
  if chain then (List.range (c + 1)).map one else [one c]

/-- Judge the fields of a butterfly step (R298, R299). -/
def State.bflyOp (s : State) (chain : Bool) (eX dst L c : Nat) (P D IF OF : Bool) : Option Bfly :=
  let stages := s.bflyStages chain c
  let r := s.eReg (eX + 2)
  if L = 0 ∨ 12 < L ∨ 11 < c ∨ stages.any (fun t => decide (L ≤ t.1)) ∨ (P ∧ stages.length = 1)
      ∨ (D ∧ (!OF ∨ 5 < L ∨ 8 ≤ dst)) ∨ 31 < eX + 2 ∨ (!D ∧ 31 < dst + 1) ∨ 32 < r then none
  else some {
    rows := r
    L := L
    xBase := s.eOff eX
    xStr := s.eReg (eX + 1)
    yBase := s.eOff dst
    yStr := s.eReg (dst + 1)
    stages := stages
    fin := if IF then fp32 else bf16
    mid := if P then fp32 else bf16
    fout := if OF then fp32 else bf16
    acc := if D then some dst else none }

/-- The width n (R300). -/
def Bfly.n (o : Bfly) : Nat := 2 ^ o.L
/-- Bytes of a row of X. -/
def Bfly.xLen (o : Bfly) : Nat := o.n * (o.fin.width / 8)
/-- Bytes of a row of Y. -/
def Bfly.yLen (o : Bfly) : Nat := o.n * (o.fout.width / 8)
/-- The accesses to the rows of X, line by line. -/
def Bfly.xParts (o : Bfly) : List Access := (List.range o.rows).flatMap (fun i => partsFrom (o.xBase + i * o.xStr) o.xLen)
/-- The accesses to the weights of a stage. -/
def Bfly.wParts (o : Bfly) (t : Nat × Nat) : List Access := partsFrom t.2 (4 * o.n)
/-- The accesses to the rows of Y. -/
def Bfly.yParts (o : Bfly) : List Access :=
  if o.acc.isSome then [] else (List.range o.rows).flatMap (fun i => partsFrom (o.yBase + i * o.yStr) o.yLen true)
/-- The reads of a step. -/
def Bfly.reads (o : Bfly) : List Access := o.xParts ++ o.stages.flatMap o.wParts
/-- The checks of a step, in the order of R302. -/
def State.bflyCheck (s : State) (o : Bfly) : Check :=
  ((s.rowParts o.xBase o.xStr o.xParts).andThen
    (checkSeq (o.stages.map (fun t => s.rowParts t.2 0 (o.wParts t))))).andThen
    (s.rowParts o.yBase o.yStr o.yParts)

/-- Weight `q` of block `p` of a stage (R296). -/
def State.weight (s : State) (woff p q : Nat) : Num := bf16.decode (s.load (nearKey s.cur (woff + 8 * p + 2 * q)) 2)
/-- Element `k` of a stage's output (R300); `x` holds the stage's input. -/
def State.bflyElem (s : State) (t : Nat × Nat) (F : FFmt) (x : List Num) (k : Nat) : Nat :=
  let lo := if bitN k t.1 then k - 2 ^ t.1 else k
  let p := lo / 2 ^ (t.1 + 1) * 2 ^ t.1 + lo % 2 ^ t.1
  let q := if bitN k t.1 then 2 else 0
  let a := x.getD lo .nan
  let b := x.getD (lo + 2 ^ t.1) .nan
  F.rne (((s.weight t.2 p q).mul a).add ((s.weight t.2 p (q + 1)).mul b))
/-- The stages of a row: codes of the last stage's format (R300). `s` is the state in which the weights are read. -/
def State.bflyRow (s : State) (o : Bfly) (x : List Num) : List (Nat × Nat) → List Nat
  | [] => []
  | [t] => (List.range o.n).map (s.bflyElem t o.fout x)
  | t :: r => s.bflyRow o ((List.range o.n).map (fun k => o.mid.decode (s.bflyElem t o.mid x k))) r
/-- Write the output of row `i` (R300 to R302). -/
def State.bflyPut (s : State) (o : Bfly) (i : Nat) (y : List Nat) : State :=
  match o.acc with
  | some a => s.modMat (fun m => { m with
      acc := (y.mapIdx (fun k v => (k, v))).foldl (fun b v => FMap.set b (accKey (m.tileOf a) i v.1) (BitVec.ofNat 32 v.2)) m.acc })
  | none =>
    let off := o.yBase + i * o.yStr
    let s1 := s.store (nearKey s.cur off) o.yLen (packElems o.fout.width y)
    let d : BitVec 16 := if o.fout = fp32 then 0x2010 else 0x2012
    (List.range (o.yLen / 64)).foldl (fun s k => s.setDesc (nearKey s.cur (off + 64 * k)) d) s1
/-- Rows `i` on, `n` of them; the weights are those of `w` (R301). -/
def State.bflyRows (s w : State) (o : Bfly) (i : Nat) : Nat → State
  | 0 => s
  | n + 1 =>
    let v := s.load (nearKey s.cur (o.xBase + i * o.xStr)) o.xLen
    let x := (List.range o.n).map (fun k => o.fin.decode (elemOf v o.fin.width k))
    (s.bflyPut o i (w.bflyRow o x o.stages)).bflyRows w o (i + 1) n

/-- A butterfly step (R298 to R303). -/
def State.bfly (s : State) (chain : Bool) (eX dst : BitVec 5) (L c : BitVec 4) (P D IF OF : BitVec 1) : State :=
  match s.bflyOp chain eX.toNat dst.toNat L.toNat c.toNat (P = 1) (D = 1) (IF = 1) (OF = 1) with
  | none => s.stepIllegal
  | some o =>
    if o.rows = 0 then s.stepDone 1
    else if o.acc.any (fun a => s.here.mat.ty.getLsbD a) then s.after (.fault 0x14 (s.xeWord eX.toNat)) id
    else
      s.afterDrains (fun d => o.acc.any (fun a => decide (d.phys = s.here.mat.tileOf a))
          || o.reads.any (fun a => d.lines.contains a.off.toNat)) <|
        s.after (s.bflyCheck o) fun s =>
          let s := s.touchAll (o.reads ++ o.yParts)
          (s.bflyRows s o 0 o.rows).stepDone (o.stages.length * max 1 ((o.rows * o.n + 2047) / 2048))

/-- BFS: R298, R300. -/
def execBfs (eX dst : BitVec 5) (L c : BitVec 4) (P D IF OF : BitVec 1) (s : State) : Res :=
  .next (s.bfly false eX dst L c P D IF OF)
/-- BFC: R298, R300. -/
def execBfc (eX dst : BitVec 5) (L c : BitVec 4) (P D IF OF : BitVec 1) (s : State) : Res :=
  .next (s.bfly true eX dst L c P D IF OF)

end Sys2Proof.Machine
end

