-- ==== Sys2Proof/Machine/Caps.lean ====
section
/-! DEFINITION. Capabilities, buffers and publication (R117 to R119, R242, R243, R260 to R266, R272, R273). -/

namespace Sys2Proof.Machine

/-- The check of a slot that an instruction uses: empty, stale, or without a right (R117, R118). -/
def State.slotUse (s : State) (c : BitVec 6) (right : Option Nat) : Option Nat :=
  let h := s.here.cap c.toNat
  if h = 0 then some 0x08
  else if !s.fresh? s.here.ctx h then some 0x0B
  else match right with
    | some r => if hasRight h r then none else some 0x09
    | none => none
/-- Trap with a slot number (R118), or go on. -/
def State.withSlot (s : State) (c : BitVec 6) (right : Option Nat) (f : State) : State :=
  match s.slotUse c right with
  | some k => s.trap k (c.setWidth 64)
  | none => f
/-- Change the node that the current tile runs. -/
def State.modTask (s : State) (f : Node → Node) : State :=
  match s.here.task with
  | some n => s.modNode n f
  | none => s

/-- CAPQ: R118. -/
def execCapq (d : BitVec 5) (c : BitVec 6) (s : State) : Res := .next (s.retire d (s.here.cap c.toNat))
/-- CAPDUP: R118, R265. -/
def execCapdup (c c2 : BitVec 6) (s : State) : Res :=
  .next (s.withSlot c2 (some 4) (
    let h := s.here.cap c2.toNat
    let old := s.here.cap c.toNat
    let a := accOf h
    if c = c2 then s.nextPc
    else if 2 ^ 32 - 1 ≤ (s.buf a).count - (if old ≠ 0 ∧ accOf old = a then 1 else 0) then s.trap 0x0A (c2.setWidth 64)
    else
      let s1 := (s.setHere (s.here.setCap c.toNat 0)).dropRefs [old]
      ((s1.setHere (s1.here.setCap c.toNat h)).modBuf a (fun b => { b with count := b.count + 1 })).nextPc))
/-- CAPDROP: R118. -/
def execCapdrop (c : BitVec 6) (s : State) : Res :=
  let h := s.here.cap c.toNat
  .next (s.withSlot c none ((s.setHere (s.here.setCap c.toNat 0).adv).dropRef (accOf h)))

/-! ### capnew (R118, R243, R375) -/

/-- The live capnew buffers of a context: base and bytes of their virtual ranges. -/
def State.arenaUse (s : State) (c : Nat) : List (Nat × Nat) :=
  (s.bufs.filter (fun b => b.2.live && decide (b.2.ctx = c ∧ b.2.origin = 0))).map (fun b => (b.2.vbase, b.2.pages * 0x10000))
/-- A free place of `n` bytes in the arena, by two free values (log 2): behind which range it lies, and how far. -/
def State.arenaPlace (s : State) (c n : Nat) : Option (State × Nat) :=
  let r := ((s.ctxAt c).iodReg 0x068).toNat
  let lsz := r % 64
  if lsz < 16 ∨ 54 < lsz then none
  else
    let lo := r / 2 ^ 16 % 2 ^ 39 * 2 ^ 16
    let used := s.arenaUse c
    let room := fun (p : Nat) => used.foldl (fun e u => if p ≤ u.1 ∧ u.1 < e then u.1 else e) (lo + 2 ^ lsz) - p
    let starts := (lo :: used.map (fun u => u.1 + u.2)).filter
      (fun p => decide (lo ≤ p ∧ p < lo + 2 ^ lsz ∧ n ≤ room p) && used.all (fun u => !decide (u.1 ≤ p ∧ p < u.1 + u.2)))
    if starts.isEmpty then none
    else
      let p := starts.getD (s.pick % starts.length) lo
      some (s.picked.picked, p + s.picked.pick % ((room p - n) / 2 ^ 16 + 1) * 2 ^ 16)
/-- A free accession number (R243, R266): one whose GEN has not run out and whose replaced frames have all been released. -/
def State.freeAcc (s : State) : Option Nat :=
  firstFree (fun a => !(s.buf a).live && decide ((s.buf a).gen < 2 ^ 16) && (s.buf a).old.isEmpty) 1 (2 ^ 32 - 1) s.pick (s.bufs.length + 1)
/-- Give `n` pages from `vpn` fresh frames of zeros and write their leaves (R14, R243). -/
def State.mapPages (s : State) (c key vpn : Nat) : Nat → Option State
  | 0 => some s
  | n + 1 =>
    match s.leafSlot c vpn, s.takeFrame c with
    | some k, some (s, f) => (((s.keyFrame f key).clearMem (farKey 0 f) 0x10000).store k 8 (f + key * 256 + 27)).mapPages c key (vpn + 1) n
    | _, _ => none
/-- CAPNEW: R118, R243; the size is judged before an occupied slot (DEDUCED, log 15). SIZE is s[b] itself, and only the pages are
rounded up to 64 KiB: an offset between the two is outside the buffer (DESIGN CHOICE, log 98). -/
def execCapnew (d : BitVec 5) (c : BitVec 6) (b : BitVec 5) (s : State) : Res :=
  let size := (s.here.rd b).toNat
  let ctx := s.here.ctx
  let fail := s.retire d 1
  .next (if size = 0 ∨ 2 ^ 40 < size then s.trap 0x0A (c.setWidth 64)
    else if s.here.cap c.toNat ≠ 0 then s.trap 0x09 (c.setWidth 64)
    else
      let n := (size + 0xFFFF) / 0x10000
      match s.freeAcc with
      | none => fail
      | some a =>
        match s.picked.arenaPlace ctx (n * 0x10000) with
        | none => fail
        | some (s1, v) =>
          match s1.mapPages ctx (((s.ctxAt ctx).iodReg 0x070).toNat / 256 % 256) (v / 2 ^ 16) n with
          | none => fail
          | some s2 =>
            let gen := (s.buf a).gen
            let s3 := s2.setBuf a { gen := gen, vgen := (s.buf a).vgen, live := true, ctx := ctx, size := size, vbase := v, count := 1 }
            (s3.setHere (s3.here.setCap c.toNat (handleOf a gen 63))).retire d 0)

/-! ### Rights and transit (R118, R334) -/

/-- CAPNRW: R118, R263. -/
def execCapnrw (c : BitVec 6) (b : BitVec 5) (s : State) : Res :=
  let h := s.here.cap c.toNat
  let r := h.toNat / 2 ^ 48 &&& (s.here.rd b).toNat % 256
  .next (s.withSlot c (some 5)
    ((s.setHere (s.here.setCap c.toNat (handleOf (accOf h) (genOf h) r)).adv).settle (accOf h)))
/-- CAPXFER: R118, R144, R334. -/
def execCapxfer (d : BitVec 5) (c : BitVec 6) (s : State) : Res :=
  let h := s.here.cap c.toNat
  .next (s.withSlot c (some 3)
    ((((s.modCtx s.here.ctx (fun x => { x with transit := h :: x.transit })).modTask
      (fun n => { n with xfers := h :: n.xfers })).setHere (s.here.setCap c.toNat 0)).retire d h))
/-- A transit of handle `h` in context `c` is redeemed: it leaves the set, and the attempt that created it, if it is of one,
may not restart (R144, R334). -/
def State.redeem (s : State) (c : Nat) (h : Word) : State :=
  let s := s.modCtx c (fun x => { x with transit := removeOne h x.transit })
  match s.nodes.find? (fun n => n.2.xfers.contains h) with
  | some n => s.modNode n.1 (fun x => { x with xfers := removeOne h x.xfers, noRestart := true })
  | none => s
/-- CAPRT: R118, R334. -/
def execCaprt (c : BitVec 6) (b : BitVec 5) (s : State) : Res :=
  let h := s.here.rd b
  let ctx := s.here.ctx
  .next (if s.here.cap c.toNat ≠ 0 then s.trap 0x09 (c.setWidth 64)
    else if !s.fresh? ctx h ∨ !(s.ctxAt ctx).transit.contains h then s.trap 0x0B (c.setWidth 64)
    else ((s.redeem ctx h).setHere (s.here.setCap c.toNat h)).nextPc)

/-! ### Publication (R119, R157, R260 to R262, R272, R273) -/

/-- Mark the commands of a tile that write buffer `a` as awaited by its cappub (R119). -/
def Tile.await (x : Tile) (a : Nat) : Tile :=
  let mark := fun (g : CmdEngine) => { g with
    cmds := g.cmds.map (fun c => if c.writes a then { c with awaited := a :: c.awaited } else c) }
  { x with ce := mark x.ce, ie := mark x.ie }
/-- The wait of a cappub begins: the commands accepted so far that write the buffer are awaited. -/
def State.beginSwap (s : State) (a : Nat) : State :=
  let s := s.modBuf a (fun b => { b with swapping := some s.cur, binds := b.binds.map (fun y => { y with awaited := y.writes }) })
  let nodes := s.nodes.map (fun n => (n.1, { n.2 with saves := n.2.saves.map (fun x => (x.1, x.2.await a)) }))
  { s with tiles := s.tiles.map (fun t => (t.1, t.2.await a)), nodes := nodes }
/-- CAPPUB: asks for the swap, once no other waits on the buffer, and retires when it has been performed (R119, R157);
nothing interrupts it (R92). -/
def execCappub (c : BitVec 6) (s : State) : Res :=
  let a := accOf (s.here.cap c.toNat)
  let wait := fun (s : State) => s.setHere { s.here with sent := true }
  .next (if s.here.ret.isSome then (s.setHere { s.here with ret := none, sent := false }).nextPc
    else if s.here.sent then (if (s.buf a).swapping.isNone then s.beginSwap a else s)
    else s.withSlot c (some 2)
      (let s1 := wait (s.modTask (fun n => { n with noRestart := true }))
       if (s1.buf a).swapping.isNone then s1.beginSwap a else s1))

/-- FRAME_RELEASE: the replaced frames of buffer arg.n that no command still reads are released (R261). -/
def execFrameRelease (s : State) : Res := .next (s.releaseOld s.arg.n)

/-- Lexicographic order of two keys. -/
def keyLe : List Nat → List Nat → Bool
  | [], _ => true
  | _ :: _, [] => false
  | a :: s, b :: t => decide (a < b) || (decide (a = b) && keyLe s t)
/-- Insert a staged update in the order of R272. -/
def insertStaged (u : Staged) : List Staged → List Staged
  | [] => [u]
  | h :: t => if keyLe h.key u.key then h :: insertStaged u t else u :: h :: t
/-- Apply one staged update to the shadow of its page (R202, R272); none when a shadow is wanted and cannot be had. -/
def State.applyStaged (s : State) (c a : Nat) (u : Staged) : Option State :=
  match s.shadowFor (dieHolder u.page) c a u.page with
  | .ok s f =>
    match addFmt (BitVec.ofNat 16 (0x2000 + u.fmt)) with
    | some g =>
      let k := farKey 0 f + u.off
      some (s.store k (g.width / 8) (addElem g (s.load k (g.width / 8)) u.val.toNat))
    | none => some s
  | _ => none
/-- Apply staged updates in order. -/
def State.applyAll (s : State) (c a : Nat) : List Staged → Option State
  | [] => some s
  | u :: t => match s.applyStaged c a u with
    | some s => s.applyAll c a t
    | none => none
/-- Install the shadow frames in the leaves (R260 step 2); none while a leaf has WB set (R262) or its table is not there. -/
def State.installShadows (s : State) (c a : Nat) : List (Nat × Nat) → Option State
  | [] => some s
  | (vpn, f) :: t =>
    match s.leafSlot c vpn with
    | none => none
    | some k =>
      let e := s.load k 8
      if bitN e 2 then none
      else
        let o : OldLeaf := { vgen := (s.buf a).vgen, vpn := vpn, pte := BitVec.ofNat 64 e, large := false }
        -- V, W and KEY as before; D and A set; tier 0, WB and LARGE clear
        let e' := f + e / 256 % 256 * 256 + 24 + e % 4
        ((s.store k 8 e').modBuf a (fun b => { b with old := b.old ++ [o] })).installShadows c a t
/-- The swap of buffer `a` (R157, R260). -/
def State.swap (s : State) (a : Nat) : Option State :=
  let c := (s.buf a).ctx
  match s.applyAll c a (((s.buf a).staged).foldl (fun l u => insertStaged u l) []) with
  | none => none
  | some s => match s.installShadows c a (s.buf a).shadow with
    | none => none
    | some s =>
      let s := s.freeFrames c ((s.buf a).stage.map (·.2))
      let s := (s.forgetWrites a).modBuf a (fun b => { b with shadow := [], staged := [], stage := [], vgen := b.vgen + 1, swapping := none })
      some { s with nodes := s.nodes.map (fun n =>
        if (n.2.snapshot.getD []).any (fun h => decide (accOf h = a)) then (n.1, { n.2 with noRestart := true }) else n) }
/-- A swap that cannot be performed asks for the translation of a page with staged updates that has no shadow and none. -/
def State.askSwap (s : State) (a : Nat) : State :=
  let b := s.buf a
  match b.staged.find? (fun u => (FMap.get? b.shadow u.page).isNone && (s.held? (dieHolder u.page) b.ctx u.page b.vgen).isNone) with
  | some u => s.askWalk (dieHolder u.page) b.ctx u.page true false
  | none => s
/-- PAGE_SWAP: the swap that a cappub of buffer arg.n waits for, once every awaited command has ended (R119, R260, R262); the
frames it frees at once are released before the cappub retires (R335). -/
def execPageSwap (s : State) : Res :=
  let a := s.arg.n
  .next (match (s.buf a).swapping with
    | none => s
    | some t =>
      if s.allCmds.any (fun c => c.awaited.contains a) || (s.buf a).binds.any (·.awaited) then s
      else match s.swap a with
        | none => s.askSwap a
        | some s => (s.releaseOld a).modTile t (fun x => { x with ret := some 0 }))

end Sys2Proof.Machine
end

