-- ==== Sys2Proof/Machine/Control.lean ====
section
/-! DEFINITION. Branches and jumps (R72, R73). -/

namespace Sys2Proof.Machine

/-- The target of a displacement of words (R30, R72). -/
def dispTarget (pc : Word) {n : Nat} (disp : BitVec n) : Word := pc + (disp.signExtend 64 <<< 2)
/-- A transfer to `target` once the tile is as `f` leaves it; a target that fails R30 is refused with no effect (R73). -/
def jumpTo (s : State) (target : Word) (f : Tile → Tile) : State :=
  if pcOk target then s.setHere { f s.here with pc := target } else s.trap 0x04 target
/-- BR: taken when p holds (R72). -/
def execBr (p : BitVec 3) (disp : BitVec 22) (s : State) : Res :=
  .next (if s.here.rdP p then jumpTo s (dispTarget s.here.pc disp) id else s.nextPc)
/-- BR_F: taken when p does not hold (R72). -/
def execBrF (p : BitVec 3) (disp : BitVec 22) (s : State) : Res :=
  .next (if s.here.rdP p then s.nextPc else jumpTo s (dispTarget s.here.pc disp) id)
/-- J: R72. -/
def execJ (disp : BitVec 26) (s : State) : Res := .next (jumpTo s (dispTarget s.here.pc disp) id)
/-- JAL: s1 := PC + 4 (R72). -/
def execJal (disp : BitVec 26) (s : State) : Res :=
  .next (jumpTo s (dispTarget s.here.pc disp) (fun x => x.wr 1 (x.pc + 4)))
/-- JR: R72. -/
def execJr (a : BitVec 5) (s : State) : Res := .next (jumpTo s (s.here.rd a) id)
/-- JALR: the target is read before d is written (R72). -/
def execJalr (d a : BitVec 5) (s : State) : Res := .next (jumpTo s (s.here.rd a) (fun x => x.wr d (x.pc + 4)))
/-- BDEC: decrement with wrap-around, branch while not zero (R72). -/
def execBdec (a : BitVec 5) (disp : BitVec 21) (s : State) : Res :=
  let v := s.here.rd a - 1
  .next (if v = 0 then s.retire a v else jumpTo s (dispTarget s.here.pc disp) (fun x => x.wr a v))

end Sys2Proof.Machine
end

