-- ==== Sys2Proof/Machine/Controls.lean ====
section
/-! DEFINITION. The common controls of the step-table engines and their hardware loops (R49, R229 to R234). -/

namespace Sys2Proof.Machine

/-- The table word of step `k` of the running entry; a word outside the scratchpad reads as no instruction (0). -/
def State.stepWord (s : State) (t : Nat) (r : Running) (k : Nat) : Nat :=
  if Config.scratchEnd < r.base + 4 * k + 4 then 0 else s.load (nearKey t (r.base + 4 * k)) 4
/-- The stage predicates of pass `k` of a loopp with S stages and trip count N (R232). -/
def stageBits (S N k : Nat) : BitVec 8 :=
  BitVec.ofNat 8 (packElems 1 ((List.range 8).map (fun i => if i < S ∧ i ≤ k ∧ k < N + i then 1 else 0)))
/-- The loop of which the step lies in the body, when it is a loopp whose stage for this step is false (R232). -/
def Engine.skips (g : Engine) (r : Running) : Bool :=
  match r.loops.head? with
  | some l => l.piped && decide (l.p < r.step ∧ r.step < l.c)
      && !g.q.getLsbD ((r.step - l.p - 1) / ((l.c - l.p - 1) / l.stages))
  | none => false

/-- e0 in eaddi and emovi names the loop counter in imm19[18:17] (R229). -/
def State.lcStep (s : State) (imm : BitVec 19) (f : Engine → BitVec 24 → BitVec 24) : State :=
  let n := imm.toNat / 2 ^ 17
  (s.modEng (fun g => { g with lc := FMap.set g.lc n (f g (Bank.get g.lc n)) })).stepDone 1
/-- EADDI: R229. -/
def execEaddi (e : BitVec 5) (imm : BitVec 19) (s : State) : Res :=
  .next (if e = 0 then s.lcStep imm (fun _ v => v + (imm.setWidth 17).signExtend 24)
    else s.eStep e ((s.here.engine s.eng).rdE e + imm.signExtend 64) 1)
/-- EMOVI: R229. -/
def execEmovi (e : BitVec 5) (imm : BitVec 19) (s : State) : Res :=
  .next (if e = 0 then
      s.lcStep imm (fun g _ => if imm.getLsbD 16 then (g.rdE (imm.setWidth 5)).setWidth 24 else (imm.setWidth 16).setWidth 24)
    else s.eStep e (imm.signExtend 64) 1)
/-- KBASE: R229, R49. KB belongs to the VE; on a class engine, which has none, nothing changes. -/
def execKbase (k : BitVec 8) (s : State) : Res :=
  .next ((match s.eng with
    | .ve => s.modVec (fun x => { x with kb := k })
    | .xe => s).stepDone 1)

/-- The first landing line among the table words of steps `p + 1` to `c` of the running entry, as far as its window and the scratchpad
go (R154). -/
def State.loopLanding (s : State) (r : Running) (p c : Nat) : Option Nat :=
  (List.range (min c (r.wend - 1) - p)).findSome? fun i =>
    let off := r.base + 4 * (p + 1 + i)
    if off + 4 ≤ Config.scratchEnd ∧ s.unitLanding s.cur (off / 64) r.entry.no then some (off / 64) else none
/-- Entry to a loop or loopp at the running step (R230): it reads the table words of its body and of its closing step, and waits while
one lies in a landing line, or misses when it is stamped (R154). -/
def State.enterLoop (s : State) (lc body stages : Nat) (piped : Bool) : State :=
  let g := s.here.engine s.eng
  match g.run with
  | none => s
  | some r =>
    let p := r.step
    let c := p + body
    let word := s.stepWord s.cur r
    match s.loopLanding r p (if piped then c else min c r.wend) with
    | some line => if s.stamped then s.stepFault 0x11 (s.ownAddr (64 * line : Nat)) else s
    | none =>
    let bad := decide (r.wend ≤ c) || decide (word c ≠ 0x52000000) || decide (4 ≤ r.loops.length)
      || r.loops.any (fun l => decide (l.lc = lc))
      || (match r.loops.head? with | some l => decide (l.c ≤ c) | none => false)
      || (piped && (r.loops.any (·.piped) || decide ((body - 1) % stages ≠ 0) || decide (body - 1 < stages)
        || (List.range (body - 1)).any (fun j => decide (word (p + 1 + j) / 2 ^ 24 = 0x50 ∨ word (p + 1 + j) / 2 ^ 24 = 0x51))))
    if bad then s.stepFault 0x13 (BitVec.ofNat 64 p)
    else
      let N := (Bank.get g.lc lc).toNat
      if N = 0 then s.stepTo (fun r => r.goto (c + 1) 1)
      else
        let l : Loop := { p := p, c := c, k := 0, passes := if piped then N + stages - 1 else N, trip := N, stages := stages, lc := lc, piped := piped }
        let s := s.modEng (fun g => if piped then { g with q := stageBits stages N 0 } else g)
        s.stepTo (fun r => { r.goto (p + 1) 1 with loops := l :: r.loops })
/-- LOOP: R230. -/
def execLoop (lc : BitVec 2) (body : BitVec 10) (s : State) : Res := .next (s.enterLoop lc.toNat body.toNat 1 false)
/-- LOOPP: R230, R232. -/
def execLoopp (lc : BitVec 2) (body : BitVec 10) (stages : BitVec 4) (s : State) : Res :=
  .next (s.enterLoop lc.toNat body.toNat stages.toNat true)

/-- The VE's rotating base moves; a class engine has none (R229, R233). -/
def State.rotate (s : State) : State :=
  match s.eng with
  | .ve => s.modVec (fun x => { x with rrb := (x.rrb + 15) % 16 })
  | .xe => s
/-- ENDL: R231 to R233. -/
def execEndl (s : State) : Res :=
  .next (match (s.here.engine s.eng).run with
    | none => s
    | some r => match r.loops with
      | [] => s.stepFault 0x13 (BitVec.ofNat 64 r.step)
      | l :: rest =>
        if l.c ≠ r.step then s.stepFault 0x13 (BitVec.ofNat 64 r.step)
        else
          let k := l.k + 1
          let s := if l.piped then s.rotate else s
          let more := decide (k < l.passes)
          let s := s.modEng (fun g => if l.piped then { g with q := if more then stageBits l.stages l.trip k else 0 } else g)
          s.stepTo (fun r =>
            if more then { r.goto (l.p + 1) 1 with loops := { l with k := k } :: rest }
            else { r.goto (r.step + 1) 1 with loops := rest }))
/-- SSTOP: the entry ends with normal completion (R229, R95, R234). -/
def execSstop (s : State) : Res :=
  .next (s.stepTo (fun r => { r with ended := some (0, r.step + 1), loops := [] }))
/-- SNOP: R229. -/
def execSnop (s : State) : Res := .next (s.stepDone 1)

end Sys2Proof.Machine
end

