-- ==== Sys2Proof/Machine/Sync.lean ====
section
/-! DEFINITION. Phases, barriers and fences (R86 to R91, R158, R159). -/

namespace Sys2Proof.Machine

/-- Two physical tiles lie in one unit of a scope (R9, R86): 0 the tile, 1 its quad, 2 and above its die, package or pod;
a gang lies on one die. -/
def sameUnit (scope t u : Nat) : Bool :=
  if scope = 0 then decide (t = u) else if scope = 1 then decide (t / 4 = u / 4)
  else if scope = 2 then decide (dieOf t = dieOf u) else true

/-- The phase group of tile `t` at a scope (R86). -/
def State.group (s : State) (t scope : Nat) : List (Nat × Tile) :=
  match (s.tile t).task with
  | some n => (s.members n).filter (fun m => sameUnit scope t m.1)
  | none => []

/-- A member's oldest outstanding arrival at a scope: its kind, and the number of the tile's next packet when it arrived. -/
def Tile.arrivalOf (x : Tile) (scope : Nat) : Option (SyncKind × Nat) :=
  (x.out.find? (fun o => decide (o.1 = scope))).map (·.2)
/-- The kind of a member's oldest outstanding arrival at a scope. -/
def Tile.arrival (x : Tile) (scope : Nat) : Option SyncKind := (x.arrivalOf scope).map (·.1)
/-- The accesses that step 1 of an instance covers: exposed ones and atomics that the member on tile `t` issued before its
arrival (R88, R89); an ld is not exposed. -/
def State.covered (s : State) (t scope : Nat) : List Packet :=
  match (s.tile t).arrivalOf scope with
  | some a => (s.accesses t).filter (fun p => !p.plain && decide (p.txid < a.2))
  | none => []

/-- The commit of a granule of tile `u` may take place: its window is not saved or held, its line is not landing and its bank is
granted (R80, R349, R370). -/
def State.commitReady (s : State) (u c g : Nat) : Bool :=
  match s.findNear c (BitVec.ofNat 64 (32 * g)) with
  | .ok t off => !s.stalls t (rankAt u t) off 32
  | .wait => false
  | .bad _ => true

/-- Every member has arrived, its earlier accesses and its commit can be performed, and no debugger holds the context (R80,
R88, R159). -/
def State.barrierReady (s : State) (t scope : Nat) : Bool :=
  let g := s.group t scope
  !g.isEmpty && !s.heldCtx (s.tile t).ctx && g.all fun m =>
    m.2.fin || ((m.2.arrival scope).isSome
      && (s.covered m.1 scope).all s.packetReady
      && (m.2.arrival scope != some .phase || (granulesOf m.2.psb).all (s.commitReady m.1 m.2.ctx)))

/-- Perform the covered accesses of a tile in order (R88 step 1). -/
def State.performCovered (s : State) (t scope : Nat) : State :=
  let l := s.covered t scope
  l.foldl performAccess { s with net := s.net.filter (fun p => !(decide (p.kind < 2 ∧ p.src = t) && l.any (fun q => decide (q.txid = p.txid)))) }

/-- Commit buffered bytes of tile `u` to their homes, whose banks they take; a byte in a virtual tile that no live task holds is
dropped (R88 step 2, R349). -/
def State.commitBytes (s : State) (u c : Nat) : List (Nat × Byte) → State
  | [] => s
  | (a, b) :: r =>
    (match s.findNear c (BitVec.ofNat 64 a) with
      | .ok t off => { s with mem := Mem.set s.mem (nearKey t off) b }.touch t (rankAt u t) off 1
      | _ => s).commitBytes u c r

/-- Commit the phase store buffer of tile `t` and empty it (R88 step 2). -/
def State.commitPsb (s : State) (t : Nat) : State :=
  let x := s.tile t
  (s.commitBytes t x.ctx x.psb).modTile t (fun x => { x with psb := [] })
/-- Commit granule `g` of tile `t`'s phase store buffer, which loses it (R88 step 2). -/
def State.commitGranule (s : State) (t g : Nat) : State :=
  let x := s.tile t
  (s.commitBytes t x.ctx (x.psb.filter (fun b => decide (b.1 / 32 = g)))).modTile t
    (fun x => { x with psb := x.psb.filter (fun b => decide (b.1 / 32 ≠ g)) })

/-- Drop a member's oldest arrival at a scope. -/
def dropArrival (scope : Nat) : List (Nat × SyncKind × Nat) → List (Nat × SyncKind × Nat)
  | [] => []
  | o :: r => if o.1 = scope then r else o :: dropArrival scope r

/-- A member at the completion of an instance: a member that waits by phase or bar is resumed (R88 step 3). -/
def Tile.resume (x : Tile) (scope : Nat) : Tile :=
  let k := x.arrival scope
  let x := { x with out := dropArrival scope x.out, comp := FMap.set x.comp scope (FMap.getD 0 x.comp scope + 1) }
  if (k = some .phase ∨ k = some .bar) ∧ x.wait = some scope then { x with wait := none }.adv else x

/-- Put members in ascending rank (R88). -/
def insertRank (m : Nat × Tile) : List (Nat × Tile) → List (Nat × Tile)
  | [] => [m]
  | h :: r => if m.2.rank.ult h.2.rank then m :: h :: r else h :: insertRank m r

/-- Complete the barrier instance of tile `t`'s phase group at a scope, when it is ready (R88). -/
def State.completeBarrier (s : State) (t scope : Nat) : State :=
  if s.barrierReady t scope then
    let g := ((s.group t scope).foldr insertRank []).filter (fun m => !m.2.fin)
    let s := g.foldl (fun s m => s.performCovered m.1 scope) s
    let s := (g.filter (fun m => m.2.arrival scope = some .phase)).foldl (fun s m => s.commitPsb m.1) s
    g.foldl (fun s m => s.modTile m.1 (fun x => x.resume scope)) s
  else s

/-- Part of the instance takes place before the rest (R88, R149): the accesses that it covers, and then granule `g` of the commit of the
first member, by rank, that still has something to commit. -/
def State.stepBarrier (s : State) (t scope g : Nat) : State :=
  if s.barrierReady t scope then
    let l := ((s.group t scope).foldr insertRank []).filter (fun m => !m.2.fin)
    let s := l.foldl (fun s m => s.performCovered m.1 scope) s
    match l.find? (fun m => decide (m.2.arrival scope = some .phase) && !(s.tile m.1).psb.isEmpty) with
    | some m => s.commitGranule m.1 g
    | none => s
  else s

/-- A tile's arrival at a scope (R87). -/
def Tile.arrive (x : Tile) (scope : Nat) (k : SyncKind) : Tile :=
  { x with
    arr := FMap.set x.arr scope (FMap.getD 0 x.arr scope + 1)
    out := x.out ++ [(scope, k, x.nextTx)]
    wait := match k with | .bara => x.wait | _ => some scope }

/-- A bara of the tile is outstanding at a scope (R89). -/
def Tile.baraOut (x : Tile) (scope : Nat) : Bool := x.out.any (fun o => decide (o.1 = scope ∧ o.2.1 = SyncKind.bara))

/-- An instance that has all of its arrivals completes in the turn of the last of them, or after it (log 71). -/
def State.arrived (s : State) (scope : Nat) : State := if s.late then s else s.completeBarrier s.cur scope
/-- phase and bar: arrive and wait for completion (R88, R89). -/
def arriveAndWait (s : State) (scope : Nat) (k : SyncKind) : State :=
  if s.here.wait.isSome then s else (s.setHere (s.here.arrive scope k)).arrived scope

/-- PHASE: R88, R89. -/
def execPhase (scope : BitVec 4) (s : State) : Res := .next (arriveAndWait s scope.toNat .phase)
/-- BAR: R88, R89. -/
def execBar (scope : BitVec 4) (s : State) : Res := .next (arriveAndWait s scope.toNat .bar)
/-- A tile that waits at a barw, or at a bara that has to wait, for its outstanding bara at a scope: it takes no delivery
(R91, R92); such a wait is kept as 8 and the scope. -/
def Tile.baraWait (x : Tile) (scope : Nat) : Tile := { x with wait := some (8 + scope) }
/-- BARA: waits while a bara is outstanding at the scope, then arrives and goes on (R89). -/
def execBara (scope : BitVec 4) (s : State) : Res :=
  let k := scope.toNat
  .next (if s.here.baraOut k then s.setHere (s.here.baraWait k)
    else (s.setHere ({ s.here with wait := none }.arrive k .bara).adv).arrived k)
/-- BARW: R89. -/
def execBarw (scope : BitVec 4) (s : State) : Res :=
  .next (if s.here.baraOut scope.toNat then s.setHere (s.here.baraWait scope.toNat)
    else s.setHere { s.here with wait := none }.adv)
/-- FENCE: waits until every earlier access homed in the unit of the scope is performed, and every earlier read of it has
returned (R90). -/
def execFence (scope : BitVec 4) (s : State) : Res :=
  .next (if (s.accesses s.cur).any (fun p => sameUnit scope.toNat s.cur p.dst)
      || s.here.reads.any (fun r => sameUnit scope.toNat s.cur r.home) then s else s.nextPc)

/-- BARRIER_COMPLETION: the instance of the current tile's phase group at scope arg.n completes, if it is ready (R88); where arg.point
names a granule, the part of it with that granule's commit takes place first (R149; log 71). -/
def execBarrierCompletion (s : State) : Res :=
  .next (match s.arg.point with
    | none => s.completeBarrier s.cur s.arg.n
    | some g => s.stepBarrier s.cur s.arg.n g)
/-- BARRIER_MESSAGE: the barrier packet at place arg.n of the net reaches its destination and is consumed; arrivals are
counted where they are made (R87). -/
def execBarrierMessage (s : State) : Res :=
  .next (match s.arrivedAt s.arg.n 9 with
    | none => s
    | some _ => s.dropPacket s.arg.n)

end Sys2Proof.Machine
end

