-- ==== Sys2Proof/Machine/System.lean ====
section
/-! DEFINITION. The sequencer's tokens, replies, windows, queues, time and system instructions, and the events about one tile
(R14, R55, R102, R104 to R109, R121, R350, R361 to R363). -/

namespace Sys2Proof.Machine

/-! ### In-use windows (R102) -/

/-- HOLD: R102. -/
def execHold (a b : BitVec 5) (w : BitVec 3) (s : State) : Res :=
  let va := s.here.rd a
  let vb := (s.here.rd b).toNat
  .next (match s.ownNear s.cur va 32 with
    | .error k => s.trap k va
    | .ok off =>
      if vb % 32 ≠ 0 then s.trap 0x02 va
      else if vb = 0 ∨ Config.scratchEnd < off + vb then s.trap 0x03 va
      else (s.setHere { s.here with win := FMap.set s.here.win w.toNat { base := off, len := vb, inUse := true } }).nextPc)
/-- FREE: R102. -/
def execFree (w : BitVec 3) (s : State) : Res :=
  .next ((s.setHere { s.here with
    win := FMap.set s.here.win w.toNat { FMap.getD {} s.here.win w.toNat with inUse := false } }).nextPc)

/-! ### Tokens (R104, R343, R345) -/

/-- TKPUSH: waits for the tile's earlier accesses to be performed and for room (R104, R343, R345). -/
def execTkpush (pair : BitVec 2) (s : State) : Res :=
  let n := s.here.tokens pair.toNat
  .next (if !(s.accesses s.cur).isEmpty ∨ !s.here.reads.isEmpty ∨ Config.tokenFifo ≤ n then s
    else (s.setHere { s.here.setTokens pair.toNat (n + 1) with evLatch := true }).nextPc)
/-- TKPOP: R104, R343. -/
def execTkpop (pair : BitVec 2) (s : State) : Res :=
  let x := s.here
  let p := pair.toNat
  let at_ := (x.tkAt.getD (4 * x.issueNo + p)) / 4
  .next (if x.tokens p ≤ x.owed p ∨ x.unitBefore p at_ then s.setHere { x with tkAt := some (4 * at_ + p) }
    else (s.setHere { x.setTokens p (x.tokens p - 1) with tkAt := none }).nextPc)
/-- TKTEST: R104. -/
def execTktest (d : BitVec 5) (pair : BitVec 2) (s : State) : Res :=
  .next (s.retire d (BitVec.ofNat 64 (s.here.tokens pair.toNat)))

/-! ### Replies and events (R105, R106, R350) -/

/-- RQPOP: R105. -/
def execRqpop (d : BitVec 5) (s : State) : Res :=
  .next (match s.here.rq with
    | [] => s
    | w :: t => (s.setHere { s.here with rq := t }).retire d w)
/-- RQPEEK: R105. -/
def execRqpeek (d : BitVec 5) (s : State) : Res := .next (s.retire d (s.here.rq.headD 0))
/-- The first reply kept back whose source comes first in the order of R350. -/
def firstReply : List Word → Option Word
  | [] => none
  | w :: t => match firstReply t with
    | some v => if v.toNat / 2 ^ 56 < w.toNat / 2 ^ 56 then some v else some w
    | none => some w
/-- REPLY_PLACEMENT: a reply that its producer kept back takes a place that has come free, once no reply of this beat goes first (R350),
not while a debugger holds the tile (R311). -/
def execReplyPlacement (s : State) : Res :=
  let x := s.here
  .next (match firstReply x.rqHeld with
    | none => s
    | some w => if x.replyRoom && !s.held s.cur && !s.replyBefore s.cur (w.toNat / 2 ^ 56) then s.setHere ({ x with rqHeld := removeOne w x.rqHeld }.reply w) else s)
/-- WFE: R106. -/
def execWfe (s : State) : Res := .next (if s.here.evLatch then (s.setHere { s.here with evLatch := false }).nextPc else s)

/-! ### Queues (R108) -/

/-- QINIT: R108; an earlier access to the window comes first (R84). A BASE that is not 32-aligned is the misaligned header address, judged before the other checks of the QCW
(DESIGN CHOICE, log 86). -/
def execQinit (a : BitVec 5) (s : State) : Res :=
  let v := s.here.rd a
  let q := v.toNat
  let off := q % 2 ^ 20
  .next (if off % 32 ≠ 0 then s.trap 0x02 (nearOf s.here.vtile off)
    else if !qcwOk q then s.trap 0x18 v
    else if s.stalls s.cur 1 off 32 || (s.accesses s.cur).any (fun p => p.orders s.cur off 32 false) then s
    else ((s.touch s.cur 1 off 32).storeBytes (nearKey s.cur off) (leBytes 0 8 ++ leBytes q 8 ++ leBytes 0 16)).nextPc)
/-- The place in the order of R349 of an access by the tile in focus to tile `t`'s slice. -/
def State.seqRank (s : State) (t : Nat) : Nat := rankAt s.cur t
/-- Open the queue whose header is at near address `a`: its tile and QCW, or a wait or trap; an earlier access to its window comes
first (R84). -/
def State.openQueue (s : State) (a : Word) (f : Nat → Nat → Nat → State) : State :=
  match s.near s.here.ctx a 32 with
  | .bad c => s.trap c a
  | .wait => s
  | .ok t off =>
    if s.stalls t (s.seqRank t) off 32 || (s.accesses s.cur).any (fun q => q.orders t off 32 false) then s
    else
      let s := s.touch t (s.seqRank t) off 32
      let q := s.load (nearKey t off + 8) 8
      if !qcwOk q ∨ q % 2 ^ 20 ≠ off ∨ 8 < qcwSize q then s.trap 0x18 a else f t off q
/-- QPUSH: one indivisible operation at the home bank; waits while the queue is full (R108). -/
def execQpush (a b : BitVec 5) (s : State) : Res :=
  .next (s.openQueue (s.here.rd a) fun t off q =>
    let k := nearKey t off
    let head := s.load k 4
    let tail := s.load (k + 4) 4
    let e := elemAt q tail
    if qcwDepth q ≤ (tail + 2 ^ 32 - head) % 2 ^ 32 ∨ s.stalls t (s.seqRank t) e (qcwSize q) then s
    else (((s.touch t (s.seqRank t) e (qcwSize q)).store (nearKey t e) (qcwSize q) (s.here.rd b).toNat).store (k + 4) 4 (tail + 1)).nextPc)
/-- QPOP: one indivisible operation at the home bank; waits while the queue is empty (R108). -/
def execQpop (d a : BitVec 5) (s : State) : Res :=
  .next (s.openQueue (s.here.rd a) fun t off q =>
    let k := nearKey t off
    let head := s.load k 4
    let tail := s.load (k + 4) 4
    let e := elemAt q head
    if head = tail ∨ s.stalls t (s.seqRank t) e (qcwSize q) then s
    else ((s.touch t (s.seqRank t) e (qcwSize q)).store k 4 (head + 1)).retire d (BitVec.ofNat 64 (s.load (nearKey t e) (qcwSize q))))

/-- The gang of tile `t` stands suspended until the fault on the page of the overflow area that its spawn met is answered (R135). -/
def State.suspended (s : State) (t : Nat) : Bool :=
  match (s.tile t).task.bind (FMap.get? s.nodes) with
  | some n => n.overflow.isSome
  | none => false
/-- The gang of tile `t` has been given up by a yield that has retired (R355): it executes nothing more before its save. -/
def State.givenUp (s : State) (t : Nat) : Bool :=
  match (s.tile t).task.bind (FMap.get? s.nodes) with
  | some n => n.yielding.isSome
  | none => false

/-! ### Time (R109) -/

/-- RDDBC: R109. -/
def execRddbc (d : BitVec 5) (s : State) : Res := .next (s.retire d (s.dbc s.cur))
/-- RDAOT: R109. -/
def execRdaot (d : BitVec 5) (s : State) : Res := .next (s.retire d s.aot)
/-- The count a sleep waits on: AOT, or the die's DBC. -/
def State.clock (s : State) (aot : Bool) : Word := if aot then s.aot else s.dbc s.cur
/-- A promise of a command of the tile is due and the command has not completed: PROMISE_MISS comes before the sleep returns
(R100). -/
def Tile.promiseDue (x : Tile) (now : Word) : Bool :=
  (x.ce.cmds ++ x.ie.cmds).any (fun c => match c.promise with | some p => p.ule now | none => false)
/-- A sleep instruction: on while its count has not been reached (R109); one that already sleeps goes by the count it waits for,
which a debug hold moves on (R372). -/
def sleepUntil (aot : Bool) (r : Word) (s : State) : State :=
  let v := match s.here.sleep with | some (_, v) => v | none => r
  if v.ule (s.clock aot) ∧ !s.here.promiseDue (s.dbc s.cur) then (s.setHere { s.here with sleep := none }).nextPc
  else s.setHere { s.here with sleep := some (aot, v) }
/-- SLEEPU: R109. -/
def execSleepu (a : BitVec 5) (s : State) : Res := .next (sleepUntil false (s.here.rd a) s)
/-- SLEEPA: R109. -/
def execSleepa (a : BitVec 5) (s : State) : Res := .next (sleepUntil true (s.here.rd a) s)
/-- STAMP: R109. -/
def execStamp (d a : BitVec 5) (s : State) : Res :=
  let t := s.dbc s.cur
  .next ((s.setHere { s.here with stamp := t + s.here.rd a }).retire d t)
/-- SLEEP_EXPIRY: the count that the sleeping tile waits on has been reached and the sleep returns; not while a debugger holds
the context (R109, R372) or a delivery comes first (R92, R100). -/
def execSleepExpiry (s : State) : Res :=
  .next (match s.here.sleep with
    | none => s
    | some (aot, v) =>
      if s.held s.cur ∨ s.suspended s.cur ∨ s.givenUp s.cur ∨ (!s.here.hm ∧ !s.here.pend.isEmpty) ∨ s.here.promiseDue (s.dbc s.cur) ∨ !v.ule (s.clock aot) then s
      else (s.setHere { s.here with sleep := none }).nextPc)

/-! ### System instructions (R55, R121) -/

/-- MFS: R121, R41. -/
def execMfs (d : BitVec 5) (sr : BitVec 10) (s : State) : Res := .next (s.retire d (s.stateReg s.cur sr.toNat))
/-- Write a state register that may be written (R41, R42, R55): STATUS keeps only HM, CAUSE its low byte, EPC
all but bit 1, which is zero (R359). -/
def Tile.writeReg (x : Tile) (k : Nat) (v : Word) : Tile :=
  match k with
  | 0 => { x with hm := v.getLsbD 0 }
  | 1 => { x with tvec := v }
  | 2 => { x with epc := v &&& ~~~(2 : Word) }
  | 3 => { x with cause := BitVec.ofNat 64 (v.toNat % 256) }
  | 4 => { x with tval := v }
  | 11 => { x with stamp := v }
  | 13 => { x with scratch0 := v }
  | 14 => { x with scratch1 := v }
  | _ => x
/-- MTS: R121, R41; an HM register outside handler mode raises PRIV with the word (R55). -/
def execMts (a : BitVec 5) (sr : BitVec 10) (s : State) : Res :=
  let k := sr.toNat
  .next (if !s.here.hm ∧ (k = 0 ∨ k = 2 ∨ k = 3 ∨ k = 4) then
      s.trap 0x05 (BitVec.ofNat 64 (0xC0001000 + a.toNat * 2 ^ 16 + k * 4))
    else s.setHere ((s.here.writeReg k (s.here.rd a)).adv))
/-- TRAP: R121. -/
def execTrap (code : BitVec 10) (s : State) : Res := .next (s.trap 0x06 (code.setWidth 64))
/-- RTE: R121, R359; outside handler mode it raises PRIV (R55). -/
def execRte (s : State) : Res := .next (if s.here.hm then s.rte s.cur else s.trap 0x05 0xC0003000)
/-- The tiles of the list lose their instruction caches. -/
def State.dropCode (s : State) : List Nat → State
  | [] => s
  | t :: r => (s.modTile t (fun x => { x with icache := [] })).dropCode r
/-- ICINV: the tiles of the unit that hold words of the context, those that run no task now included (R31, R90, R121). -/
def execIcinv (scope : BitVec 4) (s : State) : Res :=
  let c := s.here.ctx
  let l := (s.tiles.filter (fun t => (decide (t.2.lastCtx = some c) || t.2.task.isSome && decide (t.2.ctx = c)) &&
    sameUnit scope.toNat s.cur t.1)).map (·.1)
  .next ((s.dropCode l).nextPc)
/-- HALT: the task fails with the CAUSE and TVAL that the tile holds (R121, R131); outside handler mode it raises PRIV. -/
def execHalt (s : State) : Res :=
  .next (if s.here.hm then s.fail s.cur s.here.cause.toNat s.here.tval else s.trap 0x05 0xC0006000)
/-- ILLEGAL_WORD: R55. -/
def execIllegalWord (w : BitVec 32) (s : State) : Res := .next (s.trap 0x01 (w.setWidth 64))

/-! ### Deliveries and the scratchpad -/

/-- The oldest pending fault of tile `t` may be delivered: the tile is active, out of handler mode, at no barrier and in no
wait that runs to its end, its gang is neither suspended nor given up, and no debugger holds it (R91, R92, R135, R355, R363, R372). -/
def State.deliverable (s : State) (t : Nat) : Bool :=
  let x := s.tile t
  x.active && !x.hm && !x.pend.isEmpty && x.wait.isNone && !x.inside && !s.held t && !s.suspended t && !s.givenUp t
/-- Deliver the oldest pending fault of tile `t` (R358, R363): a blocked instruction has done nothing (R92). -/
def State.deliver (s : State) (t : Nat) : State :=
  let x := s.tile t
  match x.pend with
  | [] => s
  | d :: rest =>
    let s := s.setTile t { x.unspawn with pend := rest, sleep := none, tkAt := none, handling := some d.source }
    s.take t d.cause d.tval true
/-- FAULT_DELIVERY: R363. -/
def execFaultDelivery (s : State) : Res := .next (if s.deliverable s.cur then s.deliver s.cur else s)

/-- The window of virtual tile `v` of context `c` belongs to a saved gang: what goes to it waits where it was sent (R370). -/
def State.windowSaved (s : State) (c : Nat) (v : Option Nat) : Bool :=
  match v.bind (FMap.get? (s.ctxAt c).tmap) with
  | some m => m.saved
  | none => false
/-- A write to tile `t`'s slice is still to be performed, or a landing bit of the slice is set (R14). -/
def State.writesTo (s : State) (t : Nat) : Bool :=
  s.land.any (fun l => decide (l.dst = t) && !s.windowSaved l.ctx l.vt)
    || s.net.any (fun p => decide (p.dst = t) && (decide (p.kind = 1) || p.amo.isSome) && !s.windowSaved p.ctx p.vt)
    || s.bits.any (fun b => decide (b.tile = t))
/-- SCRATCHPAD_CLEAR: the slice of the current tile, which runs no task, is cleared for a task of context arg.ctx (R14). -/
def execScratchpadClear (s : State) : Res :=
  .next (if s.here.task.isSome ∨ s.here.lastCtx = some s.arg.ctx ∨ s.writesTo s.cur then s
    else (s.clearMem (nearKey s.cur 0) Config.scratchEnd).modTile s.cur (fun x => { x with lastCtx := some s.arg.ctx, icache := [] }))

end Sys2Proof.Machine
end

