-- ==== Sys2Proof/Machine/Meeting.lean ====
section
/-! DEFINITION. Meeting tags and stations (R120, R304 to R311, R354). -/

namespace Sys2Proof.Machine

/-! ### Tags (R120, R309) -/

/-- The generation, scope and index of a tag (R120). -/
def tagScope (tag : Nat) : Nat := bitsN tag 20 4
/-- The index of a tag. -/
def tagIndex (tag : Nat) : Nat := tag % 2 ^ 20
/-- The live tag with a value, in context `c`. -/
def State.liveTag (s : State) (c : Nat) (tag : Nat) : Option Tag := (s.ctxAt c).tags.find? (fun t => decide (t.tag = tag))
/-- Retire a tag: its generation advances and its index returns to the pool (R309). -/
def State.retireTag (s : State) (c tag : Nat) : State :=
  if (s.liveTag c tag).isSome then
    s.modCtx c (fun x => { x with
      tags := x.tags.filter (fun t => decide (t.tag ≠ tag))
      tagGen := FMap.set x.tagGen (tagIndex tag) ((tag / 2 ^ 24 + 1) % 2 ^ 8) })
  else s

/-- TAGA: R120, R309, R380. -/
def execTaga (d a b : BitVec 5) (s : State) : Res :=
  let va := s.here.rd a
  let scope := va.toNat % 16
  let len := (s.here.rd b).toNat
  let c := s.here.ctx
  let x := s.ctxAt c
  .next (if 4 < scope ∨ (scope = 4 ∧ !s.pkg.fmapen.getLsbD 6) then s.trap 0x19 va
    else if len % 32 ≠ 0 ∨ len = 0 ∨ 2048 < len then s.trap 0x19 (s.here.rd b)
    else if Config.tagLimit ≤ x.tags.length then s.trap 0x19 0x1000
    else
      let i := (firstFree (fun k => x.tags.all (fun t => decide (tagIndex t.tag ≠ k))) 0 (2 ^ 20) s.pick (2 ^ 20)).getD 0
      let entry := (firstFree (fun k => x.tags.all (fun t => decide (t.entry ≠ k))) 0 Config.tagLimit s.pick Config.tagLimit).getD 0
      let tag := FMap.getD 0 x.tagGen i * 2 ^ 24 + scope * 2 ^ 20 + i
      let t : Tag := { tag := tag, len := len, timeout := (x.iodReg 0x088).toNat % 2 ^ 32, entry := entry }
      (s.picked.modCtx c (fun x => { x with tags := x.tags ++ [t] })).retire d (BitVec.ofNat 64 tag))

/-! ### Stations (R304) -/

/-- The number of station `k` of the IOD of package `p`; a tile's station has the tile's number. -/
def iodStation (p k : Nat) : Nat := 2 ^ 20 + 16 * p + k
/-- Slots of a station's cloakroom. -/
def stationSlots (n : Nat) : Nat := if n < 2 ^ 20 then Config.tileCloakroom else Config.iodCloakroom
/-- The station of a number. -/
def State.station (s : State) (n : Nat) : Station := FMap.getD {} s.stations n
/-- Change a station. -/
def State.modStation (s : State) (n : Nat) (f : Station → Station) : State :=
  { s with stations := FMap.set s.stations n (f (s.station n)) }
/-- The hash of a tag's index (R304). -/
def tagHash (tag : Nat) : Nat := tagIndex tag * 0x9E3779B1 % 2 ^ 32 / 2 ^ 16
/-- The usable tiles of a list. -/
def State.usableOf (s : State) (l : List Nat) : List Nat := l.filter s.usable
/-- The station of a tag for a sender on tile `t` (R304). -/
def State.stationOf (s : State) (t tag : Nat) : Nat :=
  let h := tagHash tag
  let among := fun (l : List Nat) => let u := s.usableOf l; u.getD (h % u.length) t
  match tagScope tag with
  | 0 => t
  | 1 => among ((List.range 4).map (fun k => t / 4 * 4 + k))
  | 2 => among ((List.range (Config.dieTiles (dieOf t))).map (fun k => 256 * dieOf t + k))
  | 3 => iodStation s.pkg.index (h % 16)
  | _ => iodStation (h / 16 % s.pkg.packages) (h % 16)

/-- The place of a station on the die links: its tile, or one of the IOD's (R304). -/
def stationTile (n : Nat) : Nat := if n < 2 ^ 20 then n else 256 * 24 + n % 16
/-- What tile `t` sends to station `n` (R21, R305). -/
def mailTo (t n c : Nat) (what : StationIn) : Mail := { routeTo t (stationTile n) with station := n, what := what, ctx := c }
/-- The header of an operand or a withdrawal, kind 6 (R21): its address is the meeting tag. -/
def Mail.header (m : Mail) : Nat × Nat :=
  match m.what with
  | .operand o => m.toRoute.header ((o.data.length + 31) / 32) 6 o.tag
  | .withdraw _ tag => m.toRoute.header 0 6 tag

/-- TAGF: the tag is retired in the pool, and a withdrawal goes to its station (R120, R354). -/
def execTagf (a : BitVec 5) (s : State) : Res :=
  let v := s.here.rd a
  let c := s.here.ctx
  .next (match s.liveTag c v.toNat with
    | none => s.trap 0x19 v
    | some _ =>
      let s1 := s.retireTag c v.toNat
      { s1 with meets := s1.meets ++ [mailTo s.cur (s.stationOf s.cur v.toNat) c (.withdraw c v.toNat)] }.nextPc)

/-- The check of a meet's range (R18, R120): its tile and offset, a wait, or a cause with the failing address. -/
inductive RangeRes where
  | ok (tile off : Nat)
  | wait
  | bad (cause : Nat) (tval : Word)
  deriving DecidableEq, Repr
/-- Check a range of `len` bytes at near address `a`. -/
def State.meetRange (s : State) (a : Word) (len : Nat) : RangeRes :=
  match s.near s.here.ctx a 32 with
  | .bad c => .bad c a
  | .wait => .wait
  | .ok t off =>
    if Config.scratchEnd < off + len then .bad 0x03 a else .ok t off
/-- A line of a range is landing. -/
def State.rangeLanding (s : State) (t off len : Nat) : Bool :=
  (List.range ((off + len - 1) / 64 - off / 64 + 1)).any (fun k => s.landing t (off + 64 * k) || s.landing t (off + len - 1))

/-- MEET: R120, R304, R310. -/
def execMeet (d a b : BitVec 5) (op : BitVec 2) (s : State) : Res :=
  let v := s.here.rd a
  let c := s.here.ctx
  let src := s.here.rd b
  let dst := s.here.rd d
  .next (if s.here.acquires then s
    else match s.liveTag c v.toNat with
    | none => s.trap 0x19 v
    | some t => match s.meetRange src t.len, (if dst = 0 then RangeRes.ok 0 0 else s.meetRange dst t.len) with
      | .bad k e, _ => s.trap k e
      | _, .bad k e => s.trap k e
      | .ok u off, _ =>
        if s.rangeLanding u off t.len || s.stalls u (rankAt s.cur u) off t.len || (s.accesses s.cur).any (fun q => q.orders u off t.len false) then s
        else
          let o : Operand := { ctx := c, tag := v.toNat, op := op.toNat, node := s.nodeId (s.here.task.getD 0), vtile := s.here.vtile
                               ptile := s.cur, data := Mem.bytes s.mem (nearKey u off) t.len, dest := dst
                               timeout := t.timeout, entry := t.entry }
          let s := s.touch u (rankAt s.cur u) off t.len
          { s with meets := s.meets ++ [mailTo s.cur (s.stationOf s.cur v.toNat) c (.operand o)] }.nextPc
      | .wait, _ => s)

/-! ### Replies (R308, R309, R311) -/

/-- A station's reply (R308): SRC 5. -/
def stationReply (o : Operand) (st hi : Nat) : Word := replyWord 5 st 0 (hi * 2 ^ 32 + o.tag % 2 ^ 32)
/-- Give a reply to an operand's sender: to a saved one at its resumption, to a dead one not at all (R311). -/
def State.replyTo (s : State) (o : Operand) (st hi : Nat) : State :=
  let w := stationReply o st hi
  match s.sender o with
  | .live t => s.giveReply t w
  | .saved => s.modNode (o.node % 2 ^ 20) (fun n => { n with
      saves := n.saves.map (fun x => if x.2.vtile = o.vtile then (x.1, { x.2 with rqHeld := x.2.rqHeld ++ [w] }) else x) })
  | .dead => s

/-! ### Arrival at a station (R305 to R307) -/

/-- One element of a combination (R307). -/
def combineElem (op a b : Nat) : Nat :=
  match op with
  | 0 => fp32.add a b
  | 1 => bf16.add a b
  | 2 => fp32.maxF a b
  | _ => (a + b) % 2 ^ 32
/-- Element width of a combine operation in bytes. -/
def combineWidth (op : Nat) : Nat := if op = 1 then 2 else 4
/-- The combination of two operands' bytes (R307). -/
def combine (op : Nat) (a b : List Byte) : List Byte :=
  let w := combineWidth op
  let x := leNat a
  let y := leNat b
  (List.range (a.length / w)).flatMap (fun i => leBytes (combineElem op (elemOf x (8 * w) i) (elemOf y (8 * w) i)) w)

/-- A withdrawal of a tag is still on its way to station `n`. -/
def State.withdrawing (s : State) (n c tag : Nat) : Bool :=
  s.meets.any (fun m => decide (m.station = n ∧ m.what = .withdraw c tag)) || (s.station n).held.contains (.withdraw c tag)
/-- An operand is of an old generation (R309, R354): its tag is retired, and no withdrawal of it is still to reach the station. -/
def State.staleAt (s : State) (n : Nat) (o : Operand) : Bool :=
  (s.liveTag o.ctx o.tag).isNone && !s.withdrawing n o.ctx o.tag
/-- The operand of a tag that waits at station `n`. -/
def Station.waitingOf (x : Station) (c tag : Nat) : Option Operand := x.waiting.find? (fun o => decide (o.ctx = c ∧ o.tag = tag))
/-- The station without the waiting operand of a tag. -/
def Station.without (x : Station) (c tag : Nat) : Station :=
  { x with waiting := x.waiting.filter (fun o => !decide (o.ctx = c ∧ o.tag = tag)) }
/-- A slot of the cloakroom is free. -/
def Station.slotFree (x : Station) (n : Nat) : Bool :=
  decide ((x.waiting.filter (fun o => !o.spilled)).length < stationSlots n)
/-- An operand becomes the waiting operand of its tag (R305, R306). -/
def State.park (s : State) (n : Nat) (o : Operand) : State :=
  s.modStation n (fun x => { x with waiting := x.waiting ++ [{ o with at_ := s.aot }] })
/-- Two operands meet (R307, R308). -/
def State.pair (s : State) (n : Nat) (a b : Operand) : State :=
  let s1 := s.modStation n (fun x => x.without a.ctx a.tag)
  if a.op ≠ b.op then ((s1.replyTo a 7 0).replyTo b 7 0).retireTag a.ctx a.tag
  else
    let m : Meeting :=
      { id := s1.meetNo, station := n, a := a, b := b, data := combine a.op a.data b.data, st := if a.spilled then 5 else 0 }
    { s1 with meetings := s1.meetings ++ [m], meetNo := s1.meetNo + 1 }
/-- A storeroom is registered for context `c` (R306, R375). -/
def State.storeroom (s : State) (c : Nat) : Bool := ((s.ctxAt c).iodReg 0x080).getLsbD 0
/-- The far address of an operand's entry in the storeroom of its context (R306, R375). -/
def State.strAddr (s : State) (o : Operand) : Nat := bitsN ((s.ctxAt o.ctx).iodReg 0x080).toNat 23 32 * 2 ^ 23 + 2048 * o.entry
/-- The entry of an operand's tag in the storeroom holds another operand that still waits: that of the tag before it, or of another
station (R306). -/
def State.entryTaken (s : State) (o : Operand) : Bool :=
  s.stations.any (fun x => x.2.waiting.any (fun w => w.spilled && decide (w.ctx = o.ctx ∧ w.strAt = s.strAddr o)))
/-- Station `n` spills an operand to its storeroom entry (R306); while the entry's page waits, and when its request fails, the
operand stays where it is (DESIGN CHOICE, log 90). -/
def State.spill (s : State) (n : Nat) (o : Operand) : State × Bool :=
  match s.scd o.ctx (s.strAddr o) true with
  | .ok s k => ((s.storeBytes k o.data).park n { o with spilled := true, strAt := s.strAddr o }, true)
  | .wait s => (s, false)
  | .failed s => (s.forgetFailed o.ctx (s.strAddr o), false)
/-- The data of a waiting operand: what its slot or its storeroom entry holds (R306); none while the entry's page waits. -/
def State.operandData (s : State) (o : Operand) : State × Option (List Byte) :=
  if !o.spilled then (s, some o.data)
  else match s.scd o.ctx o.strAt false with
    | .ok s k => (s, some (Mem.bytes s.mem k o.data.length))
    | .wait s => (s, none)
    | .failed s => (s.forgetFailed o.ctx o.strAt, none)
/-- A waiting operand has waited longer than its tag's timeout (R309): nothing meets it any more. -/
def State.orphaned (s : State) (o : Operand) : Bool := decide (o.timeout ≠ 0 ∧ o.timeout < (s.aot - o.at_).toNat)
/-- A held input is about a tag. -/
def StationIn.about (x : StationIn) (c tag : Nat) : Bool :=
  match x with
  | .operand o => decide (o.ctx = c ∧ o.tag = tag)
  | .withdraw d t => decide (d = c ∧ t = tag)

/-- Station `n` takes an operand from its input (R305, R306), or leaves it there, which the second part tells. `front` is set for
the oldest held input. -/
def State.takeOperand (s : State) (n : Nat) (o : Operand) (front : Bool) : State × Bool :=
  let x := s.station n
  let hold := if front then (s, false) else (s.modStation n (fun x => { x with held := x.held ++ [.operand o] }), true)
  if !front && x.held.any (·.about o.ctx o.tag) then hold
  else if s.staleAt n o then (s.replyTo o 7 0, true)
  else match x.waitingOf o.ctx o.tag with
    | some a =>
      if s.orphaned a then (s, false)
      else match s.operandData a with
        | (s, some l) => (s.pair n { a with data := l } o, true)
        | (s, none) => (s, false)
    | none =>
      if x.slotFree n && (front || x.held.isEmpty) then (s.park n o, true)
      else if s.storeroom o.ctx && !s.entryTaken o then s.spill n o
      else hold
/-- Station `n` takes a withdrawal from its input (R306, R354). -/
def State.takeWithdraw (s : State) (n c tag : Nat) (front : Bool) : State :=
  let x := s.station n
  if !front && x.held.any (·.about c tag) then s.modStation n (fun x => { x with held := x.held ++ [.withdraw c tag] })
  else match x.waitingOf c tag with
    | some o => (s.modStation n (fun x => x.without c tag)).replyTo o 6 1
    | none => s

/-- The context that a station's input is about. -/
def StationIn.ctx : StationIn → Nat
  | .operand o => o.ctx
  | .withdraw c _ => c
/-- The mail at place `i` is the next that its station takes: it has arrived, its context is not held by a debugger (R311), and what
arrived before it at the station has been taken, but for that of held contexts (R305). -/
def State.mailNext (s : State) (i : Nat) (m : Mail) : Bool :=
  m.arrived && !s.heldCtx m.what.ctx &&
    !(s.meets.take i).any (fun k => k.arrived && decide (k.station = m.station) && !s.heldCtx k.what.ctx)
/-- MEETING_OPERAND: the operand at place arg.n on its way reaches its station (R305 to R307); not while a debugger holds its
context (R311). -/
def execMeetingOperand (s : State) : Res :=
  .next (match s.meets[s.arg.n]? with
    | none => s
    | some m => match m.what with
      | .operand o =>
        if s.mailNext s.arg.n m then
          match s.takeOperand m.station o false with
          | (s, true) => { s with meets := dropAt s.meets s.arg.n }
          | (s, false) => s
        else s
      | .withdraw _ _ => s)
/-- MEETING_WITHDRAWAL: the withdrawal at place arg.n on its way reaches its station (R354); not while a debugger holds its context
(R311). -/
def execMeetingWithdrawal (s : State) : Res :=
  .next (match s.meets[s.arg.n]? with
    | none => s
    | some m => match m.what with
      | .withdraw c tag =>
        if s.mailNext s.arg.n m then { s with meets := dropAt s.meets s.arg.n }.takeWithdraw m.station c tag false else s
      | .operand _ => s)
/-- HELD_OPERAND_TAKEN: the oldest held input of station arg.n is taken, when a slot that it needs is free (R306); not while a
debugger holds its context (R311). -/
def execHeldOperandTaken (s : State) : Res :=
  let n := s.arg.n
  let x := s.station n
  let rest := fun (s : State) => s.modStation n (fun x => { x with held := x.held.drop 1 })
  .next (match x.held with
    | [] => s
    | i :: _ =>
      if s.heldCtx i.ctx then s
      else match i with
        | .withdraw c tag => (rest s).takeWithdraw n c tag true
        | .operand o => match s.takeOperand n o true with
          | (s, true) => rest s
          | (s, false) => s)
/-- MEETING_TIMEOUT: the operand at place arg.m that waits at station arg.n has waited out its tag's timeout: it is discarded
with ORPHAN and the tag is retired (R309); not while a debugger holds its context (R311). -/
def execMeetingTimeout (s : State) : Res :=
  let n := s.arg.n
  .next (match (s.station n).waiting[s.arg.m]? with
    | none => s
    | some o =>
      if o.timeout = 0 ∨ s.heldCtx o.ctx ∨ (s.aot - o.at_).toNat < o.timeout then s
      else ((s.modStation n (fun x => x.without o.ctx o.tag)).replyTo o 6 0).retireTag o.ctx o.tag)

/-! ### Results (R308, R311) -/

/-- The descriptor of a line of a result that is written in full (R308). -/
def combineDesc (op : Nat) : BitVec 16 := if op = 1 then 0x2012 else if op = 3 then 0x2043 else 0x2010
/-- The landing writes of a result at offset `off` of tile `t`. -/
def resultLines (unit station c t off op : Nat) (data : List Byte) : List Landing :=
  (mcastLines off data.length).map fun (line, lo, x0, n) =>
    let bytes := ((data.drop x0).take n).mapIdx (fun i b => (lo + i, b))
    let desc := if n = 64 then some (combineDesc op) else none
    { toRoute := { routeTo (stationTile station) t with txid := unit, ctx := c }, unit := .meeting unit, line := line, data := bytes, desc := desc }
/-- Replace a meeting. -/
def State.putMeeting (s : State) (m : Meeting) : State :=
  { s with meetings := s.meetings.map (fun k => if k.id = m.id then m else k) }
/-- Send the result of a meeting to one partner's destination. -/
def State.sendResult (s : State) (m : Meeting) (second : Bool) : State :=
  let o := if second then m.b else m.a
  let sent := fun (m : Meeting) => if second then { m with bSent := true } else { m with aSent := true }
  let unit := 2 * m.id + (if second then 1 else 0)
  if o.dest = 0 then s.putMeeting (sent m)
  else match s.findNear o.ctx o.dest with
    | .wait => s
    | .bad _ => s.putMeeting (sent (m.refuse unit))
    | .ok t off =>
      { s with land := s.land ++ resultLines unit m.station o.ctx t off o.op m.data }.putMeeting (sent m)
/-- Both partners are out of a save, and no debugger holds them (R311). -/
def State.replyReady (s : State) (m : Meeting) : Bool :=
  decide (s.sender m.a ≠ .saved ∧ s.sender m.b ≠ .saved) && !s.heldCtx m.a.ctx
/-- MEETING_RESULT: the meeting at place arg.n sends its result to its first partner (arg.m 0) or its second (1), or, once
every result write has been performed or refused, gives both replies (2) and is over (R308). -/
def execMeetingResult (s : State) : Res :=
  .next (match s.meetings[s.arg.n]? with
    | none => s
    | some m =>
      if s.arg.m = 0 then (if m.aSent then s else s.sendResult m false)
      else if s.arg.m = 1 then (if m.bSent then s else s.sendResult m true)
      else if !m.aSent ∨ !m.bSent ∨ s.land.any (fun l => decide (l.unit = .meeting (2 * m.id) ∨ l.unit = .meeting (2 * m.id + 1)))
          ∨ !s.replyReady m then s
      else
        let s1 := { s with meetings := dropAt s.meetings s.arg.n }
        (s1.replyTo m.a (if m.aRefused then 2 else m.st) 0).replyTo m.b (if m.bRefused then 2 else m.st) 0)

end Sys2Proof.Machine
end

