-- ==== Sys2Proof/Machine/FarMem.lean ====
section
/-! DEFINITION. The events of far memory: walks, page requests and their answers, invalidations, counters, accesses of the
companion and of other packages, and failures at the memory side (R235 to R258, R382). -/

namespace Sys2Proof.Machine

/-! ### Accesses served at the memory dies (R21, R235, R259) -/

/-- A far place has a physical address below 2^48 in HBM (R21). -/
def inFrame (frame addr n : Nat) : Bool := decide (frame ≤ addr ∧ addr + n ≤ frame + Config.pageSize)

/-- FAR_READ: the far read packet at place arg.n of the net, which names a physical HBM address, is served at its memory die
and answered by a read return (R21); a read through a tier 1 leaf goes to host memory and is counted by readFarLine (R235). -/
def execFarRead (s : State) : Res :=
  .next (match s.arrivedAt s.arg.n 2 with
    | none => s
    | some p =>
      let k := farKey 0 p.addr
      let data := if p.isDesc then leBytes (s.descAt k).toNat 2 else Mem.bytes s.mem k p.data.length
      let s1 := s.dropPacket s.arg.n
      { s1 with net := s1.net ++ [p.back 4 data] })

/-- FAR_WRITE: the far write packet at place arg.n of the net is performed at its memory die, when its physical address lies
in a shadow frame of its context, and acknowledged (R21, R156, R259); a write elsewhere has no shadow to go into and waits. -/
def execFarWrite (s : State) : Res :=
  .next (match s.arrivedAt s.arg.n 3 with
    | none => s
    | some p =>
      let here := fun (b : Buf) => decide (b.ctx = p.ctx) && b.shadow.any (fun f => inFrame f.2 p.addr p.data.length)
      if s.bufs.any (fun b => b.2.live && here b.2) then
        let k := farKey 0 p.addr
        let s1 := (if p.isDesc then s.setDesc k (BitVec.ofNat 16 (leNat p.data)) else s.storeBytes k p.data).dropPacket s.arg.n
        { s1 with net := s1.net ++ [p.back 5 []] }
      else s)

/-! ### Walks (R247 to R249, R252) -/

/-- The number of translations a holder can keep (R248). -/
def holderPlaces (h : Nat) : Nat := if h < 2 ^ 20 then Config.streamTlb else 16384
/-- Drop the oldest entry of a holder from a list. -/
def dropOldest (h : Nat) : List Xlat → List Xlat
  | [] => []
  | x :: t => if x.holder = h then t else x :: dropOldest h t
/-- Install a translation with a holder, in the place of one it has of the same page, and dropping its oldest when it is
full (R248). -/
def installXlat (l : List Xlat) (x : Xlat) : List Xlat :=
  let l := l.filter (fun y => !decide (y.holder = x.holder ∧ y.ctx = x.ctx ∧ y.vpn = x.vpn))
  let n := (l.filter (fun y => decide (y.holder = x.holder))).length
  (if holderPlaces x.holder ≤ n then dropOldest x.holder l else l) ++ [x]

/-- The engine of a stream TLB. -/
def holderEng (h : Nat) : CEng := if h % 2 = 0 then .ce else .ie
/-- A command waits for the translation of a page. -/
def Cmd.waitsFor (c : Cmd) (vpn : Nat) : Bool :=
  c.begun && c.ended.isNone && c.park.isNone && (match c.want with | some w => decide (w.1 = vpn) | none => false)
/-- A command of the stream TLB `h` waits for page `vpn` of context `c`. -/
def State.waitsAt (s : State) (c vpn h : Nat) : Bool :=
  let x := s.tile (h / 2)
  decide (h < 2 ^ 20) && x.task.isSome && decide (x.ctx = c) && (x.cengine (holderEng h)).cmds.any (·.waitsFor vpn)
/-- Park the commands of a stream TLB that wait for page `vpn` on request `id` (R252). -/
def State.parkAt (s : State) (vpn id h : Nat) : State :=
  s.modTile (h / 2) fun x =>
    let g := x.cengine (holderEng h)
    x.setCengine (holderEng h) { g with cmds := g.cmds.map (fun c => if c.waitsFor vpn then { c with park := some id } else c) }

/-- The far places of the row or index that a command is at: its source, and its destination or table. -/
def State.rowPlaces (s : State) (t : Nat) (c : Cmd) : List (Nat × Nat) :=
  let l := match c.kind with
    | 0x03 => [(c.ssrc, c.xlen)]
    | 0x11 | 0x15 => match c.bag with
      | some (lo, hi) => if lo + c.sub < hi then
          [(if c.kind = 0x11 then c.rowPlace (s.key t c (lo + c.sub)) else c.table + (lo + c.sub) * c.w, if c.kind = 0x11 then c.rowb else c.w)] else []
      | none => []
    | 0x13 => match c.idx[c.pos]? with | some i => [(c.rowPlace i, c.rowb)] | none => []
    | 0x16 => [(c.table + c.count * c.w, c.w)]
    | _ => match (s.rowsOf t c)[c.pos]? with
      | some r => if r.bad then [] else (r.dst, r.len) :: (match r.src with | some p => [(p, r.len)] | none => [])
      | none => []
  l.filter (fun r => placeFar r.1)
/-- The stream TLB of an engine prefetches page `vpn`: the next after a page, whose translation it holds, of the row or index that a
running command of it is at, in the same buffer (R249). -/
def State.prefetch (s : State) (t : Nat) (e : CEng) (vpn : Nat) : State :=
  let x := s.tile t
  let next := fun (c : Cmd) (r : Nat × Nat) =>
    let b := s.buf (c.bound (placeSlot r.1)).1
    let va := s.farVa c r.1
    b.live && b.proxy.isNone && decide (vpn < b.vbase / 2 ^ 16 + b.pages ∧ va / 2 ^ 16 < vpn ∧ vpn ≤ (va + r.2 - 1) / 2 ^ 16 + 1)
  let runs := fun (c : Cmd) => c.begun && c.ended.isNone && c.park.isNone && (s.rowPlaces t c).any (next c)
  let holds := fun (n : Nat) => (s.held? (streamHolder t e) x.ctx n 0).isSome
  if x.task.isSome ∧ (x.cengine e).cmds.any runs ∧ holds (vpn - 1) ∧ !holds vpn then
    s.askWalk (streamHolder t e) x.ctx vpn false true
  else s

/-- What a completed walk does: on a leaf, A is set (R247), unless it was a prefetch (R249), and the translation is installed with
every asker and the memory die (R248); on anything else the waiting commands park on a page request (R252), which a walk for
another package raises too (R382), and a prefetch is dropped. -/
def State.endWalk (s : State) (w : Walk) : State :=
  match s.walk w.ctx w.vpn with
  | .leaf k pte large =>
    let s := if w.prefetch then s else s.orEntry k 8
    let pte := if w.prefetch then pte else pte ||| 8
    let v := s.pageView w.ctx w.vpn
    { s with
      tlb := (w.askers ++ [dieHolder w.vpn]).foldl (fun l h =>
        installXlat l { holder := h, ctx := w.ctx, vpn := w.vpn, pte := BitVec.ofNat 64 pte, large := large, vgen := v, owner := s.pageOwner w.ctx w.vpn }) s.tlb }
  | .bad reason =>
    match w.askers.find? (s.waitsAt w.ctx w.vpn) with
    | none =>
      if w.askers.contains (dieHolder w.vpn) then (s.request w.ctx w.vpn reason w.write 0 (256 * (16 + w.vpn % 8))).1 else s
    | some h =>
      let r := s.request w.ctx w.vpn reason w.write (match holderEng h with | .ce => 0 | .ie => 1) (h / 2)
      (w.askers.filter (s.waitsAt w.ctx w.vpn)).foldl (fun s h => s.parkAt w.vpn r.2 h) r.1
/-- PAGE_WALK_COMPLETE: the walk at place arg.n of those under way finishes (R248). -/
def execPageWalkComplete (s : State) : Res :=
  .next (match s.walks[s.arg.n]? with
    | none => s
    | some w => { s with walks := dropAt s.walks s.arg.n }.endWalk w)

/-! ### Page requests (R253 to R256) -/

/-- The four words of a request's queue entry (R253). -/
def PageReq.words (r : PageReq) (c cgen seq : Nat) : List Nat :=
  [r.vpn * 2 ^ 16 + r.reason, c * 2 ^ 48 + cgen % 2 ^ 16 * 2 ^ 32 + r.id,
   (if r.write then 2 ^ 17 else 0) + r.eng * 2 ^ 16 + r.tile % 2 ^ 13, seq]
/-- Mark the first request that is still held as written. -/
def markWritten : List PageReq → List PageReq
  | [] => []
  | r :: t => if r.written then r :: markWritten t else { r with written := true } :: t
/-- Write the oldest held request to the queue, if it has room (R253). -/
def State.writeRequest (s : State) (c : Nat) : State :=
  let x := s.ctxAt c
  let ctl := x.iodReg 0x040
  match x.preqs.find? (fun r => !r.written) with
  | none => s
  | some r =>
    if queueRoom ctl x.prWritten then
      let seq := (x.prWritten + 1) % 2 ^ 32
      (s.storeWords (queueSlot (x.iodReg 0x038) ctl seq 32) (r.words c x.cgen seq)).modCtx c
        (fun x => { x with prWritten := seq, preqs := markWritten x.preqs })
    else s
/-- PAGE_REQUEST: the oldest held request of context arg.ctx is written once the queue has room (R253). -/
def execPageRequest (s : State) : Res := .next (s.writeRequest s.arg.ctx)
/-- Write held requests while there is room. -/
def State.writeRequests (s : State) (c : Nat) : Nat → State
  | 0 => s
  | n + 1 => (s.writeRequest c).writeRequests c n

/-- Change every command of context `c`, running or saved (R256). -/
def State.mapCmds (s : State) (c : Nat) (f : Cmd → Cmd) : State :=
  let inEng := fun (g : CmdEngine) => { g with cmds := g.cmds.map f }
  let inTile := fun (x : Tile) => { x with ce := inEng x.ce, ie := inEng x.ie }
  { s with
    tiles := s.tiles.map (fun t => if t.2.ctx = c then (t.1, inTile t.2) else t)
    nodes := s.nodes.map (fun n => if n.2.ctx = c then
      (n.1, { n.2 with saves := n.2.saves.map (fun x => (x.1, inTile x.2)) }) else n) }

/-- VAL of a command that ends before it is done (R207). -/
def Cmd.partVal (c : Cmd) : Nat :=
  match c.kind with
  | 0x03 => c.refused
  | 0x15 => c.count * 2 ^ 28 + c.skip
  | 0x16 => (c.pos - 1) * 2 ^ 28 + c.count
  | _ => c.count

/-- The request that an answer names, when it is current (R255). Bits of the written value that R254 gives as zero are not read
(DESIGN CHOICE, log 98). -/
def State.answered (s : State) (c : Nat) (v : Word) : Option PageReq :=
  let x := s.ctxAt c
  if bitsN v.toNat 32 16 = x.cgen % 2 ^ 16 ∧ bitsN v.toNat 28 2 < 2 then
    x.preqs.find? (fun r => decide (r.id = v.toNat % 2 ^ 20) && !r.failed)
  else none
/-- One more discarded answer (R255). -/
def State.stale (s : State) (c : Nat) : State := s.modCtx c (fun x => { x with prStale := min (x.prStale + 1) (2 ^ 32 - 1) })
/-- Drop a request. -/
def State.dropRequest (s : State) (c id : Nat) : State :=
  s.modCtx c (fun x => { x with preqs := x.preqs.filter (fun q => decide (q.id ≠ id)) })

/-- The tasks of context `c` whose gangs stand suspended for page `vpn` of the overflow area (R135). -/
def State.overflowing (s : State) (c vpn : Nat) : List Nat :=
  (s.nodes.filter (fun n => decide (n.2.ctx = c ∧ n.2.overflow = some vpn))).map (·.1)
/-- The fault on page `vpn` of the overflow area is answered: the gangs suspended for it go on (R135). -/
def State.endOverflow (s : State) (c vpn : Nat) : State :=
  (s.overflowing c vpn).foldl (fun s n => s.modNode n (fun d => { d with overflow := none })) s

/-- PRESP_RETRY: a write of arg.v to PRESP of context arg.ctx, of CODE RETRY, or of a CODE that is discarded: the commands
parked on the request walk their page again, and a gang suspended for it goes on (R135, R254, R255). -/
def execPrespRetry (s : State) : Res :=
  let c := s.arg.ctx
  .next (if !s.apertureTakes ∨ !(s.ctxAt c).live ∨ bitsN s.arg.v.toNat 28 2 = 1 then s
    else match s.answered c s.arg.v with
      | none => s.stale c
      | some r =>
        (((s.dropRequest c r.id).dropXlat c r.vpn 1).mapCmds c
          (fun k => if k.park = some r.id then { k with park := none } else k)).endOverflow c r.vpn)
/-- PRESP_FAIL: a write of arg.v to PRESP of context arg.ctx, of CODE FAIL: the commands parked on the request end with FAULT
(R254, R255), and a task whose spawn it fails with GRAPH_FAULT (R135); a scheduler-die access keeps the failure until it is made
again. -/
def execPrespFail (s : State) : Res :=
  let c := s.arg.ctx
  .next (if !s.apertureTakes ∨ !(s.ctxAt c).live ∨ bitsN s.arg.v.toNat 28 2 ≠ 1 then s
    else match s.answered c s.arg.v with
      | none => s.stale c
      | some r =>
        let s1 := if r.tile = 26 * 256 ∧ (s.overflowing c r.vpn).isEmpty then
            s.modCtx c (fun x => { x with preqs := x.preqs.map (fun q => if q.id = r.id then { q with failed := true } else q) })
          else s.dropRequest c r.id
        let s2 := s1.mapCmds c (fun k => if k.park = some r.id then { k with
          park := none, want := none, ended := some { code := 1, st := 1, val := k.partVal } } else k)
        (s2.overflowing c r.vpn).foldl (fun s n => s.failTask n 0x13 0 0) (s2.endOverflow c r.vpn))

/-! ### Invalidation, counters and queue registers (R237, R250, R253, R258) -/

/-- The context numbers that the driver may name (R373). -/
def ctxOk (c : Nat) : Bool := decide (1 ≤ c ∧ c ≤ 4095)

/-- INVREQ: a write of arg.v to INVREQ of context arg.ctx; the 65th waits on the link (R250). -/
def execInvreq (s : State) : Res :=
  let c := s.arg.ctx
  .next (if !s.apertureTakes ∨ !(s.ctxAt c).live ∨ 64 ≤ (s.ctxAt c).inv.length then s
    else s.modCtx c (fun x => { x with inv := x.inv ++ [s.arg.v] }))
/-- The pages of an invalidation: first and number (R250). Bits of the written value that R250 gives as zero are not read (DESIGN
CHOICE, log 98). -/
def invRange (v : Word) : Nat × Nat :=
  let n := bitsN v.toNat 41 6
  if bitN v.toNat 40 ∨ 40 ≤ n then (0, 2 ^ 39) else (v.toNat % 2 ^ 39 / 2 ^ n * 2 ^ n, 2 ^ n)
/-- INVALIDATION_COMPLETE: the oldest invalidation of context arg.ctx completes: no translation and no line of its range
remains (R250); one of the whole context brings a changed CTXROOT into effect (R244). -/
def execInvalidationComplete (s : State) : Res :=
  let c := s.arg.ctx
  .next (match (s.ctxAt c).inv with
    | [] => s
    | v :: t =>
      let r := invRange v
      (s.invalidate c r.1 r.2).modCtx c (fun x => { x with
        inv := t
        invDone := (x.invDone + 1) % 2 ^ 32
        root := if r.2 = 2 ^ 39 then x.iodReg 0x000 else x.root }))
/-- ACVAL_CLR: a write of arg.v to ACVAL of context arg.ctx; CLR clears the selected page's counter and frees its slot (R258). -/
def execAcvalClr (s : State) : Res :=
  let c := s.arg.ctx
  .next (if !s.apertureTakes ∨ !(s.ctxAt c).live ∨ !bitN s.arg.v.toNat 16 then s
    else s.modCtx c (fun x => { x with acnt := FMap.erase x.acnt ((x.iodReg 0x058).toNat % 2 ^ 39) }))
/-- What a queue control register keeps of a written value (R237). -/
def ctlField (v : Word) : Word := BitVec.ofNat 64 (v.toNat / 2 ^ 32 * 2 ^ 32 + v.toNat % 32)
/-- WRITTEN after a write to a queue's control register: 0 when LSIZE changes (R237). -/
def writtenAfter (old new : Word) (n : Nat) : Nat := if old.toNat % 32 = new.toNat % 32 then n else 0
/-- NQCTL_WRITE: a write of arg.v to NQCTL of context arg.ctx (R237). -/
def execNqctlWrite (s : State) : Res :=
  let c := s.arg.ctx
  let v := ctlField s.arg.v
  .next (if s.apertureTakes ∧ ctxOk c then
      s.modCtx c (fun x => { x with
        iod := FMap.set x.iod 0x028 v
        nqWritten := writtenAfter (x.iodReg 0x028) v x.nqWritten })
    else s)
/-- PRQCTL_WRITE: a write of arg.v to PRQCTL of context arg.ctx; held requests that now have room are written (R253). -/
def execPrqctlWrite (s : State) : Res :=
  let c := s.arg.ctx
  let v := ctlField s.arg.v
  .next (if s.apertureTakes ∧ ctxOk c then
      (s.modCtx c (fun x => { x with
        iod := FMap.set x.iod 0x040 v
        prWritten := writtenAfter (x.iodReg 0x040) v x.prWritten })).writeRequests c (s.ctxAt c).preqs.length
    else s)

/-- The pages of published views, by context, whose frame holds key `k` (R251). -/
def State.mappedAt (s : State) (k : Nat) : List (Nat × Nat) :=
  s.bufs.flatMap fun b =>
    if !b.2.live || b.2.proxy.isSome then [] else
      (List.range b.2.pages).filterMap fun i =>
        let vpn := b.2.vbase / 2 ^ 16 + i
        match s.walk b.2.ctx vpn with
        | .leaf _ pte large =>
          let f := leafKey pte vpn large
          if f ≤ k ∧ k < f + Config.pageSize then some (b.2.ctx, vpn) else none
        | .bad _ => none
/-- What a write from outside overwrites in published frames stays readable until an invalidation (R251). -/
def State.overwrite (s : State) (k : Nat) : List Byte → State
  | [] => s
  | _ :: t =>
    let m := s.mappedAt k
    (if m.isEmpty ∨ s.overwritten.any (fun o => decide (o.key = k)) then s
      else { s with overwritten := { key := k, was := Mem.get s.mem k, maps := m } :: s.overwritten }).overwrite (k + 1) t
/-- The descriptors that a write from outside overwrites in published frames stay readable in the same way (R251). -/
def State.overwriteDescs (s : State) (k : Nat) : List Nat → State
  | [] => s
  | _ :: t =>
    let m := s.mappedAt k
    (if m.isEmpty ∨ s.overDescs.any (fun o => decide (o.line = k / 64)) then s
      else { s with overDescs := { line := k / 64, was := s.descAt k, maps := m } :: s.overDescs }).overwriteDescs (k + 64) t
/-- The lines of `[k, k + n)` of HBM read, from now on, as they stand under any key: the device's key of their frames covers what the
device has written of them, not these (R241, R267; log 83). -/
def State.outsideLines (s : State) (k n : Nat) : State :=
  let lines := if n = 0 then [] else (List.range ((k + n - 1) / 64 - k / 64 + 1)).map (fun i => (k - Config.hbmBase) / 64 + i)
  { s with frameKey := s.frameKey.map (fun f => (f.1, { f.2 with
      lines := ((lines.filter (fun l => decide (l / 1024 = f.1))).map (· % 1024)).filter (fun l => !f.2.lines.contains l) ++ f.2.lines })) }
/-- COMPANION_FAR_WRITE: the companion or the driver writes the bytes arg.data, and the descriptors arg.list of whole lines,
at physical address arg.v of HBM (arg.k 0) or host memory (R241, R251). -/
def execCompanionFarWrite (s : State) : Res :=
  let a := s.arg.v.toNat
  let n := s.arg.data.length
  .next (if 2 ^ 52 < a + n ∨ 1 < s.arg.k ∨ (s.arg.list ≠ [] ∧ (a % 64 ≠ 0 ∨ n ≠ 64 * s.arg.list.length)) then s
    else
      let k := farKey s.arg.k a
      let s0 := ((s.overwrite k s.arg.data).overwriteDescs k s.arg.list).storeBytes k s.arg.data
      let s1 := if s.arg.k = 0 then s0.outsideLines k n else s0
      let l := s.arg.list.mapIdx (fun i d => (i, d))
      let d := l.foldl (fun m y => FMap.set m (k / 64 + y.1) (BitVec.ofNat 16 y.2)) s1.desc
      { s1 with desc := d })

/-! ### Failures (R101, R382) -/

/-- An ending with ABORT (R101, R206). -/
def Cmd.abort (c : Cmd) : Cmd :=
  if c.begun ∧ c.ended.isNone then { c with park := none, want := none, ended := some { code := 3, st := 3, val := c.partVal } }
  else c
/-- MEMORY_UNCORRECTABLE_ERROR: the running head command of queue arg.que of the current tile ends with ABORT (R101, R206,
R365). -/
def execMemoryUncorrectableError (s : State) : Res :=
  let e := queEng s.arg.que
  .next (match (s.here.cengine e).headOf s.arg.que with
    | none => s
    | some c => s.putCmd s.cur e c.abort)
/-- A command names a buffer of package `p` by proxy. -/
def State.overLink (s : State) (p : Nat) (c : Cmd) : Bool :=
  c.caps.any (fun y => match (s.buf (accOf y.2.1)).proxy with | some q => decide (q.1 = p) | none => false)
/-- SPAN_LINK_FAILURE: the link to package arg.n fails: the running commands that travel over it end with ABORT, and what was sent
over it is gone (R382). -/
def execSpanLinkFailure (s : State) : Res :=
  let f := fun (g : CmdEngine) => { g with cmds := g.cmds.map (fun c => if s.overLink s.arg.n c then c.abort else c) }
  .next { s with
    tiles := s.tiles.map (fun t => (t.1, { t.2 with ce := f t.2.ce, ie := f t.2.ie }))
    spanOut := s.spanOut.filter (fun q => decide (q.1 ≠ s.arg.n)) }

/-! ### Requests of other packages (R264, R272, R382) -/

/-- What the command tag `g` of another package has bound in a buffer. -/
def Buf.bindOf (b : Buf) (g : Nat) : Option Bind := b.binds.find? (fun y => decide (y.tag = g))
/-- A line read or a page written for another package waits for its translation at the memory die (R248). -/
def State.askDie (s : State) (c vpn : Nat) (write : Bool) : State := s.askWalk (dieHolder vpn) c vpn write false
/-- A write of another package's command waits for the swap of a cappub that does not await the command (R157, R273). -/
def Buf.behind (b : Buf) (y : Bind) : Bool := b.swapping.isSome && !y.awaited
/-- What another package's write to page `vpn` of buffer `a` does once it has the frame it wants (R252, R259): it goes on, asks for
the translation, or for the page. -/
def State.spanWrite (s : State) (c vpn : Nat) (f : ShadowRes) (go : State → Nat → State) : State :=
  match f with
  | .ok s f => go s f
  | .need => s.askDie c vpn true
  | .park r => (s.request c vpn r true 0 (256 * (16 + vpn % 8))).1
/-- What the owner does with a request, and the importer with its answer (R382). A binding carries the pages of the command's declared destination, which the owner
marks dirty, or waits for while they are write-blocked (R240, R257). -/
def State.serveSpan (s : State) (q : SpanReq) : State :=
  match q with
  | .takeRef h =>
    let b := s.buf (accOf h)
    if s.pkg.fmapen.getLsbD 2 && s.fresh? b.ctx h && b.proxy.isNone && decide (b.count < 2 ^ 32 - 1) then
      s.modBuf (accOf h) (fun b => { b with count := b.count + 1, imports := b.imports ++ [h] })
    else s
  | .dropRef h =>
    if (s.buf (accOf h)).live ∧ (s.buf (accOf h)).imports.contains h then
      (s.modBuf (accOf h) (fun b => { b with imports := removeOne h b.imports })).dropRef (accOf h)
    else s
  | .bind a g pages =>
    let b := s.buf a
    let dst := (pages.filter (fun p => decide (p < b.pages))).map (· + b.vbase / 2 ^ 16)
    if !b.live ∨ b.imports = [] then s
    else if dst.any (fun p => match s.leafInUse (dieHolder p) b.ctx p with | some pte => bitN pte 2 | none => false) then s
    else
      ((s.markDirty b.ctx dst).modBuf a (fun b => { b with binds := b.binds ++ [{ tag := g, view := b.vgen, writes := !pages.isEmpty }] })).sendSpan
        (tagPackage g) (.bound g)
  | .read a g off =>
    let b := s.buf a
    match b.bindOf g with
    | none => s
    | some y =>
      let va := (b.vbase + off) / 64 * 64
      if b.size ≤ off then s
      else match s.readFarLine (dieHolder (va / 2 ^ 16)) b.ctx a y.view va true false with
        | some r => r.1
        | none => s.askDie b.ctx (va / 2 ^ 16) false
  | .write a g off data d =>
    let b := s.buf a
    let va := b.vbase + off
    match b.bindOf g with
    | none => s
    | some y =>
      if b.behind y ∨ b.size < off + data.length ∨ 64 < off % 64 + data.length then s
      else s.spanWrite b.ctx (va / 2 ^ 16) (s.shadowFor (dieHolder (va / 2 ^ 16)) b.ctx a (va / 2 ^ 16)) fun s f =>
        let k := farKey 0 f + va % 2 ^ 16
        let s := s.storeBytes k data
        match d with | some v => s.setDesc k v | none => s
  | .add a g off fmt val =>
    let b := s.buf a
    let va := b.vbase + off
    match b.bindOf g, addFmt (BitVec.ofNat 16 (0x2000 + fmt)) with
    | some y, some f =>
      if b.behind y ∨ b.size < off + f.width / 8 ∨ off % (f.width / 8) ≠ 0 then s
      else s.spanWrite b.ctx (va / 2 ^ 16) (s.shadowFor (dieHolder (va / 2 ^ 16)) b.ctx a (va / 2 ^ 16)) fun s k =>
        s.addAt (farKey 0 k + va % 2 ^ 16) f val.toNat
    | _, _ => s
  | .stage a g key off fmt val =>
    let b := s.buf a
    let vpn := (b.vbase + off) / 2 ^ 16
    match b.bindOf g with
    | none => s
    | some y =>
      if b.behind y ∨ b.size ≤ off then s
      else s.spanWrite b.ctx vpn (s.stageFor (dieHolder vpn) b.ctx a vpn) fun s _ =>
        s.modBuf a (fun y => { y with staged := y.staged ++
          [{ key := key, page := vpn, off := (b.vbase + off) % 2 ^ 16, fmt := fmt, val := val }] })
  | .endCmd a g =>
    (s.modBuf a (fun b => { b with binds := b.binds.filter (fun y => decide (y.tag ≠ g)) })).releaseOld a
  | .bound g => { s with bound := s.bound ++ [g] }
/-- SPAN_REQUEST: a request arg.span of another package reaches this one, the owner (R382), or the owner's answer to its bind. -/
def execSpanRequest (s : State) : Res :=
  .next (match s.arg.span with
    | none => s
    | some q => s.serveSpan q)

end Sys2Proof.Machine
end

