-- ==== Sys2Proof/Machine/Graph.lean ====
section
/-! DEFINITION. Node records, the dependence table, launch rings and edges: a node's life up to the ready banks, and its
retirement (R110 to R113, R124 to R134, R138, R141, R145). -/

namespace Sys2Proof.Machine

/-! ### Node records (R110, R132) -/

/-- Word `k` of a record. -/
def recW (r : List Word) (k : Nat) : Nat := (r.getD k 0).toNat
/-- KIND of a record (R110): 1 compute, 2 IF, 3 WHILE, 4 SWITCH. -/
def recKind (r : List Word) : Nat := recW r 0 % 256
/-- CLASS of a record. -/
def recClass (r : List Word) : Nat := bitsN (recW r 0) 8 8
/-- FBCLS of a record. -/
def recFbcls (r : List Word) : Nat := bitsN (recW r 0) 16 8
/-- WIDTH of a record: 0 tile, 1 quad, 2 sixteen, 3 die. -/
def recWidth (r : List Word) : Nat := bitsN (recW r 0) 24 2
/-- RSTR of a record. -/
def recRstr (r : List Word) : Bool := bitN (recW r 0) 26
/-- DLATE of a record. -/
def recDlate (r : List Word) : Bool := bitN (recW r 0) 27
/-- BARR of a record. -/
def recBarr (r : List Word) : Bool := bitN (recW r 0) 28
/-- LTOL of a record. -/
def recLtol (r : List Word) : Bool := bitN (recW r 0) 29
/-- PRIO of a record. -/
def recPrio (r : List Word) : Nat := bitsN (recW r 0) 32 8
/-- NCAP of a record. -/
def recNcap (r : List Word) : Nat := bitsN (recW r 0) 40 8
/-- NDEP of a record. -/
def recNdep (r : List Word) : Nat := bitsN (recW r 0) 48 8
/-- NSUCC of a record. -/
def recNsucc (r : List Word) : Nat := bitsN (recW r 0) 56 8
/-- The record is of a control node (R132). -/
def recControl (r : List Word) : Bool := decide (2 ≤ recKind r ∧ recKind r ≤ 4)
/-- The successor list address: of a control node, inline argument 0 (R110, R132). -/
def recList (r : List Word) : Nat := if recControl r then recW r 5 else recW r 4
/-- A far address of a list or condition word (R110). -/
def listOk (a : Nat) : Bool := decide (a % 8 = 0 ∧ a < 2 ^ 55)

/-- The record breaks no requirement of R110 and R132; a fallback entry that fails R30 counts with the entry address. -/
def recOk (r : List Word) : Bool :=
  decide (1 ≤ recKind r ∧ recKind r ≤ 4 ∧ recClass r ≤ 4 ∧ recFbcls r ≤ 4 ∧ recNcap r ≤ 7 ∧ bitsN (recW r 0) 30 2 = 0)
    && pcOk (r.getD 1 0) && pcOk (r.getD 2 0) && (decide (recNsucc r = 0) || listOk (recList r))
    && (!recControl r ||
      (decide (recClass r = 0 ∧ recFbcls r = 0 ∧ recWidth r = 0 ∧ recNcap r = 0 ∧ recW r 1 = 0 ∧ recW r 2 = 0)
        && !recRstr r && listOk (recW r 4) && (if recKind r = 4 then decide (1 ≤ recNsucc r) else decide (recNsucc r = 2))))

/-- The sixteen words of a 128-byte entry at a key. -/
def State.entryWords (s : State) (k : Nat) : List Word := (List.range 16).map (fun i => BitVec.ofNat 64 (s.load (k + 8 * i) 8))
/-- The handles of an entry that its record uses (R111). -/
def entryHandles (e : List Word) : List Word := if recNcap e ≤ 7 then (e.drop 9).take (recNcap e) else []

/-! ### The table (R127, R138) -/

/-- Entries of the table that are free. -/
def State.tableFree (s : State) : Nat := Config.tableSize - s.nodes.length
/-- Ring entries and spawned nodes are admitted (R138). -/
def State.admits (s : State) : Bool := decide (4096 < s.tableFree)
/-- Place a node in a free entry, whose instance generation advances (R127); none when no entry is free. -/
def State.allot (s : State) (x : Node) : Option (State × Nat) :=
  (firstFree (fun k => (FMap.get? s.nodes k).isNone) 0 Config.tableSize s.pick (s.nodes.length + 1)).map fun n =>
    ({ s.picked with
        nodes := FMap.set s.nodes n x
        igen := FMap.set s.igen n ((FMap.getD 0 s.igen n + 1) % 2 ^ 16) }, n)
/-- The node in entry `n`. -/
def State.node? (s : State) (n : Nat) : Option Node := FMap.get? s.nodes n

/-- Node `n` is over with an outcome; its handles are dropped (R129, R131). -/
def State.endNode (s : State) (n code : Nat) : State :=
  match s.node? n with
  | none => s
  | some x => (s.modNode n (fun d => { d with outcome := some (code, 0, 0), handles := [] })).dropRefs x.handles

/-- Redeem the handles that are valid and in transit, one after another (R118, R131, R334): those redeemed, and whether
every one was. -/
def State.takeHandles (s : State) (c : Nat) : List Word → State × List Word × Bool
  | [] => (s, [], true)
  | h :: t =>
    if s.fresh? c h && (s.ctxAt c).transit.contains h then
      let r := (s.redeem c h).takeHandles c t
      (r.1, h :: r.2.1, r.2.2)
    else
      let r := s.takeHandles c t
      (r.1, r.2.1, false)

/-! ### Becoming ready (R133, R134, R139, R141, R145) -/

/-- One step of the dispatch LFSR (R139). -/
def lfsrStep (x : BitVec 16) : BitVec 16 :=
  let b := (x ^^^ (x >>> 2) ^^^ (x >>> 3) ^^^ (x >>> 5)) &&& 1
  (x >>> 1) ||| (b <<< 15)
/-- Node `n` goes into one of the banks of its class (R139). -/
def State.toBank (s : State) (n : Nat) : State :=
  { s.modNode n (fun d => { d with bank := s.lfsr.toNat % 32, lane := none, passed := 0 }) with lfsr := lfsrStep s.lfsr }

/-- A gate group of a context covers an entry address and is closed (R145). -/
def Ctx.gated (x : Ctx) (entry : Nat) : Bool :=
  (List.range 16).any fun g =>
    let lo := (x.scdReg (0x100 + 24 * g)).toNat
    let hi := (x.scdReg (0x108 + 24 * g)).toNat
    (x.scdReg (0x110 + 24 * g)).getLsbD 0 && decide (lo ≤ entry ∧ entry < hi)
/-- Node `n` is gated, by its primary entry address (R145). -/
def State.gated (s : State) (x : Node) : Bool := !recControl x.rec_ && (s.ctxAt x.ctx).gated (recW x.rec_ 1)

/-- The class that a record's node runs in, and whether that is its fallback; none when neither is there (R29, R141). -/
def State.classFor (s : State) (r : List Word) : Option (Nat × Bool) :=
  if s.classPresent (recClass r) then some (recClass r, false)
  else if s.classPresent (recFbcls r) ∧ recW r 2 ≠ 0 then some (recFbcls r, true)
  else none

/-- A compute node becomes READY: the class check, its place in the order of becoming READY, which a restarted node keeps, and its
bank (R139, R141, R144). -/
def State.makeReady (s : State) (n : Nat) : State :=
  match s.node? n with
  | none => s
  | some x => match s.classFor x.rec_ with
    | none => s.endNode n 0x10
    | some (k, fb) =>
      let again := decide (0 < x.restarts)
      ({ s with seqNo := if again then s.seqNo else s.seqNo + 1 }.modNode n (fun d => { d with
        st := .ready, cls := k, fellBack := fb, seq := if again then d.seq else s.seqNo })).toBank n

/-- Ring order lets node `n` go: it is the oldest entry of its ring that has been neither dispatched nor retired, and with
BARR the oldest that has not retired (R133, R134). -/
def State.ringTurn (s : State) (n : Nat) (x : Node) : Bool :=
  match x.source with
  | .ring r _ => match FMap.get? s.rings r with
    | some q => decide (q.pend.head? = some n) && (!recBarr x.rec_ || decide (q.unret.head? = some n))
    | none => true
  | _ => true

/-- A node that proceeds becomes ready, or is held behind ring order or a gate (R130, R133, R134, R145). A control node that
is ready is evaluated when it retires (R132). -/
def State.proceed (s : State) (n : Nat) : State :=
  match s.node? n with
  | none => s
  | some x =>
    if x.outcome.isSome then s
    else if !s.ringTurn n x || s.gated x then s.modNode n (fun d => { d with st := .held })
    else if recControl x.rec_ then s.modNode n (fun d => { d with st := .ready })
    else s.makeReady n
/-- Try to release a held node. -/
def State.release (s : State) (n : Nat) : State :=
  match s.node? n with
  | some x => if x.st = .held then s.proceed n else s
  | none => s
/-- Try to release the held nodes of a list, in order. -/
def State.releaseAll (s : State) : List Nat → State
  | [] => s
  | n :: t => (s.release n).releaseAll t

/-- Node `n` of a ring has been dispatched, or has retired: its ring goes on (R133, R134). -/
def State.ringNext (s : State) (n : Nat) (retired : Bool) : State :=
  match s.node? n with
  | none => s
  | some x => match x.source with
    | .ring r _ => match FMap.get? s.rings r with
      | none => s
      | some q =>
        let q' : Ring := { q with pend := q.pend.filter (· ≠ n), unret := if retired then q.unret.filter (· ≠ n) else q.unret }
        let rings := if 1024 ≤ r ∧ q'.unret.isEmpty then FMap.erase s.rings r else FMap.set s.rings r q'
        { s with rings := rings }.releaseAll (q'.pend.take 1)
    | _ => s

/-! ### Launch rings (R111 to R113, R378) -/

/-- Bytes from the start of an entry: of slot `h mod size`. -/
def Ring.slotAt (q : Ring) (h : Nat) : Nat := q.base + 128 * (h % 2 ^ q.lsize)
/-- The key of an entry; none while a near ring's tile is unmapped or waits (R370, R378). -/
def State.ringKey (s : State) (q : Ring) : Option Nat :=
  let a := q.slotAt q.head.toNat
  if q.host then some (farKey 1 a)
  else match s.findNear q.ctx (BitVec.ofNat 64 a) with
    | .ok t off => some (nearKey t off)
    | _ => none
/-- Entries between head and tail keep the scheduler die awake (R112). -/
def Ring.waiting (q : Ring) : Bool :=
  let d := (q.tail.toNat + 2 ^ 32 - q.head.toNat % 2 ^ 32) % 2 ^ 32
  decide (1 ≤ d ∧ d ≤ 2 ^ 31)

/-- A ring entry becomes a node (R124, R131): MALFORMED redeems nothing, HANDLE redeems and drops what it can. -/
def State.admitRing (s : State) (r : Nat) (q : Ring) (e : List Word) : State :=
  match s.allot { ctx := q.ctx, rec_ := e.take 8, source := .ring r q.head.toNat } with
  | none => s
  | some (s, n) =>
    let s := { s with rings := FMap.set s.rings r { FMap.getD q s.rings r with pend := q.pend ++ [n], unret := q.unret ++ [n] } }
    if !recOk e || decide (recNdep e ≠ 0) then s.endNode n 0x11
    else
      let h := s.takeHandles q.ctx (entryHandles e)
      let s := h.1.modNode n (fun d => { d with handles := h.2.1 })
      if h.2.2 then s.proceed n else s.endNode n 0x12

/-- RING_CONSUME: the scheduler die, awake, consumes the next slot of ring arg.n when it is ready, or goes to sleep at a slot
that is not once head has reached tail (R112); consumption waits for free table entries (R138). -/
def execRingConsume (s : State) : Res :=
  let r := s.arg.n
  .next (match FMap.get? s.rings r with
    | none => s
    | some q =>
      if !q.awake ∨ 1024 ≤ r then s
      else match s.ringKey q with
        | none => s
        | some k =>
          if s.load (k + 64) 8 = (q.head.toNat + 1) % 2 ^ 64 then
            if s.admits then
              let e := s.entryWords k
              let q' : Ring := { q with head := q.head + 1 }
              let s1 := s.store (k + 64) 8 ((q.head.toNat + 2 ^ q.lsize) % 2 ^ 64)
              ({ s1 with rings := FMap.set s1.rings r q' }).admitRing r q e
            else s
          else if q.waiting then s
          else { s with rings := FMap.set s.rings r { q with awake := false } })

/-- Judge a tail write of a task or companion of context `c` (R113): the result. -/
def State.judgeTail (s : State) (c r : Nat) (v : BitVec 32) : State × Nat :=
  match FMap.get? s.rings r with
  | none => (s, 3)
  | some q =>
    if q.ctx ≠ c ∨ 1024 ≤ r then (s, 3)
    else if 2 ^ q.lsize < (v.toNat + 2 ^ 32 - q.head.toNat % 2 ^ 32) % 2 ^ 32 then (s, 2)
    else if 1 ≤ (v - q.tail).toNat ∧ (v - q.tail).toNat ≤ 2 ^ 31 then
      ({ s with rings := FMap.set s.rings r { q with tail := v, awake := true } }, 0)
    else (s, 1)

/-! ### Decrements (R125, R126, R128, R129) -/

/-- The fate of an instance whose count has reached zero, with the entry as read again (R128, R129). -/
def State.atZero (s : State) (n c : Nat) (e : List Word) : State :=
  let s := s.modNode n (fun d => { d with rec_ := e.take 8 })
  match s.node? n with
  | none => s
  | some x =>
    let taken := s.takeHandles c (entryHandles e)
    let held := taken.1.modNode n (fun d => { d with handles := taken.2.1 })
    if x.dead && !recLtol e then held.endNode n 0x01
    else if !x.seen && !x.dead then held.endNode n 0x02
    else if !recOk e || decide (recNdep e = 0) || decide (recW e 8 ≠ 0) then s.endNode n 0x11
    else if taken.2.2 then held.proceed n
    else held.endNode n 0x12

/-- Apply a decrement to instance `n`, whose entry lies at far address `a` (R128, R129). -/
def State.decrement (s : State) (n c a kind : Nat) : State :=
  match s.node? n with
  | none => s
  | some x =>
    let apply := fun (s : State) => s.modNode n (fun d => { d with
      count := d.count - 1, seen := d.seen || decide (kind = 1), dead := d.dead || decide (kind = 2) })
    if 1 < x.count then apply s
    else match s.scd c a false with
      | .wait s => s
      | .failed s => (((apply s).modNode n (fun d => { d with rec_ := [] })).endNode n 0x13).forgetFailed c a
      | .ok s k => (apply s).atZero n c (s.entryWords k)

/-- The newest live instance of a key with a count above zero; a key never has two (R128). -/
def State.instanceOf (s : State) (c a : Nat) : Option Nat :=
  (s.nodes.find? (fun n => decide (n.2.ctx = c ∧ n.2.source = .graph a ∧ 0 < n.2.count) && n.2.outcome.isNone)).map (·.1)
/-- Drop the decrement at place `n`. -/
def State.dropEdge (s : State) (n : Nat) : State := { s with edges := dropAt s.edges n }

/-- EDGE_DECREMENT: the decrement at place arg.n on its way is applied to its instance, which it creates when there is none
(R128, R129); it waits for a page answer, and for a free entry, with TABLE_FULL (R138). Decrements to one key keep their
order. -/
def execEdgeDecrement (s : State) : Res :=
  .next (match s.edges[s.arg.n]? with
    | none => s
    | some e =>
      if (s.edges.take s.arg.n).any (fun f => decide (f.ctx = e.ctx ∧ f.addr = e.addr)) then s
      else match s.instanceOf e.ctx e.addr with
        | some n =>
          let s1 := s.decrement n e.ctx e.addr e.kind
          if (s1.node? n).map (·.count) = (s.node? n).map (·.count) then s1 else s1.dropEdge s.arg.n
        | none =>
          if s.tableFree = 0 then
            if e.full then s
            else { s with edges := modAt (fun f => { f with full := true }) s.edges s.arg.n }.post e.ctx 0x21 0 0 0
          else match s.scd e.ctx e.addr false with
            | .wait s => s
            | .failed s => ((s.post e.ctx 0x20 0 e.sender.toNat e.list).dropEdge s.arg.n).forgetFailed e.ctx e.addr
            | .ok s k =>
              match s.allot { ctx := e.ctx, rec_ := (s.entryWords k).take 8, source := .graph e.addr } with
              | none => s
              | some (s, n) =>
                ((s.modNode n (fun d => { d with count := max 1 (recNdep d.rec_) })).decrement n e.ctx e.addr e.kind).dropEdge
                  s.arg.n)

/-! ### Retirement (R126, R130 to R132, R144) -/

/-- The kind of decrement that an outcome sends (R129, R131): 1 LIVE, 0 SKIP, 2 DEAD. -/
def outcomeKind (code : Nat) : Nat := if code = 0 then 1 else if code = 2 then 0 else 2
/-- What a retiring node sends to its successors, by place in the list: without an evaluation, by its outcome; WHILE then
only to successor 1 (R132). -/
def sendsOf (r : List Word) (code : Nat) : List (Nat × Nat) :=
  if !listOk (recList r) then []
  else if recKind r = 3 then (if 2 ≤ recNsucc r then [(1, outcomeKind code)] else [])
  else (List.range (recNsucc r)).map (fun k => (k, outcomeKind code))
/-- What an evaluated control node with condition `c` sends (R132). -/
def controlSends (r : List Word) (c : Word) : List (Nat × Nat) :=
  if recKind r = 2 then (if c = 0 then [(0, 0), (1, 1)] else [(0, 1), (1, 0)])
  else if recKind r = 3 then (if c.toInt > 0 then [(0, 1)] else [(1, 1)])
  else
    let k := min c.toNat (recNsucc r - 1)
    (List.range (recNsucc r)).map (fun i => (i, if i = k then 1 else 0))

/-- A successor list as read: the far address of each entry to be sent along, its kind, and its value when it could be
read. -/
inductive ListRes where
  | ok (s : State) (l : List (Nat × Nat × Option Nat))
  | wait (s : State)
  deriving DecidableEq, Repr
/-- Read the entries of a list (R126). -/
def State.readList (s : State) (c base : Nat) : List (Nat × Nat) → ListRes
  | [] => .ok s []
  | (i, kind) :: t =>
    let a := base + 8 * i
    match s.scd c a false with
    | .wait s => .wait s
    | .failed s => match s.readList c base t with
      | .ok s l => .ok s ((a, kind, none) :: l)
      | w => w
    | .ok s k => match s.readList c base t with
      | .ok s l => .ok s ((a, kind, some (s.load k 8)) :: l)
      | w => w
/-- Send the decrements of a list as read, in order; BAD_EDGE where there is none to send (R126). -/
def State.sendEdges (s : State) (c : Nat) (id : Word) : List (Nat × Nat × Option Nat) → State
  | [] => s
  | (a, kind, v) :: t =>
    let s := match v with
      | some v =>
        let e : Edge := { ctx := c, kind := kind, addr := v, sender := id, list := a }
        if v % 128 = 0 ∧ v < 2 ^ 55 then { s with edges := s.edges ++ [e] }
        else s.post c 0x20 0 id.toNat a
      | none => (s.post c 0x20 0 id.toNat a).forgetFailed c a
    s.sendEdges c id t

/-- A tile of a node that is over has no unit left that has begun. -/
def Tile.drained (x : Tile) : Bool :=
  x.ce.cmds.isEmpty && x.ie.cmds.isEmpty && x.ve.run.isNone && x.xe.run.isNone && x.mat.tensor.isEmpty
/-- A tile whose task has gone: what stays is its own (R14, R386); everything else is set at the next dispatch (R40). -/
def Tile.vacate (t : Tile) : Tile :=
  { lastCtx := t.lastCtx, icache := t.icache, ebud := t.ebud, ebudUsed := t.ebudUsed, nextTx := t.nextTx, issueNo := t.issueNo, banks := t.banks }
/-- The tiles of a task are free again. -/
def State.vacateGang (s : State) (n : Nat) : State :=
  (s.members n).foldl (fun s m => s.modTile m.1 Tile.vacate) s
/-- The node's virtual block. -/
def Node.holdsTile (x : Node) (v : Nat) : Bool := decide (x.vfirst ≤ v ∧ v < x.vfirst + x.vsize)
/-- The tiles of a retired task are free again, its virtual tiles unmapped (R143). -/
def State.freeGang (s : State) (n : Nat) (x : Node) : State :=
  (s.vacateGang n).modCtx x.ctx (fun c => { c with tmap := c.tmap.filter (fun v => !x.holdsTile v.1) })
/-- Free the entry of node `n` (R130 step 5). A reserve entry of a node that was never dispatched does not come back (DESIGN CHOICE,
log 87). -/
def State.freeEntry (s : State) (n : Nat) (x : Node) : State :=
  let s := (s.freeGang n x).ringNext n true
  { s with nodes := FMap.erase s.nodes n }
/-- The event that an outcome calls for (R131, R379). -/
def State.outcomeEvent (s : State) (c n code cause : Nat) (tval : Word) : State :=
  if code = 0 ∨ code = 2 then s
  else if code = 0x14 ∨ code = 0x15 then s.post c code cause (s.nodeId n) tval.toNat
  else s.post c code 0 (s.nodeId n) 0

/-- The decrements of node `n` have all been applied (R130 steps 3 to 5, R138): its event is posted and its entry freed; until then
its completion waits. -/
def State.endRetire (s : State) (n : Nat) (x : Node) (code cause : Nat) (tval : Word) : State :=
  if s.edges.any (fun e => decide (e.ctx = x.ctx ∧ e.sender = BitVec.ofNat 64 (s.nodeId n))) then s
  else (s.outcomeEvent x.ctx n code cause tval).freeEntry n x
/-- Retire node `n` with an outcome, sending the decrements of its list as read (R130). -/
def State.retireAs (s : State) (n : Nat) (x : Node) (code cause : Nat) (tval : Word) (l : List (Nat × Nat × Option Nat)) : State :=
  let s := (s.modNode n (fun d => { d with
    snapshot := none, handles := [], sending := true, outcome := some (code, cause, tval) })).dropRefs (x.handles ++ oneEach (x.snapshot.getD []))
  (s.sendEdges x.ctx (BitVec.ofNat 64 (s.nodeId n)) l).endRetire n x code cause tval
/-- Read the list of node `n`, which is over, and retire it; none while a page of the list waits (R126, R130). -/
def State.retireNode (s : State) (n : Nat) (x : Node) (code cause : Nat) (tval : Word) (sends : List (Nat × Nat)) : State :=
  match s.readList x.ctx (recList x.rec_) sends with
  | .wait s => s
  | .ok s l => s.retireAs n x code cause tval l

/-- A restart of a node abandoned with HW_ERROR is allowed (R144). -/
def Node.mayRestart (x : Node) (code : Nat) : Bool :=
  decide (code = 0x15) && recRstr x.rec_ && decide (x.restarts < 2) && !x.noRestart
/-- Discard the shadow frame of one page of a buffer, with the staged updates of the buffer (R144, R263); no attempt has written it any
more. -/
def State.discardPage (s : State) (a vpn : Nat) : State :=
  let b := s.buf a
  let s1 := s.freeFrames b.ctx ((FMap.get? b.shadow vpn).toList ++ b.stage.map (·.2))
  let s2 := { s1 with nodes := s1.nodes.map (fun (n : Nat × Node) => (n.1, { n.2 with wrote := n.2.wrote.filter (fun w => decide (w ≠ (a, vpn))) })) }
  s2.setBuf a { b with shadow := FMap.erase b.shadow vpn, staged := [], stage := [] }
/-- Withdraw the handles of a list that are in transit, one reference each (R144). -/
def State.withdraw (s : State) (c : Nat) : List Word → State
  | [] => s
  | h :: t =>
    (if (s.ctxAt c).transit.contains h then
      (s.modCtx c (fun x => { x with transit := removeOne h x.transit })).dropRef (accOf h) else s).withdraw c t
/-- Return a node to READY for a restart (R144): transits of the attempt withdrawn, shadows it wrote discarded, tiles freed,
its block kept, where accesses wait. -/
def State.restart (s : State) (n : Nat) (x : Node) : State :=
  let s1 := s.modCtx x.ctx (fun c => { c with
    tmap := c.tmap.map (fun v => if x.holdsTile v.1 then (v.1, { v.2 with saved := true }) else v) })
  let s2 := x.wrote.foldl (fun s w => s.discardPage w.1 w.2) ((s1.modNode n (fun d => { d with xfers := [], wrote := [] })).withdraw x.ctx x.xfers)
  ((s2.vacateGang n).modNode n (fun d => { d with outcome := none, gang := [], restarts := d.restarts + 1 })).makeReady n

/-- A ready control node is evaluated and retires (R132). -/
def State.evaluate (s : State) (n : Nat) (x : Node) : State :=
  let fail := fun (s : State) => (s.endNode n 0x13).forgetFailed x.ctx (recW x.rec_ 4)
  match s.scd x.ctx (recW x.rec_ 4) false with
  | .wait s => s
  | .failed s => fail s
  | .ok s k =>
    let c := BitVec.ofNat 64 (s.load k 8)
    let sends := controlSends x.rec_ c
    if recKind x.rec_ = 3 ∧ c.toInt > 0 then
      match s.scd x.ctx (recW x.rec_ 4) true with
      | .wait s => s
      | .failed s => fail s
      | .ok s k => match s.readList x.ctx (recList x.rec_) sends with
        | .wait s => s
        | .ok s l => (s.store k 8 (c.toNat - 1)).retireAs n x 0 0 0 l
    else s.retireNode n x 0 0 0 sends

/-- NODE_RETIRE: the node in table entry arg.n, which has its outcome, no member that is still to stop (R92, R142) and no unit under way,
retires in the order of R130, or
restarts (R144); a ready control node is evaluated and retires (R132), not while a debugger holds its context (R147); a node whose
decrements were still on their way retires once they have been applied (R138). -/
def execNodeRetire (s : State) : Res :=
  let n := s.arg.n
  .next (match s.node? n with
    | none => s
    | some x => match x.outcome with
      | some (code, cause, tval) =>
        if (s.members n).any (fun m => !m.2.drained || !m.2.fin) then s
        else if x.sending then s.endRetire n x code cause tval
        else if x.mayRestart code then s.restart n x
        else s.retireNode n x code cause tval (sendsOf x.rec_ code)
      | none =>
        if recControl x.rec_ && decide (x.st = .ready) && !s.heldCtx x.ctx then s.evaluate n x else s)

end Sys2Proof.Machine
end

