-- ==== Sys2Proof/WellFormed.lean ====
section
/-! DEFINITION. The checks on an instruction's fields that its format alone does not make: the values that the opcode map and
the engine chapters call illegal. A decoder keeps only instructions that pass. -/

namespace Sys2Proof

/-- A register number derived by adding `k` names a register (R210, R276). -/
def derived (r : BitVec 5) (k : Nat) : Bool := r.toNat + k ≤ 31

/-- A mask-operation source of kind 00 names m0 to m7 (R219). -/
def maskSource (k : BitVec 1) (f : BitVec 5) : Bool := k ≠ 0 || f.toNat < 8

/-- The fields of an instruction hold values that its description allows. -/
def Instr.wf : Instr → Bool
  | .add _ _ _ => true
  | .sub _ _ _ => true
  | .addw _ _ _ => true
  | .subw _ _ _ => true
  | .mul _ _ _ => true
  | .mulh _ _ _ => true
  | .mulhz _ _ _ => true
  | .div _ _ _ => true
  | .divz _ _ _ => true
  | .rem _ _ _ => true
  | .remz _ _ _ => true
  | .and _ _ _ => true
  | .or _ _ _ => true
  | .xor _ _ _ => true
  | .andn _ _ _ => true
  | .shl _ _ _ => true
  | .shr _ _ _ => true
  | .sar _ _ _ => true
  | .min _ _ _ => true
  | .max _ _ _ => true
  | .minz _ _ _ => true
  | .maxz _ _ _ => true
  | .clz _ _ => true
  | .ctz _ _ => true
  | .popc _ _ => true
  | .addi _ _ _ => true
  | .andi _ _ _ => true
  | .ori _ _ _ => true
  | .xori _ _ _ => true
  | .shli _ _ _ => true
  | .shri _ _ _ => true
  | .sari _ _ _ => true
  | .movw _ _ => true
  | .movk _ _ _ => true
  | .cmp _ cond _ _ => cond.toNat < 12
  | .cmpi _ cond _ _ => cond.toNat < 12
  | .pand _ _ _ => true
  | .por _ _ _ => true
  | .pxor _ _ _ => true
  | .pandn _ _ _ => true
  | .pnot _ _ => true
  | .pset _ _ => true
  | .sel _ _ _ _ => true
  | .bfx _ _ pos wm1 => pos.toNat + wm1.toNat + 1 ≤ 64
  | .bfxs _ _ pos wm1 => pos.toNat + wm1.toNat + 1 ≤ 64
  | .bfi _ _ pos wm1 => pos.toNat + wm1.toNat + 1 ≤ 64
  | .br _ _ => true
  | .brF _ _ => true
  | .j _ => true
  | .jal _ => true
  | .jr _ => true
  | .jalr _ _ => true
  | .bdec _ _ => true
  | .ld _ _ size z _ => !(z = 1 && size = 3)
  | .st _ _ _ _ => true
  | .lde _ _ size z _ => !(z = 1 && size = 3)
  | .ste _ _ _ _ => true
  | .amoAdd _ _ _ _ _ => true
  | .amoAnd _ _ _ _ _ => true
  | .amoOr _ _ _ _ _ => true
  | .amoXor _ _ _ _ _ => true
  | .amoMin _ _ _ _ _ => true
  | .amoMax _ _ _ _ _ => true
  | .amoMinz _ _ _ _ _ => true
  | .amoMaxz _ _ _ _ _ => true
  | .amoSwap _ _ _ _ _ => true
  | .amoCas _ _ _ _ _ => true
  | .phase scope => scope.toNat ≤ 4
  | .fence scope => scope.toNat ≤ 4
  | .bar scope => scope.toNat ≤ 4
  | .bara scope => scope.toNat ≤ 4
  | .barw scope => scope.toNat ≤ 4
  | .capq _ _ => true
  | .capdup _ _ => true
  | .capdrop _ => true
  | .capnew _ _ _ => true
  | .cappub _ => true
  | .capnrw _ _ => true
  | .capxfer _ _ => true
  | .caprt _ _ => true
  | .dset _ _ => true
  | .dget _ _ => true
  | .erun _ _ _ _ _ => true
  | .eset _ _ _ => true
  | .eget _ _ _ => true
  | .ewait _ => true
  | .estat _ _ => true
  | .ekld _ _ _ _ => true
  | .estop _ _ => true
  | .eprg _ _ _ _ => true
  | .fpr _ _ => true
  | .cpy _ _ _ => true
  | .idx _ _ _ => true
  | .tkpush pair => pair ≠ 3
  | .tkpop pair => pair ≠ 3
  | .tktest _ pair => pair ≠ 3
  | .rddbc _ => true
  | .rdaot _ => true
  | .sleepu _ => true
  | .sleepa _ => true
  | .stamp _ _ => true
  | .rqpop _ => true
  | .rqpeek _ => true
  | .xbwait _ _ => true
  | .xbtest _ _ => true
  | .xbarm _ _ => true
  | .hold _ _ _ => true
  | .free _ => true
  | .chlink _ _ => true
  | .chkick _ => true
  | .scwait _ _ => true
  | .scpost _ _ => true
  | .qinit _ => true
  | .qpush _ _ => true
  | .qpop _ _ => true
  | .spawn _ _ _ => true
  | .done => true
  | .condw _ _ _ => true
  | .yield => true
  | .self _ => true
  | .deadl _ => true
  | .tailw _ _ _ => true
  | .headr _ _ => true
  | .taga _ _ _ => true
  | .tagf _ => true
  | .meet _ _ _ _ => true
  | .mfs _ sr => sr.toNat < 16
  | .mts _ sr => sr.toNat < 16
  | .trap _ => true
  | .rte => true
  | .icinv scope => scope.toNat ≤ 4
  | .wfe => true
  | .halt => true
  | .illegalWord _ => true
  | .vaddF _ _ _ _ _ _ _ => true
  | .vsubF _ _ _ _ _ _ _ => true
  | .vmulF _ _ _ _ _ _ _ => true
  | .vfmaF _ _ _ _ _ _ _ => true
  | .vminF _ _ _ _ _ _ _ => true
  | .vmaxF _ _ _ _ _ _ _ => true
  | .vabsF _ _ _ _ _ => true
  | .vnegF _ _ _ _ _ => true
  | .vcvt _ kA _ _ code _ _ => code.toNat ≤ 0x12 && !(kA = 3 && 0x0A ≤ code.toNat && code.toNat ≤ 0x0F)
  | .vexp2 _ _ _ _ => true
  | .vlog2 _ _ _ _ => true
  | .vrcp _ _ _ _ => true
  | .vrsq _ _ _ _ => true
  | .vtanh _ _ _ _ => true
  | .vcmpF h _ _ _ _ _ _ l => h.toNat * 4 + l.toNat ≤ 5 || h.toNat * 4 + l.toNat = 10
  | .vaddI _ _ _ _ _ _ _ => true
  | .vsubI _ _ _ _ _ _ _ => true
  | .vmulI _ _ _ _ _ _ _ => true
  | .vmacI _ _ _ _ _ _ _ => true
  | .vand _ _ _ _ _ _ => true
  | .vor _ _ _ _ _ _ => true
  | .vxor _ _ _ _ _ _ => true
  | .vshl _ _ _ _ _ _ _ => true
  | .vshr _ _ _ _ _ _ _ => true
  | .vsar _ _ _ _ _ _ _ => true
  | .vminI _ _ _ _ _ _ _ => true
  | .vmaxI _ _ _ _ _ _ _ => true
  | .vsat _ _ _ _ _ _ _ => true
  | .vcmpI h _ _ _ _ _ _ l => h.toNat * 4 + l.toNat ≤ 9
  | .mand _ kA A kB B => maskSource kA A && maskSource kB B
  | .mor _ kA A kB B => maskSource kA A && maskSource kB B
  | .mxor _ kA A kB B => maskSource kA A && maskSource kB B
  | .mnot _ kA A => maskSource kA A
  | .mpopc _ kA A => maskSource kA A
  | .vmov _ _ _ _ => true
  | .vsel _ _ _ _ _ _ => true
  | .vbcast _ _ kB _ _ => kB ≠ 0
  | .vperm _ _ _ _ => true
  | .vred _ _ op _ => op.toNat ≤ 10
  | .vld _ _ _ _ _ => true
  | .vst _ _ _ _ _ _ => true
  | .vldx _ _ _ _ => true
  | .vstx _ _ _ _ => true
  | .vsk48 d _ _ => derived d 1
  | .vxp48 _ _ _ _ => true
  | .vqnt d A kB _ _ => (d.toNat ≤ 1 || (4 ≤ d.toNat && d.toNat ≤ 7 && derived A 1)) && (kB = 1 || kB = 2)
  | .vdq _ kA _ kB _ _ => (kA = 1 || kA = 2) && kB ≠ 0
  | .vpushc _ kB _ _ => kB = 1 || kB = 2
  | .vpopc _ kB _ _ => kB = 1 || kB = 2
  | .eaddi _ _ => true
  | .emovi e imm => !(e = 0 && bitN imm.toNat 16 && bitsN imm.toNat 5 11 ≠ 0)
  | .kbase _ => true
  | .loop _ body => body ≠ 0
  | .loopp _ body stages => body ≠ 0 && 1 ≤ stages.toNat && stages.toNat ≤ 8
  | .endl => true
  | .sstop => true
  | .snop => true
  | .mma _ eA eB _ _ _ => derived eA 1 && derived eB 1
  | .mmaR _ eA eB _ _ _ => derived eA 2 && derived eB 1
  | .mmaS _ eA eB _ _ _ => derived eA 1 && derived eB 1
  | .accnew _ _ => true
  | .accz _ _ => true
  | .accld _ _ _ _ => true
  | .drain _ _ _ _ => true
  | .mdld _ _ => true
  | .bstr n _ => n.toNat ≤ 11
  | .bfs eX dst L c P D _ OF => 1 ≤ L.toNat && L.toNat ≤ 12 && c.toNat ≤ 11 && P = 0 && derived eX 2 &&
    (if D = 0 then derived dst 1 else OF = 1 && L.toNat ≤ 5 && dst.toNat < 8)
  | .bfc eX dst L c P D _ OF => 1 ≤ L.toNat && L.toNat ≤ 12 && c.toNat ≤ 11 && !(P = 1 && c = 0) && derived eX 2 &&
    (if D = 0 then derived dst 1 else OF = 1 && L.toNat ≤ 5 && dst.toNat < 8)
  | .sort eA eD kt _ _ => kt.toNat ≤ 4 && derived eA 2 && derived eD 2
  | .topk eA _ eD kt _ _ => kt.toNat ≤ 4 && derived eA 2 && derived eD 2
  | .merge eA eB eD kt _ _ => kt.toNat ≤ 4 && derived eA 2 && derived eD 2 && derived eB 2
  | .segsort eA eB eD kt _ _ => kt.toNat ≤ 4 && derived eA 2 && derived eD 2 && derived eB 2
  | .uniq eA eD kt ds _ => kt.toNat ≤ 4 && derived eA 2 && derived eD 2 && ds = 0
  | .rankof eA eB eD kt _ pl => kt.toNat ≤ 4 && derived eA 2 && derived eD 2 && derived eB 2 && pl = 0
  | .spmv _ _ eY _ _ => derived eY 2
  | .spmm _ eX eY _ _ => derived eX 2 && derived eY 2
  | .spgemm _ _ eY => derived eY 2
  | .tdir _ => true
  | .engineEntryStart => true
  | .engineEntryComplete => true
  | .stampBeat => true
  | .engineWatchdog => true
  | .copy => true
  | .gfill => true
  | .fill => true
  | .mcast => true
  | .chnop => true
  | .gather => true
  | .scatter => true
  | .gpool => true
  | .scadd => true
  | .hashacc => true
  | .densify => true
  | .compact => true
  | .commandSignals => true
  | .chainBlockFetch => true
  | .promiseMiss => true
  | .scratchpadClear => true
  | .barrierCompletion => true
  | .nearRead => true
  | .nearWrite => true
  | .farRead => true
  | .farWrite => true
  | .readReturn => true
  | .writeAcknowledgement => true
  | .landingWrite => true
  | .barrierMessage => true
  | .schedulerMessage => true
  | .arbitrationGrant => true
  | .packetAging => true
  | .meetingOperand => true
  | .meetingResult => true
  | .meetingWithdrawal => true
  | .heldOperandTaken => true
  | .meetingTimeout => true
  | .replyPlacement => true
  | .ringConsume => true
  | .edgeDecrement => true
  | .spawnQueueDrain => true
  | .spawnProbe => true
  | .spawnStarved => true
  | .dispatchPop => true
  | .strictLanePromotion => true
  | .nodeRetire => true
  | .preemption => true
  | .taskWatchdog => true
  | .faultDelivery => true
  | .softError => true
  | .debugHalt => true
  | .debugRelease => true
  | .pageWalkComplete => true
  | .pageRequest => true
  | .prespRetry => true
  | .prespFail => true
  | .invreq => true
  | .invalidationComplete => true
  | .pageSwap => true
  | .frameRelease => true
  | .acvalClr => true
  | .nqctlWrite => true
  | .prqctlWrite => true
  | .contextCreate => true
  | .contextEnd => true
  | .create => true
  | .grant => true
  | .revoke => true
  | .importBuf => true
  | .ringreg => true
  | .ringdel => true
  | .rtail => true
  | .registerWrite => true
  | .fmapdrvWrite => true
  | .ckptStart => true
  | .ckptDone => true
  | .ebudRefill => true
  | .correctedError => true
  | .unitDrain => true
  | .spanLinkFailure => true
  | .memoryUncorrectableError => true
  | .powerOn => true
  | .linkTraining => true
  | .getVersion => true
  | .getCapabilities => true
  | .negotiateAlgorithms => true
  | .getDigests => true
  | .getCertificate => true
  | .challenge => true
  | .getMeasurements => true
  | .keyExchange => true
  | .finish => true
  | .endSession => true
  | .keygen => true
  | .keydel => true
  | .spdmUnsupportedRequest => true
  | .sleepExpiry => true
  | .illegalMicroOrder _ => true
  | .driverRequestUnknownOp => true
  | .companionFarWrite => true
  | .spanRequest => true

end Sys2Proof
end

