-- ==== Sys2Proof/Decode.lean ====
section
/-! DEFINITION. The decoders of the sequencer and of the four step-table engines (R32 to R38, R44 to R50, R55, R56), total on
every word, and the encoder. The unit that fetches a word decides which decoder reads it: codes of one unit mean something
else in another (R44, R331). -/

namespace Sys2Proof

/-- The field of `n` bits that starts at bit `lo` of a word. -/
def fld (w lo n : Nat) : BitVec n := BitVec.ofNat n (w / 2 ^ lo)

/-- Words of major 0x01, before the checks of Instr.wf (R34). -/
def decodeMajor01 (w : Nat) : Instr :=
  if bitsN w 0 11 = 0x0 then .add (fld w 21 5) (fld w 16 5) (fld w 11 5) else
  if bitsN w 0 11 = 0x1 then .sub (fld w 21 5) (fld w 16 5) (fld w 11 5) else
  if bitsN w 0 11 = 0x2 then .addw (fld w 21 5) (fld w 16 5) (fld w 11 5) else
  if bitsN w 0 11 = 0x3 then .subw (fld w 21 5) (fld w 16 5) (fld w 11 5) else
  if bitsN w 0 11 = 0x4 then .mul (fld w 21 5) (fld w 16 5) (fld w 11 5) else
  if bitsN w 0 11 = 0x5 then .mulh (fld w 21 5) (fld w 16 5) (fld w 11 5) else
  if bitsN w 0 11 = 0x6 then .mulhz (fld w 21 5) (fld w 16 5) (fld w 11 5) else
  if bitsN w 0 11 = 0x8 then .div (fld w 21 5) (fld w 16 5) (fld w 11 5) else
  if bitsN w 0 11 = 0x9 then .divz (fld w 21 5) (fld w 16 5) (fld w 11 5) else
  if bitsN w 0 11 = 0xa then .rem (fld w 21 5) (fld w 16 5) (fld w 11 5) else
  if bitsN w 0 11 = 0xb then .remz (fld w 21 5) (fld w 16 5) (fld w 11 5) else
  if bitsN w 0 11 = 0x10 then .and (fld w 21 5) (fld w 16 5) (fld w 11 5) else
  if bitsN w 0 11 = 0x11 then .or (fld w 21 5) (fld w 16 5) (fld w 11 5) else
  if bitsN w 0 11 = 0x12 then .xor (fld w 21 5) (fld w 16 5) (fld w 11 5) else
  if bitsN w 0 11 = 0x13 then .andn (fld w 21 5) (fld w 16 5) (fld w 11 5) else
  if bitsN w 0 11 = 0x18 then .shl (fld w 21 5) (fld w 16 5) (fld w 11 5) else
  if bitsN w 0 11 = 0x19 then .shr (fld w 21 5) (fld w 16 5) (fld w 11 5) else
  if bitsN w 0 11 = 0x1a then .sar (fld w 21 5) (fld w 16 5) (fld w 11 5) else
  if bitsN w 0 11 = 0x20 then .min (fld w 21 5) (fld w 16 5) (fld w 11 5) else
  if bitsN w 0 11 = 0x21 then .max (fld w 21 5) (fld w 16 5) (fld w 11 5) else
  if bitsN w 0 11 = 0x22 then .minz (fld w 21 5) (fld w 16 5) (fld w 11 5) else
  if bitsN w 0 11 = 0x23 then .maxz (fld w 21 5) (fld w 16 5) (fld w 11 5) else
  if bitsN w 0 16 = 0x28 then .clz (fld w 21 5) (fld w 16 5) else
  if bitsN w 0 16 = 0x29 then .ctz (fld w 21 5) (fld w 16 5) else
  if bitsN w 0 16 = 0x2a then .popc (fld w 21 5) (fld w 16 5) else
  .illegalWord (BitVec.ofNat 32 w)

/-- Words of major 0x02, before the checks of Instr.wf (R34). -/
def decodeMajor02 (w : Nat) : Instr :=
  .addi (fld w 21 5) (fld w 16 5) (fld w 0 16)

/-- Words of major 0x03, before the checks of Instr.wf (R34). -/
def decodeMajor03 (w : Nat) : Instr :=
  .andi (fld w 21 5) (fld w 16 5) (fld w 0 16)

/-- Words of major 0x04, before the checks of Instr.wf (R34). -/
def decodeMajor04 (w : Nat) : Instr :=
  .ori (fld w 21 5) (fld w 16 5) (fld w 0 16)

/-- Words of major 0x05, before the checks of Instr.wf (R34). -/
def decodeMajor05 (w : Nat) : Instr :=
  .xori (fld w 21 5) (fld w 16 5) (fld w 0 16)

/-- Words of major 0x06, before the checks of Instr.wf (R34). -/
def decodeMajor06 (w : Nat) : Instr :=
  if bitsN w 6 10 = 0x0 then .shli (fld w 21 5) (fld w 16 5) (fld w 0 6) else
  if bitsN w 6 10 = 0x1 then .shri (fld w 21 5) (fld w 16 5) (fld w 0 6) else
  if bitsN w 6 10 = 0x2 then .sari (fld w 21 5) (fld w 16 5) (fld w 0 6) else
  .illegalWord (BitVec.ofNat 32 w)

/-- Words of major 0x07, before the checks of Instr.wf (R34). -/
def decodeMajor07 (w : Nat) : Instr :=
  if bitsN w 16 5 = 0x0 then .movw (fld w 21 5) (fld w 0 16) else
  .illegalWord (BitVec.ofNat 32 w)

/-- Words of major 0x08, before the checks of Instr.wf (R34). -/
def decodeMajor08 (w : Nat) : Instr :=
  if bitsN w 18 3 = 0x0 then .movk (fld w 21 5) (fld w 16 2) (fld w 0 16) else
  .illegalWord (BitVec.ofNat 32 w)

/-- Words of major 0x0A, before the checks of Instr.wf (R34). -/
def decodeMajor0A (w : Nat) : Instr :=
  if bitsN w 0 9 = 0x0 then .cmp (fld w 23 3) (fld w 19 4) (fld w 14 5) (fld w 9 5) else
  .illegalWord (BitVec.ofNat 32 w)

/-- Words of major 0x0B, before the checks of Instr.wf (R34). -/
def decodeMajor0B (w : Nat) : Instr :=
  .cmpi (fld w 23 3) (fld w 19 4) (fld w 14 5) (fld w 0 14)

/-- Words of major 0x0C, before the checks of Instr.wf (R34). -/
def decodeMajor0C (w : Nat) : Instr :=
  if bitsN w 0 17 = 0x0 then .pand (fld w 23 3) (fld w 20 3) (fld w 17 3) else
  if bitsN w 0 17 = 0x4000 then .por (fld w 23 3) (fld w 20 3) (fld w 17 3) else
  if bitsN w 0 17 = 0x8000 then .pxor (fld w 23 3) (fld w 20 3) (fld w 17 3) else
  if bitsN w 0 17 = 0xc000 then .pandn (fld w 23 3) (fld w 20 3) (fld w 17 3) else
  if bitsN w 0 20 = 0x10000 then .pnot (fld w 23 3) (fld w 20 3) else
  if bitsN w 0 13 = 0x0 ∧ bitsN w 14 9 = 0x5 then .pset (fld w 23 3) (fld w 13 1) else
  .illegalWord (BitVec.ofNat 32 w)

/-- Words of major 0x0D, before the checks of Instr.wf (R34). -/
def decodeMajor0D (w : Nat) : Instr :=
  if bitsN w 3 8 = 0x0 then .sel (fld w 21 5) (fld w 16 5) (fld w 11 5) (fld w 0 3) else
  .illegalWord (BitVec.ofNat 32 w)

/-- Words of major 0x0E, before the checks of Instr.wf (R34). -/
def decodeMajor0E (w : Nat) : Instr :=
  if bitsN w 0 4 = 0x0 then .bfx (fld w 21 5) (fld w 16 5) (fld w 10 6) (fld w 4 6) else
  if bitsN w 0 4 = 0x1 then .bfxs (fld w 21 5) (fld w 16 5) (fld w 10 6) (fld w 4 6) else
  if bitsN w 0 4 = 0x2 then .bfi (fld w 21 5) (fld w 16 5) (fld w 10 6) (fld w 4 6) else
  .illegalWord (BitVec.ofNat 32 w)

/-- Words of major 0x10, before the checks of Instr.wf (R34). -/
def decodeMajor10 (w : Nat) : Instr :=
  if bitsN w 22 1 = 0x0 then .br (fld w 23 3) (fld w 0 22) else
  if bitsN w 22 1 = 0x1 then .brF (fld w 23 3) (fld w 0 22) else
  .illegalWord (BitVec.ofNat 32 w)

/-- Words of major 0x11, before the checks of Instr.wf (R34). -/
def decodeMajor11 (w : Nat) : Instr :=
  .j (fld w 0 26)

/-- Words of major 0x12, before the checks of Instr.wf (R34). -/
def decodeMajor12 (w : Nat) : Instr :=
  .jal (fld w 0 26)

/-- Words of major 0x13, before the checks of Instr.wf (R34). -/
def decodeMajor13 (w : Nat) : Instr :=
  if bitsN w 0 16 = 0x0 ∧ bitsN w 21 5 = 0x0 then .jr (fld w 16 5) else
  if bitsN w 0 16 = 0x1 then .jalr (fld w 21 5) (fld w 16 5) else
  .illegalWord (BitVec.ofNat 32 w)

/-- Words of major 0x14, before the checks of Instr.wf (R34). -/
def decodeMajor14 (w : Nat) : Instr :=
  .bdec (fld w 21 5) (fld w 0 21)

/-- Words of major 0x18, before the checks of Instr.wf (R34). -/
def decodeMajor18 (w : Nat) : Instr :=
  .ld (fld w 21 5) (fld w 16 5) (fld w 14 2) (fld w 13 1) (fld w 0 13)

/-- Words of major 0x19, before the checks of Instr.wf (R34). -/
def decodeMajor19 (w : Nat) : Instr :=
  if bitsN w 13 1 = 0x0 then .st (fld w 21 5) (fld w 16 5) (fld w 14 2) (fld w 0 13) else
  .illegalWord (BitVec.ofNat 32 w)

/-- Words of major 0x1A, before the checks of Instr.wf (R34). -/
def decodeMajor1A (w : Nat) : Instr :=
  .lde (fld w 21 5) (fld w 16 5) (fld w 14 2) (fld w 13 1) (fld w 0 13)

/-- Words of major 0x1B, before the checks of Instr.wf (R34). -/
def decodeMajor1B (w : Nat) : Instr :=
  if bitsN w 13 1 = 0x0 then .ste (fld w 21 5) (fld w 16 5) (fld w 14 2) (fld w 0 13) else
  .illegalWord (BitVec.ofNat 32 w)

/-- Words of major 0x1C, before the checks of Instr.wf (R34). -/
def decodeMajor1C (w : Nat) : Instr :=
  if bitsN w 0 4 = 0x0 ∧ bitsN w 7 4 = 0x0 then .amoAdd (fld w 21 5) (fld w 16 5) (fld w 11 5) (fld w 5 2) (fld w 4 1) else
  if bitsN w 0 4 = 0x1 ∧ bitsN w 7 4 = 0x0 then .amoAnd (fld w 21 5) (fld w 16 5) (fld w 11 5) (fld w 5 2) (fld w 4 1) else
  if bitsN w 0 4 = 0x2 ∧ bitsN w 7 4 = 0x0 then .amoOr (fld w 21 5) (fld w 16 5) (fld w 11 5) (fld w 5 2) (fld w 4 1) else
  if bitsN w 0 4 = 0x3 ∧ bitsN w 7 4 = 0x0 then .amoXor (fld w 21 5) (fld w 16 5) (fld w 11 5) (fld w 5 2) (fld w 4 1) else
  if bitsN w 0 4 = 0x4 ∧ bitsN w 7 4 = 0x0 then .amoMin (fld w 21 5) (fld w 16 5) (fld w 11 5) (fld w 5 2) (fld w 4 1) else
  if bitsN w 0 4 = 0x5 ∧ bitsN w 7 4 = 0x0 then .amoMax (fld w 21 5) (fld w 16 5) (fld w 11 5) (fld w 5 2) (fld w 4 1) else
  if bitsN w 0 4 = 0x6 ∧ bitsN w 7 4 = 0x0 then .amoMinz (fld w 21 5) (fld w 16 5) (fld w 11 5) (fld w 5 2) (fld w 4 1) else
  if bitsN w 0 4 = 0x7 ∧ bitsN w 7 4 = 0x0 then .amoMaxz (fld w 21 5) (fld w 16 5) (fld w 11 5) (fld w 5 2) (fld w 4 1) else
  if bitsN w 0 4 = 0x8 ∧ bitsN w 7 4 = 0x0 then .amoSwap (fld w 21 5) (fld w 16 5) (fld w 11 5) (fld w 5 2) (fld w 4 1) else
  if bitsN w 0 4 = 0x9 ∧ bitsN w 7 4 = 0x0 then .amoCas (fld w 21 5) (fld w 16 5) (fld w 11 5) (fld w 5 2) (fld w 4 1) else
  .illegalWord (BitVec.ofNat 32 w)

/-- Words of major 0x1D, before the checks of Instr.wf (R34). -/
def decodeMajor1D (w : Nat) : Instr :=
  if bitsN w 0 4 = 0x0 ∧ bitsN w 8 18 = 0x0 then .phase (fld w 4 4) else
  if bitsN w 0 4 = 0x1 ∧ bitsN w 8 18 = 0x0 then .fence (fld w 4 4) else
  if bitsN w 0 4 = 0x2 ∧ bitsN w 8 18 = 0x0 then .bar (fld w 4 4) else
  if bitsN w 0 4 = 0x3 ∧ bitsN w 8 18 = 0x0 then .bara (fld w 4 4) else
  if bitsN w 0 4 = 0x4 ∧ bitsN w 8 18 = 0x0 then .barw (fld w 4 4) else
  .illegalWord (BitVec.ofNat 32 w)

/-- Words of major 0x1E, before the checks of Instr.wf (R34). -/
def decodeMajor1E (w : Nat) : Instr :=
  if bitsN w 0 15 = 0x0 then .capq (fld w 21 5) (fld w 15 6) else
  if bitsN w 0 9 = 0x1 ∧ bitsN w 21 5 = 0x0 then .capdup (fld w 15 6) (fld w 9 6) else
  if bitsN w 0 15 = 0x2 ∧ bitsN w 21 5 = 0x0 then .capdrop (fld w 15 6) else
  if bitsN w 0 4 = 0x3 ∧ bitsN w 9 6 = 0x0 then .capnew (fld w 21 5) (fld w 15 6) (fld w 4 5) else
  if bitsN w 0 15 = 0x4 ∧ bitsN w 21 5 = 0x0 then .cappub (fld w 15 6) else
  if bitsN w 0 4 = 0x5 ∧ bitsN w 9 6 = 0x0 ∧ bitsN w 21 5 = 0x0 then .capnrw (fld w 15 6) (fld w 4 5) else
  if bitsN w 0 15 = 0x6 then .capxfer (fld w 21 5) (fld w 15 6) else
  if bitsN w 0 4 = 0x7 ∧ bitsN w 9 6 = 0x0 ∧ bitsN w 21 5 = 0x0 then .caprt (fld w 15 6) (fld w 4 5) else
  .illegalWord (BitVec.ofNat 32 w)

/-- Words of major 0x1F, before the checks of Instr.wf (R34). -/
def decodeMajor1F (w : Nat) : Instr :=
  if bitsN w 0 11 = 0x0 ∧ bitsN w 21 5 = 0x0 then .dset (fld w 16 5) (fld w 11 5) else
  if bitsN w 0 16 = 0x1 then .dget (fld w 21 5) (fld w 16 5) else
  .illegalWord (BitVec.ofNat 32 w)

/-- Words of major 0x20, before the checks of Instr.wf (R34). -/
def decodeMajor20 (w : Nat) : Instr :=
  if bitsN w 4 4 = 0x0 ∧ bitsN w 24 2 = 0x1 then .erun (fld w 23 1) (fld w 18 5) (fld w 13 5) (fld w 8 5) (fld w 0 4) else
  if bitsN w 0 8 = 0x10 ∧ bitsN w 13 5 = 0x0 ∧ bitsN w 24 2 = 0x1 then .eset (fld w 23 1) (fld w 18 5) (fld w 8 5) else
  if bitsN w 0 8 = 0x20 ∧ bitsN w 13 5 = 0x0 ∧ bitsN w 24 2 = 0x1 then .eget (fld w 23 1) (fld w 18 5) (fld w 8 5) else
  if bitsN w 0 23 = 0x30 ∧ bitsN w 25 1 = 0x0 then .ewait (fld w 23 2) else
  if bitsN w 0 18 = 0x40 ∧ bitsN w 25 1 = 0x0 then .estat (fld w 23 2) (fld w 18 5) else
  if bitsN w 0 8 = 0x50 ∧ bitsN w 24 2 = 0x1 then .ekld (fld w 23 1) (fld w 18 5) (fld w 13 5) (fld w 8 5) else
  if bitsN w 0 18 = 0x60 ∧ bitsN w 25 1 = 0x0 then .estop (fld w 23 2) (fld w 18 5) else
  if bitsN w 0 8 = 0x70 ∧ bitsN w 24 2 = 0x1 then .eprg (fld w 23 1) (fld w 18 5) (fld w 13 5) (fld w 8 5) else
  if bitsN w 0 18 = 0x80 ∧ bitsN w 24 2 = 0x1 then .fpr (fld w 23 1) (fld w 18 5) else
  .illegalWord (BitVec.ofNat 32 w)

/-- Words of major 0x21, before the checks of Instr.wf (R34). -/
def decodeMajor21 (w : Nat) : Instr :=
  if bitsN w 0 12 = 0x0 then .cpy (fld w 21 5) (fld w 16 5) (fld w 12 4) else
  .illegalWord (BitVec.ofNat 32 w)

/-- Words of major 0x22, before the checks of Instr.wf (R34). -/
def decodeMajor22 (w : Nat) : Instr :=
  if bitsN w 0 12 = 0x0 then .idx (fld w 21 5) (fld w 16 5) (fld w 12 4) else
  .illegalWord (BitVec.ofNat 32 w)

/-- Words of major 0x23, before the checks of Instr.wf (R34). -/
def decodeMajor23 (w : Nat) : Instr :=
  if bitsN w 0 19 = 0x0 ∧ bitsN w 21 5 = 0x0 then .tkpush (fld w 19 2) else
  if bitsN w 0 19 = 0x1 ∧ bitsN w 21 5 = 0x0 then .tkpop (fld w 19 2) else
  if bitsN w 0 19 = 0x2 then .tktest (fld w 21 5) (fld w 19 2) else
  .illegalWord (BitVec.ofNat 32 w)

/-- Words of major 0x24, before the checks of Instr.wf (R34). -/
def decodeMajor24 (w : Nat) : Instr :=
  if bitsN w 0 21 = 0x0 then .rddbc (fld w 21 5) else
  if bitsN w 0 21 = 0x1 then .rdaot (fld w 21 5) else
  if bitsN w 0 16 = 0x2 ∧ bitsN w 21 5 = 0x0 then .sleepu (fld w 16 5) else
  if bitsN w 0 16 = 0x3 ∧ bitsN w 21 5 = 0x0 then .sleepa (fld w 16 5) else
  if bitsN w 0 16 = 0x4 then .stamp (fld w 21 5) (fld w 16 5) else
  .illegalWord (BitVec.ofNat 32 w)

/-- Words of major 0x25, before the checks of Instr.wf (R34). -/
def decodeMajor25 (w : Nat) : Instr :=
  if bitsN w 0 21 = 0x0 then .rqpop (fld w 21 5) else
  if bitsN w 0 21 = 0x1 then .rqpeek (fld w 21 5) else
  .illegalWord (BitVec.ofNat 32 w)

/-- Words of major 0x26, before the checks of Instr.wf (R34). -/
def decodeMajor26 (w : Nat) : Instr :=
  if bitsN w 0 12 = 0x0 ∧ bitsN w 16 5 = 0x0 then .xbwait (fld w 21 5) (fld w 12 4) else
  if bitsN w 0 12 = 0x1 ∧ bitsN w 16 5 = 0x0 then .xbtest (fld w 21 5) (fld w 12 4) else
  if bitsN w 0 12 = 0x2 ∧ bitsN w 21 5 = 0x0 then .xbarm (fld w 16 5) (fld w 12 4) else
  .illegalWord (BitVec.ofNat 32 w)

/-- Words of major 0x27, before the checks of Instr.wf (R34). -/
def decodeMajor27 (w : Nat) : Instr :=
  if bitsN w 0 13 = 0x0 then .hold (fld w 21 5) (fld w 16 5) (fld w 13 3) else
  if bitsN w 0 13 = 0x1 ∧ bitsN w 16 10 = 0x0 then .free (fld w 13 3) else
  .illegalWord (BitVec.ofNat 32 w)

/-- Words of major 0x28, before the checks of Instr.wf (R34). -/
def decodeMajor28 (w : Nat) : Instr :=
  if bitsN w 0 16 = 0x0 ∧ bitsN w 17 4 = 0x0 then .chlink (fld w 21 5) (fld w 16 1) else
  if bitsN w 0 16 = 0x1 ∧ bitsN w 17 9 = 0x0 then .chkick (fld w 16 1) else
  if bitsN w 0 12 = 0x2 ∧ bitsN w 16 5 = 0x0 then .scwait (fld w 21 5) (fld w 12 4) else
  if bitsN w 0 12 = 0x3 ∧ bitsN w 16 5 = 0x0 then .scpost (fld w 21 5) (fld w 12 4) else
  .illegalWord (BitVec.ofNat 32 w)

/-- Words of major 0x29, before the checks of Instr.wf (R34). -/
def decodeMajor29 (w : Nat) : Instr :=
  if bitsN w 0 16 = 0x0 ∧ bitsN w 21 5 = 0x0 then .qinit (fld w 16 5) else
  if bitsN w 0 11 = 0x1 ∧ bitsN w 21 5 = 0x0 then .qpush (fld w 16 5) (fld w 11 5) else
  if bitsN w 0 16 = 0x2 then .qpop (fld w 21 5) (fld w 16 5) else
  .illegalWord (BitVec.ofNat 32 w)

/-- Words of major 0x2C, before the checks of Instr.wf (R34). -/
def decodeMajor2C (w : Nat) : Instr :=
  if bitsN w 0 11 = 0x0 then .spawn (fld w 21 5) (fld w 16 5) (fld w 11 5) else
  if bitsN w 0 26 = 0x1 then .done else
  if bitsN w 0 11 = 0x2 then .condw (fld w 21 5) (fld w 16 5) (fld w 11 5) else
  if bitsN w 0 26 = 0x3 then .yield else
  if bitsN w 0 21 = 0x4 then .self (fld w 21 5) else
  if bitsN w 0 21 = 0x5 then .deadl (fld w 21 5) else
  .illegalWord (BitVec.ofNat 32 w)

/-- Words of major 0x2D, before the checks of Instr.wf (R34). -/
def decodeMajor2D (w : Nat) : Instr :=
  if bitsN w 0 11 = 0x0 then .tailw (fld w 21 5) (fld w 16 5) (fld w 11 5) else
  if bitsN w 0 16 = 0x1 then .headr (fld w 21 5) (fld w 16 5) else
  .illegalWord (BitVec.ofNat 32 w)

/-- Words of major 0x2E, before the checks of Instr.wf (R34). -/
def decodeMajor2E (w : Nat) : Instr :=
  if bitsN w 0 11 = 0x0 then .taga (fld w 21 5) (fld w 16 5) (fld w 11 5) else
  if bitsN w 0 16 = 0x1 ∧ bitsN w 21 5 = 0x0 then .tagf (fld w 16 5) else
  if bitsN w 0 4 = 0x2 ∧ bitsN w 6 5 = 0x0 then .meet (fld w 21 5) (fld w 16 5) (fld w 11 5) (fld w 4 2) else
  .illegalWord (BitVec.ofNat 32 w)

/-- Words of major 0x30, before the checks of Instr.wf (R34). -/
def decodeMajor30 (w : Nat) : Instr :=
  if bitsN w 0 2 = 0x0 ∧ bitsN w 12 9 = 0x0 then .mfs (fld w 21 5) (fld w 2 10) else
  if bitsN w 0 2 = 0x0 ∧ bitsN w 12 4 = 0x1 ∧ bitsN w 21 5 = 0x0 then .mts (fld w 16 5) (fld w 2 10) else
  if bitsN w 0 2 = 0x0 ∧ bitsN w 12 14 = 0x2 then .trap (fld w 2 10) else
  if bitsN w 0 26 = 0x3000 then .rte else
  if bitsN w 0 8 = 0x0 ∧ bitsN w 12 14 = 0x4 then .icinv (fld w 8 4) else
  if bitsN w 0 26 = 0x5000 then .wfe else
  if bitsN w 0 26 = 0x6000 then .halt else
  .illegalWord (BitVec.ofNat 32 w)

/-- The fields of a sequencer word by its major opcode (R34), before the checks of Instr.wf. -/
def decodeSeqFields (w : Nat) : Instr :=
  match bitsN w 26 6 with
  | 0x01 => decodeMajor01 w
  | 0x02 => decodeMajor02 w
  | 0x03 => decodeMajor03 w
  | 0x04 => decodeMajor04 w
  | 0x05 => decodeMajor05 w
  | 0x06 => decodeMajor06 w
  | 0x07 => decodeMajor07 w
  | 0x08 => decodeMajor08 w
  | 0x0A => decodeMajor0A w
  | 0x0B => decodeMajor0B w
  | 0x0C => decodeMajor0C w
  | 0x0D => decodeMajor0D w
  | 0x0E => decodeMajor0E w
  | 0x10 => decodeMajor10 w
  | 0x11 => decodeMajor11 w
  | 0x12 => decodeMajor12 w
  | 0x13 => decodeMajor13 w
  | 0x14 => decodeMajor14 w
  | 0x18 => decodeMajor18 w
  | 0x19 => decodeMajor19 w
  | 0x1A => decodeMajor1A w
  | 0x1B => decodeMajor1B w
  | 0x1C => decodeMajor1C w
  | 0x1D => decodeMajor1D w
  | 0x1E => decodeMajor1E w
  | 0x1F => decodeMajor1F w
  | 0x20 => decodeMajor20 w
  | 0x21 => decodeMajor21 w
  | 0x22 => decodeMajor22 w
  | 0x23 => decodeMajor23 w
  | 0x24 => decodeMajor24 w
  | 0x25 => decodeMajor25 w
  | 0x26 => decodeMajor26 w
  | 0x27 => decodeMajor27 w
  | 0x28 => decodeMajor28 w
  | 0x29 => decodeMajor29 w
  | 0x2C => decodeMajor2C w
  | 0x2D => decodeMajor2D w
  | 0x2E => decodeMajor2E w
  | 0x30 => decodeMajor30 w
  | _ => .illegalWord (BitVec.ofNat 32 w)

/-- Keep a decoded instruction that passes the checks of its operands, else answer `other`. -/
def orElse (i other : Instr) : Instr := if i.wf then i else other

/-- The sequencer's decoder: every word is an instruction, ILLEGAL included (R34, R55, R56). -/
def decodeSeq (w : Nat) : Instr := orElse (decodeSeqFields w) (.illegalWord (BitVec.ofNat 32 w))

/-- The fields of a micro-order of the common controls (R49), before the checks of Instr.wf. -/
def decodeCtlFields (w : Nat) : Instr :=
  match bitsN w 24 8 with
  | 0x48 => .eaddi (fld w 19 5) (fld w 0 19)
  | 0x49 => .emovi (fld w 19 5) (fld w 0 19)
  | 0x4A => if bitsN w 8 16 = 0x0 then .kbase (fld w 0 8) else .illegalMicroOrder (BitVec.ofNat 32 w)
  | 0x50 => if bitsN w 0 12 = 0x0 then .loop (fld w 22 2) (fld w 12 10) else .illegalMicroOrder (BitVec.ofNat 32 w)
  | 0x51 => if bitsN w 0 8 = 0x0 then .loopp (fld w 22 2) (fld w 12 10) (fld w 8 4) else .illegalMicroOrder (BitVec.ofNat 32 w)
  | 0x52 => if bitsN w 0 24 = 0x0 then .endl else .illegalMicroOrder (BitVec.ofNat 32 w)
  | 0x53 => if bitsN w 0 24 = 0x0 then .sstop else .illegalMicroOrder (BitVec.ofNat 32 w)
  | 0x54 => if bitsN w 0 24 = 0x0 then .snop else .illegalMicroOrder (BitVec.ofNat 32 w)
  | _ => .illegalMicroOrder (BitVec.ofNat 32 w)

/-- The fields of a micro-order of the vector engine (R48), before the checks of Instr.wf. -/
def decodeVeFields (w : Nat) : Instr :=
  match bitsN w 24 8 with
  | 0x01 => .vaddF (fld w 19 5) (fld w 17 2) (fld w 12 5) (fld w 10 2) (fld w 5 5) (fld w 2 3) (fld w 0 2)
  | 0x02 => .vsubF (fld w 19 5) (fld w 17 2) (fld w 12 5) (fld w 10 2) (fld w 5 5) (fld w 2 3) (fld w 0 2)
  | 0x03 => .vmulF (fld w 19 5) (fld w 17 2) (fld w 12 5) (fld w 10 2) (fld w 5 5) (fld w 2 3) (fld w 0 2)
  | 0x04 => .vfmaF (fld w 19 5) (fld w 17 2) (fld w 12 5) (fld w 10 2) (fld w 5 5) (fld w 2 3) (fld w 0 2)
  | 0x05 => .vminF (fld w 19 5) (fld w 17 2) (fld w 12 5) (fld w 10 2) (fld w 5 5) (fld w 2 3) (fld w 0 2)
  | 0x06 => .vmaxF (fld w 19 5) (fld w 17 2) (fld w 12 5) (fld w 10 2) (fld w 5 5) (fld w 2 3) (fld w 0 2)
  | 0x07 => if bitsN w 5 7 = 0x0 then .vabsF (fld w 19 5) (fld w 17 2) (fld w 12 5) (fld w 2 3) (fld w 0 2) else .illegalMicroOrder (BitVec.ofNat 32 w)
  | 0x08 => if bitsN w 5 7 = 0x0 then .vnegF (fld w 19 5) (fld w 17 2) (fld w 12 5) (fld w 2 3) (fld w 0 2) else .illegalMicroOrder (BitVec.ofNat 32 w)
  | 0x09 => .vcvt (fld w 19 5) (fld w 17 2) (fld w 12 5) (fld w 10 2) (fld w 5 5) (fld w 2 3) (fld w 0 2)
  | 0x0A => if bitsN w 0 2 = 0x0 ∧ bitsN w 5 7 = 0x0 then .vexp2 (fld w 19 5) (fld w 17 2) (fld w 12 5) (fld w 2 3) else .illegalMicroOrder (BitVec.ofNat 32 w)
  | 0x0B => if bitsN w 0 2 = 0x0 ∧ bitsN w 5 7 = 0x0 then .vlog2 (fld w 19 5) (fld w 17 2) (fld w 12 5) (fld w 2 3) else .illegalMicroOrder (BitVec.ofNat 32 w)
  | 0x0C => if bitsN w 0 2 = 0x0 ∧ bitsN w 5 7 = 0x0 then .vrcp (fld w 19 5) (fld w 17 2) (fld w 12 5) (fld w 2 3) else .illegalMicroOrder (BitVec.ofNat 32 w)
  | 0x0D => if bitsN w 0 2 = 0x0 ∧ bitsN w 5 7 = 0x0 then .vrsq (fld w 19 5) (fld w 17 2) (fld w 12 5) (fld w 2 3) else .illegalMicroOrder (BitVec.ofNat 32 w)
  | 0x0E => if bitsN w 0 2 = 0x0 ∧ bitsN w 5 7 = 0x0 then .vtanh (fld w 19 5) (fld w 17 2) (fld w 12 5) (fld w 2 3) else .illegalMicroOrder (BitVec.ofNat 32 w)
  | 0x0F => .vcmpF (fld w 22 2) (fld w 19 3) (fld w 17 2) (fld w 12 5) (fld w 10 2) (fld w 5 5) (fld w 2 3) (fld w 0 2)
  | 0x10 => .vaddI (fld w 19 5) (fld w 17 2) (fld w 12 5) (fld w 10 2) (fld w 5 5) (fld w 2 3) (fld w 0 2)
  | 0x11 => .vsubI (fld w 19 5) (fld w 17 2) (fld w 12 5) (fld w 10 2) (fld w 5 5) (fld w 2 3) (fld w 0 2)
  | 0x12 => .vmulI (fld w 19 5) (fld w 17 2) (fld w 12 5) (fld w 10 2) (fld w 5 5) (fld w 2 3) (fld w 0 2)
  | 0x13 => .vmacI (fld w 19 5) (fld w 17 2) (fld w 12 5) (fld w 10 2) (fld w 5 5) (fld w 2 3) (fld w 0 2)
  | 0x14 => if bitsN w 0 2 = 0x0 then .vand (fld w 19 5) (fld w 17 2) (fld w 12 5) (fld w 10 2) (fld w 5 5) (fld w 2 3) else .illegalMicroOrder (BitVec.ofNat 32 w)
  | 0x15 => if bitsN w 0 2 = 0x0 then .vor (fld w 19 5) (fld w 17 2) (fld w 12 5) (fld w 10 2) (fld w 5 5) (fld w 2 3) else .illegalMicroOrder (BitVec.ofNat 32 w)
  | 0x16 => if bitsN w 0 2 = 0x0 then .vxor (fld w 19 5) (fld w 17 2) (fld w 12 5) (fld w 10 2) (fld w 5 5) (fld w 2 3) else .illegalMicroOrder (BitVec.ofNat 32 w)
  | 0x17 => .vshl (fld w 19 5) (fld w 17 2) (fld w 12 5) (fld w 10 2) (fld w 5 5) (fld w 2 3) (fld w 0 2)
  | 0x18 => .vshr (fld w 19 5) (fld w 17 2) (fld w 12 5) (fld w 10 2) (fld w 5 5) (fld w 2 3) (fld w 0 2)
  | 0x19 => .vsar (fld w 19 5) (fld w 17 2) (fld w 12 5) (fld w 10 2) (fld w 5 5) (fld w 2 3) (fld w 0 2)
  | 0x1A => .vminI (fld w 19 5) (fld w 17 2) (fld w 12 5) (fld w 10 2) (fld w 5 5) (fld w 2 3) (fld w 0 2)
  | 0x1B => .vmaxI (fld w 19 5) (fld w 17 2) (fld w 12 5) (fld w 10 2) (fld w 5 5) (fld w 2 3) (fld w 0 2)
  | 0x1C => .vsat (fld w 19 5) (fld w 17 2) (fld w 12 5) (fld w 10 2) (fld w 5 5) (fld w 2 3) (fld w 0 2)
  | 0x1D => .vcmpI (fld w 22 2) (fld w 19 3) (fld w 17 2) (fld w 12 5) (fld w 10 2) (fld w 5 5) (fld w 2 3) (fld w 0 2)
  | 0x20 => if bitsN w 0 5 = 0x0 ∧ bitsN w 11 1 = 0x0 ∧ bitsN w 18 1 = 0x0 ∧ bitsN w 22 2 = 0x0 then .mand (fld w 19 3) (fld w 17 1) (fld w 12 5) (fld w 10 1) (fld w 5 5) else .illegalMicroOrder (BitVec.ofNat 32 w)
  | 0x21 => if bitsN w 0 5 = 0x0 ∧ bitsN w 11 1 = 0x0 ∧ bitsN w 18 1 = 0x0 ∧ bitsN w 22 2 = 0x0 then .mor (fld w 19 3) (fld w 17 1) (fld w 12 5) (fld w 10 1) (fld w 5 5) else .illegalMicroOrder (BitVec.ofNat 32 w)
  | 0x22 => if bitsN w 0 5 = 0x0 ∧ bitsN w 11 1 = 0x0 ∧ bitsN w 18 1 = 0x0 ∧ bitsN w 22 2 = 0x0 then .mxor (fld w 19 3) (fld w 17 1) (fld w 12 5) (fld w 10 1) (fld w 5 5) else .illegalMicroOrder (BitVec.ofNat 32 w)
  | 0x23 => if bitsN w 0 12 = 0x0 ∧ bitsN w 18 1 = 0x0 ∧ bitsN w 22 2 = 0x0 then .mnot (fld w 19 3) (fld w 17 1) (fld w 12 5) else .illegalMicroOrder (BitVec.ofNat 32 w)
  | 0x24 => if bitsN w 0 12 = 0x0 ∧ bitsN w 18 1 = 0x0 then .mpopc (fld w 19 5) (fld w 17 1) (fld w 12 5) else .illegalMicroOrder (BitVec.ofNat 32 w)
  | 0x28 => if bitsN w 0 2 = 0x0 ∧ bitsN w 5 7 = 0x0 then .vmov (fld w 19 5) (fld w 17 2) (fld w 12 5) (fld w 2 3) else .illegalMicroOrder (BitVec.ofNat 32 w)
  | 0x29 => if bitsN w 0 2 = 0x0 then .vsel (fld w 19 5) (fld w 17 2) (fld w 12 5) (fld w 10 2) (fld w 5 5) (fld w 2 3) else .illegalMicroOrder (BitVec.ofNat 32 w)
  | 0x2A => if bitsN w 0 2 = 0x0 ∧ bitsN w 17 2 = 0x0 then .vbcast (fld w 19 5) (fld w 12 5) (fld w 10 2) (fld w 5 5) (fld w 2 3) else .illegalMicroOrder (BitVec.ofNat 32 w)
  | 0x2B => if bitsN w 0 2 = 0x0 ∧ bitsN w 10 2 = 0x0 ∧ bitsN w 17 2 = 0x0 then .vperm (fld w 19 5) (fld w 12 5) (fld w 5 5) (fld w 2 3) else .illegalMicroOrder (BitVec.ofNat 32 w)
  | 0x2C => if bitsN w 0 2 = 0x0 ∧ bitsN w 10 2 = 0x0 ∧ bitsN w 17 2 = 0x0 then .vred (fld w 19 5) (fld w 12 5) (fld w 5 5) (fld w 2 3) else .illegalMicroOrder (BitVec.ofNat 32 w)
  | 0x30 => if bitsN w 0 2 = 0x0 ∧ bitsN w 5 3 = 0x0 then .vld (fld w 19 5) (fld w 14 5) (fld w 9 5) (fld w 8 1) (fld w 2 3) else .illegalMicroOrder (BitVec.ofNat 32 w)
  | 0x31 => if bitsN w 1 1 = 0x0 ∧ bitsN w 5 3 = 0x0 then .vst (fld w 19 5) (fld w 14 5) (fld w 9 5) (fld w 8 1) (fld w 2 3) (fld w 0 1) else .illegalMicroOrder (BitVec.ofNat 32 w)
  | 0x32 => if bitsN w 0 2 = 0x0 ∧ bitsN w 5 4 = 0x0 then .vldx (fld w 19 5) (fld w 14 5) (fld w 9 5) (fld w 2 3) else .illegalMicroOrder (BitVec.ofNat 32 w)
  | 0x33 => if bitsN w 0 2 = 0x0 ∧ bitsN w 5 4 = 0x0 then .vstx (fld w 19 5) (fld w 14 5) (fld w 9 5) (fld w 2 3) else .illegalMicroOrder (BitVec.ofNat 32 w)
  | 0x38 => if bitsN w 2 10 = 0x0 ∧ bitsN w 17 2 = 0x0 then .vsk48 (fld w 19 5) (fld w 12 5) (fld w 0 2) else .illegalMicroOrder (BitVec.ofNat 32 w)
  | 0x39 => if bitsN w 2 3 = 0x0 ∧ bitsN w 10 2 = 0x0 ∧ bitsN w 17 2 = 0x0 then .vxp48 (fld w 19 5) (fld w 12 5) (fld w 5 5) (fld w 0 2) else .illegalMicroOrder (BitVec.ofNat 32 w)
  | 0x3A => if bitsN w 0 2 = 0x0 ∧ bitsN w 17 2 = 0x0 then .vqnt (fld w 19 5) (fld w 12 5) (fld w 10 2) (fld w 5 5) (fld w 2 3) else .illegalMicroOrder (BitVec.ofNat 32 w)
  | 0x3B => if bitsN w 0 2 = 0x0 then .vdq (fld w 19 5) (fld w 17 2) (fld w 12 5) (fld w 10 2) (fld w 5 5) (fld w 2 3) else .illegalMicroOrder (BitVec.ofNat 32 w)
  | 0x40 => if bitsN w 0 2 = 0x0 ∧ bitsN w 17 7 = 0x0 then .vpushc (fld w 12 5) (fld w 10 2) (fld w 5 5) (fld w 2 3) else .illegalMicroOrder (BitVec.ofNat 32 w)
  | 0x41 => if bitsN w 0 2 = 0x0 ∧ bitsN w 12 7 = 0x0 then .vpopc (fld w 19 5) (fld w 10 2) (fld w 5 5) (fld w 2 3) else .illegalMicroOrder (BitVec.ofNat 32 w)
  | _ => decodeCtlFields w

/-- The decoder of the vector engine (R48) (R44, R56). -/
def decodeVe (w : Nat) : Instr := orElse (decodeVeFields w) (.illegalMicroOrder (BitVec.ofNat 32 w))

/-- The fields of a micro-order of the matrix engine (R50), before the checks of Instr.wf. -/
def decodeMeFields (w : Nat) : Instr :=
  match bitsN w 24 8 with
  | 0x01 => .mma (fld w 21 3) (fld w 16 5) (fld w 11 5) (fld w 8 3) (fld w 6 2) (fld w 0 6)
  | 0x02 => .mmaR (fld w 21 3) (fld w 16 5) (fld w 11 5) (fld w 8 3) (fld w 6 2) (fld w 0 6)
  | 0x03 => .mmaS (fld w 21 3) (fld w 16 5) (fld w 11 5) (fld w 8 3) (fld w 6 2) (fld w 0 6)
  | 0x08 => if bitsN w 0 20 = 0x0 then .accnew (fld w 21 3) (fld w 20 1) else .illegalMicroOrder (BitVec.ofNat 32 w)
  | 0x09 => if bitsN w 0 20 = 0x0 then .accz (fld w 21 3) (fld w 20 1) else .illegalMicroOrder (BitVec.ofNat 32 w)
  | 0x0A => if bitsN w 0 10 = 0x0 then .accld (fld w 21 3) (fld w 20 1) (fld w 15 5) (fld w 10 5) else .illegalMicroOrder (BitVec.ofNat 32 w)
  | 0x0B => if bitsN w 0 6 = 0x0 then .drain (fld w 21 3) (fld w 16 5) (fld w 11 5) (fld w 6 5) else .illegalMicroOrder (BitVec.ofNat 32 w)
  | 0x0C => if bitsN w 0 16 = 0x0 ∧ bitsN w 21 1 = 0x0 then .mdld (fld w 22 2) (fld w 16 5) else .illegalMicroOrder (BitVec.ofNat 32 w)
  | 0x10 => if bitsN w 0 15 = 0x0 then .bstr (fld w 20 4) (fld w 15 5) else .illegalMicroOrder (BitVec.ofNat 32 w)
  | 0x11 => if bitsN w 0 2 = 0x0 then .bfs (fld w 19 5) (fld w 14 5) (fld w 10 4) (fld w 6 4) (fld w 5 1) (fld w 4 1) (fld w 3 1) (fld w 2 1) else .illegalMicroOrder (BitVec.ofNat 32 w)
  | 0x12 => if bitsN w 0 2 = 0x0 then .bfc (fld w 19 5) (fld w 14 5) (fld w 10 4) (fld w 6 4) (fld w 5 1) (fld w 4 1) (fld w 3 1) (fld w 2 1) else .illegalMicroOrder (BitVec.ofNat 32 w)
  | _ => decodeCtlFields w

/-- The decoder of the matrix engine (R50) (R44, R56). -/
def decodeMe (w : Nat) : Instr := orElse (decodeMeFields w) (.illegalMicroOrder (BitVec.ofNat 32 w))

/-- The fields of a micro-order of the sort engine (R50), before the checks of Instr.wf. -/
def decodeOeFields (w : Nat) : Instr :=
  match bitsN w 24 8 with
  | 0x01 => if bitsN w 0 4 = 0x0 ∧ bitsN w 14 5 = 0x0 then .sort (fld w 19 5) (fld w 9 5) (fld w 6 3) (fld w 5 1) (fld w 4 1) else .illegalMicroOrder (BitVec.ofNat 32 w)
  | 0x02 => if bitsN w 0 4 = 0x0 then .topk (fld w 19 5) (fld w 14 5) (fld w 9 5) (fld w 6 3) (fld w 5 1) (fld w 4 1) else .illegalMicroOrder (BitVec.ofNat 32 w)
  | 0x03 => if bitsN w 0 4 = 0x0 then .merge (fld w 19 5) (fld w 14 5) (fld w 9 5) (fld w 6 3) (fld w 5 1) (fld w 4 1) else .illegalMicroOrder (BitVec.ofNat 32 w)
  | 0x04 => if bitsN w 0 4 = 0x0 then .segsort (fld w 19 5) (fld w 14 5) (fld w 9 5) (fld w 6 3) (fld w 5 1) (fld w 4 1) else .illegalMicroOrder (BitVec.ofNat 32 w)
  | 0x05 => if bitsN w 0 4 = 0x0 ∧ bitsN w 14 5 = 0x0 then .uniq (fld w 19 5) (fld w 9 5) (fld w 6 3) (fld w 5 1) (fld w 4 1) else .illegalMicroOrder (BitVec.ofNat 32 w)
  | 0x06 => if bitsN w 0 4 = 0x0 then .rankof (fld w 19 5) (fld w 14 5) (fld w 9 5) (fld w 6 3) (fld w 5 1) (fld w 4 1) else .illegalMicroOrder (BitVec.ofNat 32 w)
  | _ => decodeCtlFields w

/-- The decoder of the sort engine (R50) (R44, R56). -/
def decodeOe (w : Nat) : Instr := orElse (decodeOeFields w) (.illegalMicroOrder (BitVec.ofNat 32 w))

/-- The fields of a micro-order of the sparse engine (R50), before the checks of Instr.wf. -/
def decodeSeFields (w : Nat) : Instr :=
  match bitsN w 24 8 with
  | 0x01 => if bitsN w 0 7 = 0x0 then .spmv (fld w 19 5) (fld w 14 5) (fld w 9 5) (fld w 8 1) (fld w 7 1) else .illegalMicroOrder (BitVec.ofNat 32 w)
  | 0x02 => if bitsN w 0 7 = 0x0 then .spmm (fld w 19 5) (fld w 14 5) (fld w 9 5) (fld w 8 1) (fld w 7 1) else .illegalMicroOrder (BitVec.ofNat 32 w)
  | 0x03 => if bitsN w 0 9 = 0x0 then .spgemm (fld w 19 5) (fld w 14 5) (fld w 9 5) else .illegalMicroOrder (BitVec.ofNat 32 w)
  | 0x04 => if bitsN w 0 19 = 0x0 then .tdir (fld w 19 5) else .illegalMicroOrder (BitVec.ofNat 32 w)
  | _ => decodeCtlFields w

/-- The decoder of the sparse engine (R50) (R44, R56). -/
def decodeSe (w : Nat) : Instr := orElse (decodeSeFields w) (.illegalMicroOrder (BitVec.ofNat 32 w))

/-- Whether a decoder accepted the word. -/
def Instr.accepted : Instr → Bool
  | .illegalWord _ => false
  | .illegalMicroOrder _ => false
  | _ => true

/-- The instruction that a table word alone stands for. A word is read as a sequencer word first; a word that the sequencer
refuses is read as a micro-order of the VE, the ME, the OE and the SE, in that order (log entry 8). -/
def decodeTableWord (nbits w : Nat) : Option Instr :=
  if nbits = 32 then
    some (
      let q := decodeSeq w
      if q.accepted then q else
      if (decodeVe w).accepted then decodeVe w else
      if (decodeMe w).accepted then decodeMe w else
      if (decodeOe w).accepted then decodeOe w else
      if (decodeSe w).accepted then decodeSe w else q)
  else none

/-- A field's contribution to a word: its value at bit `lo`. -/
def put {n : Nat} (x : BitVec n) (lo : Nat) : Nat := x.toNat * 2 ^ lo

/-- The word of an encoded instruction, from the formats of R32, R44 and the engine chapters. A row without an encoding has
no word and answers 0. -/
def encode : Instr → Nat
  | .add d a b => 0x04000000 + put d 21 + put a 16 + put b 11
  | .sub d a b => 0x04000001 + put d 21 + put a 16 + put b 11
  | .addw d a b => 0x04000002 + put d 21 + put a 16 + put b 11
  | .subw d a b => 0x04000003 + put d 21 + put a 16 + put b 11
  | .mul d a b => 0x04000004 + put d 21 + put a 16 + put b 11
  | .mulh d a b => 0x04000005 + put d 21 + put a 16 + put b 11
  | .mulhz d a b => 0x04000006 + put d 21 + put a 16 + put b 11
  | .div d a b => 0x04000008 + put d 21 + put a 16 + put b 11
  | .divz d a b => 0x04000009 + put d 21 + put a 16 + put b 11
  | .rem d a b => 0x0400000A + put d 21 + put a 16 + put b 11
  | .remz d a b => 0x0400000B + put d 21 + put a 16 + put b 11
  | .and d a b => 0x04000010 + put d 21 + put a 16 + put b 11
  | .or d a b => 0x04000011 + put d 21 + put a 16 + put b 11
  | .xor d a b => 0x04000012 + put d 21 + put a 16 + put b 11
  | .andn d a b => 0x04000013 + put d 21 + put a 16 + put b 11
  | .shl d a b => 0x04000018 + put d 21 + put a 16 + put b 11
  | .shr d a b => 0x04000019 + put d 21 + put a 16 + put b 11
  | .sar d a b => 0x0400001A + put d 21 + put a 16 + put b 11
  | .min d a b => 0x04000020 + put d 21 + put a 16 + put b 11
  | .max d a b => 0x04000021 + put d 21 + put a 16 + put b 11
  | .minz d a b => 0x04000022 + put d 21 + put a 16 + put b 11
  | .maxz d a b => 0x04000023 + put d 21 + put a 16 + put b 11
  | .clz d a => 0x04000028 + put d 21 + put a 16
  | .ctz d a => 0x04000029 + put d 21 + put a 16
  | .popc d a => 0x0400002A + put d 21 + put a 16
  | .addi d a imm => 0x08000000 + put d 21 + put a 16 + put imm 0
  | .andi d a imm => 0x0C000000 + put d 21 + put a 16 + put imm 0
  | .ori d a imm => 0x10000000 + put d 21 + put a 16 + put imm 0
  | .xori d a imm => 0x14000000 + put d 21 + put a 16 + put imm 0
  | .shli d a n => 0x18000000 + put d 21 + put a 16 + put n 0
  | .shri d a n => 0x18000040 + put d 21 + put a 16 + put n 0
  | .sari d a n => 0x18000080 + put d 21 + put a 16 + put n 0
  | .movw d imm => 0x1C000000 + put d 21 + put imm 0
  | .movk d k imm => 0x20000000 + put d 21 + put k 16 + put imm 0
  | .cmp pd cond a b => 0x28000000 + put pd 23 + put cond 19 + put a 14 + put b 9
  | .cmpi pd cond a imm => 0x2C000000 + put pd 23 + put cond 19 + put a 14 + put imm 0
  | .pand pd pa pb => 0x30000000 + put pd 23 + put pa 20 + put pb 17
  | .por pd pa pb => 0x30004000 + put pd 23 + put pa 20 + put pb 17
  | .pxor pd pa pb => 0x30008000 + put pd 23 + put pa 20 + put pb 17
  | .pandn pd pa pb => 0x3000C000 + put pd 23 + put pa 20 + put pb 17
  | .pnot pd pa => 0x30010000 + put pd 23 + put pa 20
  | .pset pd v => 0x30014000 + put pd 23 + put v 13
  | .sel d a b p => 0x34000000 + put d 21 + put a 16 + put b 11 + put p 0
  | .bfx d a pos wm1 => 0x38000000 + put d 21 + put a 16 + put pos 10 + put wm1 4
  | .bfxs d a pos wm1 => 0x38000001 + put d 21 + put a 16 + put pos 10 + put wm1 4
  | .bfi d a pos wm1 => 0x38000002 + put d 21 + put a 16 + put pos 10 + put wm1 4
  | .br p disp => 0x40000000 + put p 23 + put disp 0
  | .brF p disp => 0x40400000 + put p 23 + put disp 0
  | .j disp => 0x44000000 + put disp 0
  | .jal disp => 0x48000000 + put disp 0
  | .jr a => 0x4C000000 + put a 16
  | .jalr d a => 0x4C000001 + put d 21 + put a 16
  | .bdec a disp => 0x50000000 + put a 21 + put disp 0
  | .ld d base size z off => 0x60000000 + put d 21 + put base 16 + put size 14 + put z 13 + put off 0
  | .st d base size off => 0x64000000 + put d 21 + put base 16 + put size 14 + put off 0
  | .lde d base size z off => 0x68000000 + put d 21 + put base 16 + put size 14 + put z 13 + put off 0
  | .ste d base size off => 0x6C000000 + put d 21 + put base 16 + put size 14 + put off 0
  | .amoAdd d a b ord size => 0x70000000 + put d 21 + put a 16 + put b 11 + put ord 5 + put size 4
  | .amoAnd d a b ord size => 0x70000001 + put d 21 + put a 16 + put b 11 + put ord 5 + put size 4
  | .amoOr d a b ord size => 0x70000002 + put d 21 + put a 16 + put b 11 + put ord 5 + put size 4
  | .amoXor d a b ord size => 0x70000003 + put d 21 + put a 16 + put b 11 + put ord 5 + put size 4
  | .amoMin d a b ord size => 0x70000004 + put d 21 + put a 16 + put b 11 + put ord 5 + put size 4
  | .amoMax d a b ord size => 0x70000005 + put d 21 + put a 16 + put b 11 + put ord 5 + put size 4
  | .amoMinz d a b ord size => 0x70000006 + put d 21 + put a 16 + put b 11 + put ord 5 + put size 4
  | .amoMaxz d a b ord size => 0x70000007 + put d 21 + put a 16 + put b 11 + put ord 5 + put size 4
  | .amoSwap d a b ord size => 0x70000008 + put d 21 + put a 16 + put b 11 + put ord 5 + put size 4
  | .amoCas d a b ord size => 0x70000009 + put d 21 + put a 16 + put b 11 + put ord 5 + put size 4
  | .phase scope => 0x74000000 + put scope 4
  | .fence scope => 0x74000001 + put scope 4
  | .bar scope => 0x74000002 + put scope 4
  | .bara scope => 0x74000003 + put scope 4
  | .barw scope => 0x74000004 + put scope 4
  | .capq d c => 0x78000000 + put d 21 + put c 15
  | .capdup c c2 => 0x78000001 + put c 15 + put c2 9
  | .capdrop c => 0x78000002 + put c 15
  | .capnew d c b => 0x78000003 + put d 21 + put c 15 + put b 4
  | .cappub c => 0x78000004 + put c 15
  | .capnrw c b => 0x78000005 + put c 15 + put b 4
  | .capxfer d c => 0x78000006 + put d 21 + put c 15
  | .caprt c b => 0x78000007 + put c 15 + put b 4
  | .dset a b => 0x7C000000 + put a 16 + put b 11
  | .dget d a => 0x7C000001 + put d 21 + put a 16
  | .erun n a b c flags => 0x81000000 + put n 23 + put a 18 + put b 13 + put c 8 + put flags 0
  | .eset n a c => 0x81000010 + put n 23 + put a 18 + put c 8
  | .eget n a c => 0x81000020 + put n 23 + put a 18 + put c 8
  | .ewait n => 0x80000030 + put n 23
  | .estat n a => 0x80000040 + put n 23 + put a 18
  | .ekld n a b c => 0x81000050 + put n 23 + put a 18 + put b 13 + put c 8
  | .estop n a => 0x80000060 + put n 23 + put a 18
  | .eprg n a b c => 0x81000070 + put n 23 + put a 18 + put b 13 + put c 8
  | .fpr n a => 0x81000080 + put n 23 + put a 18
  | .cpy a d xb => 0x84000000 + put a 21 + put d 16 + put xb 12
  | .idx a d xb => 0x88000000 + put a 21 + put d 16 + put xb 12
  | .tkpush pair => 0x8C000000 + put pair 19
  | .tkpop pair => 0x8C000001 + put pair 19
  | .tktest d pair => 0x8C000002 + put d 21 + put pair 19
  | .rddbc d => 0x90000000 + put d 21
  | .rdaot d => 0x90000001 + put d 21
  | .sleepu a => 0x90000002 + put a 16
  | .sleepa a => 0x90000003 + put a 16
  | .stamp d a => 0x90000004 + put d 21 + put a 16
  | .rqpop d => 0x94000000 + put d 21
  | .rqpeek d => 0x94000001 + put d 21
  | .xbwait d xb => 0x98000000 + put d 21 + put xb 12
  | .xbtest d xb => 0x98000001 + put d 21 + put xb 12
  | .xbarm a xb => 0x98000002 + put a 16 + put xb 12
  | .hold a b w => 0x9C000000 + put a 21 + put b 16 + put w 13
  | .free w => 0x9C000001 + put w 13
  | .chlink a n => 0xA0000000 + put a 21 + put n 16
  | .chkick n => 0xA0000001 + put n 16
  | .scwait a sc => 0xA0000002 + put a 21 + put sc 12
  | .scpost a sc => 0xA0000003 + put a 21 + put sc 12
  | .qinit a => 0xA4000000 + put a 16
  | .qpush a b => 0xA4000001 + put a 16 + put b 11
  | .qpop d a => 0xA4000002 + put d 21 + put a 16
  | .spawn d a b => 0xB0000000 + put d 21 + put a 16 + put b 11
  | .done => 0xB0000001
  | .condw d a b => 0xB0000002 + put d 21 + put a 16 + put b 11
  | .yield => 0xB0000003
  | .self d => 0xB0000004 + put d 21
  | .deadl d => 0xB0000005 + put d 21
  | .tailw d a b => 0xB4000000 + put d 21 + put a 16 + put b 11
  | .headr d a => 0xB4000001 + put d 21 + put a 16
  | .taga d a b => 0xB8000000 + put d 21 + put a 16 + put b 11
  | .tagf a => 0xB8000001 + put a 16
  | .meet d a b op => 0xB8000002 + put d 21 + put a 16 + put b 11 + put op 4
  | .mfs d sr => 0xC0000000 + put d 21 + put sr 2
  | .mts a sr => 0xC0001000 + put a 16 + put sr 2
  | .trap code => 0xC0002000 + put code 2
  | .rte => 0xC0003000
  | .icinv scope => 0xC0004000 + put scope 8
  | .wfe => 0xC0005000
  | .halt => 0xC0006000
  | .illegalWord w => w.toNat
  | .vaddF d kA A kB B m t => 0x01000000 + put d 19 + put kA 17 + put A 12 + put kB 10 + put B 5 + put m 2 + put t 0
  | .vsubF d kA A kB B m t => 0x02000000 + put d 19 + put kA 17 + put A 12 + put kB 10 + put B 5 + put m 2 + put t 0
  | .vmulF d kA A kB B m t => 0x03000000 + put d 19 + put kA 17 + put A 12 + put kB 10 + put B 5 + put m 2 + put t 0
  | .vfmaF d kA A kB B m t => 0x04000000 + put d 19 + put kA 17 + put A 12 + put kB 10 + put B 5 + put m 2 + put t 0
  | .vminF d kA A kB B m t => 0x05000000 + put d 19 + put kA 17 + put A 12 + put kB 10 + put B 5 + put m 2 + put t 0
  | .vmaxF d kA A kB B m t => 0x06000000 + put d 19 + put kA 17 + put A 12 + put kB 10 + put B 5 + put m 2 + put t 0
  | .vabsF d kA A m t => 0x07000000 + put d 19 + put kA 17 + put A 12 + put m 2 + put t 0
  | .vnegF d kA A m t => 0x08000000 + put d 19 + put kA 17 + put A 12 + put m 2 + put t 0
  | .vcvt d kA A rm code m t => 0x09000000 + put d 19 + put kA 17 + put A 12 + put rm 10 + put code 5 + put m 2 + put t 0
  | .vexp2 d kA A m => 0x0A000000 + put d 19 + put kA 17 + put A 12 + put m 2
  | .vlog2 d kA A m => 0x0B000000 + put d 19 + put kA 17 + put A 12 + put m 2
  | .vrcp d kA A m => 0x0C000000 + put d 19 + put kA 17 + put A 12 + put m 2
  | .vrsq d kA A m => 0x0D000000 + put d 19 + put kA 17 + put A 12 + put m 2
  | .vtanh d kA A m => 0x0E000000 + put d 19 + put kA 17 + put A 12 + put m 2
  | .vcmpF h d kA A kB B m l => 0x0F000000 + put h 22 + put d 19 + put kA 17 + put A 12 + put kB 10 + put B 5 + put m 2 + put l 0
  | .vaddI d kA A kB B m t => 0x10000000 + put d 19 + put kA 17 + put A 12 + put kB 10 + put B 5 + put m 2 + put t 0
  | .vsubI d kA A kB B m t => 0x11000000 + put d 19 + put kA 17 + put A 12 + put kB 10 + put B 5 + put m 2 + put t 0
  | .vmulI d kA A kB B m t => 0x12000000 + put d 19 + put kA 17 + put A 12 + put kB 10 + put B 5 + put m 2 + put t 0
  | .vmacI d kA A kB B m t => 0x13000000 + put d 19 + put kA 17 + put A 12 + put kB 10 + put B 5 + put m 2 + put t 0
  | .vand d kA A kB B m => 0x14000000 + put d 19 + put kA 17 + put A 12 + put kB 10 + put B 5 + put m 2
  | .vor d kA A kB B m => 0x15000000 + put d 19 + put kA 17 + put A 12 + put kB 10 + put B 5 + put m 2
  | .vxor d kA A kB B m => 0x16000000 + put d 19 + put kA 17 + put A 12 + put kB 10 + put B 5 + put m 2
  | .vshl d kA A kB B m t => 0x17000000 + put d 19 + put kA 17 + put A 12 + put kB 10 + put B 5 + put m 2 + put t 0
  | .vshr d kA A kB B m t => 0x18000000 + put d 19 + put kA 17 + put A 12 + put kB 10 + put B 5 + put m 2 + put t 0
  | .vsar d kA A kB B m t => 0x19000000 + put d 19 + put kA 17 + put A 12 + put kB 10 + put B 5 + put m 2 + put t 0
  | .vminI d kA A kB B m t => 0x1A000000 + put d 19 + put kA 17 + put A 12 + put kB 10 + put B 5 + put m 2 + put t 0
  | .vmaxI d kA A kB B m t => 0x1B000000 + put d 19 + put kA 17 + put A 12 + put kB 10 + put B 5 + put m 2 + put t 0
  | .vsat d kA A kB B m t => 0x1C000000 + put d 19 + put kA 17 + put A 12 + put kB 10 + put B 5 + put m 2 + put t 0
  | .vcmpI h d kA A kB B m l => 0x1D000000 + put h 22 + put d 19 + put kA 17 + put A 12 + put kB 10 + put B 5 + put m 2 + put l 0
  | .mand d kA A kB B => 0x20000000 + put d 19 + put kA 17 + put A 12 + put kB 10 + put B 5
  | .mor d kA A kB B => 0x21000000 + put d 19 + put kA 17 + put A 12 + put kB 10 + put B 5
  | .mxor d kA A kB B => 0x22000000 + put d 19 + put kA 17 + put A 12 + put kB 10 + put B 5
  | .mnot d kA A => 0x23000000 + put d 19 + put kA 17 + put A 12
  | .mpopc d kA A => 0x24000000 + put d 19 + put kA 17 + put A 12
  | .vmov d kA A m => 0x28000000 + put d 19 + put kA 17 + put A 12 + put m 2
  | .vsel d kA A kB B m => 0x29000000 + put d 19 + put kA 17 + put A 12 + put kB 10 + put B 5 + put m 2
  | .vbcast d A kB B m => 0x2A000000 + put d 19 + put A 12 + put kB 10 + put B 5 + put m 2
  | .vperm d A B m => 0x2B000000 + put d 19 + put A 12 + put B 5 + put m 2
  | .vred d A op m => 0x2C000000 + put d 19 + put A 12 + put op 5 + put m 2
  | .vld d eb es pi m => 0x30000000 + put d 19 + put eb 14 + put es 9 + put pi 8 + put m 2
  | .vst d eb es pi m t => 0x31000000 + put d 19 + put eb 14 + put es 9 + put pi 8 + put m 2 + put t 0
  | .vldx d eb x m => 0x32000000 + put d 19 + put eb 14 + put x 9 + put m 2
  | .vstx d eb x m => 0x33000000 + put d 19 + put eb 14 + put x 9 + put m 2
  | .vsk48 d A t => 0x38000000 + put d 19 + put A 12 + put t 0
  | .vxp48 d A B t => 0x39000000 + put d 19 + put A 12 + put B 5 + put t 0
  | .vqnt d A kB B m => 0x3A000000 + put d 19 + put A 12 + put kB 10 + put B 5 + put m 2
  | .vdq d kA A kB B m => 0x3B000000 + put d 19 + put kA 17 + put A 12 + put kB 10 + put B 5 + put m 2
  | .vpushc A kB B m => 0x40000000 + put A 12 + put kB 10 + put B 5 + put m 2
  | .vpopc d kB B m => 0x41000000 + put d 19 + put kB 10 + put B 5 + put m 2
  | .eaddi e imm => 0x48000000 + put e 19 + put imm 0
  | .emovi e imm => 0x49000000 + put e 19 + put imm 0
  | .kbase k => 0x4A000000 + put k 0
  | .loop lc body => 0x50000000 + put lc 22 + put body 12
  | .loopp lc body stages => 0x51000000 + put lc 22 + put body 12 + put stages 8
  | .endl => 0x52000000
  | .sstop => 0x53000000
  | .snop => 0x54000000
  | .mma acc eA eB ec mode kc => 0x01000000 + put acc 21 + put eA 16 + put eB 11 + put ec 8 + put mode 6 + put kc 0
  | .mmaR acc eA eB ec mode kc => 0x02000000 + put acc 21 + put eA 16 + put eB 11 + put ec 8 + put mode 6 + put kc 0
  | .mmaS acc eA eB ec mode kc => 0x03000000 + put acc 21 + put eA 16 + put eB 11 + put ec 8 + put mode 6 + put kc 0
  | .accnew acc ty => 0x08000000 + put acc 21 + put ty 20
  | .accz acc ty => 0x09000000 + put acc 21 + put ty 20
  | .accld acc ty eA eS => 0x0A000000 + put acc 21 + put ty 20 + put eA 15 + put eS 10
  | .drain acc eD eC eF => 0x0B000000 + put acc 21 + put eD 16 + put eC 11 + put eF 6
  | .mdld md eA => 0x0C000000 + put md 22 + put eA 16
  | .bstr n eS => 0x10000000 + put n 20 + put eS 15
  | .bfs eX dst L c P D IF OF => 0x11000000 + put eX 19 + put dst 14 + put L 10 + put c 6 + put P 5 + put D 4 + put IF 3 + put OF 2
  | .bfc eX dst L c P D IF OF => 0x12000000 + put eX 19 + put dst 14 + put L 10 + put c 6 + put P 5 + put D 4 + put IF 3 + put OF 2
  | .sort eA eD kt ds pl => 0x01000000 + put eA 19 + put eD 9 + put kt 6 + put ds 5 + put pl 4
  | .topk eA eB eD kt ds pl => 0x02000000 + put eA 19 + put eB 14 + put eD 9 + put kt 6 + put ds 5 + put pl 4
  | .merge eA eB eD kt ds pl => 0x03000000 + put eA 19 + put eB 14 + put eD 9 + put kt 6 + put ds 5 + put pl 4
  | .segsort eA eB eD kt ds pl => 0x04000000 + put eA 19 + put eB 14 + put eD 9 + put kt 6 + put ds 5 + put pl 4
  | .uniq eA eD kt ds pl => 0x05000000 + put eA 19 + put eD 9 + put kt 6 + put ds 5 + put pl 4
  | .rankof eA eB eD kt ds pl => 0x06000000 + put eA 19 + put eB 14 + put eD 9 + put kt 6 + put ds 5 + put pl 4
  | .spmv eH eX eY acc xf => 0x01000000 + put eH 19 + put eX 14 + put eY 9 + put acc 8 + put xf 7
  | .spmm eH eX eY acc xf => 0x02000000 + put eH 19 + put eX 14 + put eY 9 + put acc 8 + put xf 7
  | .spgemm eH eX eY => 0x03000000 + put eH 19 + put eX 14 + put eY 9
  | .tdir eH => 0x04000000 + put eH 19
  | .illegalMicroOrder w => w.toNat
  | .engineEntryStart => 0
  | .engineEntryComplete => 0
  | .stampBeat => 0
  | .engineWatchdog => 0
  | .copy => 0
  | .gfill => 0
  | .fill => 0
  | .mcast => 0
  | .chnop => 0
  | .gather => 0
  | .scatter => 0
  | .gpool => 0
  | .scadd => 0
  | .hashacc => 0
  | .densify => 0
  | .compact => 0
  | .commandSignals => 0
  | .chainBlockFetch => 0
  | .promiseMiss => 0
  | .scratchpadClear => 0
  | .barrierCompletion => 0
  | .nearRead => 0
  | .nearWrite => 0
  | .farRead => 0
  | .farWrite => 0
  | .readReturn => 0
  | .writeAcknowledgement => 0
  | .landingWrite => 0
  | .barrierMessage => 0
  | .schedulerMessage => 0
  | .arbitrationGrant => 0
  | .packetAging => 0
  | .meetingOperand => 0
  | .meetingResult => 0
  | .meetingWithdrawal => 0
  | .heldOperandTaken => 0
  | .meetingTimeout => 0
  | .replyPlacement => 0
  | .ringConsume => 0
  | .edgeDecrement => 0
  | .spawnQueueDrain => 0
  | .spawnProbe => 0
  | .spawnStarved => 0
  | .dispatchPop => 0
  | .strictLanePromotion => 0
  | .nodeRetire => 0
  | .preemption => 0
  | .taskWatchdog => 0
  | .faultDelivery => 0
  | .softError => 0
  | .debugHalt => 0
  | .debugRelease => 0
  | .pageWalkComplete => 0
  | .pageRequest => 0
  | .prespRetry => 0
  | .prespFail => 0
  | .invreq => 0
  | .invalidationComplete => 0
  | .pageSwap => 0
  | .frameRelease => 0
  | .acvalClr => 0
  | .nqctlWrite => 0
  | .prqctlWrite => 0
  | .contextCreate => 0
  | .contextEnd => 0
  | .create => 0
  | .grant => 0
  | .revoke => 0
  | .importBuf => 0
  | .ringreg => 0
  | .ringdel => 0
  | .rtail => 0
  | .registerWrite => 0
  | .fmapdrvWrite => 0
  | .ckptStart => 0
  | .ckptDone => 0
  | .ebudRefill => 0
  | .correctedError => 0
  | .unitDrain => 0
  | .spanLinkFailure => 0
  | .memoryUncorrectableError => 0
  | .powerOn => 0
  | .linkTraining => 0
  | .getVersion => 0
  | .getCapabilities => 0
  | .negotiateAlgorithms => 0
  | .getDigests => 0
  | .getCertificate => 0
  | .challenge => 0
  | .getMeasurements => 0
  | .keyExchange => 0
  | .finish => 0
  | .endSession => 0
  | .keygen => 0
  | .keydel => 0
  | .spdmUnsupportedRequest => 0
  | .sleepExpiry => 0
  | .driverRequestUnknownOp => 0
  | .companionFarWrite => 0
  | .spanRequest => 0

/-- The unit whose words a row's words are (R30). -/
inductive CodeUnit where
  | seq | ctl | ve | me | oe | se | event
  deriving DecidableEq, Repr

/-- The unit that an instruction's words belong to; the common controls belong to every step-table engine (R49). -/
def Instr.codeUnit : Instr → CodeUnit
  | .add _ _ _ => .seq
  | .sub _ _ _ => .seq
  | .addw _ _ _ => .seq
  | .subw _ _ _ => .seq
  | .mul _ _ _ => .seq
  | .mulh _ _ _ => .seq
  | .mulhz _ _ _ => .seq
  | .div _ _ _ => .seq
  | .divz _ _ _ => .seq
  | .rem _ _ _ => .seq
  | .remz _ _ _ => .seq
  | .and _ _ _ => .seq
  | .or _ _ _ => .seq
  | .xor _ _ _ => .seq
  | .andn _ _ _ => .seq
  | .shl _ _ _ => .seq
  | .shr _ _ _ => .seq
  | .sar _ _ _ => .seq
  | .min _ _ _ => .seq
  | .max _ _ _ => .seq
  | .minz _ _ _ => .seq
  | .maxz _ _ _ => .seq
  | .clz _ _ => .seq
  | .ctz _ _ => .seq
  | .popc _ _ => .seq
  | .addi _ _ _ => .seq
  | .andi _ _ _ => .seq
  | .ori _ _ _ => .seq
  | .xori _ _ _ => .seq
  | .shli _ _ _ => .seq
  | .shri _ _ _ => .seq
  | .sari _ _ _ => .seq
  | .movw _ _ => .seq
  | .movk _ _ _ => .seq
  | .cmp _ _ _ _ => .seq
  | .cmpi _ _ _ _ => .seq
  | .pand _ _ _ => .seq
  | .por _ _ _ => .seq
  | .pxor _ _ _ => .seq
  | .pandn _ _ _ => .seq
  | .pnot _ _ => .seq
  | .pset _ _ => .seq
  | .sel _ _ _ _ => .seq
  | .bfx _ _ _ _ => .seq
  | .bfxs _ _ _ _ => .seq
  | .bfi _ _ _ _ => .seq
  | .br _ _ => .seq
  | .brF _ _ => .seq
  | .j _ => .seq
  | .jal _ => .seq
  | .jr _ => .seq
  | .jalr _ _ => .seq
  | .bdec _ _ => .seq
  | .ld _ _ _ _ _ => .seq
  | .st _ _ _ _ => .seq
  | .lde _ _ _ _ _ => .seq
  | .ste _ _ _ _ => .seq
  | .amoAdd _ _ _ _ _ => .seq
  | .amoAnd _ _ _ _ _ => .seq
  | .amoOr _ _ _ _ _ => .seq
  | .amoXor _ _ _ _ _ => .seq
  | .amoMin _ _ _ _ _ => .seq
  | .amoMax _ _ _ _ _ => .seq
  | .amoMinz _ _ _ _ _ => .seq
  | .amoMaxz _ _ _ _ _ => .seq
  | .amoSwap _ _ _ _ _ => .seq
  | .amoCas _ _ _ _ _ => .seq
  | .phase _ => .seq
  | .fence _ => .seq
  | .bar _ => .seq
  | .bara _ => .seq
  | .barw _ => .seq
  | .capq _ _ => .seq
  | .capdup _ _ => .seq
  | .capdrop _ => .seq
  | .capnew _ _ _ => .seq
  | .cappub _ => .seq
  | .capnrw _ _ => .seq
  | .capxfer _ _ => .seq
  | .caprt _ _ => .seq
  | .dset _ _ => .seq
  | .dget _ _ => .seq
  | .erun _ _ _ _ _ => .seq
  | .eset _ _ _ => .seq
  | .eget _ _ _ => .seq
  | .ewait _ => .seq
  | .estat _ _ => .seq
  | .ekld _ _ _ _ => .seq
  | .estop _ _ => .seq
  | .eprg _ _ _ _ => .seq
  | .fpr _ _ => .seq
  | .cpy _ _ _ => .seq
  | .idx _ _ _ => .seq
  | .tkpush _ => .seq
  | .tkpop _ => .seq
  | .tktest _ _ => .seq
  | .rddbc _ => .seq
  | .rdaot _ => .seq
  | .sleepu _ => .seq
  | .sleepa _ => .seq
  | .stamp _ _ => .seq
  | .rqpop _ => .seq
  | .rqpeek _ => .seq
  | .xbwait _ _ => .seq
  | .xbtest _ _ => .seq
  | .xbarm _ _ => .seq
  | .hold _ _ _ => .seq
  | .free _ => .seq
  | .chlink _ _ => .seq
  | .chkick _ => .seq
  | .scwait _ _ => .seq
  | .scpost _ _ => .seq
  | .qinit _ => .seq
  | .qpush _ _ => .seq
  | .qpop _ _ => .seq
  | .spawn _ _ _ => .seq
  | .done => .seq
  | .condw _ _ _ => .seq
  | .yield => .seq
  | .self _ => .seq
  | .deadl _ => .seq
  | .tailw _ _ _ => .seq
  | .headr _ _ => .seq
  | .taga _ _ _ => .seq
  | .tagf _ => .seq
  | .meet _ _ _ _ => .seq
  | .mfs _ _ => .seq
  | .mts _ _ => .seq
  | .trap _ => .seq
  | .rte => .seq
  | .icinv _ => .seq
  | .wfe => .seq
  | .halt => .seq
  | .illegalWord _ => .seq
  | .vaddF _ _ _ _ _ _ _ => .ve
  | .vsubF _ _ _ _ _ _ _ => .ve
  | .vmulF _ _ _ _ _ _ _ => .ve
  | .vfmaF _ _ _ _ _ _ _ => .ve
  | .vminF _ _ _ _ _ _ _ => .ve
  | .vmaxF _ _ _ _ _ _ _ => .ve
  | .vabsF _ _ _ _ _ => .ve
  | .vnegF _ _ _ _ _ => .ve
  | .vcvt _ _ _ _ _ _ _ => .ve
  | .vexp2 _ _ _ _ => .ve
  | .vlog2 _ _ _ _ => .ve
  | .vrcp _ _ _ _ => .ve
  | .vrsq _ _ _ _ => .ve
  | .vtanh _ _ _ _ => .ve
  | .vcmpF _ _ _ _ _ _ _ _ => .ve
  | .vaddI _ _ _ _ _ _ _ => .ve
  | .vsubI _ _ _ _ _ _ _ => .ve
  | .vmulI _ _ _ _ _ _ _ => .ve
  | .vmacI _ _ _ _ _ _ _ => .ve
  | .vand _ _ _ _ _ _ => .ve
  | .vor _ _ _ _ _ _ => .ve
  | .vxor _ _ _ _ _ _ => .ve
  | .vshl _ _ _ _ _ _ _ => .ve
  | .vshr _ _ _ _ _ _ _ => .ve
  | .vsar _ _ _ _ _ _ _ => .ve
  | .vminI _ _ _ _ _ _ _ => .ve
  | .vmaxI _ _ _ _ _ _ _ => .ve
  | .vsat _ _ _ _ _ _ _ => .ve
  | .vcmpI _ _ _ _ _ _ _ _ => .ve
  | .mand _ _ _ _ _ => .ve
  | .mor _ _ _ _ _ => .ve
  | .mxor _ _ _ _ _ => .ve
  | .mnot _ _ _ => .ve
  | .mpopc _ _ _ => .ve
  | .vmov _ _ _ _ => .ve
  | .vsel _ _ _ _ _ _ => .ve
  | .vbcast _ _ _ _ _ => .ve
  | .vperm _ _ _ _ => .ve
  | .vred _ _ _ _ => .ve
  | .vld _ _ _ _ _ => .ve
  | .vst _ _ _ _ _ _ => .ve
  | .vldx _ _ _ _ => .ve
  | .vstx _ _ _ _ => .ve
  | .vsk48 _ _ _ => .ve
  | .vxp48 _ _ _ _ => .ve
  | .vqnt _ _ _ _ _ => .ve
  | .vdq _ _ _ _ _ _ => .ve
  | .vpushc _ _ _ _ => .ve
  | .vpopc _ _ _ _ => .ve
  | .eaddi _ _ => .ctl
  | .emovi _ _ => .ctl
  | .kbase _ => .ctl
  | .loop _ _ => .ctl
  | .loopp _ _ _ => .ctl
  | .endl => .ctl
  | .sstop => .ctl
  | .snop => .ctl
  | .mma _ _ _ _ _ _ => .me
  | .mmaR _ _ _ _ _ _ => .me
  | .mmaS _ _ _ _ _ _ => .me
  | .accnew _ _ => .me
  | .accz _ _ => .me
  | .accld _ _ _ _ => .me
  | .drain _ _ _ _ => .me
  | .mdld _ _ => .me
  | .bstr _ _ => .me
  | .bfs _ _ _ _ _ _ _ _ => .me
  | .bfc _ _ _ _ _ _ _ _ => .me
  | .sort _ _ _ _ _ => .oe
  | .topk _ _ _ _ _ _ => .oe
  | .merge _ _ _ _ _ _ => .oe
  | .segsort _ _ _ _ _ _ => .oe
  | .uniq _ _ _ _ _ => .oe
  | .rankof _ _ _ _ _ _ => .oe
  | .spmv _ _ _ _ _ => .se
  | .spmm _ _ _ _ _ => .se
  | .spgemm _ _ _ => .se
  | .tdir _ => .se
  | .engineEntryStart => .event
  | .engineEntryComplete => .event
  | .stampBeat => .event
  | .engineWatchdog => .event
  | .copy => .event
  | .gfill => .event
  | .fill => .event
  | .mcast => .event
  | .chnop => .event
  | .gather => .event
  | .scatter => .event
  | .gpool => .event
  | .scadd => .event
  | .hashacc => .event
  | .densify => .event
  | .compact => .event
  | .commandSignals => .event
  | .chainBlockFetch => .event
  | .promiseMiss => .event
  | .scratchpadClear => .event
  | .barrierCompletion => .event
  | .nearRead => .event
  | .nearWrite => .event
  | .farRead => .event
  | .farWrite => .event
  | .readReturn => .event
  | .writeAcknowledgement => .event
  | .landingWrite => .event
  | .barrierMessage => .event
  | .schedulerMessage => .event
  | .arbitrationGrant => .event
  | .packetAging => .event
  | .meetingOperand => .event
  | .meetingResult => .event
  | .meetingWithdrawal => .event
  | .heldOperandTaken => .event
  | .meetingTimeout => .event
  | .replyPlacement => .event
  | .ringConsume => .event
  | .edgeDecrement => .event
  | .spawnQueueDrain => .event
  | .spawnProbe => .event
  | .spawnStarved => .event
  | .dispatchPop => .event
  | .strictLanePromotion => .event
  | .nodeRetire => .event
  | .preemption => .event
  | .taskWatchdog => .event
  | .faultDelivery => .event
  | .softError => .event
  | .debugHalt => .event
  | .debugRelease => .event
  | .pageWalkComplete => .event
  | .pageRequest => .event
  | .prespRetry => .event
  | .prespFail => .event
  | .invreq => .event
  | .invalidationComplete => .event
  | .pageSwap => .event
  | .frameRelease => .event
  | .acvalClr => .event
  | .nqctlWrite => .event
  | .prqctlWrite => .event
  | .contextCreate => .event
  | .contextEnd => .event
  | .create => .event
  | .grant => .event
  | .revoke => .event
  | .importBuf => .event
  | .ringreg => .event
  | .ringdel => .event
  | .rtail => .event
  | .registerWrite => .event
  | .fmapdrvWrite => .event
  | .ckptStart => .event
  | .ckptDone => .event
  | .ebudRefill => .event
  | .correctedError => .event
  | .unitDrain => .event
  | .spanLinkFailure => .event
  | .memoryUncorrectableError => .event
  | .powerOn => .event
  | .linkTraining => .event
  | .getVersion => .event
  | .getCapabilities => .event
  | .negotiateAlgorithms => .event
  | .getDigests => .event
  | .getCertificate => .event
  | .challenge => .event
  | .getMeasurements => .event
  | .keyExchange => .event
  | .finish => .event
  | .endSession => .event
  | .keygen => .event
  | .keydel => .event
  | .spdmUnsupportedRequest => .event
  | .sleepExpiry => .event
  | .illegalMicroOrder _ => .event
  | .driverRequestUnknownOp => .event
  | .companionFarWrite => .event
  | .spanRequest => .event

end Sys2Proof
end

