-- ==== Sys2Proof/Machine/Issue.lean ====
section
/-! DEFINITION. Which registers an instruction names: those of a sequencer word, which waits for a read that has yet to return one
of them (R84; log 79), and those of a vector micro-order, which joins the group of a beat unless it reads what that group wrote
(R212); and the turn of an engine. -/

namespace Sys2Proof.Machine

/-! ### Sequencer words (R39, R115) -/

/-- The s registers that a sequencer word reads or writes; spawn also reads the inline arguments s4 to s6 (R115), and jal writes
s1 (R72). -/
def sregsOf (i : Instr) : List (BitVec 5) :=
  match i with
  | .add d a b | .sub d a b | .addw d a b | .subw d a b | .mul d a b | .mulh d a b | .mulhz d a b | .div d a b | .divz d a b
  | .rem d a b | .remz d a b | .and d a b | .or d a b | .xor d a b | .andn d a b | .shl d a b | .shr d a b | .sar d a b
  | .min d a b | .max d a b | .minz d a b | .maxz d a b | .tailw d a b | .taga d a b | .condw d a b => [d, a, b]
  | .sel d a b _ | .meet d a b _ => [d, a, b]
  | .amoAdd d a b _ _ | .amoAnd d a b _ _ | .amoOr d a b _ _ | .amoXor d a b _ _ | .amoMin d a b _ _ | .amoMax d a b _ _
  | .amoMinz d a b _ _ | .amoMaxz d a b _ _ | .amoSwap d a b _ _ | .amoCas d a b _ _ => [d, a, b]
  | .spawn d a b => [d, a, b, 4, 5, 6]
  | .clz d a | .ctz d a | .popc d a | .jalr d a | .dget d a | .stamp d a | .headr d a | .qpop d a => [d, a]
  | .addi d a _ | .andi d a _ | .ori d a _ | .xori d a _ => [d, a]
  | .shli d a _ | .shri d a _ | .sari d a _ => [d, a]
  | .bfx d a _ _ | .bfxs d a _ _ | .bfi d a _ _ => [d, a]
  | .ld d a _ _ _ | .lde d a _ _ _ => [d, a]
  | .st d a _ _ | .ste d a _ _ => [d, a]
  | .cpy a d _ | .idx a d _ => [d, a]
  | .cmp _ _ a b => [a, b]
  | .dset a b | .qpush a b => [a, b]
  | .hold a b _ => [a, b]
  | .erun _ a b c _ => [a, b, c]
  | .ekld _ a b c | .eprg _ a b c => [a, b, c]
  | .capnew d _ b => [d, b]
  | .capnrw _ b | .caprt _ b => [b]
  | .movw d _ | .capq d _ | .capxfer d _ => [d]
  | .movk d _ _ => [d]
  | .xbwait d _ | .xbtest d _ => [d]
  | .tktest d _ => [d]
  | .mfs d _ => [d]
  | .rddbc d | .rdaot d | .rqpop d | .rqpeek d | .self d | .deadl d => [d]
  | .cmpi _ _ a _ => [a]
  | .bdec a _ => [a]
  | .eset _ a _ | .eget _ a _ => [a]
  | .estat _ a | .estop _ a => [a]
  | .fpr _ a => [a]
  | .jr a | .sleepu a | .sleepa a | .qinit a | .tagf a => [a]
  | .xbarm a _ | .scwait a _ | .scpost a _ => [a]
  | .chlink a _ => [a]
  | .mts a _ => [a]
  | .jal _ => [1]
  | _ => []

/-- A read that has not returned is for a register that the word names: the word waits (R84; log 79). -/
def Tile.awaits (x : Tile) (i : Instr) : Bool := x.reads.any (fun r => decide (r.d ≠ 0) && (sregsOf i).contains r.d)

/-! ### Vector micro-orders (R43, R212)

A register of the vector engine as a number: vector registers 0 to 31 by physical number, masks from 64, e registers from 128,
loop counters from 200, the stage predicates 210, KB 211. The rotating base is part of a register's name and counts as none
(log 6). -/

/-- An e register; e0 is no register to wait for (R43). -/
def eNum (e : BitVec 5) : List Nat := if e = 0 then [] else [128 + e.toNat]
/-- The mask of an m field; 0 names none (R211). -/
def mNum (m : BitVec 3) : List Nat := if m = 0 then [] else [64 + m.toNat]
/-- The register that a source of format V reads (R45). -/
def Vec.srcNum (x : Vec) (k : BitVec 2) (sel : BitVec 5) : List Nat :=
  match k.toNat with
  | 0 => [x.phys sel.toNat]
  | 1 => eNum sel
  | 2 => [211]
  | _ => []
/-- The register that a source of a mask operation reads (R219). -/
def maskNum (k : BitVec 1) (sel : BitVec 5) : List Nat := if k = 0 then [64 + sel.toNat % 8] else eNum sel
/-- `n` vector registers from logical number `r` on. -/
def Vec.run (x : Vec) (r n : Nat) : List Nat := (List.range n).map (fun k => x.phys ((r + k) % 32))
/-- Words of a record of the stream whose header a B source names (R228). -/
def State.streamWords (s : State) (kB : BitVec 2) (B : BitVec 5) : Nat :=
  qcwSize (s.load (nearKey s.cur (s.source kB B 0 0 % 2 ^ 20) + 8) 8) / 4

/-- The registers that a vector micro-order of the tile in focus reads and those that it writes. A register of which it keeps
bits is not thereby read (log 6). -/
def State.veRegs (s : State) (i : Instr) : List Nat × List Nat :=
  let x := s.here.vec
  let v := fun (r : BitVec 5) => x.phys r.toNat
  match i with
  | .vaddF d kA A kB B m _ | .vsubF d kA A kB B m _ | .vmulF d kA A kB B m _ | .vminF d kA A kB B m _ | .vmaxF d kA A kB B m _
  | .vaddI d kA A kB B m _ | .vsubI d kA A kB B m _ | .vmulI d kA A kB B m _ | .vshl d kA A kB B m _ | .vshr d kA A kB B m _
  | .vsar d kA A kB B m _ | .vminI d kA A kB B m _ | .vmaxI d kA A kB B m _ | .vsat d kA A kB B m _ =>
    (x.srcNum kA A ++ x.srcNum kB B ++ mNum m, [v d])
  | .vfmaF d kA A kB B m _ | .vmacI d kA A kB B m _ => (v d :: x.srcNum kA A ++ x.srcNum kB B ++ mNum m, [v d])
  | .vand d kA A kB B m | .vor d kA A kB B m | .vxor d kA A kB B m | .vsel d kA A kB B m =>
    (x.srcNum kA A ++ x.srcNum kB B ++ mNum m, [v d])
  | .vabsF d kA A m _ | .vnegF d kA A m _ => (x.srcNum kA A ++ mNum m, [v d])
  | .vcvt d kA A _ _ m _ => (x.srcNum kA A ++ mNum m, [v d])
  | .vexp2 d kA A m | .vlog2 d kA A m | .vrcp d kA A m | .vrsq d kA A m | .vtanh d kA A m | .vmov d kA A m =>
    (x.srcNum kA A ++ mNum m, [v d])
  | .vcmpF _ d kA A kB B m _ | .vcmpI _ d kA A kB B m _ => (x.srcNum kA A ++ x.srcNum kB B ++ mNum m, [64 + d.toNat])
  | .mand d kA A kB B | .mor d kA A kB B | .mxor d kA A kB B => (maskNum kA A ++ maskNum kB B, [64 + d.toNat])
  | .mnot d kA A => (maskNum kA A, [64 + d.toNat])
  | .mpopc d kA A => (maskNum kA A, eNum d)
  | .vbcast d A kB B m => (v A :: x.srcNum kB B ++ mNum m, [v d])
  | .vperm d A B m => (v A :: v B :: mNum m, [v d])
  | .vred d A _ m => (v A :: mNum m, [v d])
  | .vld d eb es pi m => (eNum eb ++ eNum es ++ mNum m, v d :: (if pi = 1 then eNum eb else []))
  | .vst d eb es pi m t => (v d :: eNum eb ++ eNum es ++ mNum m ++ (if t = 1 then [211] else []), if pi = 1 then eNum eb else [])
  | .vldx d eb i m => (eNum eb ++ v i :: mNum m, [v d])
  | .vstx d eb i m => (v d :: eNum eb ++ v i :: mNum m, [])
  | .vsk48 d A _ => ([v A], x.run d.toNat 2)
  | .vxp48 d A B _ => ([v A, v B], [v d])
  | .vqnt d A kB B m => (x.run A.toNat (if d.toNat < 4 then 1 else 2) ++ x.srcNum kB B ++ mNum m, [])
  | .vdq d kA A kB B m => (x.srcNum kA A ++ x.srcNum kB B ++ mNum m, [v d])
  | .vpushc A kB B m => (x.run A.toNat (s.streamWords kB B) ++ x.srcNum kB B ++ mNum m, [])
  | .vpopc d kB B m => (x.srcNum kB B, x.run d.toNat (s.streamWords kB B) ++ mNum m)
  | .eaddi e imm => let l := if e = 0 then [200 + imm.toNat / 2 ^ 17] else eNum e; (l, l)
  | .emovi e imm => if e = 0 then (if imm.getLsbD 16 then eNum (imm.setWidth 5) else [], [200 + imm.toNat / 2 ^ 17]) else ([], eNum e)
  | .kbase _ => ([], [211])
  | .loop lc _ => ([200 + lc.toNat], [])
  | .loopp lc _ _ => ([200 + lc.toNat], [210])
  | .endl => ([], [210])
  | _ => ([], [])
/-- The registers that the running entry's next step reads beside its own: in the body of a loopp, the stage predicates (R232). -/
def Running.predicate (r : Running) : List Nat :=
  match r.loops.head? with
  | some l => if l.piped ∧ l.p < r.step ∧ r.step < l.c then [210] else []
  | none => []
/-- A micro-order of a vector tile joins the group of the beat before: at most four a beat, of which none reads what an earlier
one writes (R212). -/
def State.joins (s : State) (r : Running) (i : Instr) : Bool :=
  decide (s.eng = .ve ∧ Config.dieClass (dieOf s.cur) = 3 ∧ 0 < r.slots ∧ r.slots < 4) &&
    ((s.veRegs i).1 ++ r.predicate).all (fun k => !r.written.contains k)
/-- The running entry once it is settled which group the micro-order issues in: that of the beat before, or the next. Only the beats
of a stamped entry show it (R12, R347). -/
def State.grouped (s : State) (i : Instr) : State :=
  s.modRun s.cur s.eng fun r =>
    if r.nextBeat.isNone then r
    else if s.joins r i then
      { r with nextBeat := r.nextBeat.map (· - 1), slots := r.slots + 1, written := r.written ++ (s.veRegs i).2 }
    else { r with slots := 1, written := (s.veRegs i).2 }

/-- The beat on which a stamped entry executes the micro-order `i` next: that of the group before when it joins it (R212, R292). -/
def State.dueBeat (s : State) (r : Running) (i : Instr) : Option Word := if s.joins r i then r.nextBeat.map (· - 1) else r.nextBeat

/-! ### The turn of an engine (R95, R213, R232, R292) -/

/-- The decoder of an engine of tile `t` (R50). -/
def decodeFor (t : Nat) (e : Eng) (w : Nat) : Instr :=
  match e with
  | .ve => decodeVe w
  | .xe => match Config.dieClass (dieOf t) with
    | 1 => decodeMe w
    | 2 => decodeSe w
    | 4 => decodeOe w
    | _ => .illegalMicroOrder (BitVec.ofNat 32 w)
/-- What an engine does next: nothing, a step that its loop skips, a fault, or a word. -/
inductive EngTurn where
  | idle
  | skip
  | fault (cause : Nat) (tval : Word)
  | word (w : Nat)
  deriving DecidableEq, Repr
/-- The next step of an engine: a stamped entry's only on its beat (R292), which for a vector tile is that of the group that it joins
(R212); a table entry beyond the scratchpad is out of bounds (R95); one in a landing line waits, and misses when the entry is
stamped (R154). The word is read as it stands then: a step that is changed while the entry runs is read new (DESIGN CHOICE,
log 93). -/
def State.engTurn (s : State) (t : Nat) (e : Eng) : EngTurn :=
  let g := (s.tile t).engine e
  match g.run with
  | none => .idle
  | some r =>
    if r.ended.isSome || s.held t then .idle
    else if g.skips r then .skip
    else if (match s.dueBeat r (decodeFor t e (s.stepWord t r r.step)) with | some b => decide (b ≠ s.dbc t) | none => false) then .idle
    else
      let off := r.base + 4 * r.step
      let own := fun (k : Nat) => BitVec.ofNat 64 ((s.tile t).vtile * Config.windowSize + k)
      if Config.scratchEnd < off + 4 then .fault 0x03 (own off)
      else if s.unitLanding t (off / 64) r.entry.no then
        (if r.entry.stamp.isSome then .fault 0x11 (own (off / 64 * 64)) else .idle)
      else .word (s.load (nearKey t off) 4)
/-- The state in which an engine's step is executed. -/
def State.focus (s : State) (t : Nat) (e : Eng) : State := { s with cur := t, eng := e }

end Sys2Proof.Machine
end

