-- ==== Sys2Proof/Machine/Save.lean ====
section
/-! DEFINITION. The save of a gang and its resumption: save slots, their layout, and what is kept, withdrawn and dropped (R14,
R158, R275, R295, R367 to R371). -/

namespace Sys2Proof.Machine

/-! ### Pages of a save slot (R368) -/

/-- The translations of consecutive pages for the scheduler die. -/
inductive PagesRes where
  | ok (s : State) (keys : List Nat)
  | wait (s : State)
  | failed (s : State)
  deriving DecidableEq, Repr
/-- Translate `n` pages from far address `va` (R125, R247). -/
def State.scdPages (s : State) (c va : Nat) (write : Bool) : Nat → PagesRes
  | 0 => .ok s []
  | n + 1 => match s.scd c va write with
    | .wait s => .wait s
    | .failed s => .failed (s.forgetFailed c va)
    | .ok s k => match s.scdPages c (va + 0x10000) write n with
      | .ok s l => .ok s (k :: l)
      | r => r
/-- The slots registered for a context (R368); none while PREEMPT is clear (R380). -/
def State.saveSlots (s : State) (c : Nat) : Nat := if s.pkg.fmapen.getLsbD 3 then ((s.ctxAt c).scdReg 0x030).toNat % 2 ^ 16 else 0
/-- The far address of slot `k` (R368). -/
def State.slotAddr (s : State) (c k : Nat) : Nat := ((s.ctxAt c).scdReg 0x030).toNat / 2 ^ 20 % 2 ^ 35 * 2 ^ 20 + k * 2 ^ 20
/-- Take `n` free slots, by free values (R368; log 2): the slots, first taken first. -/
def State.takeSlots (s : State) (c : Nat) : Nat → Option (State × List Nat)
  | 0 => some (s, [])
  | n + 1 =>
    let m := s.saveSlots c
    if m = 0 then none
    else match firstFree (fun k => !(s.ctxAt c).saveUsed.contains k) 0 m s.pick m with
      | none => none
      | some k => match (s.picked.modCtx c (fun x => { x with saveUsed := k :: x.saveUsed })).takeSlots c n with
        | some (s, l) => some (s, k :: l)
        | none => none
/-- Give slots back. -/
def State.freeSlots (s : State) (c : Nat) (l : List Nat) : State :=
  s.modCtx c (fun x => { x with saveUsed := x.saveUsed.filter (fun k => !l.contains k) })
/-- The key of an offset of a slot whose pages lie at `keys`. -/
def slotKey (keys : List Nat) (off : Nat) : Nat := keys.getD (off / 0x10000) 0 + off % 0x10000
/-- Write bytes from an offset of a slot on. -/
def putSlot (m : List Host.Cell) (keys : List Nat) (off : Nat) : List Byte → List Host.Cell
  | [] => m
  | b :: t => putSlot (Mem.set m (slotKey keys off) b) keys (off + 1) t
/-- `n` bytes at an offset of a slot, as a number. -/
def State.slotNum (s : State) (keys : List Nat) (off n : Nat) : Nat :=
  leNat ((List.range n).map (fun i => Mem.get s.mem (slotKey keys (off + i))))

/-! ### The layout of a slot (R369) -/

/-- A bank as runs of bytes: `n` bytes per entry from an offset. -/
def bankRuns {w : Nat} (off n : Nat) (b : Bank w) : List (Nat × List Byte) := b.map (fun x => (off + n * x.1, leBytes x.2.toNat n))
/-- A record of the phase store buffer: address, mask, four zero bytes, data (R369). -/
def psbRecord (psb : FMap Byte) (g : Nat) : List Byte :=
  let mask := (List.range 32).foldl (fun m i => if (FMap.get? psb (32 * g + i)).isSome then m + 2 ^ i else m) 0
  leBytes (32 * g) 8 ++ leBytes mask 4 ++ leBytes 0 4 ++ (List.range 32).map (fun i => FMap.getD 0 psb (32 * g + i))
/-- The step counter of the class engine (R369): the step that its entry executes next. -/
def Tile.stepCount (x : Tile) : Nat := match x.xe.run with | some r => r.step | none => 0
/-- The registers of a saved member, by offset in its slot (R369). Where the manual names what a place holds and not how it is
packed (arrivals and deliveries, the VE's lc, q and KB, accumulator types and sticky bits, loop state, the reserved block), the bytes are free values, and Node.saves keeps the contents (log 17); p0 reads true. -/
def State.slotRuns (s : State) (t : Nat) (x : Tile) (blocked : Bool) (tag : Nat) : List (Nat × List Byte) :=
  let free := fun (off n : Nat) => (off, (List.range n).map (fun i => Config.deviceByte tag (off + i)))
  let acc := x.mat.acc.filterMap fun e =>
    (findIdxFrom (fun p => decide (p = e.1 / 1024)) x.mat.phys 0).map (fun n => (0xD1000 + 4096 * n.1 + 4 * (e.1 % 1024), leBytes e.2.toNat 4))
  bankRuns 0xC6000 8 x.s ++ [(0xC6100, leBytes (x.pc.toNat + (if blocked then 1 else 0)) 8), (0xC6108, leBytes (x.p ||| 1).toNat 8),
    free 0xC6110 64] ++ bankRuns 0xC6200 8 x.caps ++
    (List.range 16).map (fun k => (0xC6400 + 8 * k, leBytes (s.stateReg t k).toNat 8)) ++
    ((granulesOf x.psb).mapIdx (fun i g => (0xC7000 + 48 * i, psbRecord x.psb g))) ++
    bankRuns 0xCD000 4 x.vec.v ++ bankRuns 0xCF000 8 x.vec.m ++ bankRuns 0xCF040 8 x.ve.e ++ bankRuns 0xCF140 4 x.ve.cb ++
    [free 0xCF540 32] ++ acc ++ [free 0xD9000 16] ++ bankRuns 0xD9100 1 x.mat.md ++ bankRuns 0xDA900 8 x.mat.b ++
    bankRuns 0xDAA00 8 x.xe.e ++ bankRuns 0xDAB00 4 x.xe.cb ++
    [free 0xDAF00 128, (0xDAF80, leBytes x.mat.rpr.toNat 8), (0xDAF88, leBytes x.stepCount 8), free 0xE1000 8192]
/-- The window of tile `t` as runs: its bytes, and its descriptors from 0xC_0000 on. -/
def State.windowRuns (s : State) (t : Nat) : List (Nat × List Byte) :=
  let k := nearKey t 0
  ((s.mem.filter (fun c => decide (k ≤ c.1 ∧ c.1 < k + Config.scratchEnd))).map (fun c => (c.1 - k, [c.2]))) ++
    ((s.desc.filter (fun d => decide (k ≤ d.1 * 64 ∧ d.1 * 64 < k + Config.scratchEnd))).map
      (fun d => (0xC0000 + 2 * (d.1 - k / 64), leBytes d.2.toNat 2)))
/-- Write the slot of member `x` on tile `t`: zero where nothing is written. -/
def State.writeSlot (s : State) (keys : List Nat) (t : Nat) (x : Tile) (blocked : Bool) (tag : Nat) : State :=
  let clean := s.mem.filter (fun c => !keys.any (fun k => decide (k ≤ c.1 ∧ c.1 < k + 0x10000)))
  { s with mem := (s.windowRuns t ++ s.slotRuns t x blocked tag).foldl (fun m r => putSlot m keys r.1 r.2) clean }

/-- Read a bank of `count` entries of `n` bytes back. -/
def State.slotBank (s : State) (keys : List Nat) (w off n count : Nat) : Bank w :=
  (List.range count).filterMap fun k =>
    let v := s.slotNum keys (off + n * k) n
    if v = 0 then none else some (k, BitVec.ofNat w v)
/-- Read the phase store buffer back. -/
def State.slotPsb (s : State) (keys : List Nat) : FMap Byte :=
  (List.range 512).foldl (fun m i =>
    let off := 0xC7000 + 48 * i
    let mask := s.slotNum keys (off + 8) 4
    if mask = 0 then m
    else
      let a := s.slotNum keys off 8
      (List.range 32).foldl (fun m j => if bitN mask j then FMap.set m (a + j) (BitVec.ofNat 8 (s.slotNum keys (off + 16 + j) 1)) else m) m)
    []
/-- The `n` bytes at an offset of a slot are the device's own, as they were written under a mark (R369). -/
def State.slotKept (s : State) (keys : List Nat) (tag off n : Nat) : Bool :=
  (List.range n).all fun i => decide (Mem.get s.mem (slotKey keys (off + i)) = Config.deviceByte tag (off + i))
/-- The reserved block passes the device's checks: it is as it was written (R369). -/
def State.slotGood (s : State) (keys : List Nat) (tag : Nat) : Bool := s.slotKept keys tag 0xE1000 8192
/-- Where software has changed a place of the slot whose packing is not given, the change is taken as written: what it says is free
values (R369; log 17). -/
def State.unpackSlot (s : State) (keys : List Nat) (tag : Nat) (x : Tile) : Tile :=
  let n := Config.unpacked tag
  let lc := fun (k : Nat) => (List.range 4).map (fun i => (i, BitVec.ofNat 24 (n (k + i))))
  let x := if s.slotKept keys tag 0xC6110 64 then x else
    let ds : List Source := [.ce, .ie, .ve, .xe, .promise, .landing]
    { x with
      arr := (List.range 5).foldl (fun a i => FMap.set a i (n i)) x.arr
      out := ((List.range 5).filter (fun i => bitN (n 5) i)).map (fun i => (i, SyncKind.bara, x.nextTx))
      pend := (ds.filter (fun d => bitN (n 6) d.rank)).map (fun d =>
        { source := d, cause := n (8 + d.rank) % 256, tval := BitVec.ofNat 64 (n (16 + d.rank)) : Delivery }) }
  let x := if s.slotKept keys tag 0xCF540 32 then x else
    { x with ve := { x.ve with lc := lc 24, q := BitVec.ofNat 8 (n 28) }, vec := { x.vec with kb := BitVec.ofNat 8 (n 29) } }
  let x := if s.slotKept keys tag 0xD9000 16 then x else
    { x with mat := { x.mat with ty := BitVec.ofNat 8 (n 30), sticky := BitVec.ofNat 8 (n 31) } }
  if s.slotKept keys tag 0xDAF00 128 then x else
    let loops := (List.range (n 32 % 5)).map (fun i =>
      let m := fun (k : Nat) => n (40 + 8 * i + k)
      ({ p := m 0, c := m 1, k := m 2, passes := m 3, trip := m 4, stages := m 5, lc := m 6 % 4, piped := decide (m 7 % 2 = 1) } : Loop))
    { x with xe := { x.xe with lc := lc 36, q := BitVec.ofNat 8 (n 33), run := x.xe.run.map (fun r => { r with loops := loops }) } }
/-- The member that a slot gives back, over what Node.saves keeps of it (R369). The registers that are no member's to keep stay:
TILE, since near addresses are unchanged (R146, R371), CTX, EBUD, which is the tile's, STAMP (R371) and FEAT. -/
def State.readSlot (s : State) (keys : List Nat) (tag : Nat) (x : Tile) : Tile :=
  let x := s.unpackSlot keys tag x
  let reg := fun (k : Nat) => BitVec.ofNat 64 (s.slotNum keys (0xC6400 + 8 * k) 8)
  let rpr := s.slotNum keys 0xDAF80 8
  let acc := (List.range 8).flatMap fun n =>
    (s.slotBank keys 32 (0xD1000 + 4096 * n) 4 1024).map (fun e => (1024 * n + e.1, e.2))
  let xe := { x.xe with
    e := s.slotBank keys 64 0xDAA00 8 32
    cb := s.slotBank keys 32 0xDAB00 4 256
    run := x.xe.run.map (fun r => if r.mma.isSome ∧ bitN rpr 0 then { r with
        step := bitsN rpr 16 16
        mma := r.mma.map (fun m => (bitsN rpr 10 6, bitsN rpr 8 2, m.2.2)) } else { r with step := s.slotNum keys 0xDAF88 8 }) }
  let y := { x with
    s := s.slotBank keys 64 0xC6000 8 32
    pc := BitVec.ofNat 64 (s.slotNum keys 0xC6100 8 / 4 % 2 ^ 53 * 4)
    p := BitVec.ofNat 8 (s.slotNum keys 0xC6108 1) &&& 0xFE
    caps := s.slotBank keys 64 0xC6200 8 64
    psb := s.slotPsb keys
    vec := { x.vec with v := s.slotBank keys 32 0xCD000 4 2048, m := s.slotBank keys 64 0xCF000 8 8 }
    ve := { x.ve with e := s.slotBank keys 64 0xCF040 8 32, cb := s.slotBank keys 32 0xCF140 4 256 }
    xe := xe
    mat := { x.mat with
      acc := acc
      phys := [0, 1, 2, 3, 4, 5, 6, 7]
      md := s.slotBank keys 8 0xD9100 1 6144
      b := s.slotBank keys 64 0xDA900 8 12
      rpr := BitVec.ofNat 64 rpr
      drains := [] } }
  { y with
    hm := (reg 0).getLsbD 0, tvec := reg 1, epc := reg 2, cause := reg 3, tval := reg 4, taskid := reg 5, rank := reg 6, gang := reg 7
    deadline := reg 12, scratch0 := reg 13, scratch1 := reg 14 }
/-- Write the window of a slot back over tile `t`'s slice (R14, R369). -/
def State.restoreWindow (s : State) (keys : List Nat) (t : Nat) : State :=
  let s := s.clearMem (nearKey t 0) Config.scratchEnd
  let bytes := (List.range 12).flatMap fun i =>
    (s.mem.filter (fun c => decide (keys.getD i 0 ≤ c.1 ∧ c.1 < keys.getD i 0 + 0x10000))).map
      (fun c => (nearKey t (0x10000 * i + (c.1 - keys.getD i 0)), c.2))
  let descs := s.slotBank keys 16 0xC0000 2 12288
  { s with
    mem := bytes.foldl (fun m c => Mem.set m c.1 c.2) s.mem
    desc := descs.foldl (fun m d => FMap.set m (nearKey t 0 / 64 + d.1) d.2) s.desc }

/-! ### Stopping a member (R158, R295, R367) -/

/-- A class-engine entry stands inside an MMA micro-order. -/
def Engine.inMma (g : Engine) : Bool := match g.run with | some r => r.mma.isSome && r.ended.isNone | none => false
/-- Every unit that has begun has ended, is parked, or is an MMA that stops at a row group (R367). -/
def Tile.unitsStopped (x : Tile) : Bool :=
  let still := fun (g : Engine) => match g.run with | some r => r.ended.isSome | none => true
  still x.ve && (still x.xe || x.xe.inMma) && (x.ce.cmds ++ x.ie.cmds).all (fun c => !c.begun || c.ended.isSome || c.park.isSome)
/-- Tile `t` may be saved now: it stands at an instruction boundary, its units have stopped, its drains are over, and no access
that it made, or that was made to its window, is still under way, but for writes that wait for the window of a saved gang (R370); no
landing of another tile's unit is to follow (log 18). -/
def State.savable (s : State) (t : Nat) : Bool :=
  let x := s.tile t
  !s.held t && !s.suspended t && !x.inside && x.unitsStopped && x.mat.drains.all (fun d => !(s.dbc t).ult d.done)
    && (s.accesses t).all (fun p => s.windowSaved p.ctx p.vt) && x.reads.isEmpty && x.mat.tensor.isEmpty
    && s.land.all (fun l => (decide (l.dst ≠ t) || s.windowSaved l.ctx l.vt) && decide (l.unit.tile? ≠ some t))
    && s.bits.all (fun b => decide (b.tile ≠ t)) && s.net.all (fun p => decide (p.dst ≠ t) || decide (1 < p.kind) || s.windowSaved p.ctx p.vt)

/-- The MMA micro-order that a word is. -/
def mmaWord (w : Nat) : Option Mma :=
  match decodeMe w with
  | .mma acc eA eB ec mode kc => some (mmaOf 0 acc eA eB ec mode kc)
  | .mmaR acc eA eB ec mode kc => some (mmaOf 1 acc eA eB ec mode kc)
  | .mmaS acc eA eB ec mode kc => some (mmaOf 2 acc eA eB ec mode kc)
  | _ => none
/-- The MMA that tile `t` runs, or that its class engine has to execute now (R232, R292). -/
def State.mmaNow (s : State) (t : Nat) : Option Mma :=
  match (s.focus t .xe).engTurn t .xe with
  | .word w => if Config.dieClass (dieOf t) = 1 then mmaWord w else none
  | _ => none
/-- RPR of a stopped member (R275): the step, chunk and next row group of an MMA in progress. -/
def Tile.progress (x : Tile) : Word :=
  match x.xe.run with
  | some r => match r.mma with
    | some m => if r.ended.isSome then 0 else BitVec.ofNat 64 (r.step * 2 ^ 16 + m.1 * 2 ^ 10 + m.2.1 * 2 ^ 8 + 1)
    | none => 0
  | none => 0
/-- The MMA of tile `t` that is under way, or about to issue, runs up to `n` further row groups of its chunk, and stops there
(R295); RPR says where (R275). -/
def State.stopMma (s : State) (t n : Nat) : State :=
  let f := match s.mmaNow t with
    | some o => if n = 0 then s else { (s.focus t .xe).mmaTurn o (some n) with cur := s.cur, eng := s.eng }
    | none => s
  f.modTile t (fun x => { x with mat := { x.mat with rpr := x.progress } })
/-- Every member of a gang stops: `groups` are the row groups that each one's MMA still runs, by rank. -/
def State.stopGang (s : State) (gang groups : List Nat) : State :=
  (gang.mapIdx (fun i t => (i, t))).foldl (fun s m => s.stopMma m.2 (groups.getD m.1 0)) s

/-- The member is blocked in an instruction that is executed again, as far as its state shows. -/
def Tile.blockedIn (x : Tile) : Bool := x.wait.isSome || x.sleep.isSome || x.tkAt.isSome || x.spawning.isSome
/-- Arrivals withdrawn at a save: those of phase and bar (R158). -/
def Tile.withdrawn (x : Tile) : FMap Nat :=
  x.out.foldl (fun a o => if o.2.1 = .bara then a else FMap.set a o.1 (FMap.getD 0 a o.1 - 1)) x.arr
/-- What is kept of a member (R158, R367): stamps and promises lapse, waits end, arrivals by bara stay; of the beats of its die only how
many an entry has run stays, and its lines are read again. -/
def Tile.kept (x : Tile) (now : Word) : Tile :=
  let cmds := fun (g : CmdEngine) => { g with cmds := g.cmds.map (fun c => { c with promise := none }) }
  let eng := fun (g : Engine) => { g with run := g.run.map (fun r => { r with
    nextBeat := none, startBeat := now - r.startBeat, lines := [], entry := { r.entry with stamp := none } }) }
  { x.unspawn with
    arr := x.withdrawn, out := x.out.filter (fun o => decide (o.2.1 = .bara)), wait := none, sleep := none, tkAt := none
    stamp := 0, ce := cmds x.ce, ie := cmds x.ie, ve := eng x.ve, xe := eng x.xe }

/-- What saving a gang comes to. -/
inductive SaveRes where
  | ok (s : State)
  | no
  | wait (s : State)
  | failed (s : State)
  deriving DecidableEq, Repr
/-- Translate the slots of a list. -/
def State.openSlots (s : State) (c : Nat) (write : Bool) : List Nat → Except (State × Bool) (State × List (List Nat))
  | [] => .ok (s, [])
  | k :: t => match s.scdPages c (s.slotAddr c k) write 16 with
    | .wait s => .error (s, false)
    | .failed s => .error (s, true)
    | .ok s l => match s.openSlots c write t with
      | .ok (s, r) => .ok (s, l :: r)
      | .error e => .error e
/-- While a member is saved, its units that have landing bits set at other tiles go by the node and rank in place of the tile. -/
def savedUnit (n i : Nat) : Nat := 2 ^ 40 + 256 * n + i
/-- The landing bits of tile `a`'s commands become those of `b`'s, and its writes that are still on their way come from there. -/
def State.moveBits (s : State) (a b : Nat) : State :=
  { s with
    bits := s.bits.map (fun x => match x.unit with
      | .cmd t no => if t = a then { x with unit := .cmd b no } else x
      | .meeting _ => x)
    net := s.net.map (fun p => if p.kind < 2 ∧ p.src = a then { p with sdie := b / 256, stile := b % 256 } else p) }
/-- Save one member: its slot `k`, whose pages lie at `keys` (R367, R369). -/
def State.saveMember (s : State) (n k : Nat) (keys : List Nat) (t tag : Nat) (blocked : Bool) : State :=
  let x := s.tile t
  let y := x.kept (s.dbc t)
  let s1 := (s.setTile t y).writeSlot keys t y (blocked || x.blockedIn) tag
  (s1.modNode n (fun d => { d with saves := d.saves ++ [(k, y)] })).setTile t y.vacate
/-- Save the members in rank order. -/
def State.saveMembers (s : State) (n tag blocked i : Nat) (x : Node) : List (Nat × List Nat × Nat) → State
  | [] => s
  | (k, keys, t) :: r =>
    ((s.saveMember n k keys t (tag + i) (bitN blocked i && decide (x.yielding ≠ some t))).moveBits t (savedUnit n i)).saveMembers n tag blocked (i + 1) x r
/-- Save the gang of node `n` (R146, R367 to R369): `groups` are the row groups that each member's MMA still runs, and `blocked` the
members that stood in a blocking instruction, both by rank; one that has yielded stands behind its yield (R355). -/
def State.saveGang (s : State) (n : Nat) (x : Node) (groups : List Nat) (blocked : Nat) : SaveRes :=
  match s.takeSlots x.ctx x.gang.length with
  | none => .no
  | some (s1, ks) =>
    if !x.gang.all (s.stopGang x.gang groups).savable then .wait s
    else match s1.openSlots x.ctx true ks with
      | .error (s, bad) => if bad then .failed (s.freeSlots x.ctx ks) else .wait (s.freeSlots x.ctx ks)
      | .ok (s, keys) =>
        let s := s.stopGang x.gang groups
        let tag := s.fresh
        let s := { s with fresh := s.fresh + x.gang.length }
        let s := s.saveMembers n tag blocked 0 x (List.zip ks (List.zip keys x.gang))
        let s := s.modCtx x.ctx (fun c => { c with
          tmap := c.tmap.map (fun v => if x.holdsTile v.1 then (v.1, { v.2 with saved := true }) else v) })
        .ok ((s.modNode n (fun d => { d with st := .saved, saveTag := tag, yielding := none })).toBank n)

/-! ### Resumption (R14, R371) -/

/-- The saved handles of a member, and those that its commands name. -/
def Tile.heldHandles (x : Tile) : List Word := x.slotHandles ++ (x.ce.cmds ++ x.ie.cmds).flatMap (·.refs)
/-- The saves of node `n` are dropped: its slots are free again and its references go. -/
def State.dropSaves (s : State) (n : Nat) (x : Node) : State :=
  ((s.modNode n (fun d => { d with saves := [] })).freeSlots x.ctx (x.saves.map (·.1))).dropRefs (x.saves.flatMap (fun m => m.2.heldHandles))
/-- Stamped entries that had not begun miss with WHY 5 (R371). -/
def Tile.missSaved (x : Tile) (e : Eng) (beat : Word) : Tile :=
  ((x.engine e).queue.filter (fun q => q.stamp.isSome)).foldl (fun x q => x.missEntry e q 5 beat) x
/-- The replies that a member's producers keep back take the places that are free (R350). -/
def Tile.placeHeld (x : Tile) : Nat → Tile
  | 0 => x
  | n + 1 => match firstReply x.rqHeld with
    | none => x
    | some w => if x.replyRoom then ({ x with rqHeld := removeOne w x.rqHeld }.reply w).placeHeld n else x
/-- The beats of a resumed member's engines and faults are those of its new die (R25, R371): an entry has run as long as before, and what
is pending became so before this beat. -/
def Tile.onDie (x : Tile) (now : Word) : Tile :=
  let eng := fun (g : Engine) => { g with run := g.run.map (fun r => { r with startBeat := now - r.startBeat }) }
  { x with ve := eng x.ve, xe := eng x.xe, pend := x.pend.map (fun d => { d with beat := now - 1 }) }
/-- Give member `x`, saved in a slot under a mark, back on tile `t` (R371). -/
def State.resumeMember (s : State) (c : Nat) (keys : List Nat) (tag : Nat) (x : Tile) (t : Nat) : State :=
  let old := s.tile t
  let y := (s.readSlot keys tag x).onDie (s.dbc t)
  let y := { y with
    stamp := 0, lastCtx := some c, ebud := old.ebud, ebudUsed := old.ebudUsed, banks := old.banks
    nextTx := max y.nextTx old.nextTx, issueNo := max y.issueNo old.issueNo
    icache := if old.lastCtx = some c then old.icache else [] }
  let y := (y.missSaved .ve (s.dbc t)).missSaved .xe (s.dbc t)
  (s.restoreWindow keys t).setTile t (y.placeHeld y.rqHeld.length)
/-- Map the virtual block of a node onto a group of tiles; what the block held before is gone (R143). -/
def State.mapGang (s : State) (x : Node) (v : Nat) (g : List Nat) : State :=
  s.modCtx x.ctx fun c =>
    let old := c.tmap.filter (fun u => !x.holdsTile u.1)
    { c with tmap := (g.mapIdx (fun i t => (v + i, t))).foldl (fun m y => FMap.set m y.1 { phys := y.2 }) old }
/-- Resume the saved node `n` on a group (R371): none while a page of a slot waits. -/
def State.resumeGang (s : State) (n : Nat) (x : Node) (g : List Nat) : State :=
  match s.openSlots x.ctx false (x.saves.map (·.1)) with
  | .error (s, bad) => if bad then (s.dropSaves n x).endNode n 0x13 else s
  | .ok (s, keys) =>
    if (keys.mapIdx (fun i k => (i, k))).any (fun k => !s.slotGood k.2 (x.saveTag + k.1)) then (s.dropSaves n x).endNode n 0x11
    else
      let l := (List.zip keys (List.zip (x.saves.map (·.2)) g)).mapIdx (fun i m => (i, m))
      let s := l.foldl (fun s m => s.resumeMember x.ctx m.2.1 (x.saveTag + m.1) m.2.2.1 m.2.2.2) s
      let s := (g.mapIdx (fun i t => (i, t))).foldl (fun s m => s.moveBits (savedUnit n m.1) m.2) s
      let s := (s.mapGang x x.vfirst g).freeSlots x.ctx (x.saves.map (·.1))
      s.modNode n (fun d => { d with st := .run, saves := [], gang := g, lane := none })

end Sys2Proof.Machine
end

