-- ==== Sys2Proof/Machine/Sched.lean ====
section
/-! DEFINITION. The scheduler die: placement, pops of the ready banks, the strict lane, dispatch, pre-emption, the task watchdog,
soft errors and debug holds (R9, R14, R25, R40, R139 to R147, R330, R356, R365 to R372). -/

namespace Sys2Proof.Machine

/-! ### Groups of tiles (R9, R28, R142, R143) -/

/-- The aligned groups of a width on a die; die-wide, its usable tiles. -/
def State.groupsOn (s : State) (width d : Nat) : List (List Nat) :=
  let n := Config.dieTiles d
  let cut := fun (k : Nat) => (List.range (n / k)).map (fun q => (List.range k).map (fun i => 256 * d + k * q + i))
  match width with
  | 0 => cut 1
  | 1 => cut 4
  | 2 => cut 16
  | _ => [((List.range n).map (256 * d + ·)).filter s.usable]
/-- The groups of a width on the dies of a class, by die and index; class 0 stands for every class. -/
def State.groupsFor (s : State) (k width : Nat) : List (List Nat) :=
  ((List.range 14).filter (fun d => decide (k = 0 ∨ Config.dieClass d = k))).flatMap (s.groupsOn width)
/-- A tile may take part in a new dispatch, free or not: usable and not marked (R28). -/
def State.formable (s : State) (t : Nat) : Bool := s.usable t && !s.marked 1 (dieOf t) (t % 256) && !(s.die (dieOf t)).halted
/-- A tile can take a member of context `c` now: it runs no task, and its clear can begin if it needs one (R14). -/
def State.takes (s : State) (c t : Nat) : Bool :=
  s.formable t && (s.tile t).task.isNone && (decide ((s.tile t).lastCtx = some c) || !s.writesTo t)
/-- The virtual tiles of a gang: the least power of two not below the member count (R143). -/
def blockSize (n : Nat) : Nat := ((List.range 9).map (2 ^ ·)).find? (fun p => decide (n ≤ p)) |>.getD 256
/-- The lowest free block of virtual tiles of a context (R143). -/
def State.freeBlock (s : State) (c size : Nat) : Option Nat :=
  ((List.range (8192 / size)).map (· * size)).find? fun v =>
    s.nodes.all (fun n => decide (n.2.ctx ≠ c ∨ n.2.vsize = 0 ∨ n.2.vfirst + n.2.vsize ≤ v ∨ v + size ≤ n.2.vfirst))
/-- The order in which groups are searched from tile `start` on. -/
def rotateFrom (start : Nat) (l : List (List Nat)) : List (List Nat) :=
  l.filter (fun g => decide (start ≤ g.headD 0)) ++ l.filter (fun g => decide (g.headD 0 < start))
/-- A group that node `x` can take: every tile takes it, none is one that it avoids (R144), and a gang that is saved die-wide
finds as many tiles as it has members, and one that holds a block no more than the block has (R143). -/
def State.groupFits (s : State) (x : Node) (g : List Nat) : Bool :=
  !g.isEmpty && g.all (fun t => s.takes x.ctx t && !x.avoid.contains t)
    && (x.saves.isEmpty || decide (x.saves.length = g.length)) && (decide (x.vsize = 0) || decide (g.length ≤ x.vsize))
/-- Node `x` finds a block of virtual tiles for a group: its own while it holds one (R143, R144). -/
def State.blockFor (s : State) (x : Node) (g : List Nat) : Option Nat :=
  if x.vsize ≠ 0 then some x.vfirst else s.freeBlock x.ctx (blockSize g.length)
/-- The first group of class `k` that node `x` can take outside the tiles of `no`, with its virtual block. -/
def State.placeIn (s : State) (x : Node) (k start : Nat) (no : List Nat) : Option (List Nat × Nat) :=
  match (rotateFrom start (s.groupsFor k (recWidth x.rec_))).find? (fun g => s.groupFits x g && g.all (fun t => !no.contains t)) with
  | some g => (s.blockFor x g).map (fun v => (g, v))
  | none => none

/-! ### Banks and the strict lane (R139, R140) -/

/-- A node that a pop may take: READY or SAVED, not gated, its context not held (R139, R145, R147). -/
def State.poppable (s : State) (x : Node) : Bool :=
  decide (x.st = .ready ∨ x.st = .saved) && x.outcome.isNone && !recControl x.rec_ && !s.gated x && !s.heldCtx x.ctx
/-- The key of a node (R139). -/
def Node.key (x : Node) : List Nat :=
  [recPrio x.rec_, (if recW x.rec_ 3 = 0 then 2 ^ 64 - 1 else recW x.rec_ 3), x.seq]
/-- Strict lexicographic order of keys. -/
def keyLt : List Nat → List Nat → Bool
  | _, [] => false
  | [], _ :: _ => true
  | a :: s, b :: t => decide (a < b) || (decide (a = b) && keyLt s t)
/-- The node with the least key; the first of a list on a tie. -/
def bestOf : List (Nat × Node) → Option (Nat × Node)
  | [] => none
  | n :: t => match bestOf t with
    | some m => if keyLt m.2.key n.2.key then some m else some n
    | none => some n
/-- The head of bank `b` of class `k`. -/
def State.bankHead (s : State) (k b : Nat) : Option (Nat × Node) :=
  bestOf (s.nodes.filter (fun n => s.poppable n.2 && decide (n.2.lane = none ∧ n.2.cls = k ∧ n.2.bank = b)))
/-- The head of the strict lane of class `k`. -/
def State.laneHead (s : State) (k : Nat) : Option (Nat × Node) :=
  (s.nodes.filter (fun n => s.poppable n.2 && n.2.lane.isSome && decide (n.2.cls = k))).foldl
    (fun m n => match m with
      | some b => if n.2.lane.getD 0 < b.2.lane.getD 0 then some n else some b
      | none => some n) none
/-- Busy tiles of a group. -/
def State.busyIn (s : State) (g : List Nat) : Nat := (g.filter (fun t => (s.tile t).task.isSome)).length
/-- The group with the fewest busy tiles; the first on a tie. -/
def State.fewestBusy (s : State) : List (List Nat) → Option (List Nat)
  | [] => none
  | g :: t => match s.fewestBusy t with
    | some h => if s.busyIn h < s.busyIn g then some h else some g
    | none => some g
/-- The tiles reserved for the lane heads that cannot be placed, other than node `n` (R140). -/
def State.reserved (s : State) (n : Nat) : List Nat :=
  (List.range 5).flatMap fun k => match s.laneHead k with
    | none => []
    | some (m, x) =>
      if m = n ∨ (s.placeIn x k 0 []).isSome then []
      else (s.fewestBusy ((s.groupsFor k (recWidth x.rec_)).filter (fun g => !g.isEmpty && g.all s.formable))).getD []
/-- Where node `n` can be placed by a pop of class `k` (R139, R140). -/
def State.place (s : State) (n : Nat) (x : Node) (k start : Nat) : Option (List Nat × Nat) := s.placeIn x k start (s.reserved n)

/-! ### Dispatch (R40, R142 to R144, R265, R330, R356) -/

/-- The record placed in the dispatch page (R330). -/
def Node.page (x : Node) : List Word :=
  if x.fellBack then
    let w := recW x.rec_ 0
    [BitVec.ofNat 64 (w / 2 ^ 24 * 2 ^ 24 + recFbcls x.rec_ * 2 ^ 8 + w % 2 ^ 8), x.rec_.getD 2 0, 0] ++ x.rec_.drop 3
  else x.rec_
/-- Every handle of a list can take `extra` more references, and its buffer `snap` more (R265). -/
def State.refsFit (s : State) (hs : List Word) (extra snap : Nat) : Bool :=
  hs.all fun h => decide ((s.buf (accOf h)).count + extra * (hs.filter (fun g => decide (accOf g = accOf h))).length + snap ≤ 2 ^ 32 - 1)
/-- Take `extra` more references for each handle of a list. -/
def State.addRefs (s : State) (extra : Nat) : List Word → State
  | [] => s
  | h :: t => (s.modBuf (accOf h) (fun b => { b with count := b.count + extra })).addRefs extra t
/-- The registers of a new member (R40, R142): node `n`, rank `r` of a gang of `m` tiles, virtual tile `v`. -/
def State.newMember (s : State) (n : Nat) (x : Node) (hs : List Word) (t r m v : Nat) : Tile :=
  let old := s.tile t
  let page := x.page
  { task := some n
    s := [(2, nearOf v 0xBFFF0), (3, nearOf v 0)]
    caps := hs.mapIdx (fun i h => (i, h))
    pc := page.getD 1 0
    tvec := (s.ctxAt x.ctx).scdReg 0x020
    taskid := BitVec.ofNat 64 (s.nodeId n)
    rank := BitVec.ofNat 64 r
    gang := BitVec.ofNat 64 (recWidth x.rec_ + m * 2 ^ 8)
    vtile := v
    ctx := x.ctx
    deadline := page.getD 3 0
    ebud := old.ebud
    ebudUsed := old.ebudUsed
    nextTx := old.nextTx
    issueNo := old.issueNo
    banks := old.banks
    icache := if old.lastCtx = some x.ctx then old.icache else []
    lastCtx := some x.ctx }
/-- Dispatch one member on tile `t`: the clear of R14 if it is due, the dispatch page, the registers. -/
def State.placeMember (s : State) (n : Nat) (x : Node) (hs : List Word) (t r m v : Nat) : State :=
  let y := s.newMember n x hs t r m v
  let s := if (s.tile t).lastCtx = some x.ctx then s else s.clearMem (nearKey t 0) Config.scratchEnd
  (s.storeBytes (nearKey t 0) (x.page.flatMap (fun w => leBytes w.toNat 8))).setTile t y
/-- Dispatch node `n` on a group, with virtual block `v` (R142, R143): a reference more for every slot of a further member, and one for
each buffer of a restart snapshot (R144); HANDLE when its references do not fit (R265). -/
def State.dispatchNew (s : State) (n : Nat) (x : Node) (g : List Nat) (v : Nat) : State :=
  let again := decide (0 < x.restarts)
  let hs := if again then x.snapshot.getD [] else x.handles
  let extra := if again then g.length else g.length - 1
  let snap := if !again && recRstr x.rec_ then 1 else 0
  if !s.refsFit hs extra snap then s.endNode n 0x12
  else
    let s := (s.addRefs extra hs).addRefs snap (oneEach hs)
    let s := (g.mapIdx (fun i t => (i, t))).foldl (fun s m => s.placeMember n x hs m.2 m.1 g.length (v + m.1)) s
    let s := (s.mapGang x v g).modNode n (fun d => { d with
      st := .run, gang := g, vfirst := v, vsize := if x.vsize = 0 then blockSize g.length else x.vsize, handles := [], lane := none
      snapshot := if recRstr x.rec_ then some hs else none
      res := false, lastAot := s.aot, ran := 0, limit := ((s.ctxAt x.ctx).scdReg 0x028).toNat % 2 ^ 40 })
    { s with reserve := if x.res then s.reserve + 1 else s.reserve }.ringNext n false
/-- Give node `n` a group: a dispatch or a resumption. -/
def State.giveGroup (s : State) (n : Nat) (x : Node) (g : List Nat) (v : Nat) : State :=
  if x.st = .saved then s.resumeGang n x g else s.dispatchNew n x g v

/-! ### Pops (R139, R140) -/

/-- The node is late and is discarded (R139 step 3). -/
def State.expired (s : State) (x : Node) : Bool :=
  decide (x.st = .ready) && recDlate x.rec_ && decide (recW x.rec_ 3 ≠ 0 ∧ recW x.rec_ 3 ≤ s.aot.toNat)
/-- Node `n` was dispatched by a pop of class `k`: the pops that passed over each node that stood ready before, in `old`, and
could have been taken, every one of class `k` and of class 0 (R140). -/
def State.passOver (s old : State) (n k : Nat) : State :=
  { s with nodes := s.nodes.map fun m => match old.node? m.1 with
      | some y =>
        if m.1 ≠ n ∧ (y.cls = k ∨ y.cls = 0) ∧ y.lane = none ∧ old.poppable y then (m.1, { m.2 with passed := m.2.passed + 1 }) else m
      | none => m }
/-- The banks that a pop samples: own i and j, class 0's i' and j' (R139). -/
def sampled (x : BitVec 16) : Nat × Nat × Nat × Nat :=
  let i := x.toNat % 32
  let j := bitsN x.toNat 5 5
  let i' := bitsN x.toNat 10 5
  (i, if j = i then (i + 16) % 32 else j, i', (i' + 16) % 32)
/-- The heads of a list that can be placed, each with its place. -/
def State.placeable (s : State) (k start : Nat) (l : List (Option (Nat × Node))) : List (Nat × Node) :=
  (l.filterMap id).filter (fun n => (s.place n.1 n.2 k start).isSome)
/-- Some bank's head of class `k` or 0 can be placed. -/
def State.anyHead (s : State) (k start : Nat) : Bool :=
  (List.range 32).any (fun b => !(s.placeable k start [s.bankHead k b, s.bankHead 0 b]).isEmpty)
/-- What a pop samples: the node taken from the strict lanes, or the best placeable head of the sampled banks with the LFSR
stepped. -/
def State.sample (s : State) (k start : Nat) : State × Option (Nat × Node) :=
  match s.placeable k start [s.laneHead k, s.laneHead 0] with
  | n :: _ => (s, some n)
  | [] =>
    let (i, j, i', j') := sampled s.lfsr
    ({ s with lfsr := lfsrStep s.lfsr },
      bestOf (s.placeable k start [s.bankHead k i, s.bankHead k j, s.bankHead 0 i', s.bankHead 0 j']))
/-- Pops of class `k`, until one takes a node or none can be placed (R139). -/
def State.pop (s : State) (k start : Nat) : Nat → State
  | 0 => s
  | fuel + 1 =>
    match s.sample k start with
    | (s, none) => if s.anyHead k start then s.pop k start fuel else s
    | (s, some (n, x)) =>
      if s.expired x then (s.endNode n 0x01).pop k start fuel
      else match s.place n x k start with
        | none => s
        | some (g, v) =>
          let s1 := s.giveGroup n x g v
          match (s1.node? n).bind (·.outcome) with
          | some _ => s1.pop k start fuel
          | none => if (s1.node? n).map (·.st) = some .run then s1.passOver s n k else s1

/-- DISPATCH_POP: a pop for a free tile of class arg.n (1 to 4), groups being searched from tile arg.m on (R139). -/
def execDispatchPop (s : State) : Res :=
  .next (if s.arg.n = 0 ∨ 4 < s.arg.n then s else s.pop s.arg.n s.arg.m 131072)
/-- STRICT_LANE_PROMOTION: the ready node in entry arg.n that 2^14 pops have passed over moves to the tail of its class's strict
lane (R140). -/
def execStrictLanePromotion (s : State) : Res :=
  .next (match s.node? s.arg.n with
    | none => s
    | some x =>
      if s.poppable x ∧ x.lane = none ∧ 2 ^ 14 ≤ x.passed then
        { s.modNode s.arg.n (fun d => { d with lane := some s.laneNo }) with laneNo := s.laneNo + 1 }
      else s)

/-! ### Pre-emption (R146, R355, R367) -/

/-- A group for node `x`, in entry `n`, of its width and class, that gang `g` frees together with the free tiles, and that is not
reserved for another (R140). -/
def State.freedGroup (s : State) (n : Nat) (x : Node) (g : List Nat) : Option (List Nat) :=
  let no := s.reserved n
  (s.groupsFor x.cls (recWidth x.rec_)).find? fun l =>
    l.any g.contains && l.all (fun t => s.formable t && !x.avoid.contains t && !no.contains t && (g.contains t || s.takes x.ctx t))
      && (x.saves.isEmpty || decide (x.saves.length = l.length)) && (decide (x.vsize = 0) || decide (l.length ≤ x.vsize))
/-- Node `y`'s gang may be taken for node `x`, in entry `n`, by an involuntary pre-emption (R146). -/
def State.victim (s : State) (n : Nat) (x y : Node) : Bool :=
  decide (y.st = .run ∧ y.cls = x.cls ∧ recPrio x.rec_ + 32 ≤ recPrio y.rec_ ∧ 100000 ≤ y.ran ∧ 0 < s.saveSlots y.ctx)
    && y.outcome.isNone && y.yielding.isNone && !s.heldCtx y.ctx && (s.freedGroup n x y.gang).isSome
/-- The victim: the largest PRIO, and among those the latest dispatch (R146). -/
def pickVictim : List (Nat × Node) → Option (Nat × Node)
  | [] => none
  | n :: t => match pickVictim t with
    | some m =>
      if recPrio n.2.rec_ < recPrio m.2.rec_ ∨ (recPrio n.2.rec_ = recPrio m.2.rec_ ∧ n.2.lastAot.ult m.2.lastAot) then some m
      else some n
    | none => some n
/-- Once gang `g` is saved, node `n` takes a group that it freed, if it can now; it is judged for expiry (R139). -/
def State.giveFreed (s : State) (n : Nat) (g : List Nat) : State :=
  match s.node? n with
  | none => s
  | some x => match s.freedGroup n x g with
    | none => s
    | some l =>
      if s.expired x then s.endNode n 0x01
      else match s.groupFits x l, s.blockFor x l with
        | true, some v => s.giveGroup n x l v
        | _, _ => s
/-- Save the gang of node `v` for node `n`: pre-empted, running on, or abandoned when a page of a slot fails (R146, R368). -/
def State.preempt (s : State) (v : Nat) (y : Node) (n : Nat) (groups : List Nat) (blocked : Nat) : State :=
  match s.saveGang v y groups blocked with
  | .no => s
  | .wait s => s
  | .failed s => s.failTask v 0x13 0 0
  | .ok s => s.giveFreed n y.gang
/-- The node that a yield of node `y` gives its gang to (R146): of those that it may give it to, the one with the least key (DESIGN
CHOICE, log 89). -/
def State.yieldTo (s : State) (y : Node) : Option (Nat × Node) :=
  bestOf (s.nodes.filter (fun m => decide (m.2.st = .ready ∧ m.2.cls = y.cls ∧ recPrio m.2.rec_ < recPrio y.rec_) && s.poppable m.2
    && ((s.freedGroup m.1 m.2 y.gang).bind (s.blockFor m.2)).isSome))
/-- The save that follows the yield of node `v`: its gang goes to the node that the yield gives it to, or runs on where no node can take
it any more or the slots have gone (R146, R355, R368). -/
def State.saveYield (s : State) (v : Nat) (y : Node) : State :=
  match s.yieldTo y, s.takeSlots y.ctx y.gang.length with
  | some (n, _), some _ => s.preempt v y n s.arg.list s.arg.k
  | _, _ => s.modNode v (fun d => { d with yielding := none })
/-- PREEMPTION: the ready node in entry arg.n, which cannot be placed, takes the gang of the victim that R146 names, or the gang in
entry arg.n, which a yield has given up, is saved (R355); arg.list gives the row groups that each member's running MMA still runs, by
rank, and arg.k by rank whether the member stood in a blocking instruction. -/
def execPreemption (s : State) : Res :=
  let n := s.arg.n
  .next (match s.node? n with
    | none => s
    | some x =>
      if x.yielding.isSome ∧ x.st = .run then (if x.outcome.isSome ∨ s.heldCtx x.ctx then s else s.saveYield n x)
      else if !s.poppable x ∨ x.st ≠ .ready ∨ (s.place n x x.cls 0).isSome then s
      else match pickVictim (s.nodes.filter (fun m => s.victim n x m.2)) with
        | none => s
        | some (v, y) => s.preempt v y n s.arg.list s.arg.k)

/-- YIELD: it retires at once; with a node to give the gang to and slots for its members, the gang is given up, executes nothing more,
and is saved once every member can be (R146, R355, R367, R368). -/
def execYield (s : State) : Res :=
  .next (match s.here.task with
    | none => s.nextPc
    | some v => match s.node? v with
      | none => s.nextPc
      | some y =>
        if (s.yieldTo y).isSome ∧ (s.takeSlots y.ctx y.gang.length).isSome then
          s.nextPc.modNode v (fun d => { d with yielding := some s.cur })
        else s.nextPc)

/-! ### Watchdog, soft errors, debug holds (R365, R366, R372) -/

/-- TASK_WATCHDOG: the running task in entry arg.n has run beyond its limit: it fails TASK_TRAP with CAUSE 0x16 (R366). -/
def execTaskWatchdog (s : State) : Res :=
  .next (match s.node? s.arg.n with
    | none => s
    | some x =>
      if x.st = .run ∧ x.outcome.isNone ∧ x.limit ≠ 0 ∧ x.limit < x.ran then s.failTask s.arg.n 0x14 0x16 0x8000000000000000
      else s)
/-- SOFT_ERROR: an uncorrectable soft error of UNIT arg.n, at WHERE arg.m, abandons the member on the current tile (R365); its
node's retirement decides between restart and HW_ERROR (R144). -/
def execSoftError (s : State) : Res :=
  .next (match s.here.task with
    | none => s
    | some n =>
      if ((s.node? n).bind (·.outcome)).isSome ∨ s.arg.n = 0 ∨ 6 < s.arg.n then s
      else (s.failTask n 0x15 0x30 (BitVec.ofNat 64 (s.arg.m % 2 ^ 32 * 2 ^ 8 + s.arg.n))).modNode n
        (fun d => { d with avoid := s.cur :: d.avoid }))

/-- The promises of a tile lapse, and its stamped units go on unstamped when `unstamp` is set (R372). -/
def Tile.heldUp (x : Tile) (unstamp : Bool) : Tile :=
  let cmds := fun (g : CmdEngine) => { g with cmds := g.cmds.map (fun c => { c with promise := none }) }
  let eng := fun (g : Engine) => if unstamp then { g with
    queue := g.queue.map (fun q => { q with stamp := none })
    run := g.run.map (fun r => { r with nextBeat := none, entry := { r.entry with stamp := none } }) } else g
  { x with ce := cmds x.ce, ie := cmds x.ie, ve := eng x.ve, xe := eng x.xe }
/-- DEBUG_HALT: a debugger halts die arg.n, which holds every context with a tile on it (R25, R372): the promises of held tiles
lapse, and their stamped units on dies that are not halted go on unstamped. -/
def execDebugHalt (s : State) : Res :=
  let d := s.arg.n
  let s1 := s.modDie d (fun x => { x with halted := true })
  .next { s1 with tiles := s1.tiles.map (fun t => if s1.held t.1 then (t.1, t.2.heldUp (!(s1.die (dieOf t.1)).halted)) else t) }
/-- DEBUG_RELEASE: the debugger lets die arg.n go on (R372); a tile of it whose context another halted die still holds loses its
stamps, as on any die that is not halted. -/
def execDebugRelease (s : State) : Res :=
  let d := s.arg.n
  let s1 := s.modDie d (fun x => { x with halted := false })
  .next { s1 with tiles := s1.tiles.map (fun t => if dieOf t.1 = d ∧ s1.held t.1 then (t.1, t.2.heldUp true) else t) }

end Sys2Proof.Machine
end

