-- ==== Sys2Proof/Machine/Driver.lean ====
section
/-! DEFINITION. The management aperture: registers, the life of a context, driver requests, rings, feature maps and checkpoints
(R237, R244, R254, R309, R356, R366, R368, R373 to R380, R382, R389). -/

namespace Sys2Proof.Machine

/-! ### Contexts (R373, R376) -/

/-- The set-up registers of the IOD page (R373). -/
def iodSetup : List Nat := [0x000, 0x018, 0x020, 0x028, 0x038, 0x040, 0x068, 0x070, 0x078, 0x080, 0x088]
/-- A register of the SCD page is a set-up register (R373). -/
def scdSetup (off : Nat) : Bool := [0x000, 0x008, 0x018, 0x020, 0x028, 0x030].contains off || decide (0x100 ≤ off ∧ off < 0x280)

/-- CONTEXT_CREATE: a write of LIVE := 1 to CTXCTL of context arg.ctx (R376): CGEN advances, the set-up registers are the
starting values (R373), everything else is empty. Ignored while FMAPEN is zero. -/
def execContextCreate (s : State) : Res :=
  let c := s.arg.ctx
  let x := s.ctxAt c
  .next (if !s.apertureTakes ∨ !ctxOk c ∨ x.live ∨ s.pkg.fmapen = 0 then s
    else s.setCtx c {
      live := true
      cgen := (x.cgen + 1) % 2 ^ 16
      root := x.iodReg 0x000
      iod := x.iod.filter (fun r => iodSetup.contains r.1)
      scd := x.scd.filter (fun r => scdSetup r.1) })

/-- A tile's commands all go, begun or not (R255, R376). -/
def Tile.noCmds (x : Tile) : Tile :=
  let none_ := fun (g : CmdEngine) => { g with cmds := [], chain := none, chainLast := none }
  { x with ce := none_ x.ce, ie := none_ x.ie }
/-- The handles that a node of an ended context holds: of its record, its snapshot and its saves. -/
def Node.allHandles (x : Node) : List Word := x.handles ++ oneEach (x.snapshot.getD []) ++ x.saves.flatMap (fun m => m.2.heldHandles)
/-- A station without the operands and withdrawals of a context (R311). -/
def Station.drop (x : Station) (c : Nat) : Station :=
  { waiting := x.waiting.filter (fun o => decide (o.ctx ≠ c))
    held := x.held.filter (fun i => decide (i.ctx ≠ c)) }
/-- Everything on its way for a context goes with it: decrements, operands, results, walks, landing writes of its commands and
packets. -/
def State.dropTraffic (s : State) (c : Nat) : State :=
  let mine := fun (t : Nat) => (s.tile t).task.isSome && decide ((s.tile t).ctx = c)
  { s with
    edges := s.edges.filter (fun e => decide (e.ctx ≠ c))
    walks := s.walks.filter (fun w => decide (w.ctx ≠ c))
    meetings := s.meetings.filter (fun m => decide (m.a.ctx ≠ c))
    stations := s.stations.map (fun (x : Nat × Station) => (x.1, x.2.drop c))
    net := s.net.filter (fun p => decide (p.ctx ≠ c))
    land := s.land.filter (fun l => decide (l.ctx ≠ c))
    bits := s.bits.filter (fun b => !mine b.tile)
    meets := s.meets.filter (fun m => decide (m.what.ctx ≠ c))
    rings := s.rings.filter (fun r => decide (r.2.ctx ≠ c)) }
/-- The frames that swaps replaced in the buffers of an ended context are released, but for those that another package's commands or
a checkpoint still read, which go with the pool and the queue of the context (R261, R376). -/
def State.endOld (s : State) (c : Nat) : State :=
  let s1 := (s.bufs.filter (fun b => decide (b.2.ctx = c))).foldl (fun s b => s.releaseUnread b.1 (s.outerViews b.1)) s
  { s1 with bufs := s1.bufs.map (fun b => if b.2.ctx = c then (b.1, { b.2 with old := [] }) else b) }
/-- CONTEXT_END: a write of LIVE := 0 to CTXCTL of context arg.ctx, with its five steps (R376): nodes retire without events, tasks
stop, commands and tags go, references are dropped; then the registers return to their reset values (R373). No tile has run a task
of the context that the number is given to next, so the first that it runs on each is cleared for (R14). -/
def execContextEnd (s : State) : Res :=
  let c := s.arg.ctx
  .next (if !s.apertureTakes ∨ !ctxOk c ∨ !(s.ctxAt c).live then s
    else
      let mine := s.nodes.filter (fun n => decide (n.2.ctx = c))
      let here := s.tiles.filter (fun t => t.2.task.isSome && decide (t.2.ctx = c))
      let refs := mine.flatMap (fun n => n.2.allHandles) ++ here.flatMap (fun t => t.2.heldHandles) ++ (s.ctxAt c).transit
      let back := (mine.filter (fun n => n.2.res)).length
      let keep := fun (l : List Nat) => l.filter (fun n => mine.all (fun m => decide (m.1 ≠ n)))
      let cmds := (here.map (·.2) ++ mine.flatMap (fun n => n.2.saves.map (·.2))).flatMap (fun x => x.ce.cmds ++ x.ie.cmds)
      let s0 := cmds.foldl (fun s k => s.endBinds k.born k.no k.refs) (s.dropTraffic c)
      let s1 := s0.invalidate c 0 (2 ^ 39)
      let s2 := { s1 with
        nodes := s1.nodes.filter (fun n => decide (n.2.ctx ≠ c))
        tiles := s1.tiles.map (fun (t : Nat × Tile) =>
          let x := if t.2.task.isSome ∧ t.2.ctx = c then t.2.noCmds.vacate else t.2
          (t.1, if x.lastCtx = some c then { x with lastCtx := none, icache := [] } else x))
        dies := s1.dies.map (fun (d : Nat × Die) => (d.1, { d.2 with spawnQ := keep d.2.spawnQ, spill := keep d.2.spill }))
        reserve := s1.reserve + back }
      let s3 := { s2.modCtx c (fun x => { x with transit := [], tags := [], tmap := [], preqs := [] }) with
        bufs := s2.bufs.map (fun (b : Nat × Buf) => (b.1, match b.2.swapping with
          | some t => if here.any (fun h => decide (h.1 = t)) then { b.2 with swapping := none } else b.2
          | none => b.2)) }
      let s4 := (s3.dropRefs refs).endOld c
      let gen := (s4.ctxAt c).cgen
      s4.setCtx c { cgen := gen })

/-! ### Registers (R373 to R375) -/

/-- The bits that a register keeps of a written value: ranges of first bit and width. -/
def keepBits (l : List (Nat × Nat)) (v : Word) : Word :=
  BitVec.ofNat 64 (l.foldl (fun n r => n + bitsN v.toNat r.1 r.2 * 2 ^ r.1) 0)
/-- The fields of an IOD register without behaviour of its own (R237, R244, R253, R258, R375); none at other offsets. -/
def iodFields (off : Nat) : Option (List (Nat × Nat)) :=
  match off with
  | 0x000 => some [(16, 36), (6, 2), (0, 1)]
  | 0x018 => some [(0, 16)]
  | 0x020 | 0x038 => some [(12, 52)]
  | 0x058 => some [(0, 39)]
  | 0x068 => some [(16, 39), (0, 6)]
  | 0x070 => some [(16, 36), (8, 8)]
  | 0x078 | 0x088 => some [(0, 32)]
  | 0x080 => some [(23, 32), (0, 1)]
  | _ => none
/-- The fields of an SCD register (R145, R237, R356, R366, R368, R374, R375, R378); none at other offsets. -/
def scdFields (off : Nat) : Option (List (Nat × Nat)) :=
  match off with
  | 0x000 => some [(12, 52)]
  | 0x008 => some [(32, 32), (0, 5)]
  | 0x018 => some [(16, 39), (0, 16)]
  | 0x020 => some [(2, 53)]
  | 0x028 => some [(0, 40)]
  | 0x030 => some [(20, 35), (0, 16)]
  | 0x060 => some [(0, 10)]
  | _ =>
    if off < 0x100 ∨ 0x280 ≤ off ∨ off % 8 ≠ 0 then none
    else if (off - 0x100) / 8 % 3 = 2 then some [(0, 1)] else some [(16, 39)]
/-- Registers that a live context keeps: ARENA, FPBASE and FPCNT.N (R375). -/
def fixedLive (off : Nat) : Bool := [0x068, 0x070, 0x078].contains off
/-- A write to a register of the IOD page (R373). -/
def State.writeIod (s : State) (c off : Nat) (v : Word) : State :=
  let x := s.ctxAt c
  match iodFields off with
  | none => s
  | some l =>
    if (!x.live && !iodSetup.contains off) || (x.live && fixedLive off) then s
    else s.setCtx c { x with iod := FMap.set x.iod off (keepBits l v) }
/-- A write to a register of the SCD page (R373): EVQCTL counts afresh when LSIZE changes (R237, R374), DRQ queues a driver
request unless 16 are outstanding (R377), and a gate that opens lets held nodes go (R145). -/
def State.writeScd (s : State) (c off : Nat) (v : Word) : State :=
  let x := s.ctxAt c
  if off = 0x040 then
    if !x.live ∨ 16 ≤ x.drq.length then s else s.setCtx c { x with drq := x.drq ++ [keepBits [(5, 59)] v] }
  else match scdFields off with
    | none => s
    | some l =>
      if !x.live && !scdSetup off then s
      else
        let w := keepBits l v
        let n := if off = 0x008 then writtenAfter (x.scdReg 0x008) w x.evWritten else x.evWritten
        let s1 := s.setCtx c { x with scd := FMap.set x.scd off w, evWritten := n }
        if 0x100 ≤ off then s1.releaseAll ((s1.nodes.filter (fun n => decide (n.2.ctx = c))).map (·.1)) else s1
/-- RUN of a gate group (R145): running tasks whose entry lies in its range. -/
def State.gateRun (s : State) (c g : Nat) : Nat :=
  let lo := ((s.ctxAt c).scdReg (0x100 + 24 * g)).toNat
  let hi := ((s.ctxAt c).scdReg (0x108 + 24 * g)).toNat
  (s.nodes.filter (fun n => decide (n.2.ctx = c ∧ n.2.st = .run ∧ lo ≤ recW n.2.rec_ 1 ∧ recW n.2.rec_ 1 < hi))).length
/-- Every gate of a context is set and DRAINED (R145, R389). -/
def State.drainedCtx (s : State) (c : Nat) : Bool :=
  (List.range 16).all (fun g => ((s.ctxAt c).scdReg (0x110 + 24 * g)).getLsbD 0 && decide (s.gateRun c g = 0))
/-- Every context's gates are set and DRAINED: CKCTL takes a write (R389). -/
def State.drainedAll (s : State) : Bool := s.ctxs.all (fun c => !c.2.live || s.drainedCtx c.1)
/-- REGISTER_WRITE: the driver writes arg.v to the register at offset arg.n of page arg.page of context arg.ctx; one without
behaviour of its own keeps its fields, unlisted offsets and read-only bits keep nothing (R373, R374). CKCTL takes a write without
START as CKPT_START takes one with it (R389). -/
def execRegisterWrite (s : State) : Res :=
  let c := s.arg.ctx
  .next (if !s.apertureTakes then s else match s.arg.page with
    | .pkg =>
      if s.arg.n = 0x048 ∧ s.pkg.fmapen.getLsbD 5 ∧ !s.arg.v.getLsbD 0 ∧ s.drainedAll then s.modPkg (fun p => { p with ckctl := s.arg.v }) else s
    | .iod => if ctxOk c then s.writeIod c s.arg.n s.arg.v else s
    | .scd => if ctxOk c then s.writeScd c s.arg.n s.arg.v else s)
/-- RTAIL: the companion writes arg.v to RTAIL of context arg.ctx: ring number and tail (R378). Bits of the written value that R378 gives
as zero are not read (DESIGN CHOICE, log 98). -/
def execRtail (s : State) : Res :=
  let c := s.arg.ctx
  .next (if !s.apertureTakes ∨ !(s.ctxAt c).live then s
    else
      let r := s.judgeTail c (bitsN s.arg.v.toNat 32 10) (s.arg.v.setWidth 32)
      r.1.modCtx c (fun x => { x with rtres := r.2 }))

/-- FMAPDRV_WRITE: the driver writes arg.v to FMAPDRV, its low word (arg.n 0) or its high word (arg.n 8), which enables the map;
then ignored until the link trains again (R380). -/
def execFmapdrvWrite (s : State) : Res :=
  .next (if s.pkg.fmapOn ∨ !s.apertureTakes then s
    else if s.arg.n = 0 then s.modPkg (fun p => { p with fmapDrv := (p.fmapDrv >>> 64) <<< 64 ||| s.arg.v.setWidth 128 })
    else if s.arg.n = 8 then
      s.modPkg (fun p => { p with fmapDrv := s.arg.v.setWidth 128 <<< 64 ||| (p.fmapDrv.setWidth 64).setWidth 128, fmapOn := true })
    else s)
/-- LINK_TRAINING: the Ndezor Link trains: the aperture is there, and the feature maps are negotiated afresh (R373, R380). -/
def execLinkTraining (s : State) : Res :=
  .next (if s.pkg.booted then s.modPkg (fun p => { p with linkUp := true, fmapOn := false, fmapDrv := 0 }) else s)

/-! ### Driver requests (R377, R378, R382) -/

/-- A driver request as it lies in host memory: OP, bytes 1 to 7, A and B, and its key. -/
structure DrvReq where
  op : Nat
  rest : Nat
  a : Nat
  b : Nat
  key : Nat
  deriving DecidableEq, Repr
/-- The oldest outstanding request of a context. -/
def State.drvReq (s : State) (c : Nat) : Option DrvReq :=
  if !(s.ctxAt c).live then none
  else (s.ctxAt c).drq.head?.map fun v =>
    let k := farKey 1 v.toNat
    { op := s.load k 1, rest := s.load (k + 1) 7, a := s.load (k + 8) 8, b := s.load (k + 16) 8, key := k }
/-- The result of a request that breaks its layout (R377). -/
def badRequest : Nat := 2 ^ 64 - 1
/-- The oldest request completes with a result; DONE advances (R377). -/
def State.finishReq (s : State) (c : Nat) (q : DrvReq) (r : Nat) : State :=
  (s.store (q.key + 24) 8 r).modCtx c (fun x => { x with drq := x.drq.drop 1, drqDone := (x.drqDone + 1) % 2 ^ 32 })
/-- Process the oldest request when it has an OP. -/
def State.request? (s : State) (op : Nat) (f : Nat → DrvReq → State × Nat) : State :=
  let c := s.arg.ctx
  match s.drvReq c with
  | none => s
  | some q =>
    if q.op ≠ op then s
    else
      let r := if op ≠ 5 ∧ q.rest ≠ 0 then (s, badRequest) else f c q
      r.1.finishReq c q r.2
/-- A handle put in transit once more (R334). -/
def State.inTransit (s : State) (c : Nat) (h : Word) : State := s.modCtx c (fun x => { x with transit := h :: x.transit })

/-- CREATE: the oldest request of context arg.ctx, of OP 0x01 (R377). -/
def execCreate (s : State) : Res :=
  .next (s.request? 1 fun c q =>
    if q.a % 2 ^ 16 ≠ 0 ∨ 2 ^ 55 ≤ q.a ∨ q.b = 0 ∨ 2 ^ 40 < q.b then (s, badRequest)
    else match s.freeAcc with
      | none => (s, 0)
      | some a =>
        let gen := (s.buf a).gen
        let h := handleOf a gen 63
        let b : Buf := { gen := gen, vgen := (s.buf a).vgen, live := true, ctx := c, size := q.b, vbase := q.a, count := 1, origin := 1 }
        ((s.picked.setBuf a b).inTransit c h, h.toNat))
/-- GRANT: OP 0x02 (R334, R377); 0 when COUNT would pass its limit, as for a stale handle (log 19). -/
def execGrant (s : State) : Res :=
  .next (s.request? 2 fun c q =>
    let h := BitVec.ofNat 64 q.a
    if !s.fresh? c h ∨ 2 ^ 32 - 1 ≤ (s.buf (accOf h)).count then (s, 0)
    else ((s.modBuf (accOf h) (fun b => { b with count := b.count + 1 })).inTransit c h, q.a))
/-- REVOKE: OP 0x03 (R377). -/
def execRevoke (s : State) : Res :=
  .next (s.request? 3 fun c q =>
    let h := BitVec.ofNat 64 q.a
    if !(s.ctxAt c).transit.contains h then (s, 1)
    else ((s.modCtx c (fun x => { x with transit := removeOne h x.transit })).dropRef (accOf h), 0))
/-- IMPORT: OP 0x04: the owner is asked for a reference, and its answer arg.answer gives the buffer's size, none where it found the handle
stale (R382); a value that is no handle is stale (R117). The proxy has the rights of the remote handle less PUB. -/
def execImportBuf (s : State) : Res :=
  .next (s.request? 4 fun c q =>
    if q.b / 2 ^ 6 ≠ 0 then (s, badRequest)
    else if !s.pkg.fmapen.getLsbD 2 ∨ q.a / 2 ^ 54 ≠ 0 ∨ q.a % 2 ^ 32 = 0 then (s, 0)
    else match s.arg.answer, s.freeAcc with
      | some (size, _), some a =>
        let gen := (s.buf a).gen
        let rights := q.a / 2 ^ 48 % 64
        let s := s.sendSpan q.b (.takeRef (BitVec.ofNat 64 q.a))
        let h := handleOf a gen (rights % 64 - rights / 4 % 2 * 4)
        let b : Buf := { gen := gen, vgen := (s.buf a).vgen, live := true, ctx := c, size := size, count := 1, origin := 1,
                         proxy := some (q.b, BitVec.ofNat 64 q.a) }
        ((s.picked.setBuf a b).inTransit c h, h.toNat)
      | _, _ => (s, 0))
/-- RINGREG: OP 0x05 (R378). -/
def execRingreg (s : State) : Res :=
  .next (s.request? 5 fun c q =>
    let lsize := q.rest % 256
    let space := q.rest / 256 % 256
    if lsize = 0 ∨ 16 < lsize ∨ 1 < space ∨ q.rest / 2 ^ 16 ≠ 0 ∨ q.a % 128 ≠ 0 ∨ q.b % 8 ≠ 0 then (s, badRequest)
    else match firstFree (fun k => (FMap.get? s.rings k).isNone) 0 1024 0 1024 with
      | none => (s, badRequest)
      | some r =>
        let g : Ring := { ctx := c, host := decide (space = 1), base := q.a, widx := q.b, lsize := lsize }
        ({ s with rings := FMap.set s.rings r g }, r))
/-- The ring of a number goes; the order of the nodes that it has already given stays (R133, R378). -/
def State.unregister (s : State) (r : Nat) (g : Ring) : State :=
  if g.unret.isEmpty then { s with rings := FMap.erase s.rings r }
  else
    let k := (s.rings.foldl (fun m x => max m x.1) 1023) + 1
    { s with
      rings := FMap.set (FMap.erase s.rings r) k { g with awake := false }
      nodes := s.nodes.map (fun n => match n.2.source with
        | .ring q i => if q = r ∧ g.unret.contains n.1 then (n.1, { n.2 with source := .ring k i }) else n
        | _ => n) }
/-- RINGDEL: OP 0x06 (R377, R378). -/
def execRingdel (s : State) : Res :=
  .next (s.request? 6 fun c q =>
    if q.b ≠ 0 then (s, badRequest)
    else match FMap.get? s.rings q.a with
      | some g => if g.ctx = c ∧ q.a < 1024 then (s.unregister q.a g, 0) else (s, 1)
      | none => (s, 1))
/-- DRIVER_REQUEST_UNKNOWN_OP: the oldest request of context arg.ctx has an OP that the table does not list (R377). -/
def execDriverRequestUnknownOp (s : State) : Res :=
  let c := s.arg.ctx
  .next (match s.drvReq c with
    | none => s
    | some q => if 1 ≤ q.op ∧ q.op ≤ 6 then s else s.finishReq c q badRequest)

/-! ### Checkpoint (R389) -/

/-- CKPT_START: a write of arg.v to CKCTL with START set, while every context's gates are set and DRAINED: the published view of
every buffer is bound (R389). -/
def execCkptStart (s : State) : Res :=
  .next (if !s.apertureTakes ∨ !s.pkg.fmapen.getLsbD 5 ∨ !s.arg.v.getLsbD 0 ∨ s.pkg.ckpt.isSome ∨ !s.drainedAll then s
    else
      let views := (s.bufs.filter (fun b => b.2.live && b.2.proxy.isNone)).map (fun b => (b.1, b.2.vgen))
      s.modPkg (fun p => { p with ckctl := s.arg.v, ckpt := some views }))
/-- What the streamers have written: `n` bytes at the host destination that CKCTL names, free ones (log 64); through the NVMe tier, which
is not the package's memory, none (R389). -/
def State.streamed (s : State) (n : Nat) : State :=
  if s.pkg.ckctl.getLsbD 1 then s
  else s.picked.storeBytes (farKey 1 (s.pkg.ckctl.toNat / 2 ^ 12 * 2 ^ 12)) ((List.range n).map (Config.streamByte s.fresh))
/-- CKPT_DONE: the stream of a checkpoint is over, done or (arg.ok clear) failed, with arg.n bytes written: an event to every live
context, and the bound views are let go (R261, R379, R389). -/
def execCkptDone (s : State) : Res :=
  .next (match s.pkg.ckpt with
    | none => s
    | some views =>
      let s1 := (s.streamed s.arg.n).modPkg (fun p => { p with ckpt := none })
      let s2 := (s1.ctxs.filter (fun c => c.2.live)).foldl (fun s c => s.post c.1 0x25 0 (if s.arg.ok then 0 else 1) s.arg.n) s1
      views.foldl (fun s v => s.releaseOld v.1) s2)

end Sys2Proof.Machine
end

