-- ==== Sys2Proof/Machine/Net.lean ====
section
/-! DEFINITION. Packets on their way: the modules that join the dies, arbitration, aging, drops, and messages to the scheduler die
(R20 to R22). -/

namespace Sys2Proof.Machine

/-! ### Modules (R20, R381) -/

/-- The dies that the modules of die `d` face, in the order of the bits of its module mask (R20, R381). -/
def facing (d : Nat) : List Nat :=
  let mmds := (List.range 8).map (16 + ·)
  if d < 14 then mmds
  else if 16 ≤ d ∧ d < 24 then List.range 14 ++ [24, 26]
  else if d = 24 then mmds ++ [26, 26, 26, 26, 25]
  else if d = 25 then [24]
  else if d = 26 then mmds ++ [24, 24, 24, 24]
  else []
/-- The index at the other end of module `i` of die `d`: the modules that join the IOD and the SCD have the same order at both. -/
def otherEnd (d i : Nat) : Nat :=
  let f := (facing d).getD i 0
  if (d = 24 ∧ f = 26) ∨ (d = 26 ∧ f = 24) then i else (facing f).idxOf d
/-- Module `i` of die `d` is there and usable: both its dies are present, and it is not retired at either end (R20, R28). -/
def State.moduleUsable (s : State) (d i : Nat) : Bool :=
  match (facing d)[i]? with
  | none => false
  | some f => s.present d && s.present f && !s.retired 3 d i && !s.retired 3 f (otherEnd d i)
/-- A usable module that is not marked for retirement joins two dies: a new route may take it (R28). -/
def State.joined (s : State) (a b : Nat) : Bool :=
  (List.range (facing a).length).any fun i =>
    decide ((facing a).getD i 0 = b) && s.moduleUsable a i && !s.marked 3 a i && !s.marked 3 b (otherEnd a i)
/-- Die `b` is reached from die `a` over at most `n` modules. -/
def State.reaches (s : State) (a b : Nat) : Nat → Bool
  | 0 => decide (a = b)
  | n + 1 => decide (a = b) || (List.range 27).any (fun d => s.joined a d && s.reaches d b n)
/-- The next die of a packet that stands on die `a` (R20): its own when a module joins them; between two compute dies, and between
one and the IOD or the SCD, the memory die that R20 names; for the trust die, by way of the IOD. Where the rule names no die or
none is usable, the least one on a shortest path (DESIGN CHOICE, log 68). -/
def State.nextDie (s : State) (a : Nat) (p : Route) : Option Nat :=
  let aim := if p.ddie = 25 ∧ a ≠ 24 then 24 else p.ddie
  if s.joined a aim then some aim
  else
    let mmds := (List.range 8).map (fun k => 16 + (p.sdie + p.ddie + k) % 8)
    match mmds.find? (fun m => s.joined a m && s.joined m aim) with
    | some m => some m
    | none => (List.range 5).findSome? (fun n => (List.range 27).find? (fun d => s.joined a d && s.reaches d aim n))

/-! ### Arbitration (R21, R22) -/

/-- AGE of a packet that has waited: one more for every 64 beats at its arbitration point, up to 255 (R22). -/
def Route.aged (a : Route) : Nat := min 255 (a.age + a.waited / 64)
/-- Packet `a` is granted before packet `b` (R22): AGE, then SDIE, STILE and input port. -/
def Route.before (a b : Route) : Bool :=
  decide (b.aged < a.aged) || (decide (a.aged = b.aged) && (decide (a.sdie < b.sdie) || (decide (a.sdie = b.sdie) &&
    (decide (a.stile < b.stile) || (decide (a.stile = b.stile) && decide (a.port < b.port))))))
/-- Which list of the state a packet is in: those of kinds 7 and 10, of kind 6, and of the others. -/
inductive Lane where
  | net | land | meets
  deriving DecidableEq, Repr
/-- A packet by the list it is in, its place there, and where it stands. -/
structure Traffic where
  lane : Lane
  place : Nat
  route : Route
  deriving DecidableEq, Repr
/-- Every packet of the package. -/
def State.traffic (s : State) : List Traffic :=
  s.net.mapIdx (fun i p => { lane := .net, place := i, route := p.toRoute }) ++
    s.land.mapIdx (fun i p => { lane := .land, place := i, route := p.toRoute }) ++
    s.meets.mapIdx (fun i p => { lane := .meets, place := i, route := p.toRoute })
/-- The packet that a list of contenders grants: the first of those that none comes before (R22). -/
def grantOf : List Traffic → Option Traffic
  | [] => none
  | p :: t => match grantOf t with
    | some q => if q.route.before p.route then some q else some p
    | none => some p
/-- Change where a packet stands. -/
def State.modRoute (s : State) (x : Traffic) (f : Route → Route) : State :=
  match x.lane with
  | .net => { s with net := modAt (fun p => { p with toRoute := f p.toRoute }) s.net x.place }
  | .land => { s with land := modAt (fun p => { p with toRoute := f p.toRoute }) s.land x.place }
  | .meets => { s with meets := modAt (fun p => { p with toRoute := f p.toRoute }) s.meets x.place }
/-- Remove a packet. -/
def State.dropRouted (s : State) (x : Traffic) : State :=
  match x.lane with
  | .net => { s with net := dropAt s.net x.place }
  | .land => { s with land := dropAt s.land x.place }
  | .meets => { s with meets := dropAt s.meets x.place }
/-- A packet reaches its destination; meeting operands and withdrawals stand in the order in which they do (R305). -/
def State.reachEnd (s : State) (x : Traffic) : State :=
  let s1 := s.modRoute x (fun p => { p with arrived := true, waited := 0 })
  match x.lane with
  | .meets => { s1 with meets := dropAt s1.meets x.place ++ (s1.meets[x.place]?).toList }
  | _ => s1
/-- A packet of the other kinds has a reserved kind (R21), or a reserved LEN, which is treated in the same way (DESIGN CHOICE, log
100). -/
def State.badKind (s : State) (x : Traffic) : Bool :=
  match x.lane with
  | .net => match s.net[x.place]? with | some p => decide (10 < p.kind ∨ 64 < p.len) | none => false
  | _ => false
/-- The router of a tile that is retired or marked for retirement is chosen for no new routing: only what comes from that tile or goes
to it takes it (R388). -/
def State.routerGone (s : State) (p : Route) (q : Nat) : Bool :=
  let t := 256 * (q / 65536) + q % 65536
  decide (q % 65536 < 256 ∧ t ≠ p.dst ∧ t ≠ p.src) && (s.marked 1 (q / 65536) (q % 65536) || s.retired 1 (q / 65536) (q % 65536))
/-- A packet that a router drops: its kind is reserved or its destination die is unassigned or absent (R21). -/
def State.misdirected (s : State) (x : Traffic) : Bool := s.badKind x || !s.present x.route.ddie
/-- A packet goes one hop, router to router or over a die link (R22). -/
def Route.hop (p : Route) (point port : Nat) : Route := { p with age := min 255 (p.aged + 1), point := point, port := port, waited := 0 }
/-- The grant of point arg.n to packet `x` (R20 to R22). -/
def State.grant (s : State) (x : Traffic) : State :=
  if s.misdirected x then (s.dropRouted x).modPkg (fun k => { k with hwLog := k.hwLog ++ [x.route.sdie] })
  else
    let die := x.route.point / 65536
    match s.arg.point with
    | some q =>
      if s.routerGone x.route q then s
      else if q / 65536 = die ∨ (x.route.ddie ≠ die ∧ s.nextDie die x.route = some (q / 65536)) then
        s.modRoute x (·.hop q s.arg.m)
      else s
    | none => if x.route.ddie = die then s.reachEnd x else s
/-- ARBITRATION_GRANT: arbitration point arg.n, which is 65536 times its die plus a number within the die, grants to the oldest of
the packets that wait there; it goes on to point arg.point, of the same die or of the next on its way (R20), at input port arg.m,
or with none reaches its destination. A packet that has nowhere to go is dropped, and the drop logged against its source die
(R21, R22). -/
def execArbitrationGrant (s : State) : Res :=
  .next (match grantOf (s.traffic.filter (fun x => decide (x.route.point = s.arg.n) && !x.route.arrived)) with
    | none => s
    | some x => s.grant x)
/-- The age that a packet has gained by waiting is entered in its header (R22). -/
def Route.enterAge (p : Route) : Route :=
  if p.arrived ∨ p.waited < 64 then p else { p with age := p.aged, waited := p.waited % 64 }
/-- PACKET_AGING: the packet at place arg.n of those with a header of their own, arg.m 0, of the landing writes, 1, or of the meeting
operands, 2, which has waited 64 beats or more at its arbitration point, grows older (R22). -/
def execPacketAging (s : State) : Res :=
  let lane := if s.arg.m = 0 then Lane.net else if s.arg.m = 1 then Lane.land else Lane.meets
  .next (match s.traffic.find? (fun x => decide (x.lane = lane ∧ x.place = s.arg.n)) with
    | none => s
    | some x => s.modRoute x (·.enterAge))
/-- SCHEDULER_MESSAGE: the scheduler message at place arg.n of the net reaches the scheduler die and is consumed; what it asks for
is a step of its own (R21). -/
def execSchedulerMessage (s : State) : Res :=
  .next (match s.arrivedAt s.arg.n 8 with
    | none => s
    | some _ => s.dropPacket s.arg.n)

end Sys2Proof.Machine
end

