-- ==== Sys2Proof/Machine/Sort.lean ====
section
/-! DEFINITION. The sort engine's micro-orders (R312 to R319), and the array accesses that it shares with the sparse engine. -/

namespace Sys2Proof.Machine

/-! ### Arrays (R312) -/

/-- The accesses of an array of `n` bytes at an offset, line by line; its base is aligned to its element width. An array that
leaves the window is cut behind it: its first line out of range decides. -/
def arrayAccess (off n width : Nat) (write : Bool) : List Access :=
  let n := min n Config.windowSize
  if n = 0 then []
  else (linesFrom off n).map fun l =>
    let lo := max l off
    { off := (lo : Int), len := min (l + 64) (off + n) - lo, align := width, write := write : Access }
/-- The elements of an array. -/
def State.readArray (s : State) (off width n : Nat) : List Nat :=
  (List.range n).map (fun i => s.load (nearKey s.cur (off + width * i)) width)
/-- Every byte of a line lies in one of the written ranges (offset, length); ranges begin and end on even offsets. -/
def lineFull (ranges : List (Nat × Nat)) (line : Nat) : Bool :=
  (List.range 32).all (fun k => ranges.any (fun r => decide (r.1 ≤ line + 2 * k ∧ line + 2 * k + 2 ≤ r.1 + r.2)))
/-- The lines that ranges touch. -/
def rangeLines (ranges : List (Nat × Nat)) : List Nat :=
  (ranges.flatMap (fun r => if r.2 = 0 then [] else linesFrom r.1 r.2)).eraseDups
/-- Give every line that is written in full its descriptor (R312). -/
def State.fullDescs (s : State) (ranges : List (Nat × Nat)) (d : BitVec 16) : State :=
  ((rangeLines ranges).filter (lineFull ranges)).foldl (fun s l => s.setDesc (nearKey s.cur l) d) s
/-- Store elements of `width` bytes from an offset on. -/
def State.putArray (s : State) (off width : Nat) : List Nat → State
  | [] => s
  | v :: t => (s.store (nearKey s.cur off) width v).putArray (off + width) width t
/-- An output array of a step: offset, element width, elements, and the descriptor stated for its lines. -/
structure OutArray where
  off : Nat
  width : Nat
  els : List Nat
  desc : BitVec 16
  deriving DecidableEq, Repr
/-- Store the output arrays of a step; a line that those of one stated descriptor fill together is written in full (R312). -/
def State.putArrays (s : State) (l : List OutArray) : State :=
  let s1 := l.foldl (fun s a => s.putArray a.off a.width a.els) s
  ((l.map (·.desc)).eraseDups).foldl
    (fun s d => s.fullDescs ((l.filter (fun a => decide (a.desc = d))).map (fun a => (a.off, a.width * a.els.length))) d) s1
/-- ENGINE_ILLEGAL raised by data at an offset (R312). -/
def State.dataFault (s : State) (off : Nat) : Check := .fault 0x13 (BitVec.ofNat 64 (off * 2 ^ 16 + s.stepNo))
/-- Write e register `k` of the class engine in focus. -/
def State.setE (s : State) (k : Nat) (v : Nat) : State :=
  s.modTile s.cur (fun x => { x with xe := x.xe.wrE (BitVec.ofNat 5 k) (BitVec.ofNat 64 v) })
/-- ceil(log2 n), at least 1. -/
def clog2 (n : Nat) : Nat := max 1 (if n ≤ 1 then 0 else Nat.log2 (n - 1) + 1)
/-- ceil(n / d). -/
def ceilDiv (n d : Nat) : Nat := (n + d - 1) / d

/-! ### Keys (R315) -/

/-- Bytes of a key type. -/
def keyWidth (kt : Nat) : Nat := if kt = 3 then 2 else if kt = 4 then 8 else 4
/-- The unsigned integer by which keys are compared (R315). -/
def keyOrd (kt v : Nat) : Nat :=
  let flt := fun (w : Nat) => if bitN v (w - 1) then 2 ^ w - 1 - v else v + 2 ^ (w - 1)
  match kt with
  | 0 => flt 32
  | 1 => (v + 2 ^ 31) % 2 ^ 32
  | 3 => flt 16
  | _ => v
/-- Key `x` precedes key `y` (R315). -/
def precedes (kt : Nat) (ds : Bool) (x y : Nat) : Bool :=
  if ds then decide (keyOrd kt y < keyOrd kt x) else decide (keyOrd kt x < keyOrd kt y)
/-- The descriptor of a line of keys written in full (R317). -/
def keyDesc (kt : Nat) : BitVec 16 := if kt = 0 then 0x2010 else if kt = 1 then 0x2043 else if kt = 3 then 0x2012 else 0

/-- Insert an element behind those that it does not precede. -/
def insertElem (p : Nat → Nat → Bool) (e : Nat × Nat) : List (Nat × Nat) → List (Nat × Nat)
  | [] => [e]
  | h :: t => if p e.1 h.1 then e :: h :: t else h :: insertElem p e t
/-- The stable order (R315, R316). -/
def stableSort (p : Nat → Nat → Bool) (l : List (Nat × Nat)) : List (Nat × Nat) := l.foldl (fun r e => insertElem p e r) []
/-- The merge of R316; the fuel is the number of elements. -/
def mergeRuns (p : Nat → Nat → Bool) : Nat → List (Nat × Nat) → List (Nat × Nat) → List (Nat × Nat)
  | 0, _, _ => []
  | _ + 1, [], [] => []
  | n + 1, a :: r, [] => a :: mergeRuns p n r []
  | n + 1, [], b :: t => b :: mergeRuns p n [] t
  | n + 1, a :: r, b :: t =>
    if p b.1 a.1 then b :: mergeRuns p n (a :: r) t else a :: mergeRuns p n r (b :: t)
/-- The first element of every run of equal adjacent keys (R316); `prev` is the key before. -/
def uniqRuns (prev : Option Nat) : List (Nat × Nat) → List (Nat × Nat)
  | [] => []
  | e :: t => if prev = some e.1 then uniqRuns prev t else e :: uniqRuns (some e.1) t
/-- Each segment in stable order, other positions as they are (R316); `at_` is the position of the list's head. -/
def sortSegments (p : Nat → Nat → Bool) (at_ : Nat) (l : List (Nat × Nat)) : List (Nat × Nat) → List (Nat × Nat)
  | [] => l
  | (lo, hi) :: r =>
    l.take (lo - at_) ++ stableSort p ((l.drop (lo - at_)).take (hi - lo)) ++ sortSegments p hi (l.drop (hi - at_)) r

/-! ### Micro-orders (R314, R316, R318, R319) -/

/-- The operations of the sort engine. -/
inductive SortOp where
  | sort | topk | merge | segsort | uniq | rankof
  deriving DecidableEq, Repr
/-- The operation has a second operand whose count or list register is e[eB+2]. -/
def SortOp.second (o : SortOp) : Bool := decide (o = .merge ∨ o = .segsort ∨ o = .rankof)

/-- The counts of a step: nA, and nB, NSEG, nQ or k by operation. -/
def State.sortCounts (s : State) (o : SortOp) (eA eB : Nat) : Nat × Nat :=
  (s.eReg (eA + 2), if o.second then s.eReg (eB + 2) else if o = .topk then s.eReg eB else 0)
/-- The fields of a step are illegal (R318). -/
def State.sortIllegal (s : State) (o : SortOp) (eA eB eD kt : Nat) (ds pl : Bool) : Bool :=
  let n := s.sortCounts o eA eB
  decide (4 < kt ∨ 31 < eA + 2 ∨ 31 < eD + 2 ∨ (o.second ∧ 31 < eB + 2) ∨ (o = .uniq ∧ ds) ∨ (o = .rankof ∧ pl)
    ∨ 65536 < n.1 ∨ (o.second ∧ 65536 < n.2))
/-- The output count (R316), given the elements kept by uniq. -/
def outCount (o : SortOp) (n : Nat × Nat) (kept : Nat) : Nat :=
  match o with
  | .sort => n.1
  | .topk => min n.2 n.1
  | .merge => n.1 + n.2
  | .segsort => n.1
  | .uniq => kept
  | .rankof => n.2
/-- Beats in issue (R319). -/
def sortBeats (o : SortOp) (n : Nat × Nat) : Nat :=
  let size := match o with | .merge => n.1 + n.2 | .rankof => n.2 | _ => n.1
  if size = 0 then 1
  else match o with
    | .sort | .segsort => 8 + ceilDiv n.1 16 * clog2 n.1
    | .topk => 8 + ceilDiv n.1 16 + ceilDiv (min n.2 n.1) 16
    | .merge => 8 + ceilDiv (n.1 + n.2) 16
    | .uniq => 8 + ceilDiv n.1 32
    | .rankof => 8 + ceilDiv n.2 16 * clog2 (n.1 + 1)
/-- A run of keys with payloads. -/
def State.readRun (s : State) (keys pay w n : Nat) (pl : Bool) : List (Nat × Nat) :=
  List.zip (s.readArray keys w n) (if pl then s.readArray pay 4 n else List.replicate n 0)
/-- The first offset word of a segment list that breaks R318: it decreases, or it is the last and above nA. -/
def segBad (nA : Nat) (prev k : Nat) : List Nat → Option Nat
  | [] => none
  | [o] => if o < prev ∨ nA < o then some k else none
  | o :: t => if o < prev then some k else segBad nA o (k + 1) t
/-- The reads of a step, in operand order (R312). -/
def State.sortReads (s : State) (o : SortOp) (eA eB kt : Nat) (pl : Bool) : List Access :=
  let n := s.sortCounts o eA eB
  let w := keyWidth kt
  let run := fun (e k : Nat) => arrayAccess (s.eOff e) (w * k) w false ++
    (if pl then arrayAccess (s.eOff (e + 1)) (4 * k) 4 false else [])
  run eA n.1 ++ (match o with
    | .merge => run eB n.2
    | .segsort => arrayAccess (s.eOff eB) (4 * (n.2 + 1)) 4 false
    | .rankof => arrayAccess (s.eOff eB) (w * n.2) w false
    | _ => [])
/-- The checks of the inputs (R312, R318). -/
def State.sortInputs (s : State) (o : SortOp) (eA eB kt : Nat) (pl : Bool) : Check :=
  let n := s.sortCounts o eA eB
  (s.checkAll (s.sortReads o eA eB kt pl)).andThen
    (match o with
    | .segsort => match segBad n.1 0 0 (s.readArray (s.eOff eB) 4 (n.2 + 1)) with
        | some k => s.dataFault (s.eOff eB + 4 * k)
        | none => .pass
    | _ => .pass)
/-- The output elements; ranks stand as keys (R316). -/
def State.sortOutput (s : State) (o : SortOp) (eA eB kt : Nat) (ds pl : Bool) : List (Nat × Nat) :=
  let n := s.sortCounts o eA eB
  let w := keyWidth kt
  let p := precedes kt ds
  let a := s.readRun (s.eOff eA) (s.eOff (eA + 1)) w n.1 pl
  match o with
  | .sort => stableSort p a
  | .topk => (stableSort p a).take n.2
  | .merge => mergeRuns p (n.1 + n.2) a (s.readRun (s.eOff eB) (s.eOff (eB + 1)) w n.2 pl)
  | .segsort =>
    let l := s.readArray (s.eOff eB) 4 (n.2 + 1)
    sortSegments p 0 a (List.zip l (l.drop 1))
  | .uniq => uniqRuns none a
  | .rankof => (s.readArray (s.eOff eB) w n.2).map (fun q => ((a.filter (fun e => p e.1 q)).length, 0))

/-- A sort-engine step (R312, R316 to R319). -/
def State.sortStep (s : State) (o : SortOp) (eA eB eD : BitVec 5) (kt : BitVec 3) (ds pl : BitVec 1) : State :=
  let a := eA.toNat
  let b := eB.toNat
  let d := eD.toNat
  let k := kt.toNat
  if s.sortIllegal o a b d k (ds = 1) (pl = 1) then s.stepIllegal
  else s.after (s.sortInputs o a b k (pl = 1)) fun s =>
    let n := s.sortCounts o a b
    let out := s.sortOutput o a b k (ds = 1) (pl = 1)
    let w := if o = .rankof then 4 else keyWidth k
    s.guarded (arrayAccess (s.eOff d) (w * out.length) w true ++
        (if pl = 1 then arrayAccess (s.eOff (d + 1)) (4 * out.length) 4 true else [])) fun s =>
      let keys : OutArray := { off := s.eOff d, width := w, els := out.map (·.1), desc := if o = .rankof then 0 else keyDesc k }
      let pays : OutArray := { off := s.eOff (d + 1), width := 4, els := out.map (·.2), desc := 0 }
      let s1 := (s.touchAll (s.sortReads o a b k (pl = 1))).putArrays (if pl = 1 then [keys, pays] else [keys])
      (s1.setE (d + 2) (outCount o n out.length)).stepDone (sortBeats o n)

/-- SORT: R316. -/
def execSort (eA eD : BitVec 5) (kt : BitVec 3) (ds pl : BitVec 1) (s : State) : Res := .next (s.sortStep .sort eA 0 eD kt ds pl)
/-- TOPK: R316. -/
def execTopk (eA eB eD : BitVec 5) (kt : BitVec 3) (ds pl : BitVec 1) (s : State) : Res :=
  .next (s.sortStep .topk eA eB eD kt ds pl)
/-- MERGE: R316. -/
def execMerge (eA eB eD : BitVec 5) (kt : BitVec 3) (ds pl : BitVec 1) (s : State) : Res :=
  .next (s.sortStep .merge eA eB eD kt ds pl)
/-- SEGSORT: R316. -/
def execSegsort (eA eB eD : BitVec 5) (kt : BitVec 3) (ds pl : BitVec 1) (s : State) : Res :=
  .next (s.sortStep .segsort eA eB eD kt ds pl)
/-- UNIQ: R316. -/
def execUniq (eA eD : BitVec 5) (kt : BitVec 3) (ds pl : BitVec 1) (s : State) : Res := .next (s.sortStep .uniq eA 0 eD kt ds pl)
/-- RANKOF: R316. -/
def execRankof (eA eB eD : BitVec 5) (kt : BitVec 3) (ds pl : BitVec 1) (s : State) : Res :=
  .next (s.sortStep .rankof eA eB eD kt ds pl)

end Sys2Proof.Machine
end

