-- ==== Sys2Proof/Machine/Sparse.lean ====
section
/-! DEFINITION. The sparse engine's micro-orders (R312, R313, R320 to R329). -/

namespace Sys2Proof.Machine

/-! ### Headers (R320, R321) -/

/-- A header as read: its offset and fields. -/
structure SpHead where
  off : Nat
  rows : Nat
  cols : Nat
  vfmt : Nat
  ifmt : Nat
  nnz : Nat
  roff : Nat
  coff : Nat
  voff : Nat
  tdoff : Nat
  deriving DecidableEq, Repr
/-- Bytes of a column index. -/
def SpHead.iw (h : SpHead) : Nat := if h.ifmt = 0 then 2 else 4
/-- The value format. -/
def SpHead.fmt (h : SpHead) : FFmt := if h.vfmt = 0x10 then fp32 else if h.vfmt = 0x11 then fp16 else bf16
/-- Bytes of a value. -/
def SpHead.vw (h : SpHead) : Nat := h.fmt.width / 8
/-- Read a header. -/
def State.readHead (s : State) (off : Nat) : SpHead :=
  let w := fun (k n : Nat) => s.load (nearKey s.cur (off + k)) n
  { off := off, rows := w 0 4, cols := w 4 4, vfmt := w 8 1, ifmt := w 9 1, nnz := w 12 4, roff := w 16 4, coff := w 20 4
    voff := w 24 4, tdoff := w 28 4 }
/-- The accesses of a header (R320): one line, 64-aligned. -/
def headAccess (off : Nat) (write : Bool) : List Access := [{ off := (off : Int), len := if write then 32 else 64, align := 64, write := write }]
/-- The first word of bytes 32 to 63 of a header that is not zero. -/
def State.headTail (s : State) (off : Nat) : Option Nat :=
  ((List.range 8).map (fun k => off + 32 + 4 * k)).find? (fun o => decide (s.load (nearKey s.cur o) 4 ≠ 0))
/-- The offset of the first field of an input header that breaks R320. -/
def State.headBad (s : State) (h : SpHead) : Option Nat :=
  if h.rows = 0 ∨ 65536 < h.rows then some h.off
  else if h.cols = 0 ∨ 65536 < h.cols then some (h.off + 4)
  else if (h.vfmt ≠ 0x10 ∧ h.vfmt ≠ 0x11 ∧ h.vfmt ≠ 0x12) ∨ 1 < h.ifmt ∨ s.load (nearKey s.cur (h.off + 10)) 2 ≠ 0 then some (h.off + 8)
  else if 2 ^ 20 ≤ h.roff ∨ h.roff % 4 ≠ 0 then some (h.off + 16)
  else if 2 ^ 20 ≤ h.coff ∨ h.coff % h.iw ≠ 0 then some (h.off + 20)
  else if 2 ^ 20 ≤ h.voff ∨ h.voff % h.vw ≠ 0 then some (h.off + 24)
  else if 2 ^ 20 ≤ h.tdoff ∨ h.tdoff % 8 ≠ 0 then some (h.off + 28)
  else s.headTail h.off
/-- The offset of the first field of an output header that breaks R321. -/
def State.outBad (s : State) (h : SpHead) : Option Nat :=
  if s.load (nearKey s.cur (h.off + 10)) 2 ≠ 0 then some (h.off + 8)
  else if 2 ^ 20 ≤ h.roff ∨ h.roff % 4 ≠ 0 then some (h.off + 16)
  else if 2 ^ 20 ≤ h.coff ∨ h.coff % 4 ≠ 0 then some (h.off + 20)
  else if 2 ^ 20 ≤ h.voff ∨ h.voff % 4 ≠ 0 then some (h.off + 24)
  else s.headTail h.off
/-- Row pointer `r` (R320). -/
def State.ptr (s : State) (h : SpHead) (r : Nat) : Nat := s.load (nearKey s.cur (h.roff + 4 * r)) 4
/-- The column of position `p` (R320). -/
def State.colOf (s : State) (h : SpHead) (p : Nat) : Nat := s.load (nearKey s.cur (h.coff + p * h.iw)) h.iw
/-- The value of position `p`, widened exactly (R320, R321). -/
def State.valOf (s : State) (h : SpHead) (p : Nat) : Num := h.fmt.decode (s.load (nearKey s.cur (h.voff + p * h.vw)) h.vw)
/-- The positions of row `r` (R320). -/
def State.positions (s : State) (h : SpHead) (r : Nat) : List Nat :=
  (List.range (s.ptr h (r + 1) - s.ptr h r)).map (fun k => s.ptr h r + k)
/-- The offset of the first pointer that decreases (R321). -/
def State.ptrBad (s : State) (h : SpHead) : Option Nat :=
  ((List.range h.rows).find? (fun r => decide (s.ptr h (r + 1) < s.ptr h r))).map (fun r => h.roff + 4 * (r + 1))
/-- The offset of the first column index out of range (R321). -/
def State.colBad (s : State) (h : SpHead) : Option Nat :=
  ((List.range h.nnz).find? (fun k => decide (h.cols ≤ s.colOf h (s.ptr h 0 + k)))).map (fun k => h.coff + (s.ptr h 0 + k) * h.iw)
/-- Tiles of a matrix in one direction (R322). -/
def tilesOf (n : Nat) : Nat := ceilDiv n 128
/-- A data check: a fault when there is an offending word. -/
def State.dataCheck (s : State) (o : Option Nat) : Check :=
  match o with
  | some off => s.dataFault off
  | none => .pass
/-- The checks on an input matrix, each before what it lets be read (R312, R321); `vals` asks for its values and its directory
too, which tdir does not read. -/
def State.matrixCheck (s : State) (off : Nat) (vals : Bool) : Check :=
  let h := s.readHead off
  (s.checkAll (headAccess off false)).andThen <|
    (s.dataCheck (s.headBad h)).andThen <|
    (s.checkAll (arrayAccess h.roff (4 * (h.rows + 1)) 4 false)).andThen <|
    (s.dataCheck (s.ptrBad h)).andThen <|
    (if h.nnz ≠ s.ptr h h.rows - s.ptr h 0 then s.dataFault (off + 12) else .pass).andThen <|
    (s.checkAll (arrayAccess (h.coff + s.ptr h 0 * h.iw) (h.nnz * h.iw) h.iw false)).andThen <|
    (s.dataCheck (s.colBad h)).andThen <|
    if vals then s.checkAll (arrayAccess (h.voff + s.ptr h 0 * h.vw) (h.nnz * h.vw) h.vw false ++
      (if h.tdoff ≠ 0 then arrayAccess h.tdoff (8 * (tilesOf h.rows * tilesOf h.cols)) 8 false else [])) else .pass
/-- The reads of an input matrix that has passed its checks. -/
def State.matrixReads (s : State) (off : Nat) (vals : Bool) : List Access :=
  let h := s.readHead off
  headAccess off false ++ arrayAccess h.roff (4 * (h.rows + 1)) 4 false ++
    arrayAccess (h.coff + s.ptr h 0 * h.iw) (h.nnz * h.iw) h.iw false ++
    (if vals then arrayAccess (h.voff + s.ptr h 0 * h.vw) (h.nnz * h.vw) h.vw false else [])

/-! ### The directory and the choice of dataflow (R322, R328) -/

/-- Stored entries of tile (I, J) (R322). -/
def State.tileCount (s : State) (h : SpHead) (I J : Nat) : Nat :=
  (((List.range 128).map (128 * I + ·)).filter (fun r => decide (r < h.rows))).foldl
    (fun n r => n + ((s.positions h r).filter (fun p => decide (s.colOf h p / 128 = J))).length) 0
/-- DEN of tile (I, J) as R322 computes it. -/
def State.denOf (s : State) (h : SpHead) (I J : Nat) : Nat :=
  min 65535 (s.tileCount h I J * 65536 / (min 128 (h.rows - 128 * I) * min 128 (h.cols - 128 * J)))
/-- DEN of tile (I, J): of the directory when there is one (R328). -/
def State.density (s : State) (h : SpHead) (I J : Nat) : Nat :=
  if h.tdoff ≠ 0 then s.load (nearKey s.cur (h.tdoff + 8 * (I * tilesOf h.cols + J) + 4)) 2 else s.denOf h I J
/-- The dataflow of a pair: 0 inner, 1 outer, 2 row-wise (R328). -/
def dataflow (a b : Nat) : Nat := if 8192 ≤ a ∧ 8192 ≤ b then 0 else if a < 1024 ∧ b < 1024 then 1 else 2
/-- The report of a list of pairs (R328). -/
def reportOf (l : List Nat) : Nat :=
  let n := fun (k : Nat) => min 0xFFFF (l.filter (· = k)).length
  n 0 + n 1 * 2 ^ 16 + n 2 * 2 ^ 32
/-- The tiles of a matrix that hold an entry. -/
def State.liveTiles (s : State) (h : SpHead) : List (Nat × Nat) :=
  ((List.range (tilesOf h.rows)).flatMap (fun I => (List.range (tilesOf h.cols)).map (fun J => (I, J)))).filter
    (fun t => decide (0 < s.tileCount h t.1 t.2))
/-- The report of spmv and spmm. -/
def State.denseReport (s : State) (h : SpHead) : Nat :=
  reportOf ((s.liveTiles h).map (fun t => dataflow (s.density h t.1 t.2) 65535))
/-- The report of spgemm. -/
def State.pairReport (s : State) (a b : SpHead) : Nat :=
  reportOf ((s.liveTiles a).flatMap fun t =>
    ((s.liveTiles b).filter (fun u => decide (u.1 = t.2))).map fun u => dataflow (s.density a t.1 t.2) (s.density b u.1 u.2))

/-! ### Products with a dense operand (R324, R325) -/

/-- The fold of R324. -/
def foldTerms (s0 : Nat) (l : List (Num × Num)) : Nat := l.foldl (fun v t => fp32.rne ((fp32.decode v).add (t.1.mul t.2))) s0
/-- A stamped sparse step misses before it issues (R329). -/
def State.unlessStamped (s : State) (f : State) : State := if s.stamped then s.stepFault 0x11 (missTval 0 s.stepNo) else f
/-- Format of the dense operand. -/
def denseFmt (xf : BitVec 1) : FFmt := if xf = 0 then fp32 else bf16

/-- SPMV: R325. -/
def execSpmv (eH eX eY : BitVec 5) (acc xf : BitVec 1) (s : State) : Res :=
  let off := s.eOff eH.toNat
  let h := s.readHead off
  let F := denseFmt xf
  let w := F.width / 8
  let x := s.eOff eX.toNat
  let y := s.eOff eY.toNat
  .next (s.unlessStamped <| if 31 < eY.toNat + 2 then s.stepIllegal
    else s.after (s.matrixCheck off true) fun s =>
      s.guarded (arrayAccess x (w * h.cols) w false ++ (if acc = 1 then arrayAccess y (4 * h.rows) 4 false else []) ++
          arrayAccess y (4 * h.rows) 4 true) fun s =>
        let s := s.touchAll (s.matrixReads off true)
        let b := fun (c : Nat) => F.decode (s.load (nearKey s.cur (x + w * c)) w)
        let out := (List.range h.rows).map fun r =>
          foldTerms (if acc = 1 then s.load (nearKey s.cur (y + 4 * r)) 4 else 0)
            ((s.positions h r).map (fun p => (s.valOf h p, b (s.colOf h p))))
        ((s.putArrays [{ off := y, width := 4, els := out, desc := 0x2010 }]).setE (eY.toNat + 2) (s.denseReport h)).stepDone 1)

/-- SPMM: R323, R325. -/
def execSpmm (eH eX eY : BitVec 5) (acc xf : BitVec 1) (s : State) : Res :=
  let off := s.eOff eH.toNat
  let h := s.readHead off
  let F := denseFmt xf
  let w := F.width / 8
  let x := s.eOff eX.toNat
  let y := s.eOff eY.toNat
  let xs := s.eReg (eX.toNat + 1)
  let ys := s.eReg (eY.toNat + 1)
  let nb := s.eReg (eX.toNat + 2)
  .next (s.unlessStamped <| if 31 < eY.toNat + 2 ∨ 31 < eX.toNat + 2 ∨ nb = 0 ∨ 256 < nb ∨ xs % w ≠ 0 ∨ xs < nb * w then s.stepIllegal
    else s.after (s.matrixCheck off true) fun s =>
      let rows := fun (base str n len al : Nat) (wr : Bool) =>
        (List.range n).flatMap (fun i => arrayAccess (base + i * str) len al wr)
      let outAlign : Check := if y % 4 ≠ 0 ∨ ys % 4 ≠ 0 then .fault 0x02 (s.ownAddr y) else .pass
      let outs := (if acc = 1 then rows y ys h.rows (4 * nb) 4 false else []) ++ rows y ys h.rows (4 * nb) 4 true
      s.after (((s.checkAll (rows x xs h.cols (nb * w) w false)).andThen outAlign).andThen (s.checkAll outs)) fun s =>
        let s := s.touchAll (s.matrixReads off true ++ rows x xs h.cols (nb * w) w false ++ outs)
        let b := fun (c j : Nat) => F.decode (s.load (nearKey s.cur (x + c * xs + w * j)) w)
        let out := (List.range h.rows).map fun r => (r, (List.range nb).map fun j =>
          foldTerms (if acc = 1 then s.load (nearKey s.cur (y + r * ys + 4 * j)) 4 else 0)
            ((s.positions h r).map (fun p => (s.valOf h p, b (s.colOf h p) j))))
        let s1 := out.foldl (fun s r => s.putArray (y + r.1 * ys) 4 r.2) s
        let s2 := s1.fullDescs ((List.range h.rows).map (fun r => (y + r * ys, 4 * nb))) 0x2010
        (s2.setE (eY.toNat + 2) (s.denseReport h)).stepDone 1)

/-! ### Sparse products (R326) and directories (R327) -/

/-- The terms of row `i` of the product, in the order of R326: column, and the two factors. -/
def State.gemmTerms (s : State) (a b : SpHead) (i : Nat) : List (Nat × Num × Num) :=
  (s.positions a i).flatMap fun p => (s.positions b (s.colOf a p)).map fun q => (s.colOf b q, s.valOf a p, s.valOf b q)
/-- Insert a column among ascending columns, once. -/
def insertCol (c : Nat) : List Nat → List Nat
  | [] => [c]
  | h :: t => if c < h then c :: h :: t else if c = h then h :: t else h :: insertCol c t
/-- Row `i` of the product: columns ascending, with their sums. -/
def State.gemmRow (s : State) (a b : SpHead) (i : Nat) : List (Nat × Nat) :=
  let ts := s.gemmTerms a b i
  (ts.foldl (fun l t => insertCol t.1 l) []).map fun c =>
    (c, foldTerms 0 ((ts.filter (fun t => decide (t.1 = c))).map (fun t => (t.2.1, t.2.2))))
/-- The rows that fit in the capacity (R326): pointers so far, latest first, and entries. -/
def takeRows (cap : Nat) (rows : List (List (Nat × Nat))) (ptrs : List Nat) (out : List (Nat × Nat)) :
    List Nat × List (Nat × Nat) × Bool :=
  match rows with
  | [] => (ptrs.reverse, out, false)
  | r :: t =>
    if cap < out.length + r.length then (ptrs.reverse, out, true)
    else takeRows cap t ((out.length + r.length) :: ptrs) (out ++ r)

/-- SPGEMM: R323, R326. -/
def execSpgemm (eH eX eY : BitVec 5) (s : State) : Res :=
  let aOff := s.eOff eH.toNat
  let bOff := s.eOff eX.toNat
  let cOff := s.eOff eY.toNat
  let a := s.readHead aOff
  let b := s.readHead bOff
  let c := s.readHead cOff
  .next (s.unlessStamped <| if 31 < eY.toNat + 2 then s.stepIllegal
    else s.after (((s.matrixCheck aOff true).andThen (s.matrixCheck bOff true)).andThen
        ((if b.rows ≠ a.cols then s.dataFault bOff else .pass).andThen
          ((s.checkAll (headAccess cOff false ++ headAccess cOff true)).andThen (s.dataCheck (s.outBad c))))) fun s =>
      s.guarded (arrayAccess c.roff (4 * (a.rows + 1)) 4 true ++ arrayAccess c.coff (4 * c.nnz) 4 true ++
          arrayAccess c.voff (4 * c.nnz) 4 true) fun s =>
        let r := takeRows c.nnz ((List.range a.rows).map (s.gemmRow a b)) [0] []
        let n := r.1.length - 1
        let s1 := s.touchAll (s.matrixReads aOff true ++ s.matrixReads bOff true ++ headAccess cOff true)
        let s3 := s1.putArrays [{ off := c.roff, width := 4, els := r.1, desc := 0 }, { off := c.coff, width := 4, els := r.2.1.map (·.1), desc := 0 },
          { off := c.voff, width := 4, els := r.2.1.map (·.2), desc := 0x2010 }]
        let k := nearKey s.cur cOff
        let s4 := ((((s3.store k 4 n).store (k + 4) 4 b.cols).store (k + 8) 2 0x0110).store (k + 12) 4 r.2.1.length).store (k + 28) 4 0
        ((s4.setE (eY.toNat + 1) (n + (if r.2.2 then 2 ^ 63 else 0))).setE (eY.toNat + 2) (s.pairReport a b)).stepDone 1)

/-- TDIR: R322, R327. -/
def execTdir (eH : BitVec 5) (s : State) : Res :=
  let off := s.eOff eH.toNat
  let h := s.readHead off
  let n := tilesOf h.rows * tilesOf h.cols
  .next (s.unlessStamped <| s.after ((s.matrixCheck off false).andThen (if h.tdoff = 0 then s.dataFault (off + 28) else .pass)) fun s =>
      s.guarded (arrayAccess h.tdoff (8 * n) 8 true) fun s =>
        let l := (List.range n).map fun k =>
          let I := k / tilesOf h.cols
          let J := k % tilesOf h.cols
          s.denOf h I J * 2 ^ 32 + s.tileCount h I J
        ((s.touchAll (s.matrixReads off false)).putArrays [{ off := h.tdoff, width := 8, els := l, desc := 0 }]).stepDone 1)

end Sys2Proof.Machine
end

