-- ==== Sys2Proof/Machine/Tasks.lean ====
section
/-! DEFINITION. The TASK and ring instructions of the sequencer, spawn queues, overflow, probes and the reserve (R113 to R116,
R135 to R138). -/

namespace Sys2Proof.Machine

/-! ### spawn (R115, R135 to R138) -/

/-- The slots named by a spawn's mask, ascending. -/
def maskSlots (m : Nat) : List Nat := (List.range 64).filter (fun k => bitN m k)
/-- What a spawn at this program counter that was interrupted took from slot `k`; 0 when it took nothing there (R115; log 30). -/
def Tile.keptHandle (x : Tile) (k : Nat) : Word :=
  match x.interrupted.find? (fun p => decide (p.pc = x.pc) && p.slots.contains k) with
  | some p => (((p.slots.zip p.handles).find? (fun y => decide (y.1 = k))).map (·.2)).getD 0
  | none => 0
/-- The handle that a spawn takes from slot `k`: the slot's, or, where the spawn was interrupted and left the slot empty, the one that
it took from it (R115; DEDUCED, log 30). -/
def Tile.spawnCap (x : Tile) (k : Nat) : Word := if x.cap k = 0 then x.keptHandle k else x.cap k
/-- What an interrupted spawn at `pc` took from slot `k` is kept no more. -/
def unkeep (pc : Word) (k : Nat) : List Spawning → List Spawning
  | [] => []
  | p :: r =>
    if p.pc = pc ∧ p.slots.contains k then
      { p with slots := p.slots.filter (· ≠ k), handles := ((p.slots.zip p.handles).filter (fun y => decide (y.1 ≠ k))).map (·.2) } :: r
    else p :: unkeep pc k r
/-- The slots of a list are emptied into a spawn (R115). -/
def Tile.takeCaps (x : Tile) (l : List Nat) : Tile :=
  l.foldl (fun y k => if y.cap k = 0 then { y with interrupted := unkeep y.pc k y.interrupted } else y.setCap k 0) x
/-- The checks of a spawn, in order (R115): the trap it raises, if any. -/
def State.spawnBad (s : State) (entry mask : Word) : Option (Nat × Word) :=
  let l := maskSlots mask.toNat
  let x := s.here
  if !pcOk entry then some (0x04, entry)
  else if 7 < l.length then some (0x0A, mask)
  else match l.find? (fun k => decide (x.spawnCap k = 0)) with
    | some k => some (0x08, BitVec.ofNat 64 k)
    | none => match l.find? (fun k => !s.fresh? x.ctx (x.spawnCap k)) with
      | some k => some (0x0B, BitVec.ofNat 64 k)
      | none => (l.find? (fun k => !hasRight (x.spawnCap k) 3)).map (fun k => (0x09, BitVec.ofNat 64 k))
/-- The record of a spawned node (R115): CLASS as the parent's dispatch page shows it. -/
def spawnRecord (parent : Node) (x : Tile) (entry : Word) (ncap : Nat) : List Word :=
  let r := parent.rec_
  let flag := fun (b : Bool) (k : Nat) => if b then 2 ^ k else 0
  [BitVec.ofNat 64 (1 + recClass parent.page * 2 ^ 8 + flag (recRstr r) 26 + flag (recDlate r) 27 + flag (recLtol r) 29
      + recPrio r * 2 ^ 32 + ncap * 2 ^ 40),
    entry, 0, r.getD 3 0, 0, x.rd 4, x.rd 5, x.rd 6]

/-- The spawn queue of die `d` has room for a spawn: spilled nodes go first (R135). -/
def State.spawnRoom (s : State) (d : Nat) : Bool := decide ((s.die d).spawnQ.length < Config.spawnQueue) && (s.die d).spill.isEmpty
/-- The places of a context's overflow area that hold a node. -/
def State.spillUsed (s : State) (c : Nat) : List Nat :=
  (s.nodes.filter (fun n => decide (n.2.ctx = c))).filterMap (fun n => n.2.spillAt)
/-- A free place of the overflow area (R135); none when it is full or unregistered. -/
def State.spillPlace (s : State) (c : Nat) : Option Nat :=
  let n := ((s.ctxAt c).scdReg 0x018).toNat % 2 ^ 16
  let used := s.spillUsed c
  if n = 0 then none else firstFree (fun k => !used.contains k) 0 n 0 n
/-- A spawn of the tile is blocked: its die's queue and the overflow area have no place (R136). -/
def State.spawnBlocked (s : State) (t : Nat) : Bool :=
  let x := s.tile t
  x.spawning.isSome && s.admits && !s.spawnRoom (dieOf t) && (s.spillPlace x.ctx).isNone
/-- The node that a waiting spawn brings. -/
def spawnNode (x : Tile) (t : Nat) (p : Spawning) : Node :=
  { ctx := x.ctx, rec_ := p.rec_, handles := p.handles, source := .spawn t, st := .queued }
/-- The reply that the scheduler die gives for a node of the overflow area or the reserve (R137). -/
def spawnReply (st id : Nat) : Word := replyWord 6 st 0 (id % 2 ^ 36)
/-- The waiting spawn of the tile in focus tries to hand its node over (R115, R138); where it meets a fault on a page of the overflow
area, the gang stands suspended until that is answered (R135). -/
def State.trySpawn (s : State) (d : BitVec 5) (p : Spawning) : State :=
  let t := s.cur
  let x := s.here
  let k := dieOf t
  let put := fun (s : State) (p : Spawning) => s.setHere { s.here with spawning := some p }
  let done := fun (s : State) (n : Nat) => ((s.setHere { s.here with spawning := none }).modTask
    (fun y => { y with noRestart := true })).retire d (BitVec.ofNat 64 (s.nodeId n))
  if !s.admits then put s { p with since := s.dbc t, starved := s.aot }
  else if s.spawnRoom k then
    match s.allot (spawnNode x t p) with
    | none => s
    | some (s, n) => done (s.modDie k (fun y => { y with spawnQ := y.spawnQ ++ [n] })) n
  else match s.spillPlace x.ctx with
    | none => s
    | some i =>
      let va := ((s.ctxAt x.ctx).scdReg 0x018).toNat / 2 ^ 16 % 2 ^ 39 * 2 ^ 16 + 128 * i
      match s.scd x.ctx va true with
      | .wait s => (put s { p with since := s.dbc t, starved := s.aot }).modTask (fun y => { y with overflow := some (va / 2 ^ 16) })
      | .failed s =>
        let s := (s.setHere s.here.unspawn).forgetFailed x.ctx va
        match x.task with
        | some n => s.failTask n 0x13 0 0
        | none => s
      | .ok s key =>
        match s.allot { spawnNode x t p with spillAt := some i } with
        | none => s
        | some (s, n) =>
          let image := p.rec_ ++ [0] ++ p.handles ++ List.replicate (7 - p.handles.length) 0
          let s := s.storeWords key (image.map (·.toNat))
          let s := s.modDie k (fun y => { y with spill := y.spill ++ [n] })
          done (s.giveReply t (spawnReply 5 (s.nodeId n))) n
/-- SPAWN: the checks, then the slots are emptied and the node waits to be taken (R115); a reserve entry that a probe was granted
ends the wait (R136). One that was interrupted while it waited is executed from the start (R92), and finds what it took from the
slots that it left empty (R115; DEDUCED, log 30). -/
def execSpawn (d a b : BitVec 5) (s : State) : Res :=
  .next (match s.here.ret with
    | some v => (s.setHere { s.here with ret := none }).retire d v
    | none => match s.here.spawning with
      | some p => s.trySpawn d p
      | none =>
        let x := s.here
        let entry := x.rd a
        let mask := x.rd b
        match s.spawnBad entry mask, x.task.bind s.node? with
        | some (k, v), _ => s.trap k v
        | none, none => s
        | none, some parent =>
          let l := maskSlots mask.toNat
          let p : Spawning := {
            rec_ := spawnRecord parent x entry l.length, handles := l.map x.spawnCap, slots := l
            since := s.dbc s.cur, starved := s.aot, pc := x.pc }
          (s.setHere { x.takeCaps l with spawning := some p }).trySpawn d p)

/-- SPAWN_QUEUE_DRAIN: the head of die arg.n's spawn queue enters the table's processing (R115, R130, R135); a spilled node
takes a place that is free in the queue, ahead of later spawns. -/
def execSpawnQueueDrain (s : State) : Res :=
  let d := s.arg.n
  let refill := fun (s : State) => match (s.die d).spill with
    | [] => s
    | n :: r =>
      if (s.die d).spawnQ.length < Config.spawnQueue then
        (s.modDie d (fun y => { y with spawnQ := y.spawnQ ++ [n], spill := r })).modNode n (fun x => { x with spillAt := none })
      else s
  .next (match (s.die d).spawnQ with
    | [] => refill s
    | n :: r => refill ((s.modDie d (fun y => { y with spawnQ := r })).proceed n))

/-- Tile `t` runs a task that is blocked in spawn: some member of it is (R136). -/
def State.runsBlocked (s : State) (t : Nat) : Bool :=
  match (s.tile t).task with
  | some n => (s.members n).any (fun m => s.spawnBlocked m.1)
  | none => false
/-- The die to which the probe moves on from queue `q` (R136): its head cannot be placed, and every usable tile of the head's
class runs a task that is blocked in spawn on that die. -/
def State.probeNext (s : State) (q : Nat) : Option Nat :=
  match (s.die q).spawnQ.head?.bind (fun n => (s.node? n).map (fun x => (n, x))) with
  | none => none
  | some (n, x) =>
    let k := recClass x.rec_
    let tiles := (s.groupsFor k 0).flatten.filter s.usable
    match tiles with
    | [] => none
    | t :: _ =>
      if (s.place n x k 0).isNone ∧ tiles.all (fun u => decide (dieOf u = dieOf t) && s.runsBlocked u) then some (dieOf t) else none
/-- The probe from queue `q0`, now at `q`, comes back (R136). -/
def State.probeReturns (s : State) (q0 q : Nat) : Nat → Bool
  | 0 => false
  | fuel + 1 => match s.probeNext q with
    | none => false
    | some r => decide (r = q0) || s.probeReturns q0 r fuel
/-- SPAWN_PROBE: the probe of the current tile's spawn, blocked for 4096 beats, runs round; if it returns, the spawn is granted an
entry of the reserve (R136, R137); its node comes behind the nodes that the die spilled before (R135). -/
def execSpawnProbe (s : State) : Res :=
  let t := s.cur
  .next (match s.here.spawning with
    | none => s
    | some p =>
      if !s.spawnBlocked t ∨ (s.dbc t - p.since).toNat < 4096 ∨ s.reserve = 0 ∨ !s.probeReturns (dieOf t) (dieOf t) 14 then s
      else match s.allot { spawnNode s.here t p with res := true } with
        | none => s
        | some (s, n) =>
          let s := { s with reserve := s.reserve - 1 }.modDie (dieOf t) (fun y =>
            if y.spill.isEmpty then { y with spawnQ := y.spawnQ ++ [n] } else { y with spill := y.spill ++ [n] })
          let id := s.nodeId n
          ((s.giveReply t (spawnReply 8 id)).modTile t (fun x => { x with spawning := none, ret := some (BitVec.ofNat 64 id) })).modTask
            (fun y => { y with noRestart := true }))
/-- SPAWN_STARVED: the current tile's blocked spawn has waited another 1 000 000 ticks with the reserve empty (R136). -/
def execSpawnStarved (s : State) : Res :=
  .next (match s.here.spawning, s.here.task with
    | some p, some n =>
      if !s.spawnBlocked s.cur ∨ 0 < s.reserve ∨ (s.aot - p.starved).toNat < 1000000 then s
      else (s.setHere { s.here with spawning := some { p with starved := s.aot } }).post s.here.ctx 0x22 0 (s.nodeId n) 0
    | _, _ => s)

/-! ### done, condw, self, deadl (R114, R116) -/

/-- Stop the engines of the tile in focus whose FLT is set (R116 step 1). -/
def State.stopFaulted (s : State) : State :=
  let t := s.cur
  let s := if s.here.ve.flt then s.setHere (s.here.stopEngine .ve) else s
  let s := if s.here.xe.flt && s.here.mat.tensor.isEmpty then s.setHere (s.here.stopEngine .xe) else s
  let s := if s.here.ce.flt then s.discardCmds t .ce else s
  if s.here.ie.flt then s.discardCmds t .ie else s
/-- Every engine of a tile is idle. -/
def Tile.allIdle (x : Tile) : Bool := (List.range 4).all x.idleEng
/-- The member's earlier reads have returned, and its earlier accesses and its commit can be performed (R80, R88, R116 step 2). -/
def State.commitsNow (s : State) : Bool :=
  let x := s.here
  x.reads.isEmpty && (s.accesses s.cur).all s.packetReady && (granulesOf x.psb).all (s.commitReady s.cur x.ctx)
/-- Perform the accesses of a tile in order (R88 step 1). -/
def State.performAccesses (s : State) (t : Nat) : State :=
  (s.accesses t).foldl performAccess { s with net := s.net.filter (fun p => !decide (p.kind < 2 ∧ p.src = t)) }
/-- DONE: R116; the task completes when every member has executed it. -/
def execDone (s : State) : Res :=
  let t := s.cur
  .next (
    let s := s.stopFaulted
    if !s.here.allIdle || !s.commitsNow then s
    else
      let s := (((s.performAccesses t).commitPsb t).dropSlots t).modTile t (fun x => { x with fin := true })
      match s.here.task with
      | none => s
      | some n =>
        if (s.members n).all (·.2.fin) then s.modNode n (fun d => if d.outcome.isSome then d else { d with outcome := some (0, 0, 0) })
        else s)
/-- CONDW: the scheduler die writes the condition word; the instruction waits for its answer, and nothing interrupts it (R92,
R114). The attempt has performed it once the word is written (R144). An address of 2^55 or more traps as a misaligned one does (DESIGN CHOICE, log 88). -/
def execCondw (d a b : BitVec 5) (s : State) : Res :=
  let va := s.here.rd a
  .next (if va.toNat % 8 ≠ 0 ∨ 2 ^ 55 ≤ va.toNat then s.trap 0x04 va
    else
      match s.scd s.here.ctx va.toNat true with
      | .ok s k => (((s.store k 8 (s.here.rd b).toNat).setHere { s.here with sent := false }).modTask (fun n => { n with noRestart := true })).retire d 0
      | .failed s => ((s.forgetFailed s.here.ctx va.toNat).setHere { s.here with sent := false }).retire d 1
      | .wait s => s.setHere { s.here with sent := true })
/-- SELF: R114, R127. -/
def execSelf (d : BitVec 5) (s : State) : Res := .next (s.retire d s.here.taskid)
/-- DEADL: R114. -/
def execDeadl (d : BitVec 5) (s : State) : Res :=
  .next (s.retire d (if s.here.deadline = 0 then 0x7FFFFFFFFFFFFFFF else s.here.deadline - s.aot))

/-! ### Rings (R113) -/

/-- TAILW: the scheduler die judges the tail; with d = s0 the result is discarded (R113). -/
def execTailw (d a b : BitVec 5) (s : State) : Res :=
  let r := s.judgeTail s.here.ctx (s.here.rd a).toNat ((s.here.rd b).setWidth 32)
  .next ((if r.2 = 0 then r.1.modTask (fun n => { n with noRestart := true }) else r.1).retire d (BitVec.ofNat 64 r.2))
/-- HEADR: R113. -/
def execHeadr (d a : BitVec 5) (s : State) : Res :=
  .next (s.retire d (match FMap.get? s.rings (s.here.rd a).toNat with
    | some q => if q.ctx = s.here.ctx ∧ (s.here.rd a).toNat < 1024 then BitVec.ofNat 64 (q.head.toNat % 2 ^ 32) else 0
    | none => 0))

end Sys2Proof.Machine
end

