-- ==== Sys2Proof/Machine/Trust.lean ====
section
/-! DEFINITION. Boot, attestation, memory keys, power and field harvesting (R383 to R386, R388). -/

namespace Sys2Proof.Machine

/-! ### Boot (R7, R24, R383) -/

/-- A unit that fails at reset, as POWER_ON names it: 2^24 times its kind plus 2^16 times its die plus its index; it is retired
with reason 1 (R28, R381). -/
def badUnit (v : Nat) : Retired := { kind := v / 2 ^ 24, die := v / 2 ^ 16 % 256, index := v % 2 ^ 16, reason := 1 }
/-- The service dies in the order in which their images are checked: the trust die, the IOD, the memory dies, the SCD (R383). -/
def serviceDies : List Nat := [25, 24, 16, 17, 18, 19, 20, 21, 22, 23, 26]
/-- The compute dies of a population: a G920-D has no dies 8 and 9 (R7). -/
def computeDies (dense : Bool) : List Nat := (List.range 14).filter (fun d => !(dense && decide (d = 8 ∨ d = 9)))
/-- The image of die `d` passes: its digest is that of its manifest, the signature of the manifest verifies against the root key whose
digest is fused, and its security version is not below the fused counter of the die's type (R383). -/
def Pkg.imagePasses (p : Pkg) (l : FMap Image) (d : Nat) : Bool :=
  match FMap.get? l d with
  | some i => decide (i.digest = i.manifest) && decide (i.key = p.rootKey) && i.signed && decide (FMap.getD 0 p.fused (typeCode d) ≤ i.version)
  | none => false
/-- POWER_ON: the boot ROM of the trust die checks the images arg.images of the dies, in its order; one that is not there fails. arg.list
are the units that fail at reset, such as a module that does not train (R20), coded as badUnit reads them; arg.k 1 is a package of the
G920-D population. The first service die to fail keeps the package from starting, and the boot status names it; a compute die that fails
stays in reset, retired with reason 3 and left out of the die mask (R383). -/
def execPowerOn (s : State) : Res :=
  let l := s.arg.images
  let dense := decide (s.arg.k = 1)
  let failed := (s.arg.list.map badUnit).filter (fun u => decide (1 ≤ u.kind ∧ u.kind ≤ 5))
  .next (if s.pkg.booted then s
    else match serviceDies.find? (fun d => !s.pkg.imagePasses l d) with
      | some d => s.modPkg (fun p => { p with bootFail := some d })
      | none =>
        let bad := (computeDies dense).filter (fun d => !s.pkg.imagePasses l d)
        let s1 := s.modPkg (fun p => { p with dense := dense, badDies := bad, images := l.filter (fun i => p.imagePasses l i.1), bootFail := none })
        let lost := bad.flatMap (fun d => (List.range (Config.dieTiles d)).map (fun i => ({ kind := 1, die := d, index := i, reason := 3 } : Retired)))
        let up := (List.range 27).filter s1.present
        (up.foldl (fun s d => s.modDie d (fun x => { x with outOfReset := true, dbc := 0 })) s1).modPkg
          (fun p => { p with booted := true, retired := lost ++ failed }))

/-! ### SPDM (R384, R385) -/

/-- The trust die gives a response, over the mailbox arg.box by which the request came (R384). -/
def State.answer (s : State) (r : SpdmResp) : State :=
  s.modPkg (fun p => { p with spdm := { p.spdm with sent := (s.arg.box, r) :: p.spdm.sent } })
/-- Change the trust die's session. -/
def State.session (s : State) (n : Nat) : State := s.modPkg (fun p => { p with spdm := { p.spdm with session := n } })
/-- GET_VERSION: R384. -/
def execGetVersion (s : State) : Res := .next (s.answer .version)
/-- GET_CAPABILITIES: R384. -/
def execGetCapabilities (s : State) : Res := .next (s.answer .capabilities)
/-- NEGOTIATE_ALGORITHMS: the one of each kind that the trust die has (R384). -/
def execNegotiateAlgorithms (s : State) : Res := .next (s.answer (.algorithms .ecdsaP521 .sha512 .secp521r1 .aes256Gcm))
/-- GET_DIGESTS: R384. -/
def execGetDigests (s : State) : Res := .next (s.answer .digests)
/-- GET_CERTIFICATE: R384. -/
def execGetCertificate (s : State) : Res := .next (s.answer .certificate)
/-- CHALLENGE: R384. -/
def execChallenge (s : State) : Res := .next (s.answer .challengeAuth)
/-- What the deaccession record holds, as numbers (R384, R388). -/
def deaccWords (l : List Deaccession) : List Nat :=
  l.flatMap (fun e => [e.aot.toNat, e.unit.kind, e.unit.die, e.unit.index, e.unit.reason, e.in60s, e.in24h])
/-- The digests of the images of dies, as numbers. -/
def Pkg.digestsOf (p : Pkg) (l : List Nat) : List Nat := l.filterMap (fun d => (FMap.get? p.images d).map (·.digest.toNat))
/-- What a measurement block measures (R384): 1 the trust die's firmware, 2 the images of the IOD, the memory dies and the SCD in boot
order, 3 those of the compute dies by type, 4 the fused security versions by type, 5 the deaccession record with its overflow mark. -/
def Pkg.measured (p : Pkg) (n : Nat) : List Nat :=
  match n with
  | 1 => p.digestsOf [25]
  | 2 => p.digestsOf (serviceDies.drop 1)
  | 3 => [1, 2, 3, 4].flatMap (fun k => k :: p.digestsOf ((computeDies p.dense).filter (fun d => decide (Config.dieClass d = k))))
  | 4 => p.fused.flatMap (fun f => [f.1, f.2])
  | _ => deaccWords p.deacc ++ [if p.deaccOver then 1 else 0]
/-- The digest of a block: of the trust die's firmware, the one that its image has; of the others, a digest of what they measure
(log 9). -/
def Pkg.measurement (p : Pkg) (n : Nat) : BitVec 512 :=
  match n, FMap.get? p.images 25 with
  | 1, some i => i.digest
  | _, _ => Config.digest n (p.measured n)
/-- GET_MEASUREMENTS: the block of index arg.n, 1 to 5 (R384); at another index there is no block (log 21). -/
def execGetMeasurements (s : State) : Res :=
  let n := s.arg.n
  .next (if n = 0 ∨ 5 < n then s.answer (.unsupportedRequest 0xE0)
    else s.answer (.measurements n (s.pkg.measurement n)))
/-- KEY_EXCHANGE: R384. -/
def execKeyExchange (s : State) : Res := .next ((s.session 1).answer .keyExchange)
/-- FINISH: a session whose keys are exchanged is secured (R384). -/
def execFinish (s : State) : Res := .next ((if s.pkg.spdm.session = 1 then s.session 2 else s).answer .finish)
/-- END_SESSION: R384. -/
def execEndSession (s : State) : Res := .next ((s.session 0).answer .endSessionAck)
/-- KEYGEN: inside a secured session, a fresh key in id arg.n (R385): what was written under an earlier key of the id is not read
back under it (R267). Outside one the vendor request is answered and no key changes (R384; log 21). -/
def execKeygen (s : State) : Res :=
  let k := s.arg.n
  .next (if s.pkg.spdm.session ≠ 2 ∨ 256 ≤ k then s.answer .vendorDefined
    else (s.modPkg (fun p => { p with
      keys := k :: p.keys.filter (· ≠ k), keyGen := FMap.set p.keyGen k (FMap.getD 0 p.keyGen k + 1) })).answer .vendorDefined)
/-- KEYDEL: inside a secured session, id arg.n loses its key (R385); outside one the vendor request is answered and no key changes
(R384; log 21). -/
def execKeydel (s : State) : Res :=
  let k := s.arg.n
  .next (if s.pkg.spdm.session ≠ 2 ∨ 256 ≤ k then s.answer .vendorDefined
    else (s.modPkg (fun p => { p with keys := p.keys.filter (· ≠ k) })).answer .vendorDefined)
/-- SPDM_UNSUPPORTED_REQUEST: any other request, of code arg.n (R384). -/
def execSpdmUnsupportedRequest (s : State) : Res := .next (s.answer (.unsupportedRequest (BitVec.ofNat 8 s.arg.n)))

/-! ### Power (R386) -/

/-- The usable matrix tiles. -/
def State.matrixTiles (s : State) : List Nat := (s.groupsFor 1 0).flatten.filter s.usable
/-- EBUD_REFILL: arg.n nanojoules were measured in the period outside the accounted matrix energy; what the limit of 28 000 000
nanojoules per period leaves is shared (R386). -/
def execEbudRefill (s : State) : Res :=
  let left := 28000000 - s.arg.n
  let l := s.matrixTiles
  let n := (l.filter (fun t => (s.tile t).ebudUsed)).length
  let refill := fun (x : Tile) =>
    let g := if x.ebudUsed then left / n else left / (n + 1)
    { x with ebud := min (x.ebud + g) (2 * g), ebudUsed := false }
  .next (l.foldl (fun s t => s.modTile t refill) s)

/-! ### Field harvesting (R28, R141, R381, R388) -/

/-- A unit of which corrected errors are counted: tile, cache slice, module, Span port. -/
def errUnit (s : State) : Retired := { kind := s.arg.n, die := s.arg.m, index := s.arg.k, reason := 2 }
/-- Corrected errors of a unit in the last `ticks` ticks. -/
def State.errsIn (s : State) (u : Retired) (ticks : Nat) : Nat :=
  (s.pkg.errs.filter (fun e => decide (e.1 = u ∧ s.aot.toNat < e.2.toNat + ticks))).length
/-- CORRECTED_ERROR: firmware counts a corrected error of unit kind arg.n (1 to 4), die arg.m, index arg.k; its 4th within 60 s or
16th within 24 h marks the unit for retirement (R388). -/
def execCorrectedError (s : State) : Res :=
  let u := errUnit s
  .next (if u.kind = 0 ∨ 4 < u.kind then s
    else
      let s1 := s.modPkg (fun p => { p with errs := p.errs ++ [(u, s.aot)] })
      if (4 ≤ s1.errsIn u 60000000000 ∨ 16 ≤ s1.errsIn u 86400000000000) ∧ !s.retired u.kind u.die u.index
          ∧ !s.marked u.kind u.die u.index then
        s1.modPkg (fun p => { p with marked := p.marked ++ [u] })
      else s1)

/-- A packet comes from tile `t`, goes to it, or waits at its router. -/
def Route.over (p : Route) (t : Nat) : Bool := decide (p.dst = t ∨ p.src = t ∨ (!p.arrived ∧ p.point = startPoint t))
/-- A marked unit drains: no task runs on it, no tile map names it, no packet is routed over it (R388). A packet takes its modules
hop by hop, and none takes a marked one (State.nextDie), so no packet is routed over a marked module; a cache slice takes no new line
(State.sliceGone), and what goes to another package leaves a Span port in the move that sends it (log 100). -/
def State.drainsNow (s : State) (u : Retired) : Bool :=
  if u.kind = 1 then
    let t := 256 * u.die + u.index
    (s.tile t).task.isNone && s.ctxs.all (fun c => c.2.tmap.all (fun v => v.2.saved || decide (v.2.phys ≠ t)))
      && s.net.all (fun p => !p.over t) && s.land.all (fun l => !l.over t) && s.meets.all (fun m => !m.over t)
  else true
/-- A ready or saved node whose class has become absent falls back, once, or fails NO_CLASS (R29, R141). -/
def State.recheck (s : State) (n : Nat) : State :=
  match s.node? n with
  | none => s
  | some x =>
    if (x.st ≠ .ready ∧ x.st ≠ .saved) ∨ x.outcome.isSome ∨ recControl x.rec_ ∨ s.classPresent x.cls then s
    else if x.st = .ready ∧ !x.fellBack ∧ s.classPresent (recFbcls x.rec_) ∧ recW x.rec_ 2 ≠ 0 then
      (s.toBank n).modNode n (fun d => { d with cls := recFbcls x.rec_, fellBack := true, passed := x.passed })
    else (s.dropSaves n x).endNode n 0x10
/-- A line of the hot-row store lies in slice `i` of die `d` (log 84). -/
def HotLine.inSlice (h : HotLine) (d i : Nat) : Bool := decide (16 + h.line / 2 ^ 10 % 8 = d ∧ hotSet h.line = i)
/-- UNIT_DRAIN: the marked unit at place arg.n of those marked drains: the deaccession record grows, or overflows at 4096, the
catalogue changes (GEN odd, then even), and ready nodes of a class that has gone fall back or fail (R28, R141, R388). -/
def execUnitDrain (s : State) : Res :=
  .next (match s.pkg.marked[s.arg.n]? with
    | none => s
    | some u =>
      if !s.drainsNow u then s
      else
        let e : Deaccession := { aot := s.aot, unit := u, in60s := s.errsIn u 60000000000, in24h := s.errsIn u 86400000000000 }
        let full := decide (4096 ≤ s.pkg.deacc.length)
        let s0 := if u.kind = 2 then { s with hot := s.hot.filter (fun h => !h.inSlice u.die u.index) } else s
        let s1 := s0.modPkg (fun p => { p with
          marked := dropAt p.marked s.arg.n
          retired := p.retired ++ [u]
          deacc := if full then p.deacc else p.deacc ++ [e]
          deaccOver := p.deaccOver || full
          catGen := p.catGen + 2
          lastChange := s.aot })
        s1.nodes.foldl (fun s n => s.recheck n.1) s1)

end Sys2Proof.Machine
end

