-- ==== Sys2Proof/Machine/Vector.lean ====
section
/-! DEFINITION. The meanings of the vector engine's micro-orders (R210 to R228). -/

namespace Sys2Proof.Machine

/-! ### Floating point (R214 to R216) -/

/-- VADD_F: R214. -/
def execVaddF (d : BitVec 5) (kA : BitVec 2) (A : BitVec 5) (kB : BitVec 2) (B : BitVec 5) (m : BitVec 3) (t : BitVec 2) (s : State) : Res :=
  .next (s.floatStep d kA A kB B m t (fun F a b _ => F.add a b))
/-- VSUB_F: R214. -/
def execVsubF (d : BitVec 5) (kA : BitVec 2) (A : BitVec 5) (kB : BitVec 2) (B : BitVec 5) (m : BitVec 3) (t : BitVec 2) (s : State) : Res :=
  .next (s.floatStep d kA A kB B m t (fun F a b _ => F.sub a b))
/-- VMUL_F: R214. -/
def execVmulF (d : BitVec 5) (kA : BitVec 2) (A : BitVec 5) (kB : BitVec 2) (B : BitVec 5) (m : BitVec 3) (t : BitVec 2) (s : State) : Res :=
  .next (s.floatStep d kA A kB B m t (fun F a b _ => F.mul a b))
/-- VFMA_F: R214. -/
def execVfmaF (d : BitVec 5) (kA : BitVec 2) (A : BitVec 5) (kB : BitVec 2) (B : BitVec 5) (m : BitVec 3) (t : BitVec 2) (s : State) : Res :=
  .next (s.floatStep d kA A kB B m t (fun F a b c => F.fma a b c))
/-- VMIN_F: R214. -/
def execVminF (d : BitVec 5) (kA : BitVec 2) (A : BitVec 5) (kB : BitVec 2) (B : BitVec 5) (m : BitVec 3) (t : BitVec 2) (s : State) : Res :=
  .next (s.floatStep d kA A kB B m t (fun F a b _ => F.minF a b))
/-- VMAX_F: R214. -/
def execVmaxF (d : BitVec 5) (kA : BitVec 2) (A : BitVec 5) (kB : BitVec 2) (B : BitVec 5) (m : BitVec 3) (t : BitVec 2) (s : State) : Res :=
  .next (s.floatStep d kA A kB B m t (fun F a b _ => F.maxF a b))
/-- VABS_F: R214. -/
def execVabsF (d : BitVec 5) (kA : BitVec 2) (A : BitVec 5) (m : BitVec 3) (t : BitVec 2) (s : State) : Res :=
  .next (s.floatStep d kA A 0 0 m t (fun F a _ _ => a % 2 ^ (F.width - 1)))
/-- VNEG_F: R214. -/
def execVnegF (d : BitVec 5) (kA : BitVec 2) (A : BitVec 5) (m : BitVec 3) (t : BitVec 2) (s : State) : Res :=
  .next (s.floatStep d kA A 0 0 m t (fun F a _ _ => (a + 2 ^ (F.width - 1)) % 2 ^ F.width))

/-- Replace slot `k` of `w` bits of a lane. -/
def setSlot (w k c d : Nat) : Nat := d - elemOf d w k * 2 ^ (w * k) + c * 2 ^ (w * k)
/-- A narrowing of an integer (R176): clamped when `sat`, wrapped otherwise. -/
def narrowInt (w : Nat) (sat : Bool) (v : Int) : Nat :=
  intCode w (if sat then max (-(2 ^ (w - 1))) (min (2 ^ (w - 1) - 1) v) else v)
/-- vcvt on one lane (R215): code, rounding mode, slot bit, saturate bit, source and old destination. -/
def cvtLane (code rm h : Nat) (sat : Bool) (a d : Nat) : Nat :=
  match code with
  | 0x00 => setSlot 16 h (bf16.cvt rm sat (fp32.decode a)) d
  | 0x01 => setSlot 16 h (fp16.cvt rm sat (fp32.decode a)) d
  | 0x02 => setSlot 8 h (e4m3.cvt rm sat (fp32.decode a)) d
  | 0x03 => setSlot 8 (2 + h) (e4m3.cvt rm sat (fp32.decode a)) d
  | 0x04 => setSlot 8 h (e5m2.cvt rm sat (fp32.decode a)) d
  | 0x05 => setSlot 8 (2 + h) (e5m2.cvt rm sat (fp32.decode a)) d
  | 0x06 => intCode 32 (numToInt rm (-(2 ^ 31)) (2 ^ 31 - 1) (fp32.decode a))
  | 0x07 => intCode 32 (numToInt rm 0 (2 ^ 32 - 1) (fp32.decode a))
  | 0x08 => fp32.cvt rm false (numOfInt (signedOf 32 a))
  | 0x09 => fp32.cvt rm false (numOfInt a)
  | 0x0A => fp32.rne (bf16.decode (elemOf a 16 h))
  | 0x0B => fp32.rne (fp16.decode (elemOf a 16 h))
  | 0x0C => fp32.rne (e4m3.decode (elemOf a 8 h))
  | 0x0D => fp32.rne (e4m3.decode (elemOf a 8 (2 + h)))
  | 0x0E => fp32.rne (e5m2.decode (elemOf a 8 h))
  | 0x0F => fp32.rne (e5m2.decode (elemOf a 8 (2 + h)))
  | 0x10 => setSlot 16 h (narrowInt 16 sat (signedOf 32 a)) d
  | 0x11 => setSlot 8 h (narrowInt 8 sat (signedOf 32 a)) d
  | _ => setSlot 8 (2 + h) (narrowInt 8 sat (signedOf 32 a)) d
/-- VCVT: R215. -/
def execVcvt (d : BitVec 5) (kA : BitVec 2) (A : BitVec 5) (rm : BitVec 2) (code : BitVec 5) (m : BitVec 3) (t : BitVec 2) (s : State) : Res :=
  let la := if code.toNat < 8 then litFloat fp32 A else litInt 32 A
  .next (s.laneStep d m (fun i => cvtLane code.toNat rm.toNat (t.toNat / 2) (t.getLsbD 0) (s.source kA A la i)
    (s.here.vec.lane d.toNat i)))
/-- VEXP2: R216. -/
def execVexp2 (d : BitVec 5) (kA : BitVec 2) (A : BitVec 5) (m : BitVec 3) (s : State) : Res :=
  .next (s.unaryStep d kA A m vexp2Of)
/-- VLOG2: R216. -/
def execVlog2 (d : BitVec 5) (kA : BitVec 2) (A : BitVec 5) (m : BitVec 3) (s : State) : Res :=
  .next (s.unaryStep d kA A m vlog2Of)
/-- VRCP: R216. -/
def execVrcp (d : BitVec 5) (kA : BitVec 2) (A : BitVec 5) (m : BitVec 3) (s : State) : Res :=
  .next (s.unaryStep d kA A m vrcpOf)
/-- VRSQ: R216. -/
def execVrsq (d : BitVec 5) (kA : BitVec 2) (A : BitVec 5) (m : BitVec 3) (s : State) : Res :=
  .next (s.unaryStep d kA A m vrsqOf)
/-- VTANH: R216. -/
def execVtanh (d : BitVec 5) (kA : BitVec 2) (A : BitVec 5) (m : BitVec 3) (s : State) : Res :=
  .next (s.unaryStep d kA A m vtanhOf)

/-! ### Compares (R218) -/

/-- A condition 0 to 5 of R218 on an equal and a less-than answer. -/
def condOf (cc : Nat) (eq lt : Bool) : Bool :=
  match cc with
  | 0 => eq
  | 1 => !eq
  | 2 => lt
  | 3 => !lt
  | 4 => lt || eq
  | _ => !(lt || eq)
/-- A .f condition of R218; -0 equals +0. -/
def cmpFloat (cc a b : Nat) : Bool :=
  let x := fp32.decode a
  let y := fp32.decode b
  if x = .nan ∨ y = .nan then decide (cc = 1 ∨ cc = 10)
  else if cc = 10 then false
  else condOf cc (!x.lt false y && !y.lt false x) (x.lt false y)
/-- A .i condition of R218. -/
def cmpInt (cc a b : Nat) : Bool :=
  if cc < 6 then condOf cc (decide (a = b)) (decide (signedOf 32 a < signedOf 32 b))
  else condOf (cc - 4) (decide (a = b)) (decide (a < b))
/-- VCMP_F: R218. -/
def execVcmpF (h : BitVec 2) (d : BitVec 3) (kA : BitVec 2) (A : BitVec 5) (kB : BitVec 2) (B : BitVec 5) (m : BitVec 3) (l : BitVec 2) (s : State) : Res :=
  let la := litFloat fp32 A
  let lb := litFloat fp32 B
  .next (s.maskStep d (maskOf (fun i => s.here.vec.active m i
    && cmpFloat (h.toNat * 4 + l.toNat) (s.source kA A la i) (s.source kB B lb i))))
/-- VCMP_I: R218. -/
def execVcmpI (h : BitVec 2) (d : BitVec 3) (kA : BitVec 2) (A : BitVec 5) (kB : BitVec 2) (B : BitVec 5) (m : BitVec 3) (l : BitVec 2) (s : State) : Res :=
  let la := litInt 32 A
  let lb := litInt 32 B
  .next (s.maskStep d (maskOf (fun i => s.here.vec.active m i
    && cmpInt (h.toNat * 4 + l.toNat) (s.source kA A la i) (s.source kB B lb i))))

/-! ### Integers (R217) -/

/-- The value of an element code: unsigned for N32. -/
def elemInt (w : Nat) (un : Bool) (c : Nat) : Int := if un then c else signedOf w c
/-- VADD_I: R217. -/
def execVaddI (d : BitVec 5) (kA : BitVec 2) (A : BitVec 5) (kB : BitVec 2) (B : BitVec 5) (m : BitVec 3) (t : BitVec 2) (s : State) : Res :=
  .next (s.intStep d kA A kB B m t (fun _ _ a b _ => a + b))
/-- VSUB_I: R217. -/
def execVsubI (d : BitVec 5) (kA : BitVec 2) (A : BitVec 5) (kB : BitVec 2) (B : BitVec 5) (m : BitVec 3) (t : BitVec 2) (s : State) : Res :=
  .next (s.intStep d kA A kB B m t (fun w _ a b _ => a + (2 ^ w - b)))
/-- VMUL_I: R217. -/
def execVmulI (d : BitVec 5) (kA : BitVec 2) (A : BitVec 5) (kB : BitVec 2) (B : BitVec 5) (m : BitVec 3) (t : BitVec 2) (s : State) : Res :=
  .next (s.intStep d kA A kB B m t (fun _ _ a b _ => a * b))
/-- VMAC_I: R217. -/
def execVmacI (d : BitVec 5) (kA : BitVec 2) (A : BitVec 5) (kB : BitVec 2) (B : BitVec 5) (m : BitVec 3) (t : BitVec 2) (s : State) : Res :=
  .next (s.intStep d kA A kB B m t (fun _ _ a b c => c + a * b))
/-- VAND: R217. -/
def execVand (d : BitVec 5) (kA : BitVec 2) (A : BitVec 5) (kB : BitVec 2) (B : BitVec 5) (m : BitVec 3) (s : State) : Res :=
  .next (s.intStep d kA A kB B m 0 (fun _ _ a b _ => a &&& b))
/-- VOR: R217. -/
def execVor (d : BitVec 5) (kA : BitVec 2) (A : BitVec 5) (kB : BitVec 2) (B : BitVec 5) (m : BitVec 3) (s : State) : Res :=
  .next (s.intStep d kA A kB B m 0 (fun _ _ a b _ => a ||| b))
/-- VXOR: R217. -/
def execVxor (d : BitVec 5) (kA : BitVec 2) (A : BitVec 5) (kB : BitVec 2) (B : BitVec 5) (m : BitVec 3) (s : State) : Res :=
  .next (s.intStep d kA A kB B m 0 (fun _ _ a b _ => a ^^^ b))
/-- VSHL: R217. -/
def execVshl (d : BitVec 5) (kA : BitVec 2) (A : BitVec 5) (kB : BitVec 2) (B : BitVec 5) (m : BitVec 3) (t : BitVec 2) (s : State) : Res :=
  .next (s.intStep d kA A kB B m t (fun w _ a b _ => a * 2 ^ (b % w)))
/-- VSHR: R217. -/
def execVshr (d : BitVec 5) (kA : BitVec 2) (A : BitVec 5) (kB : BitVec 2) (B : BitVec 5) (m : BitVec 3) (t : BitVec 2) (s : State) : Res :=
  .next (s.intStep d kA A kB B m t (fun w _ a b _ => a / 2 ^ (b % w)))
/-- VSAR: R217. -/
def execVsar (d : BitVec 5) (kA : BitVec 2) (A : BitVec 5) (kB : BitVec 2) (B : BitVec 5) (m : BitVec 3) (t : BitVec 2) (s : State) : Res :=
  .next (s.intStep d kA A kB B m t (fun w un a b _ => intCode w (elemInt w un a / 2 ^ (b % w))))
/-- VMIN_I: R217. -/
def execVminI (d : BitVec 5) (kA : BitVec 2) (A : BitVec 5) (kB : BitVec 2) (B : BitVec 5) (m : BitVec 3) (t : BitVec 2) (s : State) : Res :=
  .next (s.intStep d kA A kB B m t (fun w un a b _ => if elemInt w un b < elemInt w un a then b else a))
/-- VMAX_I: R217. -/
def execVmaxI (d : BitVec 5) (kA : BitVec 2) (A : BitVec 5) (kB : BitVec 2) (B : BitVec 5) (m : BitVec 3) (t : BitVec 2) (s : State) : Res :=
  .next (s.intStep d kA A kB B m t (fun w un a b _ => if elemInt w un a < elemInt w un b then b else a))
/-- VSAT: R217. -/
def execVsat (d : BitVec 5) (kA : BitVec 2) (A : BitVec 5) (kB : BitVec 2) (B : BitVec 5) (m : BitVec 3) (t : BitVec 2) (s : State) : Res :=
  .next (s.intStep d kA A kB B m t (fun w un a b _ =>
    let v := elemInt w un a + elemInt w un b
    intCode w (if un then min v (2 ^ 32 - 1) else max (-(2 ^ (w - 1))) (min (2 ^ (w - 1) - 1) v))))

/-! ### Masks (R219) -/

/-- MAND: R219. -/
def execMand (d : BitVec 3) (kA : BitVec 1) (A : BitVec 5) (kB : BitVec 1) (B : BitVec 5) (s : State) : Res :=
  .next (s.maskStep d (s.maskSource kA A &&& s.maskSource kB B))
/-- MOR: R219. -/
def execMor (d : BitVec 3) (kA : BitVec 1) (A : BitVec 5) (kB : BitVec 1) (B : BitVec 5) (s : State) : Res :=
  .next (s.maskStep d (s.maskSource kA A ||| s.maskSource kB B))
/-- MXOR: R219. -/
def execMxor (d : BitVec 3) (kA : BitVec 1) (A : BitVec 5) (kB : BitVec 1) (B : BitVec 5) (s : State) : Res :=
  .next (s.maskStep d (s.maskSource kA A ^^^ s.maskSource kB B))
/-- MNOT: R219. -/
def execMnot (d : BitVec 3) (kA : BitVec 1) (A : BitVec 5) (s : State) : Res :=
  .next (s.maskStep d (~~~(s.maskSource kA A)))
/-- MPOPC: R219. -/
def execMpopc (d : BitVec 5) (kA : BitVec 1) (A : BitVec 5) (s : State) : Res :=
  .next (s.eStep d (BitVec.ofNat 64 ((List.range 64).filter (fun i => (s.maskSource kA A).getLsbD i)).length) 1)

/-! ### Lane movement and reduction (R220, R221) -/

/-- VMOV: R220. -/
def execVmov (d : BitVec 5) (kA : BitVec 2) (A : BitVec 5) (m : BitVec 3) (s : State) : Res :=
  let la := litInt 32 A
  .next (s.laneStep d m (s.source kA A la))
/-- VSEL: R220; every lane is written. -/
def execVsel (d : BitVec 5) (kA : BitVec 2) (A : BitVec 5) (kB : BitVec 2) (B : BitVec 5) (m : BitVec 3) (s : State) : Res :=
  let la := litInt 32 A
  let lb := litInt 32 B
  .next (s.laneStep d 0 (fun i => if s.here.vec.active m i then s.source kA A la i else s.source kB B lb i))
/-- VBCAST: R220, R45. -/
def execVbcast (d A : BitVec 5) (kB : BitVec 2) (B : BitVec 5) (m : BitVec 3) (s : State) : Res :=
  let j := s.source kB B (litInt 32 B) 0 % 64
  .next (s.laneStep d m (fun _ => s.here.vec.lane A.toNat j))
/-- VPERM: R220. -/
def execVperm (d A B : BitVec 5) (m : BitVec 3) (s : State) : Res :=
  .next (s.laneStep d m (fun i => s.here.vec.lane A.toNat (s.here.vec.lane B.toNat i % 64)))

/-- The operation and identity of a vred code (R221). -/
def redOp (op : Nat) : Nat × (Nat → Nat → Nat) :=
  match op with
  | 0 => (0x80000000, fp32.add)
  | 1 => (0xFF800000, fp32.maxF)
  | 2 => (0x7F800000, fp32.minF)
  | 3 => (0, fun a b => (a + b) % 2 ^ 32)
  | 4 => (0x80000000, fun a b => if signedOf 32 a < signedOf 32 b then b else a)
  | 5 => (0x7FFFFFFF, fun a b => if signedOf 32 b < signedOf 32 a then b else a)
  | 6 => (0, fun a b => max a b)
  | 7 => (0xFFFFFFFF, fun a b => min a b)
  | 8 => (0, fun a b => a ||| b)
  | 9 => (0xFFFFFFFF, fun a b => a &&& b)
  | _ => (0, fun a b => a ^^^ b)
/-- One level of the reduction tree. -/
def pairUp (f : Nat → Nat → Nat) : List Nat → List Nat
  | a :: b :: t => f a b :: pairUp f t
  | l => l
/-- The fixed tree of `n` levels (R221). -/
def treeReduce (f : Nat → Nat → Nat) : Nat → List Nat → Nat
  | 0, l => l.headD 0
  | n + 1, l => treeReduce f n (pairUp f l)
/-- VRED: R221. -/
def execVred (d A op : BitVec 5) (m : BitVec 3) (s : State) : Res :=
  let o := redOp op.toNat
  let r := treeReduce o.2 6 ((List.range 64).map fun i => if s.here.vec.active m i then s.here.vec.lane A.toNat i else o.1)
  .next (s.laneStep d 0 (fun i => if i = 0 then r else 0))

/-! ### Scratchpad (R222, R223) -/

/-- The active lanes of a step. -/
def State.lanesOn (s : State) (m : BitVec 3) : List Nat := (List.range 64).filter (s.here.vec.active m)
/-- The base offset of a VM step. -/
def State.vmBase (s : State) (eb : BitVec 5) : Int := ((s.here.ve.rdE eb).toNat % 2 ^ 20 : Nat)
/-- The stride of vld and vst. -/
def State.vmStride (s : State) (es : BitVec 5) : Int := if es = 0 then 4 else (s.here.ve.rdE es).toInt
/-- The post-increment of vld and vst. -/
def State.vmBump (s : State) (eb es : BitVec 5) (pi : BitVec 1) : State :=
  if pi = 1 then s.modEng (fun g => g.wrE eb (g.rdE eb + BitVec.ofInt 64 (64 * s.vmStride es))) else s
/-- The accesses of the active lanes. -/
def laneAccess (off : Nat → Int) (write : Bool) (l : List Nat) : List Access :=
  l.map (fun i => { off := off i, len := 4, align := 4, write := write })
/-- Load the active lanes of d. -/
def State.loadLanes (s : State) (d : BitVec 5) (m : BitVec 3) (off : Nat → Int) : State :=
  s.modVec (fun x => x.write d.toNat (x.active m) (fun i => s.load (nearKey s.cur (off i).toNat) 4))
/-- Store lanes in ascending order. -/
def State.storeLanes (s : State) (d : BitVec 5) (off : Nat → Int) : List Nat → State
  | [] => s
  | i :: t => (s.store (nearKey s.cur (off i).toNat) 4 (s.here.vec.lane d.toNat i)).storeLanes d off t
/-- The 64-byte lines that aligned words at these offsets cover in full. -/
def fullLines (offs : List Nat) : List Nat :=
  ((offs.map (· / 64)).eraseDups).filter (fun l => (List.range 16).all (fun k => offs.contains (64 * l + 4 * k)))
/-- Give lines of the own window a descriptor. -/
def State.setDescs (s : State) (v : BitVec 16) : List Nat → State
  | [] => s
  | l :: t => (s.setDesc (nearKey s.cur (64 * l)) v).setDescs v t
/-- VLD: R222. -/
def execVld (d eb es : BitVec 5) (pi : BitVec 1) (m : BitVec 3) (s : State) : Res :=
  let off := fun (i : Nat) => s.vmBase eb + i * s.vmStride es
  .next (s.guarded (laneAccess off false (s.lanesOn m)) fun s => ((s.loadLanes d m off).vmBump eb es pi).stepDone 1)
/-- VST: R222, R223. -/
def execVst (d eb es : BitVec 5) (pi : BitVec 1) (m : BitVec 3) (t : BitVec 1) (s : State) : Res :=
  let off := fun (i : Nat) => s.vmBase eb + i * s.vmStride es
  let on := s.lanesOn m
  let desc := BitVec.ofNat 16 (Bank.get s.here.ve.cb (s.here.vec.kb.toNat)).toNat
  .next (s.guarded (laneAccess off true on) fun s =>
    let s1 := s.storeLanes d off on
    let s2 := if t = 1 then s1.setDescs desc (fullLines (on.map (fun i => (off i).toNat))) else s1
    (s2.vmBump eb es pi).stepDone 1)
/-- VLDX: R222. -/
def execVldx (d eb x : BitVec 5) (m : BitVec 3) (s : State) : Res :=
  let off := fun (i : Nat) => s.vmBase eb + (s.here.vec.lane x.toNat i : Int)
  .next (s.guarded (laneAccess off false (s.lanesOn m)) fun s => (s.loadLanes d m off).stepDone 1)
/-- VSTX: R222. -/
def execVstx (d eb x : BitVec 5) (m : BitVec 3) (s : State) : Res :=
  let off := fun (i : Nat) => s.vmBase eb + (s.here.vec.lane x.toNat i : Int)
  .next (s.guarded (laneAccess off true (s.lanesOn m)) fun s => (s.storeLanes d off (s.lanesOn m)).stepDone 1)

/-! ### Pruning (R224, R225) -/

/-- Element width of a pruning type. -/
def pruneWidth (t : Nat) : Nat := match t with | 0 => 32 | 1 => 16 | _ => 8
/-- The magnitude of an element as an ordered number (R224). -/
def magnitude (t c : Nat) : Nat :=
  let flt := fun (F : FFmt) => if F.decode c = .nan then 2 ^ 40 else c % 2 ^ (F.width - 1)
  match t with
  | 0 => flt fp32
  | 1 => flt bf16
  | 2 => (signedOf 8 c).natAbs
  | _ => flt e4m3
/-- Element `i` of a group of magnitudes is among the four largest; ties go to the lower index. -/
def kept (mags : List Nat) (i : Nat) : Bool :=
  let a := mags.getD i 0
  decide (((List.range 8).filter (fun j => decide (a < mags.getD j 0) || (decide (a = mags.getD j 0) && decide (j < i)))).length < 4)
/-- VSK48: R224. -/
def execVsk48 (d A : BitVec 5) (t : BitVec 2) (s : State) : Res :=
  let w := pruneWidth t.toNat
  let v := s.here.vec.whole A.toNat
  let n := 2048 / w
  let mags := fun (g : Nat) => (List.range 8).map (fun j => magnitude t.toNat (elemOf v w (8 * g + j)))
  let keep := (List.range (n / 8)).flatMap fun g => let l := mags g; (List.range 8).map (kept l)
  let packed := packElems w (((List.range n).zip keep).filterMap (fun k => if k.2 then some (elemOf v w k.1) else none))
  let masks := packElems 1 (keep.map (fun b => if b then 1 else 0))
  .next ((s.modVec fun x =>
    (x.write d.toNat (fun _ => true) (fun i => elemOf packed 32 i)).write (d.toNat + 1) (fun _ => true)
      (fun i => elemOf masks 32 i)).stepDone 1)
/-- Spread packed elements by a list of mask bits (R225). -/
def spread (v w : Nat) : List Bool → Nat → List Nat
  | [], _ => []
  | b :: t, j => if b then elemOf v w j :: spread v w t (j + 1) else 0 :: spread v w t j
/-- VXP48: R225. -/
def execVxp48 (d A B : BitVec 5) (t : BitVec 2) (s : State) : Res :=
  let w := pruneWidth t.toNat
  let v := s.here.vec.whole A.toNat
  let mk := s.here.vec.whole B.toNat
  let n := 2048 / w
  let bad := (List.range (n / 8)).find? (fun g => ((List.range 8).filter (fun k => bitN mk (8 * g + k))).length ≠ 4)
  .next (match bad with
    | some g => s.stepFault 0x15 (BitVec.ofNat 64 (g * 2 ^ 16 + s.stepNo % 2 ^ 16))
    | none =>
      let r := packElems w (spread v w ((List.range n).map (bitN mk)) 0)
      s.laneStep d 0 (fun i => elemOf r 32 i))

/-! ### Quantising (R226, R227) -/

/-- VQNT: R226. -/
def execVqnt (d A : BitVec 5) (kB : BitVec 2) (B : BitVec 5) (m : BitVec 3) (s : State) : Res :=
  let off : Nat := s.source kB B 0 0 % 2 ^ 20
  let target := d.toNat
  let n := if target < 4 then 64 else 128
  .next (s.guarded [{ off := off, len := 64, align := 64, write := true }] fun s =>
    let x := s.here.vec
    let val := fun (i : Nat) => fp32.decode (x.lane (A.toNat + i / 64) (i % 64))
    let on := fun (i : Nat) => x.active m (i % 64)
    let X := scaleX target (amaxOf (((List.range n).filter on).map val))
    let line := packElems (quantWidth target) ((List.range n).map (fun i => if on i then quantElem target X (val i) else 0))
    ((s.store (nearKey s.cur off) 64 line).setDesc (nearKey s.cur off) (quantDesc target X)).stepDone 1)

/-- The check of one line that vdq reads: its first granule, which brings the descriptor, the bytes of the elements `els` that lie
in it (R339), then the descriptor against the width (R163, R227). -/
def State.vdqLine (s : State) (w a : Nat) (els : List Nat) (off : Nat) : Check :=
  ((s.accessCheck { off := off, len := 1, align := 64, write := false }).andThen
    (s.checkAll ((els.filter (fun e => decide (a + 64 * (e * w / 512) = off))).map (fun e =>
      { off := ((a + e * w / 8 : Nat) : Int), len := (w + 7) / 8, align := 1, write := false })))).andThen
    (match lineFmt (s.descAt (nearKey s.cur off)) with
      | some f => if f.width = w then .pass else .fault 0x14 (s.ownAddr off)
      | none => .fault 0x14 (s.ownAddr off))
/-- vdq's value of lane `i`: element `e` of the run of lines from `a` (R164, R227). -/
def State.vdqLane (s : State) (w a e : Nat) : Nat :=
  let k := nearKey s.cur (a + 64 * (e * w / 512))
  let d := s.descAt k
  match lineFmt d with
  | some f => fp32.rne ((f.value (elemOf (s.load k 64) w (e % (512 / w)))).scale (lineScale d))
  | none => 0
/-- The bytes that vdq reads for the elements `els`, each with the first granule of its line (R349). -/
def vdqReads (w a : Nat) (els : List Nat) : List Access :=
  els.flatMap (fun e => [{ off := ((a + 64 * (e * w / 512) : Nat) : Int), len := 1, align := 64, write := false },
    { off := ((a + e * w / 8 : Nat) : Int), len := (w + 7) / 8, align := 1, write := false }])
/-- VDQ: R227. The line at A gives the width, so its first granule is read with its descriptor (R339). -/
def execVdq (d : BitVec 5) (kA : BitVec 2) (A : BitVec 5) (kB : BitVec 2) (B : BitVec 5) (m : BitVec 3) (s : State) : Res :=
  let a : Nat := s.source kA A 0 0 % 2 ^ 20
  let c := s.source kB B (litInt 32 B) 0 % 4
  let on := s.lanesOn m
  .next (if on.isEmpty then s.stepDone 1
    else
      let first := (s.accessCheck { off := a, len := 1, align := 64, write := false })
      s.after first fun s => match lineFmt (s.descAt (nearKey s.cur a)) with
        | none => s.stepFault 0x14 (s.ownAddr a)
        | some f =>
          let w := f.width
          let els : List Nat := on.map (64 * c + ·)
          let lines : List Nat := (els.map (fun e => a + 64 * (e * w / 512))).eraseDups
          s.after (lines.foldl (fun r o => r.andThen (s.vdqLine w a els o)) .pass) fun s =>
            (s.touchAll (vdqReads w a els)).laneStep d m (fun i => s.vdqLane w a (64 * c + i)))

/-! ### Conditional streams (R228) -/

/-- Both accesses of a range: in the read and in the write footprint. -/
def bothWays (off len align : Nat) : List Access :=
  [{ off := off, len := len, align := align, write := false }, { off := off, len := len, align := align, write := true }]
/-- Open the queue whose header lies at `off`: its accesses, its QCW, and the registers that a record spans from `r`; then
go on with the QCW, head and tail. -/
def State.openStream (s : State) (off r : Nat) (f : State → Nat → Nat → Nat → State) : State :=
  s.guarded (bothWays off 32 1) fun s =>
    let k := nearKey s.cur off
    let q := s.load (k + 8) 8
    if !qcwOk q ∨ q % 2 ^ 20 ≠ off then s.stepFault 0x18 (s.ownAddr off)
    else if 31 < r + qcwSize q / 4 - 1 then s.stepFault 0x13 (BitVec.ofNat 64 s.stepNo)
    else f s q (s.load k 4) (s.load (k + 4) 4)
/-- Write the records of a list of lanes from element `j` on. -/
def State.pushLanes (s : State) (q x j : Nat) : List Nat → State
  | [] => s
  | i :: t =>
    let rec_ := packElems 32 ((List.range (qcwSize q / 4)).map (fun k => s.here.vec.lane (x + k) i))
    (s.store (nearKey s.cur (elemAt q j)) (qcwSize q) rec_).pushLanes q x (j + 1) t
/-- VPUSHC: R228. -/
def execVpushc (A : BitVec 5) (kB : BitVec 2) (B : BitVec 5) (m : BitVec 3) (s : State) : Res :=
  let off : Nat := s.source kB B 0 0 % 2 ^ 20
  let on := s.lanesOn m
  .next (s.openStream off A.toNat fun s q head tail =>
    let used := (tail + 2 ^ 32 - head) % 2 ^ 32
    if qcwDepth q < used + on.length then s.stepFault 0x18 (s.ownAddr off)
    else
      s.guarded ((List.range on.length).flatMap (fun k => bothWays (elemAt q (tail + k)) (qcwSize q) 1)) fun s =>
        ((s.pushLanes q A.toNat tail on).store (nearKey s.cur off + 4) 4 ((tail + on.length) % 2 ^ 32)).stepDone 1)
/-- Receive word `k` onward of the records into the registers from `x`. -/
def State.popWords (s : State) (q x head n : Nat) (k : Nat) : Nat → State
  | 0 => s
  | w + 1 => (s.modVec fun v => v.write (x + k) (fun i => decide (i < n))
      (fun i => s.load (nearKey s.cur (elemAt q (head + i)) + 4 * k) 4)).popWords q x head n (k + 1) w
/-- VPOPC: R228. -/
def execVpopc (d : BitVec 5) (kB : BitVec 2) (B : BitVec 5) (m : BitVec 3) (s : State) : Res :=
  let off : Nat := s.source kB B 0 0 % 2 ^ 20
  .next (s.openStream off d.toNat fun s q head tail =>
    let n := min 64 ((tail + 2 ^ 32 - head) % 2 ^ 32)
    s.guarded ((List.range n).flatMap (fun k => bothWays (elemAt q (head + k)) (qcwSize q) 1)) fun s =>
      let s1 := (s.popWords q d.toNat head n 0 (qcwSize q / 4)).store (nearKey s.cur off) 4 ((head + n) % 2 ^ 32)
      if m = 0 then s1.stepDone 1 else s1.maskStep (m) (maskOf (fun i => decide (i < n))))

end Sys2Proof.Machine
end

