-- ==== Sys2Proof/Machine/Dispatch.lean ====
section
/-! DEFINITION. The dispatch of every instruction to its meaning. -/

namespace Sys2Proof.Machine
open Sys2Proof

/-- The effect of instruction `i` at the current tile of `s`. -/
def exec (i : Instr) (s : State) : Host.Outcome State Fault Refusal :=
  match i with
  | .add d a b => Sys2Proof.Machine.execAdd d a b s
  | .sub d a b => Sys2Proof.Machine.execSub d a b s
  | .addw d a b => Sys2Proof.Machine.execAddw d a b s
  | .subw d a b => Sys2Proof.Machine.execSubw d a b s
  | .mul d a b => Sys2Proof.Machine.execMul d a b s
  | .mulh d a b => Sys2Proof.Machine.execMulh d a b s
  | .mulhz d a b => Sys2Proof.Machine.execMulhz d a b s
  | .div d a b => Sys2Proof.Machine.execDiv d a b s
  | .divz d a b => Sys2Proof.Machine.execDivz d a b s
  | .rem d a b => Sys2Proof.Machine.execRem d a b s
  | .remz d a b => Sys2Proof.Machine.execRemz d a b s
  | .and d a b => Sys2Proof.Machine.execAnd d a b s
  | .or d a b => Sys2Proof.Machine.execOr d a b s
  | .xor d a b => Sys2Proof.Machine.execXor d a b s
  | .andn d a b => Sys2Proof.Machine.execAndn d a b s
  | .shl d a b => Sys2Proof.Machine.execShl d a b s
  | .shr d a b => Sys2Proof.Machine.execShr d a b s
  | .sar d a b => Sys2Proof.Machine.execSar d a b s
  | .min d a b => Sys2Proof.Machine.execMin d a b s
  | .max d a b => Sys2Proof.Machine.execMax d a b s
  | .minz d a b => Sys2Proof.Machine.execMinz d a b s
  | .maxz d a b => Sys2Proof.Machine.execMaxz d a b s
  | .clz d a => Sys2Proof.Machine.execClz d a s
  | .ctz d a => Sys2Proof.Machine.execCtz d a s
  | .popc d a => Sys2Proof.Machine.execPopc d a s
  | .addi d a imm => Sys2Proof.Machine.execAddi d a imm s
  | .andi d a imm => Sys2Proof.Machine.execAndi d a imm s
  | .ori d a imm => Sys2Proof.Machine.execOri d a imm s
  | .xori d a imm => Sys2Proof.Machine.execXori d a imm s
  | .shli d a n => Sys2Proof.Machine.execShli d a n s
  | .shri d a n => Sys2Proof.Machine.execShri d a n s
  | .sari d a n => Sys2Proof.Machine.execSari d a n s
  | .movw d imm => Sys2Proof.Machine.execMovw d imm s
  | .movk d k imm => Sys2Proof.Machine.execMovk d k imm s
  | .cmp pd cond a b => Sys2Proof.Machine.execCmp pd cond a b s
  | .cmpi pd cond a imm => Sys2Proof.Machine.execCmpi pd cond a imm s
  | .pand pd pa pb => Sys2Proof.Machine.execPand pd pa pb s
  | .por pd pa pb => Sys2Proof.Machine.execPor pd pa pb s
  | .pxor pd pa pb => Sys2Proof.Machine.execPxor pd pa pb s
  | .pandn pd pa pb => Sys2Proof.Machine.execPandn pd pa pb s
  | .pnot pd pa => Sys2Proof.Machine.execPnot pd pa s
  | .pset pd v => Sys2Proof.Machine.execPset pd v s
  | .sel d a b p => Sys2Proof.Machine.execSel d a b p s
  | .bfx d a pos wm1 => Sys2Proof.Machine.execBfx d a pos wm1 s
  | .bfxs d a pos wm1 => Sys2Proof.Machine.execBfxs d a pos wm1 s
  | .bfi d a pos wm1 => Sys2Proof.Machine.execBfi d a pos wm1 s
  | .br p disp => Sys2Proof.Machine.execBr p disp s
  | .brF p disp => Sys2Proof.Machine.execBrF p disp s
  | .j disp => Sys2Proof.Machine.execJ disp s
  | .jal disp => Sys2Proof.Machine.execJal disp s
  | .jr a => Sys2Proof.Machine.execJr a s
  | .jalr d a => Sys2Proof.Machine.execJalr d a s
  | .bdec a disp => Sys2Proof.Machine.execBdec a disp s
  | .ld d base size z off => Sys2Proof.Machine.execLd d base size z off s
  | .st d base size off => Sys2Proof.Machine.execSt d base size off s
  | .lde d base size z off => Sys2Proof.Machine.execLde d base size z off s
  | .ste d base size off => Sys2Proof.Machine.execSte d base size off s
  | .amoAdd d a b ord size => Sys2Proof.Machine.execAmoAdd d a b ord size s
  | .amoAnd d a b ord size => Sys2Proof.Machine.execAmoAnd d a b ord size s
  | .amoOr d a b ord size => Sys2Proof.Machine.execAmoOr d a b ord size s
  | .amoXor d a b ord size => Sys2Proof.Machine.execAmoXor d a b ord size s
  | .amoMin d a b ord size => Sys2Proof.Machine.execAmoMin d a b ord size s
  | .amoMax d a b ord size => Sys2Proof.Machine.execAmoMax d a b ord size s
  | .amoMinz d a b ord size => Sys2Proof.Machine.execAmoMinz d a b ord size s
  | .amoMaxz d a b ord size => Sys2Proof.Machine.execAmoMaxz d a b ord size s
  | .amoSwap d a b ord size => Sys2Proof.Machine.execAmoSwap d a b ord size s
  | .amoCas d a b ord size => Sys2Proof.Machine.execAmoCas d a b ord size s
  | .phase scope => Sys2Proof.Machine.execPhase scope s
  | .fence scope => Sys2Proof.Machine.execFence scope s
  | .bar scope => Sys2Proof.Machine.execBar scope s
  | .bara scope => Sys2Proof.Machine.execBara scope s
  | .barw scope => Sys2Proof.Machine.execBarw scope s
  | .capq d c => Sys2Proof.Machine.execCapq d c s
  | .capdup c c2 => Sys2Proof.Machine.execCapdup c c2 s
  | .capdrop c => Sys2Proof.Machine.execCapdrop c s
  | .capnew d c b => Sys2Proof.Machine.execCapnew d c b s
  | .cappub c => Sys2Proof.Machine.execCappub c s
  | .capnrw c b => Sys2Proof.Machine.execCapnrw c b s
  | .capxfer d c => Sys2Proof.Machine.execCapxfer d c s
  | .caprt c b => Sys2Proof.Machine.execCaprt c b s
  | .dset a b => Sys2Proof.Machine.execDset a b s
  | .dget d a => Sys2Proof.Machine.execDget d a s
  | .erun n a b c flags => Sys2Proof.Machine.execErun n a b c flags s
  | .eset n a c => Sys2Proof.Machine.execEset n a c s
  | .eget n a c => Sys2Proof.Machine.execEget n a c s
  | .ewait n => Sys2Proof.Machine.execEwait n s
  | .estat n a => Sys2Proof.Machine.execEstat n a s
  | .ekld n a b c => Sys2Proof.Machine.execEkld n a b c s
  | .estop n a => Sys2Proof.Machine.execEstop n a s
  | .eprg n a b c => Sys2Proof.Machine.execEprg n a b c s
  | .fpr n a => Sys2Proof.Machine.execFpr n a s
  | .cpy a d xb => Sys2Proof.Machine.execCpy a d xb s
  | .idx a d xb => Sys2Proof.Machine.execIdx a d xb s
  | .tkpush pair => Sys2Proof.Machine.execTkpush pair s
  | .tkpop pair => Sys2Proof.Machine.execTkpop pair s
  | .tktest d pair => Sys2Proof.Machine.execTktest d pair s
  | .rddbc d => Sys2Proof.Machine.execRddbc d s
  | .rdaot d => Sys2Proof.Machine.execRdaot d s
  | .sleepu a => Sys2Proof.Machine.execSleepu a s
  | .sleepa a => Sys2Proof.Machine.execSleepa a s
  | .stamp d a => Sys2Proof.Machine.execStamp d a s
  | .rqpop d => Sys2Proof.Machine.execRqpop d s
  | .rqpeek d => Sys2Proof.Machine.execRqpeek d s
  | .xbwait d xb => Sys2Proof.Machine.execXbwait d xb s
  | .xbtest d xb => Sys2Proof.Machine.execXbtest d xb s
  | .xbarm a xb => Sys2Proof.Machine.execXbarm a xb s
  | .hold a b w => Sys2Proof.Machine.execHold a b w s
  | .free w => Sys2Proof.Machine.execFree w s
  | .chlink a n => Sys2Proof.Machine.execChlink a n s
  | .chkick n => Sys2Proof.Machine.execChkick n s
  | .scwait a sc => Sys2Proof.Machine.execScwait a sc s
  | .scpost a sc => Sys2Proof.Machine.execScpost a sc s
  | .qinit a => Sys2Proof.Machine.execQinit a s
  | .qpush a b => Sys2Proof.Machine.execQpush a b s
  | .qpop d a => Sys2Proof.Machine.execQpop d a s
  | .spawn d a b => Sys2Proof.Machine.execSpawn d a b s
  | .done => Sys2Proof.Machine.execDone s
  | .condw d a b => Sys2Proof.Machine.execCondw d a b s
  | .yield => Sys2Proof.Machine.execYield s
  | .self d => Sys2Proof.Machine.execSelf d s
  | .deadl d => Sys2Proof.Machine.execDeadl d s
  | .tailw d a b => Sys2Proof.Machine.execTailw d a b s
  | .headr d a => Sys2Proof.Machine.execHeadr d a s
  | .taga d a b => Sys2Proof.Machine.execTaga d a b s
  | .tagf a => Sys2Proof.Machine.execTagf a s
  | .meet d a b op => Sys2Proof.Machine.execMeet d a b op s
  | .mfs d sr => Sys2Proof.Machine.execMfs d sr s
  | .mts a sr => Sys2Proof.Machine.execMts a sr s
  | .trap code => Sys2Proof.Machine.execTrap code s
  | .rte => Sys2Proof.Machine.execRte s
  | .icinv scope => Sys2Proof.Machine.execIcinv scope s
  | .wfe => Sys2Proof.Machine.execWfe s
  | .halt => Sys2Proof.Machine.execHalt s
  | .illegalWord w => Sys2Proof.Machine.execIllegalWord w s
  | .vaddF d kA A kB B m t => Sys2Proof.Machine.execVaddF d kA A kB B m t s
  | .vsubF d kA A kB B m t => Sys2Proof.Machine.execVsubF d kA A kB B m t s
  | .vmulF d kA A kB B m t => Sys2Proof.Machine.execVmulF d kA A kB B m t s
  | .vfmaF d kA A kB B m t => Sys2Proof.Machine.execVfmaF d kA A kB B m t s
  | .vminF d kA A kB B m t => Sys2Proof.Machine.execVminF d kA A kB B m t s
  | .vmaxF d kA A kB B m t => Sys2Proof.Machine.execVmaxF d kA A kB B m t s
  | .vabsF d kA A m t => Sys2Proof.Machine.execVabsF d kA A m t s
  | .vnegF d kA A m t => Sys2Proof.Machine.execVnegF d kA A m t s
  | .vcvt d kA A rm code m t => Sys2Proof.Machine.execVcvt d kA A rm code m t s
  | .vexp2 d kA A m => Sys2Proof.Machine.execVexp2 d kA A m s
  | .vlog2 d kA A m => Sys2Proof.Machine.execVlog2 d kA A m s
  | .vrcp d kA A m => Sys2Proof.Machine.execVrcp d kA A m s
  | .vrsq d kA A m => Sys2Proof.Machine.execVrsq d kA A m s
  | .vtanh d kA A m => Sys2Proof.Machine.execVtanh d kA A m s
  | .vcmpF h d kA A kB B m l => Sys2Proof.Machine.execVcmpF h d kA A kB B m l s
  | .vaddI d kA A kB B m t => Sys2Proof.Machine.execVaddI d kA A kB B m t s
  | .vsubI d kA A kB B m t => Sys2Proof.Machine.execVsubI d kA A kB B m t s
  | .vmulI d kA A kB B m t => Sys2Proof.Machine.execVmulI d kA A kB B m t s
  | .vmacI d kA A kB B m t => Sys2Proof.Machine.execVmacI d kA A kB B m t s
  | .vand d kA A kB B m => Sys2Proof.Machine.execVand d kA A kB B m s
  | .vor d kA A kB B m => Sys2Proof.Machine.execVor d kA A kB B m s
  | .vxor d kA A kB B m => Sys2Proof.Machine.execVxor d kA A kB B m s
  | .vshl d kA A kB B m t => Sys2Proof.Machine.execVshl d kA A kB B m t s
  | .vshr d kA A kB B m t => Sys2Proof.Machine.execVshr d kA A kB B m t s
  | .vsar d kA A kB B m t => Sys2Proof.Machine.execVsar d kA A kB B m t s
  | .vminI d kA A kB B m t => Sys2Proof.Machine.execVminI d kA A kB B m t s
  | .vmaxI d kA A kB B m t => Sys2Proof.Machine.execVmaxI d kA A kB B m t s
  | .vsat d kA A kB B m t => Sys2Proof.Machine.execVsat d kA A kB B m t s
  | .vcmpI h d kA A kB B m l => Sys2Proof.Machine.execVcmpI h d kA A kB B m l s
  | .mand d kA A kB B => Sys2Proof.Machine.execMand d kA A kB B s
  | .mor d kA A kB B => Sys2Proof.Machine.execMor d kA A kB B s
  | .mxor d kA A kB B => Sys2Proof.Machine.execMxor d kA A kB B s
  | .mnot d kA A => Sys2Proof.Machine.execMnot d kA A s
  | .mpopc d kA A => Sys2Proof.Machine.execMpopc d kA A s
  | .vmov d kA A m => Sys2Proof.Machine.execVmov d kA A m s
  | .vsel d kA A kB B m => Sys2Proof.Machine.execVsel d kA A kB B m s
  | .vbcast d A kB B m => Sys2Proof.Machine.execVbcast d A kB B m s
  | .vperm d A B m => Sys2Proof.Machine.execVperm d A B m s
  | .vred d A op m => Sys2Proof.Machine.execVred d A op m s
  | .vld d eb es pi m => Sys2Proof.Machine.execVld d eb es pi m s
  | .vst d eb es pi m t => Sys2Proof.Machine.execVst d eb es pi m t s
  | .vldx d eb x m => Sys2Proof.Machine.execVldx d eb x m s
  | .vstx d eb x m => Sys2Proof.Machine.execVstx d eb x m s
  | .vsk48 d A t => Sys2Proof.Machine.execVsk48 d A t s
  | .vxp48 d A B t => Sys2Proof.Machine.execVxp48 d A B t s
  | .vqnt d A kB B m => Sys2Proof.Machine.execVqnt d A kB B m s
  | .vdq d kA A kB B m => Sys2Proof.Machine.execVdq d kA A kB B m s
  | .vpushc A kB B m => Sys2Proof.Machine.execVpushc A kB B m s
  | .vpopc d kB B m => Sys2Proof.Machine.execVpopc d kB B m s
  | .eaddi e imm => Sys2Proof.Machine.execEaddi e imm s
  | .emovi e imm => Sys2Proof.Machine.execEmovi e imm s
  | .kbase k => Sys2Proof.Machine.execKbase k s
  | .loop lc body => Sys2Proof.Machine.execLoop lc body s
  | .loopp lc body stages => Sys2Proof.Machine.execLoopp lc body stages s
  | .endl => Sys2Proof.Machine.execEndl s
  | .sstop => Sys2Proof.Machine.execSstop s
  | .snop => Sys2Proof.Machine.execSnop s
  | .mma acc eA eB ec mode kc => Sys2Proof.Machine.execMma acc eA eB ec mode kc s
  | .mmaR acc eA eB ec mode kc => Sys2Proof.Machine.execMmaR acc eA eB ec mode kc s
  | .mmaS acc eA eB ec mode kc => Sys2Proof.Machine.execMmaS acc eA eB ec mode kc s
  | .accnew acc ty => Sys2Proof.Machine.execAccnew acc ty s
  | .accz acc ty => Sys2Proof.Machine.execAccz acc ty s
  | .accld acc ty eA eS => Sys2Proof.Machine.execAccld acc ty eA eS s
  | .drain acc eD eC eF => Sys2Proof.Machine.execDrain acc eD eC eF s
  | .mdld md eA => Sys2Proof.Machine.execMdld md eA s
  | .bstr n eS => Sys2Proof.Machine.execBstr n eS s
  | .bfs eX dst L c P D IF OF => Sys2Proof.Machine.execBfs eX dst L c P D IF OF s
  | .bfc eX dst L c P D IF OF => Sys2Proof.Machine.execBfc eX dst L c P D IF OF s
  | .sort eA eD kt ds pl => Sys2Proof.Machine.execSort eA eD kt ds pl s
  | .topk eA eB eD kt ds pl => Sys2Proof.Machine.execTopk eA eB eD kt ds pl s
  | .merge eA eB eD kt ds pl => Sys2Proof.Machine.execMerge eA eB eD kt ds pl s
  | .segsort eA eB eD kt ds pl => Sys2Proof.Machine.execSegsort eA eB eD kt ds pl s
  | .uniq eA eD kt ds pl => Sys2Proof.Machine.execUniq eA eD kt ds pl s
  | .rankof eA eB eD kt ds pl => Sys2Proof.Machine.execRankof eA eB eD kt ds pl s
  | .spmv eH eX eY acc xf => Sys2Proof.Machine.execSpmv eH eX eY acc xf s
  | .spmm eH eX eY acc xf => Sys2Proof.Machine.execSpmm eH eX eY acc xf s
  | .spgemm eH eX eY => Sys2Proof.Machine.execSpgemm eH eX eY s
  | .tdir eH => Sys2Proof.Machine.execTdir eH s
  | .engineEntryStart => Sys2Proof.Machine.execEngineEntryStart s
  | .engineEntryComplete => Sys2Proof.Machine.execEngineEntryComplete s
  | .stampBeat => Sys2Proof.Machine.execStampBeat s
  | .engineWatchdog => Sys2Proof.Machine.execEngineWatchdog s
  | .copy => Sys2Proof.Machine.execCopy s
  | .gfill => Sys2Proof.Machine.execGfill s
  | .fill => Sys2Proof.Machine.execFill s
  | .mcast => Sys2Proof.Machine.execMcast s
  | .chnop => Sys2Proof.Machine.execChnop s
  | .gather => Sys2Proof.Machine.execGather s
  | .scatter => Sys2Proof.Machine.execScatter s
  | .gpool => Sys2Proof.Machine.execGpool s
  | .scadd => Sys2Proof.Machine.execScadd s
  | .hashacc => Sys2Proof.Machine.execHashacc s
  | .densify => Sys2Proof.Machine.execDensify s
  | .compact => Sys2Proof.Machine.execCompact s
  | .commandSignals => Sys2Proof.Machine.execCommandSignals s
  | .chainBlockFetch => Sys2Proof.Machine.execChainBlockFetch s
  | .promiseMiss => Sys2Proof.Machine.execPromiseMiss s
  | .scratchpadClear => Sys2Proof.Machine.execScratchpadClear s
  | .barrierCompletion => Sys2Proof.Machine.execBarrierCompletion s
  | .nearRead => Sys2Proof.Machine.execNearRead s
  | .nearWrite => Sys2Proof.Machine.execNearWrite s
  | .farRead => Sys2Proof.Machine.execFarRead s
  | .farWrite => Sys2Proof.Machine.execFarWrite s
  | .readReturn => Sys2Proof.Machine.execReadReturn s
  | .writeAcknowledgement => Sys2Proof.Machine.execWriteAcknowledgement s
  | .landingWrite => Sys2Proof.Machine.execLandingWrite s
  | .barrierMessage => Sys2Proof.Machine.execBarrierMessage s
  | .schedulerMessage => Sys2Proof.Machine.execSchedulerMessage s
  | .arbitrationGrant => Sys2Proof.Machine.execArbitrationGrant s
  | .packetAging => Sys2Proof.Machine.execPacketAging s
  | .meetingOperand => Sys2Proof.Machine.execMeetingOperand s
  | .meetingResult => Sys2Proof.Machine.execMeetingResult s
  | .meetingWithdrawal => Sys2Proof.Machine.execMeetingWithdrawal s
  | .heldOperandTaken => Sys2Proof.Machine.execHeldOperandTaken s
  | .meetingTimeout => Sys2Proof.Machine.execMeetingTimeout s
  | .replyPlacement => Sys2Proof.Machine.execReplyPlacement s
  | .ringConsume => Sys2Proof.Machine.execRingConsume s
  | .edgeDecrement => Sys2Proof.Machine.execEdgeDecrement s
  | .spawnQueueDrain => Sys2Proof.Machine.execSpawnQueueDrain s
  | .spawnProbe => Sys2Proof.Machine.execSpawnProbe s
  | .spawnStarved => Sys2Proof.Machine.execSpawnStarved s
  | .dispatchPop => Sys2Proof.Machine.execDispatchPop s
  | .strictLanePromotion => Sys2Proof.Machine.execStrictLanePromotion s
  | .nodeRetire => Sys2Proof.Machine.execNodeRetire s
  | .preemption => Sys2Proof.Machine.execPreemption s
  | .taskWatchdog => Sys2Proof.Machine.execTaskWatchdog s
  | .faultDelivery => Sys2Proof.Machine.execFaultDelivery s
  | .softError => Sys2Proof.Machine.execSoftError s
  | .debugHalt => Sys2Proof.Machine.execDebugHalt s
  | .debugRelease => Sys2Proof.Machine.execDebugRelease s
  | .pageWalkComplete => Sys2Proof.Machine.execPageWalkComplete s
  | .pageRequest => Sys2Proof.Machine.execPageRequest s
  | .prespRetry => Sys2Proof.Machine.execPrespRetry s
  | .prespFail => Sys2Proof.Machine.execPrespFail s
  | .invreq => Sys2Proof.Machine.execInvreq s
  | .invalidationComplete => Sys2Proof.Machine.execInvalidationComplete s
  | .pageSwap => Sys2Proof.Machine.execPageSwap s
  | .frameRelease => Sys2Proof.Machine.execFrameRelease s
  | .acvalClr => Sys2Proof.Machine.execAcvalClr s
  | .nqctlWrite => Sys2Proof.Machine.execNqctlWrite s
  | .prqctlWrite => Sys2Proof.Machine.execPrqctlWrite s
  | .contextCreate => Sys2Proof.Machine.execContextCreate s
  | .contextEnd => Sys2Proof.Machine.execContextEnd s
  | .create => Sys2Proof.Machine.execCreate s
  | .grant => Sys2Proof.Machine.execGrant s
  | .revoke => Sys2Proof.Machine.execRevoke s
  | .importBuf => Sys2Proof.Machine.execImportBuf s
  | .ringreg => Sys2Proof.Machine.execRingreg s
  | .ringdel => Sys2Proof.Machine.execRingdel s
  | .rtail => Sys2Proof.Machine.execRtail s
  | .registerWrite => Sys2Proof.Machine.execRegisterWrite s
  | .fmapdrvWrite => Sys2Proof.Machine.execFmapdrvWrite s
  | .ckptStart => Sys2Proof.Machine.execCkptStart s
  | .ckptDone => Sys2Proof.Machine.execCkptDone s
  | .ebudRefill => Sys2Proof.Machine.execEbudRefill s
  | .correctedError => Sys2Proof.Machine.execCorrectedError s
  | .unitDrain => Sys2Proof.Machine.execUnitDrain s
  | .spanLinkFailure => Sys2Proof.Machine.execSpanLinkFailure s
  | .memoryUncorrectableError => Sys2Proof.Machine.execMemoryUncorrectableError s
  | .powerOn => Sys2Proof.Machine.execPowerOn s
  | .linkTraining => Sys2Proof.Machine.execLinkTraining s
  | .getVersion => Sys2Proof.Machine.execGetVersion s
  | .getCapabilities => Sys2Proof.Machine.execGetCapabilities s
  | .negotiateAlgorithms => Sys2Proof.Machine.execNegotiateAlgorithms s
  | .getDigests => Sys2Proof.Machine.execGetDigests s
  | .getCertificate => Sys2Proof.Machine.execGetCertificate s
  | .challenge => Sys2Proof.Machine.execChallenge s
  | .getMeasurements => Sys2Proof.Machine.execGetMeasurements s
  | .keyExchange => Sys2Proof.Machine.execKeyExchange s
  | .finish => Sys2Proof.Machine.execFinish s
  | .endSession => Sys2Proof.Machine.execEndSession s
  | .keygen => Sys2Proof.Machine.execKeygen s
  | .keydel => Sys2Proof.Machine.execKeydel s
  | .spdmUnsupportedRequest => Sys2Proof.Machine.execSpdmUnsupportedRequest s
  | .sleepExpiry => Sys2Proof.Machine.execSleepExpiry s
  | .illegalMicroOrder w => Sys2Proof.Machine.execIllegalMicroOrder w s
  | .driverRequestUnknownOp => Sys2Proof.Machine.execDriverRequestUnknownOp s
  | .companionFarWrite => Sys2Proof.Machine.execCompanionFarWrite s
  | .spanRequest => Sys2Proof.Machine.execSpanRequest s

end Sys2Proof.Machine
end

