-- ==== Sys2Proof/Machine/Fetch.lean ====
section
/-! DEFINITION. What the step function needs beside the meanings: which instructions are events, fetching a word, the step
of an engine, the passing of time, and the dropping of cached copies (log 1, 6). -/

namespace Sys2Proof.Machine

/-- A row of the table without an encoding: something that happens to the package, which a turn of the agenda may bring. -/
def eventRow (i : Instr) : Bool :=
  match i with
  | .engineEntryStart | .engineEntryComplete | .stampBeat | .engineWatchdog | .copy | .gfill | .fill | .mcast | .chnop |
  .gather | .scatter | .gpool | .scadd | .hashacc | .densify | .compact | .commandSignals | .chainBlockFetch |
  .promiseMiss | .scratchpadClear | .barrierCompletion | .nearRead | .nearWrite | .farRead | .farWrite | .readReturn |
  .writeAcknowledgement | .landingWrite | .barrierMessage | .schedulerMessage | .arbitrationGrant | .packetAging |
  .meetingOperand | .meetingResult | .meetingWithdrawal | .heldOperandTaken | .meetingTimeout | .replyPlacement |
  .ringConsume | .edgeDecrement | .spawnQueueDrain | .spawnProbe | .spawnStarved | .dispatchPop | .strictLanePromotion
  | .nodeRetire | .preemption | .taskWatchdog | .faultDelivery | .softError | .debugHalt | .debugRelease |
  .pageWalkComplete | .pageRequest | .prespRetry | .prespFail | .invreq | .invalidationComplete | .pageSwap |
  .frameRelease | .acvalClr | .nqctlWrite | .prqctlWrite | .contextCreate | .contextEnd | .create | .grant | .revoke |
  .importBuf | .ringreg | .ringdel | .rtail | .registerWrite | .fmapdrvWrite | .ckptStart | .ckptDone | .ebudRefill |
  .correctedError | .unitDrain | .spanLinkFailure | .memoryUncorrectableError | .powerOn | .linkTraining | .getVersion
  | .getCapabilities | .negotiateAlgorithms | .getDigests | .getCertificate | .challenge | .getMeasurements |
  .keyExchange | .finish | .endSession | .keygen | .keydel | .spdmUnsupportedRequest | .sleepExpiry |
  .driverRequestUnknownOp | .companionFarWrite | .spanRequest => true
  | _ => false

/-! ### The sequencer (R30, R31, R62, R92, R363) -/

/-- Tile `t`'s sequencer has a turn: an active member that waits at no phase or bar, that no debugger holds, that no page of the
overflow area suspends and that no yield has given up (R91, R135, R355, R372). A wait of 8 and above is that of barw or bara. -/
def State.seqRuns (s : State) (t : Nat) : Bool :=
  let x := s.tile t
  x.active && !s.held t && !s.suspended t && !s.givenUp t && (match x.wait with | some k => decide (8 ≤ k) | none => true)
/-- Put a word into tile `t`'s instruction cache, if it has room (R10). -/
def State.cacheWord (s : State) (t k : Nat) (w : BitVec 32) : State :=
  s.modTile t (fun x => if x.icache.length < Config.icacheWords then { x with icache := FMap.set x.icache k w } else x)
/-- The word at tile `t`'s program counter: from its instruction cache, which it fills from the context's page tables, setting A in
the leaf (R31, R244, R247); none when no translation serves it. A word of a frame whose key does not fit is a free one (log 83). -/
def State.fetchWord (s : State) (t : Nat) : Option (State × Nat) :=
  let x := s.tile t
  let a := x.pc.toNat
  match FMap.get? x.icache (a / 4) with
  | some w => some (s, w.toNat)
  | none => match s.walk x.ctx (a / 2 ^ 16) with
    | .leaf slot pte large =>
      let k := leafKey pte (a / 2 ^ 16) large + a % 2 ^ 16
      let s1 := s.orEntry slot 8
      let r := if s.keyFits pte k then (s1, s1.load k 4) else (s1.picked, leNat ((List.range 4).map (Config.scrambled s.fresh)))
      some (r.1.cacheWord t (a / 4) (BitVec.ofNat 32 r.2), r.2)
    | .bad _ => none
/-- What a sequencer does in its turn: all of it is said by a state, or a word is to be executed, or no translation serves the
fetch. -/
inductive SeqTurn where
  | done (s : State)
  | word (s : State) (i : Instr)
  | untranslated
  deriving DecidableEq, Repr
/-- The turn of tile `t`'s sequencer: a member of a failed task stops at the instruction boundary behind its condw or cappub (R92,
R142); else it takes a pending delivery, or fetches a word (R62, R363), which waits while it names the
register of a read that has not returned (R84; log 79). A program counter that fails R30 traps. -/
def State.seqTurn (s : State) (t : Nat) : SeqTurn :=
  if !s.seqRuns t then .done s
  else if (s.tile t).stop ∧ !(s.tile t).inside then .done (s.stopMember t)
  else if s.deliverable t then .done (s.deliver t)
  else if !pcOk (s.tile t).pc then .done (s.trap 0x04 (s.tile t).pc)
  else match s.fetchWord t with
    | some (s, w) => if (s.tile t).awaits (decodeSeq w) then .done s else .word s (decodeSeq w)
    | none => .untranslated

/-! ### The engines (R95, R212, R232) -/

/-- What comes before an engine's next step: a per-tensor update of the matrix engine that can be made (R184, R289). -/
def State.engFirst (s : State) (t : Nat) (e : Eng) : Option State :=
  match e with
  | .xe => if s.held t then none else s.tensorStep t
  | .ve => none
/-- The state in which an engine executes a micro-order (R212). -/
def State.issuing (s : State) (e : Eng) (i : Instr) : State :=
  match e with
  | .ve => s.grouped i
  | .xe => s
/-- The step whose stage predicate is false goes by without effect and without taking a beat (R232). -/
def State.skipStep (s : State) : State := s.stepDone 0

/-! ### Time (R24, R25, R311, R366, R372) -/

/-- The beats until the next step of an engine's stamped running entry is due; 0 for one that its loop skips. -/
def State.dueIn (s : State) (t : Nat) (e : Eng) : Option Nat :=
  let s := s.focus t e
  let g := s.here.engine e
  match g.run with
  | none => none
  | some r =>
    if r.ended.isSome then none
    else if g.skips r then r.nextBeat.map (fun _ => 0)
    else (s.dueBeat r (decodeFor t e (s.stepWord t r r.step))).map (fun b => (b - s.dbc t).toNat)
/-- Something of tile `t` falls due within `beats` beats and is to be judged first: a stamped entry (R347) or its next step (R292), a
promise (R100), the watchdog of an entry (R147). -/
def State.dueWithin (s : State) (t : Nat) (x : Tile) (beats : Nat) : Bool :=
  let soon := fun (b : Word) => decide ((b - s.dbc t).toNat < beats)
  [Eng.ve, Eng.xe].any (fun e =>
    let g := x.engine e
    (!g.flt && g.queue.any (fun q => (q.stamp.map soon).getD false))
      || ((s.dueIn t e).map (fun k => decide (k < beats))).getD false || s.overdue t g (beats - 1))
    || (x.ce.cmds ++ x.ie.cmds).any (fun c => (c.promise.map soon).getD false)
/-- Time may pass: `beats` on each die, `ticks` of AOT. It does not run past what it must find judged: what falls due on a tile, the
timeout of an operand (R309), the limit of a task (R366) (log 6). -/
def State.mayPass (s : State) (beats : Nat → Nat) (ticks : Nat) : Bool :=
  s.tiles.all (fun t => !t.2.task.isSome || s.held t.1 || decide (beats (dieOf t.1) = 0) || !s.dueWithin t.1 t.2 (beats (dieOf t.1)))
    && s.stations.all (fun x => x.2.waiting.all (fun o =>
      s.heldCtx o.ctx || decide (o.timeout = 0 ∨ (s.aot - o.at_).toNat + ticks ≤ o.timeout + 1)))
    && s.nodes.all (fun n => decide (n.2.st ≠ .run ∨ n.2.limit = 0 ∨ n.2.ran + ticks ≤ n.2.limit + 1) || n.2.outcome.isSome || s.heldCtx n.2.ctx)
/-- A packet that has not arrived waits so many beats at a point of each die (R22). -/
def Route.wait (p : Route) (beats : Nat → Nat) : Route := if p.arrived then p else { p with waited := p.waited + beats (p.point / 65536) }
/-- The counters of the dies go on (R25), what waits at their routers waits, and no bank of their tiles is taken on the new beat. -/
def State.onBeats (s : State) (beats : Nat → Nat) : State :=
  { s with
    dies := (List.range 27).foldl (fun l d =>
      if beats d = 0 then l
      else
        let x := FMap.getD {} l d
        FMap.set l d { x with dbc := x.dbc + BitVec.ofNat 64 (beats d) }) s.dies
    tiles := s.tiles.map fun t => if beats (dieOf t.1) = 0 then t else (t.1, { t.2 with banks := [] })
    net := s.net.map fun p => { p with toRoute := p.toRoute.wait beats }
    land := s.land.map fun p => { p with toRoute := p.toRoute.wait beats }
    meets := s.meets.map fun p => { p with toRoute := p.toRoute.wait beats } }
/-- Ticks of AOT pass (R24), with what counts them; sleepa, tag timeouts and the task watchdog do not advance under a debug hold
(R372). -/
def State.onTicks (s : State) (ticks : Nat) : State :=
  let n := BitVec.ofNat 64 ticks
  let hold := fun (o : Operand) => if s.heldCtx o.ctx then { o with at_ := o.at_ + n } else o
  { s with
    aot := s.aot + n
    nodes := s.nodes.map fun (m : Nat × Node) =>
      if m.2.st = NState.run ∧ m.2.outcome.isNone ∧ !s.heldCtx m.2.ctx then (m.1, { m.2 with ran := m.2.ran + ticks }) else m
    stations := s.stations.map fun (x : Nat × Station) => (x.1, { x.2 with waiting := x.2.waiting.map hold })
    tiles := s.tiles.map fun (t : Nat × Tile) => match t.2.sleep with
      | some (true, v) => if s.held t.1 then (t.1, { t.2 with sleep := some (true, v + n) }) else t
      | _ => t }
/-- A die whose counter counts: out of reset, and not halted (R25). -/
def State.counts (s : State) (d : Nat) : Bool := (s.die d).outOfReset && !(s.die d).halted
/-- Time passes: beats on every die, and ticks of AOT. That all dies take the same beats in one turn is one of many courses; turns of
single dies give the others (R25; DESIGN CHOICE, log 6). -/
def State.pass (s : State) (beats ticks : Nat) : State :=
  let b := fun d => if s.counts d then beats else 0
  if s.mayPass b ticks then (s.onTicks ticks).onBeats b else s
/-- Beats pass on one die alone (R25). -/
def State.beat (s : State) (die n : Nat) : State :=
  let b := fun d => if d = die ∧ s.counts d then n else 0
  if s.mayPass b 0 then s.onBeats b else s

/-! ### Cached copies that may go at any time (R31, R248) -/

/-- Tile `t` drops the `n`-th word of its instruction cache. -/
def State.evictCode (s : State) (t n : Nat) : State := s.modTile t (fun x => { x with icache := dropAt x.icache n })
/-- A held translation goes. -/
def State.evictXlat (s : State) (n : Nat) : State := { s with tlb := dropAt s.tlb n }

/-! ### An instruction placed for the next step (log 8) -/

/-- A tile-wide task of context 1 runs on tile `t`, as after a dispatch, unless one does already. -/
def State.launch (s : State) (t : Nat) : State :=
  if (s.tile t).task.isSome then s
  else
    let s := s.modTile t (fun x => { x with task := some 0, fin := false, ctx := 1, vtile := 0, lastCtx := some 1, s := [(2, nearOf 0 0xBFFF0)] })
    let s := s.modCtx 1 (fun c => { c with live := true, tmap := FMap.set c.tmap 0 { phys := t } })
    { s with nodes := FMap.set s.nodes 0 { ctx := 1, rec_ := [BitVec.ofNat 64 (1 + 256 * Config.dieClass (dieOf t))], source := .ring 0 0,
                                           st := .run, cls := Config.dieClass (dieOf t), gang := [t], vsize := 1 } }
/-- Put a sequencer word at the program counter of the tile in focus. -/
def State.putWord (s : State) (w : Nat) : State :=
  let s := { s.launch s.cur with agenda := [] }
  s.modTile s.cur (fun x => { x with icache := FMap.set x.icache (x.pc.toNat / 4) (BitVec.ofNat 32 w) })
/-- Put a micro-order as the next step of an engine of tile `t`. -/
def State.putStep (s : State) (t : Nat) (e : Eng) (w : Nat) : State :=
  let s := { s.launch t with agenda := [.eng t e] }
  let r : Running := { entry := { no := 0, kind := .run 0x1000 0 1, fp := { rd := [(0, 24576)], wr := [(0, 24576)] } }
                       base := 0x1000, step := 0, wend := 1 }
  (s.store (nearKey t 0x1000) 4 w).modTile t (fun x => x.setEngine e { x.engine e with run := some r })
/-- Put a table word where the next step runs it: read as decodeTableWord reads it. -/
def State.place32 (s : State) (w : Nat) : State :=
  if (decodeSeq w).accepted then s.putWord w
  else if (decodeVe w).accepted then s.putStep 0 .ve w
  else if (decodeMe w).accepted then s.putStep 0 .xe w
  else if (decodeOe w).accepted then s.putStep (256 * 12) .xe w
  else if (decodeSe w).accepted then s.putStep (256 * 8) .xe w
  else s.putWord w

end Sys2Proof.Machine
end

