-- ==== Sys2Proof/Machine/Step.lean ====
section
/-! DEFINITION. One step of the package: the next turn of the agenda, or a word of the tile in focus (log 1). -/

namespace Sys2Proof.Machine
open Sys2Proof

/-- The sequencer of tile `t` has its turn: it takes a pending delivery, or fetches and executes a word (R62, R363). -/
def stepSeq (t : Nat) (s : State) : Host.Outcome State Fault Refusal :=
  match (s.focus t s.eng).seqTurn t with
  | .done s => .next s
  | .word s i => exec i s
  | .untranslated => .fault .fetchUntranslated

/-- The sequencer of tile `t` has its turn, and the accesses of its word to its own window are performed later (R84; log 79). -/
def stepLate (t : Nat) (s : State) : Host.Outcome State Fault Refusal :=
  match stepSeq t { s with late := true } with
  | .next s => .next { s with late := false }
  | r => r

/-- An engine of tile `t` has its turn: the next step of its running entry (R95). -/
def stepEng (t : Nat) (e : Eng) (s : State) : Host.Outcome State Fault Refusal :=
  let s := s.focus t e
  match s.engFirst t e with
  | some s => .next s
  | none => match s.engTurn t e with
    | .idle => .next s
    | .skip => .next s.skipStep
    | .fault k v => .next (s.stepFault k v)
    | .word w => exec (decodeFor t e w) (s.issuing e (decodeFor t e w))

/-- An engine of tile `t` has a turn in which its step reads at most `n` lines, or, of an MMA that has read those of its chunk, applies at
most `n` row groups (R295, R342). -/
def stepPart (t : Nat) (e : Eng) (n : Nat) (s : State) : Host.Outcome State Fault Refusal :=
  match stepEng t e { s with part := some n } with
  | .next s => .next { s with part := none }
  | r => r

/-- A turn of the agenda. -/
def stepTurn (k : Turn) (s : State) : Host.Outcome State Fault Refusal :=
  match k with
  | .seq t => stepSeq t s
  | .seqLate t => stepLate t s
  | .eng t e => stepEng t e s
  | .engPart t e n => stepPart t e n s
  | .event i t e a => if eventRow i then exec i { s with cur := t, eng := e, arg := a } else .next s
  | .time beats ticks => .next (s.pass beats ticks)
  | .beats die n => .next (s.beat die n)
  | .evictCode t n => .next (s.evictCode t n)
  | .evictXlat n => .next (s.evictXlat n)
  | .prefetch t e vpn => .next (s.prefetch t e vpn)

/-- One step: the first turn of the agenda, or, when it is empty, the sequencer of the tile in focus. -/
def step (s : State) : Host.Outcome State Fault Refusal :=
  match s.agenda with
  | [] => stepSeq s.cur s
  | k :: rest => stepTurn k { s with agenda := rest }

/-- The state with the instruction of a table word as the one that the next step executes (log 8). -/
def State.withFetchWord (s : State) (_nbits w : Nat) : State := s.place32 w

end Sys2Proof.Machine
end

