-- ==== Sys2Proof/Machine/Aperture.lean ====
section
/-! DEFINITION. What the management aperture reads: the catalogue, the package registers and the pages of the contexts (R28, R237,
R250, R253, R258, R373 to R375, R378, R380, R381, R387). No row of the table is a register read, so these are functions of the
state, with no step of their own. -/

namespace Sys2Proof.Machine

/-! ### The catalogue (R28, R381) -/

/-- Fields put into one 64-bit word: first bit, width and value of each. -/
def packed (l : List (Nat × Nat × Nat)) : Word := BitVec.ofNat 64 (l.foldl (fun n f => n + f.2.2 % 2 ^ f.2.1 * 2 ^ f.1) 0)
/-- The die mask (R381). -/
def State.dieMask (s : State) : Nat := ((List.range 27).filter s.present).foldl (fun n d => n + 2 ^ d) 0
/-- The usable tiles of a class (R381). -/
def State.classTiles (s : State) (k : Nat) : Nat :=
  ((List.range 14).filter (fun d => decide (Config.dieClass d = k))).foldl (fun n d => n + s.usableTiles d) 0
/-- The type code of a die record; 0 where the die is absent (R381). -/
def State.dieType (s : State) (d : Nat) : Nat :=
  if s.present d then typeCode d else 0
/-- The module mask of a die record (R381). -/
def State.moduleMask (s : State) (d : Nat) : Nat :=
  ((List.range (facing d).length).filter (s.moduleUsable d)).foldl (fun n i => n + 2 ^ i) 0
/-- The usable HBM stacks of a die: two on each memory die, but for those retired (R7, R26, R381). -/
def State.usableStacks (s : State) (d : Nat) : Nat :=
  if 16 ≤ d ∧ d < 24 ∧ s.present d then ((List.range Config.dieStacks).filter (fun i => !s.retired 5 d i)).length else 0
/-- A die record (R381); the places of its fields, which the rule does not give, are a choice (DESIGN CHOICE, log 92). -/
def State.dieRecord (s : State) (d : Nat) : Word :=
  packed [(0, 8, s.dieType d), (16, 16, if s.present d then s.usableTiles d else 0), (32, 16, s.moduleMask d), (48, 8, s.usableStacks d)]
/-- The fallback class recommended for a class: 0x01 while it is the sparse class and absent (R381). -/
def State.fallbackFor (s : State) (k : Nat) : Nat := if k = 2 ∧ !s.classPresent 2 then 1 else 0
/-- A retired record (R381). -/
def Retired.word (r : Retired) : Word := packed [(0, 8, r.kind), (8, 5, r.die), (16, 16, r.index), (32, 8, r.reason)]
/-- The 64-bit word of the catalogue at offset `off`, a multiple of 8 (R381). -/
def State.catalogue (s : State) (off : Nat) : Word :=
  let p := s.pkg
  if off = 0x0000 then packed [(0, 32, 1), (32, 32, p.catGen)]
  else if off = 0x0008 then packed [(0, 32, s.dieMask), (32, 8, p.index), (40, 8, p.packages)]
  else if off = 0x0010 then
    packed [(0, 16, s.classTiles 1), (16, 16, s.classTiles 2), (32, 16, s.classTiles 3), (48, 16, s.classTiles 4)]
  else if off = 0x0018 then p.fmapDev.setWidth 64
  else if off = 0x0020 then (p.fmapDev >>> 64).setWidth 64
  else if off = 0x0028 then
    packed [(0, 16, min p.retired.length 7936), (16, 8, s.fallbackFor 1), (24, 8, s.fallbackFor 2), (32, 8, s.fallbackFor 3), (40, 8, s.fallbackFor 4)]
  else if off = 0x0030 then p.lastChange
  else if 0x0040 ≤ off ∧ off < 0x0240 then (if off % 16 = 0 then s.dieRecord ((off - 0x0040) / 16) else 0)
  else if 0x0400 ≤ off ∧ off / 8 - 0x80 < 7936 then (match p.retired[off / 8 - 0x80]? with | some r => r.word | none => 0)
  else 0

/-! ### Registers (R373 to R375, R378, R380, R387) -/

/-- A package register: the feature maps, AOTNOW, which reads AOT, and CKCTL (R380, R387, R389). -/
def State.pkgReg (s : State) (off : Nat) : Word :=
  if off = 0x000 then s.pkg.fmapDrv.setWidth 64
  else if off = 0x008 then (s.pkg.fmapDrv >>> 64).setWidth 64
  else if off = 0x010 then s.pkg.fmapen.setWidth 64
  else if off = 0x018 then (s.pkg.fmapen >>> 64).setWidth 64
  else if off = 0x040 then s.aot
  else if off = 0x048 then s.pkg.ckctl
  else 0
/-- The frames of a pool that are free (R375). -/
def Ctx.freeFrames (x : Ctx) : Nat :=
  let n := (x.iodReg 0x078).toNat % 2 ^ 32
  let lo := x.poolFrame 0
  n - ((x.pool ++ x.left).eraseDups.filter (fun f => decide (lo ≤ f ∧ f < lo + n * 2 ^ 16))).length
/-- ACVAL: the counter of the page that ACSEL names (R258). -/
def Ctx.acval (x : Ctx) : Word :=
  match FMap.get? x.acnt (x.iodReg 0x058).toNat with
  | some n => packed [(0, 16, n), (17, 1, 1), (32, 32, x.acMiss)]
  | none => packed [(32, 32, x.acMiss)]
/-- A register of the IOD page: INVREQ and PRESP, which are only written, read zero (R6, R374). -/
def Ctx.readIod (x : Ctx) (off : Nat) : Word :=
  if off = 0x008 ∨ off = 0x050 then 0
  else if off = 0x010 then packed [(0, 32, x.invDone)]
  else if off = 0x030 then packed [(0, 32, x.nqWritten), (32, 32, x.nqLost)]
  else if off = 0x048 then packed [(0, 32, x.prWritten), (32, 32, x.prStale)]
  else if off = 0x060 then x.acval
  else if off = 0x078 then packed [(0, 32, (x.iodReg 0x078).toNat), (32, 32, x.freeFrames)]
  else if off < 0x090 then x.iodReg off
  else 0
/-- A gate register (R145). -/
def State.gateReg (s : State) (c off : Nat) : Word :=
  let v := (s.ctxAt c).scdReg off
  if (off - 0x100) / 8 % 3 ≠ 2 then v
  else
    let run := s.gateRun c ((off - 0x100) / 24)
    packed [(0, 1, v.toNat), (1, 1, if v.getLsbD 0 ∧ run = 0 then 1 else 0), (32, 32, run)]
/-- RHEAD: the head of the ring that RHSEL selects; zero for one not registered to the context (R378). -/
def State.ringHead (s : State) (c : Nat) : Word :=
  let r := ((s.ctxAt c).scdReg 0x060).toNat
  match FMap.get? s.rings r with
  | some g => if g.ctx = c ∧ r < 1024 then packed [(0, 32, g.head.toNat)] else 0
  | none => 0
/-- A register of the SCD page: DRQ and RTAIL, which are only written, read zero (R6, R374); SAVE reads zero without the PREEMPT
feature (R380). -/
def State.readScd (s : State) (c off : Nat) : Word :=
  let x := s.ctxAt c
  if off = 0x010 then packed [(0, 32, x.evWritten), (32, 32, x.evLost)]
  else if off = 0x030 then (if s.pkg.fmapen.getLsbD 3 then x.scdReg 0x030 else 0)
  else if off = 0x038 then packed [(0, 1, if x.live then 1 else 0), (48, 16, x.cgen)]
  else if off = 0x040 ∨ off = 0x050 then 0
  else if off = 0x048 then packed [(0, 32, x.drqDone)]
  else if off = 0x058 then packed [(0, 2, x.rtres)]
  else if off = 0x068 then s.ringHead c
  else if 0x100 ≤ off ∧ off < 0x280 then s.gateReg c off
  else if off < 0x070 then x.scdReg off
  else 0
/-- A read of `size` bytes at an offset of the aperture: only aligned reads of 64 bits give anything, and none does before the link has
trained (R373). -/
def State.readAperture (s : State) (off : Nat) (size : Nat := 8) : Word :=
  if off % 8 ≠ 0 ∨ size ≠ 8 ∨ !s.pkg.linkUp then 0
  else if off < 0x10000 then s.catalogue off
  else if off < 0x11000 then s.pkgReg (off - 0x10000)
  else if 0x1000000 ≤ off ∧ off < 0x2000000 then (s.ctxAt ((off - 0x1000000) / 4096)).readIod (off % 4096)
  else if 0x2000000 ≤ off ∧ off < 0x3000000 then s.readScd ((off - 0x2000000) / 4096) (off % 4096)
  else 0

end Sys2Proof.Machine
end

