-- ==== Sys2Proof/Safety.lean ====
section
/-! DEFINITION. What a state of the package is required to be (log 4), what a safe step is, and the words in which the statements
say what an instruction leaves. -/

namespace Sys2Proof.Machine
open Sys2Proof

/-- The memory keeps its canonical form. -/
abbrev State.memOk (s : State) : Prop := Memory.wf s.mem = true

/-- The keys of a table rise strictly: no key is listed twice. -/
abbrev Rising {α : Type} (m : FMap α) : Prop := m.Pairwise (fun a b => a.1 < b.1)

/-- What every step keeps: the memory's canonical form, and tables of tiles and nodes that list no key twice. -/
abbrev State.ok (s : State) : Prop := s.memOk ∧ Rising s.tiles ∧ Rising s.nodes

/-- A step is safe when it neither faults nor refuses. -/
def safeStep (s : State) : Prop := ∃ t, step s = .next t

/-! ### Completion and frames -/

/-- exec answers a next state, and `P` holds of it. -/
def Completes (i : Instr) (s : State) (P : State → Prop) : Prop := ∃ t, exec i s = .next t ∧ P t

/-- Every byte of memory reads as before. -/
def SameMem (s t : State) : Prop := ∀ k, Mem.get t.mem k = Mem.get s.mem k

/-- Every byte of memory outside `[k, k + n)` reads as before. -/
def SameMemBut (s t : State) (k n : Nat) : Prop := ∀ j, (j < k ∨ k + n ≤ j) → Mem.get t.mem j = Mem.get s.mem j

/-- A tile is as before, but for the banks that accesses of this beat have taken (R12, R349). -/
def SameButBanks (x y : Tile) : Prop := { y with banks := x.banks } = x

/-- Every tile but the current one is as before. -/
def OtherTiles (s t : State) : Prop := ∀ u, u ≠ s.cur → t.tile u = s.tile u

/-- Nothing but the current tile has changed: no other tile, no byte of memory, no descriptor, no table of the package. -/
def OnlyHere (s t : State) : Prop := OtherTiles s t ∧ SameMem s t ∧ { t with tiles := s.tiles } = s

/-- The instruction wrote `v` to s register `d` (nothing where `d` is s0) and moved to the next word; every other s register,
every predicate, flag, special register and engine register of the tile, and all that OnlyHere names, is as before. -/
def Wrote (s t : State) (d : BitVec 5) (v : Word) : Prop :=
  (∀ r, t.here.rd r = if r = d ∧ d ≠ 0 then v else s.here.rd r) ∧ t.here.pc = s.here.pc + 4
    ∧ { t.here with s := s.here.s, pc := s.here.pc } = s.here ∧ OnlyHere s t

/-- The instruction completes and leaves what Wrote says. -/
def Retires (s : State) (i : Instr) (d : BitVec 5) (v : Word) : Prop := Completes i s (fun t => Wrote s t d v)

/-- The instruction wrote `b` to predicate `pd` (nothing where `pd` is p0) and moved to the next word; all else is as before. -/
def WroteP (s t : State) (pd : BitVec 3) (b : Bool) : Prop :=
  (∀ q, t.here.rdP q = if q = pd ∧ pd ≠ 0 then b else s.here.rdP q) ∧ t.here.pc = s.here.pc + 4
    ∧ { t.here with p := s.here.p, pc := s.here.pc } = s.here ∧ OnlyHere s t

/-- The instruction completes and leaves what WroteP says. -/
def RetiresP (s : State) (i : Instr) (pd : BitVec 3) (b : Bool) : Prop := Completes i s (fun t => WroteP s t pd b)

/-- Control passes to `pc`, with `v` written to s register `d` (nothing where `d` is s0); all else is as before. -/
def WentTo (s t : State) (pc : Word) (d : BitVec 5) (v : Word) : Prop :=
  (∀ r, t.here.rd r = if r = d ∧ d ≠ 0 then v else s.here.rd r) ∧ t.here.pc = pc
    ∧ { t.here with s := s.here.s, pc := s.here.pc } = s.here ∧ OnlyHere s t

/-- The current tile becomes `x`, at the next word, and nothing else changes. -/
def Becomes (s t : State) (x : Tile) : Prop := t.here = { x with pc := s.here.pc + 4 } ∧ OnlyHere s t

/-- A trap has an entry to go to: outside handler mode, with a handler address that may be fetched from (R358, R360). -/
abbrev Tile.canTrap (x : Tile) : Prop := x.hm = false ∧ x.tvec ≠ 0 ∧ pcOk x.tvec = true

/-- The trap of a word is taken at the current tile (R358): EPC holds the word's address, CAUSE and TVAL what the trap gives,
HM is set and control is at TVEC; every other register and all that OnlyHere names is as before. -/
def Trapped (s t : State) (cause : Nat) (tval : Word) : Prop :=
  t.here = { s.here with epc := s.here.pc, cause := BitVec.ofNat 64 cause, tval := tval, hm := true, sleep := none, pc := s.here.tvec }
    ∧ OnlyHere s t

/-- The instruction takes the trap. -/
def Traps (s : State) (i : Instr) (cause : Nat) (tval : Word) : Prop := Completes i s (fun t => Trapped s t cause tval)

/-! ### Memory -/

/-- The bytes `l` are stored from key `k` on, and every other byte of memory reads as before. -/
def Stored (s t : State) (k : Nat) (l : List Byte) : Prop :=
  (∀ i, i < l.length → Mem.get t.mem (k + i) = l.getD i 0) ∧ SameMemBut s t k l.length

/-- Nothing but memory and the current tile has changed. -/
def OnlyHereAndMem (s t : State) : Prop := OtherTiles s t ∧ { t with tiles := s.tiles, mem := s.mem } = s

/-- The current instruction waits for nothing (R91), and no acquire is to return before it (R84). -/
abbrev Tile.fresh (x : Tile) : Prop := x.ret = none ∧ x.sent = false ∧ x.sleep = none ∧ x.acquires = false

/-- The current tile's access to the `n` bytes at offset `o` of its own slice is performed at once: nothing that R84 places before it
is under way, the line is not landing (R80), and no other accessor has its bank on this beat (R349). -/
abbrev State.atHome (s : State) (o n : Nat) (plain : Bool) : Prop := s.atOnce s.cur o n plain = true ∧ s.stalls s.cur 1 o n = false

/-- The state once that access has taken its banks (R12, R349). -/
abbrev State.accessed (s : State) (o n : Nat) : State := s.touch s.cur 1 o n

/-- The current instruction sent the packet `p`, awaits `r`, and the tile goes on with the next word; no register, no byte of
memory and no other tile changed (R77, R84). -/
def SentRead (s t : State) (p : Packet) (r : PendRead) : Prop :=
  t.net = s.net ++ [p] ∧ t.here = { s.here with nextTx := s.here.nextTx + 1, reads := s.here.reads ++ [r], pc := s.here.pc + 4 }
    ∧ OtherTiles s t ∧ SameMem s t ∧ { t with tiles := s.tiles, net := s.net } = s

/-- Byte `i` of a word. -/
def byteOf (v : Word) (i : Nat) : Byte := BitVec.ofNat 8 (v.toNat / 256 ^ i)

/-- A value of `n` bytes, least first, extended to 64 bits by sign, or by zero where `z` is 1 (R74). -/
def extended (l : List Byte) (z : BitVec 1) : Word :=
  let v := (l.mapIdx (fun i b => b.toNat * 256 ^ i)).sum
  if z = 1 ∨ v < 2 ^ (8 * l.length - 1) then BitVec.ofNat 64 v else BitVec.ofInt 64 ((v : Int) - 2 ^ (8 * l.length))

/-- The key of the home byte of near address `a` for context `c`, if a live task holds its window. -/
def State.homeKey (s : State) (c a : Nat) : Option Nat :=
  match s.findNear c (BitVec.ofNat 64 a) with
  | .ok u off => some (nearKey u off)
  | _ => none

/-- The current tile runs the task of node `n` alone, and no debugger holds it: its phase group at every scope is itself (R86). -/
abbrev State.alone (s : State) (n : Nat) : Prop :=
  s.members n = [(s.cur, s.here)] ∧ s.here.task = some n ∧ s.here.fin = false ∧ s.heldCtx s.here.ctx = false

/-- The bytes of a number `v` of `n` bytes, least first. -/
def bytesOf (v n : Nat) : List Byte := (List.range n).map (fun i => BitVec.ofNat 8 (v / 256 ^ i))

/-! ### Steps of the engines -/

/-- The running entry of the engine in focus went on to step `k`, `beats` beats later, and ended if that is its window's end
(R95, R292); nothing else of it changed, but that a stamped entry's first step is behind it, with the token that it removes (R347,
`State.begun`). -/
def wentOnTo (s t : State) (k : Running → Nat) (beats : Nat) : Prop :=
  (t.here.engine s.eng).run = (s.begun.here.engine s.eng).run.map (fun r => { r with
    step := k r, nextBeat := r.nextBeat.map (· + BitVec.ofNat 64 beats)
    ended := if k r = r.wend ∧ r.ended = none then some (0, k r) else r.ended })

/-- The running entry went on to its next step. -/
def steppedOn (s t : State) (beats : Nat) : Prop := wentOnTo s t (fun r => r.step + 1) beats

/-- A micro-order of the VE wrote `f i` to each active lane `i` of register `d`, by its rotated number (R211, R233), and took
one beat; every other lane and register of the VE, and everything else, is as before. -/
def lanesBecome (s t : State) (d : BitVec 5) (m : BitVec 3) (f : Nat → Nat) : Prop :=
  (∀ r i, r < 32 → i < 64 → t.here.vec.lane r i =
      if r = d.toNat ∧ s.here.vec.active m i = true then f i % 2 ^ 32 else s.here.vec.lane r i)
    ∧ steppedOn s t 1
    ∧ { t.here with vec := { t.here.vec with v := s.here.vec.v }, ve := { t.here.ve with run := s.begun.here.ve.run } } = s.begun.here
    ∧ OnlyHere s t

/-- The same, element by element: element `k` of width `w` of active lane `i` becomes `f i k`. -/
def elemsBecome (s t : State) (d : BitVec 5) (m : BitVec 3) (w : Nat) (f : Nat → Nat → Nat) : Prop :=
  ∃ g : Nat → Nat, lanesBecome s t d m g ∧ ∀ i k, i < 64 → k < 32 / w → elemOf (g i) w k = f i k % 2 ^ w

/-- A micro-order of the VE wrote mask register `d` and took one beat; everything else is as before. -/
def maskBecomes (s t : State) (d : BitVec 3) (v : Word) : Prop :=
  (∀ k, Bank.get t.here.vec.m k = if k = d.toNat then v else Bank.get s.here.vec.m k) ∧ steppedOn s t 1
    ∧ { t.here with vec := { t.here.vec with m := s.here.vec.m }, ve := { t.here.ve with run := s.begun.here.ve.run } } = s.begun.here
    ∧ OnlyHere s t

/-- The step of the engine in focus faults (R56, R213): it has no effect, its entry ends before it, and the fault becomes
pending. A stamped entry that misses at its first step has executed none: it is gone, and its token stays (R95, R348). -/
def stepFaults (s t : State) (cause : Nat) (tval : Word) : Prop :=
  { source := engSource s.eng, cause := cause, tval := tval, beat := s.dbc s.cur } ∈ t.here.pend
    ∧ (t.here.engine s.eng).run = (if s.atFirst = true ∧ cause = 0x11 then none
      else (s.begun.here.engine s.eng).run.map (fun r => { r with
        ended := some (1, r.step), loops := [], mma := none, descs := [], lines := [] }))
    ∧ (t.here.engine s.eng).flt = true ∧ t.here.vec = s.here.vec ∧ t.here.mat = s.here.mat
    ∧ (∀ r, (t.here.engine s.eng).rdE r = (s.here.engine s.eng).rdE r) ∧ OnlyHere s t

/-- No fault of the engine in focus is pending. -/
abbrev noFault (s : State) : Prop := ∀ d ∈ s.here.pend, d.source ≠ engSource s.eng

end Sys2Proof.Machine
end

