-- ==== Sys2Proof/Certificates/Slice0/Obligations.lean ====
section
/-! DEFINITION. The statements about the model. -/

open Sys2Proof Sys2Proof.Machine

/-- R63: the ALU results, on the registers' signed and unsigned readings. -/
def Obligations.AluResults : Prop := ∀ (s : State) (d a b : BitVec 5),
  let x := s.here.rd a
  let y := s.here.rd b
  let n := y.toNat % 64
  Retires s (.add d a b) d (BitVec.ofNat 64 (x.toNat + y.toNat))
  ∧ Retires s (.sub d a b) d (BitVec.ofInt 64 (x.toNat - y.toNat))
  ∧ Retires s (.addw d a b) d (BitVec.ofInt 64 (BitVec.ofNat 32 (x.toNat + y.toNat)).toInt)
  ∧ Retires s (.subw d a b) d (BitVec.ofInt 64 (BitVec.ofInt 32 (x.toNat - y.toNat)).toInt)
  ∧ Retires s (.mul d a b) d (BitVec.ofInt 64 (x.toInt * y.toInt))
  ∧ Retires s (.mulh d a b) d (BitVec.ofInt 64 (x.toInt * y.toInt / 2 ^ 64))
  ∧ Retires s (.mulhz d a b) d (BitVec.ofNat 64 (x.toNat * y.toNat / 2 ^ 64))
  ∧ (y ≠ 0 →
      Retires s (.div d a b) d (BitVec.ofInt 64 (x.toInt.tdiv y.toInt))
      ∧ Retires s (.divz d a b) d (BitVec.ofNat 64 (x.toNat / y.toNat))
      ∧ Retires s (.rem d a b) d (BitVec.ofInt 64 (x.toInt - y.toInt * x.toInt.tdiv y.toInt))
      ∧ Retires s (.remz d a b) d (BitVec.ofNat 64 (x.toNat - y.toNat * (x.toNat / y.toNat))))
  ∧ Retires s (.and d a b) d (x &&& y)
  ∧ Retires s (.or d a b) d (x ||| y)
  ∧ Retires s (.xor d a b) d (x ^^^ y)
  ∧ Retires s (.andn d a b) d (x &&& ~~~y)
  ∧ Retires s (.shl d a b) d (BitVec.ofNat 64 (x.toNat * 2 ^ n))
  ∧ Retires s (.shr d a b) d (BitVec.ofNat 64 (x.toNat / 2 ^ n))
  ∧ Retires s (.sar d a b) d (BitVec.ofInt 64 (x.toInt / 2 ^ n))
  ∧ Retires s (.min d a b) d (BitVec.ofInt 64 (Min.min x.toInt y.toInt))
  ∧ Retires s (.max d a b) d (BitVec.ofInt 64 (Max.max x.toInt y.toInt))
  ∧ Retires s (.minz d a b) d (BitVec.ofNat 64 (Min.min x.toNat y.toNat))
  ∧ Retires s (.maxz d a b) d (BitVec.ofNat 64 (Max.max x.toNat y.toNat))
  ∧ (∃ k, k ≤ 64 ∧ (∀ i, 64 - k ≤ i → i < 64 → x.getLsbD i = false) ∧ (k < 64 → x.getLsbD (63 - k) = true)
      ∧ Retires s (.clz d a) d (BitVec.ofNat 64 k))
  ∧ (∃ k, k ≤ 64 ∧ (∀ i, i < k → x.getLsbD i = false) ∧ (k < 64 → x.getLsbD k = true)
      ∧ Retires s (.ctz d a) d (BitVec.ofNat 64 k))
  ∧ Retires s (.popc d a) d (BitVec.ofNat 64 ((List.range 64).countP (fun i => x.getLsbD i)))

/-- R64: division and remainder never trap, and their edge cases. -/
def Obligations.DivisionEdgeCases : Prop := ∀ (s : State) (d a b : BitVec 5),
  (∀ i, i ∈ [Instr.div d a b, .divz d a b, .rem d a b, .remz d a b] → ∃ v, Retires s i d v)
  ∧ (s.here.rd b = 0 →
      Retires s (.div d a b) d 0xFFFFFFFFFFFFFFFF ∧ Retires s (.divz d a b) d 0xFFFFFFFFFFFFFFFF
      ∧ Retires s (.rem d a b) d (s.here.rd a) ∧ Retires s (.remz d a b) d (s.here.rd a))
  ∧ (s.here.rd a = 0x8000000000000000 → s.here.rd b = 0xFFFFFFFFFFFFFFFF →
      Retires s (.div d a b) d 0x8000000000000000 ∧ Retires s (.rem d a b) d 0)

/-- The condition of R37 and R69, on the signed and unsigned readings of two words. -/
def condition (c : BitVec 4) (x y : Word) : Prop :=
  match c.toNat with
  | 0 => x = y
  | 1 => x ≠ y
  | 2 => x.toInt < y.toInt
  | 3 => y.toInt ≤ x.toInt
  | 4 => x.toNat < y.toNat
  | 5 => y.toNat ≤ x.toNat
  | 6 => x.toInt ≤ y.toInt
  | 7 => y.toInt < x.toInt
  | 8 => x.toNat ≤ y.toNat
  | 9 => y.toNat < x.toNat
  | 10 => x &&& y ≠ 0
  | _ => x &&& y = 0

/-- R65 to R67: immediates and constants. The shift amounts are those of R63.
R68 and R71: bit fields, bit by bit, and select.
R69 and R70: compares and the predicate instructions. -/
def Obligations.ImmediatesFieldsAndPredicates : Prop :=
  (
  ∀ (s : State) (d a : BitVec 5) (imm : BitVec 16) (n : BitVec 6) (k : BitVec 2),
    let x := s.here.rd a
    Retires s (.addi d a imm) d (BitVec.ofInt 64 (x.toInt + imm.toInt))
    ∧ Retires s (.andi d a imm) d (x &&& BitVec.ofNat 64 imm.toNat)
    ∧ Retires s (.ori d a imm) d (x ||| BitVec.ofNat 64 imm.toNat)
    ∧ Retires s (.xori d a imm) d (x ^^^ BitVec.ofNat 64 imm.toNat)
    ∧ Retires s (.shli d a n) d (BitVec.ofNat 64 (x.toNat * 2 ^ n.toNat))
    ∧ Retires s (.shri d a n) d (BitVec.ofNat 64 (x.toNat / 2 ^ n.toNat))
    ∧ Retires s (.sari d a n) d (BitVec.ofInt 64 (x.toInt / 2 ^ n.toNat))
    ∧ Retires s (.movw d imm) d (BitVec.ofInt 64 imm.toInt)
    ∧ ∃ v : Word, (∀ i, i < 64 → v.getLsbD i = if i / 16 = k.toNat then imm.getLsbD (i % 16) else (s.here.rd d).getLsbD i)
        ∧ Retires s (.movk d k imm) d v)
  ∧ (
  ∀ (s : State) (d a b : BitVec 5) (pos wm1 : BitVec 6) (p : BitVec 3), pos.toNat + wm1.toNat + 1 ≤ 64 →
    let x := s.here.rd a
    let w := wm1.toNat + 1
    (∃ v : Word, (∀ i, i < 64 → v.getLsbD i = (decide (i < w) && x.getLsbD (pos.toNat + i))) ∧ Retires s (.bfx d a pos wm1) d v)
    ∧ (∃ v : Word, (∀ i, i < 64 → v.getLsbD i = x.getLsbD (pos.toNat + Min.min i wm1.toNat)) ∧ Retires s (.bfxs d a pos wm1) d v)
    ∧ (∃ v : Word, (∀ i, i < 64 → v.getLsbD i = if pos.toNat ≤ i ∧ i < pos.toNat + w then x.getLsbD (i - pos.toNat)
          else (s.here.rd d).getLsbD i) ∧ Retires s (.bfi d a pos wm1) d v)
    ∧ Retires s (.sel d a b p) d (if s.here.rdP p then x else s.here.rd b))
  ∧ (
  ∀ (s : State) (pd pa pb : BitVec 3) (c : BitVec 4) (a b : BitVec 5) (imm : BitVec 14) (v : BitVec 1),
    (c.toNat < 12 →
      (∃ r : Bool, (r = true ↔ condition c (s.here.rd a) (s.here.rd b)) ∧ RetiresP s (.cmp pd c a b) pd r)
      ∧ (∃ r : Bool, (r = true ↔ condition c (s.here.rd a) (BitVec.ofInt 64 imm.toInt)) ∧ RetiresP s (.cmpi pd c a imm) pd r))
    ∧ RetiresP s (.pand pd pa pb) pd (s.here.rdP pa && s.here.rdP pb)
    ∧ RetiresP s (.por pd pa pb) pd (s.here.rdP pa || s.here.rdP pb)
    ∧ RetiresP s (.pxor pd pa pb) pd (s.here.rdP pa != s.here.rdP pb)
    ∧ RetiresP s (.pandn pd pa pb) pd (s.here.rdP pa && !s.here.rdP pb)
    ∧ RetiresP s (.pnot pd pa) pd (!s.here.rdP pa)
    ∧ RetiresP s (.pset pd v) pd (decide (v.toNat = 1)))

/-- The target of a displacement in words (R72). -/
def wordsFrom (pc : Word) (disp : Int) : Word := BitVec.ofInt 64 (pc.toNat + 4 * disp)

/-- An address that passes the check of R30. -/
abbrev Fetchable (a : Word) : Prop := a.toNat % 4 = 0 ∧ a.toNat < 2 ^ 55

/-- R72: where each transfer goes, and what else it writes. -/
def Obligations.TransfersOfControl : Prop :=
  ∀ (s : State) (p : BitVec 3) (a d : BitVec 5) (d22 : BitVec 22) (d26 : BitVec 26) (d21 : BitVec 21),
  let pc := s.here.pc
  let dec := s.here.rd a - 1
  (s.here.rdP p = true → Fetchable (wordsFrom pc d22.toInt) →
    Completes (.br p d22) s (fun t => WentTo s t (wordsFrom pc d22.toInt) 0 0))
  ∧ (s.here.rdP p = false → Completes (.br p d22) s (fun t => WentTo s t (pc + 4) 0 0))
  ∧ (s.here.rdP p = false → Fetchable (wordsFrom pc d22.toInt) →
    Completes (.brF p d22) s (fun t => WentTo s t (wordsFrom pc d22.toInt) 0 0))
  ∧ (s.here.rdP p = true → Completes (.brF p d22) s (fun t => WentTo s t (pc + 4) 0 0))
  ∧ (Fetchable (wordsFrom pc d26.toInt) →
    Completes (.j d26) s (fun t => WentTo s t (wordsFrom pc d26.toInt) 0 0)
    ∧ Completes (.jal d26) s (fun t => WentTo s t (wordsFrom pc d26.toInt) 1 (pc + 4)))
  ∧ (Fetchable (s.here.rd a) →
    Completes (.jr a) s (fun t => WentTo s t (s.here.rd a) 0 0)
    ∧ Completes (.jalr d a) s (fun t => WentTo s t (s.here.rd a) d (pc + 4)))
  ∧ (dec ≠ 0 → Fetchable (wordsFrom pc d21.toInt) →
    Completes (.bdec a d21) s (fun t => WentTo s t (wordsFrom pc d21.toInt) a dec))
  ∧ (dec = 0 → Completes (.bdec a d21) s (fun t => WentTo s t (pc + 4) a dec))

/-- R73: a transfer to a target that fails R30 is refused and has none of its effects. -/
def Obligations.BadTargetsAreRefused : Prop :=
  ∀ (s : State) (p : BitVec 3) (a d : BitVec 5) (d22 : BitVec 22) (d26 : BitVec 26) (d21 : BitVec 21), s.here.canTrap →
  let pc := s.here.pc
  let refuses := fun (i : Instr) (target : Word) => ¬ Fetchable target → Traps s i 0x04 target
  (s.here.rdP p = true → refuses (.br p d22) (wordsFrom pc d22.toInt))
  ∧ (s.here.rdP p = false → refuses (.brF p d22) (wordsFrom pc d22.toInt))
  ∧ refuses (.j d26) (wordsFrom pc d26.toInt) ∧ refuses (.jal d26) (wordsFrom pc d26.toInt)
  ∧ refuses (.jr a) (s.here.rd a) ∧ refuses (.jalr d a) (s.here.rd a)
  ∧ (s.here.rd a - 1 ≠ 0 → refuses (.bdec a d21) (wordsFrom pc d21.toInt))
  ∧ (s.here.rdP p = false → Completes (.br p d22) s (fun t => WentTo s t (pc + 4) 0 0))
  ∧ (s.here.rdP p = true → Completes (.brF p d22) s (fun t => WentTo s t (pc + 4) 0 0))
  ∧ (s.here.rd a - 1 = 0 → Completes (.bdec a d21) s (fun t => WentTo s t (pc + 4) a 0))

/-- R74, R77, R78, R84: a load. From the own window its bytes are the home's, and for ld the own buffer's where it holds one. One
that is not performed at once, its home being another window or an access under way coming first, sends a read, an ld with the bytes
that the buffer held, and the tile goes on; when the read returns, the register receives the value, as Packets says. That the load
leaves as a packet while the sequencer goes on is the model's choice (log 79), and so is the packet's identifier (log 82). -/
def Obligations.NearLoadResults : Prop :=
  ∀ (s : State) (d base : BitVec 5) (size : BitVec 2) (z : BitVec 1) (off : BitVec 13) (u o : Nat), s.here.acquires = false →
  let a := s.here.rd base + BitVec.ofInt 64 off.toInt
  let n := 2 ^ size.toNat
  let held := (List.range n).map (fun i => FMap.get? s.here.psb (a.toNat + i))
  let home := fun i => Mem.get s.mem (nearKey s.cur o + i)
  let merged := (List.range n).map (fun i => (FMap.get? s.here.psb (a.toNat + i)).getD (home i))
  let read := fun (plain : Bool) => { packetTo s 0 s.cur u o (bytesOf 0 n) with plain := plain }
  let wait := fun (buf : List (Option Byte)) =>
    { txid := s.here.nextTx, d := d, home := u, bytes := n, zero := decide (z = 1), buf := buf : PendRead }
  (s.near s.here.ctx a n = .ok s.cur o →
    (s.atHome o n true → Completes (.ld d base size z off) s (fun t => Wrote (s.accessed o n) t d (extended merged z)))
    ∧ (s.atHome o n false → Completes (.lde d base size z off) s (fun t =>
        Wrote (s.accessed o n) t d (extended ((List.range n).map home) z))))
  ∧ (s.near s.here.ctx a n = .ok u o →
    (s.atOnce u o n true = false → Completes (.ld d base size z off) s (fun t => SentRead s t (read true) (wait held)))
    ∧ (s.atOnce u o n false = false → Completes (.lde d base size z off) s (fun t => SentRead s t (read false) (wait []))))

/-- R76: the buffer holds at most 512 granules: an st leaves no more where there were no more, and one that needs a granule not yet
in a full buffer is refused with QUEUE and the address, the buffer keeping its contents. -/
def Obligations.FullBufferRefusesAStore : Prop :=
  ∀ (s : State) (d base : BitVec 5) (size : BitVec 2) (off : BitVec 13),
  let a := s.here.rd base + BitVec.ofInt 64 off.toInt
  ((granulesOf s.here.psb).length ≤ 512 → ∀ t, exec (.st d base size off) s = .next t → (granulesOf t.here.psb).length ≤ 512)
  ∧ (s.here.canTrap → (∀ k, s.near s.here.ctx a (2 ^ size.toNat) ≠ .bad k) → (granulesOf s.here.psb).contains (a.toNat / 32) = false →
      512 ≤ (granulesOf s.here.psb).length → Traps s (.st d base size off) 0x18 a)

/-- R75: an st enters its bytes in the buffer, over what the buffer held there, and changes no home bank.
R78, R84, R85: exposed accesses to the own window. An ste stores its bytes and enters none in the buffer; dset sets the
descriptor of the line and no other; dget reads it. A home in another window is reached by a packet, one in a window whose gang is
saved by a packet that waits for it (R370); that the tile goes on meanwhile is the model's choice (log 79), and so are the packets'
identifiers (log 82).
R197: an ste.64 of a marked value to the template aperture is performed as a store, and the CE accepts the block that it names; a
check that fails is delivered behind the word, and the store stands. -/
def Obligations.StoreResults : Prop :=
  (
  ∀ (s : State) (d base : BitVec 5) (size : BitVec 2) (off : BitVec 13),
    let a := s.here.rd base + BitVec.ofInt 64 off.toInt
    let n := 2 ^ size.toNat
    (∀ k, s.near s.here.ctx a n ≠ .bad k) → ((granulesOf s.here.psb).contains (a.toNat / 32) = true ∨ (granulesOf s.here.psb).length < 512) →
    Completes (.st d base size off) s (fun t =>
      (∀ k, FMap.get? t.here.psb k = if a.toNat ≤ k ∧ k < a.toNat + n then some (byteOf (s.here.rd d) (k - a.toNat)) else FMap.get? s.here.psb k)
      ∧ t.here.pc = s.here.pc + 4 ∧ { t.here with psb := s.here.psb, pc := s.here.pc } = s.here ∧ OnlyHere s t))
  ∧ (
  ∀ (s : State) (d a b base : BitVec 5) (size : BitVec 2) (off : BitVec 13) (u o : Nat), s.here.fresh →
    let addr := s.here.rd base + BitVec.ofInt 64 off.toInt
    let n := 2 ^ size.toNat
    let next := fun (n : Nat) => { (s.accessed o n).here with pc := s.here.pc + 4 }
    let line := nearKey s.cur o / 64
    let sent := fun (t : State) (p : Packet) => t.net = s.net ++ [p] ∧ SameMem s t ∧ OtherTiles s t
      ∧ t.here = { s.here with nextTx := s.here.nextTx + 1, pc := s.here.pc + 4 } ∧ { t with tiles := s.tiles, net := s.net } = s
    (s.memOk → s.near s.here.ctx addr n = .ok s.cur o → s.atHome o n false → (size = 3 → templateOf o (s.here.rd d) = none) →
      Completes (.ste d base size off) s (fun t =>
        Stored s t (nearKey s.cur o) (bytesOf (s.here.rd d).toNat n) ∧ t.here = next n ∧ OnlyHereAndMem s t))
    ∧ (s.near s.here.ctx addr n = .ok u o → s.atOnce u o n false = false →
      ((size = 3 → templateOf o (s.here.rd d) = none) ∨ s.here.vtile ≠ addr.toNat / 2 ^ 20) →
      Completes (.ste d base size off) s (fun t => sent t (packetTo s 1 s.cur u o (bytesOf (s.here.rd d).toNat n))))
    ∧ (∀ m, s.near s.here.ctx addr n = .wait → FMap.get? (s.ctxAt s.here.ctx).tmap (addr.toNat / 2 ^ 20) = some m →
      ((size = 3 → templateOf (addr.toNat % 2 ^ 20) (s.here.rd d) = none) ∨ s.here.vtile ≠ addr.toNat / 2 ^ 20) →
      Completes (.ste d base size off) s (fun t => sent t { packetTo s 1 s.cur m.phys (addr.toNat % 2 ^ 20) (bytesOf (s.here.rd d).toNat n) with
        vt := some (addr.toNat / 2 ^ 20) }))
    ∧ (∀ i x r, s.memOk → s.ownNear s.cur addr 8 = .ok o → templateOf o (s.here.rd d) = some (i, x) → s.here.ce.cmds.length < 32 →
      s.here.reads = [] → (∀ q ∈ s.accesses s.cur, q.orders s.cur o 8 false = false) → s.stalls s.cur 1 o 8 = false →
      s.stalls s.cur 1 (64 * i) 64 = false →
      (s.storeBytes (nearKey s.cur o) (bytesOf (s.here.rd d).toNat 8)).checkBlock s.cur (64 * i) .ce (some x) false = r →
      64 ≤ i ∧ i ≤ 12287 ∧ o = 0xF80 + 8 * x
      ∧ (∀ c, r = .ok c → Completes (.ste d base 3 off) s (fun t =>
          t.here.ce.cmds = s.here.ce.cmds ++ [c] ∧ c.xb = some x ∧ t.here.pc = s.here.pc + 4 ∧ (∀ q, t.here.rd q = s.here.rd q)
          ∧ t.here.issueNo = s.here.issueNo + 1 ∧ t.here.psb = s.here.psb ∧ OtherTiles s t
          ∧ (∀ k, (t.here.xbar k).pending = (s.here.xbar k).pending + (if k = x then 1 else 0))
          ∧ (s.destPages s.cur c = [] → Stored s t (nearKey s.cur o) (bytesOf (s.here.rd d).toNat 8))))
      ∧ (∀ k v, ((r = .trap k v) ∨ (r = .illegal ∧ k = 0x13 ∧ v = nearOf s.here.vtile (64 * i))) → (∀ f ∈ s.here.pend, f.source ≠ .ce) →
          Completes (.ste d base 3 off) s (fun t => Stored s t (nearKey s.cur o) (bytesOf (s.here.rd d).toNat 8)
            ∧ { source := .ce, cause := k, tval := v, beat := s.dbc s.cur } ∈ t.here.pend
            ∧ t.here.ce.cmds = s.here.ce.cmds ∧ t.here.ce.flt = true ∧ t.here.pc = s.here.pc + 4 ∧ OnlyHereAndMem s t)))
    ∧ (s.near s.here.ctx (s.here.rd a) 1 = .ok s.cur o → s.atHome o 1 false →
      Completes (.dset a b) s (fun t =>
        (∀ l, FMap.get? t.desc l = if l = line then some ((s.here.rd b).setWidth 16) else FMap.get? s.desc l)
        ∧ SameMem s t ∧ t.here = next 1 ∧ OtherTiles s t ∧ { t with tiles := s.tiles, desc := s.desc } = s)
      ∧ Completes (.dget d a) s (fun t => Wrote (s.accessed o 1) t d (BitVec.ofNat 64 (FMap.getD 0 s.desc line).toNat)))
    ∧ (s.near s.here.ctx (s.here.rd a) 1 = .ok u o → s.atOnce u o 1 false = false →
      Completes (.dset a b) s (fun t => sent t { packetTo s 1 s.cur u o (bytesOf (s.here.rd b).toNat 2) with isDesc := true })
      ∧ Completes (.dget d a) s (fun t => SentRead s t { packetTo s 0 s.cur u o (bytesOf 0 2) with isDesc := true }
          { txid := s.here.nextTx, d := d, home := u, bytes := 2 })))

/-- The signed reading of a number of `w` bits. -/
def asSigned (w v : Nat) : Int := if v < 2 ^ (w - 1) then v else (v : Int) - 2 ^ w

/-- R82, R83: the atomics, on `w` = 32 or 64 bits: d receives the old value, memory the new one, and nothing else changes; a
cas that fails writes nothing. An atomic that is not performed at once sends its operands, and the tile goes on, which is the model's
choice (log 79), as is the packet's identifier (log 82), within the order of R84; what its home then does is said at Packets. -/
def Obligations.AtomicResults : Prop :=
  ∀ (s : State) (d a b : BitVec 5) (ord : BitVec 2) (size : BitVec 1) (u o : Nat), s.memOk → s.here.acquires = false →
  (ord.getLsbD 1 = true → s.accesses s.cur = [] ∧ s.here.reads = []) →
  let w := if size = 0 then 32 else 64
  let sends := fun (i : Instr) (op : Nat) => Completes i s (fun t => SentRead s t
    { packetTo s 0 s.cur u o (bytesOf 0 (w / 8)) with amo := some { op := op, b := (s.here.rd b).toNat, d := (s.here.rd d).toNat } }
    { txid := s.here.nextTx, d := d, home := u, bytes := w / 8, acq := ord.getLsbD 0 })
  (s.near s.here.ctx (s.here.rd a) (w / 8) = .ok u o → s.atOnce u o (w / 8) false = false →
    sends (.amoAdd d a b ord size) 0 ∧ sends (.amoAnd d a b ord size) 1 ∧ sends (.amoOr d a b ord size) 2
    ∧ sends (.amoXor d a b ord size) 3 ∧ sends (.amoMin d a b ord size) 4 ∧ sends (.amoMax d a b ord size) 5
    ∧ sends (.amoMinz d a b ord size) 6 ∧ sends (.amoMaxz d a b ord size) 7 ∧ sends (.amoSwap d a b ord size) 8
    ∧ sends (.amoCas d a b ord size) 9)
  ∧ (s.near s.here.ctx (s.here.rd a) (w / 8) = .ok s.cur o → s.atHome o (w / 8) false →
  let k := nearKey s.cur o
  let old := s.load k (w / 8)
  let x := (s.here.rd b).toNat % 2 ^ w
  let s1 := s.accessed o (w / 8)
  let does := fun (i : Instr) (new : Nat) => Completes i s (fun t =>
    Stored s t k (bytesOf new (w / 8)) ∧ Wrote { s1 with mem := t.mem } t d (BitVec.ofNat 64 old))
  does (.amoAdd d a b ord size) ((old + x) % 2 ^ w)
  ∧ does (.amoAnd d a b ord size) (old &&& x) ∧ does (.amoOr d a b ord size) (old ||| x)
  ∧ does (.amoXor d a b ord size) (old ^^^ x)
  ∧ does (.amoMin d a b ord size) (if asSigned w old ≤ asSigned w x then old else x)
  ∧ does (.amoMax d a b ord size) (if asSigned w old ≤ asSigned w x then x else old)
  ∧ does (.amoMinz d a b ord size) (Min.min old x) ∧ does (.amoMaxz d a b ord size) (Max.max old x)
  ∧ does (.amoSwap d a b ord size) x
  ∧ (old = (s.here.rd d).toNat % 2 ^ w → does (.amoCas d a b ord size) x)
  ∧ (old ≠ (s.here.rd d).toNat % 2 ^ w → Completes (.amoCas d a b ord size) s (fun t => Wrote s1 t d (BitVec.ofNat 64 old))))

/-- R18, R74, R82, R85: a near address is refused with MISALIGN_NEAR where its low bits are not those of its size, and with
NEAR_BOUNDS beyond the windows, in a virtual tile that no live task holds, or at an offset that is not backed. -/
def Obligations.NearAddressChecks : Prop :=
  ∀ (s : State) (d a b base : BitVec 5) (size : BitVec 2) (z : BitVec 1) (off : BitVec 13) (ord : BitVec 2) (sz : BitVec 1),
  s.here.canTrap → s.here.fresh → FMap.get? (s.ctxAt s.here.ctx).tmap s.here.vtile ≠ none →
  let addr := s.here.rd base + BitVec.ofInt 64 off.toInt
  let n := 2 ^ size.toNat
  let w := if sz = 0 then 4 else 8
  let bounds := fun (x : Word) => 2 ^ 33 ≤ x.toNat
  let hole := fun (x : Word) =>
    FMap.get? (s.ctxAt s.here.ctx).tmap (x.toNat / 2 ^ 20) = none ∨ 0xC0000 ≤ x.toNat % 2 ^ 20
  let cause := fun (x : Word) (n k : Nat) =>
    (bounds x ∧ k = 0x03) ∨ (¬ bounds x ∧ x.toNat % n ≠ 0 ∧ k = 0x02) ∨ (¬ bounds x ∧ x.toNat % n = 0 ∧ hole x ∧ k = 0x03)
  (∀ k, cause addr n k → ∀ i, i ∈ [Instr.ld d base size z off, .lde d base size z off, .st d base size off, .ste d base size off] →
    Traps s i k addr)
  ∧ (∀ k, cause (s.here.rd a) w k → ∀ i, i ∈ [Instr.amoAdd d a b ord sz, .amoAnd d a b ord sz, .amoOr d a b ord sz,
      .amoXor d a b ord sz, .amoMin d a b ord sz, .amoMax d a b ord sz, .amoMinz d a b ord sz, .amoMaxz d a b ord sz,
      .amoSwap d a b ord sz, .amoCas d a b ord sz] → Traps s i k (s.here.rd a))
  ∧ (∀ k, cause (s.here.rd a) 1 k → Traps s (.dset a b) k (s.here.rd a) ∧ Traps s (.dget d a) k (s.here.rd a))

/-- R87 to R90: phases, barriers and fences of a tile whose phase group is itself. A phase commits the buffer into the home
banks, a byte in a window that no live task holds being dropped, and empties it; bar and bara commit nothing; each counts one
arrival and one completion at its scope alone. barw goes on with no bara outstanding, and fence once the tile's accesses and reads
homed in the unit of its scope are done. That the instance completes in the turn of its last arrival is the model's choice (log 71). -/
def Obligations.BarriersOfOneTile : Prop := ∀ (s : State) (scope : BitVec 4) (n : Nat),
  let k := scope.toNat
  let counted := { s.here with
    arr := FMap.set s.here.arr k (FMap.getD 0 s.here.arr k + 1), comp := FMap.set s.here.comp k (FMap.getD 0 s.here.comp k + 1)
    pc := s.here.pc + 4 }
  (s.ok → s.alone n → s.late = false → s.here.wait = none → (∀ p ∈ s.accesses s.cur, p.plain = true) → (∀ e ∈ s.here.out, e.1 ≠ k) →
    ((∀ g ∈ granulesOf s.here.psb, s.commitReady s.cur s.here.ctx g = true) →
      Completes (.phase scope) s (fun t =>
        (∀ j, Mem.get t.mem j = match s.here.psb.reverse.find? (fun e => s.homeKey s.here.ctx e.1 = some j) with
          | some e => e.2
          | none => Mem.get s.mem j)
        ∧ t.here = { counted with psb := [], banks := t.here.banks } ∧ (∀ u, u ≠ s.cur → SameButBanks (s.tile u) (t.tile u))
        ∧ { t with tiles := s.tiles, mem := s.mem } = s))
    ∧ Completes (.bar scope) s (fun t => t.here = counted ∧ OnlyHere s t)
    ∧ Completes (.bara scope) s (fun t => t.here = counted ∧ OnlyHere s t))
  ∧ (s.here.wait = none → (∀ e ∈ s.here.out, ¬ (e.1 = k ∧ e.2.1 = .bara)) →
    Completes (.barw scope) s (fun t => Becomes s t s.here))
  ∧ ((∀ p ∈ s.accesses s.cur, sameUnit k s.cur p.dst = false) → (∀ r ∈ s.here.reads, sameUnit k s.cur r.home = false) →
    Completes (.fence scope) s (fun t => Becomes s t s.here))

/-- R87, R88, R89: a barrier instance completes once every member has arrived and the accesses that the member made before its
arrival can be performed. None of those is outstanding after it, each member that arrived by phase has an empty buffer, and each member that waits is resumed; no
tile outside the group changes, but for the banks of which a committed byte takes one (R349). Before that nothing happens. The
accesses and the commit of one granule may also take place before the rest (R149; the turns are the model's choice, log 71). -/
def Obligations.BarrierCompletion : Prop := ∀ (s : State),
  let k := s.arg.n
  let g := (s.group s.cur k).filter (fun m => !m.2.fin)
  (s.barrierReady s.cur k = false → Completes .barrierCompletion s (fun t => t = s))
  ∧ (s.ok → s.arg.point = none → s.barrierReady s.cur k = true → Completes .barrierCompletion s (fun t =>
      (∀ m ∈ g, (∀ p ∈ t.net, ∀ a, m.2.arrivalOf k = some a → ¬ (p.kind < 2 ∧ p.src = m.1 ∧ p.plain = false ∧ p.txid < a.2))
        ∧ (t.tile m.1).psb = (if m.2.arrival k = some .phase then [] else m.2.psb)
        ∧ FMap.getD 0 (t.tile m.1).comp k = FMap.getD 0 m.2.comp k + 1
        ∧ (m.2.wait = some k → (m.2.arrival k = some .phase ∨ m.2.arrival k = some .bar) →
            (t.tile m.1).wait = none ∧ (t.tile m.1).pc = m.2.pc + 4))
      ∧ (∀ u, (∀ m ∈ g, u ≠ m.1) → SameButBanks (s.tile u) (t.tile u))
      ∧ { t with tiles := s.tiles, mem := s.mem, desc := s.desc, net := s.net } = s))
  ∧ (∀ gr, s.ok → s.arg.point = some gr → s.barrierReady s.cur k = true → Completes .barrierCompletion s (fun t =>
      (∀ m ∈ g, (∀ p ∈ t.net, ∀ a, m.2.arrivalOf k = some a → ¬ (p.kind < 2 ∧ p.src = m.1 ∧ p.plain = false ∧ p.txid < a.2)))
      ∧ (∀ u, SameButBanks { s.tile u with psb := (t.tile u).psb } (t.tile u)
          ∧ ((t.tile u).psb = (s.tile u).psb ∨ (t.tile u).psb = (s.tile u).psb.filter (fun b => decide (b.1 / 32 ≠ gr))))
      ∧ { t with tiles := s.tiles, mem := s.mem, desc := s.desc, net := s.net } = s))
  ∧ (∀ p, s.arrivedAt s.arg.n 9 = some p →
    Completes .barrierMessage s (fun t => t = { s with net := dropAt s.net s.arg.n }))

/-- The capability slots of the current tile read as before but for slot `c`, which holds `h`; the tile moved to the next word,
and no other register of it changed but s register `d`, which received `v` (nothing where `d` is s0). -/
def slotSet (s t : State) (c : BitVec 6) (h : Word) (d : BitVec 5) (v : Word) : Prop :=
  (∀ k, t.here.cap k = if k = c.toNat then h else s.here.cap k) ∧ (∀ r, t.here.rd r = if r = d ∧ d ≠ 0 then v else s.here.rd r)
    ∧ t.here.pc = s.here.pc + 4 ∧ { t.here with caps := s.here.caps, s := s.here.s, pc := s.here.pc } = s.here
    ∧ OtherTiles s t

/-- R117, R118: reading, duplicating and dropping a handle, with the reference counts.
R118, R334: narrowing, putting in transit and redeeming a handle; each transit allows exactly one redemption. -/
def Obligations.HandleInstructions : Prop :=
  (
  ∀ (s : State) (d : BitVec 5) (c c2 : BitVec 6),
    let h := s.here.cap c.toNat
    let a := accOf h
    let h2 := s.here.cap c2.toNat
    let a2 := accOf h2
    Retires s (.capq d c) d h
    ∧ (s.slotUse c2 (some 4) = none →
        (c = c2 → Completes (.capdup c c2) s (fun t => Becomes s t s.here))
        ∧ (c ≠ c2 → h = 0 → (s.buf a2).count < 2 ^ 32 - 1 → Completes (.capdup c c2) s (fun t =>
            slotSet s t c h2 0 0 ∧ t.buf a2 = { s.buf a2 with count := (s.buf a2).count + 1 }
            ∧ (∀ b, b ≠ a2 → t.buf b = s.buf b) ∧ { t with tiles := s.tiles, bufs := s.bufs } = s))
        ∧ (c ≠ c2 → a ≠ a2 → (s.buf a2).count < 2 ^ 32 - 1 → (s.buf a).live = true → 1 < (s.buf a).count →
            h ≠ 0 → Completes (.capdup c c2) s (fun t =>
              slotSet s t c h2 0 0 ∧ t.buf a2 = { s.buf a2 with count := (s.buf a2).count + 1 }
              ∧ (t.buf a).count = (s.buf a).count - 1 ∧ (t.buf a).live = true ∧ SameMem s t)))
    ∧ (s.slotUse c none = none →
        (1 < (s.buf a).count → Completes (.capdrop c) s (fun t =>
          slotSet s t c 0 0 0 ∧ (t.buf a).count = (s.buf a).count - 1 ∧ (t.buf a).live = true ∧ SameMem s t))
        ∧ ((s.buf a).count = 1 → Completes (.capdrop c) s (fun t =>
          slotSet s t c 0 0 0 ∧ (t.buf a).count = 0 ∧ (t.buf a).live = false ∧ (t.buf a).gen = (s.buf a).gen + 1))))
  ∧ (
  ∀ (s : State) (d b : BitVec 5) (c : BitVec 6),
    let h := s.here.cap c.toNat
    let a := accOf h
    let given := s.here.rd b
    let moves := (s.ctxAt s.here.ctx).transit
    (s.slotUse c (some 5) = none → 0 < (s.buf a).count → Completes (.capnrw c b) s (fun t =>
        slotSet s t c (handleOf a (genOf h) ((h.toNat / 2 ^ 48) &&& (given.toNat % 256))) 0 0
        ∧ (t.buf a).count = (s.buf a).count ∧ (t.buf a).live = true ∧ SameMem s t))
    ∧ (s.slotUse c (some 3) = none → Completes (.capxfer d c) s (fun t =>
        slotSet s t c 0 d h ∧ (t.ctxAt s.here.ctx).transit = h :: moves
        ∧ (∀ x, x ≠ s.here.ctx → t.ctxAt x = s.ctxAt x) ∧ { t with tiles := s.tiles, ctxs := s.ctxs, nodes := s.nodes } = s))
    ∧ (h = 0 → s.fresh? s.here.ctx given = true → given ∈ moves → Completes (.caprt c b) s (fun t =>
        slotSet s t c given 0 0 ∧ (t.ctxAt s.here.ctx).transit.count given + 1 = moves.count given
        ∧ (∀ g, g ≠ given → (t.ctxAt s.here.ctx).transit.count g = moves.count g)
        ∧ { t with tiles := s.tiles, ctxs := s.ctxs, nodes := s.nodes } = s)))

/-- R117, R118: an empty slot, a stale handle or a missing right is a trap with the slot number, and so is an occupied slot
of capnew or caprt, a size that capnew does not take (judged before its slot, log 15), and a handle that is not in transit. -/
def Obligations.HandleTraps : Prop := ∀ (s : State) (d b : BitVec 5) (c c2 : BitVec 6), s.here.canTrap → s.here.fresh →
  let h := s.here.cap c.toNat
  let bad := fun (h : Word) (right : Option Nat) (k : Nat) =>
    (h = 0 ∧ k = 0x08) ∨ (h ≠ 0 ∧ s.fresh? s.here.ctx h = false ∧ k = 0x0B)
      ∨ (h ≠ 0 ∧ s.fresh? s.here.ctx h = true ∧ (∃ r, right = some r ∧ hasRight h r = false) ∧ k = 0x09)
  let slot := BitVec.ofNat 64 c.toNat
  (∀ k, bad (s.here.cap c2.toNat) (some 4) k → Traps s (.capdup c c2) k (BitVec.ofNat 64 c2.toNat))
  ∧ (∀ k, bad h none k → Traps s (.capdrop c) k slot)
  ∧ (∀ k, bad h (some 2) k → Traps s (.cappub c) k slot)
  ∧ (∀ k, bad h (some 5) k → Traps s (.capnrw c b) k slot)
  ∧ (∀ k, bad h (some 3) k → Traps s (.capxfer d c) k slot)
  ∧ (((s.here.rd b).toNat = 0 ∨ 2 ^ 40 < (s.here.rd b).toNat) → Traps s (.capnew d c b) 0x0A slot)
  ∧ (h ≠ 0 → (1 ≤ (s.here.rd b).toNat ∧ (s.here.rd b).toNat ≤ 2 ^ 40 → Traps s (.capnew d c b) 0x09 slot) ∧ Traps s (.caprt c b) 0x09 slot)
  ∧ (h = 0 → (s.fresh? s.here.ctx (s.here.rd b) = false ∨ s.here.rd b ∉ (s.ctxAt s.here.ctx).transit) →
      Traps s (.caprt c b) 0x0B slot)

/-- R118, R243: capnew makes a buffer of the size asked, with all rights and a count of 1, of a free accession number, or says
that it has none and changes nothing else. Which number, place and frames it takes is open (log 2). -/
def Obligations.NewBuffers : Prop := ∀ (s : State) (d b : BitVec 5) (c : BitVec 6),
  let size := (s.here.rd b).toNat
  let n := (size + 0xFFFF) / 0x10000
  let key := ((s.ctxAt s.here.ctx).iodReg 0x070).toNat / 256 % 256
  s.here.cap c.toNat = 0 → 0 < size → size ≤ 2 ^ 40 →
  (s.freeAcc = none → Retires s (.capnew d c b) d 1)
  ∧ (∀ a, s.freeAcc = some a → s.picked.arenaPlace s.here.ctx (n * 0x10000) = none → Retires s (.capnew d c b) d 1)
  ∧ (∀ a s1 v, s.freeAcc = some a → s.picked.arenaPlace s.here.ctx (n * 0x10000) = some (s1, v) →
      (s1.mapPages s.here.ctx key (v / 2 ^ 16) n = none → Retires s (.capnew d c b) d 1)
      ∧ (∀ s2, s1.mapPages s.here.ctx key (v / 2 ^ 16) n = some s2 → Completes (.capnew d c b) s (fun t =>
          (s.buf a).live = false ∧ 1 ≤ a ∧ a < 2 ^ 32
          ∧ slotSet s t c (handleOf a (s.buf a).gen 63) d 0
          ∧ t.buf a = { gen := (s.buf a).gen, vgen := (s.buf a).vgen, live := true, ctx := s.here.ctx, size := size, vbase := v, count := 1 }
          ∧ (∀ x, x ≠ a → t.buf x = s.buf x) ∧ { t with tiles := s2.tiles, bufs := s2.bufs } = s2)))

/-- R119, R157, R260, R261: cappub asks for a swap of the buffer and goes on once it has been performed; the swap waits for
the commands that it awaits, in this package and in others, makes the shadows the view with the next view generation, and leaves
none; replaced frames are kept while a bound view still reads them. With nothing written and nothing awaited, the cappub, its swap and
its return follow one another, and the word is done. -/
def Obligations.Publication : Prop := ∀ (s : State) (c : BitVec 6),
  let a := accOf (s.here.cap c.toNat)
  let b := s.arg.n
  (s.here.ret.isSome = true → Completes (.cappub c) s (fun t => Becomes s t { s.here with ret := none, sent := false }))
  ∧ (s.here.ret = none → s.here.sent = false → s.slotUse c (some 2) = none → (s.buf a).swapping = none →
      Completes (.cappub c) s (fun t => (t.buf a).swapping = some s.cur ∧ t.here.pc = s.here.pc ∧ SameMem s t
        ∧ (∀ x ∈ t.allCmds, x.writes a = true → a ∈ x.awaited)))
  ∧ (∀ u t', (s.buf b).swapping = some u → (∀ x ∈ s.allCmds, b ∉ x.awaited) →
      (∀ y ∈ (s.buf b).binds, y.awaited = false) → s.swap b = some t' →
      Completes .pageSwap s (fun t => (t.tile u).ret = some 0 ∧ (∀ x, x ≠ u → t.tile x = s.tile x)
        ∧ (t.buf b).shadow = [] ∧ (t.buf b).staged = [] ∧ (t.buf b).stage = [] ∧ (t.buf b).swapping = none ∧ (t.buf b).vgen = (s.buf b).vgen + 1))
  ∧ (s.here.ret = none → s.here.sent = false → s.slotUse c (some 2) = none → (s.buf a).swapping = none → (s.buf a).shadow = [] →
      (s.buf a).staged = [] → (∀ x ∈ s.allCmds, x.writes a = false ∧ a ∉ x.awaited) → (∀ y ∈ (s.buf a).binds, y.writes = false) →
      Completes (.cappub c) s (fun t1 => Completes .pageSwap { t1 with arg := { n := a } } (fun t2 => Completes (.cappub c) t2 (fun t =>
        t.here = { s.here with pc := s.here.pc + 4 } ∧ (t.buf a).vgen = (s.buf a).vgen + 1 ∧ (t.buf a).swapping = none ∧ OtherTiles s t))))
  ∧ Completes .frameRelease s (fun t =>
      (t.buf b).old = (s.buf b).old.filter (fun o => (s.boundViews b).any (fun v => decide (v ≤ o.vgen)))
      ∧ { t.buf b with old := (s.buf b).old } = s.buf b ∧ t.tiles = s.tiles)

/-- Engine `e` of the current tile becomes `g`; the tile took an issue number where `no` is 1 and moved to the next word; no
other engine, register or part of the package changed. -/
def engineBecomes (s t : State) (e : Eng) (g : Engine) (no : Nat) : Prop :=
  t.here = { s.here.setEngine e g with issueNo := s.here.issueNo + no, pc := s.here.pc + 4 } ∧ OnlyHere s t

/-- R93 to R96, R336: erun, eset and ekld place an entry at the end of their engine's queue, with the next issue number; erun's
takes the latched footprint record and clears the latch, and a beat already past is a SCHEDULE_MISS (R347). fpr latches. -/
def Obligations.EngineEntriesQueued : Prop :=
  ∀ (s : State) (n : BitVec 1) (a b c : BitVec 5) (flags : BitVec 4) (off : Nat) (fp : Footprint),
  s.noEngine n = false →
  let e := if n = 0 then Eng.ve else .xe
  let g := s.here.engine e
  let va := s.here.rd a
  let vb := s.here.rd b
  let vc := s.here.rd c
  let no := s.here.issueNo
  let stamped := flags.getLsbD 2
  let queued := fun (q : Entry) => { g with queue := g.queue ++ [q] }
  (g.queue.length < 16 → s.ownNear s.cur va 4 = .ok off → vb.toNat + vc.toNat ≤ 65536 → s.latched g = .ok fp →
    ((stamped = true → (s.dbc s.cur).toNat ≤ s.here.stamp.toNat) →
      Completes (.erun n a b c flags) s (fun t => engineBecomes s t e { queued {
        no := no, kind := .run off vb.toNat vc.toNat, fp := fp, pop := flags.getLsbD 0, push := flags.getLsbD 1
        reply := flags.getLsbD 3, stamp := if stamped then some s.here.stamp else none, rec_ := g.latch } with latch := none } 1))
    ∧ (s.here.canTrap → stamped = true → s.here.stamp.toNat < (s.dbc s.cur).toNat →
        Traps s (.erun n a b c flags) 0x11 s.here.stamp))
  ∧ (g.queue.length < 16 → Completes (.eset n a c) s (fun t =>
      engineBecomes s t e (queued { no := no, kind := .eset c.toNat va }) 1))
  ∧ (g.queue.length < 16 → s.ownNear s.cur va 4 = .ok off → off + 4 * vc.toNat ≤ 0xC0000 → vc.toNat ≤ 256 →
      Completes (.ekld n a b c) s (fun t => engineBecomes s t e (queued {
        no := no, kind := .ekld off (vb.toNat % 256) vc.toNat
        fp := { rd := if vc = 0 then [] else [(off / 32, (off + 4 * vc.toNat + 31) / 32 - off / 32)] } }) 1))
  ∧ ((∀ k, s.near s.here.ctx va 8 ≠ .bad k) → (∀ k, s.near s.here.ctx (va + 16) 8 ≠ .bad k) →
      Completes (.fpr n a) s (fun t => engineBecomes s t e { g with latch := some va.toNat } 0))

/-- R93, R94, R97, R98: eget reads a register of an idle engine, ewait goes on when the engine is idle, estat reads the status word.
eprg places an entry, which acts on the entry that runs, clearing q and the loops (R234): at once at a step boundary, else when the
micro-order in progress is done, and it completes then, which sets the event latch (R106). That it acts in its own word ahead of what is
queued, waits for the last chunk of an MMA, and stays as an entry when none runs or the entry has ended, is the model's choice (log 28).
On a tile without a class engine its ENG words trap (R35), ewait goes on, estat reads 0.
R97: estop discards the queued entries and stops the running one before its next step, whose index it returns (all ones when
none runs), an MMA finishing its chunk first, and a class engine the tensor updates of its drains (R152); each that asks gives one reply. On a command engine it discards the commands that have
not started, each signalling its barrier and replying where it asks to, and returns how many. -/
def Obligations.EngineControlAndStop : Prop :=
  (
  ∀ (s : State) (n : BitVec 1) (m : BitVec 2) (a b c : BitVec 5) (flags : BitVec 4) (off : Nat),
    let e := if n = 0 then Eng.ve else .xe
    let g := s.here.engine e
    let vb := (s.here.rd b).toNat
    let vc := (s.here.rd c).toNat
    (s.noEngine n = false → g.queue = [] → g.run = none →
        Retires s (.eget n a c) a (if c = 0 then 0 else Bank.get g.e c.toNat))
    ∧ ((m = 2 → s.here.ve.queue = [] ∧ s.here.ve.run = none) → (m = 3 → noXe s.cur = true ∨ s.here.xe.queue = [] ∧ s.here.xe.run = none ∧ s.here.mat.tensor = []) →
        (m = 0 → s.here.ce.cmds = [] ∧ s.here.ce.chain = none ∧ s.here.ce.chainLast = none) →
        (m = 1 → s.here.ie.cmds = [] ∧ s.here.ie.chain = none ∧ s.here.ie.chainLast = none) →
        Completes (.ewait m) s (fun t => Becomes s t s.here))
    ∧ (∀ g' : Engine, (m = 2 ∧ g' = s.here.ve) ∨ (m = 3 ∧ noXe s.cur = false ∧ g' = s.here.xe) →
        Retires s (.estat m a) a (BitVec.ofNat 64 ((match g'.run with | some r => r.step % 2 ^ 16 | none => 0) * 2 ^ 16
          + (if g'.flt then 512 else 0) + (if g'.run = none then 0 else 256) + g'.queue.length % 256)))
    ∧ (∀ g' : CmdEngine, (m = 0 ∧ g' = s.here.ce) ∨ (m = 1 ∧ g' = s.here.ie) →
        Retires s (.estat m a) a (BitVec.ofNat 64 ((if g'.cmds.any (fun x => x.park.isSome) then 1024 else 0)
          + (if g'.flt then 512 else 0) + (if g'.cmds.any (·.begun) then 256 else 0)
          + (g'.cmds.filter (fun x => !x.begun && !x.popped)).length % 256)))
    ∧ (s.noEngine n = false → g.queue.length < 16 → s.ownNear s.cur (s.here.rd a) 4 = .ok off → vb + vc ≤ 65536 →
        (∀ q ∈ g.queue, ∀ no, q.rebases no = false) →
        let places := fun (target : Option Nat) => Completes (.eprg n a b c) s (fun t =>
          engineBecomes s t e { g with queue := g.queue ++ [{ no := s.here.issueNo, kind := .eprg off vb vc target }] } 1)
        (∀ r, g.run = some r → r.ended = none → r.mma = none → Completes (.eprg n a b c) s (fun t =>
          t.here = { s.here.setEngine e { g with q := 0, run := some { r with
              base := off, step := vb, wend := vb + vc, loops := [], descs := [], lines := [], slots := 0, written := []
              ended := if vc = 0 then some (0, vb) else none } } with
            issueNo := s.here.issueNo + 1, pc := s.here.pc + 4, evLatch := true } ∧ OnlyHere s t))
        ∧ (∀ r, g.run = some r → r.ended = none → r.mma ≠ none → places (some r.entry.no))
        ∧ ((g.run = none ∨ ∃ r, g.run = some r ∧ r.ended ≠ none) → places none))
    ∧ (s.here.canTrap → s.noEngine n = true → ∀ i, i ∈ [Instr.erun n a b c flags, .eset n a c, .eget n a c, .ekld n a b c,
        .eprg n a b c, .fpr n a] → Traps s i 0x13 (s.here.rd a))
    ∧ (noXe s.cur = true → Retires s (.estat 3 a) a 0))
  ∧ (
  ∀ (s : State) (m : BitVec 2) (a : BitVec 5),
    let stops := fun (e : Eng) => Completes (.estop m a) s (fun t =>
      let g := s.here.engine e
      let cut := match g.run with | some r => r.ended = none | none => False
      (t.here.engine e).queue = [] ∧ (cut → (t.here.engine e).run = none) ∧ (¬ cut → (t.here.engine e).run = g.run)
      ∧ (∀ r, g.run = some r → r.ended = none → a ≠ 0 → t.here.rd a = BitVec.ofNat 64 r.step)
      ∧ (¬ cut → a ≠ 0 → t.here.rd a = 0xFFFFFFFFFFFFFFFF) ∧ (∀ r, r ≠ a → t.here.rd r = s.here.rd r)
      ∧ t.here.rq.length + t.here.rqHeld.length = s.here.rq.length + s.here.rqHeld.length
          + (g.queue.filter (·.reply)).length + (match g.run with | some r => if r.ended = none ∧ r.entry.reply then 1 else 0 | none => 0)
      ∧ { t.here.setEngine e g with s := s.here.s, pc := s.here.pc, rq := s.here.rq, rqHeld := s.here.rqHeld, evLatch := s.here.evLatch } = s.here
      ∧ t.here.pc = s.here.pc + 4 ∧ OnlyHere s t)
    let drops := fun (e : CEng) => Completes (.estop m a) s (fun t =>
      let begun := fun (c : Cmd) => c.begun || c.popped
      let g := s.here.cengine e
      let gone := g.cmds.filter (fun c => !begun c)
      (t.here.cengine e).cmds = g.cmds.filter begun ∧ (t.here.cengine e).chain = none
      ∧ (a ≠ 0 → t.here.rd a = BitVec.ofNat 64 gone.length) ∧ (∀ r, r ≠ a → t.here.rd r = s.here.rd r)
      ∧ (∀ n, let k := gone.countP (fun c => decide (c.xb = some n))
          t.here.xbar n = { pending := (s.here.xbar n).pending - k
                            status := if k = 0 then (s.here.xbar n).status else Max.max (s.here.xbar n).status 3 })
      ∧ t.here.rq.length + t.here.rqHeld.length = s.here.rq.length + s.here.rqHeld.length + gone.countP (fun c => bitN (c.byte 1) 4)
      ∧ { t.here.setCengine e g with
          s := s.here.s, pc := s.here.pc, rq := s.here.rq, rqHeld := s.here.rqHeld, evLatch := s.here.evLatch, xb := s.here.xb } = s.here
      ∧ t.here.pc = s.here.pc + 4 ∧ OtherTiles s t ∧ ((∀ c ∈ gone, c.refs = []) → OnlyHere s t))
    (m = 2 → stops .ve) ∧ (m = 3 → noXe s.cur = false → s.here.xe.inChunk = false → s.here.mat.tensor = [] → stops .xe) ∧ (m = 0 → drops .ce) ∧ (m = 1 → drops .ie)
    ∧ (m = 3 → noXe s.cur = true → Retires s (.estop m a) a 0xFFFFFFFFFFFFFFFF))

/-- R94 to R96, R338, R343, R345: the head entry of a free engine begins once its token is there and the range checker lets it; one that
pops its token has its footprint record as it stands then.
R95, R106, R147, R152, R186, R347, R348, R350: an ended entry gives its token and its reply and leaves; a stamped one begins on its
beat, keeping its token until its first step, or misses, with WHY 1 where it is not the first, 2 where its token is absent, and 3 where
the range checker holds it; the watchdog ends an entry that has run for 2^22 beats, and one that has held its completion for as long
(R350, R361), leaving the queue as it was, which is the model's choice (log 20). An eprg that reaches the head, its entry
gone, completes without effect, which is the model's choice too (log 28). -/
def Obligations.EngineEntries : Prop :=
  (
  ∀ (s : State) (q0 q : Entry) (rest : List Entry),
    let e := s.eng
    let g := s.here.engine e
    (∀ a fp, q0.pop = true → q0.rec_ = some a → s.recordAt s.cur a = .ok fp → s.freshRecord s.cur q0 = some { q0 with fp := fp })
    ∧ ((q0.pop = false ∨ q0.rec_ = none) → s.freshRecord s.cur q0 = some q0) ∧
    (g.run = none → g.queue = q0 :: rest → s.freshRecord s.cur q0 = some q → q.stamp = none → g.flt = false → s.held s.cur = false → s.here.tokenReady q = true →
    s.here.mayBegin q.no q.fp = true → s.entryStalls s.cur q = false →
    (∀ base start count, q.kind = .run base start count → Completes .engineEntryStart s (fun t =>
      (t.here.engine e).run = some { entry := q, base := base, step := start, wend := start + count, startBeat := s.dbc s.cur
                                     ended := if count = 0 then some (0, start) else none }
      ∧ (t.here.engine e).queue = rest ∧ (t.here.engine e).q = 0
      ∧ t.here.lcTok = s.here.lcTok - (if q.pop then 1 else 0)
      ∧ (∀ r, (t.here.engine e).rdE r = g.rdE r) ∧ OnlyHere s t))
    ∧ (∀ r v, q.kind = .eset r v → r < 32 → Completes .engineEntryStart s (fun t =>
      (∀ k : BitVec 5, (t.here.engine e).rdE k = if k.toNat = r ∧ r ≠ 0 then v else g.rdE k)
      ∧ (t.here.engine e).queue = rest ∧ (t.here.engine e).run = none ∧ t.here.evLatch = true ∧ OnlyHere s t))
    ∧ (∀ src first n, q.kind = .ekld src first n → n ≤ 256 → Completes .engineEntryStart s (fun t =>
      (∀ i, i < n → Bank.get (t.here.engine e).cb ((first + i) % 256) = BitVec.ofNat 32 (s.load (nearKey s.cur (src + 4 * i)) 4))
      ∧ (∀ k, (∀ i, i < n → k ≠ (first + i) % 256) → Bank.get (t.here.engine e).cb k = Bank.get g.cb k)
      ∧ (t.here.engine e).queue = rest ∧ (t.here.engine e).run = none ∧ t.here.evLatch = true ∧ OnlyHere s t))
    ∧ (∀ base start count target, q.kind = .eprg base start count target → Completes .engineEntryStart s (fun t =>
      t.here = { s.here.setEngine e { g with queue := rest } with evLatch := true } ∧ OnlyHere s t))))
  ∧ (
  ∀ (s : State) (r : Running) (st val : Nat) (q q' : Entry) (b : Word),
    let e := s.eng
    let g := s.here.engine e
    let now := s.dbc s.cur
    let push := r.entry.push = true ∧ st = 0
    (g.run = some r → r.ended = some (st, val) →
      (e = .xe → s.here.mat.tensor = [] ∧ ∀ d ∈ s.here.mat.drains, d.done.toNat ≤ now.toNat) →
      (push → s.here.csTok < 8) →
      (r.entry.reply = true → s.here.rq.length < 32 ∧ s.replyBefore s.cur (if e = .ve then 3 else 4) = false) →
      Completes .engineEntryComplete s (fun t =>
        t.here = { s.here.setEngine e { g with run := none } with
          csTok := s.here.csTok + (if push then 1 else 0), evLatch := true
          rq := if r.entry.reply then s.here.rq ++ [replyWord (if e = .ve then 3 else 4) st 0 (val % 2 ^ 17)] else s.here.rq
          mat := if e = .xe then { s.here.mat with drains := [] } else s.here.mat } ∧ OnlyHere s t))
    ∧ (g.flt = false → s.held s.cur = false → g.queue.find? (fun k => decide (k.no = s.arg.n)) = some q → q.stamp = some b → b.toNat ≤ now.toNat →
        let first := now = b ∧ g.run = none ∧ g.queue.head? = some q
        let token := s.here.tokenReady q = true
        let record := s.freshRecord s.cur q = some q'
        let misses := fun (why : Nat) => (∀ d ∈ s.here.pend, d.source ≠ engSource e) → Completes .stampBeat s (fun t =>
            { source := engSource e, cause := 0x11, tval := BitVec.ofNat 64 (2 ^ 63 + why * 2 ^ 16 + q.start % 2 ^ 16), beat := now } ∈ t.here.pend
            ∧ (t.here.engine e).queue = g.queue.filter (fun k => decide (k.no ≠ q.no)) ∧ (t.here.engine e).run = g.run
            ∧ (t.here.engine e).flt = true ∧ t.here.rq = s.here.rq ∧ t.here.csTok = s.here.csTok ∧ t.here.lcTok = s.here.lcTok
            ∧ OnlyHere s t)
        (first → token → record → s.here.mayBegin q'.no q'.fp = true →
          ∀ base start count, q.kind = .run base start count → Completes .stampBeat s (fun t =>
            (∃ r', (t.here.engine e).run = some r' ∧ r'.entry = q' ∧ r'.step = start ∧ r'.nextBeat = some b
              ∧ (0 < count → r'.first = true ∧ r'.owes = q'.pop))
            ∧ (0 < count → t.here.lcTok = s.here.lcTok) ∧ (t.here.engine e).queue = g.queue.drop 1 ∧ OnlyHere s t))
        ∧ ((now ≠ b ∨ g.run ≠ none) → misses 1) ∧ (first → ¬ token → misses 2)
        ∧ (first → token → record → s.here.mayBegin q'.no q'.fp = false → misses 3))
    ∧ (g.run = some r → r.ended.map (·.1) ≠ some 1 → 2 ^ 22 ≤ (now - r.startBeat).toNat → noFault s →
        Completes .engineWatchdog s (fun t => stepFaults s t 0x16 (BitVec.ofNat 64 r.step) ∧ (t.here.engine e).queue = g.queue)))

/-- What accepting command `c` leaves (R99, R101, R336): it stands last in its engine's queue, an issue number is taken, its
barrier counts one more, and every buffer that it names has one reference more (R264). -/
def accepted (s t : State) (e : CEng) (c : Cmd) : Prop :=
  (t.here.cengine e).cmds = (s.here.cengine e).cmds ++ [c] ∧ t.here.issueNo = s.here.issueNo + 1
    ∧ (∀ n, (t.here.xbar n).pending = (s.here.xbar n).pending + (if c.xb = some n then 1 else 0))
    ∧ (∀ n, (t.here.xbar n).status = (s.here.xbar n).status)
    ∧ (∀ a, (t.buf a).count = (s.buf a).count + (if c.caps.any (fun y => decide (accOf y.2.1 = a)) then 1 else 0))
    ∧ OtherTiles s t ∧ (s.destPages s.cur c = [] → SameMem s t)

/-- R99, R100, R208: cpy and idx check the block at s[a] and accept it; d receives 0, or the promised beat, which idx never gives. A
check that fails is a trap, and a block that its engine does not take is delivered as ENGINE_ILLEGAL, where d := 0 and going on is the
model's choice (log 24). A block that names buffers of other packages waits until their owners have answered its binds (R382). -/
def Obligations.CommandsIssued : Prop := ∀ (s : State) (a d : BitVec 5) (xb : BitVec 4) (e : CEng) (off : Nat),
  let i := match e with | .ce => Instr.cpy a d xb | .ie => .idx a d xb
  let addr := s.here.rd a
  let src := match e with | .ce => Source.ce | .ie => .ie
  (s.here.cengine e).cmds.length < (match e with | .ce => 32 | .ie => 16) → s.here.reads = [] → s.ownNear s.cur addr 64 = .ok off →
  s.stalls s.cur 1 off 64 = false →
  (∀ c, s.checkBlock s.cur off e (some xb.toNat) false = .ok c →
    c.no = s.here.issueNo ∧ c.xb = some xb.toNat ∧ c.blk = BitVec.ofNat 512 (s.load (nearKey s.cur off) 64)
    ∧ Completes i s (fun t => ∃ p : Option Word, accepted s t e { c with promise := p } ∧ t.here.pc = s.here.pc + 4
        ∧ (∀ r, t.here.rd r = if r = d ∧ d ≠ 0 then p.getD 0 else s.here.rd r)
        ∧ (d = 0 ∨ e = .ie → p = none)))
  ∧ (s.here.canTrap → ∀ k v, s.checkBlock s.cur off e (some xb.toNat) false = .trap k v → Traps s i k v)
  ∧ (∀ c, s.checkBlock s.cur off e (some xb.toNat) false = .unbound c → Completes i s (fun t =>
      (∀ b, b ∈ t.spanOut ↔ b ∈ s.spanOut ∨ b ∈ s.bindsOf s.cur c) ∧ { t with spanOut := s.spanOut } = s))
  ∧ (s.checkBlock s.cur off e (some xb.toNat) false = .illegal → (∀ f ∈ s.here.pend, f.source ≠ src) →
      Completes i s (fun t => { source := src, cause := 0x13, tval := addr, beat := s.dbc s.cur } ∈ t.here.pend
        ∧ (t.here.cengine e).cmds = (s.here.cengine e).cmds ∧ (t.here.cengine e).flt = true
        ∧ (∀ r, t.here.rd r = if r = d ∧ d ≠ 0 then 0 else s.here.rd r) ∧ t.here.pc = s.here.pc + 4 ∧ OnlyHere s t))

/-- R101: transfer barriers. xbwait goes on at a count of zero and resets the status, xbtest reads both, xbarm adds to the count
and traps beyond 255.
R107: chains and slot counters. chlink sets the head of an engine's chain, chkick starts it unless one runs, scpost adds to
a counter of 16 bits and sets the event latch, and scwait goes on once the counter has reached its operand. -/
def Obligations.TransferBarriersAndChains : Prop :=
  (
  ∀ (s : State) (a d : BitVec 5) (xb : BitVec 4),
    let b := s.here.xbar xb.toNat
    let n := b.pending + (s.here.rd a).toNat
    let after := fun (t : State) (x : XBar) => (∀ k, t.here.xbar k = if k = xb.toNat then x else s.here.xbar k) ∧
      t.here.pc = s.here.pc + 4 ∧ OnlyHere s t
    (b.pending = 0 → Completes (.xbwait d xb) s (fun t => after t { pending := 0, status := 0 }
      ∧ (∀ r, t.here.rd r = if r = d ∧ d ≠ 0 then BitVec.ofNat 64 (b.status * 256) else s.here.rd r)
      ∧ { t.here with s := s.here.s, xb := s.here.xb, pc := s.here.pc } = s.here))
    ∧ Retires s (.xbtest d xb) d (BitVec.ofNat 64 (b.status * 256 + b.pending))
    ∧ (n ≤ 255 → Completes (.xbarm a xb) s (fun t => after t { pending := n, status := b.status }
      ∧ { t.here with xb := s.here.xb, pc := s.here.pc } = s.here))
    ∧ (s.here.canTrap → 255 < n → Traps s (.xbarm a xb) 0x18 (BitVec.ofNat 64 xb.toNat)))
  ∧ (
  ∀ (s : State) (a : BitVec 5) (n : BitVec 1) (sc : BitVec 4) (off : Nat),
    let e := if n = 0 then CEng.ce else .ie
    let g := s.here.cengine e
    let v := (s.here.rd a).toNat % 2 ^ 16
    let c : Nat := (Bank.get (w := 16) s.here.sc sc.toNat).toNat
    (s.ownNear s.cur (s.here.rd a) 64 = .ok off →
        Completes (.chlink a n) s (fun t => Becomes s t (s.here.setCengine e { g with head := s.here.rd a })))
    ∧ (g.chain = none → g.chainLast = none → Completes (.chkick n) s (fun t => Becomes s t (s.here.setCengine e { g with chain := some g.head })))
    ∧ ((c + 2 ^ 16 - v) % 2 ^ 16 < 2 ^ 15 → Completes (.scwait a sc) s (fun t => Becomes s t s.here))
    ∧ Completes (.scpost a sc) s (fun t =>
        (∀ k, Bank.get (w := 16) t.here.sc k = if k = sc.toNat then BitVec.ofNat 16 (c + v) else Bank.get (w := 16) s.here.sc k)
        ∧ t.here.evLatch = true ∧ t.here.pc = s.here.pc + 4
        ∧ { t.here with sc := s.here.sc, evLatch := s.here.evLatch, pc := s.here.pc } = s.here ∧ OnlyHere s t))

/-- R102, R104: in-use windows and tokens. hold and free change one window; tkpush adds a token where there is room and the
tile's earlier accesses are performed, tkpop removes one that no earlier unit waits for, tktest counts.
R105, R106, R109, R350: the reply queue, the event latch and time. A sleep returns once its count is reached. -/
def Obligations.WindowsTokensRepliesAndTime : Prop :=
  (
  ∀ (s : State) (a b d : BitVec 5) (w : BitVec 3) (pair : BitVec 2) (off : Nat), pair ≠ 3 →
    let len := (s.here.rd b).toNat
    let p := pair.toNat
    let n := if p = 0 then s.here.lcTok else if p = 1 then s.here.csTok else s.here.slTok
    let with_ := fun (t : State) (x : Window) => (∀ k, FMap.getD {} t.here.win k = if k = w.toNat then x else FMap.getD {} s.here.win k)
      ∧ t.here.pc = s.here.pc + 4 ∧ { t.here with win := s.here.win, pc := s.here.pc } = s.here ∧ OnlyHere s t
    let count := fun (x : Tile) (m : Nat) =>
      if p = 0 then { x with lcTok := m } else if p = 1 then { x with csTok := m } else { x with slTok := m }
    (s.ownNear s.cur (s.here.rd a) 32 = .ok off → len % 32 = 0 → 0 < len → off + len ≤ 0xC0000 →
        Completes (.hold a b w) s (fun t => with_ t { base := off, len := len, inUse := true }))
    ∧ Completes (.free w) s (fun t => with_ t { FMap.getD {} s.here.win w.toNat with inUse := false })
    ∧ (s.accesses s.cur = [] → s.here.reads = [] → n < 8 → Completes (.tkpush pair) s (fun t => Becomes s t { count s.here (n + 1) with evLatch := true }))
    ∧ (s.here.owed p < n → s.here.tkAt = none → s.here.unitBefore p s.here.issueNo = false →
        Completes (.tkpop pair) s (fun t => Becomes s t (count s.here (n - 1))))
    ∧ Retires s (.tktest d pair) d (BitVec.ofNat 64 n))
  ∧ (
  ∀ (s : State) (a d : BitVec 5) (w : Word) (rest : List Word) (aot : Bool) (v : Word),
    let beat := s.dbc s.cur
    (s.here.rq = w :: rest → Completes (.rqpop d) s (fun t => Wrote (s.setHere { s.here with rq := rest }) t d w))
    ∧ Retires s (.rqpeek d) d (s.here.rq.headD 0)
    ∧ (s.here.rq.length < 32 → firstReply s.here.rqHeld = some w → s.held s.cur = false →
        s.replyBefore s.cur (w.toNat / 2 ^ 56) = false → Completes .replyPlacement s (fun t =>
        t.here = { s.here with rq := s.here.rq ++ [w], rqHeld := s.here.rqHeld.erase w, evLatch := true } ∧ OnlyHere s t))
    ∧ (s.here.evLatch = true → Completes .wfe s (fun t => Becomes s t { s.here with evLatch := false }))
    ∧ Retires s (.rddbc d) d beat ∧ Retires s (.rdaot d) d s.aot
    ∧ Completes (.stamp d a) s (fun t => Wrote (s.setHere { s.here with stamp := beat + s.here.rd a }) t d beat)
    ∧ (s.here.sleep = none → s.here.promiseDue beat = false → (s.here.rd a).toNat ≤ beat.toNat → Completes (.sleepu a) s (fun t => Becomes s t s.here))
    ∧ (s.here.sleep = none → s.here.promiseDue beat = false → (s.here.rd a).toNat ≤ s.aot.toNat → Completes (.sleepa a) s (fun t => Becomes s t s.here))
    ∧ (s.here.sleep = none → beat.toNat < (s.here.rd a).toNat → Completes (.sleepu a) s (fun t =>
        t.here = { s.here with sleep := some (false, s.here.rd a) } ∧ OnlyHere s t))
    ∧ (s.here.sleep = some (aot, v) → v.toNat ≤ (if aot then s.aot else beat).toNat → s.held s.cur = false → s.here.promiseDue beat = false →
        s.suspended s.cur = false → s.givenUp s.cur = false → (s.here.hm = true ∨ s.here.pend = []) → Completes .sleepExpiry s (fun t => Becomes s t { s.here with sleep := none })))

/-- R84, R108: qinit writes a queue's header, once the earlier accesses to its window are performed; qpush and qpop are one operation at the home bank, on the element at the tail and at the
head. Memory is given byte by byte. -/
def Obligations.SequencerQueues : Prop := ∀ (s : State) (a b d : BitVec 5) (u off : Nat), s.memOk →
  let q := (s.here.rd a).toNat
  let o := q % 2 ^ 20
  let k := nearKey u off
  let ctl := s.load (k + 8) 8
  let head := s.load k 4
  let tail := s.load (k + 4) 4
  let elem := fun (j : Nat) => nearKey u (off + 32 + j % qcwDepth ctl * qcwSize ctl)
  let rank := if u = s.cur then 1 else 0
  let open_ := s.near s.here.ctx (s.here.rd a) 32 = .ok u off ∧ s.stalls u rank off 32 = false
    ∧ (∀ p ∈ s.accesses s.cur, p.orders u off 32 false = false) ∧ qcwOk ctl = true ∧ ctl % 2 ^ 20 = off ∧ qcwSize ctl ≤ 8
  let touched := fun (e : Nat) => (s.touch u rank off 32).touch u rank e (qcwSize ctl)
  (qcwOk q = true → s.stalls s.cur 1 o 32 = false → (∀ p ∈ s.accesses s.cur, p.orders s.cur o 32 false = false) → Completes (.qinit a) s (fun t =>
      Stored s t (nearKey s.cur o) (bytesOf 0 8 ++ bytesOf q 8 ++ bytesOf 0 16)
      ∧ t.here = { (s.accessed o 32).here with pc := s.here.pc + 4 } ∧ OnlyHereAndMem s t))
  ∧ (open_ → (tail + 2 ^ 32 - head) % 2 ^ 32 < qcwDepth ctl → s.stalls u rank (elemAt ctl tail) (qcwSize ctl) = false →
      Completes (.qpush a b) s (fun t =>
        (∀ j, Mem.get t.mem j =
          if k + 4 ≤ j ∧ j < k + 8 then BitVec.ofNat 8 ((tail + 1) / 256 ^ (j - (k + 4)))
          else if elem tail ≤ j ∧ j < elem tail + qcwSize ctl then byteOf (s.here.rd b) (j - elem tail) else Mem.get s.mem j)
        ∧ Becomes { touched (elemAt ctl tail) with mem := t.mem } t (touched (elemAt ctl tail)).here))
  ∧ (open_ → head ≠ tail → s.stalls u rank (elemAt ctl head) (qcwSize ctl) = false → Completes (.qpop d a) s (fun t =>
      Stored s t k (bytesOf (head + 1) 4)
      ∧ Wrote { touched (elemAt ctl head) with mem := t.mem } t d (BitVec.ofNat 64 (s.load (elem head) (qcwSize ctl)))))

/-- R115: a spawn that passes its checks empties the slots of its mask and places a compute node with their handles at the end
of its die's spawn queue; d receives the id of the table entry allotted. A failing check is a trap. One that was interrupted with its
slots empty is executed from the start (R92), and for a slot that is empty it has the handle that it took from there, which is the
model's choice (log 30).
R114, R116, R146, R267: done commits the buffer, drops the slots and ends the task of a tile that runs it alone; condw writes the
condition word, its frame being under the leaf's key from then on, and one at 2^55 or more traps as a misaligned one, which is the
model's choice (log 88); yield goes on at once when no ready node of its class is more urgent, and otherwise gives its gang up, which
executes nothing more and is saved then (R355; the node that gets the gang is the model's choice, log 89);
self and deadl read.
R113: the judgement of a tail write, and the head of a ring. -/
def Obligations.TaskAndRingInstructions : Prop :=
  (
  ∀ (s : State) (d a b : BitVec 5) (m n : Nat) (parent : Node),
    let entry := s.here.rd a
    let mask := s.here.rd b
    let slots := (List.range 64).filter (fun k => mask.getLsbD k)
    let die := dieOf s.cur
    let id := (FMap.getD 0 s.igen n + 1) % 2 ^ 16 * 2 ^ 20 + n
    let first := firstFree (fun k => (FMap.get? s.nodes k).isNone) 0 Config.tableSize s.pick (s.nodes.length + 1)
    s.here.ret = none → s.here.spawning = none → s.here.task = some m → s.node? m = some parent →
    let handle := fun (k : Nat) => if s.here.cap k = 0 then s.here.keptHandle k else s.here.cap k
    ((∀ k, (∀ p ∈ s.here.interrupted, p.pc = s.here.pc → k ∉ p.slots) → s.here.keptHandle k = 0) ∧
    (s.ok → s.spawnBad entry mask = none → s.admits = true → s.spawnRoom die = true →
      first = some n → Completes (.spawn d a b) s (fun t => s.node? n = none
        ∧ (∃ r, t.node? n = some { ctx := s.here.ctx, rec_ := r, handles := slots.map handle, source := .spawn s.cur, st := .queued }
            ∧ recKind r = 1 ∧ r.getD 1 0 = entry ∧ recClass r = recClass parent.page ∧ recWidth r = 0 ∧ recNsucc r = 0 ∧ recNdep r = 0
            ∧ recPrio r = recPrio parent.rec_ ∧ recNcap r = slots.length ∧ r.getD 3 0 = parent.rec_.getD 3 0
            ∧ recDlate r = recDlate parent.rec_ ∧ recLtol r = recLtol parent.rec_ ∧ recRstr r = recRstr parent.rec_
            ∧ r.getD 5 0 = s.here.rd 4 ∧ r.getD 6 0 = s.here.rd 5 ∧ r.getD 7 0 = s.here.rd 6)
        ∧ (t.die die).spawnQ = (s.die die).spawnQ ++ [n]
        ∧ (∀ k, t.here.cap k = if k ∈ slots then 0 else s.here.cap k)
        ∧ (∀ r, t.here.rd r = if r = d ∧ d ≠ 0 then BitVec.ofNat 64 id else s.here.rd r) ∧ t.here.pc = s.here.pc + 4
        ∧ ((∀ k ∈ slots, s.here.cap k ≠ 0) → t.here.interrupted = s.here.interrupted)
        ∧ { t.here with caps := s.here.caps, s := s.here.s, pc := s.here.pc, interrupted := s.here.interrupted } = s.here
        ∧ OtherTiles s t ∧ SameMem s t))
    ∧ (s.here.canTrap →
        let sound := Fetchable entry ∧ slots.length ≤ 7
        (¬ Fetchable entry → Traps s (.spawn d a b) 0x04 entry)
        ∧ (Fetchable entry → 7 < slots.length → Traps s (.spawn d a b) 0x0A mask)
        ∧ (sound → ∀ k, slots.find? (fun k => decide (handle k = 0)) = some k → Traps s (.spawn d a b) 0x08 (BitVec.ofNat 64 k))
        ∧ (sound → (∀ k ∈ slots, handle k ≠ 0) → ∀ k, slots.find? (fun k => !s.fresh? s.here.ctx (handle k)) = some k →
            Traps s (.spawn d a b) 0x0B (BitVec.ofNat 64 k))
        ∧ (sound → (∀ k ∈ slots, handle k ≠ 0 ∧ s.fresh? s.here.ctx (handle k) = true) → ∀ k,
            slots.find? (fun k => !hasRight (handle k) 3) = some k → Traps s (.spawn d a b) 0x09 (BitVec.ofNat 64 k)))))
  ∧ (
  ∀ (s : State) (d a b : BitVec 5) (n k pte : Nat) (large : Bool) (x : Node),
    let va := (s.here.rd a).toNat
    let key := leafKey pte (va / 2 ^ 16) large + va % 2 ^ 16
    let marked := s.orEntry k 24
    (s.ok → s.alone n → s.node? n = some x → x.outcome = none → s.here.ve.flt = false → s.here.xe.flt = false → s.here.ce.flt = false →
        s.here.ie.flt = false → s.here.allIdle = true → s.accesses s.cur = [] → s.here.reads = [] →
        (∀ g ∈ granulesOf s.here.psb, s.commitReady s.cur s.here.ctx g = true) →
        Completes .done s (fun t =>
          t.here = { s.here with psb := [], caps := [], spawning := none, interrupted := [], fin := true, banks := t.here.banks }
          ∧ (t.node? n).bind (·.outcome) = some (0, 0, 0) ∧ (∀ u, u ≠ s.cur → SameButBanks (s.tile u) (t.tile u))
          ∧ (s.here.slotHandles = [] → ∀ j, Mem.get t.mem j =
              match s.here.psb.reverse.find? (fun e => s.homeKey s.here.ctx e.1 = some j) with
              | some e => e.2
              | none => Mem.get s.mem j)))
    ∧ (s.memOk → va % 8 = 0 → va < 2 ^ 55 → s.here.sent = false → s.walk s.here.ctx (va / 2 ^ 16) = .leaf k pte large → bitN pte 1 = true →
        s.frameFits pte (leafKey pte (va / 2 ^ 16) large) = true →
        Completes (.condw d a b) s (fun t => Stored marked t key (bytesOf (s.here.rd b).toNat 8)
          ∧ (pteTier pte = 0 → FMap.get? t.frameKey ((leafKey pte (va / 2 ^ 16) large - 2 ^ 64) / 2 ^ 16) = some (s.leafKeyId pte))
          ∧ Wrote { s with mem := t.mem, nodes := t.nodes, frameKey := t.frameKey } t d 0))
    ∧ (s.here.canTrap → (va % 8 ≠ 0 ∨ 2 ^ 55 ≤ va) → Traps s (.condw d a b) 0x04 (s.here.rd a))
    ∧ (s.here.task = some n → s.node? n = some x →
        (∀ m ∈ s.nodes, m.2.st = .ready → m.2.cls = x.cls → recPrio x.rec_ ≤ recPrio m.2.rec_) →
        Completes .yield s (fun t => Becomes s t s.here))
    ∧ (∀ m y, s.ok → s.here.task = some n → s.node? n = some x → s.yieldTo x = some (m, y) → (s.takeSlots x.ctx x.gang.length).isSome = true →
        Completes .yield s (fun t => t.here = { s.here with pc := s.here.pc + 4 } ∧ t.givenUp s.cur = true
          ∧ (t.node? n).bind (·.yielding) = some s.cur ∧ OtherTiles s t ∧ { t with tiles := s.tiles, nodes := s.nodes } = s))
    ∧ (∀ m y s', s.ok → s.arg.n = n → s.node? n = some x → x.yielding.isSome = true → x.st = .run → x.outcome = none →
        s.heldCtx x.ctx = false → s.yieldTo x = some (m, y) → (s.takeSlots x.ctx x.gang.length).isSome = true →
        s.saveGang n x s.arg.list s.arg.k = .ok s' → Completes .preemption s (fun t =>
          (t.node? n).map (·.st) = some .saved ∧ (t.node? n).bind (·.yielding) = none))
    ∧ Retires s (.self d) d s.here.taskid
    ∧ Retires s (.deadl d) d (if s.here.deadline = 0 then BitVec.ofNat 64 (2 ^ 63 - 1) else s.here.deadline - s.aot))
  ∧ (
  ∀ (s : State) (d a b : BitVec 5) (q : Ring),
    let r := (s.here.rd a).toNat
    let v := (s.here.rd b).toNat % 2 ^ 32
    let ours := FMap.get? s.rings r = some q ∧ q.ctx = s.here.ctx ∧ r < 1024
    let over_ := 2 ^ q.lsize < (v + 2 ^ 32 - q.head.toNat % 2 ^ 32) % 2 ^ 32
    let newer := 1 ≤ (v + 2 ^ 32 - q.tail.toNat) % 2 ^ 32 ∧ (v + 2 ^ 32 - q.tail.toNat) % 2 ^ 32 ≤ 2 ^ 31
    (ours → ¬ over_ → newer → Completes (.tailw d a b) s (fun t =>
        (∀ k, FMap.get? t.rings k = if k = r then some { q with tail := BitVec.ofNat 32 v, awake := true } else FMap.get? s.rings k)
        ∧ Wrote { s with rings := t.rings, nodes := t.nodes } t d 0))
    ∧ (ours → ¬ over_ → ¬ newer → Retires s (.tailw d a b) d 1)
    ∧ (ours → over_ → Retires s (.tailw d a b) d 2)
    ∧ ((FMap.get? s.rings r = none ∨ (FMap.get? s.rings r = some q ∧ (q.ctx ≠ s.here.ctx ∨ 1024 ≤ r))) → Retires s (.tailw d a b) d 3)
    ∧ (ours → Retires s (.headr d a) d (BitVec.ofNat 64 (q.head.toNat % 2 ^ 32))))

/-- R120, R310, R354: taga makes a tag of a scope and length live, with an index that no live tag of the context has; tagf retires
one and sends a withdrawal to its station; meet sends the operand there. A bad scope, length or tag is a TAG trap. -/
def Obligations.MeetingTags : Prop := ∀ (s : State) (d a b : BitVec 5) (op : BitVec 2) (tag : Tag) (u off : Nat),
  let va := s.here.rd a
  let scope := va.toNat % 16
  let len := (s.here.rd b).toNat
  let c := s.here.ctx
  let tags := (s.ctxAt c).tags
  let lenOk := len % 32 = 0 ∧ 32 ≤ len ∧ len ≤ 2048
  (scope ≤ 4 → (scope = 4 → s.pkg.fmapen.getLsbD 6 = true) → lenOk → tags.length < 4096 → Completes (.taga d a b) s (fun t =>
      ∃ g : Tag, (t.ctxAt c).tags = tags ++ [g] ∧ g.len = len ∧ tagScope g.tag = scope ∧ (∀ h ∈ tags, tagIndex h.tag ≠ tagIndex g.tag)
        ∧ (∀ h ∈ tags, h.entry ≠ g.entry)
        ∧ Wrote { s with ctxs := t.ctxs, fresh := t.fresh } t d (BitVec.ofNat 64 g.tag) ∧ (∀ e, e ≠ c → t.ctxAt e = s.ctxAt e)))
  ∧ (s.liveTag c va.toNat = some tag → Completes (.tagf a) s (fun t =>
      (t.ctxAt c).tags = tags.filter (fun g => decide (g.tag ≠ va.toNat))
      ∧ FMap.getD 0 (t.ctxAt c).tagGen (va.toNat % 2 ^ 20) = (va.toNat / 2 ^ 24 + 1) % 2 ^ 8
      ∧ t.meets = s.meets ++ [mailTo s.cur (s.stationOf s.cur va.toNat) c (.withdraw c va.toNat)]
      ∧ t.here = { s.here with pc := s.here.pc + 4 } ∧ OtherTiles s t ∧ SameMem s t))
  ∧ (s.here.acquires = false → s.liveTag c va.toNat = some tag → s.near c (s.here.rd b) 32 = .ok u off → off + tag.len ≤ 0xC0000 →
      (s.here.rd d = 0 ∨ ∃ v o, s.near c (s.here.rd d) 32 = .ok v o ∧ o + tag.len ≤ 0xC0000) →
      s.rangeLanding u off tag.len = false → s.stalls u (if u = s.cur then 1 else 0) off tag.len = false →
      (∀ p ∈ s.accesses s.cur, p.orders u off tag.len false = false) → Completes (.meet d a b op) s (fun t =>
        (∃ o : Operand, t.meets = s.meets ++ [mailTo s.cur (s.stationOf s.cur va.toNat) c (.operand o)] ∧ o.ctx = c ∧ o.tag = va.toNat
          ∧ o.op = op.toNat ∧ o.ptile = s.cur ∧ o.dest = s.here.rd d ∧ o.timeout = tag.timeout ∧ o.entry = tag.entry
          ∧ o.data = (List.range tag.len).map (fun i => Mem.get s.mem (nearKey u off + i)))
        ∧ Becomes { s.touch u (if u = s.cur then 1 else 0) off tag.len with meets := t.meets } t
            (s.touch u (if u = s.cur then 1 else 0) off tag.len).here))
  ∧ (s.here.canTrap →
      (4 < scope → Traps s (.taga d a b) 0x19 va)
      ∧ (scope < 4 → ¬ lenOk → Traps s (.taga d a b) 0x19 (s.here.rd b))
      ∧ (scope < 4 → lenOk → 4096 ≤ tags.length → Traps s (.taga d a b) 0x19 0x1000)
      ∧ (s.liveTag c va.toNat = none → Traps s (.tagf a) 0x19 va ∧ (s.here.acquires = false → Traps s (.meet d a b op) 0x19 va)))

/-- R41, R42, R121, R359: reading and writing the state registers. A register that is RO keeps its value; STATUS takes HM alone,
and bit 1 of EPC is zero. That CAUSE keeps the low 8 bits of what is written is the model's choice (log 29). -/
def Obligations.StateRegisters : Prop := ∀ (s : State) (d a : BitVec 5) (sr : BitVec 10), sr.toNat < 16 →
  let x := s.here
  let v := x.rd a
  let k := sr.toNat
  let free := k = 1 ∨ k = 11 ∨ k = 13 ∨ k = 14
  let guarded_ := k = 0 ∨ k = 2 ∨ k = 3 ∨ k = 4
  let regs : List Word := [BitVec.ofNat 64 ((if x.hm then 1 else 0) + (if x.pend = [] then 0 else 2)), x.tvec, x.epc, x.cause, x.tval,
    x.taskid, x.rank, x.gang, BitVec.ofNat 64 (x.vtile * 2 ^ 20), BitVec.ofNat 64 x.ctx, BitVec.ofNat 64 x.ebud, x.stamp, x.deadline,
    x.scratch0, x.scratch1, s.pkg.fmapen.setWidth 64]
  Retires s (.mfs d sr) d (regs.getD k 0)
  ∧ ((free ∨ (guarded_ ∧ x.hm = true)) → Completes (.mts a sr) s (fun t => Becomes s t (
      if k = 0 then { x with hm := v.getLsbD 0 } else if k = 1 then { x with tvec := v } else if k = 2 then { x with epc := v &&& ~~~2 }
      else if k = 3 then { x with cause := v &&& 0xFF } else if k = 4 then { x with tval := v } else if k = 11 then { x with stamp := v }
      else if k = 13 then { x with scratch0 := v } else { x with scratch1 := v })))
  ∧ (¬ free → ¬ guarded_ → Completes (.mts a sr) s (fun t => Becomes s t x))

/-- R55, R121, R358: the words that raise a trap, with their causes and values: trap, a word that fails decode, and halt, rte and
an mts of an HM register outside handler mode. -/
def Obligations.TrapsTaken : Prop := ∀ (s : State) (a : BitVec 5) (sr code : BitVec 10) (w : BitVec 32), s.here.canTrap →
  Traps s (.trap code) 0x06 (BitVec.ofNat 64 code.toNat)
  ∧ Traps s (.illegalWord w) 0x01 (BitVec.ofNat 64 w.toNat)
  ∧ Traps s .rte 0x05 0xC0003000 ∧ Traps s .halt 0x05 0xC0006000
  ∧ (sr.toNat ∈ [0, 2, 3, 4] → Traps s (.mts a sr) 0x05 (BitVec.ofNat 64 (encode (.mts a sr))))

/-- R352, R358: with no handler to go to, a trap fails the task, which keeps the trap's CAUSE and TVAL as its outcome, and stops
its members. -/
def Obligations.TrapsWithoutHandlerFail : Prop := ∀ (s : State) (n : Nat) (x : Node) (cause : Nat) (tval : Word), s.ok →
  s.alone n → s.here.inside = false → s.node? n = some x → (s.here.hm = true ∨ s.here.tvec = 0 ∨ pcOk s.here.tvec = false) →
  let t := s.trap cause tval
  (t.node? n).bind (·.outcome) = some (0x14, cause, tval) ∧ t.here.fin = true ∧ t.here.caps = [] ∧ t.here.psb = []
    ∧ t.here.ve.queue = [] ∧ t.here.xe.queue = [] ∧ t.here.epc = s.here.epc ∧ t.here.pc = s.here.pc ∧ OtherTiles s t

/-- R359, R361, R364, R121: in handler mode rte resumes at EPC with its low bits clear and leaves handler mode; the engine whose delivery
was handled takes its units again, its FLT clear, unless another fault of it is pending; an EPC with a bit of [63:55] set raises
MISALIGN_TARGET with the target, which fails the task; and halt fails the task with
CAUSE and TVAL; icinv empties the instruction caches of the tiles in its scope that run the context, or ran it last.
R358, R363: the fault that became pending first is delivered at a boundary: EPC holds the next word's address with bit 0
set; that an interrupted spawn keeps the handles that it took (Tile.unspawn) is the model's choice (log 30). -/
def Obligations.HandlersEndAndDeliver : Prop :=
  (
  ∀ (s : State) (n : Nat) (x : Node) (scope : BitVec 4),
    (s.here.hm = true → s.here.epc.toNat < 2 ^ 55 → s.here.handling = none → Completes .rte s (fun t =>
        t.here = { s.here with hm := false, pc := s.here.epc &&& ~~~3 } ∧ OnlyHere s t))
    ∧ (∀ src, s.here.hm = true → s.here.epc.toNat < 2 ^ 55 → s.here.handling = some src → Completes .rte s (fun t =>
        let flt := fun (x : Tile) => match src with
          | .ce => x.ce.flt | .ie => x.ie.flt | .ve => x.ve.flt | .xe => x.xe.flt | .promise | .landing => false
        t.here.hm = false ∧ t.here.pc = s.here.epc &&& ~~~3 ∧ t.here.handling = none ∧ t.here.s = s.here.s ∧ t.here.p = s.here.p
        ∧ ((∀ d ∈ s.here.pend, d.source ≠ src) → (∀ q ∈ s.here.ve.queue ++ s.here.xe.queue, q.stamp = none) →
            flt t.here = false ∧ t.here.pend = s.here.pend)
        ∧ ((∃ d ∈ s.here.pend, d.source = src) → flt t.here = flt s.here ∧ t.here.pend = s.here.pend)
        ∧ OnlyHere s t))
    ∧ (s.ok → s.here.hm = true → 2 ^ 55 ≤ s.here.epc.toNat → s.alone n → s.here.inside = false → s.node? n = some x → Completes .rte s (fun t =>
        (t.node? n).bind (·.outcome) = some (0x14, 0x04, s.here.epc &&& ~~~3) ∧ t.here.fin = true ∧ OtherTiles s t))
    ∧ (s.ok → s.here.hm = true → s.alone n → s.here.inside = false → s.node? n = some x → Completes .halt s (fun t =>
        (t.node? n).bind (·.outcome) = some (0x14, s.here.cause.toNat, s.here.tval) ∧ t.here.fin = true ∧ OtherTiles s t))
    ∧ (s.ok → s.here.task.isSome = true → Completes (.icinv scope) s (fun t =>
        t.here = { s.here with icache := [], pc := s.here.pc + 4 } ∧ SameMem s t ∧ { t with tiles := s.tiles } = s
        ∧ ∀ u, u ≠ s.cur → t.tile u =
            if ((s.tile u).lastCtx = some s.here.ctx ∨ ((s.tile u).task.isSome = true ∧ (s.tile u).ctx = s.here.ctx))
              ∧ sameUnit scope.toNat s.cur u = true
            then { s.tile u with icache := [] } else s.tile u)))
  ∧ (
  ∀ (s : State) (d : Delivery) (rest : List Delivery),
    s.here.pend = d :: rest → s.deliverable s.cur = true → s.here.canTrap →
    Completes .faultDelivery s (fun t =>
      t.here = { s.here.unspawn with
        pend := rest, sleep := none, tkAt := none, handling := some d.source, epc := s.here.pc ||| 1, cause := BitVec.ofNat 64 d.cause
        tval := d.tval, hm := true, pc := s.here.tvec } ∧ OnlyHere s t))

/-- R45 to R47, R211, R214: the .f micro-orders, on every element of each active lane: the exact result of the decoded operands,
rounded once to nearest even; min and max as R214 orders them. -/
def Obligations.VectorFloatResults : Prop :=
  ∀ (s : State) (d A B : BitVec 5) (kA kB : BitVec 2) (m : BitVec 3) (t : BitVec 2), s.eng = .ve →
  let F := floatType t.toNat
  let w := F.width
  let a := fun (i k : Nat) => elemOf (s.source kA A (litFloat F A) i) w k
  let b := fun (i k : Nat) => elemOf (s.source kB B (litFloat F B) i) w k
  let c := fun (i k : Nat) => elemOf (s.here.vec.lane d.toNat i) w k
  let does := fun (i : Instr) (f : Nat → Nat → Nat) => Completes i s (fun t => elemsBecome s t d m w f)
  does (.vaddF d kA A kB B m t) (fun i k => F.rne ((F.decode (a i k)).add (F.decode (b i k))))
  ∧ does (.vsubF d kA A kB B m t) (fun i k => F.rne ((F.decode (a i k)).add (F.decode (b i k)).negate))
  ∧ does (.vmulF d kA A kB B m t) (fun i k => F.rne ((F.decode (a i k)).mul (F.decode (b i k))))
  ∧ does (.vfmaF d kA A kB B m t) (fun i k => F.rne (((F.decode (a i k)).mul (F.decode (b i k))).add (F.decode (c i k))))
  ∧ does (.vminF d kA A kB B m t) (fun i k => F.minF (a i k) (b i k))
  ∧ does (.vmaxF d kA A kB B m t) (fun i k => F.maxF (a i k) (b i k))
  ∧ does (.vabsF d kA A m t) (fun i k => a i k % 2 ^ (w - 1))
  ∧ does (.vnegF d kA A m t) (fun i k => a i k ^^^ 2 ^ (w - 1))

/-- R217: the .i micro-orders on every element of width w of each active lane; N32 (t = 3) reads its elements unsigned. -/
def Obligations.VectorIntegerResults : Prop :=
  ∀ (s : State) (d A B : BitVec 5) (kA kB : BitVec 2) (m : BitVec 3) (t : BitVec 2), s.eng = .ve →
  let w := intWidth t.toNat
  let un := t.toNat = 3
  let a := fun (i k : Nat) => elemOf (s.source kA A (litInt w A) i) w k
  let b := fun (i k : Nat) => elemOf (s.source kB B (litInt w B) i) w k
  let c := fun (i k : Nat) => elemOf (s.here.vec.lane d.toNat i) w k
  let val := fun (x : Nat) => if un then (x : Int) else asSigned w x
  let does := fun (i : Instr) (f : Nat → Nat → Int) =>
    Completes i s (fun t => elemsBecome s t d m w (fun i k => (f i k % 2 ^ w).toNat))
  let bits := fun (i : Instr) (f : Nat → Nat → Nat) => Completes i s (fun t => lanesBecome s t d m (fun i =>
    f (s.source kA A (litInt 32 A) i) (s.source kB B (litInt 32 B) i)))
  does (.vaddI d kA A kB B m t) (fun i k => a i k + b i k) ∧ does (.vsubI d kA A kB B m t) (fun i k => (a i k : Int) - b i k)
  ∧ does (.vmulI d kA A kB B m t) (fun i k => a i k * b i k) ∧ does (.vmacI d kA A kB B m t) (fun i k => c i k + a i k * b i k)
  ∧ does (.vshl d kA A kB B m t) (fun i k => a i k * 2 ^ (b i k % w)) ∧ does (.vshr d kA A kB B m t) (fun i k => a i k / 2 ^ (b i k % w))
  ∧ does (.vsar d kA A kB B m t) (fun i k => val (a i k) / 2 ^ (b i k % w))
  ∧ does (.vminI d kA A kB B m t) (fun i k => Min.min (val (a i k)) (val (b i k)))
  ∧ does (.vmaxI d kA A kB B m t) (fun i k => Max.max (val (a i k)) (val (b i k)))
  ∧ does (.vsat d kA A kB B m t) (fun i k =>
      if un then Min.min (val (a i k) + val (b i k)) (2 ^ w - 1)
      else Max.max (-(2 ^ (w - 1))) (Min.min (2 ^ (w - 1) - 1) (val (a i k) + val (b i k))))
  ∧ bits (.vand d kA A kB B m) (fun x y => x &&& y) ∧ bits (.vor d kA A kB B m) (fun x y => x ||| y)
  ∧ bits (.vxor d kA A kB B m) (fun x y => x ^^^ y)

/-- R218, R219: compares write a mask with a bit for each active lane whose condition holds; the mask operations. -/
def Obligations.VectorMasks : Prop :=
  ∀ (s : State) (d m : BitVec 3) (e A B : BitVec 5) (kA kB h l : BitVec 2) (qA qB : BitVec 1), s.eng = .ve →
  let cc := h.toNat * 4 + l.toNat
  let x := fun (i : Nat) => s.source kA A (litInt 32 A) i
  let y := fun (i : Nat) => s.source kB B (litInt 32 B) i
  let fx := fun (i : Nat) => fp32.decode (s.source kA A (litFloat fp32 A) i)
  let fy := fun (i : Nat) => fp32.decode (s.source kB B (litFloat fp32 B) i)
  let nan := fun (i : Nat) => fx i = .nan ∨ fy i = .nan
  let lt := fun (a b : Sys2Proof.Machine.Num) => a.lt false b = true
  let src := fun (k : BitVec 1) (n : BitVec 5) => if k = 0 then Bank.get s.here.vec.m (n.toNat % 8) else s.here.ve.rdE n
  let does := fun (i : Instr) (v : Word) => Completes i s (fun t => maskBecomes s t d v)
  (cc ≤ 9 → ∃ v : Word, (∀ i, i < 64 → (v.getLsbD i = true ↔ s.here.vec.active m i = true ∧
      (match cc with
        | 0 => x i = y i
        | 1 => x i ≠ y i
        | 2 => asSigned 32 (x i) < asSigned 32 (y i)
        | 3 => asSigned 32 (y i) ≤ asSigned 32 (x i)
        | 4 => asSigned 32 (x i) ≤ asSigned 32 (y i)
        | 5 => asSigned 32 (y i) < asSigned 32 (x i)
        | 6 => x i < y i
        | 7 => y i ≤ x i
        | 8 => x i ≤ y i
        | _ => y i < x i))) ∧ does (.vcmpI h d kA A kB B m l) v)
  ∧ (cc ≤ 5 ∨ cc = 10 → ∃ v : Word, (∀ i, i < 64 → (v.getLsbD i = true ↔ s.here.vec.active m i = true ∧
      (match cc with
        | 0 => ¬ nan i ∧ ¬ lt (fx i) (fy i) ∧ ¬ lt (fy i) (fx i)
        | 1 => nan i ∨ lt (fx i) (fy i) ∨ lt (fy i) (fx i)
        | 2 => ¬ nan i ∧ lt (fx i) (fy i)
        | 3 => ¬ nan i ∧ ¬ lt (fx i) (fy i)
        | 4 => ¬ nan i ∧ (lt (fx i) (fy i) ∨ ¬ lt (fy i) (fx i))
        | 5 => ¬ nan i ∧ ¬ lt (fx i) (fy i) ∧ lt (fy i) (fx i)
        | _ => nan i))) ∧ does (.vcmpF h d kA A kB B m l) v)
  ∧ does (.mand d qA A qB B) (src qA A &&& src qB B) ∧ does (.mor d qA A qB B) (src qA A ||| src qB B)
  ∧ does (.mxor d qA A qB B) (src qA A ^^^ src qB B) ∧ does (.mnot d qA A) (~~~ src qA A)
  ∧ Completes (.mpopc e qA A) s (fun t =>
      (∀ r, t.here.ve.rdE r = if r = e ∧ e ≠ 0 then BitVec.ofNat 64 ((List.range 64).countP (fun i => (src qA A).getLsbD i))
        else s.here.ve.rdE r)
      ∧ steppedOn s t 1 ∧ { t.here with ve := { t.here.ve with e := s.here.ve.e, run := s.begun.here.ve.run } } = s.begun.here ∧ OnlyHere s t)

/-- A step `p := rne(C + f × p)` of R216 for each constant `C` of a list, by its FP32 code, in turn. -/
def fusedSteps (f : Sys2Proof.Machine.Num) (cs : List Nat) (p : Nat) : Nat :=
  cs.foldl (fun p c => fp32.rne ((fp32.decode c).add (f.mul (fp32.decode p)))) p

/-- vexp2(x) of R216, with C6 to C0 and C7 by their codes. -/
def exp2Value (x : Sys2Proof.Machine.Num) : Nat :=
  if x = .nan then 0x7FC00000
  else if x.lt false (numOfInt 128) = false then 0x7F800000
  else if x.lt false (numOfInt (-150)) = true then 0
  else
    let n := nearestInt x
    let p := fusedSteps (x.add (numOfInt (-n))) [0x39218489, 0x3AAEC3FF, 0x3C1D955B, 0x3D635847, 0x3E75FDF0, 0x3F317218, 0x3F800000] 0x377FE5FE
    fp32.rne ((fp32.decode p).scale n)

/-- vlog2(x) of R216, with D3 to D0 and D4 by their codes; 181/128 is 1.4140625. -/
def log2Value (x : Sys2Proof.Machine.Num) : Nat :=
  match x with
  | .nan => 0x7FC00000
  | .inf neg => if neg then 0x7FC00000 else 0x7F800000
  | .fin neg m e =>
    if m = 0 then 0xFF800000 else if neg then 0x7FC00000
    else
      let k := Nat.log2 m
      let big := (Sys2Proof.Machine.Num.fin false m (-k)).lt false (.fin false 181 (-7)) = false
      let v : Sys2Proof.Machine.Num := .fin false m (if big then -k - 1 else -k)
      let s := divNum fp32 (v.add (numOfInt (-1))) (fp32.decode (fp32.rne (v.add (numOfInt 1))))
      let z := fp32.rne ((fp32.decode s).mul (fp32.decode s))
      let q := fusedSteps (fp32.decode z) [0x3ED30BB1, 0x3F13BB63, 0x3F76384F, 0x4038AA3B] 0x3EA4258A
      fp32.rne ((numOfInt (if big then e + k + 1 else e + k)).add (fp32.decode (fp32.rne ((fp32.decode s).mul (fp32.decode q)))))

/-- vrcp(x) of R216: a zero gives the infinity of its sign, an infinity the zero, another value its reciprocal, rounded once. -/
def rcpValue (x : Sys2Proof.Machine.Num) : Nat :=
  match x with
  | .nan => 0x7FC00000
  | .inf neg => if neg then 0x80000000 else 0
  | .fin neg m e => if m = 0 then (if neg then 0xFF800000 else 0x7F800000) else divNum fp32 (numOfInt 1) (.fin neg m e)

/-- vrsq(x) of R216: 1/√x to 96 binary places or more, with one more bit that says whether something is left, rounded once. -/
def rsqValue (x : Sys2Proof.Machine.Num) : Nat :=
  match x with
  | .nan => 0x7FC00000
  | .inf neg => if neg then 0x7FC00000 else 0
  | .fin neg m e =>
    if m = 0 then (if neg then 0xFF800000 else 0x7F800000) else if neg then 0x7FC00000
    else
      let m2 := if e % 2 = 0 then m else 2 * m
      let y := Nat.sqrt (2 ^ 192 / m2)
      fp32.encodeRat 0 false false ((2 * y + (if y * y * m2 = 2 ^ 192 then 0 else 1)) * 2 ^ (-(e / 2)).toNat) (2 ^ 97 * 2 ^ (e / 2).toNat)

/-- vtanh(x) of R216, of an FP32 code, with T4 to T0, T5 and L by their codes. -/
def tanhValue (x : Nat) : Nat :=
  let sign := x / 2 ^ 31 % 2 * 2 ^ 31
  let a := fp32.decode (x % 2 ^ 31)
  if a = .nan then 0x7FC00000
  else if a.lt false (numOfInt 10) = false then sign + 0x3F800000
  else if a.lt false (.fin false 1 (-2)) = true then
    let z := fp32.rne (a.mul a)
    let q := fusedSteps (fp32.decode z) [0x3CB327A4, 0xBD5D0DD1, 0x3E088889, 0xBEAAAAAB, 0x3F800000] 0xBC11371B
    sign + fp32.rne (a.mul (fp32.decode q))
  else
    let g := exp2Value (fp32.decode (fp32.rne ((a.scale 1).mul (fp32.decode 0x3FB8AA3B))))
    let h := divNum fp32 (numOfInt 2) (fp32.decode (fp32.rne ((fp32.decode g).add (numOfInt 1))))
    sign + fp32.rne ((numOfInt 1).add (fp32.decode h).negate)

/-- An integer as a code of `w` bits: kept in the range [lo, hi] where `sat` is set, its low `w` bits otherwise (R176). -/
def intoCode (w : Nat) (sat : Bool) (lo hi v : Int) : Nat := ((if sat then Max.max lo (Min.min hi v) else v) % 2 ^ w).toNat

/-- A value rounded to an integer in a mode of R174: 0 to nearest even, 1 to zero, 2 up, 3 down; and kept in a range, an infinity
taking its end, NaN 0 (R176). -/
def toInteger (rm : Nat) (lo hi : Int) : Sys2Proof.Machine.Num → Int
  | .nan => 0
  | .inf neg => if neg then lo else hi
  | .fin neg m e =>
    let num := m * 2 ^ e.toNat
    let den := 2 ^ (-e).toNat
    let n : Nat := num / den
    let r := num % den
    let v : Nat := match rm with
      | 0 => if den < 2 * r ∨ 2 * r = den ∧ n % 2 = 1 then n + 1 else n
      | 1 => n
      | 2 => if neg = false ∧ r ≠ 0 then n + 1 else n
      | _ => if neg = true ∧ r ≠ 0 then n + 1 else n
    Max.max lo (Min.min hi (if neg then -(v : Int) else v))

/-- R176, R215, R216: conversions and the unary functions, on each active lane: vexp2, vlog2, vrcp, vrsq and vtanh give the value of
their algorithm, and vcvt the code of its target, with its rounding mode and its saturate bit, in the slot that it names, the others
of the lane staying as they are; a widening reads its slot and is exact, and the conversions to I32 and N32 saturate always.
R220, R221: moves between lanes, and the reduction by its fixed tree of 64 leaves, inactive lanes standing for the identity. -/
def Obligations.VectorConversionsFunctionsAndMoves : Prop :=
  (
  ∀ (s : State) (d A : BitVec 5) (kA rm : BitVec 2) (code : BitVec 5) (m : BitVec 3) (t : BitVec 2), s.eng = .ve →
    let a := s.source kA A (litFloat fp32 A)
    let does := fun (i : Instr) (f : Nat → Nat) => Completes i s (fun t => lanesBecome s t d m f)
    let x := fun (i : Nat) => fp32.decode (a i)
    let n := fun (i : Nat) => s.source kA A (litInt 32 A) i
    let r := rm.toNat
    let h := t.toNat / 2
    let sat := t.getLsbD 0
    let k := code.toNat
    let conv := fun (f : Nat → Nat) => does (.vcvt d kA A rm code m t) f
    let slot := fun (w j : Nat) (c : Nat → Nat) => ∃ f : Nat → Nat, conv f ∧ ∀ i, i < 64 → elemOf (f i) w j = c i % 2 ^ w
      ∧ ∀ q, q < 32 / w → q ≠ j → elemOf (f i) w q = elemOf (s.here.vec.lane d.toNat i) w q
    does (.vexp2 d kA A m) (fun i => exp2Value (x i)) ∧ does (.vlog2 d kA A m) (fun i => log2Value (x i))
    ∧ does (.vrcp d kA A m) (fun i => rcpValue (x i)) ∧ does (.vrsq d kA A m) (fun i => rsqValue (x i))
    ∧ does (.vtanh d kA A m) (fun i => tanhValue (a i))
    ∧ (k = 0x00 → slot 16 h (fun i => bf16.cvt r sat (x i))) ∧ (k = 0x01 → slot 16 h (fun i => fp16.cvt r sat (x i)))
    ∧ (k = 0x02 → slot 8 h (fun i => e4m3.cvt r sat (x i))) ∧ (k = 0x03 → slot 8 (2 + h) (fun i => e4m3.cvt r sat (x i)))
    ∧ (k = 0x04 → slot 8 h (fun i => e5m2.cvt r sat (x i))) ∧ (k = 0x05 → slot 8 (2 + h) (fun i => e5m2.cvt r sat (x i)))
    ∧ (k = 0x06 → conv (fun i => intoCode 32 false 0 0 (toInteger r (-(2 ^ 31)) (2 ^ 31 - 1) (x i))))
    ∧ (k = 0x07 → conv (fun i => intoCode 32 false 0 0 (toInteger r 0 (2 ^ 32 - 1) (x i))))
    ∧ (k = 0x08 → conv (fun i => fp32.cvt r false (numOfInt (asSigned 32 (n i))))) ∧ (k = 0x09 → conv (fun i => fp32.cvt r false (numOfInt (n i))))
    ∧ (k = 0x0A → conv (fun i => fp32.rne (bf16.decode (elemOf (n i) 16 h)))) ∧ (k = 0x0B → conv (fun i => fp32.rne (fp16.decode (elemOf (n i) 16 h))))
    ∧ (k = 0x0C → conv (fun i => fp32.rne (e4m3.decode (elemOf (n i) 8 h)))) ∧ (k = 0x0D → conv (fun i => fp32.rne (e4m3.decode (elemOf (n i) 8 (2 + h)))))
    ∧ (k = 0x0E → conv (fun i => fp32.rne (e5m2.decode (elemOf (n i) 8 h)))) ∧ (k = 0x0F → conv (fun i => fp32.rne (e5m2.decode (elemOf (n i) 8 (2 + h)))))
    ∧ (k = 0x10 → slot 16 h (fun i => intoCode 16 sat (-(2 ^ 15)) (2 ^ 15 - 1) (asSigned 32 (n i))))
    ∧ (k = 0x11 → slot 8 h (fun i => intoCode 8 sat (-(2 ^ 7)) (2 ^ 7 - 1) (asSigned 32 (n i))))
    ∧ (k = 0x12 → slot 8 (2 + h) (fun i => intoCode 8 sat (-(2 ^ 7)) (2 ^ 7 - 1) (asSigned 32 (n i)))))
  ∧ (
  ∀ (s : State) (d A B op : BitVec 5) (kA kB : BitVec 2) (m : BitVec 3), s.eng = .ve →
    let x := s.here.vec
    let a := s.source kA A (litInt 32 A)
    let b := s.source kB B (litInt 32 B)
    let o := redOp op.toNat
    let does := fun (i : Instr) (m : BitVec 3) (f : Nat → Nat) => Completes i s (fun t => lanesBecome s t d m f)
    does (.vmov d kA A m) m a
    ∧ does (.vsel d kA A kB B m) 0 (fun i => if x.active m i then a i else b i)
    ∧ does (.vbcast d A kB B m) m (fun _ => x.lane A.toNat (b 0 % 64))
    ∧ does (.vperm d A B m) m (fun i => x.lane A.toNat (x.lane B.toNat i % 64))
    ∧ does (.vred d A op m) 0 (fun i => if i = 0 then
        treeReduce o.2 6 ((List.range 64).map (fun i => if x.active m i then x.lane A.toNat i else o.1)) else 0))

/-- R222, R223: vector loads and stores, once their accesses pass their checks: each active lane reads or writes the word at its
offset, stores in ascending lane order; the post-increment moves the base by 64 strides; vst with t = 1 gives each line that it
writes in full the descriptor of constant-bank entry KB; the accesses take their banks (R349). -/
def Obligations.VectorMemory : Prop :=
  ∀ (s : State) (d eb es x : BitVec 5) (pi t : BitVec 1) (m : BitVec 3), s.eng = .ve → s.memOk →
  let g := s.here.ve
  let base : Int := ((g.rdE eb).toNat % 2 ^ 20 : Nat)
  let stride : Int := if es = 0 then 4 else (g.rdE es).toInt
  let offS := fun (i : Nat) => base + i * stride
  let offX := fun (i : Nat) => base + (s.here.vec.lane x.toNat i : Int)
  let on := (List.range 64).filter (fun i => s.here.vec.active m i)
  let passes := fun (off : Nat → Int) (write : Bool) =>
    s.checkAll (on.map (fun i => { off := off i, len := 4, align := 4, write := write })) = .pass
  let key := fun (off : Nat → Int) (i : Nat) => nearKey s.cur (off i).toNat
  let bumped := fun (t : State) => ∀ r, t.here.ve.rdE r =
    if pi = 1 ∧ r = eb ∧ eb ≠ 0 then g.rdE eb + BitVec.ofInt 64 (64 * stride) else g.rdE r
  let rest := fun (t : State) (off : Nat → Int) (write : Bool) => steppedOn s t 1 ∧ OtherTiles s t ∧
    let x := (s.touchAll (on.map (fun i => { off := off i, len := 4, align := 4, write := write }))).begun.here
    { t.here with vec := { t.here.vec with v := x.vec.v }, ve := { t.here.ve with e := g.e, run := x.ve.run } } = x
  let loads := fun (i : Instr) (off : Nat → Int) => passes off false → Completes i s (fun t =>
    (∀ r l, r < 32 → l < 64 → t.here.vec.lane r l =
      if r = d.toNat ∧ s.here.vec.active m l = true then s.load (key off l) 4 else s.here.vec.lane r l)
    ∧ bumped t ∧ rest t off false ∧ SameMem s t ∧ { t with tiles := s.tiles } = s)
  let stores := fun (i : Instr) (off : Nat → Int) (desc : Prop) => passes off true → Completes i s (fun t =>
    (∀ j, Mem.get t.mem j = match on.reverse.find? (fun l => decide (key off l ≤ j ∧ j < key off l + 4)) with
      | some l => BitVec.ofNat 8 (s.here.vec.lane d.toNat l / 256 ^ (j - key off l))
      | none => Mem.get s.mem j)
    ∧ (∀ l, let full := ∃ o : Nat, l = nearKey s.cur (64 * o) / 64 ∧ ∀ k : Nat, k < 16 → ∃ i ∈ on, off i = ((64 * o + 4 * k : Nat) : Int)
        ((desc ∧ full) → FMap.getD 0 t.desc l = (Bank.get g.cb s.here.vec.kb.toNat).setWidth 16)
        ∧ (¬ (desc ∧ full) → FMap.getD 0 t.desc l = FMap.getD 0 s.desc l))
    ∧ t.here.vec = s.here.vec ∧ bumped t ∧ rest t off true ∧ { t with tiles := s.tiles, mem := s.mem, desc := s.desc } = s)
  loads (.vld d eb es pi m) offS ∧ stores (.vst d eb es pi m t) offS (t = 1)
  ∧ (pi = 0 → loads (.vldx d eb x m) offX ∧ stores (.vstx d eb x m) offX False)

/-- R224, R225: vsk48 keeps four of every eight elements, those of the largest magnitudes, the lower index first on a tie, packed
in order, with their mask bits in the next register; vxp48 puts elements back at the places of such a mask.
R182, R226 to R228: quantising a block to one line, each element times 2^(32 - X) converted with one rounding and saturation, with the
target's FMT and scale byte as descriptor; decoding lines, and the conditional streams, once their accesses pass. -/
def Obligations.VectorPruningQuantisingAndStreams : Prop :=
  (
  ∀ (s : State) (d A B : BitVec 5) (t : BitVec 2), s.eng = .ve →
    let w := pruneWidth t.toNat
    let n := 2048 / w
    let v := s.here.vec.whole A.toNat
    let mk := s.here.vec.whole B.toNat
    let mag := fun (i : Nat) => magnitude t.toNat (elemOf v w i)
    let others := fun (t : State) (n : Nat) =>
      (∀ r i, r < 32 → i < 64 → r < d.toNat ∨ d.toNat + n ≤ r → t.here.vec.lane r i = s.here.vec.lane r i) ∧ steppedOn s t 1
      ∧ { t.here with vec := { t.here.vec with v := s.here.vec.v }, ve := { t.here.ve with run := s.begun.here.ve.run } } = s.begun.here
      ∧ OnlyHere s t
    (d.toNat < 31 → Completes (.vsk48 d A t) s (fun t =>
      let kept := fun (i : Nat) => bitN (t.here.vec.whole (d.toNat + 1)) i
      (∀ q, q < n / 8 → ((List.range 8).filter (fun j => kept (8 * q + j))).length = 4)
      ∧ (∀ i j, i < n → j < n → i / 8 = j / 8 → kept i = true → kept j = false → mag j < mag i ∨ (mag j = mag i ∧ i < j))
      ∧ t.here.vec.whole d.toNat = packElems w (((List.range n).filter kept).map (elemOf v w))
      ∧ others t 2))
    ∧ ((∀ q, q < n / 8 → ((List.range 8).filter (fun j => bitN mk (8 * q + j))).length = 4) →
        Completes (.vxp48 d A B t) s (fun t =>
          (∀ i, i < n → elemOf (t.here.vec.whole d.toNat) w i =
            if bitN mk i then elemOf v w ((List.range i).countP (fun j => bitN mk j)) else 0)
          ∧ others t 1)))
  ∧ (
  ∀ (s : State) (d A B : BitVec 5) (kA kB : BitVec 2) (m : BitVec 3) (f : LineFmt), s.eng = .ve → s.memOk →
    let x := s.here.vec
    let on := (List.range 64).filter (fun i => x.active m i)
    let off := s.source kB B 0 0 % 2 ^ 20
    let a := s.source kA A 0 0 % 2 ^ 20
    let k := nearKey s.cur off
    let q := s.load (k + 8) 8
    let head := s.load k 4
    let tail := s.load (k + 4) 4
    let words := qcwSize q / 4
    let both := fun (o len : Nat) => s.checkAll [{ off := o, len := len, align := 1, write := false }, { off := o, len := len, align := 1, write := true }] = .pass
    let queue := qcwOk q = true ∧ q % 2 ^ 20 = off ∧ both off 32
    let n := if d.toNat < 4 then 64 else 128
    let val := fun (i : Nat) => fp32.decode (x.lane (A.toNat + i / 64) (i % 64))
    let live := fun (i : Nat) => x.active m (i % 64)
    let X := scaleX d.toNat (amaxOf (((List.range n).filter live).map val))
    let c := s.source kB B (litInt 32 B) 0 % 4
    let line := fun (i : Nat) => a + 64 * ((64 * c + i) * f.width / 512)
    let desc := fun (i : Nat) => s.descAt (nearKey s.cur (line i))
    let first := fun (o : Nat) => s.accessCheck { off := o, len := 1, align := 64, write := false } = .pass
    let lane := fun (i : Nat) => fp32.rne ((((lineFmt (desc i)).getD f).value
      (elemOf (s.load (nearKey s.cur (line i)) 64) f.width ((64 * c + i) % (512 / f.width)))).scale (lineScale (desc i)))
    let y := fun (i : Nat) => (val i).scale (32 - (X : Int))
    let code := fun (i : Nat) => if d = 0 then e4m3.cvt 0 true (y i) else if d = 1 then e5m2.cvt 0 true (y i) else fp4Cvt (d.toNat - 4) 0 (y i)
    let wide := if d.toNat < 4 then 8 else 4
    let here := fun (t : State) (l : List Access) (v : Vec) =>
      let b := (s.touchAll l).begun.here
      { t.here with vec := v, ve := { t.here.ve with run := b.ve.run } } = { b with vec := v }
    let bank := fun (o len : Nat) => [({ off := o, len := len, align := 1, write := false } : Access), { off := o, len := len, align := 1, write := true }]
    (s.checkAll [{ off := off, len := 64, align := 64, write := true }] = .pass → Completes (.vqnt d A kB B m) s (fun t =>
        (∀ i, i < n → elemOf (t.load k 64) wide i = if live i then code i % 2 ^ wide else 0)
        ∧ t.descAt k = BitVec.ofNat 16 ((if d = 0 then 0x20 else if d = 1 then 0x21 else 0x30) + 256 * ((if d.toNat < 4 then 0 else d.toNat - 4) * 64 + X))
        ∧ (∀ l, l ≠ k / 64 → FMap.getD 0 t.desc l = FMap.getD 0 s.desc l)
        ∧ SameMemBut s t k 64 ∧ steppedOn s t 1 ∧ t.here.vec = x ∧ here t [{ off := off, len := 64, align := 64, write := true }] x
        ∧ { t with tiles := s.tiles, mem := s.mem, desc := s.desc } = s ∧ OtherTiles s t))
    ∧ (on ≠ [] → first a → lineFmt (s.descAt (nearKey s.cur a)) = some f →
        (∀ i ∈ on, first (line i) ∧ (lineFmt (desc i)).map (·.width) = some f.width
          ∧ s.accessCheck { off := ((a + (64 * c + i) * f.width / 8 : Nat) : Int), len := (f.width + 7) / 8, align := 1, write := false } = .pass) →
        Completes (.vdq d kA A kB B m) s (fun t => lanesBecome (s.touchAll (on.flatMap (fun i =>
            [{ off := ((line i : Nat) : Int), len := 1, align := 64, write := false },
             { off := ((a + (64 * c + i) * f.width / 8 : Nat) : Int), len := (f.width + 7) / 8, align := 1, write := false }]))) t d m lane))
    ∧ (queue → A.toNat + words ≤ 32 → (tail + 2 ^ 32 - head) % 2 ^ 32 + on.length ≤ qcwDepth q →
        (∀ i, i < on.length → both (elemAt q (tail + i)) (qcwSize q)) → Completes (.vpushc A kB B m) s (fun t =>
          (∀ i j, i < on.length → j < words →
            t.load (nearKey s.cur (elemAt q (tail + i)) + 4 * j) 4 = x.lane (A.toNat + j) (on.getD i 0))
          ∧ t.load (k + 4) 4 = (tail + on.length) % 2 ^ 32 ∧ t.load k 4 = head ∧ t.load (k + 8) 8 = q
          ∧ (∀ j, (j < k + 4 ∨ k + 8 ≤ j) → (∀ i, i < on.length → let e := nearKey s.cur (elemAt q (tail + i))
              j < e ∨ e + qcwSize q ≤ j) → Mem.get t.mem j = Mem.get s.mem j)
          ∧ steppedOn s t 1 ∧ t.here.vec = x ∧ OtherTiles s t
          ∧ here t (bank off 32 ++ (List.range on.length).flatMap (fun i => bank (elemAt q (tail + i)) (qcwSize q))) x
          ∧ { t with tiles := s.tiles, mem := s.mem } = s))
    ∧ (let n := Min.min 64 ((tail + 2 ^ 32 - head) % 2 ^ 32)
       queue → d.toNat + words ≤ 32 → (∀ i, i < n → both (elemAt q (head + i)) (qcwSize q)) → Completes (.vpopc d kB B m) s (fun t =>
          (∀ i j, i < n → j < words →
            t.here.vec.lane (d.toNat + j) i = s.load (nearKey s.cur (elemAt q (head + i)) + 4 * j) 4)
          ∧ (∀ r i, r < 32 → i < 64 → (n ≤ i ∨ r < d.toNat ∨ d.toNat + words ≤ r) → t.here.vec.lane r i = x.lane r i)
          ∧ (∀ r, Bank.get t.here.vec.m r = if m ≠ 0 ∧ r = m.toNat then BitVec.ofNat 64 (2 ^ n - 1) else Bank.get x.m r)
          ∧ Stored s t k (bytesOf ((head + n) % 2 ^ 32) 4) ∧ steppedOn s t 1 ∧ OtherTiles s t
          ∧ here t (bank off 32 ++ (List.range n).flatMap (fun i => bank (elemAt q (head + i)) (qcwSize q))) { x with v := t.here.vec.v, m := t.here.vec.m }
          ∧ { t with tiles := s.tiles, mem := s.mem } = s)))

/-- The engine in focus becomes `g`, and nothing else changes, but that a stamped entry's first step takes its token (R347). -/
def focusBecomes (s t : State) (g : Engine) : Prop := t.here = s.begun.here.setEngine s.eng g ∧ OnlyHere s t

/-- The running entry after a step of one beat that goes on at step `k` (R95, R292). -/
def goesTo (r : Running) (k : Nat) : Running :=
  { r with step := k, nextBeat := r.nextBeat.map (· + 1), ended := if k = r.wend ∧ r.ended = none then some (0, k) else r.ended }

/-- R44, R56, R154, R229 to R234: the common controls of the step-table engines, on the VE and on a class engine; a loop that breaks a
requirement of R230 or R232, an endl with no loop of its own, and a word that does not decode fault their step; a loop one of whose table
words is landing waits, and misses when its entry is stamped. That a kbase on a class engine changes nothing but the step is the model's
choice (log 28). -/
def Obligations.EngineControls : Prop :=
  ∀ (s : State) (e : BitVec 5) (imm : BitVec 19) (kb : BitVec 8) (lc : BitVec 2) (body : BitVec 10) (stages : BitVec 4)
    (w : BitVec 32) (r : Running),
  let g := s.begun.here.engine s.eng
  g.run = some r →
  let after := fun (t : State) => t.here.engine s.eng
  let low := asSigned 17 (imm.toNat % 2 ^ 17)
  let n := imm.toNat / 2 ^ 17
  let register := fun (i : Instr) (v : Word) => Completes i s (fun t =>
    (∀ q, (after t).rdE q = if q = e then v else g.rdE q) ∧ focusBecomes s t { g with e := (after t).e, run := some (goesTo r (r.step + 1)) })
  let counter := fun (i : Instr) (v : BitVec 24) => Completes i s (fun t =>
    (∀ q, Bank.get (after t).lc q = if q = n then v else Bank.get g.lc q)
    ∧ focusBecomes s t { g with lc := (after t).lc, run := some (goesTo r (r.step + 1)) })
  let c := r.step + body.toNat
  let word := fun (j : Nat) => s.load (nearKey s.cur (r.base + 4 * j)) 4
  let closed := c < r.wend ∧ r.base + 4 * c + 4 ≤ 0xC0000 ∧ word c = 0x52000000 ∧ r.loops.length < 4
    ∧ (∀ l ∈ r.loops, l.lc ≠ lc.toNat) ∧ (∀ l, r.loops.head? = some l → c < l.c)
  let S := stages.toNat
  let piped := closed ∧ (∀ l ∈ r.loops, l.piped = false) ∧ (body.toNat - 1) % S = 0 ∧ S ≤ body.toNat - 1
    ∧ (∀ j, j < body.toNat - 1 → word (r.step + 1 + j) / 2 ^ 24 ≠ 0x50 ∧ word (r.step + 1 + j) / 2 ^ 24 ≠ 0x51)
  let N := (Bank.get (w := 24) g.lc lc.toNat).toNat
  let entered := fun (t : State) (passes stages : Nat) (p : Bool) => focusBecomes s t { g with
    q := (after t).q
    run := some { goesTo r (r.step + 1) with
      loops := { p := r.step, c := c, k := 0, passes := passes, trip := N, stages := stages, lc := lc.toNat, piped := p } :: r.loops } }
  let clear := ∀ j, r.step < j → j ≤ c → j < r.wend → r.base + 4 * j + 4 ≤ 0xC0000 → s.unitLanding s.cur ((r.base + 4 * j) / 64) r.entry.no = false
  let waits := fun (i : Instr) => ¬ clear → (s.stamped = false → Completes i s (fun t => t = s))
    ∧ (s.stamped = true → noFault s → Completes i s (fun t => ∃ j, r.step < j ∧ j ≤ c
        ∧ s.unitLanding s.cur ((r.base + 4 * j) / 64) r.entry.no = true ∧ stepFaults s t 0x11 (s.ownAddr (((r.base + 4 * j) / 64 * 64 : Nat) : Int))))
  let faults := fun (i : Instr) => noFault s → Completes i s (fun t => stepFaults s t 0x13 (BitVec.ofNat 64 r.step))
  (e ≠ 0 → register (.eaddi e imm) (BitVec.ofInt 64 ((g.rdE e).toInt + imm.toInt))
    ∧ register (.emovi e imm) (BitVec.ofInt 64 imm.toInt))
  ∧ counter (.eaddi 0 imm) (BitVec.ofInt 24 ((Bank.get (w := 24) g.lc n).toNat + low))
  ∧ counter (.emovi 0 imm) (BitVec.ofNat 24 (if imm.getLsbD 16 then (g.rdE (BitVec.ofNat 5 imm.toNat)).toNat else imm.toNat % 2 ^ 16))
  ∧ (s.eng = .ve → Completes (.kbase kb) s (fun t =>
      t.here = { s.begun.here with vec := { s.here.vec with kb := kb }, ve := { g with run := some (goesTo r (r.step + 1)) } } ∧ OnlyHere s t))
  ∧ (s.eng = .xe → Completes (.kbase kb) s (fun t => focusBecomes s t { g with run := some (goesTo r (r.step + 1)) }))
  ∧ waits (.loop lc body) ∧ waits (.loopp lc body stages)
  ∧ (clear → closed → N = 0 → Completes (.loop lc body) s (fun t => focusBecomes s t { g with run := some (goesTo r (c + 1)) }))
  ∧ (clear → closed → N ≠ 0 → Completes (.loop lc body) s (fun t => entered t N 1 false ∧ (after t).q = g.q))
  ∧ (clear → ¬ closed → faults (.loop lc body))
  ∧ (clear → piped → N = 0 → Completes (.loopp lc body stages) s (fun t => focusBecomes s t { g with run := some (goesTo r (c + 1)) }))
  ∧ (clear → piped → N ≠ 0 → Completes (.loopp lc body stages) s (fun t => entered t (N + S - 1) S true
      ∧ ∀ i, i < 8 → (after t).q.getLsbD i = decide (i = 0 ∧ 0 < S)))
  ∧ (clear → ¬ piped → faults (.loopp lc body stages))
  ∧ (∀ l rest, r.loops = l :: rest → l.c = r.step → Completes .endl s (fun t =>
      let more := decide (l.k + 1 < l.passes)
      t.here = { s.begun.here.setEngine s.eng { g with
          q := (after t).q
          run := some (if more then { goesTo r (l.p + 1) with loops := { l with k := l.k + 1 } :: rest }
            else { goesTo r (r.step + 1) with loops := rest }) } with
        vec := if l.piped = true ∧ s.eng = .ve then { s.here.vec with rrb := (s.here.vec.rrb + 15) % 16 } else s.here.vec }
      ∧ (∀ i, i < 8 → (after t).q.getLsbD i =
          if l.piped then more && decide (i < l.stages ∧ i ≤ l.k + 1 ∧ l.k + 1 < l.trip + i) else g.q.getLsbD i)
      ∧ OnlyHere s t))
  ∧ ((∀ l, r.loops.head? = some l → l.c ≠ r.step) → faults .endl)
  ∧ Completes .sstop s (fun t => focusBecomes s t { g with run := some { r with ended := some (0, r.step + 1), loops := [] } })
  ∧ Completes .snop s (fun t => focusBecomes s t { g with run := some (goesTo r (r.step + 1)) })
  ∧ faults (.illegalMicroOrder w)

/-- Element (i, j) of logical accumulator `n`. -/
def accAt (x : Mat) (n i j : Nat) : Nat := (Bank.get (w := 32) x.acc (accKey (x.tileOf n) i j)).toNat

/-- Only the matrix registers and the running entry of the class engine differ between the two states. -/
def matOnly (s t : State) : Prop :=
  { t.here with mat := s.here.mat, xe := { t.here.xe with run := s.begun.here.xe.run } } = s.begun.here ∧ OnlyHere s t

/-- The class engine's step holds the line at an offset: it has read it in an earlier turn (R342). -/
def holdsLine (s : State) (off : Nat) : Bool :=
  match s.here.xe.run with | some r => (FMap.get? r.lines (off / 64)).isSome | none => false

/-- Byte `i` from a window offset on, as the class engine's step has read it, or reads it now (R342). -/
def readByte (s : State) (off : Nat) : Byte :=
  match s.here.xe.run.bind (fun r => FMap.get? r.lines (off / 64)) with
  | some l => l.getD (off % 64) 0
  | none => Mem.get s.mem (nearKey s.cur off)

/-- The step reads in one turn what it does not hold yet of the lines: it is not bounded, or holds all of them (R342). -/
def readsAll (s : State) (lines : List Nat) : Prop := s.part = none ∨ ∀ l ∈ lines, holdsLine s l = true

/-- A turn bounded to one line reads the first one that the step does not hold, where it passes its check, and nothing else changes but
its banks (R342, R349). -/
def ReadsOne (i : Instr) (s : State) (acc : List Access) (passes : Access → Prop) : Prop :=
  ∀ a, s.part = some 1 → acc.find? (fun a => !holdsLine s a.off.toNat) = some a → a.write = false → passes a → Completes i s (fun t =>
    let x := (s.touchAll [a]).here
    let line := a.off.toNat / 64
    t.here = { x with xe := { x.xe with run := x.xe.run.map (fun r => { r with
        lines := FMap.set r.lines line (Mem.bytes s.mem (nearKey s.cur (64 * line)) 64)
        descs := if (FMap.get? r.descs line).isSome then r.descs else FMap.set r.descs line (s.descAt (nearKey s.cur (64 * line))) }) } }
    ∧ OnlyHere s t)

/-- The entry of the class engine went on to its next step, which holds no line yet. -/
def readOn (s t : State) (beats : Nat) : Prop :=
  t.here.xe.run = s.begun.here.xe.run.map (fun r => { r with
    step := r.step + 1, nextBeat := r.nextBeat.map (· + BitVec.ofNat 64 beats), descs := [], lines := []
    ended := if r.step + 1 = r.wend ∧ r.ended = none then some (0, r.step + 1) else r.ended })

/-- No drain is pending for the entry in focus (R285). -/
abbrev noDrains (s : State) : Prop := s.stamped = false ∨ s.here.mat.drains = []

/-- R284, R286, R296: a new accumulator takes a free tile of zeros, accz clears the tile that it has, accld fills a free one from
32 rows; mdld fills a metadata register; bstr sets a stride register. Type and sticky bit go with the accumulator. accld and mdld read
their lines one after another, some of them in earlier turns (R342), and wait for their drains and a free tile before they judge any. -/
def Obligations.MatrixRegisters : Prop :=
  ∀ (s : State) (acc : BitVec 3) (ty : BitVec 1) (eA eS : BitVec 5) (md : BitVec 2) (n : BitVec 4),
  s.eng = .xe → noDrains s → s.here.mat.phys.length = 8 →
  let m := s.here.mat
  let k := acc.toNat
  let base := s.eReg eA.toNat % 2 ^ 20
  let str := s.eReg eS.toNat
  let v := s.eReg eS.toNat
  let lines := linesFrom base 1536
  let read := fun (l : List Nat) => s.touchAll ((l.map (lineAccess · false)).filter (fun a => !holdsLine s a.off.toNat))
  let word := fun (o : Nat) => ((List.range 4).map (fun i => (readByte s (o + i)).toNat * 256 ^ i)).sum
  let whole := ∀ r, s.here.xe.run = some r → ∀ l ∈ r.lines, l.2.length = 64
  let becomes := fun (i : Instr) (p : Nat) (v : Nat → Nat → Nat) (on : State → Prop) (l : List Nat) => Completes i s (fun t =>
    let x := t.here.mat
    x.phys = m.phys.set k p ∧ (∀ i j, i < 32 → j < 32 → accAt x k i j = v i j)
    ∧ (∀ q i, q ≠ p → i < 1024 → Bank.get x.acc (1024 * q + i) = Bank.get m.acc (1024 * q + i))
    ∧ (∀ j, j < 8 → x.ty.getLsbD j = if j = k then decide (ty = 1) else m.ty.getLsbD j)
    ∧ (∀ j, j < 8 → x.sticky.getLsbD j = (decide (j ≠ k) && m.sticky.getLsbD j))
    ∧ { x with acc := m.acc, phys := m.phys, ty := m.ty, sticky := m.sticky } = m ∧ on t ∧ matOnly (read l) t)
  (∀ p, s.freeTile = some p → p < 24 ∧ p ∉ m.phys ∧ becomes (.accnew acc ty) p (fun _ _ => 0) (steppedOn s · 1) [])
  ∧ becomes (.accz acc ty) (m.tileOf k) (fun _ _ => 0) (steppedOn s · 1) []
  ∧ (let rows := (List.range 32).flatMap (fun i => linesFrom (base + i * str) 128)
     ∀ p, s.freeTile = some p → (str = 0 ∨ 128 ≤ str) →
      (whole → readsAll s rows → s.rowLines base str rows false = .pass →
        becomes (.accld acc ty eA eS) p (fun i j => word (base + i * str + 4 * j)) (readOn s · 64) rows)
      ∧ ReadsOne (.accld acc ty eA eS) s (rows.map (lineAccess · false)) (fun a => base % 64 = 0 ∧ str % 64 = 0 ∧ s.accessCheck a = .pass))
  ∧ (base % 64 = 0 → whole → readsAll s lines →
      (∀ l ∈ lines, s.accessCheck (lineAccess l false) = .pass ∧ (s.lineDesc l).toNat % 256 = 0x50 ∧ (s.lineDesc l).toNat < 2 ^ 14) →
      Completes (.mdld md eA) s (fun t =>
        (∀ j, Bank.get t.here.mat.md j = if 1536 * md.toNat ≤ j ∧ j < 1536 * (md.toNat + 1)
          then readByte s (base + (j - 1536 * md.toNat)) else Bank.get m.md j)
        ∧ { t.here.mat with md := m.md } = m ∧ readOn s t 24 ∧ matOnly (read lines) t))
  ∧ (base % 64 = 0 → ReadsOne (.mdld md eA) s (lines.map (lineAccess · false)) (fun a => s.accessCheck a = .pass
        ∧ (s.lineDesc a.off.toNat).toNat % 256 = 0x50 ∧ (s.lineDesc a.off.toNat).toNat < 2 ^ 14))
  ∧ (n.toNat ≤ 11 → v < 2 ^ 40 → v / 2 ^ 4 % 2 ^ 16 = 0 → v % 16 ≤ 11 → Completes (.bstr n eS) s (fun t =>
      (∀ j, Bank.get t.here.mat.b j = if j = n.toNat then BitVec.ofNat 64 v else Bank.get m.b j)
      ∧ { t.here.mat with b := m.b } = m ∧ steppedOn s t 1 ∧ matOnly s t))

/-- R177 to R180, R277 to R282, R291 to R295: a turn of mma (form 0), mma.r (1) or mma.s (2) applies one chunk, or the rest of it, or, in
a bounded turn, some of its row groups, once its checks pass and, at its issue, once the budget covers its debit: each valid
accumulator element takes the chunk's groups of 32 in order, each group the
exact sum of its products, rounded and added with one more rounding, or added as an integer that wraps and may set the sticky
bit. A chunk's lines are read one after another, some of them in earlier turns (R342). The descriptors that a chunk read stay with the
micro-order until it is done (R165), and a pending eprg acts then (R97). With
nothing valid the step is done at once; without the budget it waits. That a chunk's beats are split evenly over its row groups is the
model's choice (log 101). -/
def Obligations.MatrixProducts : Prop :=
  ∀ (s : State) (form : Nat) (acc : BitVec 3) (eA eB : BitVec 5) (ec : BitVec 3) (mode : BitVec 2) (kc : BitVec 6)
    (nrow ncol code c rg : Nat), s.eng = .xe → noDrains s → form < 3 →
  let o := mmaOf form acc eA eB ec mode kc
  let i := if form = 0 then Instr.mma acc eA eB ec mode kc else if form = 1 then .mmaR acc eA eB ec mode kc else .mmaS acc eA eB ec mode kc
  let m := s.here.mat
  let k := acc.toNat
  let w := code / 2
  let flt := bitN code 0
  let a := fun (i g : Nat) => s.elemsAt o (s.aRow o i c + 4 * w * g) w 32
  let b := fun (j g : Nat) => if form = 2 then s.elemsAt o (s.bRow o j c + 2 * w * g) w 16 else s.elemsAt o (s.bRow o j c + 4 * w * g) w 32
  let sum := fun (i j g : Nat) => (s.groupPairs o w c j g (a i g) (b j g)).foldl (fun p t => p.add (t.1.mul t.2)) (.fin true 0 0)
  let new := fun (i j : Nat) => (List.range (192 * 8 / w / 32)).foldl (fun (v : Nat × Bool) g =>
    if flt then (fp32.rne ((fp32.decode v.1).add (fp32.decode (fp32.rne (sum i j g)))), v.2)
    else
      let y := asSigned 32 v.1 + nearestInt (sum i j g)
      ((y % 2 ^ 32).toNat, v.2 || decide (y < -(2 ^ 31) ∨ 2 ^ 31 ≤ y))) (accAt m k i j, false)
  let debit := if s.mmaAt = none then o.debit w nrow else 0
  let parts := s.aParts o nrow c ++ s.bParts o ncol c
  let s1 := s.touchAll (parts.filter (fun a => !holdsLine s a.off.toNat))
  let reads := s.part = none ∨ ∀ a ∈ parts, holdsLine s a.off.toNat = true
  let groups := (nrow + 7) / 8
  let left := groups - rg
  let n := match s.part with | none => left | some n => Min.min (Max.max 1 n) left
  let now := fun (i j : Nat) => 8 * rg ≤ i ∧ i < 8 * (rg + n) ∧ i < nrow ∧ j < ncol
  let descs := fun (r : Running) => if o.byDesc then
    (s.aLines o nrow c ++ s.bLines o ncol c).foldl (fun l x => FMap.set l (x / 64) (s.lineDesc x)) r.descs else r.descs
  let runs := fun (x : Tile) (f : Running → Running) => { x with xe := { x.xe with run := x.xe.run.map f } }
  s.mmaShape o = some (nrow, ncol) →
  ((s.chunkCheck o nrow ncol code c = .pass → reads → rg < groups → 0 < nrow → 0 < ncol →
      (s.mmaAt = some (c, rg, code) ∨ s.mmaAt = none ∧ c = 0 ∧ rg = 0 ∧ s.mmaIssue o = .go code ∧ debit ≤ s.here.ebud) →
      Completes i s (fun t =>
        let x := t.here.mat
        let b := s1.begun.here
        let y := { b with mat := x, ebud := s.here.ebud - debit, ebudUsed := s.here.ebudUsed || decide (0 < debit) }
        (∀ i j, i < 32 → j < 32 → accAt x k i j = if now i j then (new i j).1 else accAt m k i j)
        ∧ (∀ q i, q ≠ m.tileOf k → i < 1024 → Bank.get x.acc (1024 * q + i) = Bank.get m.acc (1024 * q + i))
        ∧ (∀ j, j < 8 → (x.sticky.getLsbD j = true ↔ m.sticky.getLsbD j = true ∨ (j = k ∧ ∃ i j, now i j ∧ (new i j).2 = true)))
        ∧ { x with acc := m.acc, sticky := m.sticky } = m
        ∧ (let beat := fun (r : Running) => r.nextBeat.map (· + BitVec.ofNat 64 (n * (o.chunkBeats nrow / groups)))
           t.here =
            if n < left then runs y (fun r => { r with mma := some (c, rg + n, code), descs := descs r, nextBeat := beat r })
            else if c ≠ kc.toNat then runs y (fun r => { r with mma := some (c + 1, 0, code), descs := descs r, lines := [], nextBeat := beat r })
            else (runs y (fun r => { r with
                mma := none, descs := [], lines := [], step := r.step + 1, nextBeat := beat r
                ended := if r.step + 1 = r.wend ∧ r.ended = none then some (0, r.step + 1) else r.ended })).rebase .xe)
        ∧ OnlyHere s1 t))
    ∧ (s.mmaAt = none → s.mmaIssue o = .empty → Completes i s (fun t =>
        t.here = (runs s.begun.here (fun r => { goesTo r (r.step + 1) with mma := none, descs := [], lines := [] })).rebase .xe ∧ OnlyHere s t))
    ∧ (s.mmaAt = none → c = 0 → s.mmaIssue o = .go code → s.chunkCheck o nrow ncol code 0 = .pass → reads → s.stamped = false →
        s.here.ebud < debit → Completes i s (fun t => t.here = runs s.here (fun r => { r with descs := [], lines := [] }) ∧ OnlyHere s t))
    ∧ ((s.mmaAt = some (c, rg, code) ∨ s.mmaAt = none ∧ c = 0 ∧ s.mmaIssue o = .go code) →
        s.alignCheck (s.eOff o.eA) (s.eReg (o.eA + 1)) 0 = .pass → s.alignCheck (s.eOff o.eB) (s.eReg (o.eB + 1)) 0 = .pass →
        ReadsOne i s parts (fun a => s.mmaLine o code a = .pass)))

/-- The exact value of element `k` of a butterfly stage with stride 2^LS and weights at WOFF, of the input `x` (R296, R300). -/
def stageValue (s : State) (st : Nat × Nat) (x : Nat → Sys2Proof.Machine.Num) (k : Nat) : Sys2Proof.Machine.Num :=
  let h := 2 ^ st.1
  let up := k / h % 2
  let lo := k - up * h
  let p := lo / (2 * h) * h + lo % h
  let weight := fun (q : Nat) => bf16.decode (s.load (nearKey s.cur (st.2 + 8 * p + 2 * (2 * up + q))) 2)
  ((weight 0).mul (x lo)).add ((weight 1).mul (x (lo + h)))

/-- A row through stages: each rounds to the intermediate format, and the last to the output format (R300). -/
def rowThrough (s : State) (o : Bfly) (x : Nat → Sys2Proof.Machine.Num) : List (Nat × Nat) → Nat → Nat
  | [], _ => 0
  | [t], k => o.fout.rne (stageValue s t x k)
  | t :: r, k => rowThrough s o (fun k => o.mid.decode (o.mid.rne (stageValue s t x k))) r k

/-- R181 to R184, R287 to R290, R297 to R302: a drain writes every output line of its accumulator with its descriptor, raises
the tensor word to the largest magnitude, as an FP32 value also where the target is I32 (a reading, log 33), and reports in its flag
register; an update that has to wait is made later by the engine, in order, and the flags are reported only then (a reading, log 34),
and one whose word no live task holds any more is dropped with flag bit 3 (R290); bfs and bfc put each row of the input through one
stage, or through stages 0 to c, into memory or into an accumulator. -/
def Obligations.DrainsAndButterflies : Prop :=
  ∀ (s : State) (acc : BitVec 3) (eD eC eF eX dst : BitVec 5) (L c : BitVec 4) (P D IF OF : BitVec 1), s.eng = .xe → s.memOk →
  let m := s.here.mat
  let n := acc.toNat
  let chain := fun (b : Bool) => if b then Instr.bfc eX dst L c P D IF OF else .bfs eX dst L c P D IF OF
  (∀ o, s.drainOp eD.toNat eC.toNat = some o → m.ty.getLsbD n = o.tgt.isInt → s.rowLines o.base o.dstr o.lines true = .pass →
    let count := 2 * o.tgt.width
    let key := fun (l : Nat) => nearKey s.cur (o.line l)
    let es := fun (l : Nat) => s.drainElems o n l
    let line := fun (l : Nat) => drainLine o (es l)
    let amax := fp32.rne ((List.range count).foldl (fun v l => amaxOf [v, lineAmax o.tgt.isInt (es l)]) (.fin false 0 0))
    let flags := (if o.tgt.isInt && m.sticky.getLsbD n then 1 else 0) + (if (List.range count).any (fun l => (line l).2.2.1) then 2 else 0)
      + (if (List.range count).any (fun l => (line l).2.2.2) then 4 else 0)
    let drained := fun (word : Option Nat) (flags : Nat) (tensor : List TensorUpd) => s.tensorCheck o = .pass → Completes (.drain acc eD eC eF) s (fun t =>
      (∀ l, l < count → t.load (key l) 64 = packElems o.tgt.width (line l).1 % 2 ^ 512 ∧ t.descAt (key l) = (line l).2.1)
      ∧ (∀ k, word = some k → t.load k 4 = Max.max (s.load k 4) amax)
      ∧ (∀ j, (∀ l, l < count → j < key l ∨ key l + 64 ≤ j) → (∀ k, word = some k → j < k ∨ k + 4 ≤ j) → Mem.get t.mem j = Mem.get s.mem j)
      ∧ (∀ r, t.here.xe.rdE r = if r = eF ∧ eF ≠ 0 then s.here.xe.rdE eF ||| BitVec.ofNat 64 flags else s.here.xe.rdE r)
      ∧ { t.here.mat with drains := m.drains } = { m with tensor := tensor } ∧ steppedOn s t 2 ∧ t.here.vec = s.here.vec ∧ OtherTiles s t)
    (o.word = none → drained none flags m.tensor)
    ∧ (∀ a, o.word = some a →
        let blocked := fun (d off : Nat) => s.tensorLanding s.cur d off s.entryNo = true ∨ (2 ≤ o.ord ∧ ¬ (s.accesses s.cur = [] ∧ s.here.reads = []))
        (∀ d off, m.tensor = [] → s.near s.here.ctx a 4 = .ok d off → ¬ blocked d off →
          (∀ l, l < count → nearKey d off + 4 ≤ key l ∨ key l + 64 ≤ nearKey d off) → drained (some (nearKey d off)) flags [])
        ∧ ((m.tensor ≠ [] ∨ s.near s.here.ctx a 4 = .wait ∨ ∃ d off, s.near s.here.ctx a 4 = .ok d off ∧ blocked d off) →
          drained none 0 (m.tensor ++ [{ addr := a, enc := amax, ord := o.ord, eF := eF, flags := flags, no := s.entryNo }]))))
  ∧ (∀ u rest, m.tensor = u :: rest →
      let after := fun (f : Nat) (t : State) => t.here.mat = { m with tensor := rest } ∧ OtherTiles s t
        ∧ (∀ r, t.here.xe.rdE r = if r = u.eF ∧ u.eF ≠ 0 then s.here.xe.rdE u.eF ||| BitVec.ofNat 64 f else s.here.xe.rdE r)
      (∀ k, s.findNear s.here.ctx u.addr = .bad k → ∃ t, s.tensorStep s.cur = some t ∧ after (u.flags + 8) t ∧ SameMem s t)
      ∧ (∀ d off, s.findNear s.here.ctx u.addr = .ok d off → s.tensorLanding s.cur d off u.no = false → u.ord < 2 →
          ∃ t, s.tensorStep s.cur = some t ∧ after u.flags t
            ∧ t.load (nearKey d off) 4 = Max.max (s.load (nearKey d off) 4) u.enc % 2 ^ 32 ∧ SameMemBut s t (nearKey d off) 4))
  ∧ (∀ b o, s.bflyOp b eX.toNat dst.toNat L.toNat c.toNat (decide (P = 1)) (decide (D = 1)) (decide (IF = 1)) (decide (OF = 1)) = some o →
      noDrains s → o.rows ≠ 0 → (∀ a, o.acc = some a → m.ty.getLsbD a = false) → s.bflyCheck o = .pass →
      let X := fun (i : Nat) => nearKey s.cur (o.xBase + i * o.xStr)
      let Y := fun (i : Nat) => nearKey s.cur (o.yBase + i * o.yStr)
      let x := fun (i k : Nat) => o.fin.decode (elemOf (s.load (X i) o.xLen) o.fin.width k)
      let y := fun (i : Nat) => rowThrough s o (x i) o.stages
      let apart := fun (p l q k : Nat) => p + l ≤ q ∨ q + k ≤ p
      let beats := o.stages.length * Max.max 1 ((o.rows * o.n + 2047) / 2048)
      (∀ a, o.acc = some a → Completes (chain b) s (fun t =>
        (∀ i k, i < 32 → k < 32 → accAt t.here.mat a i k = if i < o.rows ∧ k < o.n then y i k % 2 ^ 32 else accAt m a i k)
        ∧ { t.here.mat with acc := m.acc } = m ∧ steppedOn s t beats ∧ matOnly (s.touchAll (o.reads ++ o.yParts)) t))
      ∧ (o.acc = none → (∀ i j, i < o.rows → j < o.rows → i ≠ j → apart (Y i) o.yLen (X j) o.xLen ∧ apart (Y i) o.yLen (Y j) o.yLen) →
        Completes (chain b) s (fun t =>
          (∀ i, i < o.rows → (∀ k, k < o.n → elemOf (t.load (Y i) o.yLen) o.fout.width k = y i k % 2 ^ o.fout.width)
            ∧ ∀ k, k < o.yLen / 64 → t.descAt (Y i + 64 * k) = if OF = 1 then 0x2010 else 0x2012)
          ∧ (∀ j, (∀ i, i < o.rows → j < Y i ∨ Y i + o.yLen ≤ j) → Mem.get t.mem j = Mem.get s.mem j)
          ∧ t.here.mat = m ∧ steppedOn s t beats ∧ OtherTiles s t)))

/-- A list of keys with payloads is in the stable order of R315 with respect to another: the same elements, none before one that
precedes it, and elements of equal keys in their old order. -/
def stableOrderOf (p : Nat → Nat → Bool) (new old : List (Nat × Nat)) : Prop :=
  new.Perm old ∧ new.Pairwise (fun a b => p b.1 a.1 = false)
    ∧ ∀ k, new.filter (fun e => !p e.1 k && !p k e.1) = old.filter (fun e => !p e.1 k && !p k e.1)

/-- The bytes `[a, a + n)` and `[b, b + m)` have none in common. -/
abbrev apart (a n b m : Nat) : Prop := n = 0 ∨ m = 0 ∨ a + n ≤ b ∨ b + m ≤ a

/-- R312 to R318: the sort engine's micro-orders, once their accesses pass. Each writes its keys, with pl = 1 its payloads, and
the output count in e[eD + 2], and nothing else of memory; lines of keys written in full receive the key type's descriptor.
What is written: the stable order; its first k; of two runs in order, their stable order; each segment in stable order; the
first element of each run of equal keys; the number of keys that precede each query. -/
def Obligations.SortResults : Prop :=
  ∀ (s : State) (eA eB eD : BitVec 5) (kt : BitVec 3) (ds pl : BitVec 1), s.eng = .xe → s.memOk →
  let p := precedes kt.toNat (decide (ds = 1))
  let w := keyWidth kt.toNat
  let desc := keyDesc kt.toNat
  let reg := fun (e : BitVec 5) (k : Nat) => s.eReg (e.toNat + k)
  let off := fun (e : BitVec 5) (k : Nat) => reg e k % 2 ^ 20
  let key := fun (e : BitVec 5) (i : Nat) => s.load (nearKey s.cur (off e 0 + w * i)) w
  let pay := fun (e : BitVec 5) (i : Nat) => if pl = 1 then s.load (nearKey s.cur (off e 1 + 4 * i)) 4 else 0
  let run := fun (e : BitVec 5) (n : Nat) => (List.range n).map (fun i => (key e i, pay e i))
  let a := run eA (reg eA 2)
  let put := fun (i : Instr) (op : SortOp) (eB : Nat) (w : Nat) (desc : BitVec 16) (out : List (Nat × Nat)) (count : Nat) =>
    s.sortIllegal op eA.toNat eB eD.toNat kt.toNat (decide (ds = 1)) (decide (pl = 1)) = false →
    s.sortInputs op eA.toNat eB kt.toNat (decide (pl = 1)) = .pass →
    s.checkAll (arrayAccess (off eD 0) (w * out.length) w true ++
      (if pl = 1 then arrayAccess (off eD 1) (4 * out.length) 4 true else [])) = .pass →
    Completes i s (fun t =>
      let pays := if pl = 1 then 4 * out.length else 0
      (apart (off eD 0) (w * out.length) (off eD 1) pays →
        (∀ i, i < out.length → t.load (nearKey s.cur (off eD 0 + w * i)) w = (out.getD i (0, 0)).1 % 2 ^ (8 * w))
        ∧ (∀ l, off eD 0 ≤ 64 * l → 64 * l + 64 ≤ off eD 0 + w * out.length → t.descAt (nearKey s.cur (64 * l)) = desc))
      ∧ (pl = 1 → ∀ i, i < out.length → t.load (nearKey s.cur (off eD 1 + 4 * i)) 4 = (out.getD i (0, 0)).2)
      ∧ (∀ j, apart j 1 (nearKey s.cur (off eD 0)) (w * out.length) → apart j 1 (nearKey s.cur (off eD 1)) pays →
          Mem.get t.mem j = Mem.get s.mem j)
      ∧ (∀ r : BitVec 5, t.here.xe.rdE r = if r.toNat = eD.toNat + 2 then BitVec.ofNat 64 count else s.here.xe.rdE r)
      ∧ (∃ n, steppedOn s t n) ∧ t.here.mat = s.here.mat ∧ t.here.vec = s.here.vec ∧ OtherTiles s t)
  let seg := fun (k : Nat) => s.load (nearKey s.cur (off eB 0 + 4 * k)) 4
  let part := fun (l : List (Nat × Nat)) (k : Nat) => (l.drop (seg k)).take (seg (k + 1) - seg k)
  (∃ out, stableOrderOf p out a ∧ put (.sort eA eD kt ds pl) .sort 0 w desc out (reg eA 2))
  ∧ (∃ out, stableOrderOf p out a ∧
      put (.topk eA eB eD kt ds pl) .topk eB.toNat w desc (out.take (reg eB 0)) (Min.min (reg eB 0) (reg eA 2)))
  ∧ (let b := run eB (reg eB 2)
     ∃ out, (a.Pairwise (fun x y => p y.1 x.1 = false) → b.Pairwise (fun x y => p y.1 x.1 = false) → stableOrderOf p out (a ++ b))
      ∧ put (.merge eA eB eD kt ds pl) .merge eB.toNat w desc out (reg eA 2 + reg eB 2))
  ∧ (∃ out : List (Nat × Nat), out.length = a.length ∧
      (s.sortInputs .segsort eA.toNat eB.toNat kt.toNat (decide (pl = 1)) = .pass →
        (∀ k, k < reg eB 2 → stableOrderOf p (part out k) (part a k))
        ∧ ∀ i, (i < seg 0 ∨ seg (reg eB 2) ≤ i) → out[i]? = a[i]?)
      ∧ put (.segsort eA eB eD kt ds pl) .segsort eB.toNat w desc out (reg eA 2))
  ∧ (let starts := (List.range (reg eA 2)).filter (fun i => decide (i = 0 ∨ key eA i ≠ key eA (i - 1)))
     put (.uniq eA eD kt ds pl) .uniq 0 w desc (starts.map (fun i => (key eA i, pay eA i))) starts.length)
  ∧ put (.rankof eA eB eD kt ds pl) .rankof eB.toNat 4 0
      ((List.range (reg eB 2)).map (fun q => (a.countP (fun e => p e.1 (key eB q)), 0))) (reg eB 2)

/-- R320 to R327: the sparse engine's micro-orders of an unstamped entry, once their inputs and accesses pass. Each dense result is
the fold of R324 over the row's stored entries in their order, from 0 or from what the destination held; the product of two
sparse matrices has in each row the columns that any term has, ascending, and as many whole rows as fit; tdir writes each
tile's density and count. -/
def Obligations.SparseResults : Prop :=
  ∀ (s : State) (eH eX eY : BitVec 5) (acc xf : BitVec 1), s.eng = .xe → s.memOk → s.stamped = false →
  let key := nearKey s.cur
  let reg := fun (e : BitVec 5) (k : Nat) => s.eReg (e.toNat + k)
  let off := fun (e : BitVec 5) => reg e 0 % 2 ^ 20
  let h := s.readHead (off eH)
  let F := if xf = 0 then fp32 else bf16
  let w := F.width / 8
  let entries := fun (h : SpHead) (r : Nat) => (List.range (s.ptr h (r + 1) - s.ptr h r)).map (fun k => s.ptr h r + k)
  let dense := fun (r : Nat) (start : Nat) (x : Nat → Nat) => (entries h r).foldl (fun v p =>
    fp32.rne ((fp32.decode v).add ((s.valOf h p).mul (F.decode (s.load (key (x (s.colOf h p))) w))))) (if acc = 1 then s.load (key start) 4 else 0)
  let ends := fun (t : State) (beats : Nat) => steppedOn s t beats ∧ t.here.mat = s.here.mat ∧ t.here.vec = s.here.vec ∧ OtherTiles s t
  (eY.toNat + 2 < 32 → s.matrixCheck (off eH) true = .pass →
    s.checkAll (arrayAccess (off eX) (w * h.cols) w false ++ (if acc = 1 then arrayAccess (off eY) (4 * h.rows) 4 false else []) ++
      arrayAccess (off eY) (4 * h.rows) 4 true) = .pass →
    Completes (.spmv eH eX eY acc xf) s (fun t =>
      (∀ r, r < h.rows → t.load (key (off eY + 4 * r)) 4 = dense r (off eY + 4 * r) (fun c => off eX + w * c))
      ∧ SameMemBut s t (key (off eY)) (4 * h.rows)
      ∧ (∀ r : BitVec 5, t.here.xe.rdE r = if r.toNat = eY.toNat + 2 then BitVec.ofNat 64 (s.denseReport h) else s.here.xe.rdE r)
      ∧ ends t 1))
  ∧ (let n := reg eX 2
     let xs := reg eX 1
     let ys := reg eY 1
     let rows := fun (base str count len al : Nat) (wr : Bool) => (List.range count).flatMap (fun i => arrayAccess (base + i * str) len al wr)
     eY.toNat + 2 < 32 → eX.toNat + 2 < 32 → 1 ≤ n → n ≤ 256 → xs % w = 0 → n * w ≤ xs → off eY % 4 = 0 → ys % 4 = 0 →
     (4 * n ≤ ys ∨ h.rows ≤ 1) → s.matrixCheck (off eH) true = .pass →
     s.checkAll (rows (off eX) xs h.cols (n * w) w false) = .pass →
     s.checkAll ((if acc = 1 then rows (off eY) ys h.rows (4 * n) 4 false else []) ++ rows (off eY) ys h.rows (4 * n) 4 true) = .pass →
     Completes (.spmm eH eX eY acc xf) s (fun t =>
      (∀ r j, r < h.rows → j < n → t.load (key (off eY + r * ys + 4 * j)) 4 =
        dense r (off eY + r * ys + 4 * j) (fun c => off eX + c * xs + w * j))
      ∧ (∀ j, (∀ r, r < h.rows → apart j 1 (key (off eY + r * ys)) (4 * n)) → Mem.get t.mem j = Mem.get s.mem j)
      ∧ (∀ r : BitVec 5, t.here.xe.rdE r = if r.toNat = eY.toNat + 2 then BitVec.ofNat 64 (s.denseReport h) else s.here.xe.rdE r)
      ∧ ends t 1))
  ∧ (let b := s.readHead (off eX)
     let c := s.readHead (off eY)
     let terms := fun (i : Nat) => (entries h i).flatMap (fun p => (entries b (s.colOf h p)).map (fun q => (s.colOf b q, s.valOf h p, s.valOf b q)))
     let value := fun (i col : Nat) => ((terms i).filter (fun t => decide (t.1 = col))).foldl
       (fun v t => fp32.rne ((fp32.decode v).add (t.2.1.mul t.2.2))) 0
     eY.toNat + 2 < 32 → s.matrixCheck (off eH) true = .pass → s.matrixCheck (off eX) true = .pass → b.rows = h.cols →
     s.checkAll (headAccess (off eY) false ++ headAccess (off eY) true) = .pass → s.outBad c = none →
     s.checkAll (arrayAccess c.roff (4 * (h.rows + 1)) 4 true ++ arrayAccess c.coff (4 * c.nnz) 4 true ++
       arrayAccess c.voff (4 * c.nnz) 4 true) = .pass →
     let R := (c.roff, 4 * (h.rows + 1))
     let C := (c.coff, 4 * c.nnz)
     let V := (c.voff, 4 * c.nnz)
     let H := (off eY, 32)
     (∀ x ∈ [(R, C), (R, V), (C, V), (R, H), (C, H), (V, H)], apart x.1.1 x.1.2 x.2.1 x.2.2) →
     Completes (.spgemm eH eX eY) s (fun t =>
      ∃ (n : Nat) (cols : Nat → List Nat),
        let ptr := fun (i : Nat) => ((List.range i).map (fun r => (cols r).length)).sum
        n ≤ h.rows
        ∧ (∀ i, i < h.rows → (cols i).Pairwise (· < ·) ∧ ∀ x, x ∈ cols i ↔ ∃ q ∈ terms i, q.1 = x)
        ∧ ptr n ≤ c.nnz ∧ (n < h.rows → c.nnz < ptr (n + 1))
        ∧ (∀ i, i ≤ n → t.load (key (c.roff + 4 * i)) 4 = ptr i)
        ∧ (∀ i k, i < n → k < (cols i).length →
            t.load (key (c.coff + 4 * (ptr i + k))) 4 = (cols i).getD k 0
            ∧ t.load (key (c.voff + 4 * (ptr i + k))) 4 = value i ((cols i).getD k 0))
        ∧ t.load (key (off eY)) 4 = n ∧ t.load (key (off eY + 4)) 4 = b.cols ∧ t.load (key (off eY + 12)) 4 = ptr n
        ∧ (∀ j, (∀ x ∈ [R, C, V, H], apart j 1 (key x.1) x.2) → Mem.get t.mem j = Mem.get s.mem j)
        ∧ t.here.xe.rdE (BitVec.ofNat 5 (eY.toNat + 1)) = BitVec.ofNat 64 (n + if n < h.rows then 2 ^ 63 else 0)
        ∧ ends t 1))
  ∧ (let ti := fun (n : Nat) => (n + 127) / 128
     let count := ti h.rows * ti h.cols
     s.matrixCheck (off eH) false = .pass → h.tdoff ≠ 0 → s.checkAll (arrayAccess h.tdoff (8 * count) 8 true) = .pass →
     Completes (.tdir eH) s (fun t =>
      (∀ i j, i < ti h.rows → j < ti h.cols →
        let n := ((List.range 128).map (fun r => if 128 * i + r < h.rows
          then (entries h (128 * i + r)).countP (fun p => decide (s.colOf h p / 128 = j)) else 0)).sum
        let cells := Min.min 128 (h.rows - 128 * i) * Min.min 128 (h.cols - 128 * j)
        t.load (key (h.tdoff + 8 * (i * ti h.cols + j))) 4 = n % 2 ^ 32
        ∧ t.load (key (h.tdoff + 8 * (i * ti h.cols + j) + 4)) 4 = Min.min 65535 (n * 65536 / cells))
      ∧ SameMemBut s t (key h.tdoff) (8 * count) ∧ ends t 1))

/-- A near place of the current tile's own window that a command may reach: it is backed, and its line awaits no other writer. -/
abbrev ownPlace (s : State) (c : Cmd) (p : Nat) : Prop :=
  p < 2 ^ 64 ∧ s.findNear s.here.ctx (BitVec.ofNat 64 p) = .ok s.cur (p % 2 ^ 20) ∧ s.lineWaits s.cur c s.cur (p % 2 ^ 20 / 64) = false

/-- The key of a near place of the current tile's own window. -/
def ownKey (s : State) (p : Nat) : Nat := nearKey s.cur (p % 2 ^ 20)

/-- The command at the head of a queue runs: it has begun, stands before a row, bag or line, has neither ended nor parked, none of
its writes is in flight, nothing holds its tile, and no other unit has taken a bank of the tile's slice on this beat (R349). -/
abbrev running (s : State) (q : Que) (c : Cmd) : Prop :=
  (s.here.cengine (queEng q)).headOf q = some c ∧ c.begun = true ∧ c.ended = none ∧ c.park = none ∧ s.held s.cur = false
    ∧ s.landingsOf s.cur c.no = [] ∧ c.refused = 0 ∧ ∀ b ∈ s.here.banks, b.2 = cengRank (queEng q)

/-- The command at the head of a queue has ended, and the tile but for its command engines and the use of its banks, and every
other tile, is as before. -/
def commandEnds (s t : State) (q : Que) (c : Cmd) (st val : Nat) : Prop :=
  (∃ c', (t.here.cengine (queEng q)).headOf q = some c' ∧ c'.no = c.no ∧ c'.blk = c.blk ∧ c'.ended = some { code := 0, st := st, val := val })
    ∧ { t.here with ce := s.here.ce, ie := s.here.ie, banks := s.here.banks } = s.here ∧ OtherTiles s t

/-- R186 to R194, R200, R206: the byte-moving commands between places of the issuing tile's window move row after row and end with the
bytes or the rows moved: COPY and FILL byte after byte, GFILL, GATHER and SCATTER each row whole, from what its source held when the
command came to the row (a reading, log 78); GATHER and SCATTER read each index word as they come to its row. A line written whole
from one line at the same positions receives its descriptor, one written whole otherwise 0, FILL's receive DESC with SETD = 1, and
every other line keeps its own. chnop begins once it is past its chain wait and has its token, with the block that it then fetches
(log 102), and ends; mcast sends every line to every receiver, numbered as log 82 says, and ends. -/
def Obligations.TransfersRun : Prop := ∀ (s : State) (c : Cmd) (q : Que) (i : Instr) (kind : Nat), s.memOk → s.arg.n = 0 →
  let index := kind = 0x10 ∨ kind = 0x12
  let c1 := if index then { c with idx := (List.range c.nidx).map (fun k => s.load (nearKey s.cur (c.ioff + c.iw * k)) c.iw) } else c
  let rows := s.rowsOf s.cur c1
  let value := fun (m : List Host.Cell) (r : Row) (j : Nat) => match r.src with
    | some p => Mem.get m (ownKey s (p + j))
    | none => BitVec.ofNat 8 (c.field 18 4 / 2 ^ (8 * (j % 4)))
  let whole := kind = 0x02 ∨ kind = 0x10 ∨ kind = 0x12
  let moved := rows.foldl (fun m r => (List.range r.len).foldl
    (fun m' j => Mem.set m' (ownKey s (r.dst + j)) (value (if whole then m else m') r j)) m) s.mem
  -- the row that writes a byte last, and the place that the byte comes from
  let writer := fun (b : Nat) => rows.reverse.find? (fun r => decide (r.dst ≤ b ∧ b < r.dst + r.len))
  let origin := fun (b : Nat) => (writer b).bind (fun r => r.src.map (· + (b - r.dst)))
  let taken := fun (p q : Nat) => q % 64 = 0 ∧ ∀ k, k < 64 → origin (p + k) = some (q + k)
  let own := fun (p : Nat) => p / 2 ^ 20 = s.here.vtile
  let bytes := (rows.map (fun (r : Row) => r.len)).sum
  ((i, kind) ∈ [(Instr.copy, 0x01), (.gfill, 0x02), (.fill, 0x04), (.gather, 0x10), (.scatter, 0x12)] →
    (if index then q = .iq else q = s.arg.que ∧ q ≠ .iq) → running s q c → c.kind = kind → c.pos = 0 → c.sub = 0 → c.held = none → c.row = [] →
    c.count = 0 → rows.length = c.nRows →
    (index → c.idx = [] ∧ ∀ k, k < c.nidx → s.rangeWaits s.cur c (c.ioff + c.iw * k) c.iw = false) →
    (∀ r ∈ rows, r.bad = false ∧ 0 < r.len ∧ (∀ j, j < r.len → ownPlace s c (r.dst + j))
      ∧ (∀ p, r.src = some p → ∀ j, j < r.len → ownPlace s c (p + j))
      ∧ (index → apart (r.dst % 2 ^ 20) r.len c.ioff (c.iw * c.nidx))
      ∧ (∀ p, r.src = some p → (kind = 0x02 ∨ kind = 0x10) → uncovered c.fp.rd (p % 2 ^ 20) r.len = none)
      ∧ (kind = 0x12 → uncovered c.fp.wr (r.dst % 2 ^ 20) r.len = none)) →
    Completes i s (fun t => (∀ j, Mem.get t.mem j = Mem.get moved j)
      ∧ ((∀ r ∈ rows, own r.dst ∧ own (r.dst + r.len - 1) ∧ ∀ p, r.src = some p → own p ∧ own (p + r.len - 1)) → (∀ l, l / 2 ^ 14 ≠ s.cur → FMap.getD 0 t.desc l = FMap.getD 0 s.desc l)
        ∧ ∀ p, own p → p % 64 = 0 →
          let full := ∀ k, k < 64 → (writer (p + k)).isSome = true
          let d := t.descAt (ownKey s p)
          (¬ full → d = s.descAt (ownKey s p))
          ∧ (full → kind = 0x04 → d = if bitN (c.byte 22) 0 then BitVec.ofNat 16 (c.field 32 2) else s.descAt (ownKey s p))
          ∧ (full → kind ≠ 0x04 → (∀ q, ¬ taken p q) → d = 0)
          ∧ (∀ q, full → kind ≠ 0x04 → taken p q → (∀ k, k < 64 → writer (q + k) = none) → d = s.descAt (ownKey s q)))
      ∧ commandEnds s t q c 0 (if kind = 0x01 ∨ kind = 0x04 then bytes else rows.length)))
  ∧ (q = s.arg.que → running s q c → c.kind = 0x05 → c.pos = 0 → Completes .chnop s (fun t => commandEnds s t q c 0 0 ∧ SameMem s t))
  ∧ (q = s.arg.que → (s.here.cengine (queEng q)).headOf q = some c → c.kind = 0x05 → c.pos = 0 → c.begun = false → c.ended = none →
      c.park = none → s.held s.cur = false → (s.here.cengine (queEng q)).flt = false → c.chainOk s.here = true → s.behindSwap c = false →
      s.here.mayBegin c.no (if c.wantsToken then (s.refetch s.cur (queEng q) c).fp else c.fp) = true →
      (c.wantsToken = true → 0 < s.here.tokens c.pops ∧ s.here.tkpopBefore c.pops c.no = false ∧ s.here.unitBefore c.pops c.no = false
        ∧ s.blockWaits s.cur c = false) →
      Completes .chnop s (fun t =>
        (∃ c', (t.here.cengine (queEng q)).headOf q = some c' ∧ c'.begun = true ∧ c'.ended = some { code := 0, st := 0, val := 0 })
        ∧ (∀ f, f < 3 → t.here.tokens f = s.here.tokens f - if c.wantsToken = true ∧ f = c.pops then 1 else 0)
        ∧ t.here.s = s.here.s ∧ t.here.pc = s.here.pc ∧ OtherTiles s t ∧ SameMem s t))
  ∧ (q = s.arg.que → q ≠ .iq → running s q c → c.kind = 0x03 → c.pos = 0 → c.held = none → 0 < c.xlen →
      (∀ j, j < c.xlen → ownPlace s c (c.ssrc + j)) →
      let tiles := ((List.range 16).filter (fun j => bitN (c.field 30 2) j)).filterMap (fun j =>
        (FMap.get? (s.ctxAt s.here.ctx).tmap (c.field 23 5 / 2 ^ 20 + j)).map (fun v => (c.field 23 5 / 2 ^ 20 + j, v.phys)))
      (∀ y ∈ tiles, y.2 = s.cur → ∀ j k, j < c.xlen → k < c.xlen → (c.ssrc + j) % 2 ^ 20 / 64 ≠ (c.field 23 5 % 2 ^ 20 + k) / 64) →
      Completes .mcast s (fun t =>
        let lines := mcastLines (c.field 23 5 % 2 ^ 20) c.xlen
        t.land = s.land ++ lines.flatMap (fun l => tiles.map (fun u => { routeTo s.cur u.2 with
          txid := c.no
          ctx := s.here.ctx
          vt := some u.1
          unit := .cmd s.cur c.no
          line := l.1
          data := (List.range l.2.2.2).map (fun i => (l.2.1 + i, Mem.get s.mem (ownKey s (c.ssrc + l.2.2.1 + i))))
          desc := if l.2.2.2 < 64 then none else if (c.ssrc + l.2.2.1) % 64 ≠ 0 then some 0
            else some (s.descAt (ownKey s (c.ssrc + l.2.2.1))) : Landing }))
        ∧ SameMem s t ∧ commandEnds s t q c 0 0))

/-- Every line descriptor but those of `lines` is as before. -/
def SameDescBut (s t : State) (lines : Nat → Prop) : Prop := ∀ l, ¬ lines l → FMap.getD 0 t.desc l = FMap.getD 0 s.desc l

/-- The first parts of densify and compact (R204, R205): each line of densify's output is zeroed and takes DESC, and compact's first
offset word is written 0, before any row. -/
def firstParts (s : State) (c : Cmd) : Prop :=
  let u := s.cur
  s.arg.n = 1 → c.pos = 0 →
  (∀ off, off = c.noff + 64 * c.sub →
    c.kind = 0x15 → 64 * c.sub < c.nidx * c.rowb → s.rangeWaits u c off 64 = false → off % 64 = 0 → Completes .densify s (fun t =>
      t.load (nearKey u off) 64 = 0 ∧ SameMemBut s t (nearKey u off) 64 ∧ t.descAt (nearKey u off) = BitVec.ofNat 16 c.x4
      ∧ SameDescBut s t (fun l => l = nearKey u off / 64) ∧ OtherTiles s t))
  ∧ (c.kind = 0x16 → s.rangeWaits u c c.ioff 4 = false → Completes .compact s (fun t =>
      t.load (nearKey u c.ioff) 4 = 0 ∧ SameMemBut s t (nearKey u c.ioff) 4 ∧ SameDescBut s t (fun _ => False) ∧ OtherTiles s t))

/-- R186, R199 to R206, R271, R272: the numeric index commands, with tables in the issuing tile's window, at their last bag, row, line or
key: gpool sums a bag's rows in order, with one rounding an addition; scadd adds a line to its place, element after element, or
stages its elements; hashacc adds a bag's row to the bucket of a key, of the row the first ROWB/4 elements (a reading, log 12), or stops
at a key that has no place; densify zeroes its output and spreads a row's values, and compact appends the values of a row that are not
zero, or stops at a row that does not fit. Each ends with its count after its last. gpool's output lines, hashacc's value lines and
compact's lines of values receive their descriptors, and no other line's changes. -/
def Obligations.IndexCommandsRun : Prop := ∀ (s : State) (c : Cmd), s.memOk → running s .iq c → firstParts s c ∧ (s.arg.n = 0 →
  let u := s.cur
  let at_ := fun (off n : Nat) => s.load (nearKey u off) n
  let after := fun (t : State) (off n : Nat) => t.load (nearKey u off) n
  let clear := fun (off n : Nat) => s.rangeWaits u c off n = false
  let opens := fun (b lo hi : Nat) => c.bag = none ∧ clear (c.ioff + 4 * b) 8 ∧ s.bagWord u c b = lo ∧ s.bagWord u c (b + 1) = hi
    ∧ lo < 2 ^ 28 ∧ hi < 2 ^ 28
  let keyOk := fun (p : Nat) => uncovered c.fp.rd (c.keyOff p) 4 = none ∧ clear (c.keyOff p) 4
  let positions := fun (lo hi : Nat) => (List.range (hi - lo)).map (lo + ·)
  -- gpool
  (∀ (v : Nat → List Sys2Proof.Machine.Num) (lo hi : Nat), let b := c.pos
    let n := c.rowb / (if bitN c.mode 3 then 4 else 2)
    let F := if c.mode % 4 = 0 then fp32 else if c.mode % 4 = 1 then fp16 else bf16
    let ps := positions lo hi
    let out := c.noff + b * c.orowb
    let cnt := c.noff + c.nidx * c.orowb + 4 * b
    c.kind = 0x11 → b + 1 = c.nidx → c.sub = 0 → opens b lo hi → (∀ p ∈ ps, keyOk p) → c.orowb % 64 = 0 → c.rowb % 64 = 0 → c.mode % 4 ≠ 3 →
    clear out c.orowb → (bitN c.mode 4 → clear cnt 4) →
    (∀ p ∈ ps, let row := c.rowPlace (s.key u c p)
      placeFar row = false ∧ s.rowInside u c row = true ∧ s.nearBreach u c.fp.rd row c.rowb = none ∧ (v p).length = n
      ∧ s.readLines u .ie c (poolFmt (bitN c.mode 3)) row (c.rowb / 64) = .ok s (v p)) →
    Completes .gpool s (fun t =>
      (∀ k, k < n →
        let sum := ps.foldl (fun a p => fp32.rne ((fp32.decode a).add ((v p).getD k .nan))) 0
        let mean := if bitN c.mode 2 ∧ ps ≠ [] then divNum fp32 (fp32.decode sum) (numOfInt ps.length) else sum
        elemOf (after t out c.orowb) F.width k = F.rne (fp32.decode mean) % 2 ^ F.width)
      ∧ (bitN c.mode 4 → after t cnt 4 = ps.length % 2 ^ 32)
      ∧ (∀ k, k < c.orowb / 64 → t.descAt (nearKey u (out + 64 * k)) = BitVec.ofNat 16 (0x2010 + c.mode % 4))
      ∧ SameDescBut s t (fun l => ∃ k, k < c.orowb / 64 ∧ l = nearKey u (out + 64 * k) / 64)
      ∧ (∀ j, apart j 1 (nearKey u out) c.orowb → apart j 1 (nearKey u cnt) (if bitN c.mode 4 then 4 else 0) →
          Mem.get t.mem j = Mem.get s.mem j)
      ∧ commandEnds s t .iq c 0 (c.count + 1)))
  -- scadd
  ∧ (∀ (f : LineFmt) (c1 : Cmd), let line := c.sub / 32
    let row := c1.rowPlace (c1.idx.getD c.pos 0)
    let p := row + 64 * line
    let off := c.noff + c.pos * c.rowb + 64 * line
    let dense := at_ off 64
    let slot := (c.bound (placeSlot p)).1
    c.kind = 0x13 → s.nextIndex u c = some c1 → c.pos + 1 = c.nidx → c.sub % 32 = 0 → 64 * (line + 1) = c.rowb →
    s.rowInside u c1 row = true → clear off 64 → s.nearBreach u c.fp.rd p 64 = none → s.nearBreach u c.fp.wr p 64 = none →
    addFmt (s.descAt (nearKey u off)) = some f →
    (placeFar p = false → p < 2 ^ 64 → p % 64 = 0 → ownPlace s c p → addFmt (s.descAt (ownKey s p)) = some f →
      Completes .scadd s (fun t =>
        let k := ownKey s p
        (∀ i, i < 512 / f.width → elemOf (t.load k 64) f.width i = addElem f (elemOf (s.load k 64) f.width i) (elemOf dense f.width i) % 2 ^ f.width)
        ∧ SameMemBut s t k 64 ∧ SameDescBut s t (fun _ => False) ∧ commandEnds s t .iq c 0 (c.count + 1)))
    ∧ (∀ r s1 s2 g, placeFar p = true → bitN c.mode 1 = true → (s.buf slot).proxy = none → s.fetchLine u .ie c1 p false true = .line s1 r →
      s1.stageFor (streamHolder u .ie) s.here.ctx slot (s.farVa c1 p / 2 ^ 16) = .ok s2 g → addFmt r.desc = some f → Completes .scadd s (fun t =>
        (t.buf slot).staged = (s.buf slot).staged ++ (List.range (512 / f.width)).map (fun i => {
          key := [s.pkg.index, dieOf c.born, c.born % 256, c.no, c.pos, 64 * line + i * f.width / 8]
          page := s.farVa c1 p / 2 ^ 16
          off := s.farVa c1 p % 2 ^ 16 + i * f.width / 8
          fmt := r.desc.toNat % 256
          val := BitVec.ofNat 32 (elemOf dense f.width i) })
        ∧ SameMem s t ∧ commandEnds s t .iq c 0 (c.count + 1))))
  -- hashacc
  ∧ (∀ (lo hi : Nat), let b := c.x4 + c.pos
    let val := fun (t : State) => c.nidx * 2 ^ 28 + t.bagWord u c c.nidx % 2 ^ 28
    c.kind = 0x14 → c.x4 < c.nidx → b + 1 = c.nidx → c.sub = 0 → opens b lo hi →
    (hi ≤ lo → Completes .hashacc s (fun t => SameMem s t ∧ SameDescBut s t (fun _ => False) ∧ commandEnds s t .iq c 0 (val t)))
    ∧ (hi = lo + 1 → keyOk lo → s.key u c lo = 0xFFFFFFFF → Completes .hashacc s (fun t => SameMem s t ∧ SameDescBut s t (fun _ => False) ∧ commandEnds s t .iq c 0 (val t)))
    ∧ (∀ (row : List Sys2Proof.Machine.Num), hi = lo + 1 → keyOk lo → s.key u c lo ≠ 0xFFFFFFFF → c.rowb % 64 = 0 →
        s.readLines u .ie c hashFmt (s.here.vtile * 2 ^ 20 + c.noff + b * c.rowb) (c.rowb / 64) = .ok s row →
        let k := s.key u c lo
        let table := c.table % 2 ^ 20
        let bucket := fun (j : Nat) => table + j * (64 + c.rowb)
        let first := k * 0x9E3779B1 % 2 ^ 32 / 2 ^ (32 - c.mode)
        let place := fun (i : Nat) => (first + i) % 2 ^ c.mode
        let taken := fun (i : Nat) => clear (bucket (place i)) 4 ∧ at_ (bucket (place i)) 4 ≠ k ∧ at_ (bucket (place i)) 4 ≠ 0xFFFFFFFF
        ((∀ i, i < 2 ^ c.mode → taken i) → Completes .hashacc s (fun t => SameMem s t ∧ SameDescBut s t (fun _ => False) ∧ commandEnds s t .iq c 8 (b * 2 ^ 28 + lo)))
        ∧ (∀ i, i < 2 ^ c.mode → (∀ i', i' < i → taken i') → clear (bucket (place i)) 4 → clear (bucket (place i)) (64 + c.rowb) →
          (at_ (bucket (place i)) 4 = k ∨ at_ (bucket (place i)) 4 = 0xFFFFFFFF) → Completes .hashacc s (fun t =>
            let o := bucket (place i)
            let old := fun (e : Nat) => if at_ o 4 = k then fp32.decode (elemOf (at_ (o + 64) c.rowb) 32 e) else .fin false 0 0
            after t o 4 = k
            ∧ (∀ e, e < c.rowb / 4 → elemOf (after t (o + 64) c.rowb) 32 e = fp32.rne ((old e).add (row.getD e (.fin false 0 0))))
            ∧ (∀ j, apart j 1 (nearKey u o) 4 → apart j 1 (nearKey u (o + 64)) c.rowb → Mem.get t.mem j = Mem.get s.mem j)
            ∧ (∀ k, k < c.rowb / 64 → t.descAt (nearKey u (o + 64 + 64 * k)) = 0x2010)
            ∧ SameDescBut s t (fun l => ∃ k, k < c.rowb / 64 ∧ l = nearKey u (o + 64 + 64 * k) / 64)
            ∧ commandEnds s t .iq c 0 (val t)))))
  -- densify
  ∧ (∀ (r lo hi : Nat), let w := c.w
    let place := fun (p : Nat) => c.table + p * w
    let out := c.noff + r * c.rowb
    let cols := c.rowb / w
    let ps := positions lo hi
    c.kind = 0x15 → c.pos = r + 1 → c.nidx = r + 1 → c.sub = 0 → opens r lo hi → (∀ p ∈ ps, keyOk p) → placeFar c.table = false →
    0 < w → c.rowb % w = 0 → clear out c.rowb →
    (∀ p ∈ ps, apart (c.keyOff p) 4 out c.rowb ∧ (s.key u c p < cols → place p / 2 ^ 20 = s.here.vtile ∧ place p % 2 ^ 20 + w ≤ 0xC0000
      ∧ s.nearBreach u c.fp.rd (place p) w = none ∧ apart (place p % 2 ^ 20) w out c.rowb ∧ ∀ j, j < w → ownPlace s c (place p + j))) →
    Completes .densify s (fun t =>
      (∀ col, col < cols → after t (out + col * w) w = match ps.reverse.find? (fun p => decide (s.key u c p = col)) with
        | some p => at_ (place p % 2 ^ 20) w
        | none => at_ (out + col * w) w)
      ∧ SameMemBut s t (nearKey u out) c.rowb ∧ SameDescBut s t (fun _ => False)
      ∧ commandEnds s t .iq c 0 ((c.count + 1) * 2 ^ 28 + c.skip + ps.countP (fun p => decide (cols ≤ s.key u c p)))))
  -- compact
  ∧ (∀ (r : Nat), let w := c.w
    let row := c.noff + r * c.rowb
    let found := ((List.range (c.rowb / w)).filter (fun k => decide (at_ (row + k * w) w ≠ 0)))
    let fits := c.count + found.length ≤ c.x4 % 2 ^ 16
    let area := (c.ioff, c.keyOff (c.count + found.length) - c.ioff)
    c.kind = 0x16 → c.pos = r + 1 → c.nidx = r + 1 → c.sub = 0 → clear row c.rowb →
    (¬ fits → Completes .compact s (fun t => SameMem s t ∧ SameDescBut s t (fun _ => False) ∧ commandEnds s t .iq c 8 (r * 2 ^ 28 + c.count)))
    ∧ (fits → placeFar c.table = false → 0 < w → c.rowb % w = 0 → clear (c.ioff + 4 * (r + 1)) 4 →
      (∀ i, i < found.length → clear (c.keyOff (c.count + i)) 4 ∧ ∀ j, j < w → ownPlace s c (c.table + (c.count + i) * w + j)) →
      let values := ((c.table + c.count * w) % 2 ^ 20, found.length * w)
      apart values.1 values.2 area.1 area.2 → apart values.1 values.2 row c.rowb → apart area.1 area.2 row c.rowb →
      Completes .compact s (fun t =>
        (∀ i, i < found.length → after t (c.keyOff (c.count + i)) 4 = found.getD i 0
          ∧ t.load (ownKey s (c.table + (c.count + i) * w)) w = at_ (row + found.getD i 0 * w) w)
        ∧ after t (c.ioff + 4 * (r + 1)) 4 = (c.count + found.length) % 2 ^ 32
        ∧ (∀ i j, i < found.length → j < w → t.descAt (ownKey s (c.table + (c.count + i) * w + j)) = BitVec.ofNat 16 (c.x4 / 2 ^ 16))
        ∧ SameDescBut s t (fun l => ∃ i j, i < found.length ∧ j < w ∧ l = ownKey s (c.table + (c.count + i) * w + j) / 64)
        ∧ (∀ j, apart j 1 (nearKey u area.1) area.2 → apart j 1 (nearKey u values.1) values.2 → Mem.get t.mem j = Mem.get s.mem j)
        ∧ commandEnds s t .iq c 0 (c.nidx * 2 ^ 28 + c.count + found.length)))))

/-- R100, R103, R107, R152, R153, R186, R194, R197, R206 to R209, R308, R311, R362: what becomes of commands and writes in flight. A landing write
that has arrived and is granted its bank, no earlier one of its unit to the same bytes or with a descriptor for the same line being
in flight, is written at its receiver or, in a window in use, refused with a pending fault there; of a line that refused writes have
torn no later one sets the descriptor; a command's write and a meeting's result follow a tile or destination that has moved, and the
latter is refused where it is gone. An ended command whose writes are performed gives all its signals together, one of the IE after a
reply of the CE; a running chain fetches its next block, or ends with a reply, whose SEL is 0 where no block is read (a choice, log
98); a promise that is not kept becomes a pending fault, which does not set the event latch (a reading, log 103). -/
def Obligations.InFlight : Prop := ∀ (s : State), s.memOk →
  let u := s.cur
  let n := s.arg.n
  (∀ r : Landing, s.land[n]? = some r → r.arrived = true → s.held r.dst = false →
    (s.tile r.dst).bankTaken 0 (64 * r.line) 64 = false → (∀ b ∈ r.data, b.1 < 64) →
    (∀ l ∈ s.land.take n, l.unit = r.unit → l.dst = r.dst → l.line = r.line →
      l.desc = none ∧ r.desc = none ∧ ∀ b ∈ l.data, ∀ k ∈ r.data, k.1 ≠ b.1) →
    let sender := s.landingCmd r
    let torn := fun (b : Nat) => (sender.map (fun c => Nat.testBit (FMap.getD 0 c.torn (2 ^ 14 * r.dst + r.line)) b)).getD false
    let covered := ∀ b, b < 64 → torn b = true → ∃ k ∈ r.data, k.1 = b
    let base := nearKey r.dst (64 * r.line)
    let x := s.tile r.dst
    let rest := s.land.eraseIdx n
    let refusal := fun (t : State) => (∀ k, r.unit = .meeting k → t.meetings = s.meetings.map (fun m => if m.id = k / 2 then
        (if k % 2 = 0 then { m with aRefused := true } else { m with bRefused := true }) else m))
      ∧ (∀ v no c, r.unit = .cmd v no → (s.tile v).ce.cmds.find? (fun k => decide (k.no = no)) = some c →
          ∃ c', (t.tile v).ce.cmds.find? (fun k => decide (k.no = no)) = some c' ∧ c'.refused ≠ 0 ∧ c'.count = c.count
            ∧ ∀ b, b < 64 → (Nat.testBit (FMap.getD 0 c'.torn (2 ^ 14 * r.dst + r.line)) b = true ↔ torn b = true ∨ ∃ k ∈ r.data, k.1 = b))
    (x.inUse r.line = false → (∃ o, s.landsAt r = .ok r.dst o) → Completes .landingWrite s (fun t =>
      (∀ j, Mem.get t.mem j = match r.data.reverse.find? (fun b => decide (base + b.1 = j)) with
        | some b => b.2
        | none => Mem.get s.mem j)
      ∧ (∀ l, FMap.getD 0 t.desc l = match r.desc with
        | some d => if l = base / 64 ∧ covered then d else FMap.getD 0 s.desc l
        | none => FMap.getD 0 s.desc l)
      ∧ t.land = rest ∧ t.meetings = s.meetings
      ∧ (r.unit.tile? ≠ some r.dst → ∀ l ∈ t.land, l.unit = r.unit → l.dst = r.dst → ∃ b ∈ t.bits, b.unit = r.unit ∧ b.tile = r.dst ∧ b.line = l.line)
      ∧ (∀ b : LineBit, b.unit ≠ r.unit ∨ b.tile ≠ r.dst → (b ∈ t.bits ↔ b ∈ s.bits))
      ∧ (∀ v no c, r.unit = .cmd v no → (s.tile v).ce.cmds.find? (fun k => decide (k.no = no)) = some c →
          t.nodes = s.nodes ∧ ∃ c', (t.tile v).ce.cmds.find? (fun k => decide (k.no = no)) = some c' ∧ c'.refused = c.refused
            ∧ c'.count = c.count + if c.kind = 0x01 ∨ c.kind = 0x04 then r.data.length else 0)))
    ∧ (x.inUse r.line = true → (∃ o, s.landsAt r = .ok r.dst o) → (∀ d ∈ x.pend, d.source ≠ .landing) → Completes .landingWrite s (fun t =>
      SameMem s t ∧ { source := .landing, cause := 0x12, tval := BitVec.ofNat 64 (x.vtile * 2 ^ 20 + 64 * r.line), beat := s.dbc r.dst } ∈ (t.tile r.dst).pend
      ∧ t.land = rest ∧ refusal t))
    ∧ (∀ k, s.landsAt r = .bad k → Completes .landingWrite s (fun t =>
      SameMem s t ∧ t.land = rest ∧ refusal t ∧ ∀ v, (t.tile v).pend = (s.tile v).pend))
    ∧ (∀ v o, s.landsAt r = .ok v o → v ≠ r.dst → Completes .landingWrite s (fun t =>
      t = { s with land := s.land.set n { r with toRoute := { routeTo r.dst v with txid := r.txid, ctx := r.ctx } } }))
    ∧ (s.landsAt r = .wait → Completes .landingWrite s (fun t => t = s)))
  ∧ (∀ (c : Cmd) (r0 : CmdEnd), let e := queEng s.arg.que
    let x := s.here
    -- a refused line makes the code LANDING; COPY, FILL and MCAST count what reached its place
    let val := if c.kind = 0x01 ∨ c.kind = 0x04 then c.count else if c.kind = 0x03 then c.refused else r0.val
    let r : CmdEnd := if c.refused ≠ 0 ∧ r0.code < 2 then { code := 2, st := 2, val := val } else { r0 with val := val }
    (x.cengine e).headOf s.arg.que = some c → c.ended = some r0 → s.landingsOf u c.no = [] →
    let pushes := bitN (c.byte 1) 3 = true
    let replies := bitN (c.byte 1) 4 = true ∨ r.st = 8 ∨ (c.chain = true ∧ r.st ≠ 0)
    let counter := c.byte 2 / 16
    let tell := s.receivers x.ctx c
    s.receiverSaved x.ctx c = false → (e = .ie → replies → s.cmdReply u .ce = false) → (replies → x.rq.length < 32) → (pushes → x.tokens c.pushes < 8) → (tell.map (·.1)).Nodup → (∀ y ∈ tell, y.1 ≠ u) →
    Completes .commandSignals s (fun t =>
      (t.here.cengine e).cmds = (x.cengine e).cmds.filter (fun k => decide (k.no ≠ c.no))
      ∧ (t.here.cengine e).chainLast = (if (x.cengine e).chainLast = some c.no then none else (x.cengine e).chainLast)
      ∧ (∀ k, t.here.xbar k = if c.xb = some k then { pending := (x.xbar k).pending - 1, status := Max.max (x.xbar k).status r.code } else x.xbar k)
      ∧ (∀ y ∈ tell, (t.tile y.1).xbar y.2.1 = { pending := ((s.tile y.1).xbar y.2.1).pending - 1, status := Max.max ((s.tile y.1).xbar y.2.1).status y.2.2 })
      ∧ (∀ f, f < 3 → t.here.tokens f = x.tokens f + if pushes ∧ f = c.pushes then 1 else 0)
      ∧ (∀ k, Bank.get (w := 16) t.here.sc k = Bank.get x.sc k + if bitN (c.byte 1) 1 = true ∧ k = counter then BitVec.ofNat 16 (c.byte 6) else 0)
      ∧ t.here.rq = x.rq ++ (if replies then [c.replyOf e r.st r.val] else []) ∧ t.here.rqHeld = x.rqHeld
      ∧ t.here.s = x.s ∧ t.here.pc = x.pc ∧ t.here.psb = x.psb
      ∧ (∀ b : LineBit, b ∈ t.bits ↔ b ∈ s.bits ∧ b.unit ≠ LandUnit.cmd u c.no)
      ∧ ∀ v, v ≠ u → (∀ y ∈ tell, y.1 ≠ v) → t.tile v = s.tile v))
  ∧ (∀ (a : Word), let e := s.arg.cmd
    let g := s.here.cengine e
    let fails := fun (sel : Nat) => s.here.rq.length < 32 → Completes .chainBlockFetch s (fun t =>
      t.here = { s.here.setCengine e { g with chain := none } with
        rq := s.here.rq ++ [replyWord (match e with | .ce => 1 | .ie => 2) 1 sel 0], evLatch := true } ∧ OnlyHere s t)
    g.chain = some a → g.flt = false → s.here.cengFull e = false → s.held u = false →
    (∀ k, s.ownNear u a 64 = .error k → fails 0)
    ∧ (∀ off, s.ownNear u a 64 = .ok off → s.stalls u (cengRank e) off 64 = false →
      (∀ c, s.checkBlock u off e none true = .unbound c → Completes .chainBlockFetch s (fun t =>
        (∀ b, b ∈ t.spanOut ↔ b ∈ s.spanOut ∨ b ∈ s.bindsOf u c) ∧ { t with spanOut := s.spanOut } = s))
      ∧ (∀ c, s.checkBlock u off e none true = .ok c → Completes .chainBlockFetch s (fun t =>
        accepted s t e c ∧ c.chain = true ∧ t.here.pc = s.here.pc
        ∧ (c.field 8 8 ≠ 0 → (t.here.cengine e).chain = some (BitVec.ofNat 64 (c.field 8 8)) ∧ (t.here.cengine e).chainLast = g.chainLast)
        ∧ (c.field 8 8 = 0 → (t.here.cengine e).chain = none ∧ (t.here.cengine e).chainLast = some c.no)))
      ∧ ((s.checkBlock u off e none true = .illegal ∨ ∃ k v, s.checkBlock u off e none true = .trap k v) →
          fails (if bitN (s.load (nearKey u off + 1) 1) 1 then s.load (nearKey u off + 2) 1 / 16 else 0))))
  ∧ (∀ (c : Cmd) (p : Word), s.here.ce.cmds.find? (fun k => decide (k.no = n)) = some c → c.promise = some p → c.ended = none →
      p.toNat ≤ (s.dbc u).toNat → (∀ d ∈ s.here.pend, d.source ≠ .promise) → Completes .promiseMiss s (fun t =>
        { source := .promise, cause := 0x10, tval := BitVec.ofNat 64 (c.xb.getD 0), beat := s.dbc u } ∈ t.here.pend
        ∧ t.here.ce.cmds = s.here.ce.cmds.map (fun k => if k.no = n then { c with promise := none } else k)
        ∧ t.here.ie = s.here.ie ∧ t.here.evLatch = s.here.evLatch ∧ OnlyHere s t))

/-- R14, R20, R21, R22, R77, R82, R148, R259, R370, R388: packets. A near access that has arrived, and that no line or bank holds up, is
performed at its home, an atomic with one indivisible change, and answered, a write from another tile with an acknowledgement; where its
window has moved it follows. Far accesses come as packets from outside only (log 41). A read return gives its value to the read
that waits for it, found by its identifier (log 82). Of the packets that wait at an arbitration point, numbered and taken on as log 68
says, the oldest goes on, ties going to the lower source die, tile and port, one hop on its way or to its end, but through no marked
router of a third tile; one with nowhere to go, or with a reserved LEN (log 100), is dropped and logged; 64 beats of waiting make a packet
older; between compute dies the way leads over the memory die of R20. A tile's slice is cleared for a new context. -/
def Obligations.Packets : Prop := ∀ (s : State), s.memOk →
  let n := s.arg.n
  let rest := s.net.eraseIdx n
  let local_ := fun (p : Packet) => p.src = p.dst
  let free := fun (p : Packet) => (∃ o, s.homeOf p = .ok p.dst o) ∧ s.packetBefore n p = false ∧ s.windowWaits p.dst p.ctx = false
    ∧ (if local_ p then s.unitLanding p.dst (p.addr / 64) p.no else s.landing p.dst p.addr) = false
    ∧ (s.tile p.dst).bankTaken (if local_ p then 1 else 0) p.addr p.data.length = false
  let back := fun (p : Packet) (kind : Nat) (data : List Byte) => { p with
    toRoute := { routeTo p.dst p.src with txid := p.txid, ctx := p.ctx }
    kind := kind
    len := (data.length + 31) / 32
    data := data
    amo := none
    vt := none }
  let held := fun (p : Packet) (k : Nat) => if p.isDesc then bytesOf (s.descAt k).toNat 2
    else (List.range p.data.length).map (fun i => Mem.get s.mem (k + i))
  let value := fun (l : List Byte) => (l.mapIdx (fun i b => b.toNat * 256 ^ i)).sum
  let written := fun (t : State) (p : Packet) (k : Nat) =>
    (p.isDesc = false → Stored s t k p.data ∧ t.desc = s.desc)
    ∧ (p.isDesc = true → SameMem s t ∧ ∀ l, FMap.get? t.desc l = if l = k / 64 then some (BitVec.ofNat 16 (value p.data)) else FMap.get? s.desc l)
  let touched := fun (p : Packet) => s.touch p.dst (if local_ p then 1 else 0) p.addr p.data.length
  let tiles := fun (t : State) (p : Packet) => ∀ u, t.tile u = (touched p).tile u
  let aged := fun (p : Route) => Min.min 255 (p.age + p.waited / 64)
  (∀ p, s.net[n]? = some p → p.arrived = true →
    (p.kind = 0 → p.amo = none → free p → Completes .nearRead s (fun t =>
      t = { touched p with net := rest ++ [back p 4 (held p (nearKey p.dst p.addr))] }))
    ∧ (∀ r : AmoReq, p.kind = 0 → p.amo = some r → free p → Completes .nearRead s (fun t =>
        let k := nearKey p.dst p.addr
        let m := p.data.length
        let w := 8 * m
        let old := s.load k m
        let x := r.b % 2 ^ w
        let new := match r.op with
          | 0 => (old + x) % 2 ^ w
          | 1 => old &&& x
          | 2 => old ||| x
          | 3 => old ^^^ x
          | 4 => if asSigned w old ≤ asSigned w x then old else x
          | 5 => if asSigned w old ≤ asSigned w x then x else old
          | 6 => Min.min old x
          | 7 => Max.max old x
          | 8 => x
          | _ => if old = r.d % 2 ^ w then x else old
        Stored s t k (bytesOf new m) ∧ tiles t p
        ∧ { t with mem := s.mem, tiles := s.tiles } = { s with net := rest ++ [back p 4 (bytesOf old m)] }))
    ∧ (p.kind = 1 → free p → Completes .nearWrite s (fun t =>
        written t p (nearKey p.dst p.addr) ∧ tiles t p
        ∧ { t with mem := s.mem, desc := s.desc, tiles := s.tiles } =
          { s with net := rest ++ (if local_ p ∨ 2 ^ 40 ≤ p.src then [] else [back p 5 []]) }))
    ∧ (∀ v o, p.kind < 2 → s.homeOf p = .ok v o → v ≠ p.dst → Completes (if p.kind = 0 then .nearRead else .nearWrite) s (fun t =>
        t = { s with net := s.net.set n { p with
          dtile := v % 256
          ddie := v / 256
          point := p.dst / 256 * 65536 + p.dst % 256
          port := 0
          waited := 0
          arrived := false } }))
    ∧ (p.kind = 2 → Completes .farRead s (fun t => t = { s with net := rest ++ [back p 4 (held p (2 ^ 64 + p.addr))] }))
    ∧ (∀ a b, p.kind = 3 → FMap.get? s.bufs a = some b → b.live = true → b.ctx = p.ctx →
        (∃ f, (∃ v, (v, f) ∈ b.shadow) ∧ f ≤ p.addr ∧ p.addr + p.data.length ≤ f + 0x10000) → Completes .farWrite s (fun t =>
          written t p (2 ^ 64 + p.addr) ∧ { t with mem := s.mem, desc := s.desc } = { s with net := rest ++ [back p 5 []] }))
    ∧ (p.kind = 4 →
        (∀ r, (s.tile p.dst).reads.find? (fun r => decide (r.txid = p.txid)) = some r → 0 < r.bytes → r.bytes ≤ 8 → p.data.length = r.bytes →
          (r.buf = [] ∨ r.buf.length = r.bytes) → Completes .readReturn s (fun t =>
            let x := s.tile p.dst
            let y := t.tile p.dst
            let merged := (List.range r.bytes).map (fun i => (r.buf.getD i none).getD (p.data.getD i 0))
            (∀ q, y.rd q = if q = r.d ∧ r.d ≠ 0 then extended merged (if r.zero then 1 else 0) else x.rd q)
            ∧ y.reads = x.reads.filter (fun q => decide (q.txid ≠ p.txid)) ∧ { y with s := x.s, reads := x.reads } = x
            ∧ (∀ u, u ≠ p.dst → t.tile u = s.tile u) ∧ { t with tiles := s.tiles } = { s with net := rest }))
        ∧ ((s.tile p.dst).reads.find? (fun r => decide (r.txid = p.txid)) = none → Completes .readReturn s (fun t =>
            (∀ u, t.tile u = s.tile u) ∧ { t with tiles := s.tiles } = { s with net := rest })))
    ∧ (p.kind = 5 → Completes .writeAcknowledgement s (fun t => t = { s with net := rest }))
    ∧ (p.kind = 8 → Completes .schedulerMessage s (fun t => t = { s with net := rest })))
  ∧ (∀ x ∈ s.traffic, let p := x.route
      p.point = n → p.arrived = false →
      (∀ y ∈ s.traffic, let q := y.route
        y ≠ x → q.point = n → q.arrived = false →
        aged q < aged p ∨ aged q = aged p ∧ (p.sdie < q.sdie ∨ p.sdie = q.sdie ∧ (p.stile < q.stile ∨ p.stile = q.stile ∧ p.port < q.port))) →
      let die := n / 65536
      let nowhere := (∃ q, x.lane = .net ∧ s.net[x.place]? = some q ∧ (10 < q.kind ∨ 64 < q.len)) ∨ s.present p.ddie = false
      (nowhere → Completes .arbitrationGrant s (fun t =>
        t = { s.dropRouted x with pkg := { s.pkg with hwLog := s.pkg.hwLog ++ [p.sdie] } }))
      ∧ (¬ nowhere → s.arg.point = none → p.ddie = die → Completes .arbitrationGrant s (fun t =>
        (∀ q, x.lane = .net → s.net[x.place]? = some q → t = { s with net := s.net.set x.place { q with arrived := true, waited := 0 } })
        ∧ (∀ q, x.lane = .land → s.land[x.place]? = some q → t = { s with land := s.land.set x.place { q with arrived := true, waited := 0 } })
        ∧ (∀ q, x.lane = .meets → s.meets[x.place]? = some q →
            t = { s with meets := s.meets.eraseIdx x.place ++ [{ q with arrived := true, waited := 0 }] })))
      ∧ (∀ q, ¬ nowhere → s.arg.point = some q → s.routerGone p q = true → Completes .arbitrationGrant s (fun t => t = s))
      ∧ (∀ q, ¬ nowhere → s.arg.point = some q → s.routerGone p q = false → (q / 65536 = die ∨ p.ddie ≠ die ∧ s.nextDie die p = some (q / 65536)) →
        Completes .arbitrationGrant s (fun t => t = s.modRoute x (fun r =>
          { r with age := Min.min 255 (aged r + 1), point := q, port := s.arg.m, waited := 0 }))))
  ∧ (∀ (p : Route) (k : Nat), let a := p.sdie
      let b := p.ddie
      let m := fun (j : Nat) => 16 + (a + b + j) % 8
      a < 14 → b < 14 → a ≠ b → k < 8 → (∀ j, j < k → s.joined a (m j) = false ∨ s.joined (m j) b = false) →
      s.joined a (m k) = true → s.joined (m k) b = true → s.nextDie a p = some (m k))
  ∧ (∀ p, s.net[n]? = some p → s.arg.m = 0 → p.arrived = false → 64 ≤ p.waited → Completes .packetAging s (fun t =>
      t = { s with net := s.net.set n { p with age := aged p.toRoute, waited := p.waited % 64 } }))
  ∧ (∀ p, s.land[n]? = some p → s.arg.m = 1 → p.arrived = false → 64 ≤ p.waited → Completes .packetAging s (fun t =>
      t = { s with land := s.land.set n { p with age := aged p.toRoute, waited := p.waited % 64 } }))
  ∧ (∀ p, s.meets[n]? = some p → s.arg.m = 2 → p.arrived = false → 64 ≤ p.waited → Completes .packetAging s (fun t =>
      t = { s with meets := s.meets.set n { p with age := aged p.toRoute, waited := p.waited % 64 } }))
  ∧ (s.here.task = none → s.here.lastCtx ≠ some s.arg.ctx → s.writesTo s.cur = false → Completes .scratchpadClear s (fun t =>
      let lo := nearKey s.cur 0
      (∀ j, Mem.get t.mem j = if lo ≤ j ∧ j < lo + 0xC0000 then 0 else Mem.get s.mem j)
      ∧ (∀ l, FMap.getD 0 t.desc l = if lo ≤ 64 * l ∧ 64 * l < lo + 0xC0000 then 0 else FMap.getD 0 s.desc l)
      ∧ t.here = { s.here with lastCtx := some s.arg.ctx, icache := [] } ∧ OtherTiles s t))

/-- A station's reply with status `st`, and bit 32 of VAL set where `hi` is 1, stands in the reply queue of the operand's sender,
when that runs on a tile with room at which no engine's reply goes first (R308, R350). -/
def replied (s t : State) (o : Operand) (st hi : Nat) : Prop :=
  ∀ u, s.sender o = .live u → (s.tile u).rq.length < 31 → s.replyBefore u 5 = false → replyWord 5 st 0 (hi * 2 ^ 32 + o.tag % 2 ^ 32) ∈ (t.tile u).rq

/-- The operand of a tag that waits at a station is gone, and every other one is still there. -/
def withoutTag (s t : State) (n c tag : Nat) : Prop :=
  (t.station n).waiting = (s.station n).waiting.filter (fun o => decide (o.ctx ≠ c ∨ o.tag ≠ tag))

/-- R305 to R311, R354: meetings. The first operand of a tag waits, in a free slot or in the storeroom, where its bytes are written, or
is held, as it also is while an operand that waits still has the tag's entry; the second is combined with it, or both are refused
where their operations differ; a withdrawal and a timeout, which may happen once exactly the timeout has passed (a reading, log 36),
give the waiting operand back as an orphan; each partner's result goes to its destination, and both receive their reply once every write is
done. -/
def Obligations.Meetings : Prop := ∀ (s : State) (n : Nat) (o a : Operand), s.memOk →
  let k := s.arg.n
  let rest := s.meets.eraseIdx k
  let x := s.station n
  let waits := fun (s0 t : State) (o : Operand) =>
    (t.station n).waiting = x.waiting ++ [{ o with at_ := s.aot }] ∧ (∀ m, m ≠ n → t.station m = s.station m) ∧ t.tiles = s0.tiles
  let next := fun (w : StationIn) => ∃ m, s.meets[k]? = some m ∧ m.what = w ∧ m.station = n ∧ s.mailNext k m = true
  let comes := next (.operand o) ∧ x.held.any (·.about o.ctx o.tag) = false ∧ s.staleAt n o = false
  let slotFree := (x.waiting.filter (fun o => !o.spilled)).length < (if n < 2 ^ 20 then 16 else 64)
  let alone := x.waiting.find? (fun q => decide (q.ctx = o.ctx ∧ q.tag = o.tag)) = none
  let partner := x.waiting.find? (fun q => decide (q.ctx = o.ctx ∧ q.tag = o.tag)) = some a ∧ s.orphaned a = false
  let w := if o.op = 1 then 16 else 32
  let both := fun (s1 t : State) (l : List Byte) => ∃ m : Meeting, t.meetings = s1.meetings ++ [m] ∧ m.a = { a with data := l } ∧ m.b = o
    ∧ m.st = (if a.spilled then 5 else 0) ∧ m.id = s1.meetNo ∧ m.station = n ∧ m.aSent = false ∧ m.bSent = false
    ∧ m.aRefused = false ∧ m.bRefused = false
    ∧ ∀ i, i < l.length * 8 / w →
        let p := elemOf (leNat l) w i
        let q := elemOf (leNat o.data) w i
        elemOf (leNat m.data) w i = (match o.op with
          | 0 => fp32.rne ((fp32.decode p).add (fp32.decode q))
          | 1 => bf16.rne ((bf16.decode p).add (bf16.decode q))
          | 2 => fp32.maxF p q
          | _ => p + q) % 2 ^ w
  let over_ := fun (t : State) (c tag : Nat) => s.liveTag c tag ≠ none → (t.ctxAt c).tags = (s.ctxAt c).tags.filter (fun g => decide (g.tag ≠ tag))
  (comes → alone → slotFree → x.held = [] → Completes .meetingOperand s (fun t => waits s t o ∧ t.meets = rest ∧ SameMem s t))
  ∧ (∀ s1 key, comes → alone → (¬ slotFree ∨ x.held ≠ []) → s.storeroom o.ctx = true → s.entryTaken o = false → s.scd o.ctx (s.strAddr o) true = .ok s1 key →
      Completes .meetingOperand s (fun t =>
        waits s1 t { o with spilled := true, strAt := s.strAddr o } ∧ Stored s1 t key o.data ∧ t.meets = s1.meets.eraseIdx k))
  ∧ (comes → alone → (¬ slotFree ∨ x.held ≠ []) → (s.storeroom o.ctx = false ∨ s.entryTaken o = true) → Completes .meetingOperand s (fun t =>
      (t.station n) = { x with held := x.held ++ [.operand o] } ∧ t.meets = rest ∧ t.tiles = s.tiles))
  ∧ (next (.operand o) → x.held.any (·.about o.ctx o.tag) = false → s.staleAt n o = true → Completes .meetingOperand s (fun t =>
      (∀ m, t.station m = s.station m) ∧ replied s t o 7 0 ∧ t.meets = rest))
  ∧ (comes → partner → a.spilled = false → a.op = o.op → Completes .meetingOperand s (fun t =>
      withoutTag s t n o.ctx o.tag ∧ both s t a.data ∧ t.meets = rest ∧ t.tiles = s.tiles))
  ∧ (∀ s1 l, comes → partner → a.op = o.op → s.operandData a = (s1, some l) → Completes .meetingOperand s (fun t =>
      withoutTag s1 t n o.ctx o.tag ∧ both s1 t l ∧ t.meets = s1.meets.eraseIdx k ∧ t.tiles = s1.tiles))
  ∧ (∀ s1 l, comes → partner → a.op ≠ o.op → s.operandData a = (s1, some l) → Completes .meetingOperand s (fun t =>
      withoutTag s1 t n o.ctx o.tag ∧ t.meetings = s1.meetings ∧ (s1 = s → replied s t a 7 0 ∧ replied s t o 7 0 ∧ over_ t o.ctx o.tag)
      ∧ t.meets = s1.meets.eraseIdx k))
  ∧ (∀ c tag, next (.withdraw c tag) → x.held.any (·.about c tag) = false →
      (∀ q, x.waitingOf c tag = some q → Completes .meetingWithdrawal s (fun t => withoutTag s t n c tag ∧ replied s t q 6 1 ∧ t.meets = rest))
      ∧ (x.waitingOf c tag = none → Completes .meetingWithdrawal s (fun t => t = { s with meets := rest })))
  ∧ (∀ l, n = k → x.held = .operand o :: l → s.heldCtx o.ctx = false → slotFree → s.staleAt n o = false → alone →
      Completes .heldOperandTaken s (fun t => waits s t o ∧ (t.station n).held = l))
  ∧ (n = k → x.waiting[s.arg.m]? = some o → o.timeout ≠ 0 → s.heldCtx o.ctx = false → o.timeout ≤ (s.aot - o.at_).toNat →
      Completes .meetingTimeout s (fun t => withoutTag s t n o.ctx o.tag ∧ replied s t o 6 0 ∧ over_ t o.ctx o.tag))
  ∧ (∀ m, s.meetings[k]? = some m → (∀ m' ∈ s.meetings, m'.id = m.id → m' = m) →
      let result := fun (o : Operand) (u off unit : Nat) => s.findNear o.ctx o.dest = .ok u off → o.dest ≠ 0 → Completes .meetingResult s (fun t =>
        (∀ l ∈ t.land, l ∈ s.land ∨ (l.unit = .meeting unit ∧ l.dst = u))
        ∧ (∀ i, i < m.data.length → ∃ l ∈ t.land, l.unit = .meeting unit ∧ l.dst = u ∧
            ∃ b, (b, m.data.getD i 0) ∈ l.data ∧ 64 * l.line + b = off + i)
        ∧ t.mem = s.mem ∧ t.tiles = s.tiles
        ∧ t.meetings = s.meetings.map (fun m' => if m'.id = m.id then
            (if s.arg.m = 0 then { m with aSent := true } else { m with bSent := true }) else m'))
      (∀ u off, s.arg.m = 0 → m.aSent = false → result m.a u off (2 * m.id))
      ∧ (∀ u off, s.arg.m = 1 → m.bSent = false → result m.b u off (2 * m.id + 1))
      ∧ (s.arg.m = 2 → m.aSent = true → m.bSent = true → (∀ l ∈ s.land, l.unit ≠ .meeting (2 * m.id) ∧ l.unit ≠ .meeting (2 * m.id + 1)) →
          s.replyReady m = true → Completes .meetingResult s (fun t => t.meetings = s.meetings.eraseIdx k
            ∧ replied s t m.a (if m.aRefused then 2 else m.st) 0 ∧ replied s t m.b (if m.bRefused then 2 else m.st) 0)))

/-- An event is posted to context `c` (R374, R379): in its slot of the event queue, or, with no room, counted lost. -/
def posted (s t : State) (c code cause a b : Nat) : Prop :=
  let x := s.ctxAt c
  let seq := (x.evWritten + 1) % 2 ^ 32
  let k := queueSlot (x.scdReg 0x000) (x.scdReg 0x008) seq 32
  (queueRoom (x.scdReg 0x008) x.evWritten = true →
    t.load k 8 = (code + cause * 256) % 2 ^ 64 ∧ t.load (k + 8) 8 = a % 2 ^ 64 ∧ t.load (k + 16) 8 = b % 2 ^ 64
      ∧ t.load (k + 24) 8 = (c * 2 ^ 48 + seq) % 2 ^ 64 ∧ SameMemBut s t k 32 ∧ (t.ctxAt c).evWritten = seq)
  ∧ (queueRoom (x.scdReg 0x008) x.evWritten = false →
    SameMem s t ∧ (t.ctxAt c).evLost = Min.min (x.evLost + 1) (2 ^ 32 - 1))

/-- Node `n`, as `x`, goes on (R130, R133, R139, R141, R145): it is held where ring order or a gate says so, a control node is
ready, and a compute node is ready in its class or its fallback, or ends NO_CLASS. -/
def goesOn (s t : State) (n : Nat) (x : Node) (first : Prop) : Prop :=
  ∃ y, t.node? n = some y
    ∧ (¬ first ∨ s.gated x = true → y = { x with st := .held })
    ∧ (first → s.gated x = false → recControl x.rec_ = true → y = { x with st := .ready })
    ∧ (first → s.gated x = false → recControl x.rec_ = false →
        (∀ k fb, s.classFor x.rec_ = some (k, fb) → y = { x with
          st := .ready, cls := k, fellBack := fb, seq := if 0 < x.restarts then x.seq else s.seqNo, bank := s.lfsr.toNat % 32
          lane := none, passed := 0 })
        ∧ (s.classFor x.rec_ = none → y.outcome = some (0x10, 0, 0) ∧ y.handles = []))

/-- Each handle of a list is valid and in transit once for each time it is listed (R118, R131). -/
abbrev goodHandles (s : State) (c : Nat) (hs : List Word) : Prop :=
  hs.Nodup ∧ ∀ h ∈ hs, s.fresh? c h = true ∧ h ∈ (s.ctxAt c).transit

/-- R112, R115, R124, R128 to R131, R133, R135, R136, R138: how nodes come into the table. A ready slot of an awake ring becomes a node, its slot
is handed back and head advances; a malformed entry, of which one with a bad FBENTRY is a reading (log 46), redeems nothing; a slot
that is not ready lets the die sleep once head has reached tail. A decrement creates its instance, counts it down, and at zero decides
its fate from the entry as it then stands: by its marks first, before its record is judged malformed (a reading, log 55).
A spawned node leaves its die's queue; a spawn that a probe finds starved gets an entry of the reserve, or an event. -/
def Obligations.NodesArrive : Prop := ∀ (s : State), s.ok →
  let i := s.arg.n
  -- RING_CONSUME
  (∀ (q : Ring) (k : Nat), i < 1024 → FMap.get? s.rings i = some q → q.awake = true → s.ringKey q = some k →
    (∀ m ∈ q.pend ++ q.unret, (s.node? m).isSome = true) →
    let e := s.entryWords k
    let came := fun (t : State) (n : Nat) => s.node? n = none
      ∧ t.load (k + 64) 8 = (q.head.toNat + 2 ^ q.lsize) % 2 ^ 64
      ∧ FMap.get? t.rings i = some { q with head := q.head + 1, pend := q.pend ++ [n], unret := q.unret ++ [n] }
    (s.load (k + 64) 8 = (q.head.toNat + 1) % 2 ^ 64 → s.admits = true →
      (recOk e = true → recNdep e = 0 → goodHandles s q.ctx (entryHandles e) → (recControl e = true ∨ s.classFor e ≠ none) →
        Completes .ringConsume s (fun t => ∃ n, came t n ∧ SameMemBut s t (k + 64) 8
          ∧ goesOn s t n { ctx := q.ctx, rec_ := e.take 8, source := .ring i q.head.toNat, handles := entryHandles e }
              (q.pend = [] ∧ (recBarr e = true → q.unret = []))))
      ∧ (recOk e = false ∨ recNdep e ≠ 0 → Completes .ringConsume s (fun t => ∃ n, came t n ∧ SameMemBut s t (k + 64) 8
          ∧ (t.node? n).bind (·.outcome) = some (0x11, 0, 0) ∧ t.ctxs = s.ctxs ∧ t.bufs = s.bufs)))
    ∧ (s.load (k + 64) 8 ≠ (q.head.toNat + 1) % 2 ^ 64 → q.waiting = false → Completes .ringConsume s (fun t =>
        t = { s with rings := FMap.set s.rings i { q with awake := false } })))
  -- EDGE_DECREMENT
  ∧ (∀ (d : Edge), s.edges[i]? = some d → (∀ f ∈ s.edges.take i, f.ctx ≠ d.ctx ∨ f.addr ≠ d.addr) →
    let one := fun (x : Node) => { x with count := x.count - 1, seen := x.seen || decide (d.kind = 1), dead := x.dead || decide (d.kind = 2) }
    let rest := s.edges.eraseIdx i
    (∀ n x, s.instanceOf d.ctx d.addr = some n → s.node? n = some x → 1 < x.count → Completes .edgeDecrement s (fun t =>
        t = { s with nodes := FMap.set s.nodes n (one x), edges := rest }))
    ∧ (∀ n x s' k, s.instanceOf d.ctx d.addr = some n → s.node? n = some x → x.count = 1 → x.outcome = none → x.source = .graph d.addr →
        s.scd d.ctx d.addr false = .ok s' k →
        let e := s'.entryWords k
        let y := one x
        let ends := fun (code : Nat) => Completes .edgeDecrement s (fun t =>
          t.edges = rest ∧ ∃ z, t.node? n = some z ∧ z.outcome = some (code, 0, 0) ∧ z.rec_ = e.take 8 ∧ z.handles = [])
        (y.dead = true → recLtol e = false → ends 0x01)
        ∧ (y.dead = false → y.seen = false → ends 0x02)
        ∧ ((y.dead = true ∧ recLtol e = true ∨ y.dead = false ∧ y.seen = true) →
            (recOk e = false ∨ recNdep e = 0 ∨ recW e 8 ≠ 0 → ends 0x11)
            ∧ (x.xfers = [] → recOk e = true → recNdep e ≠ 0 → recW e 8 = 0 → goodHandles s d.ctx (entryHandles e) →
                Completes .edgeDecrement s (fun t => t.edges = rest
                  ∧ goesOn s t n { y with rec_ := e.take 8, handles := entryHandles e } True))))
    ∧ (∀ s' k, s.instanceOf d.ctx d.addr = none → s.tableFree ≠ 0 → s.scd d.ctx d.addr false = .ok s' k →
        let e := (s'.entryWords k).take 8
        1 < recNdep e → Completes .edgeDecrement s (fun t => ∃ n, s.node? n = none
          ∧ t.node? n = some (one { ctx := d.ctx, rec_ := e, source := .graph d.addr, count := recNdep e })
          ∧ FMap.getD 0 t.igen n = (FMap.getD 0 s.igen n + 1) % 2 ^ 16
          ∧ (∀ m, m ≠ n → t.node? m = s.node? m) ∧ t.edges = rest ∧ t.mem = s'.mem))
    ∧ (s.instanceOf d.ctx d.addr = none → s.tableFree = 0 → d.full = false → Completes .edgeDecrement s (fun t =>
        t.edges = s.edges.set i { d with full := true } ∧ t.nodes = s.nodes ∧ posted s t d.ctx 0x21 0 0 0)))
  -- SPAWN_QUEUE_DRAIN
  ∧ (∀ (n : Nat) (x : Node) (r : List Nat), (s.die i).spawnQ = n :: r → s.node? n = some x → x.outcome = none → (∃ u, x.source = .spawn u) →
      ((s.die i).spill = [] → Completes .spawnQueueDrain s (fun t => t.die i = { s.die i with spawnQ := r } ∧ goesOn s t n x True))
      ∧ (∀ m y l, (s.die i).spill = m :: l → m ≠ n → s.node? m = some y → r.length < 256 → Completes .spawnQueueDrain s (fun t =>
          t.die i = { s.die i with spawnQ := r ++ [m], spill := l } ∧ t.node? m = some { y with spillAt := none } ∧ goesOn s t n x True)))
  -- SPAWN_PROBE, SPAWN_STARVED
  ∧ (∀ (p : Spawning), s.here.spawning = some p → s.spawnBlocked s.cur = true →
      (4096 ≤ (s.dbc s.cur - p.since).toNat → s.reserve ≠ 0 → s.probeReturns (dieOf s.cur) (dieOf s.cur) 14 = true → s.here.rq.length < 32 →
        s.replyBefore s.cur 6 = false →
        Completes .spawnProbe s (fun t => ∃ n, s.node? n = none
          ∧ (∃ y, t.node? n = some y ∧ y.rec_ = p.rec_ ∧ y.handles = p.handles ∧ y.res = true ∧ y.st = .queued ∧ y.ctx = s.here.ctx)
          ∧ (∀ m, m ≠ n → t.node? m = if s.here.task = some m then (s.node? m).map (fun y => { y with noRestart := true }) else s.node? m)
          ∧ t.reserve = s.reserve - 1
          ∧ t.die (dieOf s.cur) = (if (s.die (dieOf s.cur)).spill = [] then { s.die (dieOf s.cur) with spawnQ := (s.die (dieOf s.cur)).spawnQ ++ [n] }
              else { s.die (dieOf s.cur) with spill := (s.die (dieOf s.cur)).spill ++ [n] })
          ∧ t.here = { s.here with
              spawning := none, ret := some (BitVec.ofNat 64 (t.nodeId n)), evLatch := true
              rq := s.here.rq ++ [replyWord 6 8 0 (t.nodeId n % 2 ^ 36)] } ∧ OtherTiles s t ∧ SameMem s t))
      ∧ (∀ n, s.here.task = some n → s.reserve = 0 → 1000000 ≤ (s.aot - p.starved).toNat → Completes .spawnStarved s (fun t =>
          t.here = { s.here with spawning := some { p with starved := s.aot } } ∧ OtherTiles s t ∧ t.nodes = s.nodes
          ∧ posted s t s.here.ctx 0x22 0 (s.nodeId n) 0)))

/-- R126, R130 to R132, R138, R143, R144: retirement. A node that is over, with every member stopped and no unit under way, sends a
decrement for each successor, by its outcome; the list is read at the retirement, and by WHILE before its count-down is stored (a
reading, log 42); once all of them have been applied it tells of a failure, frees its tiles and its place in the table. A node that may
restart goes back to READY instead, with its key; a ready control node reads its condition, chooses, and retires, WHILE counting its
condition down. -/
def Obligations.NodesRetire : Prop := ∀ (s : State) (x : Node), s.ok → s.node? s.arg.n = some x →
  let n := s.arg.n
  let id := BitVec.ofNat 64 (s.nodeId n)
  let underWay := ∃ e ∈ s.edges, e.ctx = x.ctx ∧ e.sender = id
  let left := fun (t : State) =>
    t.node? n = none
    ∧ (∀ u, t.tile u = if (s.tile u).task = some n then
        { lastCtx := (s.tile u).lastCtx, icache := (s.tile u).icache, ebud := (s.tile u).ebud, ebudUsed := (s.tile u).ebudUsed
          nextTx := (s.tile u).nextTx, issueNo := (s.tile u).issueNo, banks := (s.tile u).banks } else s.tile u)
    ∧ (Rising (s.ctxAt x.ctx).tmap → ∀ v, FMap.get? (t.ctxAt x.ctx).tmap v =
        if x.vfirst ≤ v ∧ v < x.vfirst + x.vsize then none else FMap.get? (s.ctxAt x.ctx).tmap v)
    ∧ (∀ r j q, x.source = .ring r j → r < 1024 → FMap.get? s.rings r = some q →
        FMap.get? t.rings r = some { q with pend := q.pend.filter (· ≠ n), unret := q.unret.filter (· ≠ n) })
  let sound := fun (l : List (Nat × Nat × Option Nat)) => ∀ e ∈ l, ∃ v, e.2.2 = some v ∧ v % 128 = 0 ∧ v < 2 ^ 55
  let plain := x.handles = [] ∧ x.snapshot = none ∧ ∀ r j, x.source ≠ .ring r j
  let told := fun (s' t : State) (code cause : Nat) (tval : Word) => plain → (code = 0 ∨ code = 2 → t.mem = s'.mem)
    ∧ (code ≠ 0 → code ≠ 2 → posted s' t x.ctx code (if code = 0x14 ∨ code = 0x15 then cause else 0) (s.nodeId n)
        (if code = 0x14 ∨ code = 0x15 then tval.toNat else 0))
  let sent := fun (s' t : State) (l : List (Nat × Nat × Option Nat)) (code cause : Nat) (tval : Word) =>
    t.edges = s.edges ++ l.map (fun e => { ctx := x.ctx, kind := e.2.1, addr := e.2.2.getD 0, sender := id, list := e.1 : Edge })
    ∧ (l ≠ [] ∨ underWay → (∃ y, t.node? n = some y ∧ y.sending = true ∧ y.outcome = some (code, cause, tval) ∧ y.handles = []
          ∧ y.snapshot = none ∧ y.rec_ = x.rec_)
        ∧ (∀ u, t.tile u = s.tile u) ∧ (plain → t.mem = s'.mem))
    ∧ (l = [] → ¬ underWay → left t ∧ told s' t code cause tval)
  (∀ code cause tval, x.outcome = some (code, cause, tval) → x.sending = true → (∀ m ∈ s.members n, m.2.drained = true ∧ m.2.fin = true) → ¬ underWay →
    Completes .nodeRetire s (fun t => left t ∧ told s t code cause tval ∧ t.edges = s.edges))
  ∧ (∀ code cause tval, x.outcome = some (code, cause, tval) → x.sending = false → (∀ m ∈ s.members n, m.2.drained = true ∧ m.2.fin = true) →
    (¬ (code = 0x15 ∧ recRstr x.rec_ = true ∧ x.restarts < 2 ∧ x.noRestart = false) →
      let kind := if code = 0 then 1 else if code = 2 then 0 else 2
      let sends := if listOk (recList x.rec_) = false then []
        else if recKind x.rec_ = 3 then (if 2 ≤ recNsucc x.rec_ then [(1, kind)] else [])
        else (List.range (recNsucc x.rec_)).map (fun k => (k, kind))
      ∀ s' l, s.readList x.ctx (recList x.rec_) sends = .ok s' l → sound l → Completes .nodeRetire s (fun t => sent s' t l code cause tval))
    ∧ (∀ k fb, code = 0x15 → recRstr x.rec_ = true → x.restarts < 2 → x.noRestart = false → s.classFor x.rec_ = some (k, fb) →
        Completes .nodeRetire s (fun t =>
          (∃ y, t.node? n = some y ∧ y.st = .ready ∧ y.outcome = none ∧ y.restarts = x.restarts + 1 ∧ y.gang = [] ∧ y.cls = k
            ∧ y.seq = x.seq ∧ y.rec_ = x.rec_ ∧ y.snapshot = x.snapshot ∧ y.vfirst = x.vfirst ∧ y.vsize = x.vsize)
          ∧ (∀ u, (s.tile u).task = some n → (t.tile u).task = none) ∧ t.edges = s.edges)))
  ∧ (∀ s1 k, x.outcome = none → recControl x.rec_ = true → x.st = .ready → s.heldCtx x.ctx = false →
    s.scd x.ctx (recW x.rec_ 4) false = .ok s1 k →
    let c := BitVec.ofNat 64 (s1.load k 8)
    let m := recNsucc x.rec_
    let sends := if recKind x.rec_ = 2 then (if c = 0 then [(0, 0), (1, 1)] else [(0, 1), (1, 0)])
      else if recKind x.rec_ = 3 then (if 0 < c.toInt then [(0, 1)] else [(1, 1)])
      else (List.range m).map (fun i => (i, if i = Min.min c.toNat (m - 1) then 1 else 0))
    (¬ (recKind x.rec_ = 3 ∧ 0 < c.toInt) → ∀ s' l, s1.readList x.ctx (recList x.rec_) sends = .ok s' l → sound l →
      Completes .nodeRetire s (fun t => sent s' t l 0 0 0))
    ∧ (recKind x.rec_ = 3 → 0 < c.toInt → ∀ s2 k2 s3 l, s1.scd x.ctx (recW x.rec_ 4) true = .ok s2 k2 →
        s2.readList x.ctx (recList x.rec_) sends = .ok s3 l → sound l → Completes .nodeRetire s (fun t =>
          sent (s3.store k2 8 (c.toNat - 1)) t l 0 0 0 ∧ (plain → t.load k2 8 = c.toNat - 1 ∧ SameMemBut s3 t k2 8))))

/-- R14, R40, R139, R140, R142, R143, R144, R330, R356: a pop takes the head of its class's strict lane, or else of class 0's, that can be
placed; with neither it samples two banks of its class and two of class 0 by the bits of the LFSR, which is stepped, and takes the
placeable head with the least key. No tile goes to it that is reserved for a lane head that cannot be placed, the reservation being
reckoned anew at each pop (a reading, log 45). Its node runs on the group: each member has its dispatch page, its registers, its
handles and its virtual tile; every node that stood ready in class k or 0 is passed over once. A node that 2^14 pops have passed over
moves to the tail of the strict lane. -/
def Obligations.NodesDispatched : Prop := ∀ (s : State) (n : Nat) (x : Node), s.ok →
  let k := s.arg.n
  let b := fun (lo : Nat) => s.lfsr.toNat / 2 ^ lo % 32
  let heads := [s.bankHead k (b 0), s.bankHead k (if b 5 = b 0 then (b 0 + 16) % 32 else b 5), s.bankHead 0 (b 10), s.bankHead 0 ((b 10 + 16) % 32)]
  let page := if x.fellBack then
      [BitVec.ofNat 64 (recW x.rec_ 0 / 2 ^ 24 * 2 ^ 24 + recFbcls x.rec_ * 2 ^ 8 + recW x.rec_ 0 % 2 ^ 8), x.rec_.getD 2 0, 0] ++ x.rec_.drop 3
    else x.rec_
  let hs := if 0 < x.restarts then x.snapshot.getD [] else x.handles
  let unringed := ∀ r j, x.source ≠ .ring r j
  let unplaced := fun (j : Nat) => ∀ m y, s.laneHead j = some (m, y) → s.place m y k s.arg.m = none
  let fromLane := s.laneHead k = some (n, x) ∨ unplaced k ∧ s.laneHead 0 = some (n, x)
  let fromBanks := unplaced k ∧ unplaced 0 ∧ some (n, x) ∈ heads
    ∧ ∀ m y, some (m, y) ∈ heads → (s.place m y k s.arg.m).isSome = true → (m, y) = (n, x) ∨ keyLt x.key y.key = true
  (∀ (g : List Nat) (v : Nat), 1 ≤ k → k ≤ 4 → (fromLane ∨ fromBanks) → s.node? n = some x →
    s.place n x k s.arg.m = some (g, v) → g.Nodup → x.rec_.length = 8 →
    s.expired x = false → x.st = .ready →
    s.refsFit hs (if 0 < x.restarts then g.length else g.length - 1) (if x.restarts = 0 ∧ recRstr x.rec_ then 1 else 0) = true →
    Completes .dispatchPop s (fun t =>
      (unringed → (fromLane → t.lfsr = s.lfsr) ∧ (fromBanks → t.lfsr = lfsrStep s.lfsr))
      ∧ (∀ (j m : Nat) (y : Node) (i : Nat) (r : List Nat), j < 5 → s.laneHead j = some (m, y) → m ≠ n → s.placeIn y j 0 [] = none →
          let groups := (s.groupsFor j (recWidth y.rec_)).filter (fun h => !h.isEmpty && h.all s.formable)
          groups[i]? = some r → (∀ (i' : Nat) (h : List Nat), groups[i']? = some h → s.busyIn r < s.busyIn h ∨ s.busyIn r = s.busyIn h ∧ i ≤ i') →
          ∀ u ∈ g, u ∉ r)
      ∧ (∃ y, t.node? n = some y ∧ y.st = .run ∧ y.gang = g ∧ y.vfirst = v ∧ y.vsize = (if x.vsize = 0 then blockSize g.length else x.vsize)
        ∧ y.handles = []
        ∧ y.snapshot = (if recRstr x.rec_ then some hs else none) ∧ y.lastAot = s.aot ∧ y.ran = 0 ∧ y.rec_ = x.rec_
        ∧ y.limit = ((s.ctxAt x.ctx).scdReg 0x028).toNat % 2 ^ 40)
      ∧ (∀ m y, m ≠ n → s.node? m = some y → (y.cls = k ∨ y.cls = 0) → y.lane = none → s.poppable y = true →
          (t.node? m).map (·.passed) = some (y.passed + 1))
      ∧ (∀ r, r < g.length → let u := g.getD r 0
          t.tile u = {
            task := some n
            s := [(2, BitVec.ofNat 64 ((v + r) * 2 ^ 20 + 0xBFFF0)), (3, BitVec.ofNat 64 ((v + r) * 2 ^ 20))]
            caps := hs.mapIdx (fun i h => (i, h))
            pc := page.getD 1 0
            tvec := (s.ctxAt x.ctx).scdReg 0x020
            taskid := BitVec.ofNat 64 (FMap.getD 0 s.igen n * 2 ^ 20 + n)
            rank := BitVec.ofNat 64 r
            gang := BitVec.ofNat 64 (recWidth x.rec_ + g.length * 2 ^ 8)
            vtile := v + r
            ctx := x.ctx
            deadline := page.getD 3 0
            ebud := (s.tile u).ebud
            ebudUsed := (s.tile u).ebudUsed
            nextTx := (s.tile u).nextTx
            issueNo := (s.tile u).issueNo
            banks := (s.tile u).banks
            icache := if (s.tile u).lastCtx = some x.ctx then (s.tile u).icache else []
            lastCtx := some x.ctx }
          ∧ (unringed → ∀ i, i < 8 → t.load (nearKey u (8 * i)) 8 = (page.getD i 0).toNat)
          ∧ (unringed → ∀ off, 64 ≤ off → off < 0xC0000 →
              Mem.get t.mem (nearKey u off) = if (s.tile u).lastCtx = some x.ctx then Mem.get s.mem (nearKey u off) else 0)
          ∧ (FMap.get? (t.ctxAt x.ctx).tmap (v + r)).map (·.phys) = some u)
      ∧ (∀ u, u ∉ g → t.tile u = s.tile u) ∧ t.reserve = (if x.res then s.reserve + 1 else s.reserve)))
  ∧ (s.arg.n = n → s.node? n = some x → s.poppable x = true → x.lane = none → 2 ^ 14 ≤ x.passed → Completes .strictLanePromotion s (fun t =>
      t = { s with nodes := FMap.set s.nodes n { x with lane := some s.laneNo }, laneNo := s.laneNo + 1 }))

/-- R25, R142, R144, R146, R365 to R368, R372: what the die does to running tasks. A ready node that cannot be placed has the gang of the largest
PRIO, and of these the latest dispatched, saved: the victim is SAVED in a bank, its virtual tiles with it, its members' registers
kept. A task beyond its limit, and one struck by a soft error, fail, every member stopped, one inside a condw or a cappub once that
has retired (R92); a debugger's halt lets promises and,
elsewhere, stamps lapse. -/
def Obligations.TasksInterrupted : Prop := ∀ (s : State) (n : Nat) (x : Node), s.ok →
  let d := s.arg.n
  let stopped := fun (t : State) => ∀ u, (s.tile u).task = some n →
    ((s.tile u).inside = false → (t.tile u).fin = true ∧ (t.tile u).caps = [] ∧ (t.tile u).psb = [] ∧ (t.tile u).ve.queue = [] ∧ (t.tile u).xe.queue = [])
    ∧ ((s.tile u).inside = true → t.tile u = { s.tile u with stop := true })
  (∀ (v : Nat) (y : Node) (s1 s2 : State) (ks : List Nat) (keys : List (List Nat)), s.arg.n = n → s.node? n = some x → s.poppable x = true → x.st = .ready →
    s.place n x x.cls 0 = none → s.node? v = some y → s.victim n x y = true →
    (∀ m z, s.node? m = some z → s.victim n x z = true → m = v ∨ recPrio z.rec_ < recPrio y.rec_
      ∨ (recPrio z.rec_ = recPrio y.rec_ ∧ z.lastAot.toNat < y.lastAot.toNat)) →
    y.saves = [] → y.gang.Nodup → (∀ m ∈ x.saves, m.2.task = some n) → (∀ u ∈ y.gang, s.savable u = true ∧ (s.tile u).xe.inMma = false ∧ (s.tile u).spawning = none) →
    s.takeSlots y.ctx y.gang.length = some (s1, ks) → s1.openSlots y.ctx true ks = .ok (s2, keys) →
    Completes .preemption s (fun t => ∃ z, t.node? v = some z ∧ z.st = .saved ∧ z.cls = y.cls ∧ z.seq = y.seq ∧ z.passed = 0
      ∧ z.lane = none ∧ z.bank = s.lfsr.toNat % 32
      ∧ z.saves.map (fun m => (m.1, m.2.s, m.2.p, m.2.caps, m.2.vec)) =
          (List.zip ks y.gang).map (fun m => (m.1, (s.tile m.2).s, (s.tile m.2).p, (s.tile m.2).caps, (s.tile m.2).vec))
      ∧ (∀ u ∈ y.gang, (t.tile u).task = none ∨ (t.tile u).task = some n)
      ∧ (∀ w, y.vfirst ≤ w → w < y.vfirst + y.vsize → ∀ m, FMap.get? (t.ctxAt y.ctx).tmap w = some m → y.ctx ≠ x.ctx → m.saved = true)))
  ∧ (s.arg.n = n → s.node? n = some x → x.st = .run → x.outcome = none → x.limit ≠ 0 → x.limit < x.ran → Completes .taskWatchdog s (fun t =>
      (t.node? n).bind (·.outcome) = some (0x14, 0x16, 0x8000000000000000) ∧ stopped t))
  ∧ (s.here.task = some n → s.node? n = some x → x.outcome = none → 1 ≤ s.arg.n → s.arg.n ≤ 6 → Completes .softError s (fun t =>
      (t.node? n).bind (·.outcome) = some (0x15, 0x30, BitVec.ofNat 64 (s.arg.m % 2 ^ 32 * 2 ^ 8 + s.arg.n))
      ∧ (t.node? n).map (·.avoid) = some (s.cur :: x.avoid) ∧ stopped t))
  ∧ Completes .debugHalt s (fun t =>
      t.die d = { s.die d with halted := true } ∧ SameMem s t ∧ t.nodes = s.nodes
      ∧ (∀ u, dieOf u = d → t.held u = true)
      ∧ (∀ u w, dieOf w = d → (s.tile w).task.isSome = true → (s.tile u).task.isSome = true → (s.tile u).ctx = (s.tile w).ctx → t.held u = true)
      ∧ (∀ u, t.held u = false → t.tile u = s.tile u)
      ∧ (∀ u, t.held u = true →
          (t.tile u).ce = { (s.tile u).ce with cmds := (s.tile u).ce.cmds.map (fun c => { c with promise := none }) }
          ∧ (t.tile u).ie = { (s.tile u).ie with cmds := (s.tile u).ie.cmds.map (fun c => { c with promise := none }) }
          ∧ { t.tile u with ce := (s.tile u).ce, ie := (s.tile u).ie, ve := (s.tile u).ve, xe := (s.tile u).xe } = s.tile u
          ∧ (dieOf u = d ∨ (s.die (dieOf u)).halted = true → (t.tile u).ve = (s.tile u).ve ∧ (t.tile u).xe = (s.tile u).xe)
          ∧ (dieOf u ≠ d → (s.die (dieOf u)).halted = false → ∀ e, (∀ q ∈ ((t.tile u).engine e).queue, q.stamp = none)
              ∧ ∀ r, ((t.tile u).engine e).run = some r → r.nextBeat = none ∧ r.entry.stamp = none)))
  ∧ Completes .debugRelease s (fun t =>
      { t with tiles := s.tiles } = s.setDie d { s.die d with halted := false }
      ∧ (∀ u, dieOf u ≠ d ∨ t.held u = false → t.tile u = s.tile u)
      ∧ (∀ u, dieOf u = d → t.held u = true → (t.tile u).s = (s.tile u).s ∧ (t.tile u).pc = (s.tile u).pc
          ∧ ∀ e, (∀ q ∈ ((t.tile u).engine e).queue, q.stamp = none)
              ∧ ∀ r, ((t.tile u).engine e).run = some r → r.nextBeat = none ∧ r.entry.stamp = none))

/-- R237, R244, R247 to R255, R258: translations and page requests. A walk that ends on a leaf sets A and is installed with every asker and
the memory die; one that does not parks the commands that wait on a page request. A request is written once the queue has room;
an answer lets its commands walk again or ends them with FAULT, and a gang that stood suspended for a page of the overflow area goes
on or fails with it (R135); a stale one is counted; the bits of a written value that its layout gives as zero are not read (a choice,
log 98); an invalidation leaves no translation
of its range; a control register keeps its fields, and LSIZE changed makes its queue start again. -/
def Obligations.TranslationsAndRequests : Prop := ∀ (s : State), s.ok →
  let i := s.arg.n
  let c := s.arg.ctx
  let x := s.ctxAt c
  let v := s.arg.v.toNat
  let only := fun (t : State) (y : Ctx) => t = { s with ctxs := FMap.set s.ctxs c y }
  let takes := s.pkg.linkUp = true ∧ s.arg.size = 8
  -- PAGE_WALK_COMPLETE
  (∀ w : Walk, s.walks[i]? = some w →
    (∀ k pte large, s.walk w.ctx w.vpn = .leaf k pte large → Completes .pageWalkComplete s (fun t =>
      let entry := if w.prefetch then pte else pte ||| 8
      t.walks = s.walks.eraseIdx i
      ∧ (∀ h ∈ w.askers ++ [2 ^ 20 + 16 + w.vpn % 8], ∃ y ∈ t.tlb, y.holder = h ∧ y.ctx = w.ctx ∧ y.vpn = w.vpn
          ∧ y.pte = BitVec.ofNat 64 entry ∧ y.large = large ∧ y.vgen = s.pageView w.ctx w.vpn ∧ y.owner = s.pageOwner w.ctx w.vpn)
      ∧ t.load k 8 = entry ∧ SameMemBut s t k 8 ∧ { t with tlb := s.tlb, walks := s.walks, mem := s.mem } = s))
    ∧ (∀ reason h, s.walk w.ctx w.vpn = .bad reason → w.askers.find? (s.waitsAt w.ctx w.vpn) = some h →
        (s.ctxAt w.ctx).preqs.length < 2 ^ 20 →
        (∀ r ∈ (s.ctxAt w.ctx).preqs, r.vpn ≠ w.vpn ∨ r.reason ≠ reason ∨ r.failed = true) → Completes .pageWalkComplete s (fun t =>
          t.walks = s.walks.eraseIdx i ∧ ∃ id, id < 2 ^ 20 ∧ (∀ r ∈ (s.ctxAt w.ctx).preqs, r.id ≠ id)
          ∧ (t.ctxAt w.ctx).preqs = (s.ctxAt w.ctx).preqs ++
              [{ id := id, vpn := w.vpn, reason := reason, write := w.write, eng := h % 2, tile := h / 2 }]
          ∧ (∀ g ∈ w.askers, s.waitsAt w.ctx w.vpn g = true → ((t.tile (g / 2)).cengine (holderEng g)).cmds =
              ((s.tile (g / 2)).cengine (holderEng g)).cmds.map (fun k => if k.waitsFor w.vpn then { k with park := some id } else k))
          ∧ SameMem s t ∧ t.tlb = s.tlb))
    ∧ (∀ reason, s.walk w.ctx w.vpn = .bad reason → w.askers.find? (s.waitsAt w.ctx w.vpn) = none →
        (2 ^ 20 + 16 + w.vpn % 8 ∉ w.askers → Completes .pageWalkComplete s (fun t => t = { s with walks := s.walks.eraseIdx i }))
        ∧ (2 ^ 20 + 16 + w.vpn % 8 ∈ w.askers → (s.ctxAt w.ctx).preqs.length < 2 ^ 20 →
            (∀ r ∈ (s.ctxAt w.ctx).preqs, r.vpn ≠ w.vpn ∨ r.reason ≠ reason ∨ r.failed = true) → Completes .pageWalkComplete s (fun t =>
              ∃ id, (∀ r ∈ (s.ctxAt w.ctx).preqs, r.id ≠ id) ∧ (t.ctxAt w.ctx).preqs = (s.ctxAt w.ctx).preqs ++
                [{ id := id, vpn := w.vpn, reason := reason, write := w.write, eng := 0, tile := 256 * (16 + w.vpn % 8) }]))))
  -- PAGE_REQUEST
  ∧ (∀ j r, x.preqs[j]? = some r → r.written = false → (∀ q ∈ x.preqs.take j, q.written = true) → queueRoom (x.iodReg 0x040) x.prWritten = true →
      Completes .pageRequest s (fun t =>
        let seq := (x.prWritten + 1) % 2 ^ 32
        let k := queueSlot (x.iodReg 0x038) (x.iodReg 0x040) seq 32
        t.load k 8 = (r.vpn * 2 ^ 16 + r.reason) % 2 ^ 64
        ∧ t.load (k + 8) 8 = (c * 2 ^ 48 + x.cgen % 2 ^ 16 * 2 ^ 32 + r.id) % 2 ^ 64
        ∧ t.load (k + 16) 8 = ((if r.write then 2 ^ 17 else 0) + r.eng * 2 ^ 16 + r.tile % 2 ^ 13) % 2 ^ 64
        ∧ t.load (k + 24) 8 = seq ∧ SameMemBut s t k 32
        ∧ { t with mem := s.mem } = { s with ctxs := FMap.set s.ctxs c { x with prWritten := seq, preqs := x.preqs.set j { r with written := true } } }))
  -- PRESP_RETRY, PRESP_FAIL
  ∧ (takes → x.live = true →
      let code := v / 2 ^ 28 % 4
      let current := v / 2 ^ 32 % 2 ^ 16 = x.cgen % 2 ^ 16
      let named := x.preqs.find? (fun r => decide (r.id = v % 2 ^ 20) && !r.failed)
      let mapped := fun (t : State) (f : Cmd → Cmd) => ∀ u e, ((t.tile u).cengine e).cmds =
        if (s.tile u).ctx = c then ((s.tile u).cengine e).cmds.map f else ((s.tile u).cengine e).cmds
      let discarded := fun (t : State) => only t { x with prStale := Min.min (x.prStale + 1) (2 ^ 32 - 1) }
      (code ≠ 1 → (¬ current ∨ 2 ≤ code ∨ named = none) → Completes .prespRetry s discarded)
      ∧ (code = 1 → (¬ current ∨ named = none) → Completes .prespFail s discarded)
      ∧ (∀ r, code = 0 → current → named = some r → Completes .prespRetry s (fun t =>
          (t.ctxAt c).preqs = x.preqs.filter (fun q => decide (q.id ≠ r.id))
          ∧ mapped t (fun k => if k.park = some r.id then { k with park := none } else k)
          ∧ (∀ n, t.node? n = (s.node? n).map (fun y => if y.ctx = c ∧ y.overflow = some r.vpn then { y with overflow := none } else y))
          ∧ (∀ y ∈ t.tlb, y.ctx = c → y.covers r.vpn = false) ∧ SameMem s t))
      ∧ (∀ r, code = 1 → current → named = some r → Completes .prespFail s (fun t =>
          (t.ctxAt c).preqs = (if r.tile = 26 * 256 ∧ s.overflowing c r.vpn = []
            then x.preqs.map (fun q => if q.id = r.id then { q with failed := true } else q)
            else x.preqs.filter (fun q => decide (q.id ≠ r.id)))
          ∧ (s.overflowing c r.vpn = [] → mapped t (fun k => if k.park = some r.id then { k with
              park := none, want := none, ended := some { code := 1, st := 1, val := k.partVal } } else k) ∧ SameMem s t)
          ∧ (∀ n y, s.node? n = some y → y.ctx = c → y.overflow = some r.vpn → (t.node? n).bind (·.outcome) = some (0x13, 0, 0)))))
  -- INVREQ, INVALIDATION_COMPLETE
  ∧ (takes → x.live = true → x.inv.length < 64 → Completes .invreq s (fun t => only t { x with inv := x.inv ++ [s.arg.v] }))
  ∧ (∀ (r : Word) rest, x.inv = r :: rest →
      let n := r.toNat / 2 ^ 41 % 64
      let whole := bitN r.toNat 40 = true ∨ 40 ≤ n
      let meets := fun (page pages : Nat) => whole ∧ page < 2 ^ 39 ∨ ¬ whole ∧ page < r.toNat % 2 ^ 39 / 2 ^ n * 2 ^ n + 2 ^ n
        ∧ r.toNat % 2 ^ 39 / 2 ^ n * 2 ^ n < page + pages
      Completes .invalidationComplete s (fun t =>
        (∀ y, y ∈ t.tlb ↔ y ∈ s.tlb ∧ ¬ (y.ctx = c ∧ meets (if y.large then y.vpn / 2 ^ 13 * 2 ^ 13 else y.vpn) (if y.large then 2 ^ 13 else 1)))
        ∧ (∀ h, h ∈ t.hot ↔ h ∈ s.hot ∧ ¬ (h.ctx = c ∧ meets (h.line / 2 ^ 10) 1))
        ∧ (∀ o ∈ t.overwritten, ∀ m ∈ o.maps, ¬ (m.1 = c ∧ meets m.2 1))
        ∧ (∀ o ∈ t.overDescs, ∀ m ∈ o.maps, ¬ (m.1 = c ∧ meets m.2 1))
        ∧ (∃ root, (whole → root = x.iodReg 0x000) ∧ ((¬ whole ∧ n < 39) → root = x.root)
            ∧ t.ctxAt c = { x with inv := rest, invDone := (x.invDone + 1) % 2 ^ 32, root := root })
        ∧ SameMem s t ∧ t.tiles = s.tiles))
  -- ACVAL, NQCTL, PRQCTL
  ∧ (takes → x.live = true → bitN v 16 = true → Completes .acvalClr s (fun t => only t { x with acnt := x.acnt.filter (fun a => decide (a.1 ≠ (x.iodReg 0x058).toNat % 2 ^ 39)) }))
  ∧ (takes → 1 ≤ c → c ≤ 4095 →
      let kept := BitVec.ofNat 64 (v / 2 ^ 32 * 2 ^ 32 + v % 32)
      let count := fun (old : Word) (n : Nat) => if old.toNat % 32 = v % 32 then n else 0
      Completes .nqctlWrite s (fun t => only t { x with iod := FMap.set x.iod 0x028 kept, nqWritten := count (x.iodReg 0x028) x.nqWritten })
      ∧ ((∀ r ∈ x.preqs, r.written = true) → Completes .prqctlWrite s (fun t =>
          only t { x with iod := FMap.set x.iod 0x040 kept, prWritten := count (x.iodReg 0x040) x.prWritten }))
      ∧ Completes .prqctlWrite s (fun t => (t.ctxAt c).iodReg 0x040 = kept
          ∧ ((∀ r ∈ (t.ctxAt c).preqs, r.written = true) ∨ queueRoom kept (t.ctxAt c).prWritten = false)
          ∧ (t.ctxAt c).preqs.map (fun r => { r with written := true }) = x.preqs.map (fun r => { r with written := true })))

/-- R101, R206, R241, R251, R264, R365, R382: far memory from outside a tile. The companion writes bytes and descriptors, which read the
same under any key of their frame (a reading, log 83); what they replace in a published frame is recorded, so that it may still be read
until an invalidation (the record is the model's, log 91). A memory error and a failed link end running commands with ABORT; another
package takes and drops references, binds views and is told of it (log 99), asks for lines, writes shadows and stages updates. -/
def Obligations.FarMemoryFromOutside : Prop := ∀ (s : State), s.ok →
  let a := s.arg.v.toNat
  let data := s.arg.data
  let k := (if s.arg.k = 0 then 2 ^ 64 else 2 ^ 65) + a
  let aborted := fun (c : Cmd) => { c with park := none, want := none, ended := some { code := 3, st := 3, val := c.partVal } : Cmd }
  let serves := fun (q : SpanReq) (P : State → Prop) => s.arg.span = some q → Completes .spanRequest s P
  (a + data.length ≤ 2 ^ 52 → s.arg.k ≤ 1 → (s.arg.list ≠ [] → a % 64 = 0 ∧ data.length = 64 * s.arg.list.length) →
    Completes .companionFarWrite s (fun t => Stored s t k data
      ∧ (∀ o ∈ s.overwritten, o ∈ t.overwritten)
      ∧ (∀ j, k ≤ j → j < k + data.length → s.mappedAt j ≠ [] → (∀ o ∈ s.overwritten, o.key ≠ j) →
          ({ key := j, was := Mem.get s.mem j, maps := s.mappedAt j } : Overwritten) ∈ t.overwritten)
      ∧ (∀ l, FMap.getD 0 t.desc l = if k / 64 ≤ l ∧ l < k / 64 + s.arg.list.length then BitVec.ofNat 16 (s.arg.list.getD (l - k / 64) 0)
          else FMap.getD 0 s.desc l)
      ∧ (∀ o ∈ s.overDescs, o ∈ t.overDescs)
      ∧ (∀ j, j < s.arg.list.length → s.mappedAt (k + 64 * j) ≠ [] → (∀ o ∈ s.overDescs, o.line ≠ k / 64 + j) →
          ({ line := k / 64 + j, was := s.descAt (k + 64 * j), maps := s.mappedAt (k + 64 * j) } : OverwrittenDesc) ∈ t.overDescs)
      ∧ (∀ f, (FMap.get? t.frameKey f).map (fun y => (y.id, y.gen)) = (FMap.get? s.frameKey f).map (fun y => (y.id, y.gen)))
      ∧ (∀ f x y i, FMap.get? s.frameKey f = some x → FMap.get? t.frameKey f = some y → (i ∈ y.lines ↔
          i ∈ x.lines ∨ s.arg.k = 0 ∧ data ≠ [] ∧ i < 1024 ∧ a / 64 ≤ 1024 * f + i ∧ 1024 * f + i ≤ (a + data.length - 1) / 64))
      ∧ { t with mem := s.mem, desc := s.desc, overwritten := s.overwritten, overDescs := s.overDescs, frameKey := s.frameKey } = s))
  ∧ (∀ c, let e := queEng s.arg.que
      (s.here.cengine e).headOf s.arg.que = some c → c.begun = true → c.ended = none → Completes .memoryUncorrectableError s (fun t =>
        (t.here.cengine e).cmds = (s.here.cengine e).cmds.map (fun m => if m.no = c.no then aborted c else m)
        ∧ t.here.s = s.here.s ∧ t.here.pc = s.here.pc ∧ OnlyHere s t))
  ∧ Completes .spanLinkFailure s (fun t => SameMem s t ∧ { t with tiles := s.tiles } = { s with spanOut := s.spanOut.filter (fun q => decide (q.1 ≠ s.arg.n)) }
      ∧ ∀ u e, ((t.tile u).cengine e).cmds = ((s.tile u).cengine e).cmds.map (fun c => if s.overLink s.arg.n c = true ∧ c.begun = true ∧ c.ended = none then aborted c else c))
  ∧ (∀ h, let b := s.buf (accOf h)
      (s.pkg.fmapen.getLsbD 2 = true → s.fresh? b.ctx h = true → b.proxy = none → b.count < 2 ^ 32 - 1 → serves (.takeRef h) (fun t =>
        t = { s with bufs := FMap.set s.bufs (accOf h) { b with count := b.count + 1, imports := b.imports ++ [h] } }))
      ∧ (b.live = true → h ∈ b.imports → serves (.dropRef h) (fun t =>
          let y := t.buf (accOf h)
          y.imports = b.imports.erase h ∧ y.count = b.count - 1
          ∧ (1 < b.count → y.live = true ∧ y.gen = b.gen) ∧ (b.count = 1 → y.live = false ∧ y.gen = b.gen + 1))))
  ∧ (∀ n g, let b := s.buf n
      (b.live = true → b.imports ≠ [] → serves (.bind n g []) (fun t =>
        t = { s with
          bufs := FMap.set s.bufs n { b with binds := b.binds ++ [{ tag := g, view := b.vgen }] }
          spanOut := s.spanOut ++ [(g / 2 ^ 13 % 64, .bound g)] }))
      ∧ serves (.bound g) (fun t => t = { s with bound := s.bound ++ [g] })
      ∧ (∀ pages, b.live = true → b.imports ≠ [] → pages ≠ [] →
          let blocked := ∃ p ∈ pages, p < b.pages ∧ ∃ pte, s.leafInUse (2 ^ 20 + 16 + (p + b.vbase / 2 ^ 16) % 8) b.ctx (p + b.vbase / 2 ^ 16) = some pte
            ∧ bitN pte 2 = true
          (blocked → serves (.bind n g pages) (fun t => t = s))
          ∧ (¬ blocked → serves (.bind n g pages) (fun t => (t.buf n).binds = b.binds ++ [{ tag := g, view := b.vgen, writes := true }]
            ∧ t.spanOut = s.spanOut ++ [(g / 2 ^ 13 % 64, .bound g)])))
      ∧ (serves (.endCmd n g) (fun t => (t.buf n).binds = b.binds.filter (fun y => decide (y.tag ≠ g))))
      ∧ (∀ view off, let va := (b.vbase + off) / 64 * 64
          let page := va / 2 ^ 16
          b.bindOf g = some view → off < b.size → b.proxy = none → s.viewLeaf (2 ^ 20 + 16 + page % 8) b.ctx n view.view page = none →
          s.walks.length < 256 →
          serves (.read n g off) (fun t => (∃ w ∈ t.walks, w.ctx = b.ctx ∧ w.vpn = page ∧ (2 ^ 20 + 16 + page % 8) ∈ w.askers)
            ∧ { t with walks := s.walks } = s))
      ∧ (∀ view off data d f, let va := b.vbase + off
          b.bindOf g = some view → (b.swapping = none ∨ view.awaited = true) → off + data.length ≤ b.size → off % 64 + data.length ≤ 64 → FMap.get? b.shadow (va / 2 ^ 16) = some f →
          let k := 2 ^ 64 + f + va % 2 ^ 16
          serves (.write n g off data d) (fun t => Stored s t k data
            ∧ (∀ l, FMap.get? t.desc l = match d with
                | some y => if l = k / 64 then some y else FMap.get? s.desc l
                | none => FMap.get? s.desc l)
            ∧ { t with mem := s.mem, desc := s.desc } = s))
      ∧ (∀ view off val f, let va := b.vbase + off
          b.bindOf g = some view → (b.swapping = none ∨ view.awaited = true) → off + 4 ≤ b.size → off % 4 = 0 →
          FMap.get? b.shadow (va / 2 ^ 16) = some f →
          let k := 2 ^ 64 + f + va % 2 ^ 16
          (serves (.add n g off 0x10 val) (fun t => Stored s t k (bytesOf (fp32.add (s.load k 4) val.toNat) 4) ∧ { t with mem := s.mem } = s))
          ∧ (serves (.add n g off 0x43 val) (fun t => Stored s t k (bytesOf (s.load k 4 + val.toNat) 4) ∧ { t with mem := s.mem } = s)))
      ∧ (∀ view key off fmt val f, b.bindOf g = some view → (b.swapping = none ∨ view.awaited = true) → off < b.size → FMap.get? b.stage ((b.vbase + off) / 2 ^ 16) = some f → serves (.stage n g key off fmt val) (fun t =>
          t = { s with bufs := FMap.set s.bufs n { b with staged := b.staged ++
            [{ key := key, page := (b.vbase + off) / 2 ^ 16, off := (b.vbase + off) % 2 ^ 16, fmt := fmt, val := val }] } })))

/-- The fields that registers of a context's pages keep of a written value: page (0 IOD, 1 SCD), offset, first bit, width (R237, R244, R253, R258, R356,
R366, R368, R374, R375, R378). -/
def registerFields : List (Nat × Nat × Nat × Nat) :=
  [(0, 0x000, 16, 36), (0, 0x000, 6, 2), (0, 0x000, 0, 1), (0, 0x018, 0, 16), (0, 0x020, 12, 52), (0, 0x038, 12, 52), (0, 0x058, 0, 39),
   (0, 0x068, 16, 39), (0, 0x068, 0, 6), (0, 0x070, 16, 36), (0, 0x070, 8, 8), (0, 0x078, 0, 32), (0, 0x080, 23, 32), (0, 0x080, 0, 1),
   (0, 0x088, 0, 32), (1, 0x000, 12, 52), (1, 0x018, 16, 39), (1, 0x018, 0, 16), (1, 0x020, 2, 53), (1, 0x028, 0, 40),
   (1, 0x030, 20, 35), (1, 0x030, 0, 16), (1, 0x060, 0, 10)]

/-- A register holds `w` after `v` was written to it: the bits of its fields, and zero elsewhere. -/
def keptOf (page off : Nat) (v w : Word) : Prop :=
  ∀ i, i < 64 → (w.getLsbD i = true ↔ v.getLsbD i = true ∧ ∃ f ∈ registerFields, f.1 = page ∧ f.2.1 = off ∧ f.2.2.1 ≤ i ∧ i < f.2.2.1 + f.2.2.2)

/-- R244, R373 to R376, R378, R380: the management aperture, which takes writes of 64 bits once the link has trained, and no others. A context
that goes live takes its set-up registers as starting values, its gate registers among them (a reading, log 60); one that ends leaves no
node, task, decrement or ring and no traffic, all in one turn (a reading, log 62), and its registers at reset; a register keeps its
fields; a companion's tail is judged; FMAPDRV's high half enables the map until the link trains again, which clears it (a reading, log
61). -/
def Obligations.ContextsAndRegisters : Prop := ∀ (s : State), s.ok →
  let c := s.arg.ctx
  let x := s.ctxAt c
  let v := s.arg.v
  let only := fun (t : State) (y : Ctx) => t = { s with ctxs := FMap.set s.ctxs c y }
  let setUpI := [0x000, 0x018, 0x020, 0x028, 0x038, 0x040, 0x068, 0x070, 0x078, 0x080, 0x088]
  let setUpS := [0x000, 0x008, 0x018, 0x020, 0x028, 0x030]
  (s.pkg.booted = true → Completes .linkTraining s (fun t =>
      t = { s with pkg := { s.pkg with linkUp := true, fmapOn := false, fmapDrv := 0 } }))
  ∧ (¬ (s.pkg.linkUp = true ∧ s.arg.size = 8) → ∀ i ∈ [Instr.contextCreate, .contextEnd, .registerWrite, .rtail, .fmapdrvWrite, .prespRetry,
      .prespFail, .invreq, .acvalClr, .nqctlWrite, .prqctlWrite, .ckptStart], Completes i s (fun t => t = s))
  ∧ (s.pkg.linkUp = true → s.arg.size = 8 →
  (1 ≤ c → c ≤ 4095 → x.live = false → s.pkg.fmapen ≠ 0 → Rising x.iod → Rising x.scd → Completes .contextCreate s (fun t =>
      ∃ y, only t y ∧ y.root = x.iodReg 0x000
        ∧ (∀ off, y.iodReg off = if off ∈ setUpI then x.iodReg off else 0)
        ∧ (∀ off, y.scdReg off = if off ∈ setUpS ∨ (0x100 ≤ off ∧ off < 0x280) then x.scdReg off else 0)
        ∧ { y with root := 0, iod := [], scd := [] } = { live := true, cgen := (x.cgen + 1) % 2 ^ 16, iod := [] : Ctx }))
  ∧ (1 ≤ c → c ≤ 4095 → x.live = true → Completes .contextEnd s (fun t =>
      t.ctxAt c = { cgen := x.cgen } ∧ (∀ n y, t.node? n = some y ↔ s.node? n = some y ∧ y.ctx ≠ c)
      ∧ (∀ u, t.tile u = if (s.tile u).task.isSome = true ∧ (s.tile u).ctx = c then
          { ebud := (s.tile u).ebud, ebudUsed := (s.tile u).ebudUsed, nextTx := (s.tile u).nextTx, issueNo := (s.tile u).issueNo
            banks := (s.tile u).banks
            lastCtx := if (s.tile u).lastCtx = some c then none else (s.tile u).lastCtx
            icache := if (s.tile u).lastCtx = some c then [] else (s.tile u).icache }
          else if (s.tile u).lastCtx = some c then { s.tile u with lastCtx := none, icache := [] } else s.tile u)
      ∧ t.edges = s.edges.filter (fun e => decide (e.ctx ≠ c)) ∧ (∀ r q, (r, q) ∈ t.rings ↔ (r, q) ∈ s.rings ∧ q.ctx ≠ c)
      ∧ (∀ p ∈ t.net, p.ctx ≠ c) ∧ (∀ l ∈ t.land, l.ctx ≠ c) ∧ (∀ y ∈ t.tlb, y.ctx ≠ c ∨ 2 ^ 39 ≤ y.vpn)
      ∧ (∀ d, (t.die d).spawnQ = (s.die d).spawnQ.filter (fun n => s.nodes.all (fun m => decide (m.2.ctx ≠ c ∨ m.1 ≠ n))))))
  ∧ (∀ off, s.arg.page = .iod → s.arg.n = off → 1 ≤ c → c ≤ 4095 → (∃ f ∈ registerFields, f.1 = 0 ∧ f.2.1 = off) →
      (x.live = true → off ≠ 0x068 ∧ off ≠ 0x070 ∧ off ≠ 0x078) → (x.live = false → off ∈ setUpI) →
      Completes .registerWrite s (fun t => ∃ w, keptOf 0 off v w ∧ only t { x with iod := FMap.set x.iod off w }))
  ∧ (∀ off, s.arg.page = .scd → s.arg.n = off → 1 ≤ c → c ≤ 4095 → (∃ f ∈ registerFields, f.1 = 1 ∧ f.2.1 = off) →
      (x.live = false → off ∈ setUpS) →
      Completes .registerWrite s (fun t => ∃ w, keptOf 1 off v w ∧ only t { x with scd := FMap.set x.scd off w }))
  ∧ (s.arg.page = .pkg → s.arg.n = 0x048 → s.pkg.fmapen.getLsbD 5 = true → v.getLsbD 0 = false →
      (∀ y ∈ s.ctxs, y.2.live = true → s.drainedCtx y.1 = true) →
      Completes .registerWrite s (fun t => t = { s with pkg := { s.pkg with ckctl := v } }))
  ∧ (s.arg.page = .scd → s.arg.n = 0x040 → 1 ≤ c → c ≤ 4095 → x.live = true → x.drq.length < 16 →
      Completes .registerWrite s (fun t => only t { x with drq := x.drq ++ [BitVec.ofNat 64 (v.toNat / 32 * 32)] }))
  ∧ (s.arg.page = .scd → s.arg.n = 0x008 → 1 ≤ c → c ≤ 4095 →
      Completes .registerWrite s (fun t => only t { x with
        scd := FMap.set x.scd 0x008 (BitVec.ofNat 64 (v.toNat / 2 ^ 32 * 2 ^ 32 + v.toNat % 32))
        evWritten := if (x.scdReg 0x008).toNat % 32 = v.toNat % 32 then x.evWritten else 0 }))
  ∧ (∀ g, g < 16 → s.arg.page = .scd → 1 ≤ c → c ≤ 4095 →
      (s.arg.n = 0x110 + 24 * g → Completes .registerWrite s (fun t => (t.ctxAt c).scdReg s.arg.n = v &&& 1))
      ∧ (s.arg.n = 0x100 + 24 * g ∨ s.arg.n = 0x108 + 24 * g → Completes .registerWrite s (fun t =>
          (t.ctxAt c).scdReg s.arg.n = BitVec.ofNat 64 (v.toNat / 2 ^ 16 % 2 ^ 39 * 2 ^ 16))))
  ∧ (∀ q, let r := v.toNat / 2 ^ 32 % 2 ^ 10
      let new := v.toNat % 2 ^ 32
      let ours := FMap.get? s.rings r = some q ∧ q.ctx = c
      let over_ := 2 ^ q.lsize < (new + 2 ^ 32 - q.head.toNat % 2 ^ 32) % 2 ^ 32
      let newer := 1 ≤ (new + 2 ^ 32 - q.tail.toNat) % 2 ^ 32 ∧ (new + 2 ^ 32 - q.tail.toNat) % 2 ^ 32 ≤ 2 ^ 31
      x.live = true →
      (ours → ¬ over_ → newer → Completes .rtail s (fun t => t = { s with
        ctxs := FMap.set s.ctxs c { x with rtres := 0 }
        rings := FMap.set s.rings r { q with tail := BitVec.ofNat 32 new, awake := true } }))
      ∧ (ours → ¬ over_ → ¬ newer → Completes .rtail s (fun t => only t { x with rtres := 1 }))
      ∧ (ours → over_ → Completes .rtail s (fun t => only t { x with rtres := 2 }))
      ∧ ((FMap.get? s.rings r = none ∨ (FMap.get? s.rings r = some q ∧ q.ctx ≠ c)) → Completes .rtail s (fun t => only t { x with rtres := 3 })))
  ∧ (s.pkg.fmapOn = false →
      (s.arg.n = 0 → Completes .fmapdrvWrite s (fun t => t = { s with pkg := { s.pkg with
        fmapDrv := BitVec.ofNat 128 (s.pkg.fmapDrv.toNat / 2 ^ 64 * 2 ^ 64 + v.toNat) } }))
      ∧ (s.arg.n = 8 → Completes .fmapdrvWrite s (fun t => t = { s with pkg := { s.pkg with
        fmapOn := true, fmapDrv := BitVec.ofNat 128 (v.toNat * 2 ^ 64 + s.pkg.fmapDrv.toNat % 2 ^ 64) } }))))

/-- R264, R334, R377, R378, R382: the oldest driver request of a live context, by its OP: its effect, its result in host memory, and DONE counted
on. One that breaks its layout, or of another OP, gets the result of all ones. GRANT and REVOKE do not judge B (a choice, log 96). IMPORT
asks the owner for a reference, and its proxy, with ORIGIN 1 and VBASE 0 (a reading, log 67), has the rights of the remote handle
less PUB. -/
def Obligations.DriverRequests : Prop := ∀ (s : State) (d : Word) (rest : List Word), s.ok →
  let c := s.arg.ctx
  let x := s.ctxAt c
  let k := 2 ^ 65 + d.toNat
  let op := s.load k 1
  let seven := s.load (k + 1) 7
  let A := s.load (k + 8) 8
  let B := s.load (k + 16) 8
  let bad := 2 ^ 64 - 1
  let h := BitVec.ofNat 64 A
  let answered := fun (t : State) (r : Nat) => t.load (k + 24) 8 = r ∧ (t.ctxAt c).drq = rest ∧ (t.ctxAt c).drqDone = (x.drqDone + 1) % 2 ^ 32
  let wrote := fun (t : State) (r : Nat) => answered t r ∧ SameMemBut s t (k + 24) 8 ∧ t.tiles = s.tiles ∧ t.nodes = s.nodes
  let plain := fun (t : State) (r : Nat) => wrote t r ∧ t.bufs = s.bufs ∧ t.rings = s.rings ∧ (t.ctxAt c).transit = x.transit
  let newBuf := fun (t : State) (a : Nat) (y : Buf) (rights : Nat) => 1 ≤ a ∧ a < 2 ^ 32 ∧ (s.buf a).live = false
    ∧ t.buf a = { y with gen := (s.buf a).gen, vgen := (s.buf a).vgen, live := true, ctx := c, count := 1, origin := 1 } ∧ (∀ b, b ≠ a → t.buf b = s.buf b)
    ∧ (t.ctxAt c).transit = BitVec.ofNat 64 (rights * 2 ^ 48 + (s.buf a).gen * 2 ^ 32 + a) :: x.transit
    ∧ wrote t (rights * 2 ^ 48 + (s.buf a).gen * 2 ^ 32 + a)
  x.live = true → x.drq = d :: rest →
  -- CREATE
  (op = 1 →
    let good := seven = 0 ∧ A % 2 ^ 16 = 0 ∧ A < 2 ^ 55 ∧ B ≠ 0 ∧ B ≤ 2 ^ 40
    (good → s.freeAcc ≠ none → Completes .create s (fun t => ∃ a, newBuf t a { size := B, vbase := A } 63))
    ∧ (good → s.freeAcc = none → Completes .create s (fun t => plain t 0))
    ∧ (¬ good → Completes .create s (fun t => plain t bad)))
  -- GRANT
  ∧ (op = 2 →
    let good := s.fresh? c h = true ∧ (s.buf (A % 2 ^ 32)).count < 2 ^ 32 - 1
    (seven = 0 → good → Completes .grant s (fun t => wrote t A
        ∧ t.bufs = FMap.set s.bufs (A % 2 ^ 32) { s.buf (A % 2 ^ 32) with count := (s.buf (A % 2 ^ 32)).count + 1 }
        ∧ (t.ctxAt c).transit = h :: x.transit))
    ∧ (seven = 0 → s.fresh? c h = false → Completes .grant s (fun t => plain t 0))
    ∧ (seven ≠ 0 → Completes .grant s (fun t => plain t bad)))
  -- REVOKE
  ∧ (op = 3 →
    (seven = 0 → h ∈ x.transit → Completes .revoke s (fun t => answered t 0 ∧ (t.ctxAt c).transit = x.transit.erase h
        ∧ (t.buf (A % 2 ^ 32)).count = (s.buf (A % 2 ^ 32)).count - 1))
    ∧ (seven = 0 → h ∉ x.transit → Completes .revoke s (fun t => plain t 1))
    ∧ (seven ≠ 0 → Completes .revoke s (fun t => plain t bad)))
  -- IMPORT
  ∧ (op = 4 →
    let handle := A < 2 ^ 54 ∧ A % 2 ^ 32 ≠ 0
    (∀ size r, seven = 0 → B < 64 → handle → s.pkg.fmapen.getLsbD 2 = true → s.arg.answer = some (size, r) → s.freeAcc ≠ none →
      let rights := A / 2 ^ 48 % 64
      Completes .importBuf s (fun t => (∃ a, newBuf t a { size := size, proxy := some (B, h) } (rights - rights / 4 % 2 * 4))
        ∧ t.spanOut = s.spanOut ++ [(B, .takeRef h)]))
    ∧ (seven = 0 → B < 64 → (s.pkg.fmapen.getLsbD 2 = false ∨ ¬ handle ∨ s.arg.answer = none ∨ s.freeAcc = none) → Completes .importBuf s (fun t => plain t 0))
    ∧ (seven ≠ 0 ∨ 64 ≤ B → Completes .importBuf s (fun t => plain t bad)))
  -- RINGREG
  ∧ (op = 5 →
    let good := 1 ≤ seven % 256 ∧ seven % 256 ≤ 16 ∧ seven / 256 < 2 ∧ A % 128 = 0 ∧ B % 8 = 0
    (∀ r, good → r < 1024 → FMap.get? s.rings r = none → (∀ j, j < r → FMap.get? s.rings j ≠ none) → Completes .ringreg s (fun t =>
      wrote t r ∧ t.bufs = s.bufs ∧ t.rings = FMap.set s.rings r {
        ctx := c, host := decide (seven / 256 = 1), base := A, widx := B, lsize := seven % 256 : Ring }))
    ∧ (¬ good → Completes .ringreg s (fun t => plain t bad)))
  -- RINGDEL
  ∧ (op = 6 →
    (∀ g, seven = 0 → B = 0 → FMap.get? s.rings A = some g → g.ctx = c → A < 1024 → Completes .ringdel s (fun t =>
      answered t 0 ∧ SameMemBut s t (k + 24) 8 ∧ FMap.get? t.rings A = none ∧ t.bufs = s.bufs ∧ t.tiles = s.tiles))
    ∧ (seven = 0 → B = 0 → (∀ g, FMap.get? s.rings A = some g → g.ctx ≠ c ∨ 1024 ≤ A) → Completes .ringdel s (fun t => plain t 1))
    ∧ (seven ≠ 0 ∨ B ≠ 0 → Completes .ringdel s (fun t => plain t bad)))
  ∧ (op = 0 ∨ 6 < op → Completes .driverRequestUnknownOp s (fun t => plain t bad))

/-- R24, R28, R141, R268, R379 to R381, R383 to R389: the package. Power-on starts the dies whose images check, each against its manifest, the root
key and the fused version of its type; what comes to it as an argument is log 5, and the tiles of a die that fails are recorded with
reason 3 (a reading, log 66). A checkpoint binds the published views, streams free bytes to host memory (log 64) and tells every context of
its end; the energy that a period leaves is shared; corrected errors mark a unit, whose drain changes the catalogue and leaves no ready
node in a class that has gone, nor a line in a cache slice that has (log 84); the trust die answers each SPDM request over the mailbox by
which it came, with measurements of the images and the fused versions (their order is the model's, log 9), and keeps keys, which change
in a secured session only, and which FINISH secures after a key exchange (a reading, log 21). Once the link has trained, the aperture
reads AOT, the catalogue's version and generation, and the enabled features; nothing is read at an offset that is no multiple of 8, or
by an access that is not of 64 bits. -/
def Obligations.PackageManaged : Prop := ∀ (s : State), s.ok →
  let n := s.arg.n
  let said := fun (t : State) (session : Nat) (r : SpdmResp) =>
    t = { s with pkg := { s.pkg with spdm := { session := session, sent := (s.arg.box, r) :: s.pkg.spdm.sent } } }
  let order : List Nat := [25, 24, 16, 17, 18, 19, 20, 21, 22, 23, 26]
  let compute := fun (dense : Prop) (d : Nat) => d < 14 ∧ ¬ (dense ∧ (d = 8 ∨ d = 9))
  let passes := fun (d : Nat) => ∃ i, FMap.get? s.arg.images d = some i ∧ i.digest = i.manifest ∧ i.key = s.pkg.rootKey ∧ i.signed = true
    ∧ FMap.getD 0 s.pkg.fused (typeCode d) ≤ i.version
  let digests := fun (l : List Nat) => l.filterMap (fun d => (FMap.get? s.pkg.images d).map (·.digest.toNat))
  let measured := match n with
    | 1 => digests [25]
    | 2 => digests [24, 16, 17, 18, 19, 20, 21, 22, 23, 26]
    | 3 => [1, 2, 3, 4].flatMap (fun k => k :: digests ((List.range 14).filter (fun d => !(s.pkg.dense && decide (d = 8 ∨ d = 9)) && decide (Config.dieClass d = k))))
    | 4 => s.pkg.fused.flatMap (fun f => [f.1, f.2])
    | _ => s.pkg.deacc.flatMap (fun e => [e.aot.toNat, e.unit.kind, e.unit.die, e.unit.index, e.unit.reason, e.in60s, e.in24h])
        ++ [if s.pkg.deaccOver then 1 else 0]
  let now := s.pkg.spdm.session
  (s.pkg.linkUp = true → s.readAperture 0x10040 = s.aot ∧ s.readAperture 0 = BitVec.ofNat 64 (1 + s.pkg.catGen % 2 ^ 32 * 2 ^ 32)
    ∧ s.readAperture 0x10010 = s.pkg.fmapen.setWidth 64 ∧ (∀ off, off % 8 ≠ 0 → s.readAperture off = 0))
  ∧ (∀ off size, size ≠ 8 → s.readAperture off size = 0)
  ∧ (∀ (i d : Nat), s.pkg.booted = false → order[i]? = some d → ¬ passes d → (∀ (j d' : Nat), j < i → order[j]? = some d' → passes d') →
      Completes .powerOn s (fun t => t = { s with pkg := { s.pkg with bootFail := some d } }))
  ∧ (s.pkg.booted = false → (∀ d ∈ order, passes d) → Completes .powerOn s (fun t =>
      t.pkg.booted = true ∧ t.pkg.bootFail = none ∧ t.pkg.dense = decide (s.arg.k = 1)
      ∧ (∀ d, d ∈ t.pkg.badDies ↔ compute (s.arg.k = 1) d ∧ ¬ passes d)
      ∧ (∀ d i, (d, i) ∈ t.pkg.images ↔ (d, i) ∈ s.arg.images ∧ passes d)
      ∧ (∀ d, t.present d = true → (t.die d).outOfReset = true ∧ (t.die d).dbc = 0) ∧ (∀ d, t.present d = false → t.die d = s.die d)
      ∧ (∀ d ∈ t.pkg.badDies, ∀ j, j < Config.dieTiles d → ({ kind := 1, die := d, index := j, reason := 3 } : Retired) ∈ t.pkg.retired)
      ∧ (∀ v ∈ s.arg.list, 2 ^ 24 ≤ v → v < 6 * 2 ^ 24 →
          ({ kind := v / 2 ^ 24, die := v / 2 ^ 16 % 256, index := v % 2 ^ 16, reason := 1 } : Retired) ∈ t.pkg.retired)
      ∧ SameMem s t ∧ t.tiles = s.tiles))
  ∧ (s.pkg.linkUp = true → s.arg.size = 8 → s.pkg.fmapen.getLsbD 5 = true → s.arg.v.getLsbD 0 = true → s.pkg.ckpt = none →
      (∀ y ∈ s.ctxs, y.2.live = true → s.drainedCtx y.1 = true) → Completes .ckptStart s (fun t => ∃ views,
        t = { s with pkg := { s.pkg with ckctl := s.arg.v, ckpt := some views } }
        ∧ ∀ a g, (a, g) ∈ views ↔ ∃ b, (a, b) ∈ s.bufs ∧ b.live = true ∧ b.proxy = none ∧ g = b.vgen))
  ∧ (∀ views c y, s.pkg.ckpt = some views → (∀ w ∈ views, (s.buf w.1).old = []) → s.ctxs.filter (fun z => z.2.live) = [(c, y)] →
      s.ctxAt c = y → Completes .ckptDone s (fun t => t.pkg = { s.pkg with ckpt := none } ∧ ∃ s1 : State, posted s1 t c 0x25 0 (if s.arg.ok then 0 else 1) n
        ∧ s1.ctxs = s.ctxs ∧ (s.pkg.ckctl.getLsbD 1 = true → s1 = s)
        ∧ (s.pkg.ckctl.getLsbD 1 = false → SameMemBut s s1 (2 ^ 65 + s.pkg.ckctl.toNat / 2 ^ 12 * 2 ^ 12) n)))
  ∧ Completes .ebudRefill s (fun t =>
      let matrix := fun (u : Nat) => s.usable u = true ∧ u < 2048
      let used := ((List.range 2048).filter (fun u => s.usable u && (s.tile u).ebudUsed)).length
      (∀ u, matrix u → let g := (28000000 - n) / (if (s.tile u).ebudUsed then used else used + 1)
        t.tile u = { s.tile u with ebud := Min.min ((s.tile u).ebud + g) (2 * g), ebudUsed := false })
      ∧ (∀ u, ¬ matrix u → t.tile u = s.tile u) ∧ { t with tiles := s.tiles } = s)
  ∧ (1 ≤ n → n ≤ 4 → Completes .correctedError s (fun t =>
      let u : Retired := { kind := n, die := s.arg.m, index := s.arg.k, reason := 2 }
      let recent := fun (ticks : Nat) => (t.pkg.errs.filter (fun e => decide (e.1 = u ∧ s.aot.toNat < e.2.toNat + ticks))).length
      t.pkg.errs = s.pkg.errs ++ [(u, s.aot)]
      ∧ t.pkg.marked = s.pkg.marked ++ (if (4 ≤ recent 60000000000 ∨ 16 ≤ recent 86400000000000) ∧ s.retired n s.arg.m s.arg.k = false
          ∧ s.marked n s.arg.m s.arg.k = false then [u] else [])
      ∧ { t with pkg := s.pkg } = s))
  ∧ (∀ u, s.pkg.marked[n]? = some u → s.drainsNow u = true → Completes .unitDrain s (fun t =>
      t.pkg.marked = s.pkg.marked.eraseIdx n ∧ t.pkg.retired = s.pkg.retired ++ [u]
      ∧ t.pkg.catGen = s.pkg.catGen + 2 ∧ t.pkg.lastChange = s.aot
      ∧ (s.pkg.deacc.length < 4096 → t.pkg.deacc = s.pkg.deacc ++
          [{ aot := s.aot, unit := u, in60s := s.errsIn u 60000000000, in24h := s.errsIn u 86400000000000 }] ∧ t.pkg.deaccOver = s.pkg.deaccOver)
      ∧ (4096 ≤ s.pkg.deacc.length → t.pkg.deacc = s.pkg.deacc ∧ t.pkg.deaccOver = true)
      ∧ (u.kind = 2 → ∀ h ∈ t.hot, ¬ (16 + h.line / 2 ^ 10 % 8 = u.die ∧ (h.line / 2 ^ 13 * 2 ^ 10 + h.line % 2 ^ 10) % 32768 = u.index))
      ∧ (∀ m x, s.node? m = some x → x.st = .ready → x.outcome = none → recControl x.rec_ = false → t.classPresent x.cls = false →
          let falls := x.fellBack = false ∧ t.classPresent (recFbcls x.rec_) = true ∧ recW x.rec_ 2 ≠ 0
          (falls → ∃ y, t.node? m = some y ∧ y.cls = recFbcls x.rec_ ∧ y.fellBack = true ∧ y.seq = x.seq ∧ y.outcome = none)
          ∧ (¬ falls → (t.node? m).bind (·.outcome) = some (0x10, 0, 0)))
      ∧ (∀ m x, s.node? m = some x → (x.st ≠ .ready ∧ x.st ≠ .saved ∨ t.classPresent x.cls = true) →
          ∃ y, t.node? m = some y ∧ { y with wrote := x.wrote } = x)))
  ∧ Completes .getVersion s (fun t => said t now .version) ∧ Completes .getCapabilities s (fun t => said t now .capabilities)
  ∧ Completes .negotiateAlgorithms s (fun t => said t now (.algorithms .ecdsaP521 .sha512 .secp521r1 .aes256Gcm)) ∧ Completes .getDigests s (fun t => said t now .digests)
  ∧ Completes .getCertificate s (fun t => said t now .certificate) ∧ Completes .challenge s (fun t => said t now .challengeAuth)
  ∧ (∀ i, n = 1 → FMap.get? s.pkg.images 25 = some i → Completes .getMeasurements s (fun t => said t now (.measurements 1 i.digest)))
  ∧ (1 ≤ n → n ≤ 5 → (n = 1 → FMap.get? s.pkg.images 25 = none) →
      Completes .getMeasurements s (fun t => said t now (.measurements n (Config.digest n measured))))
  ∧ Completes .keyExchange s (fun t => said t 1 .keyExchange)
  ∧ (now = 1 → Completes .finish s (fun t => said t 2 .finish)) ∧ Completes .endSession s (fun t => said t 0 .endSessionAck)
  ∧ Completes .spdmUnsupportedRequest s (fun t => said t now (.unsupportedRequest (BitVec.ofNat 8 n)))
  ∧ (now = 2 → n < 256 → Completes .keygen s (fun t => (∀ j, j ∈ t.pkg.keys ↔ j = n ∨ j ∈ s.pkg.keys)
      ∧ FMap.getD 0 t.pkg.keyGen n = FMap.getD 0 s.pkg.keyGen n + 1
      ∧ said { t with pkg := { t.pkg with keys := s.pkg.keys, keyGen := s.pkg.keyGen } } 2 .vendorDefined))
  ∧ (now = 2 → n < 256 → Completes .keydel s (fun t => (∀ j, j ∈ t.pkg.keys ↔ j ≠ n ∧ j ∈ s.pkg.keys)
      ∧ said { t with pkg := { t.pkg with keys := s.pkg.keys } } 2 .vendorDefined))
  ∧ (now ≠ 2 ∨ 256 ≤ n → ∀ i ∈ [Instr.keygen, .keydel], Completes i s (fun t => said t now .vendorDefined))

/-- The sequencer of the state's focus is the one whose turn it is: the agenda is empty, or its first turn is that sequencer's (log 1). -/
def sequencerTurn (s f : State) : Prop := s.agenda = [] ∧ f = s ∨ ∃ t rest, s.agenda = .seq t :: rest ∧ f = { s with agenda := rest, cur := t }

/-- The word `w` is executed in the state `f`, or waits while it names the register of a read that has not returned (R84; log 79). -/
def runsWord (s f : State) (w : Nat) : Prop :=
  (f.here.awaits (decodeSeq w) = false → step s = exec (decodeSeq w) f) ∧ (f.here.awaits (decodeSeq w) = true → step s = .next f)

/-- R10, R24, R25, R30, R31, R49, R62, R84, R92, R142, R212, R232: a step runs the decoded instruction. A sequencer that may go
on, with no fault to take first, executes the word at its program counter: from its instruction cache, else through the page tables,
setting A, and keeping it in the cache while that has room (log 73), a free word where the frame's key does not fit (log 83); a bad program
counter traps and an untranslated one stops the model (log 7); one whose task has failed stops instead, at an instruction boundary.
A turn that performs its word's own accesses later (log 79) is such a turn. An engine executes the micro-order at its step, read when
it is reached (log 93), as its class decodes it, when that is due, once it is settled which group it issues in; its turn may be bounded
(log 101); an event of the agenda is executed as such. Beats pass on the counters of all dies that count, or of one, and ticks in AOT,
unless something is to be judged first (log 6). -/
def Obligations.StepRunsDecodedInstruction : Prop := ∀ (s f : State),
  (sequencerTurn s f →
    let x := f.here
    let a := x.pc.toNat
    let stops := x.stop = true ∧ x.inside = false
    (f.seqRuns f.cur = false → step s = .next f)
    ∧ (f.seqRuns f.cur = true → stops → step s = .next (f.stopMember f.cur))
    ∧ (f.seqRuns f.cur = true → ¬ stops → f.deliverable f.cur = true → step s = exec .faultDelivery f)
    ∧ (f.seqRuns f.cur = true → ¬ stops → f.deliverable f.cur = false →
        ((a % 4 ≠ 0 ∨ 2 ^ 55 ≤ a) → step s = .next (f.trap 0x04 x.pc))
        ∧ (a % 4 = 0 → a < 2 ^ 55 →
            (∀ w, FMap.get? x.icache (a / 4) = some w → runsWord s f w.toNat)
            ∧ (∀ k pte large, FMap.get? x.icache (a / 4) = none → f.walk x.ctx (a / 2 ^ 16) = .leaf k pte large →
                let f1 := f.orEntry k 8
                let kept := fun (f : State) (w : Nat) => f.modTile f.cur (fun x =>
                  if x.icache.length < 16384 then { x with icache := FMap.set x.icache (a / 4) (BitVec.ofNat 32 w) } else x)
                let key := leafKey pte (a / 2 ^ 16) large + a % 2 ^ 16
                (f1.keyFits pte key = true → runsWord s (kept f1 (f1.load key 4)) (f1.load key 4))
                ∧ (f1.keyFits pte key = false → ∃ w, runsWord s (kept f1.picked w) w))
            ∧ (∀ why, FMap.get? x.icache (a / 4) = none → f.walk x.ctx (a / 2 ^ 16) = .bad why → step s = .fault .fetchUntranslated))))
  ∧ (∀ t rest, s.agenda = .seqLate t :: rest → step s = match step { s with agenda := .seq t :: rest, late := true } with
      | .next u => .next { u with late := false }
      | r => r)
  ∧ (∀ t e n rest, s.agenda = .engPart t e n :: rest → step s = match step { s with agenda := .eng t e :: rest, part := some n } with
      | .next u => .next { u with part := none }
      | r => r)
  ∧ (∀ rest (beats : Nat → Nat) (ticks : Nat),
    let passes := fun (t : State) =>
      t.aot = s.aot + BitVec.ofNat 64 ticks
      ∧ (∀ d, t.die d = { s.die d with dbc := (s.die d).dbc + BitVec.ofNat 64 (if d < 27 then beats d else 0) })
      ∧ (∀ u, t.tile u = { s.tile u with
          banks := if beats (u / 256) = 0 then (s.tile u).banks else []
          sleep := (s.tile u).sleep.map (fun v => if v.1 = true ∧ s.held u = true then (v.1, v.2 + BitVec.ofNat 64 ticks) else v) })
      ∧ (∀ n, t.node? n = (s.node? n).map (fun x => if x.st = .run ∧ x.outcome = none ∧ s.heldCtx x.ctx = false then { x with ran := x.ran + ticks } else x))
      ∧ (∀ i : Nat, t.net[i]? = s.net[i]?.map (fun (p : Packet) => if p.arrived then p else { p with waited := p.waited + beats (p.point / 65536) }))
      ∧ (∀ i : Nat, t.land[i]? = s.land[i]?.map (fun (p : Landing) => if p.arrived then p else { p with waited := p.waited + beats (p.point / 65536) }))
      ∧ (∀ i : Nat, t.meets[i]? = s.meets[i]?.map (fun (p : Mail) => if p.arrived then p else { p with waited := p.waited + beats (p.point / 65536) }))
      ∧ { t with aot := s.aot, dies := s.dies, tiles := s.tiles, nodes := s.nodes, net := s.net, land := s.land, meets := s.meets, stations := s.stations }
          = { s with agenda := rest }
    let counts := fun (d : Nat) => (s.die d).outOfReset = true ∧ (s.die d).halted = false
    let judged := { s with agenda := rest }.mayPass beats ticks
    (∀ n, s.agenda = .time n ticks :: rest → (∀ d, (counts d → beats d = n) ∧ (¬ counts d → beats d = 0)) →
      (judged = false → step s = .next { s with agenda := rest }) ∧ (judged = true → ∃ t, step s = .next t ∧ passes t))
    ∧ (∀ k n, s.agenda = .beats k n :: rest → ticks = 0 → (∀ d, (d = k → counts d → beats d = n) ∧ (d ≠ k ∨ ¬ counts d → beats d = 0)) →
      (judged = false → step s = .next { s with agenda := rest }) ∧ (judged = true → ∃ t, step s = .next t ∧ passes t)))
  ∧ (∀ t e rest, s.agenda = .eng t e :: rest →
    let f := { s with agenda := rest, cur := t, eng := e }
    (∀ g, f.engFirst t e = some g → step s = .next g)
    ∧ (f.engFirst t e = none →
    (((s.tile t).engine e).run = none → step s = .next f)
    ∧ (∀ r, ((s.tile t).engine e).run = some r → r.ended = none → s.held t = false →
        let decoder := fun (w : Nat) => match e, Config.dieClass (t / 256) with
          | .ve, _ => decodeVe w
          | .xe, 1 => decodeMe w
          | .xe, 2 => decodeSe w
          | .xe, 4 => decodeOe w
          | .xe, _ => .illegalMicroOrder (BitVec.ofNat 32 w)
        let off := r.base + 4 * r.step
        let own := fun (k : Nat) => BitVec.ofNat 64 ((s.tile t).vtile * 2 ^ 20 + k)
        let w := s.load (nearKey t off) 4
        let due := f.dueBeat r (decoder (f.stepWord t r r.step))
        (((s.tile t).engine e).skips r = true → step s = .next f.skipStep)
        ∧ (((s.tile t).engine e).skips r = false →
          (∀ b, due = some b → b ≠ s.dbc t → step s = .next f)
          ∧ ((∀ b, due = some b → b = s.dbc t) →
            (0xC0000 < off + 4 → step s = .next (f.stepFault 0x03 (own off)))
            ∧ (off + 4 ≤ 0xC0000 → s.unitLanding t (off / 64) r.entry.no = true →
                step s = .next (if r.entry.stamp = none then f else f.stepFault 0x11 (own (64 * (off / 64)))))
            ∧ (off + 4 ≤ 0xC0000 → s.unitLanding t (off / 64) r.entry.no = false →
                step s = exec (decoder w) (f.issuing e (decoder w))))))))
  ∧ (∀ i t e a rest, s.agenda = .event i t e a :: rest → i.codeUnit = .event → (∀ w, i ≠ .illegalMicroOrder w) →
      step s = exec i { s with agenda := rest, cur := t, eng := e, arg := a })

/-- R32 to R38, R44 to R50, R55, R56: words written out from the formats: an ALU word, a branch, a load, a predicate compare, words of each engine,
and words that are illegal for a reserved bit, an unlisted function or a code of another engine. -/
def Obligations.DecodeWords : Prop :=
  decodeSeq 0b000001_00011_00100_00101_00000000001 = .sub 3 4 5
  ∧ decodeSeq 0b001010_010_0011_00110_00111_000000000 = .cmp 2 3 6 7
  ∧ decodeSeq 0b010000_001_0_1111111111111111111110 = .br 1 0x3FFFFE
  ∧ decodeSeq 0b011000_01001_01010_10_1_1111111111000 = .ld 9 10 2 1 0x1FF8
  ∧ decodeVe 0b00000001_00001_00_00010_00_00011_001_00 = .vaddF 1 0 2 0 3 1 0
  ∧ decodeVe 0b01010000_01_0000001010_000000000000 = .loop 1 10
  ∧ decodeSeq 0 = .illegalWord 0
  ∧ decodeSeq 0b000001_00011_00100_00101_00000000111 = .illegalWord (BitVec.ofNat 32 0b000001_00011_00100_00101_00000000111)
  ∧ decodeOe 0b00001000_000_0_00000000000000000000 = .illegalMicroOrder (BitVec.ofNat 32 0x08000000)

/-- R32 to R38, R44 to R50: decoding is the inverse of encoding: every well-formed instruction with words, at every value of every operand, is
what its own unit's decoder reads from the words that encode it; a common control is read so by every engine. -/
def Obligations.DecodeEncodeAgree : Prop := ∀ (i : Instr), i.wf = true → (∀ w, i ≠ .illegalWord w) →
  (i.codeUnit = .seq → decodeSeq (encode i) = i)
  ∧ (i.codeUnit = .ve ∨ i.codeUnit = .ctl → decodeVe (encode i) = i)
  ∧ (i.codeUnit = .me ∨ i.codeUnit = .ctl → decodeMe (encode i) = i)
  ∧ (i.codeUnit = .oe ∨ i.codeUnit = .ctl → decodeOe (encode i) = i)
  ∧ (i.codeUnit = .se ∨ i.codeUnit = .ctl → decodeSe (encode i) = i)

/-- R13, R16, R127: every step keeps what State.ok says: the memory in its canonical form (the model's own, log 4), and no tile and no node
listed twice. -/
def Obligations.StepKeepsOk : Prop := ∀ (s t : State), s.ok → step s = .next t → t.ok

/-- R24, R41, R139, R237, R375, R383: the package at power-on: no context is live, no tile runs a task, the dispatch LFSR is 0xACE1, a context's
registers are at the values that their tables give, no die counts beats, and State.ok holds. That a tile's program counter is 0 and that the
lists of tasks, replies and nodes are empty are the model's choice where no rule gives a value (log 3); the form of State.ok is the model's (log 4). -/
def Obligations.ResetState : Prop :=
  State.reset.ok ∧ State.reset.lfsr = 0xACE1 ∧ State.reset.reserve = 16 ∧ State.reset.pkg.booted = false ∧ State.reset.pkg.fmapen = 0
  ∧ (∀ c, (State.reset.ctxAt c).live = false ∧ (State.reset.ctxAt c).iodReg 0x018 = 256 ∧ (State.reset.ctxAt c).iodReg 0x088 = 50000
      ∧ (State.reset.ctxAt c).scdReg 0x008 = 0)
  ∧ (∀ t, (State.reset.tile t).task = none ∧ (State.reset.tile t).pc = 0 ∧ (State.reset.tile t).rq = [] ∧ (State.reset.tile t).hm = false)
  ∧ (∀ d, (State.reset.die d).dbc = 0 ∧ (State.reset.die d).outOfReset = false) ∧ (∀ n, State.reset.node? n = none)
end

