-- ==== Sys2Proof/Laws/FMap.lean ====
section
/-! SUPPORT. Reading a table after a write. -/

namespace Sys2Proof

@[simp] theorem FMap.get?_set_same {α : Type} (m : FMap α) (k : Nat) (v : α) : FMap.get? (FMap.set m k v) k = some v := by
  induction m with
  | nil => simp [FMap.set, FMap.get?]
  | cons h t ih =>
    obtain ⟨j, w⟩ := h
    simp only [FMap.set]
    split
    · simp [FMap.get?]
    · split
      · simp [FMap.get?]
      · rename_i h1 h2; simp [FMap.get?, h1, h2, ih]

theorem FMap.get?_set_ne {α : Type} (m : FMap α) {k j : Nat} (v : α) (h : j ≠ k) :
    FMap.get? (FMap.set m k v) j = FMap.get? m j := by
  induction m with
  | nil => simp only [FMap.set, FMap.get?, h, if_false]; split <;> rfl
  | cons a t ih =>
    obtain ⟨i, w⟩ := a
    simp only [FMap.set]
    split
    · rename_i e; subst e; simp [FMap.get?, h]
    · split
      · rename_i h1 h2
        simp only [FMap.get?, h, if_false]
        by_cases hj : j < k
        · have : j ≠ i := by omega
          have : j < i := by omega
          simp [*]
        · simp [hj]
      · simp only [FMap.get?, ih]

@[simp] theorem FMap.getD_set_same {α : Type} (d : α) (m : FMap α) (k : Nat) (v : α) :
    FMap.getD d (FMap.set m k v) k = v := by simp [FMap.getD]

theorem FMap.getD_set_ne {α : Type} (d : α) (m : FMap α) {k j : Nat} {v : α} (h : j ≠ k) :
    FMap.getD d (FMap.set m k v) j = FMap.getD d m j := by simp [FMap.getD, FMap.get?_set_ne m v h]

@[simp] theorem Bank.get_set_same {w : Nat} (b : Bank w) (k : Nat) (v : BitVec w) : Bank.get (FMap.set b k v) k = v := by
  simp [Bank.get]

theorem Bank.get_set_ne {w : Nat} (b : Bank w) {k j : Nat} (v : BitVec w) (h : j ≠ k) :
    Bank.get (FMap.set b k v) j = Bank.get b j := by simp [Bank.get, FMap.getD_set_ne _ _ h]

end Sys2Proof
end

