-- ==== Sys2Proof/Laws/State.lean ====
section
/-! SUPPORT. What each update of the state leaves alone, one lemma for each field, and what it writes. -/

namespace Sys2Proof.Machine

/-! ### setTile -/

@[simp] theorem State.setTile_agenda (s : State) (t : Nat) (x : Tile) : (s.setTile t x).agenda = s.agenda := rfl
@[simp] theorem State.setTile_cur (s : State) (t : Nat) (x : Tile) : (s.setTile t x).cur = s.cur := rfl
@[simp] theorem State.setTile_eng (s : State) (t : Nat) (x : Tile) : (s.setTile t x).eng = s.eng := rfl
@[simp] theorem State.setTile_arg (s : State) (t : Nat) (x : Tile) : (s.setTile t x).arg = s.arg := rfl
@[simp] theorem State.setTile_fresh (s : State) (t : Nat) (x : Tile) : (s.setTile t x).fresh = s.fresh := rfl
@[simp] theorem State.setTile_aot (s : State) (t : Nat) (x : Tile) : (s.setTile t x).aot = s.aot := rfl
@[simp] theorem State.setTile_mem (s : State) (t : Nat) (x : Tile) : (s.setTile t x).mem = s.mem := rfl
@[simp] theorem State.setTile_desc (s : State) (t : Nat) (x : Tile) : (s.setTile t x).desc = s.desc := rfl
@[simp] theorem State.setTile_dies (s : State) (t : Nat) (x : Tile) : (s.setTile t x).dies = s.dies := rfl
@[simp] theorem State.setTile_land (s : State) (t : Nat) (x : Tile) : (s.setTile t x).land = s.land := rfl
@[simp] theorem State.setTile_bits (s : State) (t : Nat) (x : Tile) : (s.setTile t x).bits = s.bits := rfl
@[simp] theorem State.setTile_late (s : State) (t : Nat) (x : Tile) : (s.setTile t x).late = s.late := rfl
@[simp] theorem State.setTile_part (s : State) (t : Nat) (x : Tile) : (s.setTile t x).part = s.part := rfl
@[simp] theorem State.setTile_overDescs (s : State) (t : Nat) (x : Tile) : (s.setTile t x).overDescs = s.overDescs := rfl
@[simp] theorem State.setTile_spanOut (s : State) (t : Nat) (x : Tile) : (s.setTile t x).spanOut = s.spanOut := rfl
@[simp] theorem State.setTile_bound (s : State) (t : Nat) (x : Tile) : (s.setTile t x).bound = s.bound := rfl
@[simp] theorem State.setTile_net (s : State) (t : Nat) (x : Tile) : (s.setTile t x).net = s.net := rfl
@[simp] theorem State.setTile_tlb (s : State) (t : Nat) (x : Tile) : (s.setTile t x).tlb = s.tlb := rfl
@[simp] theorem State.setTile_walks (s : State) (t : Nat) (x : Tile) : (s.setTile t x).walks = s.walks := rfl
@[simp] theorem State.setTile_hot (s : State) (t : Nat) (x : Tile) : (s.setTile t x).hot = s.hot := rfl
@[simp] theorem State.setTile_overwritten (s : State) (t : Nat) (x : Tile) : (s.setTile t x).overwritten = s.overwritten := rfl
@[simp] theorem State.setTile_frameKey (s : State) (t : Nat) (x : Tile) : (s.setTile t x).frameKey = s.frameKey := rfl
@[simp] theorem State.setTile_ctxs (s : State) (t : Nat) (x : Tile) : (s.setTile t x).ctxs = s.ctxs := rfl
@[simp] theorem State.setTile_bufs (s : State) (t : Nat) (x : Tile) : (s.setTile t x).bufs = s.bufs := rfl
@[simp] theorem State.setTile_nodes (s : State) (t : Nat) (x : Tile) : (s.setTile t x).nodes = s.nodes := rfl
@[simp] theorem State.setTile_igen (s : State) (t : Nat) (x : Tile) : (s.setTile t x).igen = s.igen := rfl
@[simp] theorem State.setTile_edges (s : State) (t : Nat) (x : Tile) : (s.setTile t x).edges = s.edges := rfl
@[simp] theorem State.setTile_rings (s : State) (t : Nat) (x : Tile) : (s.setTile t x).rings = s.rings := rfl
@[simp] theorem State.setTile_lfsr (s : State) (t : Nat) (x : Tile) : (s.setTile t x).lfsr = s.lfsr := rfl
@[simp] theorem State.setTile_seqNo (s : State) (t : Nat) (x : Tile) : (s.setTile t x).seqNo = s.seqNo := rfl
@[simp] theorem State.setTile_laneNo (s : State) (t : Nat) (x : Tile) : (s.setTile t x).laneNo = s.laneNo := rfl
@[simp] theorem State.setTile_reserve (s : State) (t : Nat) (x : Tile) : (s.setTile t x).reserve = s.reserve := rfl
@[simp] theorem State.setTile_stations (s : State) (t : Nat) (x : Tile) : (s.setTile t x).stations = s.stations := rfl
@[simp] theorem State.setTile_meets (s : State) (t : Nat) (x : Tile) : (s.setTile t x).meets = s.meets := rfl
@[simp] theorem State.setTile_meetings (s : State) (t : Nat) (x : Tile) : (s.setTile t x).meetings = s.meetings := rfl
@[simp] theorem State.setTile_meetNo (s : State) (t : Nat) (x : Tile) : (s.setTile t x).meetNo = s.meetNo := rfl
@[simp] theorem State.setTile_pkg (s : State) (t : Nat) (x : Tile) : (s.setTile t x).pkg = s.pkg := rfl

/-! ### modTile -/

@[simp] theorem State.modTile_agenda (s : State) (t : Nat) (f : Tile → Tile) : (s.modTile t f).agenda = s.agenda := rfl
@[simp] theorem State.modTile_cur (s : State) (t : Nat) (f : Tile → Tile) : (s.modTile t f).cur = s.cur := rfl
@[simp] theorem State.modTile_eng (s : State) (t : Nat) (f : Tile → Tile) : (s.modTile t f).eng = s.eng := rfl
@[simp] theorem State.modTile_arg (s : State) (t : Nat) (f : Tile → Tile) : (s.modTile t f).arg = s.arg := rfl
@[simp] theorem State.modTile_fresh (s : State) (t : Nat) (f : Tile → Tile) : (s.modTile t f).fresh = s.fresh := rfl
@[simp] theorem State.modTile_aot (s : State) (t : Nat) (f : Tile → Tile) : (s.modTile t f).aot = s.aot := rfl
@[simp] theorem State.modTile_mem (s : State) (t : Nat) (f : Tile → Tile) : (s.modTile t f).mem = s.mem := rfl
@[simp] theorem State.modTile_desc (s : State) (t : Nat) (f : Tile → Tile) : (s.modTile t f).desc = s.desc := rfl
@[simp] theorem State.modTile_dies (s : State) (t : Nat) (f : Tile → Tile) : (s.modTile t f).dies = s.dies := rfl
@[simp] theorem State.modTile_land (s : State) (t : Nat) (f : Tile → Tile) : (s.modTile t f).land = s.land := rfl
@[simp] theorem State.modTile_bits (s : State) (t : Nat) (f : Tile → Tile) : (s.modTile t f).bits = s.bits := rfl
@[simp] theorem State.modTile_late (s : State) (t : Nat) (f : Tile → Tile) : (s.modTile t f).late = s.late := rfl
@[simp] theorem State.modTile_part (s : State) (t : Nat) (f : Tile → Tile) : (s.modTile t f).part = s.part := rfl
@[simp] theorem State.modTile_overDescs (s : State) (t : Nat) (f : Tile → Tile) : (s.modTile t f).overDescs = s.overDescs := rfl
@[simp] theorem State.modTile_spanOut (s : State) (t : Nat) (f : Tile → Tile) : (s.modTile t f).spanOut = s.spanOut := rfl
@[simp] theorem State.modTile_bound (s : State) (t : Nat) (f : Tile → Tile) : (s.modTile t f).bound = s.bound := rfl
@[simp] theorem State.modTile_net (s : State) (t : Nat) (f : Tile → Tile) : (s.modTile t f).net = s.net := rfl
@[simp] theorem State.modTile_tlb (s : State) (t : Nat) (f : Tile → Tile) : (s.modTile t f).tlb = s.tlb := rfl
@[simp] theorem State.modTile_walks (s : State) (t : Nat) (f : Tile → Tile) : (s.modTile t f).walks = s.walks := rfl
@[simp] theorem State.modTile_hot (s : State) (t : Nat) (f : Tile → Tile) : (s.modTile t f).hot = s.hot := rfl
@[simp] theorem State.modTile_overwritten (s : State) (t : Nat) (f : Tile → Tile) : (s.modTile t f).overwritten = s.overwritten := rfl
@[simp] theorem State.modTile_frameKey (s : State) (t : Nat) (f : Tile → Tile) : (s.modTile t f).frameKey = s.frameKey := rfl
@[simp] theorem State.modTile_ctxs (s : State) (t : Nat) (f : Tile → Tile) : (s.modTile t f).ctxs = s.ctxs := rfl
@[simp] theorem State.modTile_bufs (s : State) (t : Nat) (f : Tile → Tile) : (s.modTile t f).bufs = s.bufs := rfl
@[simp] theorem State.modTile_nodes (s : State) (t : Nat) (f : Tile → Tile) : (s.modTile t f).nodes = s.nodes := rfl
@[simp] theorem State.modTile_igen (s : State) (t : Nat) (f : Tile → Tile) : (s.modTile t f).igen = s.igen := rfl
@[simp] theorem State.modTile_edges (s : State) (t : Nat) (f : Tile → Tile) : (s.modTile t f).edges = s.edges := rfl
@[simp] theorem State.modTile_rings (s : State) (t : Nat) (f : Tile → Tile) : (s.modTile t f).rings = s.rings := rfl
@[simp] theorem State.modTile_lfsr (s : State) (t : Nat) (f : Tile → Tile) : (s.modTile t f).lfsr = s.lfsr := rfl
@[simp] theorem State.modTile_seqNo (s : State) (t : Nat) (f : Tile → Tile) : (s.modTile t f).seqNo = s.seqNo := rfl
@[simp] theorem State.modTile_laneNo (s : State) (t : Nat) (f : Tile → Tile) : (s.modTile t f).laneNo = s.laneNo := rfl
@[simp] theorem State.modTile_reserve (s : State) (t : Nat) (f : Tile → Tile) : (s.modTile t f).reserve = s.reserve := rfl
@[simp] theorem State.modTile_stations (s : State) (t : Nat) (f : Tile → Tile) : (s.modTile t f).stations = s.stations := rfl
@[simp] theorem State.modTile_meets (s : State) (t : Nat) (f : Tile → Tile) : (s.modTile t f).meets = s.meets := rfl
@[simp] theorem State.modTile_meetings (s : State) (t : Nat) (f : Tile → Tile) : (s.modTile t f).meetings = s.meetings := rfl
@[simp] theorem State.modTile_meetNo (s : State) (t : Nat) (f : Tile → Tile) : (s.modTile t f).meetNo = s.meetNo := rfl
@[simp] theorem State.modTile_pkg (s : State) (t : Nat) (f : Tile → Tile) : (s.modTile t f).pkg = s.pkg := rfl

/-! ### setHere -/

@[simp] theorem State.setHere_agenda (s : State) (x : Tile) : (s.setHere x).agenda = s.agenda := rfl
@[simp] theorem State.setHere_cur (s : State) (x : Tile) : (s.setHere x).cur = s.cur := rfl
@[simp] theorem State.setHere_eng (s : State) (x : Tile) : (s.setHere x).eng = s.eng := rfl
@[simp] theorem State.setHere_arg (s : State) (x : Tile) : (s.setHere x).arg = s.arg := rfl
@[simp] theorem State.setHere_fresh (s : State) (x : Tile) : (s.setHere x).fresh = s.fresh := rfl
@[simp] theorem State.setHere_aot (s : State) (x : Tile) : (s.setHere x).aot = s.aot := rfl
@[simp] theorem State.setHere_mem (s : State) (x : Tile) : (s.setHere x).mem = s.mem := rfl
@[simp] theorem State.setHere_desc (s : State) (x : Tile) : (s.setHere x).desc = s.desc := rfl
@[simp] theorem State.setHere_dies (s : State) (x : Tile) : (s.setHere x).dies = s.dies := rfl
@[simp] theorem State.setHere_land (s : State) (x : Tile) : (s.setHere x).land = s.land := rfl
@[simp] theorem State.setHere_bits (s : State) (x : Tile) : (s.setHere x).bits = s.bits := rfl
@[simp] theorem State.setHere_late (s : State) (x : Tile) : (s.setHere x).late = s.late := rfl
@[simp] theorem State.setHere_part (s : State) (x : Tile) : (s.setHere x).part = s.part := rfl
@[simp] theorem State.setHere_overDescs (s : State) (x : Tile) : (s.setHere x).overDescs = s.overDescs := rfl
@[simp] theorem State.setHere_spanOut (s : State) (x : Tile) : (s.setHere x).spanOut = s.spanOut := rfl
@[simp] theorem State.setHere_bound (s : State) (x : Tile) : (s.setHere x).bound = s.bound := rfl
@[simp] theorem State.setHere_net (s : State) (x : Tile) : (s.setHere x).net = s.net := rfl
@[simp] theorem State.setHere_tlb (s : State) (x : Tile) : (s.setHere x).tlb = s.tlb := rfl
@[simp] theorem State.setHere_walks (s : State) (x : Tile) : (s.setHere x).walks = s.walks := rfl
@[simp] theorem State.setHere_hot (s : State) (x : Tile) : (s.setHere x).hot = s.hot := rfl
@[simp] theorem State.setHere_overwritten (s : State) (x : Tile) : (s.setHere x).overwritten = s.overwritten := rfl
@[simp] theorem State.setHere_frameKey (s : State) (x : Tile) : (s.setHere x).frameKey = s.frameKey := rfl
@[simp] theorem State.setHere_ctxs (s : State) (x : Tile) : (s.setHere x).ctxs = s.ctxs := rfl
@[simp] theorem State.setHere_bufs (s : State) (x : Tile) : (s.setHere x).bufs = s.bufs := rfl
@[simp] theorem State.setHere_nodes (s : State) (x : Tile) : (s.setHere x).nodes = s.nodes := rfl
@[simp] theorem State.setHere_igen (s : State) (x : Tile) : (s.setHere x).igen = s.igen := rfl
@[simp] theorem State.setHere_edges (s : State) (x : Tile) : (s.setHere x).edges = s.edges := rfl
@[simp] theorem State.setHere_rings (s : State) (x : Tile) : (s.setHere x).rings = s.rings := rfl
@[simp] theorem State.setHere_lfsr (s : State) (x : Tile) : (s.setHere x).lfsr = s.lfsr := rfl
@[simp] theorem State.setHere_seqNo (s : State) (x : Tile) : (s.setHere x).seqNo = s.seqNo := rfl
@[simp] theorem State.setHere_laneNo (s : State) (x : Tile) : (s.setHere x).laneNo = s.laneNo := rfl
@[simp] theorem State.setHere_reserve (s : State) (x : Tile) : (s.setHere x).reserve = s.reserve := rfl
@[simp] theorem State.setHere_stations (s : State) (x : Tile) : (s.setHere x).stations = s.stations := rfl
@[simp] theorem State.setHere_meets (s : State) (x : Tile) : (s.setHere x).meets = s.meets := rfl
@[simp] theorem State.setHere_meetings (s : State) (x : Tile) : (s.setHere x).meetings = s.meetings := rfl
@[simp] theorem State.setHere_meetNo (s : State) (x : Tile) : (s.setHere x).meetNo = s.meetNo := rfl
@[simp] theorem State.setHere_pkg (s : State) (x : Tile) : (s.setHere x).pkg = s.pkg := rfl

/-! ### setCtx -/

@[simp] theorem State.setCtx_agenda (s : State) (c : Nat) (x : Ctx) : (s.setCtx c x).agenda = s.agenda := rfl
@[simp] theorem State.setCtx_cur (s : State) (c : Nat) (x : Ctx) : (s.setCtx c x).cur = s.cur := rfl
@[simp] theorem State.setCtx_eng (s : State) (c : Nat) (x : Ctx) : (s.setCtx c x).eng = s.eng := rfl
@[simp] theorem State.setCtx_arg (s : State) (c : Nat) (x : Ctx) : (s.setCtx c x).arg = s.arg := rfl
@[simp] theorem State.setCtx_fresh (s : State) (c : Nat) (x : Ctx) : (s.setCtx c x).fresh = s.fresh := rfl
@[simp] theorem State.setCtx_aot (s : State) (c : Nat) (x : Ctx) : (s.setCtx c x).aot = s.aot := rfl
@[simp] theorem State.setCtx_mem (s : State) (c : Nat) (x : Ctx) : (s.setCtx c x).mem = s.mem := rfl
@[simp] theorem State.setCtx_desc (s : State) (c : Nat) (x : Ctx) : (s.setCtx c x).desc = s.desc := rfl
@[simp] theorem State.setCtx_dies (s : State) (c : Nat) (x : Ctx) : (s.setCtx c x).dies = s.dies := rfl
@[simp] theorem State.setCtx_tiles (s : State) (c : Nat) (x : Ctx) : (s.setCtx c x).tiles = s.tiles := rfl
@[simp] theorem State.setCtx_land (s : State) (c : Nat) (x : Ctx) : (s.setCtx c x).land = s.land := rfl
@[simp] theorem State.setCtx_bits (s : State) (c : Nat) (x : Ctx) : (s.setCtx c x).bits = s.bits := rfl
@[simp] theorem State.setCtx_late (s : State) (c : Nat) (x : Ctx) : (s.setCtx c x).late = s.late := rfl
@[simp] theorem State.setCtx_part (s : State) (c : Nat) (x : Ctx) : (s.setCtx c x).part = s.part := rfl
@[simp] theorem State.setCtx_overDescs (s : State) (c : Nat) (x : Ctx) : (s.setCtx c x).overDescs = s.overDescs := rfl
@[simp] theorem State.setCtx_spanOut (s : State) (c : Nat) (x : Ctx) : (s.setCtx c x).spanOut = s.spanOut := rfl
@[simp] theorem State.setCtx_bound (s : State) (c : Nat) (x : Ctx) : (s.setCtx c x).bound = s.bound := rfl
@[simp] theorem State.setCtx_net (s : State) (c : Nat) (x : Ctx) : (s.setCtx c x).net = s.net := rfl
@[simp] theorem State.setCtx_tlb (s : State) (c : Nat) (x : Ctx) : (s.setCtx c x).tlb = s.tlb := rfl
@[simp] theorem State.setCtx_walks (s : State) (c : Nat) (x : Ctx) : (s.setCtx c x).walks = s.walks := rfl
@[simp] theorem State.setCtx_hot (s : State) (c : Nat) (x : Ctx) : (s.setCtx c x).hot = s.hot := rfl
@[simp] theorem State.setCtx_overwritten (s : State) (c : Nat) (x : Ctx) : (s.setCtx c x).overwritten = s.overwritten := rfl
@[simp] theorem State.setCtx_frameKey (s : State) (c : Nat) (x : Ctx) : (s.setCtx c x).frameKey = s.frameKey := rfl
@[simp] theorem State.setCtx_bufs (s : State) (c : Nat) (x : Ctx) : (s.setCtx c x).bufs = s.bufs := rfl
@[simp] theorem State.setCtx_nodes (s : State) (c : Nat) (x : Ctx) : (s.setCtx c x).nodes = s.nodes := rfl
@[simp] theorem State.setCtx_igen (s : State) (c : Nat) (x : Ctx) : (s.setCtx c x).igen = s.igen := rfl
@[simp] theorem State.setCtx_edges (s : State) (c : Nat) (x : Ctx) : (s.setCtx c x).edges = s.edges := rfl
@[simp] theorem State.setCtx_rings (s : State) (c : Nat) (x : Ctx) : (s.setCtx c x).rings = s.rings := rfl
@[simp] theorem State.setCtx_lfsr (s : State) (c : Nat) (x : Ctx) : (s.setCtx c x).lfsr = s.lfsr := rfl
@[simp] theorem State.setCtx_seqNo (s : State) (c : Nat) (x : Ctx) : (s.setCtx c x).seqNo = s.seqNo := rfl
@[simp] theorem State.setCtx_laneNo (s : State) (c : Nat) (x : Ctx) : (s.setCtx c x).laneNo = s.laneNo := rfl
@[simp] theorem State.setCtx_reserve (s : State) (c : Nat) (x : Ctx) : (s.setCtx c x).reserve = s.reserve := rfl
@[simp] theorem State.setCtx_stations (s : State) (c : Nat) (x : Ctx) : (s.setCtx c x).stations = s.stations := rfl
@[simp] theorem State.setCtx_meets (s : State) (c : Nat) (x : Ctx) : (s.setCtx c x).meets = s.meets := rfl
@[simp] theorem State.setCtx_meetings (s : State) (c : Nat) (x : Ctx) : (s.setCtx c x).meetings = s.meetings := rfl
@[simp] theorem State.setCtx_meetNo (s : State) (c : Nat) (x : Ctx) : (s.setCtx c x).meetNo = s.meetNo := rfl
@[simp] theorem State.setCtx_pkg (s : State) (c : Nat) (x : Ctx) : (s.setCtx c x).pkg = s.pkg := rfl

/-! ### modCtx -/

@[simp] theorem State.modCtx_agenda (s : State) (c : Nat) (f : Ctx → Ctx) : (s.modCtx c f).agenda = s.agenda := rfl
@[simp] theorem State.modCtx_cur (s : State) (c : Nat) (f : Ctx → Ctx) : (s.modCtx c f).cur = s.cur := rfl
@[simp] theorem State.modCtx_eng (s : State) (c : Nat) (f : Ctx → Ctx) : (s.modCtx c f).eng = s.eng := rfl
@[simp] theorem State.modCtx_arg (s : State) (c : Nat) (f : Ctx → Ctx) : (s.modCtx c f).arg = s.arg := rfl
@[simp] theorem State.modCtx_fresh (s : State) (c : Nat) (f : Ctx → Ctx) : (s.modCtx c f).fresh = s.fresh := rfl
@[simp] theorem State.modCtx_aot (s : State) (c : Nat) (f : Ctx → Ctx) : (s.modCtx c f).aot = s.aot := rfl
@[simp] theorem State.modCtx_mem (s : State) (c : Nat) (f : Ctx → Ctx) : (s.modCtx c f).mem = s.mem := rfl
@[simp] theorem State.modCtx_desc (s : State) (c : Nat) (f : Ctx → Ctx) : (s.modCtx c f).desc = s.desc := rfl
@[simp] theorem State.modCtx_dies (s : State) (c : Nat) (f : Ctx → Ctx) : (s.modCtx c f).dies = s.dies := rfl
@[simp] theorem State.modCtx_tiles (s : State) (c : Nat) (f : Ctx → Ctx) : (s.modCtx c f).tiles = s.tiles := rfl
@[simp] theorem State.modCtx_land (s : State) (c : Nat) (f : Ctx → Ctx) : (s.modCtx c f).land = s.land := rfl
@[simp] theorem State.modCtx_bits (s : State) (c : Nat) (f : Ctx → Ctx) : (s.modCtx c f).bits = s.bits := rfl
@[simp] theorem State.modCtx_late (s : State) (c : Nat) (f : Ctx → Ctx) : (s.modCtx c f).late = s.late := rfl
@[simp] theorem State.modCtx_part (s : State) (c : Nat) (f : Ctx → Ctx) : (s.modCtx c f).part = s.part := rfl
@[simp] theorem State.modCtx_overDescs (s : State) (c : Nat) (f : Ctx → Ctx) : (s.modCtx c f).overDescs = s.overDescs := rfl
@[simp] theorem State.modCtx_spanOut (s : State) (c : Nat) (f : Ctx → Ctx) : (s.modCtx c f).spanOut = s.spanOut := rfl
@[simp] theorem State.modCtx_bound (s : State) (c : Nat) (f : Ctx → Ctx) : (s.modCtx c f).bound = s.bound := rfl
@[simp] theorem State.modCtx_net (s : State) (c : Nat) (f : Ctx → Ctx) : (s.modCtx c f).net = s.net := rfl
@[simp] theorem State.modCtx_tlb (s : State) (c : Nat) (f : Ctx → Ctx) : (s.modCtx c f).tlb = s.tlb := rfl
@[simp] theorem State.modCtx_walks (s : State) (c : Nat) (f : Ctx → Ctx) : (s.modCtx c f).walks = s.walks := rfl
@[simp] theorem State.modCtx_hot (s : State) (c : Nat) (f : Ctx → Ctx) : (s.modCtx c f).hot = s.hot := rfl
@[simp] theorem State.modCtx_overwritten (s : State) (c : Nat) (f : Ctx → Ctx) : (s.modCtx c f).overwritten = s.overwritten := rfl
@[simp] theorem State.modCtx_frameKey (s : State) (c : Nat) (f : Ctx → Ctx) : (s.modCtx c f).frameKey = s.frameKey := rfl
@[simp] theorem State.modCtx_bufs (s : State) (c : Nat) (f : Ctx → Ctx) : (s.modCtx c f).bufs = s.bufs := rfl
@[simp] theorem State.modCtx_nodes (s : State) (c : Nat) (f : Ctx → Ctx) : (s.modCtx c f).nodes = s.nodes := rfl
@[simp] theorem State.modCtx_igen (s : State) (c : Nat) (f : Ctx → Ctx) : (s.modCtx c f).igen = s.igen := rfl
@[simp] theorem State.modCtx_edges (s : State) (c : Nat) (f : Ctx → Ctx) : (s.modCtx c f).edges = s.edges := rfl
@[simp] theorem State.modCtx_rings (s : State) (c : Nat) (f : Ctx → Ctx) : (s.modCtx c f).rings = s.rings := rfl
@[simp] theorem State.modCtx_lfsr (s : State) (c : Nat) (f : Ctx → Ctx) : (s.modCtx c f).lfsr = s.lfsr := rfl
@[simp] theorem State.modCtx_seqNo (s : State) (c : Nat) (f : Ctx → Ctx) : (s.modCtx c f).seqNo = s.seqNo := rfl
@[simp] theorem State.modCtx_laneNo (s : State) (c : Nat) (f : Ctx → Ctx) : (s.modCtx c f).laneNo = s.laneNo := rfl
@[simp] theorem State.modCtx_reserve (s : State) (c : Nat) (f : Ctx → Ctx) : (s.modCtx c f).reserve = s.reserve := rfl
@[simp] theorem State.modCtx_stations (s : State) (c : Nat) (f : Ctx → Ctx) : (s.modCtx c f).stations = s.stations := rfl
@[simp] theorem State.modCtx_meets (s : State) (c : Nat) (f : Ctx → Ctx) : (s.modCtx c f).meets = s.meets := rfl
@[simp] theorem State.modCtx_meetings (s : State) (c : Nat) (f : Ctx → Ctx) : (s.modCtx c f).meetings = s.meetings := rfl
@[simp] theorem State.modCtx_meetNo (s : State) (c : Nat) (f : Ctx → Ctx) : (s.modCtx c f).meetNo = s.meetNo := rfl
@[simp] theorem State.modCtx_pkg (s : State) (c : Nat) (f : Ctx → Ctx) : (s.modCtx c f).pkg = s.pkg := rfl

/-! ### setDie -/

@[simp] theorem State.setDie_agenda (s : State) (d : Nat) (x : Die) : (s.setDie d x).agenda = s.agenda := rfl
@[simp] theorem State.setDie_cur (s : State) (d : Nat) (x : Die) : (s.setDie d x).cur = s.cur := rfl
@[simp] theorem State.setDie_eng (s : State) (d : Nat) (x : Die) : (s.setDie d x).eng = s.eng := rfl
@[simp] theorem State.setDie_arg (s : State) (d : Nat) (x : Die) : (s.setDie d x).arg = s.arg := rfl
@[simp] theorem State.setDie_fresh (s : State) (d : Nat) (x : Die) : (s.setDie d x).fresh = s.fresh := rfl
@[simp] theorem State.setDie_aot (s : State) (d : Nat) (x : Die) : (s.setDie d x).aot = s.aot := rfl
@[simp] theorem State.setDie_mem (s : State) (d : Nat) (x : Die) : (s.setDie d x).mem = s.mem := rfl
@[simp] theorem State.setDie_desc (s : State) (d : Nat) (x : Die) : (s.setDie d x).desc = s.desc := rfl
@[simp] theorem State.setDie_tiles (s : State) (d : Nat) (x : Die) : (s.setDie d x).tiles = s.tiles := rfl
@[simp] theorem State.setDie_land (s : State) (d : Nat) (x : Die) : (s.setDie d x).land = s.land := rfl
@[simp] theorem State.setDie_bits (s : State) (d : Nat) (x : Die) : (s.setDie d x).bits = s.bits := rfl
@[simp] theorem State.setDie_late (s : State) (d : Nat) (x : Die) : (s.setDie d x).late = s.late := rfl
@[simp] theorem State.setDie_part (s : State) (d : Nat) (x : Die) : (s.setDie d x).part = s.part := rfl
@[simp] theorem State.setDie_overDescs (s : State) (d : Nat) (x : Die) : (s.setDie d x).overDescs = s.overDescs := rfl
@[simp] theorem State.setDie_spanOut (s : State) (d : Nat) (x : Die) : (s.setDie d x).spanOut = s.spanOut := rfl
@[simp] theorem State.setDie_bound (s : State) (d : Nat) (x : Die) : (s.setDie d x).bound = s.bound := rfl
@[simp] theorem State.setDie_net (s : State) (d : Nat) (x : Die) : (s.setDie d x).net = s.net := rfl
@[simp] theorem State.setDie_tlb (s : State) (d : Nat) (x : Die) : (s.setDie d x).tlb = s.tlb := rfl
@[simp] theorem State.setDie_walks (s : State) (d : Nat) (x : Die) : (s.setDie d x).walks = s.walks := rfl
@[simp] theorem State.setDie_hot (s : State) (d : Nat) (x : Die) : (s.setDie d x).hot = s.hot := rfl
@[simp] theorem State.setDie_overwritten (s : State) (d : Nat) (x : Die) : (s.setDie d x).overwritten = s.overwritten := rfl
@[simp] theorem State.setDie_frameKey (s : State) (d : Nat) (x : Die) : (s.setDie d x).frameKey = s.frameKey := rfl
@[simp] theorem State.setDie_ctxs (s : State) (d : Nat) (x : Die) : (s.setDie d x).ctxs = s.ctxs := rfl
@[simp] theorem State.setDie_bufs (s : State) (d : Nat) (x : Die) : (s.setDie d x).bufs = s.bufs := rfl
@[simp] theorem State.setDie_nodes (s : State) (d : Nat) (x : Die) : (s.setDie d x).nodes = s.nodes := rfl
@[simp] theorem State.setDie_igen (s : State) (d : Nat) (x : Die) : (s.setDie d x).igen = s.igen := rfl
@[simp] theorem State.setDie_edges (s : State) (d : Nat) (x : Die) : (s.setDie d x).edges = s.edges := rfl
@[simp] theorem State.setDie_rings (s : State) (d : Nat) (x : Die) : (s.setDie d x).rings = s.rings := rfl
@[simp] theorem State.setDie_lfsr (s : State) (d : Nat) (x : Die) : (s.setDie d x).lfsr = s.lfsr := rfl
@[simp] theorem State.setDie_seqNo (s : State) (d : Nat) (x : Die) : (s.setDie d x).seqNo = s.seqNo := rfl
@[simp] theorem State.setDie_laneNo (s : State) (d : Nat) (x : Die) : (s.setDie d x).laneNo = s.laneNo := rfl
@[simp] theorem State.setDie_reserve (s : State) (d : Nat) (x : Die) : (s.setDie d x).reserve = s.reserve := rfl
@[simp] theorem State.setDie_stations (s : State) (d : Nat) (x : Die) : (s.setDie d x).stations = s.stations := rfl
@[simp] theorem State.setDie_meets (s : State) (d : Nat) (x : Die) : (s.setDie d x).meets = s.meets := rfl
@[simp] theorem State.setDie_meetings (s : State) (d : Nat) (x : Die) : (s.setDie d x).meetings = s.meetings := rfl
@[simp] theorem State.setDie_meetNo (s : State) (d : Nat) (x : Die) : (s.setDie d x).meetNo = s.meetNo := rfl
@[simp] theorem State.setDie_pkg (s : State) (d : Nat) (x : Die) : (s.setDie d x).pkg = s.pkg := rfl

/-! ### setBuf -/

@[simp] theorem State.setBuf_agenda (s : State) (a : Nat) (x : Buf) : (s.setBuf a x).agenda = s.agenda := rfl
@[simp] theorem State.setBuf_cur (s : State) (a : Nat) (x : Buf) : (s.setBuf a x).cur = s.cur := rfl
@[simp] theorem State.setBuf_eng (s : State) (a : Nat) (x : Buf) : (s.setBuf a x).eng = s.eng := rfl
@[simp] theorem State.setBuf_arg (s : State) (a : Nat) (x : Buf) : (s.setBuf a x).arg = s.arg := rfl
@[simp] theorem State.setBuf_fresh (s : State) (a : Nat) (x : Buf) : (s.setBuf a x).fresh = s.fresh := rfl
@[simp] theorem State.setBuf_aot (s : State) (a : Nat) (x : Buf) : (s.setBuf a x).aot = s.aot := rfl
@[simp] theorem State.setBuf_mem (s : State) (a : Nat) (x : Buf) : (s.setBuf a x).mem = s.mem := rfl
@[simp] theorem State.setBuf_desc (s : State) (a : Nat) (x : Buf) : (s.setBuf a x).desc = s.desc := rfl
@[simp] theorem State.setBuf_dies (s : State) (a : Nat) (x : Buf) : (s.setBuf a x).dies = s.dies := rfl
@[simp] theorem State.setBuf_tiles (s : State) (a : Nat) (x : Buf) : (s.setBuf a x).tiles = s.tiles := rfl
@[simp] theorem State.setBuf_land (s : State) (a : Nat) (x : Buf) : (s.setBuf a x).land = s.land := rfl
@[simp] theorem State.setBuf_bits (s : State) (a : Nat) (x : Buf) : (s.setBuf a x).bits = s.bits := rfl
@[simp] theorem State.setBuf_late (s : State) (a : Nat) (x : Buf) : (s.setBuf a x).late = s.late := rfl
@[simp] theorem State.setBuf_part (s : State) (a : Nat) (x : Buf) : (s.setBuf a x).part = s.part := rfl
@[simp] theorem State.setBuf_overDescs (s : State) (a : Nat) (x : Buf) : (s.setBuf a x).overDescs = s.overDescs := rfl
@[simp] theorem State.setBuf_spanOut (s : State) (a : Nat) (x : Buf) : (s.setBuf a x).spanOut = s.spanOut := rfl
@[simp] theorem State.setBuf_bound (s : State) (a : Nat) (x : Buf) : (s.setBuf a x).bound = s.bound := rfl
@[simp] theorem State.setBuf_net (s : State) (a : Nat) (x : Buf) : (s.setBuf a x).net = s.net := rfl
@[simp] theorem State.setBuf_tlb (s : State) (a : Nat) (x : Buf) : (s.setBuf a x).tlb = s.tlb := rfl
@[simp] theorem State.setBuf_walks (s : State) (a : Nat) (x : Buf) : (s.setBuf a x).walks = s.walks := rfl
@[simp] theorem State.setBuf_hot (s : State) (a : Nat) (x : Buf) : (s.setBuf a x).hot = s.hot := rfl
@[simp] theorem State.setBuf_overwritten (s : State) (a : Nat) (x : Buf) : (s.setBuf a x).overwritten = s.overwritten := rfl
@[simp] theorem State.setBuf_frameKey (s : State) (a : Nat) (x : Buf) : (s.setBuf a x).frameKey = s.frameKey := rfl
@[simp] theorem State.setBuf_ctxs (s : State) (a : Nat) (x : Buf) : (s.setBuf a x).ctxs = s.ctxs := rfl
@[simp] theorem State.setBuf_nodes (s : State) (a : Nat) (x : Buf) : (s.setBuf a x).nodes = s.nodes := rfl
@[simp] theorem State.setBuf_igen (s : State) (a : Nat) (x : Buf) : (s.setBuf a x).igen = s.igen := rfl
@[simp] theorem State.setBuf_edges (s : State) (a : Nat) (x : Buf) : (s.setBuf a x).edges = s.edges := rfl
@[simp] theorem State.setBuf_rings (s : State) (a : Nat) (x : Buf) : (s.setBuf a x).rings = s.rings := rfl
@[simp] theorem State.setBuf_lfsr (s : State) (a : Nat) (x : Buf) : (s.setBuf a x).lfsr = s.lfsr := rfl
@[simp] theorem State.setBuf_seqNo (s : State) (a : Nat) (x : Buf) : (s.setBuf a x).seqNo = s.seqNo := rfl
@[simp] theorem State.setBuf_laneNo (s : State) (a : Nat) (x : Buf) : (s.setBuf a x).laneNo = s.laneNo := rfl
@[simp] theorem State.setBuf_reserve (s : State) (a : Nat) (x : Buf) : (s.setBuf a x).reserve = s.reserve := rfl
@[simp] theorem State.setBuf_stations (s : State) (a : Nat) (x : Buf) : (s.setBuf a x).stations = s.stations := rfl
@[simp] theorem State.setBuf_meets (s : State) (a : Nat) (x : Buf) : (s.setBuf a x).meets = s.meets := rfl
@[simp] theorem State.setBuf_meetings (s : State) (a : Nat) (x : Buf) : (s.setBuf a x).meetings = s.meetings := rfl
@[simp] theorem State.setBuf_meetNo (s : State) (a : Nat) (x : Buf) : (s.setBuf a x).meetNo = s.meetNo := rfl
@[simp] theorem State.setBuf_pkg (s : State) (a : Nat) (x : Buf) : (s.setBuf a x).pkg = s.pkg := rfl

/-! ### modBuf -/

@[simp] theorem State.modBuf_agenda (s : State) (a : Nat) (f : Buf → Buf) : (s.modBuf a f).agenda = s.agenda := rfl
@[simp] theorem State.modBuf_cur (s : State) (a : Nat) (f : Buf → Buf) : (s.modBuf a f).cur = s.cur := rfl
@[simp] theorem State.modBuf_eng (s : State) (a : Nat) (f : Buf → Buf) : (s.modBuf a f).eng = s.eng := rfl
@[simp] theorem State.modBuf_arg (s : State) (a : Nat) (f : Buf → Buf) : (s.modBuf a f).arg = s.arg := rfl
@[simp] theorem State.modBuf_fresh (s : State) (a : Nat) (f : Buf → Buf) : (s.modBuf a f).fresh = s.fresh := rfl
@[simp] theorem State.modBuf_aot (s : State) (a : Nat) (f : Buf → Buf) : (s.modBuf a f).aot = s.aot := rfl
@[simp] theorem State.modBuf_mem (s : State) (a : Nat) (f : Buf → Buf) : (s.modBuf a f).mem = s.mem := rfl
@[simp] theorem State.modBuf_desc (s : State) (a : Nat) (f : Buf → Buf) : (s.modBuf a f).desc = s.desc := rfl
@[simp] theorem State.modBuf_dies (s : State) (a : Nat) (f : Buf → Buf) : (s.modBuf a f).dies = s.dies := rfl
@[simp] theorem State.modBuf_tiles (s : State) (a : Nat) (f : Buf → Buf) : (s.modBuf a f).tiles = s.tiles := rfl
@[simp] theorem State.modBuf_land (s : State) (a : Nat) (f : Buf → Buf) : (s.modBuf a f).land = s.land := rfl
@[simp] theorem State.modBuf_bits (s : State) (a : Nat) (f : Buf → Buf) : (s.modBuf a f).bits = s.bits := rfl
@[simp] theorem State.modBuf_late (s : State) (a : Nat) (f : Buf → Buf) : (s.modBuf a f).late = s.late := rfl
@[simp] theorem State.modBuf_part (s : State) (a : Nat) (f : Buf → Buf) : (s.modBuf a f).part = s.part := rfl
@[simp] theorem State.modBuf_overDescs (s : State) (a : Nat) (f : Buf → Buf) : (s.modBuf a f).overDescs = s.overDescs := rfl
@[simp] theorem State.modBuf_spanOut (s : State) (a : Nat) (f : Buf → Buf) : (s.modBuf a f).spanOut = s.spanOut := rfl
@[simp] theorem State.modBuf_bound (s : State) (a : Nat) (f : Buf → Buf) : (s.modBuf a f).bound = s.bound := rfl
@[simp] theorem State.modBuf_net (s : State) (a : Nat) (f : Buf → Buf) : (s.modBuf a f).net = s.net := rfl
@[simp] theorem State.modBuf_tlb (s : State) (a : Nat) (f : Buf → Buf) : (s.modBuf a f).tlb = s.tlb := rfl
@[simp] theorem State.modBuf_walks (s : State) (a : Nat) (f : Buf → Buf) : (s.modBuf a f).walks = s.walks := rfl
@[simp] theorem State.modBuf_hot (s : State) (a : Nat) (f : Buf → Buf) : (s.modBuf a f).hot = s.hot := rfl
@[simp] theorem State.modBuf_overwritten (s : State) (a : Nat) (f : Buf → Buf) : (s.modBuf a f).overwritten = s.overwritten := rfl
@[simp] theorem State.modBuf_frameKey (s : State) (a : Nat) (f : Buf → Buf) : (s.modBuf a f).frameKey = s.frameKey := rfl
@[simp] theorem State.modBuf_ctxs (s : State) (a : Nat) (f : Buf → Buf) : (s.modBuf a f).ctxs = s.ctxs := rfl
@[simp] theorem State.modBuf_nodes (s : State) (a : Nat) (f : Buf → Buf) : (s.modBuf a f).nodes = s.nodes := rfl
@[simp] theorem State.modBuf_igen (s : State) (a : Nat) (f : Buf → Buf) : (s.modBuf a f).igen = s.igen := rfl
@[simp] theorem State.modBuf_edges (s : State) (a : Nat) (f : Buf → Buf) : (s.modBuf a f).edges = s.edges := rfl
@[simp] theorem State.modBuf_rings (s : State) (a : Nat) (f : Buf → Buf) : (s.modBuf a f).rings = s.rings := rfl
@[simp] theorem State.modBuf_lfsr (s : State) (a : Nat) (f : Buf → Buf) : (s.modBuf a f).lfsr = s.lfsr := rfl
@[simp] theorem State.modBuf_seqNo (s : State) (a : Nat) (f : Buf → Buf) : (s.modBuf a f).seqNo = s.seqNo := rfl
@[simp] theorem State.modBuf_laneNo (s : State) (a : Nat) (f : Buf → Buf) : (s.modBuf a f).laneNo = s.laneNo := rfl
@[simp] theorem State.modBuf_reserve (s : State) (a : Nat) (f : Buf → Buf) : (s.modBuf a f).reserve = s.reserve := rfl
@[simp] theorem State.modBuf_stations (s : State) (a : Nat) (f : Buf → Buf) : (s.modBuf a f).stations = s.stations := rfl
@[simp] theorem State.modBuf_meets (s : State) (a : Nat) (f : Buf → Buf) : (s.modBuf a f).meets = s.meets := rfl
@[simp] theorem State.modBuf_meetings (s : State) (a : Nat) (f : Buf → Buf) : (s.modBuf a f).meetings = s.meetings := rfl
@[simp] theorem State.modBuf_meetNo (s : State) (a : Nat) (f : Buf → Buf) : (s.modBuf a f).meetNo = s.meetNo := rfl
@[simp] theorem State.modBuf_pkg (s : State) (a : Nat) (f : Buf → Buf) : (s.modBuf a f).pkg = s.pkg := rfl

/-! ### modPkg -/

@[simp] theorem State.modPkg_agenda (s : State) (f : Pkg → Pkg) : (s.modPkg f).agenda = s.agenda := rfl
@[simp] theorem State.modPkg_cur (s : State) (f : Pkg → Pkg) : (s.modPkg f).cur = s.cur := rfl
@[simp] theorem State.modPkg_eng (s : State) (f : Pkg → Pkg) : (s.modPkg f).eng = s.eng := rfl
@[simp] theorem State.modPkg_arg (s : State) (f : Pkg → Pkg) : (s.modPkg f).arg = s.arg := rfl
@[simp] theorem State.modPkg_fresh (s : State) (f : Pkg → Pkg) : (s.modPkg f).fresh = s.fresh := rfl
@[simp] theorem State.modPkg_aot (s : State) (f : Pkg → Pkg) : (s.modPkg f).aot = s.aot := rfl
@[simp] theorem State.modPkg_mem (s : State) (f : Pkg → Pkg) : (s.modPkg f).mem = s.mem := rfl
@[simp] theorem State.modPkg_desc (s : State) (f : Pkg → Pkg) : (s.modPkg f).desc = s.desc := rfl
@[simp] theorem State.modPkg_dies (s : State) (f : Pkg → Pkg) : (s.modPkg f).dies = s.dies := rfl
@[simp] theorem State.modPkg_tiles (s : State) (f : Pkg → Pkg) : (s.modPkg f).tiles = s.tiles := rfl
@[simp] theorem State.modPkg_land (s : State) (f : Pkg → Pkg) : (s.modPkg f).land = s.land := rfl
@[simp] theorem State.modPkg_bits (s : State) (f : Pkg → Pkg) : (s.modPkg f).bits = s.bits := rfl
@[simp] theorem State.modPkg_late (s : State) (f : Pkg → Pkg) : (s.modPkg f).late = s.late := rfl
@[simp] theorem State.modPkg_part (s : State) (f : Pkg → Pkg) : (s.modPkg f).part = s.part := rfl
@[simp] theorem State.modPkg_overDescs (s : State) (f : Pkg → Pkg) : (s.modPkg f).overDescs = s.overDescs := rfl
@[simp] theorem State.modPkg_spanOut (s : State) (f : Pkg → Pkg) : (s.modPkg f).spanOut = s.spanOut := rfl
@[simp] theorem State.modPkg_bound (s : State) (f : Pkg → Pkg) : (s.modPkg f).bound = s.bound := rfl
@[simp] theorem State.modPkg_net (s : State) (f : Pkg → Pkg) : (s.modPkg f).net = s.net := rfl
@[simp] theorem State.modPkg_tlb (s : State) (f : Pkg → Pkg) : (s.modPkg f).tlb = s.tlb := rfl
@[simp] theorem State.modPkg_walks (s : State) (f : Pkg → Pkg) : (s.modPkg f).walks = s.walks := rfl
@[simp] theorem State.modPkg_hot (s : State) (f : Pkg → Pkg) : (s.modPkg f).hot = s.hot := rfl
@[simp] theorem State.modPkg_overwritten (s : State) (f : Pkg → Pkg) : (s.modPkg f).overwritten = s.overwritten := rfl
@[simp] theorem State.modPkg_frameKey (s : State) (f : Pkg → Pkg) : (s.modPkg f).frameKey = s.frameKey := rfl
@[simp] theorem State.modPkg_ctxs (s : State) (f : Pkg → Pkg) : (s.modPkg f).ctxs = s.ctxs := rfl
@[simp] theorem State.modPkg_bufs (s : State) (f : Pkg → Pkg) : (s.modPkg f).bufs = s.bufs := rfl
@[simp] theorem State.modPkg_nodes (s : State) (f : Pkg → Pkg) : (s.modPkg f).nodes = s.nodes := rfl
@[simp] theorem State.modPkg_igen (s : State) (f : Pkg → Pkg) : (s.modPkg f).igen = s.igen := rfl
@[simp] theorem State.modPkg_edges (s : State) (f : Pkg → Pkg) : (s.modPkg f).edges = s.edges := rfl
@[simp] theorem State.modPkg_rings (s : State) (f : Pkg → Pkg) : (s.modPkg f).rings = s.rings := rfl
@[simp] theorem State.modPkg_lfsr (s : State) (f : Pkg → Pkg) : (s.modPkg f).lfsr = s.lfsr := rfl
@[simp] theorem State.modPkg_seqNo (s : State) (f : Pkg → Pkg) : (s.modPkg f).seqNo = s.seqNo := rfl
@[simp] theorem State.modPkg_laneNo (s : State) (f : Pkg → Pkg) : (s.modPkg f).laneNo = s.laneNo := rfl
@[simp] theorem State.modPkg_reserve (s : State) (f : Pkg → Pkg) : (s.modPkg f).reserve = s.reserve := rfl
@[simp] theorem State.modPkg_stations (s : State) (f : Pkg → Pkg) : (s.modPkg f).stations = s.stations := rfl
@[simp] theorem State.modPkg_meets (s : State) (f : Pkg → Pkg) : (s.modPkg f).meets = s.meets := rfl
@[simp] theorem State.modPkg_meetings (s : State) (f : Pkg → Pkg) : (s.modPkg f).meetings = s.meetings := rfl
@[simp] theorem State.modPkg_meetNo (s : State) (f : Pkg → Pkg) : (s.modPkg f).meetNo = s.meetNo := rfl

/-! ### store -/

@[simp] theorem State.store_agenda (s : State) (k n v : Nat) : (s.store k n v).agenda = s.agenda := rfl
@[simp] theorem State.store_cur (s : State) (k n v : Nat) : (s.store k n v).cur = s.cur := rfl
@[simp] theorem State.store_eng (s : State) (k n v : Nat) : (s.store k n v).eng = s.eng := rfl
@[simp] theorem State.store_arg (s : State) (k n v : Nat) : (s.store k n v).arg = s.arg := rfl
@[simp] theorem State.store_fresh (s : State) (k n v : Nat) : (s.store k n v).fresh = s.fresh := rfl
@[simp] theorem State.store_aot (s : State) (k n v : Nat) : (s.store k n v).aot = s.aot := rfl
@[simp] theorem State.store_desc (s : State) (k n v : Nat) : (s.store k n v).desc = s.desc := rfl
@[simp] theorem State.store_dies (s : State) (k n v : Nat) : (s.store k n v).dies = s.dies := rfl
@[simp] theorem State.store_tiles (s : State) (k n v : Nat) : (s.store k n v).tiles = s.tiles := rfl
@[simp] theorem State.store_land (s : State) (k n v : Nat) : (s.store k n v).land = s.land := rfl
@[simp] theorem State.store_bits (s : State) (k n v : Nat) : (s.store k n v).bits = s.bits := rfl
@[simp] theorem State.store_late (s : State) (k n v : Nat) : (s.store k n v).late = s.late := rfl
@[simp] theorem State.store_part (s : State) (k n v : Nat) : (s.store k n v).part = s.part := rfl
@[simp] theorem State.store_overDescs (s : State) (k n v : Nat) : (s.store k n v).overDescs = s.overDescs := rfl
@[simp] theorem State.store_spanOut (s : State) (k n v : Nat) : (s.store k n v).spanOut = s.spanOut := rfl
@[simp] theorem State.store_bound (s : State) (k n v : Nat) : (s.store k n v).bound = s.bound := rfl
@[simp] theorem State.store_net (s : State) (k n v : Nat) : (s.store k n v).net = s.net := rfl
@[simp] theorem State.store_tlb (s : State) (k n v : Nat) : (s.store k n v).tlb = s.tlb := rfl
@[simp] theorem State.store_walks (s : State) (k n v : Nat) : (s.store k n v).walks = s.walks := rfl
@[simp] theorem State.store_hot (s : State) (k n v : Nat) : (s.store k n v).hot = s.hot := rfl
@[simp] theorem State.store_overwritten (s : State) (k n v : Nat) : (s.store k n v).overwritten = s.overwritten := rfl
@[simp] theorem State.store_frameKey (s : State) (k n v : Nat) : (s.store k n v).frameKey = s.frameKey := rfl
@[simp] theorem State.store_ctxs (s : State) (k n v : Nat) : (s.store k n v).ctxs = s.ctxs := rfl
@[simp] theorem State.store_bufs (s : State) (k n v : Nat) : (s.store k n v).bufs = s.bufs := rfl
@[simp] theorem State.store_nodes (s : State) (k n v : Nat) : (s.store k n v).nodes = s.nodes := rfl
@[simp] theorem State.store_igen (s : State) (k n v : Nat) : (s.store k n v).igen = s.igen := rfl
@[simp] theorem State.store_edges (s : State) (k n v : Nat) : (s.store k n v).edges = s.edges := rfl
@[simp] theorem State.store_rings (s : State) (k n v : Nat) : (s.store k n v).rings = s.rings := rfl
@[simp] theorem State.store_lfsr (s : State) (k n v : Nat) : (s.store k n v).lfsr = s.lfsr := rfl
@[simp] theorem State.store_seqNo (s : State) (k n v : Nat) : (s.store k n v).seqNo = s.seqNo := rfl
@[simp] theorem State.store_laneNo (s : State) (k n v : Nat) : (s.store k n v).laneNo = s.laneNo := rfl
@[simp] theorem State.store_reserve (s : State) (k n v : Nat) : (s.store k n v).reserve = s.reserve := rfl
@[simp] theorem State.store_stations (s : State) (k n v : Nat) : (s.store k n v).stations = s.stations := rfl
@[simp] theorem State.store_meets (s : State) (k n v : Nat) : (s.store k n v).meets = s.meets := rfl
@[simp] theorem State.store_meetings (s : State) (k n v : Nat) : (s.store k n v).meetings = s.meetings := rfl
@[simp] theorem State.store_meetNo (s : State) (k n v : Nat) : (s.store k n v).meetNo = s.meetNo := rfl
@[simp] theorem State.store_pkg (s : State) (k n v : Nat) : (s.store k n v).pkg = s.pkg := rfl

/-! ### storeBytes -/

@[simp] theorem State.storeBytes_agenda (s : State) (k : Nat) (l : List Byte) : (s.storeBytes k l).agenda = s.agenda := rfl
@[simp] theorem State.storeBytes_cur (s : State) (k : Nat) (l : List Byte) : (s.storeBytes k l).cur = s.cur := rfl
@[simp] theorem State.storeBytes_eng (s : State) (k : Nat) (l : List Byte) : (s.storeBytes k l).eng = s.eng := rfl
@[simp] theorem State.storeBytes_arg (s : State) (k : Nat) (l : List Byte) : (s.storeBytes k l).arg = s.arg := rfl
@[simp] theorem State.storeBytes_fresh (s : State) (k : Nat) (l : List Byte) : (s.storeBytes k l).fresh = s.fresh := rfl
@[simp] theorem State.storeBytes_aot (s : State) (k : Nat) (l : List Byte) : (s.storeBytes k l).aot = s.aot := rfl
@[simp] theorem State.storeBytes_desc (s : State) (k : Nat) (l : List Byte) : (s.storeBytes k l).desc = s.desc := rfl
@[simp] theorem State.storeBytes_dies (s : State) (k : Nat) (l : List Byte) : (s.storeBytes k l).dies = s.dies := rfl
@[simp] theorem State.storeBytes_tiles (s : State) (k : Nat) (l : List Byte) : (s.storeBytes k l).tiles = s.tiles := rfl
@[simp] theorem State.storeBytes_land (s : State) (k : Nat) (l : List Byte) : (s.storeBytes k l).land = s.land := rfl
@[simp] theorem State.storeBytes_bits (s : State) (k : Nat) (l : List Byte) : (s.storeBytes k l).bits = s.bits := rfl
@[simp] theorem State.storeBytes_late (s : State) (k : Nat) (l : List Byte) : (s.storeBytes k l).late = s.late := rfl
@[simp] theorem State.storeBytes_part (s : State) (k : Nat) (l : List Byte) : (s.storeBytes k l).part = s.part := rfl
@[simp] theorem State.storeBytes_overDescs (s : State) (k : Nat) (l : List Byte) : (s.storeBytes k l).overDescs = s.overDescs := rfl
@[simp] theorem State.storeBytes_spanOut (s : State) (k : Nat) (l : List Byte) : (s.storeBytes k l).spanOut = s.spanOut := rfl
@[simp] theorem State.storeBytes_bound (s : State) (k : Nat) (l : List Byte) : (s.storeBytes k l).bound = s.bound := rfl
@[simp] theorem State.storeBytes_net (s : State) (k : Nat) (l : List Byte) : (s.storeBytes k l).net = s.net := rfl
@[simp] theorem State.storeBytes_tlb (s : State) (k : Nat) (l : List Byte) : (s.storeBytes k l).tlb = s.tlb := rfl
@[simp] theorem State.storeBytes_walks (s : State) (k : Nat) (l : List Byte) : (s.storeBytes k l).walks = s.walks := rfl
@[simp] theorem State.storeBytes_hot (s : State) (k : Nat) (l : List Byte) : (s.storeBytes k l).hot = s.hot := rfl
@[simp] theorem State.storeBytes_overwritten (s : State) (k : Nat) (l : List Byte) : (s.storeBytes k l).overwritten = s.overwritten := rfl
@[simp] theorem State.storeBytes_frameKey (s : State) (k : Nat) (l : List Byte) : (s.storeBytes k l).frameKey = s.frameKey := rfl
@[simp] theorem State.storeBytes_ctxs (s : State) (k : Nat) (l : List Byte) : (s.storeBytes k l).ctxs = s.ctxs := rfl
@[simp] theorem State.storeBytes_bufs (s : State) (k : Nat) (l : List Byte) : (s.storeBytes k l).bufs = s.bufs := rfl
@[simp] theorem State.storeBytes_nodes (s : State) (k : Nat) (l : List Byte) : (s.storeBytes k l).nodes = s.nodes := rfl
@[simp] theorem State.storeBytes_igen (s : State) (k : Nat) (l : List Byte) : (s.storeBytes k l).igen = s.igen := rfl
@[simp] theorem State.storeBytes_edges (s : State) (k : Nat) (l : List Byte) : (s.storeBytes k l).edges = s.edges := rfl
@[simp] theorem State.storeBytes_rings (s : State) (k : Nat) (l : List Byte) : (s.storeBytes k l).rings = s.rings := rfl
@[simp] theorem State.storeBytes_lfsr (s : State) (k : Nat) (l : List Byte) : (s.storeBytes k l).lfsr = s.lfsr := rfl
@[simp] theorem State.storeBytes_seqNo (s : State) (k : Nat) (l : List Byte) : (s.storeBytes k l).seqNo = s.seqNo := rfl
@[simp] theorem State.storeBytes_laneNo (s : State) (k : Nat) (l : List Byte) : (s.storeBytes k l).laneNo = s.laneNo := rfl
@[simp] theorem State.storeBytes_reserve (s : State) (k : Nat) (l : List Byte) : (s.storeBytes k l).reserve = s.reserve := rfl
@[simp] theorem State.storeBytes_stations (s : State) (k : Nat) (l : List Byte) : (s.storeBytes k l).stations = s.stations := rfl
@[simp] theorem State.storeBytes_meets (s : State) (k : Nat) (l : List Byte) : (s.storeBytes k l).meets = s.meets := rfl
@[simp] theorem State.storeBytes_meetings (s : State) (k : Nat) (l : List Byte) : (s.storeBytes k l).meetings = s.meetings := rfl
@[simp] theorem State.storeBytes_meetNo (s : State) (k : Nat) (l : List Byte) : (s.storeBytes k l).meetNo = s.meetNo := rfl
@[simp] theorem State.storeBytes_pkg (s : State) (k : Nat) (l : List Byte) : (s.storeBytes k l).pkg = s.pkg := rfl

/-! ### setDesc -/

@[simp] theorem State.setDesc_agenda (s : State) (k : Nat) (v : BitVec 16) : (s.setDesc k v).agenda = s.agenda := rfl
@[simp] theorem State.setDesc_cur (s : State) (k : Nat) (v : BitVec 16) : (s.setDesc k v).cur = s.cur := rfl
@[simp] theorem State.setDesc_eng (s : State) (k : Nat) (v : BitVec 16) : (s.setDesc k v).eng = s.eng := rfl
@[simp] theorem State.setDesc_arg (s : State) (k : Nat) (v : BitVec 16) : (s.setDesc k v).arg = s.arg := rfl
@[simp] theorem State.setDesc_fresh (s : State) (k : Nat) (v : BitVec 16) : (s.setDesc k v).fresh = s.fresh := rfl
@[simp] theorem State.setDesc_aot (s : State) (k : Nat) (v : BitVec 16) : (s.setDesc k v).aot = s.aot := rfl
@[simp] theorem State.setDesc_mem (s : State) (k : Nat) (v : BitVec 16) : (s.setDesc k v).mem = s.mem := rfl
@[simp] theorem State.setDesc_dies (s : State) (k : Nat) (v : BitVec 16) : (s.setDesc k v).dies = s.dies := rfl
@[simp] theorem State.setDesc_tiles (s : State) (k : Nat) (v : BitVec 16) : (s.setDesc k v).tiles = s.tiles := rfl
@[simp] theorem State.setDesc_land (s : State) (k : Nat) (v : BitVec 16) : (s.setDesc k v).land = s.land := rfl
@[simp] theorem State.setDesc_bits (s : State) (k : Nat) (v : BitVec 16) : (s.setDesc k v).bits = s.bits := rfl
@[simp] theorem State.setDesc_late (s : State) (k : Nat) (v : BitVec 16) : (s.setDesc k v).late = s.late := rfl
@[simp] theorem State.setDesc_part (s : State) (k : Nat) (v : BitVec 16) : (s.setDesc k v).part = s.part := rfl
@[simp] theorem State.setDesc_overDescs (s : State) (k : Nat) (v : BitVec 16) : (s.setDesc k v).overDescs = s.overDescs := rfl
@[simp] theorem State.setDesc_spanOut (s : State) (k : Nat) (v : BitVec 16) : (s.setDesc k v).spanOut = s.spanOut := rfl
@[simp] theorem State.setDesc_bound (s : State) (k : Nat) (v : BitVec 16) : (s.setDesc k v).bound = s.bound := rfl
@[simp] theorem State.setDesc_net (s : State) (k : Nat) (v : BitVec 16) : (s.setDesc k v).net = s.net := rfl
@[simp] theorem State.setDesc_tlb (s : State) (k : Nat) (v : BitVec 16) : (s.setDesc k v).tlb = s.tlb := rfl
@[simp] theorem State.setDesc_walks (s : State) (k : Nat) (v : BitVec 16) : (s.setDesc k v).walks = s.walks := rfl
@[simp] theorem State.setDesc_hot (s : State) (k : Nat) (v : BitVec 16) : (s.setDesc k v).hot = s.hot := rfl
@[simp] theorem State.setDesc_overwritten (s : State) (k : Nat) (v : BitVec 16) : (s.setDesc k v).overwritten = s.overwritten := rfl
@[simp] theorem State.setDesc_frameKey (s : State) (k : Nat) (v : BitVec 16) : (s.setDesc k v).frameKey = s.frameKey := rfl
@[simp] theorem State.setDesc_ctxs (s : State) (k : Nat) (v : BitVec 16) : (s.setDesc k v).ctxs = s.ctxs := rfl
@[simp] theorem State.setDesc_bufs (s : State) (k : Nat) (v : BitVec 16) : (s.setDesc k v).bufs = s.bufs := rfl
@[simp] theorem State.setDesc_nodes (s : State) (k : Nat) (v : BitVec 16) : (s.setDesc k v).nodes = s.nodes := rfl
@[simp] theorem State.setDesc_igen (s : State) (k : Nat) (v : BitVec 16) : (s.setDesc k v).igen = s.igen := rfl
@[simp] theorem State.setDesc_edges (s : State) (k : Nat) (v : BitVec 16) : (s.setDesc k v).edges = s.edges := rfl
@[simp] theorem State.setDesc_rings (s : State) (k : Nat) (v : BitVec 16) : (s.setDesc k v).rings = s.rings := rfl
@[simp] theorem State.setDesc_lfsr (s : State) (k : Nat) (v : BitVec 16) : (s.setDesc k v).lfsr = s.lfsr := rfl
@[simp] theorem State.setDesc_seqNo (s : State) (k : Nat) (v : BitVec 16) : (s.setDesc k v).seqNo = s.seqNo := rfl
@[simp] theorem State.setDesc_laneNo (s : State) (k : Nat) (v : BitVec 16) : (s.setDesc k v).laneNo = s.laneNo := rfl
@[simp] theorem State.setDesc_reserve (s : State) (k : Nat) (v : BitVec 16) : (s.setDesc k v).reserve = s.reserve := rfl
@[simp] theorem State.setDesc_stations (s : State) (k : Nat) (v : BitVec 16) : (s.setDesc k v).stations = s.stations := rfl
@[simp] theorem State.setDesc_meets (s : State) (k : Nat) (v : BitVec 16) : (s.setDesc k v).meets = s.meets := rfl
@[simp] theorem State.setDesc_meetings (s : State) (k : Nat) (v : BitVec 16) : (s.setDesc k v).meetings = s.meetings := rfl
@[simp] theorem State.setDesc_meetNo (s : State) (k : Nat) (v : BitVec 16) : (s.setDesc k v).meetNo = s.meetNo := rfl
@[simp] theorem State.setDesc_pkg (s : State) (k : Nat) (v : BitVec 16) : (s.setDesc k v).pkg = s.pkg := rfl

/-! ### modNode -/

@[simp] theorem State.modNode_agenda (s : State) (n : Nat) (g : Node → Node) : (s.modNode n g).agenda = s.agenda := by
  unfold State.modNode; split <;> rfl
@[simp] theorem State.modNode_cur (s : State) (n : Nat) (g : Node → Node) : (s.modNode n g).cur = s.cur := by
  unfold State.modNode; split <;> rfl
@[simp] theorem State.modNode_eng (s : State) (n : Nat) (g : Node → Node) : (s.modNode n g).eng = s.eng := by
  unfold State.modNode; split <;> rfl
@[simp] theorem State.modNode_arg (s : State) (n : Nat) (g : Node → Node) : (s.modNode n g).arg = s.arg := by
  unfold State.modNode; split <;> rfl
@[simp] theorem State.modNode_fresh (s : State) (n : Nat) (g : Node → Node) : (s.modNode n g).fresh = s.fresh := by
  unfold State.modNode; split <;> rfl
@[simp] theorem State.modNode_aot (s : State) (n : Nat) (g : Node → Node) : (s.modNode n g).aot = s.aot := by
  unfold State.modNode; split <;> rfl
@[simp] theorem State.modNode_mem (s : State) (n : Nat) (g : Node → Node) : (s.modNode n g).mem = s.mem := by
  unfold State.modNode; split <;> rfl
@[simp] theorem State.modNode_desc (s : State) (n : Nat) (g : Node → Node) : (s.modNode n g).desc = s.desc := by
  unfold State.modNode; split <;> rfl
@[simp] theorem State.modNode_dies (s : State) (n : Nat) (g : Node → Node) : (s.modNode n g).dies = s.dies := by
  unfold State.modNode; split <;> rfl
@[simp] theorem State.modNode_tiles (s : State) (n : Nat) (g : Node → Node) : (s.modNode n g).tiles = s.tiles := by
  unfold State.modNode; split <;> rfl
@[simp] theorem State.modNode_land (s : State) (n : Nat) (g : Node → Node) : (s.modNode n g).land = s.land := by
  unfold State.modNode; split <;> rfl
@[simp] theorem State.modNode_bits (s : State) (n : Nat) (g : Node → Node) : (s.modNode n g).bits = s.bits := by
  unfold State.modNode; split <;> rfl
@[simp] theorem State.modNode_late (s : State) (n : Nat) (g : Node → Node) : (s.modNode n g).late = s.late := by
  unfold State.modNode; split <;> rfl
@[simp] theorem State.modNode_part (s : State) (n : Nat) (g : Node → Node) : (s.modNode n g).part = s.part := by
  unfold State.modNode; split <;> rfl
@[simp] theorem State.modNode_overDescs (s : State) (n : Nat) (g : Node → Node) : (s.modNode n g).overDescs = s.overDescs := by
  unfold State.modNode; split <;> rfl
@[simp] theorem State.modNode_spanOut (s : State) (n : Nat) (g : Node → Node) : (s.modNode n g).spanOut = s.spanOut := by
  unfold State.modNode; split <;> rfl
@[simp] theorem State.modNode_bound (s : State) (n : Nat) (g : Node → Node) : (s.modNode n g).bound = s.bound := by
  unfold State.modNode; split <;> rfl
@[simp] theorem State.modNode_net (s : State) (n : Nat) (g : Node → Node) : (s.modNode n g).net = s.net := by
  unfold State.modNode; split <;> rfl
@[simp] theorem State.modNode_tlb (s : State) (n : Nat) (g : Node → Node) : (s.modNode n g).tlb = s.tlb := by
  unfold State.modNode; split <;> rfl
@[simp] theorem State.modNode_walks (s : State) (n : Nat) (g : Node → Node) : (s.modNode n g).walks = s.walks := by
  unfold State.modNode; split <;> rfl
@[simp] theorem State.modNode_hot (s : State) (n : Nat) (g : Node → Node) : (s.modNode n g).hot = s.hot := by
  unfold State.modNode; split <;> rfl
@[simp] theorem State.modNode_overwritten (s : State) (n : Nat) (g : Node → Node) : (s.modNode n g).overwritten = s.overwritten := by
  unfold State.modNode; split <;> rfl
@[simp] theorem State.modNode_frameKey (s : State) (n : Nat) (g : Node → Node) : (s.modNode n g).frameKey = s.frameKey := by
  unfold State.modNode; split <;> rfl
@[simp] theorem State.modNode_ctxs (s : State) (n : Nat) (g : Node → Node) : (s.modNode n g).ctxs = s.ctxs := by
  unfold State.modNode; split <;> rfl
@[simp] theorem State.modNode_bufs (s : State) (n : Nat) (g : Node → Node) : (s.modNode n g).bufs = s.bufs := by
  unfold State.modNode; split <;> rfl
@[simp] theorem State.modNode_igen (s : State) (n : Nat) (g : Node → Node) : (s.modNode n g).igen = s.igen := by
  unfold State.modNode; split <;> rfl
@[simp] theorem State.modNode_edges (s : State) (n : Nat) (g : Node → Node) : (s.modNode n g).edges = s.edges := by
  unfold State.modNode; split <;> rfl
@[simp] theorem State.modNode_rings (s : State) (n : Nat) (g : Node → Node) : (s.modNode n g).rings = s.rings := by
  unfold State.modNode; split <;> rfl
@[simp] theorem State.modNode_lfsr (s : State) (n : Nat) (g : Node → Node) : (s.modNode n g).lfsr = s.lfsr := by
  unfold State.modNode; split <;> rfl
@[simp] theorem State.modNode_seqNo (s : State) (n : Nat) (g : Node → Node) : (s.modNode n g).seqNo = s.seqNo := by
  unfold State.modNode; split <;> rfl
@[simp] theorem State.modNode_laneNo (s : State) (n : Nat) (g : Node → Node) : (s.modNode n g).laneNo = s.laneNo := by
  unfold State.modNode; split <;> rfl
@[simp] theorem State.modNode_reserve (s : State) (n : Nat) (g : Node → Node) : (s.modNode n g).reserve = s.reserve := by
  unfold State.modNode; split <;> rfl
@[simp] theorem State.modNode_stations (s : State) (n : Nat) (g : Node → Node) : (s.modNode n g).stations = s.stations := by
  unfold State.modNode; split <;> rfl
@[simp] theorem State.modNode_meets (s : State) (n : Nat) (g : Node → Node) : (s.modNode n g).meets = s.meets := by
  unfold State.modNode; split <;> rfl
@[simp] theorem State.modNode_meetings (s : State) (n : Nat) (g : Node → Node) : (s.modNode n g).meetings = s.meetings := by
  unfold State.modNode; split <;> rfl
@[simp] theorem State.modNode_meetNo (s : State) (n : Nat) (g : Node → Node) : (s.modNode n g).meetNo = s.meetNo := by
  unfold State.modNode; split <;> rfl
@[simp] theorem State.modNode_pkg (s : State) (n : Nat) (g : Node → Node) : (s.modNode n g).pkg = s.pkg := by
  unfold State.modNode; split <;> rfl

/-! ### What is written -/

@[simp] theorem State.tile_setTile_same (s : State) (t : Nat) (x : Tile) : (s.setTile t x).tile t = x := by
  simp [State.tile, State.setTile]
theorem State.tile_setTile_ne (s : State) {t u : Nat} (x : Tile) (h : u ≠ t) : (s.setTile t x).tile u = s.tile u := by
  simp [State.tile, State.setTile, FMap.getD_set_ne _ _ h]
@[simp] theorem State.here_setHere (s : State) (x : Tile) : (s.setHere x).here = x := by
  simp [State.here, State.setHere]
theorem State.tile_setHere_ne (s : State) {u : Nat} (x : Tile) (h : u ≠ s.cur) : (s.setHere x).tile u = s.tile u :=
  State.tile_setTile_ne s x h
@[simp] theorem State.tile_modTile_same (s : State) (t : Nat) (f : Tile → Tile) : (s.modTile t f).tile t = f (s.tile t) := by
  simp [State.modTile]
theorem State.tile_modTile_ne (s : State) {t u : Nat} (f : Tile → Tile) (h : u ≠ t) : (s.modTile t f).tile u = s.tile u :=
  State.tile_setTile_ne s _ h
@[simp] theorem State.ctxAt_setCtx_same (s : State) (c : Nat) (x : Ctx) : (s.setCtx c x).ctxAt c = x := by
  simp [State.ctxAt, State.setCtx]
theorem State.ctxAt_setCtx_ne (s : State) {c e : Nat} (x : Ctx) (h : e ≠ c) : (s.setCtx c x).ctxAt e = s.ctxAt e := by
  simp [State.ctxAt, State.setCtx, FMap.getD_set_ne _ _ h]
@[simp] theorem State.die_setDie_same (s : State) (d : Nat) (x : Die) : (s.setDie d x).die d = x := by
  simp [State.die, State.setDie]
@[simp] theorem State.buf_setBuf_same (s : State) (a : Nat) (x : Buf) : (s.setBuf a x).buf a = x := by
  simp [State.buf, State.setBuf]
theorem State.buf_setBuf_ne (s : State) {a b : Nat} (x : Buf) (h : b ≠ a) : (s.setBuf a x).buf b = s.buf b := by
  simp [State.buf, State.setBuf, FMap.getD_set_ne _ _ h]

/-! ### Registers of a tile -/

/-- What a write of an s register leaves in each s register (R39). -/
theorem Tile.rd_wr (x : Tile) (d r : BitVec 5) (v : Word) :
    (x.wr d v).rd r = if r = d ∧ d ≠ 0 then v else x.rd r := by
  unfold Tile.wr Tile.rd
  by_cases hd : d = 0
  · simp [hd]
  · rw [if_neg hd]
    by_cases hr : r = d
    · subst hr; rw [if_neg hd, if_pos ⟨rfl, hd⟩]; exact Bank.get_set_same ..
    · have e : ∀ w : Word, (if r = d ∧ d ≠ 0 then v else w) = w := fun _ => if_neg (fun h => hr h.1)
      rw [e]
      by_cases h0 : r = 0
      · rw [if_pos h0, if_pos h0]
      · rw [if_neg h0, if_neg h0]
        exact Bank.get_set_ne _ _ (fun h => hr (BitVec.eq_of_toNat_eq h))
@[simp] theorem Tile.rd_adv (x : Tile) (r : BitVec 5) : x.adv.rd r = x.rd r := rfl
@[simp] theorem Tile.wr_pc (x : Tile) (d : BitVec 5) (v : Word) : (x.wr d v).pc = x.pc := by unfold Tile.wr; split <;> rfl
/-- A write of an s register changes the s registers only. -/
theorem Tile.wr_rest (x : Tile) (d : BitVec 5) (v : Word) : { x.wr d v with s := x.s } = x := by
  unfold Tile.wr; split <;> rfl
/-- What a write of a predicate leaves in each predicate (R39). -/
theorem Tile.rdP_wrP (x : Tile) (d r : BitVec 3) (b : Bool) :
    (x.wrP d b).rdP r = if r = d ∧ d ≠ 0 then b else x.rdP r := by
  have h : ∀ (p : BitVec 8) (d r : BitVec 3) (b : Bool),
      (setBit8 p d.toNat b).getLsbD r.toNat = if r = d then b else p.getLsbD r.toNat := by
    intro p d r b
    have hd := d.isLt
    have hr := r.isLt
    by_cases e : r = d
    · subst e
      cases b <;> simp [setBit8] <;> omega
    · have hn : r.toNat ≠ d.toNat := fun h => e (BitVec.eq_of_toNat_eq h)
      cases b <;> simp [setBit8, e] <;> omega
  unfold Tile.wrP Tile.rdP
  by_cases hd : d = 0
  · simp [hd]
  · rw [if_neg hd]
    by_cases hr : r = d
    · subst hr; rw [if_neg hd, if_pos ⟨rfl, hd⟩, h, if_pos rfl]
    · have e : ∀ w : Bool, (if r = d ∧ d ≠ 0 then b else w) = w := fun _ => if_neg (fun h => hr h.1)
      rw [e]
      by_cases h0 : r = 0
      · rw [if_pos h0, if_pos h0]
      · rw [if_neg h0, if_neg h0, h, if_neg hr]

end Sys2Proof.Machine
end

