-- ==== Sys2Proof/Laws/Memory.lean ====
section
/-! SUPPORT. Memory: what a write leaves, and that every write keeps the canonical form. -/

namespace Sys2Proof.Machine

theorem Mem.wfFrom_mono {lo lo' : Nat} (h : lo' ≤ lo) : ∀ {m : List Host.Cell}, Mem.wfFrom lo m = true → Mem.wfFrom lo' m = true
  | [], _ => rfl
  | (k, b) :: t, hw => by
    simp only [Mem.wfFrom, Bool.and_eq_true, decide_eq_true_eq] at hw ⊢
    exact ⟨⟨by omega, hw.1.2⟩, hw.2⟩

/-- A key below the least listed one reads as unlisted. -/
theorem FMap.get?_of_wfFrom {lo k : Nat} : ∀ {m : List Host.Cell}, Mem.wfFrom lo m = true → k < lo → FMap.get? m k = none
  | [], _, _ => rfl
  | (j, b) :: t, hw, hk => by
    simp only [Mem.wfFrom, Bool.and_eq_true, decide_eq_true_eq] at hw
    have h1 : k ≠ j := by omega
    have h2 : k < j := by omega
    simp [FMap.get?, h1, h2]

theorem Mem.wfFrom_filter (p : Host.Cell → Bool) : ∀ {lo : Nat} {m : List Host.Cell}, Mem.wfFrom lo m = true →
    Mem.wfFrom lo (m.filter p) = true
  | _, [], _ => rfl
  | lo, (k, b) :: t, hw => by
    simp only [Mem.wfFrom, Bool.and_eq_true, decide_eq_true_eq] at hw
    have ih := Mem.wfFrom_filter p hw.2
    rw [List.filter_cons]
    split
    · simp only [Mem.wfFrom, Bool.and_eq_true, decide_eq_true_eq]; exact ⟨hw.1, ih⟩
    · exact Mem.wfFrom_mono (by omega) ih

theorem Mem.wfFrom_set {k : Nat} {b : Byte} (hb : b ≠ 0) : ∀ {lo : Nat} {m : List Host.Cell}, Mem.wfFrom lo m = true → lo ≤ k →
    Mem.wfFrom lo (FMap.set m k b) = true
  | lo, [], _, hk => by simp [FMap.set, Mem.wfFrom, hk]; simpa using hb
  | lo, (j, w) :: t, hw, hk => by
    simp only [Mem.wfFrom, Bool.and_eq_true, decide_eq_true_eq] at hw
    simp only [FMap.set]
    split
    · subst j
      simp only [Mem.wfFrom, Bool.and_eq_true, decide_eq_true_eq]; exact ⟨⟨hk, hb⟩, hw.2⟩
    · split
      · simp only [Mem.wfFrom, Bool.and_eq_true, decide_eq_true_eq]
        exact ⟨⟨hk, hb⟩, ⟨by omega, hw.1.2⟩, hw.2⟩
      · simp only [Mem.wfFrom, Bool.and_eq_true, decide_eq_true_eq]
        exact ⟨hw.1, Mem.wfFrom_set hb hw.2 (by omega)⟩

/-- Reading a filtered memory: what the filter keeps reads as before, what it drops reads zero. -/
theorem Mem.get?_filter (p : Nat → Bool) (k : Nat) : ∀ {lo : Nat} {m : List Host.Cell}, Mem.wfFrom lo m = true →
    FMap.get? (m.filter (fun c => p c.1)) k = if p k then FMap.get? m k else none
  | _, [], _ => by simp [FMap.get?]
  | lo, (j, b) :: t, hw => by
    simp only [Mem.wfFrom, Bool.and_eq_true, decide_eq_true_eq] at hw
    have ih := Mem.get?_filter p k hw.2
    rw [List.filter_cons]
    by_cases hp : p j = true
    · simp only [hp, if_true, FMap.get?]
      by_cases e : k = j
      · subst e; simp [hp]
      · simp only [e, if_false]
        by_cases hl : k < j
        · simp [hl]
        · simp only [hl, if_false, ih]
    · simp only [hp, FMap.get?]
      by_cases e : k = j
      · subst e
        have hn := FMap.get?_of_wfFrom (k := k) hw.2 (by omega)
        simp [hp, ih]
      · simp only [e, if_false]
        by_cases hl : k < j
        · have hn : FMap.get? t k = none := FMap.get?_of_wfFrom hw.2 (by omega)
          simp [hl, ih, hn]
        · simp [hl, ih]

/-- Every write keeps the canonical form. -/
theorem Memory.wf_set {m : List Host.Cell} (h : Memory.wf m = true) (k : Nat) (b : Byte) : Memory.wf (Mem.set m k b) = true := by
  unfold Mem.set
  split
  · exact Mem.wfFrom_filter _ h
  · exact Mem.wfFrom_set ‹_› h (Nat.zero_le k)

/-- Read after write. -/
theorem Mem.get_set {m : List Host.Cell} (h : Memory.wf m = true) (k j : Nat) (b : Byte) :
    Mem.get (Mem.set m k b) j = if j = k then b else Mem.get m j := by
  unfold Mem.set Mem.get FMap.getD
  split
  · rename_i hb
    rw [FMap.erase, Mem.get?_filter (fun n => decide (n ≠ k)) j h]
    by_cases e : j = k <;> simp [e, hb]
  · by_cases e : j = k
    · subst e; simp
    · rw [FMap.get?_set_ne _ _ e]; simp [e]

theorem Memory.wf_store {m : List Host.Cell} (h : Memory.wf m = true) (k : Nat) : ∀ (l : List Byte), Memory.wf (Mem.store m k l) = true
  | [] => h
  | b :: t => Memory.wf_store (Memory.wf_set h k b) (k + 1) t

/-- What a store of bytes leaves. -/
theorem Mem.get_store {m : List Host.Cell} (h : Memory.wf m = true) (k j : Nat) : ∀ (l : List Byte),
    Mem.get (Mem.store m k l) j = if k ≤ j ∧ j < k + l.length then l.getD (j - k) 0 else Mem.get m j
  | [] => by simp only [Mem.store, List.length_nil]; rw [if_neg (by omega)]
  | b :: t => by
    have ih := Mem.get_store (Memory.wf_set h k b) (k + 1) j t
    simp only [Mem.store, ih, Mem.get_set h, List.length_cons]
    by_cases e : j = k
    · subst e; simp
    · simp only [e, if_false]
      by_cases hl : k ≤ j
      · obtain ⟨n, rfl⟩ : ∃ n, j = k + 1 + n := ⟨j - (k + 1), by omega⟩
        have h1 : k + 1 + n - (k + 1) = n := by omega
        have h2 : k + 1 + n - k = n + 1 := by omega
        simp only [h1, h2, List.getD_cons_succ]
        by_cases hn : n < t.length
        · rw [if_pos (by omega), if_pos (by omega)]
        · rw [if_neg (by omega), if_neg (by omega)]
      · rw [if_neg (by omega), if_neg (by omega)]

@[simp] theorem leBytes_length (v : Nat) : ∀ n, (leBytes v n).length = n
  | 0 => rfl
  | n + 1 => by simp [leBytes, leBytes_length (v / 256) n]

/-- Byte `i` of a little-endian number. -/
theorem leBytes_getD (i : Nat) : ∀ (v n : Nat), i < n → (leBytes v n).getD i 0 = BitVec.ofNat 8 (v / 256 ^ i) := by
  induction i with
  | zero => intro v n h; cases n with
    | zero => omega
    | succ n => simp [leBytes]
  | succ i ih => intro v n h; cases n with
    | zero => omega
    | succ n =>
      simp only [leBytes, List.getD_cons_succ]
      rw [ih (v / 256) n (by omega), Nat.div_div_eq_div_mul, Nat.pow_succ, Nat.mul_comm]

theorem Mem.bytes_eq (m : List Host.Cell) : ∀ (n k : Nat), Mem.bytes m k n = (List.range n).map (fun i => Mem.get m (k + i))
  | 0, _ => rfl
  | n + 1, k => by
    rw [Mem.bytes, Mem.bytes_eq m n (k + 1), List.range_succ_eq_map]
    simp [Function.comp_def, Nat.add_assoc, Nat.add_comm 1]

theorem State.memOk_store {s : State} (h : s.memOk) (k n v : Nat) : (s.store k n v).memOk := Memory.wf_store h k _
theorem State.memOk_storeBytes {s : State} (h : s.memOk) (k : Nat) (l : List Byte) : (s.storeBytes k l).memOk :=
  Memory.wf_store h k _
theorem State.memOk_storeWords : ∀ {s : State} (_ : s.memOk) (k : Nat) (l : List Nat), (s.storeWords k l).memOk
  | _, h, _, [] => h
  | _, h, k, w :: t => State.memOk_storeWords (State.memOk_store h k 8 w) (k + 8) t
theorem State.memOk_clearMem {s : State} (h : s.memOk) (k n : Nat) : (s.clearMem k n).memOk := Mem.wfFrom_filter _ h

end Sys2Proof.Machine
end

