-- ==== Sys2Proof/Laws/Net.lean ====
section
/-! SUPPORT. What the banks of a scratchpad and the sending of a packet can change. -/

namespace Sys2Proof.Machine

/-- An access that occupies banks writes nothing of a tile but its banks (R12). -/
theorem Tile.useBanks_rest (x : Tile) (rank off n : Nat) : { x.useBanks rank off n with banks := x.banks } = x := rfl
/-- An access of one tile's scratchpad leaves every other tile alone (R12). -/
theorem State.touch_tile_ne (s : State) {t u : Nat} (rank off n : Nat) (h : u ≠ t) : (s.touch t rank off n).tile u = s.tile u :=
  s.tile_setTile_ne _ h
@[simp] theorem State.touch_mem (s : State) (t rank off n : Nat) : (s.touch t rank off n).mem = s.mem := rfl
/-- A packet that is sent joins those under way behind all of them (R21). -/
@[simp] theorem State.send_net (s : State) (p : Packet) : (s.send p).net = s.net ++ [p] := rfl
/-- The next packet of the tile takes the next number (log 82). -/
theorem State.send_nextTx (s : State) (p : Packet) : (s.send p).here.nextTx = s.here.nextTx + 1 := by simp [State.send]
/-- Sending a packet performs nothing: memory stands, and so does every other tile (R21). -/
@[simp] theorem State.send_mem (s : State) (p : Packet) : (s.send p).mem = s.mem := rfl
theorem State.send_tile_ne (s : State) (p : Packet) {u : Nat} (h : u ≠ s.cur) : (s.send p).tile u = s.tile u :=
  s.tile_setHere_ne _ h

end Sys2Proof.Machine
end

