-- ==== Sys2Proof/Laws/Retire.lean ====
section
/-! SUPPORT. What the shared endings of a sequencer instruction leave: retire, retireP, nextPc, jumpTo and trap. -/

namespace Sys2Proof.Machine

theorem onlyHere_setHere (s : State) (x : Tile) : OnlyHere s (s.setHere x) :=
  ⟨fun _ h => State.tile_setHere_ne s x h, fun _ => rfl, rfl⟩

theorem wrote_retire (s : State) (d : BitVec 5) (v : Word) : Wrote s (s.retire d v) d v := by
  refine ⟨fun r => ?_, ?_, ?_, onlyHere_setHere ..⟩
  · simp [State.retire, Tile.rd_wr]
  · simp [State.retire, Tile.adv]
  · simp only [State.retire, State.here_setHere, Tile.adv]
    unfold Tile.wr; split <;> rfl

theorem retires_of_exec {s : State} {i : Instr} {d : BitVec 5} {v : Word} (h : exec i s = .next (s.retire d v)) :
    Retires s i d v := ⟨_, h, wrote_retire s d v⟩

theorem Tile.wrP_rest (x : Tile) (d : BitVec 3) (b : Bool) : { x.wrP d b with p := x.p } = x := by
  unfold Tile.wrP; split <;> rfl
@[simp] theorem Tile.wrP_pc (x : Tile) (d : BitVec 3) (b : Bool) : (x.wrP d b).pc = x.pc := by unfold Tile.wrP; split <;> rfl
@[simp] theorem Tile.rdP_adv (x : Tile) (r : BitVec 3) : x.adv.rdP r = x.rdP r := rfl

theorem wroteP_setHere (s : State) (pd : BitVec 3) (b : Bool) : WroteP s (s.setHere ((s.here.wrP pd b).adv)) pd b := by
  refine ⟨fun r => ?_, ?_, ?_, onlyHere_setHere ..⟩
  · simp [Tile.rdP_wrP]
  · simp [Tile.adv]
  · simp only [State.here_setHere, Tile.adv]
    unfold Tile.wrP; split <;> rfl

theorem trapped_trap {s : State} (h : s.here.canTrap) (cause : Nat) (tval : Word) : Trapped s (s.trap cause tval) cause tval := by
  obtain ⟨h1, h2, h3⟩ := h
  have e : s.trap cause tval = s.setHere { s.here with epc := s.here.pc, cause := BitVec.ofNat 64 cause, tval := tval, hm := true, sleep := none, pc := s.here.tvec } := by
    have h1' : (s.tile s.cur).hm = false := h1
    have h2' : ¬ (s.tile s.cur).tvec = 0 := h2
    have h3' : pcOk (s.tile s.cur).tvec = true := h3
    unfold State.trap State.take
    simp only [h1', h3', decide_eq_false h2', Bool.false_or, Bool.not_true]
    simp [State.setHere, State.here]
  rw [e]
  exact ⟨by simp, onlyHere_setHere ..⟩

theorem wentTo_setHere (s : State) (d : BitVec 5) (v pc : Word) : WentTo s (s.setHere { s.here.wr d v with pc := pc }) pc d v := by
  refine ⟨fun r => ?_, ?_, ?_, onlyHere_setHere ..⟩
  · rw [State.here_setHere]; exact Tile.rd_wr _ d r v
  · simp
  · simp only [State.here_setHere]
    unfold Tile.wr; split <;> rfl

end Sys2Proof.Machine
end

