-- ==== Sys2Proof/Tests/Slice0.lean ====
section
/-! SUPPORT. Tests: words of every row decoded, ill-formed words refused, single steps of instructions against values worked out
from the manual, and for each statement states that meet its hypotheses. -/

namespace Sys2Proof.Tests
open Sys2Proof Sys2Proof.Machine

set_option Elab.async false

/-! ### Small states -/

/-- Tile 0 runs a tile-wide task of context 1, node 0. -/
def base : State := State.reset.launch 0
/-- The same with changes to its tile. -/
def tile (f : Tile → Tile) : State := base.setHere (f base.here)
/-- With values in s registers. -/
def regs (l : Bank 64) : State := tile (fun x => { x with s := l })
/-- With a handler. -/
def caught (l : Bank 64) : State := tile (fun x => { x with s := l, tvec := 0x100 })
/-- With virtual tile 1 on tile 5. -/
def two (l : Bank 64) : State := (regs l).modCtx 1 (fun c => { c with tmap := [(0, { phys := 0 }), (1, { phys := 5 })] })
/-- With bytes in memory. -/
def mems (s : State) (l : List (Nat × Nat × Nat)) : State := l.foldl (fun s x => s.store x.1 x.2.1 x.2.2) s
/-- With an argument of an event. -/
def args (s : State) (a : Arg) : State := { s with arg := a }
/-- A live buffer of context 1. -/
def aBuf : Buf := { live := true, ctx := 1, size := 0x10000, vbase := 0x100000, count := 2 }
/-- A handle of buffer 9 with every right. -/
def h9 : Word := handleOf 9 0 63

/-- A packet of a kind that has arrived at tile 0, for an address, with data. -/
def arrived (kind addr : Nat) (data : List Byte) : Packet := {
  txid := 0, len := 0, kind := kind, stile := 5, sdie := 0, dtile := 0, ddie := 0, age := 0, ctx := 1, addr := addr, data := data, arrived := true }

/-- A near address that is found is not refused. -/
theorem not_bad {n : Near} {u o : Nat} (h : n = .ok u o) : ∀ k, n ≠ .bad k := by
  subst h; intro k; nofun

/-! ### States that meet the hypotheses of the statements -/

theorem witness_AluResults : (regs [(5, 7)]).here.rd 5 ≠ 0 := by decide
theorem witness_DivisionEdgeCases : (regs []).here.rd 5 = 0
    ∧ (regs [(4, 0x8000000000000000), (5, 0xFFFFFFFFFFFFFFFF)]).here.rd 4 = 0x8000000000000000
    ∧ (regs [(4, 0x8000000000000000), (5, 0xFFFFFFFFFFFFFFFF)]).here.rd 5 = 0xFFFFFFFFFFFFFFFF := by decide
theorem witness_ImmediatesFieldsAndPredicates : (63 : BitVec 6).toNat + (0 : BitVec 6).toNat + 1 ≤ 64
    ∧ (0 : BitVec 6).toNat + (63 : BitVec 6).toNat + 1 ≤ 64 ∧ (11 : BitVec 4).toNat < 12 := by decide
theorem witness_TransfersOfControl : base.here.rdP 0 = true ∧ base.here.rdP 1 = false
    ∧ Fetchable (wordsFrom base.here.pc (0x1FFFFF : BitVec 22).toInt) ∧ Fetchable (wordsFrom 0x7FFFFFFFFFFFF8 (1 : BitVec 26).toInt)
    ∧ Fetchable ((regs [(4, 0x7FFFFFFFFFFFFC)]).here.rd 4) ∧ (regs [(4, 2)]).here.rd 4 - 1 ≠ 0 ∧ (regs [(4, 1)]).here.rd 4 - 1 = 0
    ∧ Fetchable (wordsFrom (regs [(4, 2)]).here.pc (5 : BitVec 21).toInt) := by decide
theorem witness_BadTargetsAreRefused : (caught [(4, 0x80000000000000)]).here.canTrap
    ∧ ¬ Fetchable (wordsFrom (caught []).here.pc (-1 : BitVec 22).toInt) ∧ ¬ Fetchable (wordsFrom (caught []).here.pc (-1 : BitVec 26).toInt)
    ∧ ¬ Fetchable ((caught [(4, 0x80000000000000)]).here.rd 4) ∧ ¬ Fetchable ((caught [(4, 2)]).here.rd 4)
    ∧ (caught [(4, 2)]).here.rd 4 - 1 ≠ 0 ∧ ¬ Fetchable (wordsFrom (caught [(4, 2)]).here.pc (-1 : BitVec 21).toInt)
    ∧ (caught []).here.rdP 0 = true ∧ (caught []).here.rdP 1 = false ∧ (caught [(4, 1)]).here.rd 4 - 1 = 0 := by decide
theorem witness_NearLoadResults : (regs [(1, 0xBFFF8)]).here.acquires = false
    ∧ (regs [(1, 0xBFFF8)]).near 1 ((regs [(1, 0xBFFF8)]).here.rd 1 + BitVec.ofInt 64 (0 : BitVec 13).toInt) 8 = .ok 0 0xBFFF8
    ∧ (∀ b ∈ [true, false], (regs [(1, 0xBFFF8)]).atHome 0xBFFF8 8 b)
    ∧ (two [(1, 0x100040)]).near 1 ((two [(1, 0x100040)]).here.rd 1 + BitVec.ofInt 64 (0 : BitVec 13).toInt) 8 = .ok 5 0x40
    ∧ (∀ b ∈ [true, false], (two [(1, 0x100040)]).atOnce 5 0x40 8 b = false)
    ∧ (∀ b ∈ [true, false], ({ regs [(1, 0xBFFF8)] with late := true } : State).atOnce 0 0xBFFF8 8 b = false) := by decide

/-- A tile whose phase store buffer is full: 512 granules. -/
def fullPsb : State := tile (fun x => { x with s := [(1, 0x8000)], tvec := 0x100, psb := (List.range 512).map (fun i => (32 * i, 1)) })

theorem witness_StoreResults :
    (∀ k, (regs [(1, 0xBFFF8)]).near 1 0xBFFF8 8 ≠ .bad k) ∧ (granulesOf (regs [(1, 0xBFFF8)]).here.psb).length < 512
    ∧ (regs [(1, 0x40)]).here.fresh ∧ (regs [(1, 0x40)]).memOk ∧ (regs [(1, 0x40)]).near 1 0x40 8 = .ok 0 0x40
    ∧ (regs [(1, 0x40)]).atHome 0x40 8 false ∧ templateOf 0x40 0 = none
    ∧ (two [(1, 0x100040)]).near 1 0x100040 8 = .ok 5 0x40 ∧ (two [(1, 0x100040)]).atOnce 5 0x40 8 false = false
    ∧ (two [(1, 0x100040)]).here.vtile ≠ (0x100040 : Word).toNat / 2 ^ 20 ∧ (two [(1, 0x100040)]).here.fresh
    ∧ (two [(1, 0x100041)]).near 1 ((two [(1, 0x100041)]).here.rd 1) 1 = .ok 5 0x41 ∧ (two [(1, 0x100041)]).atOnce 5 0x41 1 false = false
    ∧ (regs [(1, 0x41)]).near 1 ((regs [(1, 0x41)]).here.rd 1) 1 = .ok 0 0x41 ∧ (regs [(1, 0x41)]).atHome 0x41 1 false :=
  ⟨not_bad (by decide : (regs [(1, 0xBFFF8)]).near 1 0xBFFF8 8 = .ok 0 0xBFFF8), by decide⟩
theorem witness_FullBufferRefusesAStore : (granulesOf fullPsb.here.psb).length ≤ 512 ∧ fullPsb.here.canTrap ∧ (∀ k, fullPsb.near 1 0x8000 8 ≠ .bad k)
    ∧ (granulesOf fullPsb.here.psb).contains (0x8000 / 32) = false ∧ 512 ≤ (granulesOf fullPsb.here.psb).length :=
  ⟨by decide +kernel, by decide, not_bad (by decide : fullPsb.near 1 0x8000 8 = .ok 0 0x8000), by decide +kernel, by decide +kernel⟩
theorem witness_AtomicResults : (regs [(1, 0xBFFF8)]).memOk ∧ (regs [(1, 0xBFFF8)]).near 1 ((regs [(1, 0xBFFF8)]).here.rd 1) (64 / 8) = .ok 0 0xBFFF8
    ∧ (regs [(1, 0xBFFFC)]).near 1 ((regs [(1, 0xBFFFC)]).here.rd 1) (32 / 8) = .ok 0 0xBFFFC
    ∧ (regs [(1, 0xBFFF8)]).here.acquires = false ∧ (regs [(1, 0xBFFF8)]).accesses 0 = [] ∧ (regs [(1, 0xBFFF8)]).here.reads = []
    ∧ (regs [(1, 0xBFFF8)]).atHome 0xBFFF8 8 false ∧ (regs [(1, 0xBFFFC)]).atHome 0xBFFFC 4 false
    ∧ (two [(1, 0x100040)]).near 1 ((two [(1, 0x100040)]).here.rd 1) (64 / 8) = .ok 5 0x40 ∧ (two [(1, 0x100040)]).atOnce 5 0x40 8 false = false
    ∧ (regs [(1, 0xBFFF8)]).load (nearKey 0 0xBFFF8) 8 = ((regs []).here.rd 9).toNat % 2 ^ 64
    ∧ (regs [(9, 4)]).load (nearKey 0 0xBFFF8) 8 ≠ ((regs [(9, 4)]).here.rd 9).toNat % 2 ^ 64 := by decide
theorem witness_NearAddressChecks : (caught [(1, 0x1FFFFFFFF)]).here.canTrap ∧ (caught [(1, 0x1FFFFFFFF)]).here.fresh
    ∧ FMap.get? ((caught []).ctxAt 1).tmap (caught []).here.vtile ≠ none
    ∧ 2 ^ 33 ≤ (0x200000000 : Word).toNat ∧ ¬ 2 ^ 33 ≤ (0x1FFFFFFFF : Word).toNat ∧ (0x1FFFFFFFF : Word).toNat % 2 ≠ 0
    ∧ (0xC0000 : Word).toNat % 8 = 0 ∧ 0xC0000 ≤ (0xC0000 : Word).toNat % 2 ^ 20
    ∧ FMap.get? ((caught []).ctxAt 1).tmap ((0x100000 : Word).toNat / 2 ^ 20) = none := by decide
theorem witness_BarriersOfOneTile : base.ok ∧ base.alone 0 ∧ base.here.wait = none ∧ (∀ p ∈ base.accesses 0, p.plain = true) ∧ (∀ e ∈ base.here.out, e.1 ≠ 2)
    ∧ (∀ g ∈ granulesOf (tile (fun x => { x with psb := [(0x40, 7)] })).here.psb,
        (tile (fun x => { x with psb := [(0x40, 7)] })).commitReady 0 1 g = true) ∧ base.late = false
    ∧ (∀ e ∈ base.here.out, ¬ (e.1 = 2 ∧ e.2.1 = .bara)) ∧ (∀ p ∈ base.accesses 0, sameUnit 2 0 p.dst = false)
    ∧ (∀ r ∈ base.here.reads, sameUnit 2 0 r.home = false) := by decide
theorem witness_BarrierCompletion : base.barrierReady 0 1 = false
    ∧ (tile (fun x => { x with arr := [(1, 1)], out := [(1, .phase, 0)], wait := some 1 })).ok
    ∧ (tile (fun x => { x with arr := [(1, 1)], out := [(1, .phase, 0)], wait := some 1 })).barrierReady 0 1 = true
    ∧ ({ base with net := [arrived 9 0 []] } : State).arrivedAt 0 9 ≠ none := by decide

/-- A tile that holds handles of a buffer with two references, one also in transit. -/
def held : State := { (tile (fun x => { x with caps := [(1, h9), (2, h9)], s := [(4, h9)], tvec := 0x100 })).modCtx 1
  (fun c => { c with transit := [h9] }) with bufs := [(9, aBuf), (10, { aBuf with count := 3, vbase := 0x200000 })] }
/-- The same with slot c3 on buffer 10. -/
def held2 : State := held.setHere { held.here with caps := [(1, h9), (2, h9), (3, handleOf 10 0 63)] }

theorem witness_HandleInstructions : held.slotUse 2 (some 4) = none ∧ held.here.cap 5 = 0 ∧ (held.buf (accOf (held.here.cap 2))).count < 2 ^ 32 - 1
    ∧ held2.slotUse 3 (some 4) = none ∧ accOf (held2.here.cap 1) ≠ accOf (held2.here.cap 3) ∧ (held2.buf (accOf (held2.here.cap 3))).count < 2 ^ 32 - 1
    ∧ (held2.buf (accOf (held2.here.cap 1))).live = true ∧ 1 < (held2.buf (accOf (held2.here.cap 1))).count ∧ held2.here.cap 1 ≠ 0
    ∧ held.slotUse 1 none = none ∧ 1 < (held.buf (accOf (held.here.cap 1))).count
    ∧ ({ held with bufs := [(9, { aBuf with count := 1 })] } : State).slotUse 1 none = none
    ∧ held.slotUse 1 (some 5) = none ∧ held.slotUse 1 (some 3) = none ∧ held.fresh? 1 (held.here.rd 4) = true
    ∧ held.here.rd 4 ∈ (held.ctxAt 1).transit := by decide
theorem witness_HandleTraps : held.here.canTrap ∧ held.here.fresh ∧ held.here.cap 5 = 0 ∧ held.here.cap 1 ≠ 0
    ∧ ({ held with bufs := [] } : State).fresh? 1 h9 = false ∧ held.fresh? 1 (handleOf 9 0 0) = true ∧ hasRight (handleOf 9 0 0) 4 = false
    ∧ hasRight (handleOf 9 0 0) 2 = false ∧ hasRight (handleOf 9 0 0) 5 = false ∧ hasRight (handleOf 9 0 0) 3 = false
    ∧ 1 ≤ ((caught [(5, 0x10000000000)]).here.rd 5).toNat ∧ ((caught [(5, 0x10000000000)]).here.rd 5).toNat ≤ 2 ^ 40
    ∧ (held.here.rd 5).toNat = 0 ∧ 2 ^ 40 < ((caught [(5, 0x10000000001)]).here.rd 5).toNat ∧ held.fresh? 1 (held.here.rd 5) = false
    ∧ h9 ∉ ((caught []).ctxAt 1).transit := by decide

/-- A context whose arena and pool hold just one page: the arena at 0x10000, the tables at HBM 0, 0x10000 and 0x20000, the pool's
frame at 0x30000. -/
def oneFrame : State := mems ((regs [(5, 0x10000)]).modCtx 1 (fun c => { c with
  root := 1, iod := [(0x068, 0x10000 + 16), (0x070, 0x30000), (0x078, 1)] })) [(2 ^ 64, 8, 0x10001), (2 ^ 64 + 0x10000, 8, 0x20001)]

/-- A range of one place has its one place free. -/
theorem firstFree_one (ok : Nat → Bool) (lo start fuel : Nat) (h : ok lo = true) : firstFree ok lo 1 start (fuel + 1) = some lo := by
  simp [firstFree, Nat.mod_one, h]
/-- The state once capnew has its number and its place. -/
def placed : State := oneFrame.picked.picked.picked
theorem oneFrame_frees : ∃ a, oneFrame.freeAcc = some a := ⟨_, rfl⟩
theorem oneFrame_places : oneFrame.picked.arenaPlace 1 0x10000 = some (placed, 0x10000) := by
  have h : (oneFrame.picked.ctxAt 1).iodReg 0x068 = 0x10010 := by decide
  have hb : oneFrame.picked.bufs = [] := rfl
  simp [State.arenaPlace, h, State.arenaUse, hb, Nat.mod_one, placed]
theorem oneFrame_maps : placed.mapPages 1 0 1 1 ≠ none := by
  have h : (placed.ctxAt 1).iodReg 0x078 = 1 := by decide
  have hp : (placed.ctxAt 1).pool = [] := by decide
  have hl : placed.leafSlot 1 1 = some (2 ^ 64 + 0x20008) := by decide
  obtain ⟨⟨s, f⟩, hf⟩ : ∃ r, placed.takeFrame 1 = some r := by
    have hl : (placed.ctxAt 1).left = [] := by decide
    rw [← Option.isSome_iff_exists]; simp [State.takeFrame, h, firstFree_one, hp, hl]
  simp [State.mapPages, hl, hf]

theorem witness_NewBuffers : oneFrame.here.cap 7 = 0 ∧ 0 < (oneFrame.here.rd 5).toNat ∧ (oneFrame.here.rd 5).toNat ≤ 2 ^ 40
    ∧ (∃ a, oneFrame.freeAcc = some a) ∧ oneFrame.picked.arenaPlace 1 0x10000 = some (placed, 0x10000)
    ∧ placed.mapPages 1 0 1 1 ≠ none ∧ (∃ a, (regs [(5, 0x10000)]).freeAcc = some a)
    ∧ (regs [(5, 0x10000)]).picked.arenaPlace 1 0x10000 = none :=
  ⟨by decide, by decide, by decide, oneFrame_frees, oneFrame_places, oneFrame_maps, ⟨_, rfl⟩, by decide⟩
theorem witness_Publication : (tile (fun x => { x with ret := some 0 })).here.ret.isSome = true
    ∧ held.here.ret = none ∧ held.here.sent = false ∧ held.slotUse 1 (some 2) = none ∧ (held.buf (accOf (held.here.cap 1))).swapping = none
    ∧ ({ held with bufs := [(9, { aBuf with swapping := some 0 })] } : State).buf 9 = { aBuf with swapping := some 0 }
    ∧ (held.buf 9).shadow = [] ∧ (held.buf 9).staged = [] ∧ (∀ x ∈ held.allCmds, x.writes 9 = false ∧ 9 ∉ x.awaited)
    ∧ (∀ y ∈ (held.buf 9).binds, y.awaited = false ∧ y.writes = false) ∧ (({ held with bufs := [(9, { aBuf with swapping := some 0 })] } : State).swap 9).isSome = true := by
  decide

/-- An entry of an engine's queue. -/
def entryNo (n : Nat) : Entry := { no := n, kind := .run 0x1000 0 1 }
/-- A tile with a step table at s4 and 15 entries in the VE's queue. -/
def queuing : State := tile (fun x => { x with
  s := [(4, 0x1000), (5, 65535), (6, 1)], tvec := 0x100, stamp := 7, ve := { queue := (List.range 15).map entryNo } })

theorem witness_EngineEntriesQueued : queuing.noEngine 0 = false ∧ queuing.noEngine 1 = false ∧ queuing.here.ve.queue.length < 16
    ∧ queuing.ownNear 0 (queuing.here.rd 4) 4 = .ok 0x1000 ∧ (queuing.here.rd 5).toNat + (queuing.here.rd 6).toNat ≤ 65536
    ∧ queuing.latched queuing.here.ve = .ok {} ∧ (queuing.dbc 0).toNat ≤ queuing.here.stamp.toNat ∧ queuing.here.canTrap
    ∧ (queuing.setDie 0 { dbc := 8 }).here.stamp.toNat < ((queuing.setDie 0 { dbc := 8 }).dbc 0).toNat
    ∧ 0x1000 + 4 * (queuing.here.rd 6).toNat ≤ 0xC0000 ∧ (queuing.here.rd 6).toNat ≤ 256 := by decide
theorem witness_EngineEntriesQueued_fpr : (∀ k, queuing.near 1 0x1000 8 ≠ .bad k) ∧ ∀ k, queuing.near 1 (0x1000 + 16) 8 ≠ .bad k :=
  ⟨not_bad (by decide : queuing.near 1 0x1000 8 = .ok 0 0x1000), not_bad (by decide : queuing.near 1 (0x1000 + 16) 8 = .ok 0 0x1010)⟩

/-- A running entry at a step. -/
def runAt (step wend : Nat) : Running := { entry := entryNo 3, base := 0x1000, step := step, wend := wend }
/-- A tile whose engines run an entry. -/
def engaged : State := tile (fun x => { x with
  s := [(4, 0x1000), (5, 65535), (6, 1)], ve := { run := some (runAt 2 4) }, xe := { run := some (runAt 2 4) } })
/-- A task on a vector tile, which has no class engine (R11). -/
def vectorTile : State := { (State.reset.launch 2560).modTile 2560 (fun x => { x with tvec := 0x100 }) with cur := 2560 }

theorem witness_EngineControlAndStop : base.noEngine 0 = false ∧ base.here.ve.queue = [] ∧ base.here.ve.run = none ∧ base.here.xe.queue = []
    ∧ base.here.xe.run = none ∧ base.here.ce.cmds = [] ∧ base.here.ce.chain = none ∧ base.here.ie.cmds = [] ∧ base.here.ie.chain = none
    ∧ base.here.mat.tensor = [] ∧ base.here.ce.chainLast = none ∧ base.here.ie.chainLast = none ∧ base.here.xe.inChunk = false
    ∧ engaged.here.xe.queue = [] ∧ (runAt 2 4).mma = none
    ∧ ({ runAt 2 4 with mma := some (0, 0, 33) } : Running).mma ≠ none ∧ ({ runAt 2 4 with ended := some (0, 4) } : Running).ended ≠ none
    ∧ noXe base.cur = false ∧ engaged.noEngine 1 = false ∧ engaged.here.xe.queue.length < 16 ∧ engaged.ownNear 0 (engaged.here.rd 4) 4 = .ok 0x1000
    ∧ (engaged.here.rd 5).toNat + (engaged.here.rd 6).toNat ≤ 65536 ∧ engaged.here.xe.run = some (runAt 2 4) ∧ (runAt 2 4).ended = none
    ∧ 0 < (engaged.here.rd 6).toNat ∧ vectorTile.here.canTrap ∧ vectorTile.noEngine 1 = true ∧ noXe vectorTile.cur = true := by decide

/-- A tile whose VE has one entry queued, asking for a token. -/
def waiting (k : EntryKind) (stamp : Option Word) : State := { (tile (fun x => { x with
  lcTok := 1, ve := { queue := [{ no := 3, kind := k, pop := true, stamp := stamp }] } })) with arg := { n := 3 } }
/-- A tile whose VE runs an entry that pushes and replies, and has ended. -/
def ending : State := tile (fun x => { x with
  csTok := 7, ve := { run := some { runAt 4 4 with entry := { entryNo 3 with push := true, reply := true }, ended := some (0, 4) } } })

theorem witness_EngineEntries :
    (∀ k ∈ [EntryKind.run 0x1000 0 1, .eset 31 5, .ekld 0x1000 255 256, .eprg 0x1000 0 1 (some 2)], (waiting k none).here.ve.run = none
      ∧ (waiting k none).here.ve.queue = [{ no := 3, kind := k, pop := true }] ∧ (waiting k none).here.ve.flt = false
      ∧ (waiting k none).held 0 = false ∧ (waiting k none).here.tokenReady { no := 3, kind := k, pop := true } = true
      ∧ (waiting k none).here.mayBegin 3 {} = true ∧ (waiting k none).entryStalls 0 { no := 3, kind := k, pop := true } = false)
    ∧ ending.here.ve.run = some { runAt 4 4 with entry := { entryNo 3 with push := true, reply := true }, ended := some (0, 4) }
    ∧ ending.here.csTok < 8 ∧ ending.here.rq.length < 32
    ∧ (let s := waiting (.run 0x1000 0 1) (some 0)
       let q : Entry := { no := 3, kind := .run 0x1000 0 1, pop := true, stamp := some 0 }
       s.here.ve.queue.find? (fun k => decide (k.no = s.arg.n)) = some q ∧ (0 : Word).toNat ≤ (s.dbc 0).toNat ∧ s.dbc 0 = 0
       ∧ s.held 0 = false ∧ s.here.ve.queue.head? = some q ∧ s.here.tokenReady q = true ∧ (s.setDie 0 { dbc := 1 }).dbc 0 ≠ 0 ∧ noFault s)
    ∧ engaged.here.ve.run = some (runAt 2 4)
    ∧ (runAt 2 4).ended.map (·.1) ≠ some 1 ∧ ending.here.mat.tensor = []
    ∧ 2 ^ 22 ≤ ((engaged.setDie 0 { dbc := 0x400000 }).dbc 0 - (runAt 2 4).startBeat).toNat ∧ noFault engaged := by decide

/-- A tile with a command block at 0x1000, of a kind, all else zero. -/
def block (kind : Nat) : State := mems (caught [(4, 0x1000)]) [(0x1000, 1, kind)]
/-- The checks of a block pass, or raise a trap. -/
def blockPasses : Accept → Bool
  | .ok _ => true
  | _ => false
def blockTraps : Accept → Bool
  | .trap _ _ => true
  | _ => false
theorem witness_CommandsIssued : (block 5).here.ce.cmds.length < 32 ∧ (block 5).here.ie.cmds.length < 16 ∧ (block 5).here.reads = []
    ∧ (block 5).ownNear 0 ((block 5).here.rd 4) 64 = .ok 0x1000 ∧ (block 5).landing 0 0x1000 = false
    ∧ blockPasses ((block 5).checkBlock 0 0x1000 .ce (some 3) false) = true
    ∧ blockTraps ((block 1).checkBlock 0 0x1000 .ce (some 3) false) = true ∧ (block 1).here.canTrap
    ∧ (block 0).checkBlock 0 0x1000 .ie (some 3) false = .illegal ∧ ∀ f ∈ (block 0).here.pend, f.source ≠ .ie := by decide +kernel
theorem witness_TransferBarriersAndChains : (base.here.xbar 15).pending = 0
    ∧ ((tile (fun x => { x with s := [(4, 250)], xb := [(15, { pending := 5 })] })).here.xbar 15).pending + 250 ≤ 255
    ∧ (caught [(4, 256)]).here.canTrap ∧ 255 < ((caught [(4, 256)]).here.xbar 15).pending + ((caught [(4, 256)]).here.rd 4).toNat
    ∧ (regs [(4, 0xBFFC0)]).ownNear 0 ((regs [(4, 0xBFFC0)]).here.rd 4) 64 = .ok 0xBFFC0 ∧ base.here.ce.chain = none ∧ base.here.ce.chainLast = none
    ∧ ((Bank.get (w := 16) (tile (fun x => { x with sc := [(2, 32767)] })).here.sc 2).toNat + 2 ^ 16 - 0) % 2 ^ 16 < 2 ^ 15 := by decide
theorem witness_WindowsTokensRepliesAndTime : (0 : BitVec 2) ≠ 3 ∧ (regs [(4, 0xBFFE0), (5, 32)]).ownNear 0 ((regs [(4, 0xBFFE0)]).here.rd 4) 32 = .ok 0xBFFE0
    ∧ 32 % 32 = 0 ∧ 0xBFFE0 + ((regs [(5, 32)]).here.rd 5).toNat ≤ 0xC0000 ∧ base.accesses 0 = [] ∧ base.here.reads = []
    ∧ (tile (fun x => { x with lcTok := 7 })).here.lcTok < 8 ∧ 0 < (tile (fun x => { x with slTok := 1 })).here.slTok
    ∧ base.here.tkAt = none ∧ base.here.unitBefore 0 base.here.issueNo = false ∧ base.here.unitBefore 2 base.here.issueNo = false
    ∧ (tile (fun x => { x with rq := [5] })).here.rq = [5]
    ∧ (tile (fun x => { x with rqHeld := [5] })).here.rq.length < 32 ∧ firstReply (tile (fun x => { x with rqHeld := [5] })).here.rqHeld = some 5
    ∧ (tile (fun x => { x with evLatch := true })).here.evLatch = true ∧ base.here.sleep = none ∧ base.here.promiseDue (base.dbc 0) = false ∧ (base.here.rd 4).toNat ≤ (base.dbc 0).toNat
    ∧ (base.dbc 0).toNat < ((regs [(4, 1)]).here.rd 4).toNat
    ∧ (tile (fun x => { x with sleep := some (true, 0) })).here.sleep = some (true, 0) ∧ (0 : Word).toNat ≤ base.aot.toNat
    ∧ base.held 0 = false ∧ base.here.pend = [] := by decide

/-- A queue of two 8-byte elements at 0x1000, with its head and tail. -/
def queue (head tail : Nat) : State := mems (regs [(4, 0x1000), (6, 0x1000101000)]) [(0x1000, 4, head), (0x1004, 4, tail), (0x1008, 8, 0x1000101000)]
theorem witness_SequencerQueues : qcwOk ((queue 0 0).here.rd 6).toNat = true ∧ (queue 0 0).landing 0 0x1000 = false ∧ (queue 0 1).memOk
    ∧ (queue 0 1).near 1 ((queue 0 1).here.rd 4) 32 = .ok 0 0x1000 ∧ (∀ p ∈ (queue 0 1).accesses 0, p.orders 0 0x1000 32 false = false)
    ∧ qcwOk ((queue 0 1).load 0x1008 8) = true ∧ (queue 0 1).load 0x1008 8 % 2 ^ 20 = 0x1000 ∧ qcwSize ((queue 0 1).load 0x1008 8) ≤ 8
    ∧ ((queue 0 1).load 0x1004 4 + 2 ^ 32 - (queue 0 1).load 0x1000 4) % 2 ^ 32 < qcwDepth ((queue 0 1).load 0x1008 8)
    ∧ (queue 0 1).landing 0 (elemAt ((queue 0 1).load 0x1008 8) ((queue 0 1).load 0x1004 4)) = false
    ∧ (queue 0 1).load 0x1000 4 ≠ (queue 0 1).load 0x1004 4 := by decide
/-- A free entry of a table that lists only entry 0. -/
theorem frees_of_one {α : Type} (x : α) (p : Nat) :
    ∃ n, firstFree (fun k => (FMap.get? [(0, x)] k).isNone) 0 Config.tableSize p 2 = some n := by
  by_cases h : p % 2 ^ 20 = 0
  · refine ⟨1, ?_⟩
    have h1 : (p + 1) % 2 ^ 20 = 1 := by omega
    simp [firstFree, Config.tableSize, FMap.get?, show p % 1048576 = 0 from h, show (p + 1) % 1048576 = 1 from h1]
  · exact ⟨p % 2 ^ 20, by simp [firstFree, Config.tableSize, FMap.get?, show p % 1048576 ≠ 0 from h]⟩

/-- A context whose pages 0 to 8191 lie at HBM 0x2000_0000, writable, and which has one save slot, at 0; the gang of node 0, at
PRIO 64, has run for 100 000 ticks, and node 1, die-wide at PRIO 0, is ready. Only die 0 has compute tiles of class 1. -/
def paged : State :=
  let s := mems (caught [(4, 0x50008), (5, 7)]) [(2 ^ 64, 8, 0x10001), (2 ^ 64 + 0x10000, 8, 0x20000023)]
  let s := s.modCtx 1 (fun c => { c with root := 1, scd := [(0x030, 1)] })
  { s with
    pkg := { s.pkg with linkUp := true, fmapOn := true, fmapDrv := 0x7F, keys := [0], badDies := [1, 2, 3, 4, 5, 6, 7] }
    nodes := [(0, { ctx := 1, rec_ := [0x4000000101], source := .spawn 0, st := .run, cls := 1, gang := [0], vsize := 1, ran := 100000 }),
              (1, { ctx := 1, rec_ := [0x3000101], source := .spawn 0, st := .ready, cls := 1 })] }
/-- The nodes of that state. -/
def low : Node := { ctx := 1, rec_ := [0x4000000101], source := .spawn 0, st := .run, cls := 1, gang := [0], vsize := 1, ran := 100000 }
def high : Node := { ctx := 1, rec_ := [0x3000101], source := .spawn 0, st := .ready, cls := 1 }

/-- One save slot is taken. -/
theorem takes_slot (s : State) (h : s.saveSlots 1 = 1) (hu : (s.ctxAt 1).saveUsed = []) :
    s.takeSlots 1 1 = some (s.picked.modCtx 1 (fun x => { x with saveUsed := 0 :: x.saveUsed }), [0]) := by
  simp [State.takeSlots, h, hu, firstFree_one]
/-- A gang is saved once its slots are taken and open. -/
theorem saves_of (s s1 : State) (n : Nat) (x : Node) (l ks : List Nat) (r : State × List (List Nat))
    (h1 : s.takeSlots x.ctx x.gang.length = some (s1, ks)) (h2 : x.gang.all (s.stopGang x.gang l).savable = true)
    (h3 : s1.openSlots x.ctx true ks = .ok r) : ∃ t, s.saveGang n x l 0 = .ok t := by
  simp [State.saveGang, h1, h2, h3]
/-- The slot's sixteen pages are found. -/
def opened (e : Except (State × Bool) (State × List (List Nat))) : Bool :=
  match e with
  | .ok _ => true
  | .error _ => false
theorem of_opened {e : Except (State × Bool) (State × List (List Nat))} (h : opened e = true) : ∃ r, e = .ok r := by
  cases e with
  | ok r => exact ⟨r, rfl⟩
  | error r => nomatch h
/-- The state once a member's slot has been chosen. -/
def chosen (s : State) : State := s.picked.modCtx 1 (fun x => { x with saveUsed := 0 :: x.saveUsed })
theorem paged_saves : ∃ t, paged.nextPc.saveGang 0 low [] 0 = .ok t := by
  obtain ⟨r, h⟩ := of_opened (e := (chosen paged.nextPc).openSlots 1 true [0]) (by decide +kernel)
  exact saves_of _ _ _ _ _ _ r (takes_slot _ (by decide +kernel) (by decide +kernel)) (by decide +kernel) h

theorem witness_TaskAndRingInstructions : base.here.ret = none ∧ base.here.spawning = none ∧ base.here.task = some 0 ∧ (base.node? 0).isSome = true
    ∧ base.ok ∧ base.spawnBad 0 0 = none ∧ base.admits = true ∧ base.spawnRoom 0 = true
    ∧ (∃ n, firstFree (fun k => (FMap.get? base.nodes k).isNone) 0 Config.tableSize base.pick (base.nodes.length + 1) = some n)
    ∧ (caught [(4, 2), (5, 0xFF)]).here.canTrap ∧ ¬ Fetchable ((caught [(4, 2)]).here.rd 4) ∧ Fetchable ((caught [(5, 0xFF)]).here.rd 4)
    ∧ 7 < ((List.range 64).filter (fun k => ((caught [(5, 0xFF)]).here.rd 5).getLsbD k)).length
    ∧ ((List.range 64).filter (fun k => ((caught [(5, 0x7F)]).here.rd 5).getLsbD k)).length ≤ 7
    ∧ ((List.range 64).filter (fun k => ((caught [(5, 0x7F)]).here.rd 5).getLsbD k)).find? (fun k => decide ((caught []).here.cap k = 0)) = some 0
    ∧ base.alone 0 ∧ (base.node? 0).bind (·.outcome) = none ∧ base.here.allIdle = true ∧ base.accesses 0 = [] ∧ base.here.reads = []
    ∧ (∀ p ∈ base.here.interrupted, p.pc ≠ base.here.pc)
    ∧ base.here.ve.flt = false ∧ base.here.xe.flt = false ∧ base.here.ce.flt = false ∧ base.here.ie.flt = false
    ∧ paged.memOk ∧ (paged.here.rd 4).toNat % 8 = 0 ∧ (paged.here.rd 4).toNat < 2 ^ 55 ∧ paged.here.sent = false
    ∧ paged.walk 1 5 = .leaf (2 ^ 64 + 0x10000) 0x20000023 true ∧ bitN 0x20000023 1 = true
    ∧ (caught [(4, 4)]).here.canTrap ∧ ((caught [(4, 4)]).here.rd 4).toNat % 8 ≠ 0
    ∧ (∀ m ∈ base.nodes, m.2.st = .ready → m.2.cls = 1 → 0 ≤ recPrio m.2.rec_) := by
  refine ⟨by decide, by decide, by decide, by decide, by decide, by decide, by decide, by decide, frees_of_one _ _, ?_⟩
  decide +kernel
/-- A tile with a spawn at its pc that was interrupted after it had taken a handle. -/
def interruptedSpawn : State := tile (fun x => { x with interrupted := [{ pc := x.pc, rec_ := [0x101], handles := [h9], slots := [0], since := 0, starved := 0 }] })
theorem witness_TaskAndRingInstructions_interrupted : interruptedSpawn.here.ret = none ∧ interruptedSpawn.here.spawning = none
    ∧ interruptedSpawn.here.task = some 0 ∧ (interruptedSpawn.node? 0).isSome = true ∧ interruptedSpawn.ok
    ∧ (interruptedSpawn.here.interrupted.find? (fun p => decide (p.pc = interruptedSpawn.here.pc))).isSome = true
    ∧ interruptedSpawn.admits = true ∧ interruptedSpawn.spawnRoom 0 = true
    ∧ (∃ n, firstFree (fun k => (FMap.get? interruptedSpawn.nodes k).isNone) 0 Config.tableSize interruptedSpawn.pick
        (interruptedSpawn.nodes.length + 1) = some n) := by
  refine ⟨by decide, by decide, by decide, by decide, by decide, by decide, by decide, by decide, frees_of_one _ _⟩
theorem witness_TaskAndRingInstructions_yield : paged.ok ∧ paged.here.task = some 0 ∧ paged.node? 0 = some low
    ∧ paged.yieldTo low = some (1, high) ∧ (paged.takeSlots 1 1).isSome = true ∧ ∃ t, paged.nextPc.saveGang 0 low [] 0 = .ok t :=
  ⟨by decide, by decide, by decide, by decide +kernel,
    by rw [takes_slot _ (by decide +kernel) (by decide +kernel)]; rfl, paged_saves⟩
/-- A ring of four entries of context 1, which has taken two. -/
def ringed (a b : Word) : State := { regs [(4, a), (5, b)] with rings := [(1023, { ctx := 1, host := true, base := 0, widx := 0, lsize := 2, head := 2, tail := 3 })] }
theorem witness_TaskAndRingInstructions_tails : (FMap.get? (ringed 1023 6).rings 1023).map (·.ctx) = some (ringed 1023 6).here.ctx
    ∧ ¬ 2 ^ 2 < (6 + 2 ^ 32 - (2 : Word).toNat % 2 ^ 32) % 2 ^ 32 ∧ 1 ≤ (6 + 2 ^ 32 - (3 : BitVec 32).toNat) % 2 ^ 32
    ∧ ¬ 2 ^ 2 < (3 + 2 ^ 32 - (2 : Word).toNat % 2 ^ 32) % 2 ^ 32 ∧ ¬ 1 ≤ (3 + 2 ^ 32 - (3 : BitVec 32).toNat) % 2 ^ 32
    ∧ 2 ^ 2 < (7 + 2 ^ 32 - (2 : Word).toNat % 2 ^ 32) % 2 ^ 32 ∧ FMap.get? (ringed 4 6).rings 4 = none := by decide

/-- A context with a live tag of scope 0, length 64. -/
def tagged (a b d : Word) : State := (caught [(4, a), (5, b), (6, d)]).modCtx 1 (fun c => { c with tags := [{ tag := 0x1000000, len := 64, timeout := 0 }] })
theorem witness_MeetingTags : (tagged 3 2048 0).ok ∧ ((tagged 3 2048 0).here.rd 4).toNat % 16 ≤ 4
    ∧ ((tagged 3 2048 0).here.rd 5).toNat % 32 = 0 ∧ ((tagged 3 2048 0).here.rd 5).toNat ≤ 2048 ∧ ((tagged 3 2048 0).ctxAt 1).tags.length < 4096
    ∧ (tagged 0x1000000 0x1000 0).liveTag 1 ((tagged 0x1000000 0x1000 0).here.rd 4).toNat = some { tag := 0x1000000, len := 64, timeout := 0 }
    ∧ (tagged 0x1000000 0xBFFC0 0x40).near 1 ((tagged 0x1000000 0xBFFC0 0x40).here.rd 5) 32 = .ok 0 0xBFFC0 ∧ 0xBFFC0 + 64 ≤ 0xC0000
    ∧ (tagged 0x1000000 0xBFFC0 0x40).near 1 ((tagged 0x1000000 0xBFFC0 0x40).here.rd 6) 32 = .ok 0 0x40
    ∧ (tagged 0 0 0).here.rd 6 = 0 ∧ (tagged 0x1000000 0xBFFC0 0x40).rangeLanding 0 0xBFFC0 64 = false ∧ (∀ p ∈ (tagged 0x1000000 0xBFFC0 0x40).accesses 0, p.orders 0 0xBFFC0 64 false = false)
    ∧ (tagged 0x1000000 0xBFFC0 0x40).here.acquires = false ∧ (tagged 7 0 0).here.acquires = false
    ∧ (tagged 5 64 0).here.canTrap ∧ 4 < ((tagged 5 64 0).here.rd 4).toNat % 16 ∧ ((tagged 3 2080 0).here.rd 4).toNat % 16 < 4
    ∧ ¬ ((tagged 3 2080 0).here.rd 5).toNat ≤ 2048 ∧ ({ base.pkg with fmapOn := true, fmapDrv := 0x7F } : Pkg).fmapen.getLsbD 6 = true ∧ (tagged 7 0 0).liveTag 1 ((tagged 7 0 0).here.rd 4).toNat = none := by decide
theorem witness_MeetingTags_full :
    let s := (caught [(4, 3), (5, 64)]).modCtx 1 (fun c => { c with tags := List.replicate 4096 { tag := 0, len := 64, timeout := 0 } })
    s.here.canTrap ∧ (s.here.rd 4).toNat % 16 < 4 ∧ (s.here.rd 5).toNat % 32 = 0 ∧ 4096 ≤ (s.ctxAt s.here.ctx).tags.length := by decide +kernel
theorem witness_StateRegisters : (15 : BitVec 10).toNat < 16 ∧ (tile (fun x => { x with hm := true })).here.hm = true
    ∧ ((10 : BitVec 10).toNat ≠ 1 ∧ (10 : BitVec 10).toNat ≠ 11) := by decide
theorem witness_TrapsTaken : (caught []).here.canTrap ∧ (4 : BitVec 10).toNat ∈ [0, 2, 3, 4] := by decide
theorem witness_TrapsWithoutHandlerFail : base.ok ∧ base.alone 0 ∧ (base.node? 0).isSome = true ∧ base.here.tvec = 0
    ∧ (tile (fun x => { x with hm := true })).here.hm = true ∧ pcOk (tile (fun x => { x with tvec := 2 })).here.tvec = false := by decide
theorem witness_HandlersEndAndDeliver :
    (let s := tile (fun x => { x with hm := true, epc := 0x7FFFFFFFFFFFFD }); s.here.hm = true ∧ s.here.epc.toNat < 2 ^ 55 ∧ s.here.handling = none
      ∧ s.ok ∧ s.alone 0 ∧ (s.node? 0).isSome = true ∧ s.here.task.isSome = true)
    ∧ (tile (fun x => { x with hm := true, handling := some .ve })).here.handling = some .ve
    ∧ (let s := tile (fun x => { x with tvec := 0x100, pend := [{ source := .landing, cause := 0x12, tval := 0 }] })
       s.here.pend = [{ source := .landing, cause := 0x12, tval := 0 }] ∧ s.deliverable 0 = true ∧ s.here.canTrap) := by
  decide
/-- A footprint of the whole scratchpad. -/
def whole : Footprint := { rd := [(0, 24576)], wr := [(0, 24576)] }
/-- An engine with values in e registers that runs step 2 of a window that ends at 5. -/
def busy (e : Bank 64) : Engine := { e := e, run := some { runAt 2 5 with entry := { entryNo 3 with fp := whole } } }
/-- A tile whose VE runs an entry: e registers, lanes and masks; the memory holds a queue of two 8-byte records at 0x1000 with
one record in it, and two BF16 lines at 0x2000. -/
def lanes (e : Bank 64) (v : Bank 32) (m : Bank 64) : State :=
  { mems (tile (fun x => { x with ve := busy e, vec := { v := v, m := m } })) [(0x1004, 4, 1), (0x1008, 8, 0x1000101000)] with
    desc := [(0x80, 0x2012), (0x81, 0x2012)] }

theorem witness_VectorFloatResults : base.eng = .ve := by decide
theorem witness_VectorIntegerResults : base.eng = .ve := by decide
theorem witness_VectorMasks : base.eng = .ve ∧ (2 : BitVec 2).toNat * 4 + (1 : BitVec 2).toNat ≤ 9
    ∧ (1 : BitVec 2).toNat * 4 + (1 : BitVec 2).toNat ≤ 5 ∧ (2 : BitVec 2).toNat * 4 + (2 : BitVec 2).toNat = 10 := by decide
theorem witness_VectorConversionsFunctionsAndMoves : base.eng = .ve ∧ (31 : BitVec 5).toNat < 64 := by decide
theorem witness_VectorMemory :
    let s := lanes [(4, 0xBFF00)] [] [(1, 0x8000000000000001)]
    s.eng = .ve ∧ s.memOk ∧ (let on := (List.range 64).filter (fun i => s.here.vec.active 0 i)
      ∀ w ∈ [false, true], s.checkAll (on.map (fun i =>
        { off := ((s.here.ve.rdE 4).toNat % 2 ^ 20 : Nat) + (i : Int) * 4, len := 4, align := 4, write := w })) = .pass)
    ∧ (let on := (List.range 64).filter (fun i => s.here.vec.active 1 i)
      ∀ w ∈ [false, true], s.checkAll (on.map (fun i =>
        { off := ((s.here.ve.rdE 4).toNat % 2 ^ 20 : Nat) + (s.here.vec.lane 7 i : Int), len := 4, align := 4, write := w })) = .pass) := by
  decide +kernel
theorem witness_VectorPruningQuantisingAndStreams :
    let s := lanes [(4, 0xBFFC0), (5, 0x2000), (6, 0x1000)] [(0, 0x0F0F0F0F), (1, 0xF0F0F0F0)] [(1, 0x8000000000000000)]
    let on := (List.range 64).filter (fun i => s.here.vec.active 0 i)
    let q := s.load (nearKey s.cur 0x1000 + 8) 8
    let both := fun (o len : Nat) => s.checkAll [{ off := o, len := len, align := 1, write := false }, { off := o, len := len, align := 1, write := true }]
    s.eng = .ve ∧ s.memOk ∧ (30 : BitVec 5).toNat < 31
    ∧ (∀ q, q < 2048 / pruneWidth 0 / 8 → ((List.range 8).filter (fun j => bitN (s.here.vec.whole 0) (8 * q + j))).length = 4)
    ∧ s.source 1 4 0 0 % 2 ^ 20 = 0xBFFC0 ∧ s.checkAll [{ off := 0xBFFC0, len := 64, align := 64, write := true }] = .pass
    ∧ on ≠ [] ∧ s.source 1 5 0 0 % 2 ^ 20 = 0x2000 ∧ s.accessCheck { off := 0x2000, len := 1, align := 64, write := false } = .pass
    ∧ lineFmt (s.descAt (nearKey s.cur 0x2000)) = some (.flt bf16)
    ∧ (∀ i ∈ on, s.accessCheck { off := (0x2000 + 64 * (i * 16 / 512) : Nat), len := 1, align := 64, write := false } = .pass
        ∧ s.accessCheck { off := ((0x2000 + i * 16 / 8 : Nat) : Int), len := 2, align := 1, write := false } = .pass
        ∧ lineFmt (s.descAt (nearKey s.cur (0x2000 + 64 * (i * 16 / 512)))) = some (.flt bf16))
    ∧ s.source 1 6 0 0 % 2 ^ 20 = 0x1000 ∧ qcwOk q = true ∧ q % 2 ^ 20 = 0x1000 ∧ both 0x1000 32 = .pass ∧ 30 + qcwSize q / 4 ≤ 32
    ∧ (s.load 0x1004 4 + 2 ^ 32 - s.load 0x1000 4) % 2 ^ 32 + ((List.range 64).filter (fun i => s.here.vec.active 1 i)).length ≤ qcwDepth q
    ∧ (∀ i, i < 2 → both (elemAt q i) (qcwSize q) = .pass) := by decide +kernel

/-- A tile both engines of which run step 2 of a table whose steps 3 and 4 are endl, with LC1 at 7. -/
def looping (loops : List Loop) (q : Nat) : State :=
  let g : Engine := { lc := [(1, 7)], run := some { runAt 2 5 with loops := loops } }
  mems (tile (fun x => { x with ve := g, xe := g })) [(0x1010, 4, 0x52000000), (0x100C, 4, q)]
theorem witness_EngineControls :
    let s := looping [] 0
    let r := runAt 2 5
    let word := fun (s : State) (j : Nat) => s.load (nearKey s.cur (r.base + 4 * j)) 4
    (s.here.engine s.eng).run = some r ∧ s.eng = .ve ∧ (({ s with eng := .xe } : State).here.engine .xe).run = some r
    ∧ r.step + 2 < r.wend ∧ r.base + 4 * 4 + 4 ≤ 0xC0000 ∧ word s 4 = 0x52000000 ∧ r.loops.length < 4
    ∧ (∀ l ∈ r.loops, l.lc ≠ 1) ∧ (∀ l ∈ r.loops.head?, 4 < l.c) ∧ (∀ l ∈ r.loops, l.piped = false) ∧ (2 - 1) % 1 = 0 ∧ 1 ≤ 2 - 1
    ∧ (∀ j, j < 2 - 1 → word s (r.step + 1 + j) / 2 ^ 24 ≠ 0x50 ∧ word s (r.step + 1 + j) / 2 ^ 24 ≠ 0x51)
    ∧ (Bank.get (w := 24) (s.here.engine s.eng).lc 1).toNat ≠ 0 ∧ (Bank.get (w := 24) (s.here.engine s.eng).lc 2).toNat = 0
    ∧ noFault s ∧ ¬ r.step + 3 < r.wend ∧ word (looping [] 0x50000000) 3 / 2 ^ 24 = 0x50
    ∧ (let l : Loop := { p := 0, c := 2, k := 6, passes := 7, trip := 7, stages := 1, lc := 1, piped := true }
       let s := looping [l] 0
       (s.here.engine s.eng).run = some { r with loops := [l] } ∧ l.c = r.step)
    ∧ (∀ l ∈ r.loops.head?, l.c ≠ r.step) := by decide +kernel

/-- A tile whose class engine runs an entry; line 0x8000 on holds metadata, line 0x9000 BF16 elements. -/
def matrix (e : Bank 64) (m : Mat) (b : Nat) : State := { tile (fun x => { x with xe := busy e, mat := m, ebud := b }) with
  eng := .xe, desc := (List.range 24).map (fun k => (0x200 + k, (0x50 : BitVec 16))) ++ (List.range 8).map (fun k => (0x240 + k, (0x2012 : BitVec 16))) }
theorem witness_MatrixRegisters :
    let s := matrix [(4, 0x8000), (6, 0x000000000B)] {} 0
    s.eng = .xe ∧ noDrains s ∧ s.here.mat.phys.length = 8 ∧ s.freeTile = some 8 ∧ s.eReg 5 = 0
    ∧ s.rowLines (s.eReg 4 % 2 ^ 20) 0 ((List.range 32).flatMap (fun i => linesFrom (s.eReg 4 % 2 ^ 20 + i * 0) 128)) false = .pass
    ∧ (s.eReg 4 % 2 ^ 20) % 64 = 0
    ∧ (∀ l ∈ linesFrom (s.eReg 4 % 2 ^ 20) 1536, s.accessCheck (lineAccess l false) = .pass
        ∧ (s.descAt (nearKey s.cur l)).toNat % 256 = 0x50 ∧ (s.descAt (nearKey s.cur l)).toNat < 2 ^ 14)
    ∧ (11 : BitVec 4).toNat ≤ 11 ∧ s.eReg 6 < 2 ^ 40 ∧ s.eReg 6 / 2 ^ 4 % 2 ^ 16 = 0 ∧ s.eReg 6 % 16 ≤ 11 := by decide +kernel
theorem witness_MatrixProducts :
    let s := fun (sh b : Nat) => matrix [(4, 0x9000), (6, BitVec.ofNat 64 sh), (8, 0x9000)] {} b
    let o := mmaOf 1 2 4 8 0 0 0
    (s 0x101 1000).eng = .xe ∧ noDrains (s 0x101 1000) ∧ (s 0x101 1000).mmaShape o = some (1, 1) ∧ (s 0x101 1000).mmaAt = none
    ∧ (s 0x101 1000).mmaIssue o = .go 33 ∧ o.debit 16 1 ≤ (s 0x101 1000).here.ebud ∧ (s 0x101 1000).chunkCheck o 1 1 33 0 = .pass
    ∧ ({ s 0x101 0 with tiles := [(0, { (s 0x101 0).here with xe := { busy [(4, 0x9000), (6, 0x101), (8, 0x9000)] with
          run := some { runAt 2 5 with mma := some (0, 0, 33) } } })] } : State).mmaAt = some (0, 0, 33)
    ∧ (s 0x100 0).mmaShape o = some (0, 1) ∧ (s 0x100 0).mmaIssue o = .empty
    ∧ (s 0x2020 0).mmaShape o = some (32, 32) ∧ (s 0x2020 0).mmaIssue o = .go 33 ∧ (s 0x2020 0).stamped = false
    ∧ (s 0x2020 0).here.ebud < o.debit 16 32 := by decide +kernel
theorem witness_DrainsAndButterflies :
    let s := fun (r : Nat) => { matrix [(4, 0x9000), (6, 0x800000010), (7, 0x40), (9, 0x802000010), (10, 0x40), (14, BitVec.ofNat 64 r), (16, 0xA000), (17, 0x40)]
      { b := [(0, 0x200000000)] } 0 with eng := .xe }
    (s 1).eng = .xe ∧ (s 1).memOk ∧ noDrains (s 1)
    ∧ (∃ o, (s 1).drainOp 4 6 = some o ∧ (s 1).here.mat.ty.getLsbD 0 = o.tgt.isInt ∧ (s 1).rowLines o.base o.dstr o.lines true = .pass
        ∧ o.word = none ∧ (s 1).tensorCheck o = .pass)
    ∧ (∃ o, (s 1).drainOp 4 9 = some o ∧ (s 1).here.mat.ty.getLsbD 0 = o.tgt.isInt ∧ (s 1).rowLines o.base o.dstr o.lines true = .pass
        ∧ (s 1).tensorCheck o = .pass ∧ o.word = some 0x40 ∧ (s 1).here.mat.tensor = [] ∧ (s 1).near 1 0x40 4 = .ok 0 0x40
        ∧ (s 1).tensorLanding 0 0 0x40 (s 1).entryNo = false ∧ (s 1).accesses 0 = [] ∧ (s 1).here.reads = []
        ∧ ∀ l, l < 2 * o.tgt.width → 0x40 + 4 ≤ nearKey 0 (o.line l) ∨ nearKey 0 (o.line l) + 64 ≤ 0x40)
    ∧ (∀ b ∈ [false, true], (∃ o, (s 32).bflyOp b 12 7 1 0 false true true true = some o ∧ o.rows = 32 ∧ o.acc = some 7
          ∧ (s 32).here.mat.ty.getLsbD 7 = false ∧ (s 32).bflyCheck o = .pass)
        ∧ ∃ o, (s 2).bflyOp b 12 16 1 0 false false true true = some o ∧ o.rows = 2 ∧ o.acc = none ∧ (s 2).bflyCheck o = .pass) := by
  refine ⟨by decide, by decide, by decide, ⟨_, rfl, by decide +kernel⟩, ⟨_, rfl, by decide +kernel⟩, ?_⟩
  intro b hb
  simp only [List.mem_cons, List.not_mem_nil, or_false] at hb
  rcases hb with rfl | rfl
  · exact ⟨⟨_, rfl, by decide +kernel⟩, ⟨_, rfl, by decide +kernel⟩⟩
  · exact ⟨⟨_, rfl, by decide +kernel⟩, ⟨_, rfl, by decide +kernel⟩⟩
/-- The class engine of tile 0 waits to make an update of the tensor word at `a`. -/
def updating (a : Word) : State := tile (fun x => { x with mat := { tensor := [{ addr := a, enc := 5, ord := 1, eF := 3, flags := 2, no := 3 }] } })
theorem witness_DrainsAndButterflies_tensor : (updating 0x40).eng = .ve ∧ ({ updating 0x40 with eng := .xe } : State).eng = .xe ∧ (updating 0x40).memOk
    ∧ (updating 0x40).here.mat.tensor ≠ [] ∧ (updating 0x40).findNear 1 0x40 = .ok 0 0x40 ∧ (updating 0x40).tensorLanding 0 0 0x40 3 = false
    ∧ (updating 0xC0000).findNear 1 0xC0000 = .bad 0x03 := by decide
theorem witness_DrainsAndButterflies_rows : ∀ i j : Nat, i < 2 → j < 2 → i ≠ j →
    (0xA000 + i * 0x40 + 8 ≤ 0 + j * 0 ∨ 0 + j * 0 + 8 ≤ 0xA000 + i * 0x40) ∧ (0xA000 + i * 0x40 + 8 ≤ 0xA000 + j * 0x40 ∨ 0xA000 + j * 0x40 + 8 ≤ 0xA000 + i * 0x40) := by
  omega

/-- A tile that sorts: the first operand at 0x1000 with payloads at 0x2000, two elements; the second at 0x3000, one; the output at
0x4000 with payloads at 0x5000. -/
def sorting : State := matrix [(4, 0x1000), (5, 0x2000), (6, 2), (8, 0x3000), (10, 1), (12, 0x4000), (13, 0x5000)] {} 0
theorem witness_SortResults : sorting.eng = .xe ∧ sorting.memOk
    ∧ (∀ op ∈ [SortOp.sort, .topk, .merge, .segsort, .uniq], ∀ kt, kt < 5 → sorting.sortIllegal op 4 8 12 kt false true = false
        ∧ sorting.sortInputs op 4 8 kt true = .pass)
    ∧ sorting.sortIllegal .rankof 4 8 12 4 true false = false ∧ sorting.sortInputs .rankof 4 8 4 false = .pass
    ∧ (∀ n, n < 4 → sorting.checkAll (arrayAccess 0x4000 (8 * n) 8 true ++ arrayAccess 0x5000 (4 * n) 4 true) = .pass)
    ∧ (∀ n, n < 4 → apart 0x4000 (8 * n) 0x5000 (4 * n)) ∧ (List.range 1).Pairwise (fun x y => precedes 0 false y x = false) := by decide +kernel

/-- A tile with a matrix of one entry at 0x1000 and room for a product at 0x2000. -/
def sparse : State := mems (matrix [(4, 0x1000), (6, 0x2000), (8, 0x3000), (9, 512), (10, 256), (12, 0x3800), (13, 4)] {} 0)
  [(0x1000, 4, 1), (0x1004, 4, 1), (0x1008, 2, 0x0110), (0x100C, 4, 1), (0x1010, 4, 0x1100), (0x1014, 4, 0x1200), (0x1018, 4, 0x1300), (0x101C, 4, 0x1400),
   (0x1104, 4, 1), (0x200C, 4, 1), (0x2010, 4, 0x2100), (0x2014, 4, 0x2200), (0x2018, 4, 0x2300)]
theorem witness_SparseResults : sparse.eng = .xe ∧ sparse.memOk ∧ sparse.stamped = false ∧ sparse.matrixCheck 0x1000 true = .pass
    ∧ sparse.checkAll (arrayAccess 0x3000 4 4 false ++ arrayAccess 0x3800 4 4 false ++ arrayAccess 0x3800 4 4 true) = .pass
    ∧ (sparse.readHead 0x1000).rows = 1 ∧ (sparse.readHead 0x1000).cols = 1 ∧ sparse.eReg 10 = 256 ∧ sparse.eReg 9 % 2 = 0 ∧ 256 * 2 ≤ sparse.eReg 9
    ∧ (12 : BitVec 5).toNat + 2 < 32 ∧ 0x3800 % 4 = 0 ∧ sparse.eReg 13 % 4 = 0
    ∧ (let rows := fun (base str count len al : Nat) (wr : Bool) => (List.range count).flatMap (fun i => arrayAccess (base + i * str) len al wr)
       sparse.checkAll (rows 0x3000 512 1 512 2 false) = .pass
       ∧ sparse.checkAll (rows 0x3800 4 1 1024 4 false ++ rows 0x3800 4 1 1024 4 true) = .pass)
    ∧ (sparse.readHead 0x1000).rows = (sparse.readHead 0x1000).cols ∧ sparse.checkAll (headAccess 0x2000 false ++ headAccess 0x2000 true) = .pass
    ∧ sparse.outBad (sparse.readHead 0x2000) = none
    ∧ sparse.checkAll (arrayAccess 0x2100 8 4 true ++ arrayAccess 0x2200 4 4 true ++ arrayAccess 0x2300 4 4 true) = .pass
    ∧ apart 0x2100 8 0x2200 4 ∧ apart 0x2100 8 0x2300 4 ∧ apart 0x2200 4 0x2300 4 ∧ apart 0x2100 8 0x2000 64 ∧ apart 0x2200 4 0x2000 64
    ∧ apart 0x2300 4 0x2000 64 ∧ (sparse.readHead 0x1000).tdoff ≠ 0 ∧ sparse.checkAll (arrayAccess 0x1400 8 8 true) = .pass := by decide +kernel
/-- A block with these fields: first byte, length, value; its footprint is the whole scratchpad. -/
def blockOf (l : List (Nat × Nat × Nat)) : BitVec 512 :=
  BitVec.ofNat 512 ((l ++ [(40, 4, 24576 * 2 ^ 15), (56, 4, 24576 * 2 ^ 15)]).map (fun (f : Nat × Nat × Nat) => f.2.2 % 256 ^ f.2.1 * 256 ^ f.1)).sum
/-- A command of a queue that has begun. -/
def begun (q : Que) (l : List (Nat × Nat × Nat)) : Cmd := { no := 4, que := q, blk := blockOf l, at_ := 0, xb := some 3, begun := true }
/-- A tile whose command engines hold a command each. -/
def moving (c d : Cmd) : State := args (tile (fun x => { x with ce := { cmds := [c] }, ie := { cmds := [d] } })) { que := c.que }
/-- Command blocks that move 8 bytes from 0x100 to 0xBFFF8: COPY, GFILL, FILL; GATHER and SCATTER with the table at 0x100. -/
def moves (kind : Nat) : Cmd :=
  if kind = 0x10 ∨ kind = 0x12 then begun .iq [(0, 1, kind), (18, 6, 0x100), (24, 3, 0xBFFF8), (28, 3, 0x300), (32, 2, 8), (34, 2, 1), (36, 4, 8)]
  else if kind = 0x02 then { begun .lq [(0, 1, kind), (18, 5, 0x100), (23, 5, 0xBFFF8), (28, 2, 8), (30, 2, 1)] with idx := [0] }
  else begun .lq [(0, 1, kind), (18, 5, 0x100), (23, 5, 0xBFFF8), (28, 2, 8)]
theorem witness_TransfersRun :
    ∀ kind ∈ [0x01, 0x02, 0x04, 0x10, 0x12],
      let c := moves kind
      let s := moving (moves 0x01) c
      let s := if kind = 0x10 ∨ kind = 0x12 then s else moving c (moves 0x10)
      let q := if kind = 0x10 ∨ kind = 0x12 then Que.iq else .lq
      let c1 := if (kind = 0x10 ∨ kind = 0x12) ∧ c.idx = [] then { c with idx := (List.range c.nidx).map (fun k => s.load (nearKey s.cur (c.ioff + c.iw * k)) c.iw) } else c
      let rows := s.rowsOf s.cur c1
      s.memOk ∧ s.arg.n = 0 ∧ (kind = 0x10 ∨ kind = 0x12 ∨ q = s.arg.que ∧ q ≠ .iq) ∧ running s q c ∧ c.kind = kind ∧ c.pos = 0 ∧ c.sub = 0
      ∧ c.held = none ∧ c.count = 0 ∧ rows.length = 1 ∧ c.nRows = 1 ∧ (kind = 0x10 ∨ kind = 0x12 → c.idx = [])
      ∧ (∀ k, k < c.nidx → s.rangeWaits s.cur c (c.ioff + c.iw * k) c.iw = false)
      ∧ ∀ r ∈ rows, r.bad = false ∧ 0 < r.len ∧ (∀ j, j < r.len → ownPlace s c (r.dst + j))
        ∧ (∀ p ∈ r.src, ∀ j, j < r.len → ownPlace s c (p + j)) ∧ apart (r.dst % 2 ^ 20) r.len c.ioff (c.iw * c.nidx)
        ∧ (∀ p ∈ r.src, (kind = 0x02 ∨ kind = 0x10) → uncovered c.fp.rd (p % 2 ^ 20) r.len = none)
        ∧ (kind = 0x12 → uncovered c.fp.wr (r.dst % 2 ^ 20) r.len = none) := by decide +kernel
theorem witness_TransfersRun_others :
    (let c := begun .sq [(0, 1, 0x05), (16, 1, 1)]
     let s := moving c (moves 0x10)
     .sq = s.arg.que ∧ running s .sq c ∧ c.kind = 0x05 ∧ c.pos = 0)
    ∧ (let c := { begun .sq [(0, 1, 0x05), (1, 1, 4), (16, 1, 1)] with begun := false }
       let s := (moving c (moves 0x10)).setHere { (moving c (moves 0x10)).here with csTok := 1 }
       .sq = s.arg.que ∧ (s.here.cengine .ce).headOf .sq = some c ∧ c.kind = 0x05 ∧ c.pos = 0 ∧ c.begun = false ∧ c.ended = none ∧ c.park = none
       ∧ s.held s.cur = false ∧ s.here.ce.flt = false ∧ c.chainOk s.here = true ∧ s.behindSwap c = false ∧ s.here.mayBegin c.no c.fp = true
       ∧ c.wantsToken = true ∧ 0 < s.here.tokens c.pops ∧ s.here.tkpopBefore c.pops c.no = false ∧ s.here.unitBefore c.pops c.no = false)
    ∧ (let c := begun .sq [(0, 1, 0x03), (18, 5, 0xBFFC0), (23, 5, 0x1040), (28, 2, 64), (30, 2, 3)]
       let s := moving c (moves 0x10)
       .sq = s.arg.que ∧ Que.sq ≠ .iq ∧ running s .sq c ∧ c.kind = 0x03 ∧ c.pos = 0 ∧ c.held = none ∧ c.xlen = 64
       ∧ ∀ j, j < c.xlen → ownPlace s c (c.ssrc + j)) := by
  decide +kernel

/-- A tile that runs an index command with a dense array at 0x3000, its index words at 0x1000 and its table at 0x2000. -/
def indexing (kind mode table x4 : Nat) (f : Cmd → Cmd) (l : List (Nat × Nat × Nat)) : State :=
  { mems (moving (moves 0x01) (f (begun .iq [(0, 1, kind), (16, 1, table), (17, 1, mode), (18, 6, 0x2000), (24, 3, 0x3000), (28, 3, 0x1000),
      (32, 2, 64), (34, 2, 1), (36, 4, x4)]))) l with desc := [(0x80, 0x2010), (0xC0, 0x2010)] }
/-- Its command. -/
def indexed (kind mode table x4 : Nat) : Cmd := begun .iq [(0, 1, kind), (16, 1, table), (17, 1, mode), (18, 6, 0x2000), (24, 3, 0x3000),
  (28, 3, 0x1000), (32, 2, 64), (34, 2, 1), (36, 4, x4)]
/-- A read of lines gives `n` values and changes nothing. -/
def linesGive (s : State) (n : Nat) : Lines → Bool
  | .ok t l => decide (t = s ∧ l.length = n)
  | _ => false
/-- A line is read with a record that passes a test. -/
def fetchGives (p : LineRead → Bool) : Got → Bool
  | .line _ r => p r
  | _ => false
theorem lines_give {s : State} {n : Nat} {x : Lines} (h : linesGive s n x = true) : ∃ l, l.length = n ∧ x = .ok s l := by
  cases x with
  | ok t l => simp only [linesGive, decide_eq_true_eq] at h; exact ⟨l, h.2, by rw [h.1]⟩
  | _ => nomatch h

/-- The bag `b` of a command opens from `lo` to `hi`, and its keys can be read. -/
abbrev opensAs (s : State) (c : Cmd) (b lo hi : Nat) : Prop := c.bag = none ∧ s.rangeWaits s.cur c (c.ioff + 4 * b) 8 = false
  ∧ s.bagWord s.cur c b = lo ∧ s.bagWord s.cur c (b + 1) = hi ∧ lo < 2 ^ 28 ∧ hi < 2 ^ 28
  ∧ ∀ i, i < hi - lo → uncovered c.fp.rd (c.keyOff (lo + i)) 4 = none ∧ s.rangeWaits s.cur c (c.keyOff (lo + i)) 4 = false

theorem witness_IndexCommandsRun_firsts :
    (let c := { indexed 0x15 2 0 0 with sub := 0 }
     let s := { indexing 0x15 2 0 0 id [] with arg := { n := 1 } }
     s.memOk ∧ running s .iq c ∧ s.arg.n = 1 ∧ c.pos = 0 ∧ c.kind = 0x15 ∧ 64 * c.sub < c.nidx * c.rowb ∧ s.rangeWaits s.cur c 0x3000 64 = false
     ∧ c.noff + 64 * c.sub = 0x3000)
    ∧ (let c := indexed 0x16 2 0 1
       let s := { indexing 0x16 2 0 1 id [] with arg := { n := 1 } }
       running s .iq c ∧ c.pos = 0 ∧ c.kind = 0x16 ∧ s.rangeWaits s.cur c c.ioff 4 = false) := by decide +kernel
theorem witness_IndexCommandsRun_gpool :
    let c := indexed 0x11 24 0 64
    let s := indexing 0x11 24 0 64 id [(0x1004, 4, 1)]
    s.memOk ∧ running s .iq c ∧ s.arg.n = 0 ∧ c.kind = 0x11 ∧ c.pos + 1 = c.nidx ∧ c.sub = 0 ∧ opensAs s c 0 0 1
    ∧ s.rangeWaits s.cur c c.noff c.orowb = false ∧ bitN c.mode 4 = true ∧ s.rangeWaits s.cur c (c.noff + c.nidx * c.orowb) 4 = false
    ∧ c.orowb % 64 = 0 ∧ c.rowb % 64 = 0 ∧ c.mode % 4 ≠ 3 ∧ c.rowPlace (s.key s.cur c 0) = 0x2000
    ∧ placeFar 0x2000 = false ∧ s.rowInside s.cur c 0x2000 = true ∧ s.nearBreach s.cur c.fp.rd 0x2000 c.rowb = none
    ∧ linesGive s 16 (s.readLines s.cur .ie c (poolFmt (bitN c.mode 3)) 0x2000 (c.rowb / 64)) = true := by decide +kernel
theorem witness_IndexCommandsRun_scadd :
    (let c := indexed 0x13 0 0 64
     let s := indexing 0x13 0 0 64 id []
     running s .iq c ∧ c.kind = 0x13 ∧ (s.nextIndex s.cur c).map (fun k => k.idx.getD c.pos 0) = some 0 ∧ c.pos + 1 = c.nidx ∧ c.sub % 32 = 0
     ∧ 64 * (c.sub / 32 + 1) = c.rowb ∧ c.rowPlace 0 = 0x2000 ∧ s.rowInside s.cur c 0x2000 = true
     ∧ s.rangeWaits s.cur c 0x3000 64 = false ∧ s.nearBreach s.cur c.fp.rd 0x2000 64 = none ∧ s.nearBreach s.cur c.fp.wr 0x2000 64 = none
     ∧ addFmt (s.descAt (nearKey s.cur 0x3000)) = some (.flt fp32) ∧ placeFar 0x2000 = false ∧ ownPlace s c 0x2000
     ∧ addFmt (s.descAt (ownKey s 0x2000)) = some (.flt fp32))
    ∧ (let f := fun (c : Cmd) => { c with caps := [(0, h9, 0)] }
       let c := f (indexed 0x13 2 128 64)
       let s := indexing 0x13 2 128 64 f []
       let s := { s with
         bufs := [(9, { aBuf with stage := [(16, 0x30000)] })], desc := s.desc ++ [(2 ^ 58 + 0x80, 0x2010)]
         tlb := [{ holder := streamHolder s.cur .ie, ctx := 1, vpn := 16, pte := 0x21, large := false, vgen := 0, owner := 9 }] }
       let p := c.rowPlace 0
       running s .iq c ∧ c.kind = 0x13 ∧ placeFar p = true ∧ bitN c.mode 1 = true ∧ s.rowInside s.cur c p = true ∧ (s.buf (c.bound (placeSlot p)).1).proxy = none
       ∧ s.nearBreach s.cur c.fp.rd p 64 = none ∧ fetchGives (fun r => decide (r.desc = 0x2010)) (s.fetchLine s.cur .ie c p false true) = true
       ∧ (s.stageFor (streamHolder s.cur .ie) 1 9 (s.farVa c p / 2 ^ 16)) = .ok s 0x30000
       ∧ addFmt 0x2010 = some (.flt fp32)) := by decide +kernel
/-- A bag of key 5; bucket 0 holds key 7, and bucket 1 key `n`. -/
def hashing (n : Nat) : State := indexing 0x14 1 0 0 id [(0x1004, 4, 1), (0x1008, 4, 5), (0x2000, 4, 7), (0x2080, 4, n)]
theorem witness_IndexCommandsRun_hashacc_bucket : ∀ n ∈ [0xFFFFFFFF, 8],
    let c := indexed 0x14 1 0 0
    running (hashing n) .iq c ∧ opensAs (hashing n) c 0 0 1 ∧ (hashing n).key 0 c 0 = 5 ∧ c.rowb % 64 = 0 ∧ c.bound 0 = (0, 0) ∧ c.mode = 1
    ∧ linesGive (hashing n) 16 ((hashing n).readLines 0 .ie c hashFmt ((hashing n).here.vtile * 2 ^ 20 + c.noff) (c.rowb / 64)) = true
    ∧ 5 * 0x9E3779B1 % 2 ^ 32 / 2 ^ (32 - c.mode) = 0 ∧ (hashing n).load (nearKey 0 0x2000) 4 ≠ 5 ∧ (hashing n).load (nearKey 0 0x2000) 4 ≠ 0xFFFFFFFF
    ∧ (hashing n).rangeWaits 0 c 0x2000 4 = false ∧ (hashing n).rangeWaits 0 c 0x2080 4 = false ∧ (hashing n).rangeWaits 0 c 0x2080 128 = false
    ∧ (hashing n).load (nearKey 0 0x2080) 4 = n := by decide +kernel
theorem witness_IndexCommandsRun_hashacc :
    (let c := indexed 0x14 1 0 0
     let s := indexing 0x14 1 0 0 id []
     running s .iq c ∧ c.kind = 0x14 ∧ c.x4 < c.nidx ∧ c.x4 + c.pos + 1 = c.nidx ∧ c.sub = 0 ∧ opensAs s c 0 0 0)
    ∧ (let c := indexed 0x14 1 0 0
       let s := indexing 0x14 1 0 0 id [(0x1004, 4, 1), (0x1008, 4, 0xFFFFFFFF)]
       opensAs s c 0 0 1 ∧ s.key s.cur c 0 = 0xFFFFFFFF) := by decide +kernel
theorem witness_IndexCommandsRun_densify :
    let c := { indexed 0x15 2 0 0 with pos := 1 }
    let s := indexing 0x15 2 0 0 (fun c => { c with pos := 1 }) [(0x1004, 4, 2), (0x1008, 4, 15), (0x100C, 4, 16)]
    running s .iq c ∧ c.kind = 0x15 ∧ c.pos = 0 + 1 ∧ c.nidx = 0 + 1 ∧ c.sub = 0 ∧ opensAs s c 0 0 2 ∧ placeFar c.table = false
    ∧ c.noff = 0x3000 ∧ c.rowb = 64 ∧ c.w = 4 ∧ s.rangeWaits s.cur c 0x3000 64 = false
    ∧ ∀ p ∈ [0, 1], apart (c.keyOff p) 4 0x3000 64 ∧ (s.key s.cur c p < 16 → (c.table + p * 4) / 2 ^ 20 = s.here.vtile ∧ (c.table + p * 4) % 2 ^ 20 + 4 ≤ 0xC0000
       ∧ s.nearBreach s.cur c.fp.rd (c.table + p * 4) 4 = none ∧ apart ((c.table + p * 4) % 2 ^ 20) 4 0x3000 64 ∧ ∀ j, j < 4 → ownPlace s c (c.table + p * 4 + j)) := by decide +kernel
theorem witness_IndexCommandsRun_compact :
    let c := { indexed 0x16 2 0 1 with pos := 1 }
    let s := fun l => indexing 0x16 2 0 1 (fun c => { c with pos := 1 }) l
    let found := fun (s : State) => (List.range (c.rowb / c.w)).filter (fun k => decide (s.load (nearKey s.cur (c.noff + k * c.w)) c.w ≠ 0))
    let one := s [(0x3004, 4, 8)]
    let two := s [(0x3004, 4, 8), (0x303C, 4, 9)]
    running one .iq c ∧ running two .iq c ∧ c.kind = 0x16 ∧ c.pos = 0 + 1 ∧ c.nidx = 0 + 1 ∧ c.sub = 0
    ∧ one.rangeWaits one.cur c c.noff c.rowb = false ∧ one.rangeWaits one.cur c (c.ioff + 4) 4 = false ∧ one.rangeWaits one.cur c (c.keyOff 0) 4 = false
    ∧ two.rangeWaits two.cur c c.noff c.rowb = false
    ∧ found one = [1] ∧ c.count + (found one).length ≤ c.x4 % 2 ^ 16 ∧ ¬ c.count + (found two).length ≤ c.x4 % 2 ^ 16 ∧ placeFar c.table = false
    ∧ (∀ j, j < c.w → ownPlace one c (c.table + j)) ∧ apart (c.table % 2 ^ 20) c.w c.ioff (c.keyOff 1 - c.ioff)
    ∧ apart (c.table % 2 ^ 20) c.w c.noff c.rowb ∧ apart c.ioff (c.keyOff 1 - c.ioff) c.noff c.rowb := by decide +kernel
/-- A landing write of one byte, of a unit, at the last scratchpad line of tile 0, which it has reached. -/
def landedOf (u : LandUnit) : Landing := { routeTo 5 0 with unit := u, line := 0x2FFF, data := [(63, 9)], desc := none, arrived := true }
/-- One of command 2 of tile 5. -/
def landed : Landing := landedOf (.cmd 5 2)
/-- Tile 0 with the result of meeting 3 for its first partner at the last line of a window in use; its destination is as given. -/
def resulting (dest : Word) (moved : Bool) : State :=
  let o : Operand := { ctx := 1, tag := 0x1000000, op := 0, node := 0, vtile := 0, ptile := 0, data := [], dest := dest }
  let s := tile (fun x => { x with win := [(2, { base := 0xBFFC0, len := 64, inUse := true })] })
  let s := if moved then s.modCtx 1 (fun c => { c with tmap := [(0, { phys := 5 })] }) else s
  { s with land := [landedOf (.meeting 6)], meetings := [{ id := 3, a := o, b := o, data := [], st := 0 }] }
/-- A tile with an ended command that pushes, replies and posts. -/
def endedCmd : Cmd := { begun .lq [(0, 1, 0x01), (1, 1, 26), (2, 1, 0x20), (6, 1, 1)] with ended := some { code := 1, st := 1, val := 5 } }
/-- The chain of engine `e` goes on at 0x1000. -/
def chained (s : State) : State := s.setHere { s.here with ce := { s.here.ce with chain := some 0x1000 } }
theorem witness_InFlight :
    (let s := { base with land := [landed] }
     s.memOk ∧ s.land[s.arg.n]? = some landed ∧ landed.arrived = true ∧ s.held landed.dst = false ∧ (s.tile landed.dst).inUse landed.line = false
     ∧ s.landsAt landed = .ok landed.dst 0xBFFC0 ∧ s.land.take s.arg.n = [])
    ∧ (let s := resulting 0xBFFC0 false
       let r := landedOf (.meeting 6)
       s.land[s.arg.n]? = some r ∧ r.arrived = true ∧ s.held r.dst = false ∧ (s.tile r.dst).inUse r.line = true ∧ s.landsAt r = .ok r.dst 0xBFFC0
       ∧ (∀ d ∈ (s.tile r.dst).pend, d.source ≠ .landing)
       ∧ (resulting 0xC0000 false).landsAt r = .bad 0x03 ∧ (resulting 0xBFFC0 true).landsAt r = .ok 5 0xBFFC0 ∧ 5 ≠ r.dst)
    ∧ (let s := moving endedCmd (moves 0x10)
       (s.here.cengine .ce).headOf s.arg.que = some endedCmd ∧ endedCmd.ended = some { code := 1, st := 1, val := 5 } ∧ s.here.rq.length < 32
       ∧ bitN (endedCmd.byte 1) 3 = true ∧ bitN (endedCmd.byte 1) 4 = true ∧ s.here.tokens endedCmd.pushes < 8 ∧ s.receivers s.here.ctx endedCmd = [] ∧ s.landingsOf s.cur endedCmd.no = [])
    ∧ (let s := chained (block 5)
       s.here.ce.chain = some 0x1000 ∧ s.here.ce.flt = false ∧ s.here.cengFull .ce = false ∧ s.held s.cur = false ∧ s.ownNear s.cur 0x1000 64 = .ok 0x1000
       ∧ s.landing s.cur 0x1000 = false ∧ blockPasses (s.checkBlock s.cur 0x1000 .ce none true) = true)
    ∧ (let s := chained (block 0)
       s.checkBlock s.cur 0x1000 .ce none true = .illegal ∧ s.here.rq.length < 32 ∧ s.ownNear s.cur 0xC0000 64 = .error 0x03)
    ∧ (let c := { begun .lq [(0, 1, 1)] with promise := some 5 }
       let s := (args (moving c (moves 0x10)) { n := 4 }).setDie 0 { dbc := 5 }
       s.here.ce.cmds.find? (fun k => decide (k.no = s.arg.n)) = some c ∧ c.promise = some 5 ∧ c.ended = none ∧ (5 : Word).toNat ≤ (s.dbc s.cur).toNat
       ∧ ∀ d ∈ s.here.pend, d.source ≠ .promise) := by decide +kernel

/-- A landing write to a window that is saved waits. -/
theorem witness_InFlight_saved :
    let s := { resulting 0x100000 false with nodes := [(0, { ctx := 1, rec_ := [], source := .spawn 0, st := .saved })] }
    let s := s.modCtx 1 (fun c => { c with tmap := [(1, { phys := 5, saved := true })] })
    s.landsAt (landedOf (.meeting 6)) = .wait := by decide +kernel
/-- An atomic, and a packet of a read, an atomic or a write that has arrived at tile 0. -/
def anAmo : AmoReq := { op := 0, b := 1, d := 0 }
def accessOf (k : Nat) (a : Option AmoReq) : Packet := { arrived k 0xBFFF8 [1, 2] with amo := a }
/-- A net with a packet. -/
def netted (p : Packet) (a : Arg) : State := args { base with net := [p] } a
theorem witness_Packets :
    (∀ k, k < 2 → ∀ a ∈ [none, some anAmo], let p := accessOf k a
      (netted p {}).memOk ∧ (netted p {}).net[0]? = some p ∧ p.arrived = true ∧ p.kind = k ∧ (netted p {}).packetBefore 0 p = false
      ∧ (netted p {}).landing p.dst p.addr = false ∧ (netted p {}).windowWaits p.dst p.ctx = false)
    ∧ (∀ k ∈ [2, 4, 5, 8], let p := arrived k 0 []
      (netted p {}).net[0]? = some p ∧ p.arrived = true ∧ p.kind = k)
    ∧ (let p := arrived 4 0 [1, 2]
       let s := (netted p {}).setHere { (netted p {}).here with reads := [{ txid := 0, d := 3, home := 5, bytes := 2, buf := [none, some 7] }] }
       p.kind = 4 ∧ (s.tile p.dst).reads.find? (fun r => decide (r.txid = p.txid)) = some { txid := 0, d := 3, home := 5, bytes := 2, buf := [none, some 7] }
       ∧ p.data.length = 2 ∧ ((netted p {}).tile p.dst).reads = [])
    ∧ (let p := arrived 3 0x2FFFE [1, 2]
       let b := { aBuf with shadow := [(16, 0x20000)] }
       let s := { netted p {} with bufs := [(9, b)] }
       s.net[0]? = some p ∧ p.kind = 3 ∧ FMap.get? s.bufs 9 = some b ∧ b.live = true ∧ b.ctx = p.ctx
       ∧ (16, 0x20000) ∈ b.shadow ∧ 0x20000 ≤ p.addr ∧ p.addr + p.data.length ≤ 0x20000 + 0x10000)
    ∧ (let s := args State.reset { ctx := 1 }
       s.here.task = none ∧ s.here.lastCtx ≠ some s.arg.ctx ∧ s.writesTo s.cur = false) := by decide +kernel

theorem witness_Packets_contending :
    (let p := { arrived 0 0 [] with point := 6, arrived := false, waited := 64, age := 3 }
       let q := { p with stile := 6 }
       let s := { netted p { n := 6 } with net := [q, p] }
       let x : Traffic := { lane := .net, place := 1, route := p.toRoute }
       x ∈ s.traffic ∧ s.net[1]? = some p ∧ p.point = s.arg.n ∧ p.arrived = false ∧ q.age = p.age ∧ p.sdie = q.sdie ∧ p.stile < q.stile
       ∧ (∀ y ∈ s.traffic, y ≠ x → y.route = q.toRoute)
       ∧ ¬ (10 < p.kind ∨ s.present p.ddie = false) ∧ s.arg.point = none ∧ p.ddie = 6 / 65536
       ∧ (args s { n := 6, point := some 7, m := 2 }).arg.point = some 7 ∧ 7 / 65536 = 6 / 65536 ∧ 10 < ({ p with kind := 11 } : Packet).kind ∧ 64 ≤ p.waited) := by decide +kernel
theorem witness_Packets_routes :
    (∀ k, k < 2 →
       let s := { base with pkg := { base.pkg with retired := if k = 1 then [{ kind := 3, die := 0, index := (facing 0).idxOf 17, reason := 3 }] else [] } }
       s.joined 0 (16 + (0 + 1 + 0) % 8) = decide (k = 0) ∧ s.joined 0 (16 + (0 + 1 + k) % 8) = true ∧ s.joined (16 + (0 + 1 + k) % 8) 1 = true)
    ∧ (∀ x ∈ [0, 1], let p := { landed with arrived := false, waited := 64, point := 6 }
       let m := { mailTo 5 0 1 (.withdraw 1 4) with arrived := false, waited := 64, point := 6 }
       let s := args { base with land := if x = 0 then [p] else [], meets := if x = 1 then [m] else [] } { m := x + 1 }
       (x = 0 → s.land[s.arg.n]? = some p ∧ s.arg.m = 1 ∧ p.arrived = false ∧ 64 ≤ p.waited ∧ s.traffic = [{ lane := .land, place := 0, route := p.toRoute }])
       ∧ (x = 1 → s.meets[s.arg.n]? = some m ∧ s.arg.m = 2 ∧ m.arrived = false ∧ 64 ≤ m.waited ∧ s.traffic = [{ lane := .meets, place := 0, route := m.toRoute }])) := by decide +kernel

/-- An operand that the task of node 0 on tile 0 sent: 32 bytes, for 0x1020. -/
def sent (op : Nat) : Operand :=
  { ctx := 1, tag := 0x1000000, op := op, node := 0, vtile := 0, ptile := 0, data := List.replicate 32 1, dest := 0x1020, timeout := 8 }
/-- A station of tile 0 with operands waiting and inputs held; the operand on its way, and its tag is live. -/
def meeting (st : Station) (i : StationIn) (f : Ctx → Ctx) (a : Arg) : State :=
  args ({ base with stations := [(0, st)], meets := [mailTo 0 0 1 i], aot := 8 }.modCtx 1 (fun c => f { c with tags := [{ tag := 0x1000000, len := 32, timeout := 8 }] })) a
/-- Sixteen operands of other tags. -/
def full16ops : List Operand := (List.range 16).map (fun k => { sent 0 with tag := k })
theorem witness_Meetings :
    let o := sent 0
    let slotFree := fun (x : Station) => (x.waiting.filter (fun o => !o.spilled)).length < 16
    let alone := fun (x : Station) => x.waiting.find? (fun q => decide (q.ctx = o.ctx ∧ q.tag = o.tag)) = none
    let comes := fun (s : State) (o : Operand) => s.meets[s.arg.n]? = some (mailTo 0 0 1 (.operand o)) ∧ s.mailNext s.arg.n (mailTo 0 0 1 (.operand o)) = true
      ∧ (s.station 0).held.any (·.about o.ctx o.tag) = false ∧ s.staleAt 0 o = false
    (comes (meeting {} (.operand o) id {}) o ∧ slotFree ((meeting {} (.operand o) id {}).station 0) ∧ alone ((meeting {} (.operand o) id {}).station 0))
    ∧ (let s := meeting { waiting := full16ops } (.operand o) (fun c => { c with iod := [(0x080, 1)] }) {}
       comes s o ∧ ¬ slotFree (s.station 0) ∧ alone (s.station 0) ∧ s.storeroom o.ctx = true)
    ∧ (let s := meeting {} (.operand (sent 0)) id {}
       (s.liveTag 1 0x1000000).isSome = true ∧ (s.station 0).held = [] ∧ (args s { ctx := 1 }).staleAt 0 { sent 0 with tag := 0x2000000 } = true)
    ∧ (let s := meeting { waiting := full16ops } (.operand o) id {}
       comes s o ∧ ¬ slotFree (s.station 0) ∧ alone (s.station 0) ∧ s.storeroom o.ctx = false)
    ∧ (∀ op ∈ [0, 1], let s := meeting { waiting := [sent op] } (.operand o) id {}
       comes s o ∧ (s.station 0).waiting.find? (fun q => decide (q.ctx = o.ctx ∧ q.tag = o.tag)) = some (sent op)
       ∧ s.orphaned (sent op) = false ∧ (sent op).spilled = false ∧ (s.operandData (sent op)).2 = some (List.replicate 32 1))
    ∧ (let s := meeting { waiting := [o] } (.withdraw 1 o.tag) id {}
       s.meets[s.arg.n]? = some (mailTo 0 0 1 (.withdraw 1 o.tag)) ∧ s.mailNext s.arg.n (mailTo 0 0 1 (.withdraw 1 o.tag)) = true ∧ (s.station 0).held.any (·.about 1 o.tag) = false ∧ (s.station 0).waitingOf 1 o.tag = some o
       ∧ ((meeting {} (.withdraw 1 o.tag) id {}).station 0).waitingOf 1 o.tag = none)
    ∧ (let s := meeting { held := [.operand o, .withdraw 1 3] } (.withdraw 1 4) id {}
       0 = s.arg.n ∧ (s.station 0).held = [.operand o, .withdraw 1 3] ∧ slotFree (s.station 0) ∧ s.staleAt 0 o = false ∧ alone (s.station 0))
    ∧ (let s := meeting { waiting := [o] } (.withdraw 1 4) id {}
       0 = s.arg.n ∧ (s.station 0).waiting[s.arg.m]? = some o ∧ o.timeout ≠ 0 ∧ s.heldCtx o.ctx = false ∧ o.timeout ≤ (s.aot - o.at_).toNat) := by
  decide +kernel
/-- A far address is translated, and the words of the entry there pass a test. -/
def entryGives (p : List Word → Bool) : ScdRes → Bool
  | .ok s k => p (s.entryWords k)
  | _ => false
theorem entry_gives {p : List Word → Bool} {r : ScdRes} (h : entryGives p r = true) : ∃ s k, r = .ok s k ∧ p (s.entryWords k) = true := by
  cases r with
  | ok s k => exact ⟨s, k, rfl, h⟩
  | _ => nomatch h

theorem witness_Meetings_storeroom :
    let o := sent 0
    let s := paged.modCtx 1 (fun c => { c with iod := [(0x080, 1)], tags := [{ tag := 0x1000000, len := 32, timeout := 8 }] })
    let s := { s with stations := [(0, { waiting := full16ops ++ [{ o with spilled := true }] })], meets := [mailTo 0 0 1 (.operand o)] }
    s.memOk ∧ s.meets[s.arg.n]? = some (mailTo 0 0 1 (.operand o)) ∧ s.mailNext 0 (mailTo 0 0 1 (.operand o)) = true ∧ s.staleAt 0 o = false ∧ s.storeroom 1 = true
    ∧ entryGives (fun _ => true) (s.scd 1 (s.strAddr o) true) = true
    ∧ (s.station 0).waiting.find? (fun q => decide (q.ctx = o.ctx ∧ q.tag = o.tag)) = some { o with spilled := true } ∧ s.orphaned o = false
    ∧ (s.operandData { o with spilled := true }).2.isSome = true := by decide +kernel
theorem witness_Meetings_results :
    let m := fun (b : Bool) => ({ id := 3, a := sent 0, b := sent 0, data := List.replicate 32 2, st := 0, aSent := b, bSent := b } : Meeting)
    let s := fun (b : Bool) (k : Nat) => { meeting {} (.withdraw 1 4) id { m := k } with meetings := [m b] }
    (∀ b k, (s b k).meetings[(s b k).arg.n]? = some (m b) ∧ ∀ m' ∈ (s b k).meetings, m'.id = (m b).id → m' = m b)
    ∧ (m false).aSent = false ∧ (s false 0).findNear (sent 0).ctx (sent 0).dest = .ok 0 0x1020 ∧ (sent 0).dest ≠ 0 ∧ (s true 2).arg.m = 2
    ∧ (∀ l ∈ (s true 2).land, l.unit ≠ .meeting 6 ∧ l.unit ≠ .meeting 7) ∧ (s true 2).replyReady (m true) = true := by
  refine ⟨?_, by decide +kernel⟩
  intro b k
  exact ⟨rfl, by intro m' h _; simpa using h⟩
/-- A ring of context 1 whose slot 0 holds an entry with this first word and a handle; buffer 9 is in transit. -/
def consuming (w0 seq : Nat) : State :=
  let s := mems (paged.modCtx 1 (fun c => { c with transit := [h9] }))
    [(2 ^ 65, 8, w0), (2 ^ 65 + 8, 8, 0x1000), (2 ^ 65 + 64, 8, seq), (2 ^ 65 + 72, 8, h9.toNat)]
  args { s with bufs := [(9, aBuf)], rings := [(1023, { ctx := 1, host := true, base := 0, widx := 0, lsize := 2, awake := true })] } { n := 1023 }
theorem witness_NodesArrive_rings :
    let s := consuming 0x10000000101 1
    let q : Ring := { ctx := 1, host := true, base := 0, widx := 0, lsize := 2, awake := true }
    s.ok ∧ s.arg.n < 1024 ∧ FMap.get? s.rings s.arg.n = some q ∧ q.awake = true ∧ s.ringKey q = some (2 ^ 65) ∧ (∀ m ∈ q.pend ++ q.unret, (s.node? m).isSome = true)
    ∧ s.load (2 ^ 65 + 64) 8 = (q.head.toNat + 1) % 2 ^ 64 ∧ s.admits = true ∧ recOk (s.entryWords (2 ^ 65)) = true ∧ recNdep (s.entryWords (2 ^ 65)) = 0
    ∧ entryHandles (s.entryWords (2 ^ 65)) = [h9] ∧ s.fresh? 1 h9 = true ∧ h9 ∈ (s.ctxAt 1).transit ∧ s.classFor (s.entryWords (2 ^ 65)) ≠ none
    ∧ recOk ((consuming 0 1).entryWords (2 ^ 65)) = false ∧ (consuming 0 0).load (2 ^ 65 + 64) 8 ≠ (q.head.toNat + 1) % 2 ^ 64 ∧ q.waiting = false := by
  decide +kernel

/-- A decrement of a kind on its way to the entry at 0x1000, whose first word is `w0`; nodes as given beside node 0. -/
def edging (kind w0 : Nat) (l : List (Nat × Node)) : State :=
  let s := mems paged [(2 ^ 64 + 0x20001000, 8, w0), (2 ^ 64 + 0x20001008, 8, 0x1000)]
  { s with nodes := (0, low) :: l, edges := [{ ctx := 1, kind := kind, addr := 0x1000, sender := 0, list := 0 }] }
/-- An instance of that entry with a count. -/
def instanceNo (count : Nat) : Node := { ctx := 1, rec_ := [], source := .graph 0x1000, count := count }
theorem witness_NodesArrive_edges :
    (let s := edging 1 0x1000000000101 [(2, instanceNo 2)]
     s.ok ∧ (s.edges[s.arg.n]?).map (·.addr) = some 0x1000 ∧ s.edges.take s.arg.n = [] ∧ s.instanceOf 1 0x1000 = some 2 ∧ s.node? 2 = some (instanceNo 2))
    ∧ (∀ x ∈ [(2, 0x1000000000101), (0, 0x1000000000101), (1, 0), (1, 0x1000000000101), (2, 0x1000020000101)], let s := edging x.1 x.2 [(2, instanceNo 1)]
       s.instanceOf 1 0x1000 = some 2 ∧ s.node? 2 = some (instanceNo 1) ∧ (instanceNo 1).outcome = none ∧ (instanceNo 1).xfers = []
       ∧ entryGives (fun e => recLtol e = decide (x.2 = 0x1000020000101) && recOk e = decide (x.2 ≠ 0) && entryHandles e = []
          && decide (recNdep e = if x.2 = 0 then 0 else 1) && decide (recW e 8 = 0)) (s.scd 1 0x1000 false) = true)
    ∧ (let s := edging 1 0x2000000000101 []
       s.instanceOf 1 0x1000 = none ∧ s.tableFree ≠ 0 ∧ entryGives (fun e => decide (1 < recNdep (e.take 8))) (s.scd 1 0x1000 false) = true) := by
  decide +kernel
/-- Nodes in entries 1 to `n`. -/
def fullTable (n : Nat) : List (Nat × Node) := (List.range n).map (fun k => (k + 1, instanceNo 0))
theorem edging_nodes (l : List (Nat × Node)) : (edging 1 0 l).nodes = (0, low) :: l := rfl
theorem edging_ok (l : List (Nat × Node)) (h : Rising ((0, low) :: l)) : (edging 1 0 l).ok := ⟨(by decide : (edging 1 0 []).memOk), (by decide : Rising (edging 1 0 []).tiles), h⟩
theorem edging_instance (l : List (Nat × Node)) (h : ∀ a ∈ l, a.2.count = 0) : (edging 1 0 l).instanceOf 1 0x1000 = none := by
  have hl : (low.source = .graph 0x1000) = False := by decide
  simp only [State.instanceOf, edging_nodes, Option.map_eq_none_iff, List.find?_eq_none, List.forall_mem_cons]
  exact ⟨by simp [hl], fun a ha => by simp [h a ha]⟩
theorem edging_free (l : List (Nat × Node)) (h : l.length = 2 ^ 20 - 1) : (edging 1 0 l).tableFree = 0 := by
  simp [State.tableFree, edging_nodes, Config.tableSize, h]
theorem witness_NodesArrive_full : ∃ n, (edging 1 0 (fullTable n)).ok ∧ (edging 1 0 (fullTable n)).instanceOf 1 0x1000 = none
    ∧ (edging 1 0 (fullTable n)).tableFree = 0 := by
  refine ⟨2 ^ 20 - 1, edging_ok _ (List.pairwise_cons.2 ⟨?_, ?_⟩), edging_instance _ ?_, edging_free _ ?_⟩
  · intro a ha
    obtain ⟨k, -, rfl⟩ := List.mem_map.1 ha
    exact Nat.succ_pos k
  · exact List.pairwise_map.2 (List.pairwise_lt_range.imp (fun h => Nat.succ_lt_succ h))
  · intro a ha
    obtain ⟨k, -, rfl⟩ := List.mem_map.1 ha
    rfl
  · rw [fullTable, List.length_map, List.length_range]

/-- A spawn of tile 0 that is blocked: it is the one usable tile of its class, and its die's spawn queue is full. -/
def starving (reserve : Nat) : State :=
  let p : Spawning := { rec_ := [0x4000000101], handles := [], since := 0, starved := 0 }
  let s := paged.setHere { paged.here with spawning := some p }
  { s.setDie 0 { dbc := 4096, spawnQ := [2] ++ List.replicate 255 1 } with
    reserve := reserve, aot := 1000000
    pkg := { paged.pkg with retired := (List.range 255).map (fun i => { kind := 1, die := 0, index := i + 1, reason := 3 }) }
    nodes := [(0, { low with gang := [0] }), (1, { high with st := .queued }), (2, { high with rec_ := [0x3000101], st := .queued, source := .spawn 0 })] }
theorem witness_NodesArrive_spawns :
    (let s := (edging 1 0 [(1, { high with st := .queued })]).setDie 0 { spawnQ := [1] }
     (s.die s.arg.n).spawnQ = [1] ∧ s.node? 1 = some { high with st := .queued } ∧ high.outcome = none ∧ high.source = .spawn 0 ∧ (s.die s.arg.n).spill = [])
    ∧ (let s := (edging 1 0 [(1, { high with st := .queued }), (2, { high with st := .queued })]).setDie 0 { spawnQ := [1], spill := [2] }
       (s.die s.arg.n).spawnQ = [1] ∧ (s.die s.arg.n).spill = [2] ∧ s.node? 2 = some { high with st := .queued })
    ∧ (starving 1).here.spawning.isSome = true ∧ (starving 1).spawnBlocked (starving 1).cur = true ∧ 4096 ≤ ((starving 1).dbc (starving 1).cur - 0).toNat
    ∧ (starving 1).reserve ≠ 0 ∧ (starving 1).probeReturns 0 0 14 = true ∧ (starving 1).here.rq.length < 32
    ∧ (starving 0).here.task = some 0 ∧ (starving 0).reserve = 0 ∧ 1000000 ≤ ((starving 0).aot - 0).toNat := by decide +kernel
/-- A successor list was read, and every word of it is the far address of an entry. -/
def listSound : ListRes → Bool
  | .ok _ l => l.all (fun e => match e.2.2 with
    | some v => decide (v % 128 = 0 ∧ v < 2 ^ 55)
    | none => false)
  | _ => false
theorem list_sound {r : ListRes} (h : listSound r = true) :
    ∃ s l, r = .ok s l ∧ ∀ e ∈ l, ∃ v, e.2.2 = some v ∧ v % 128 = 0 ∧ v < 2 ^ 55 := by
  cases r with
  | wait s => nomatch h
  | ok s l =>
    refine ⟨s, l, rfl, fun e he => ?_⟩
    have := List.all_eq_true.1 h e he
    split at this <;> simp_all
/-- The condition is translated, for a write where asked, and the list is then read soundly. -/
def condSound (w : Bool) (c va base : Nat) (sends : List (Nat × Nat)) : ScdRes → Bool
  | .ok s _ => if w then (match s.scd c va true with | .ok s _ => listSound (s.readList c base sends) | _ => false) else listSound (s.readList c base sends)
  | _ => false

/-- Node 2 with a record and an outcome, or ready; its list of two addresses lies at 0x2000 and its condition, `c`, at 0x3000. -/
def retiring (w0 : Nat) (out : Option (Nat × Nat × Word)) (c : Nat) : State :=
  let x : Node := { ctx := 1, rec_ := [BitVec.ofNat 64 w0, 0, 0, 0, if out.isNone then 0x3000 else 0x2000, 0x2000, 0, 0], source := .graph 0x1000, st := .ready, outcome := out }
  let s := mems paged [(2 ^ 64 + 0x20002000, 8, 0x80), (2 ^ 64 + 0x20002008, 8, 0x7FFFFFFFFFFF80), (2 ^ 64 + 0x20003000, 8, c)]
  args { s with nodes := [(0, low), (1, high), (2, x)] } { n := 2 }
/-- That node. -/
def overNode (w0 : Nat) (out : Option (Nat × Nat × Word)) : Node :=
  { ctx := 1, rec_ := [BitVec.ofNat 64 w0, 0, 0, 0, if out.isNone then 0x3000 else 0x2000, 0x2000, 0, 0], source := .graph 0x1000, st := .ready, outcome := out }
theorem witness_NodesRetire :
    (∀ code ∈ [0, 0x14], let x := overNode 0x0200000000000101 (some (code, 0x16, 5))
      let s := retiring 0x0200000000000101 (some (code, 0x16, 5)) 0
      s.ok ∧ s.node? s.arg.n = some x ∧ (∀ m ∈ s.members 2, m.2.drained = true) ∧ listOk (recList x.rec_) = true ∧ recKind x.rec_ = 1
      ∧ listSound (s.readList 1 (recList x.rec_) [(0, if code = 0 then 1 else 2), (1, if code = 0 then 1 else 2)]) = true
      ∧ x.handles = [] ∧ x.snapshot = none ∧ x.source = .graph 0x1000 ∧ x.sending = false)
    ∧ (let x := { overNode 0x0200000000000101 (some (0, 0, 5)) with sending := true }
       let s := { retiring 0x0200000000000101 (some (0, 0, 5)) 0 with nodes := [(0, low), (2, x)] }
       s.ok ∧ s.node? s.arg.n = some x ∧ x.sending = true ∧ (∀ m ∈ s.members 2, m.2.drained = true) ∧ s.edges = [])
    ∧ (let x := overNode 0x0000000004000101 (some (0x15, 0x30, 1))
       let s := retiring 0x0000000004000101 (some (0x15, 0x30, 1)) 0
       s.node? s.arg.n = some x ∧ (∀ m ∈ s.members 2, m.2.drained = true) ∧ recRstr x.rec_ = true ∧ x.restarts < 2 ∧ x.noRestart = false ∧ s.classFor x.rec_ = some (1, false))
    ∧ (∀ k ∈ [2, 3, 4], ∀ c ∈ [0, 1], let x := overNode (0x0200000000000000 + k) none
       let s := retiring (0x0200000000000000 + k) none c
       s.node? s.arg.n = some x ∧ recControl x.rec_ = true ∧ x.outcome = none ∧ x.st = .ready ∧ s.heldCtx x.ctx = false
       ∧ condSound (decide (k = 3 ∧ c = 1)) 1 (recW x.rec_ 4) (recList x.rec_) [(0, 1), (1, 0)] (s.scd 1 (recW x.rec_ 4) false) = true) := by decide +kernel

/-- Node 3 is ready at the head of a bank that the next pop of class 1 samples; node 4 is ready and 2^14 pops have passed it over. -/
def ready3 (rs : Nat) : Node := { ctx := 1, rec_ := [0x4000101, 0x1000, 0, 0, 0, 0, 0, 0], source := .spawn 0, st := .ready, cls := 1, bank := 1, restarts := rs, snapshot := some [] }
def ready4 : Node := { ctx := 1, rec_ := [0x101, 0x1000, 0, 0, 0, 0, 0, 0], source := .spawn 0, st := .ready, cls := 1, bank := 2, passed := 16384 }
def popping (rs n : Nat) : State := args { paged with nodes := [(0, low), (3, ready3 rs), (4, ready4)] } { n := n, m := 1 }
theorem witness_NodesDispatched :
    (∀ rs ∈ [0, 1], let s := popping rs 1
      let b := fun (lo : Nat) => s.lfsr.toNat / 2 ^ lo % 32
      let heads := [s.bankHead 1 (b 0), s.bankHead 1 (if b 5 = b 0 then (b 0 + 16) % 32 else b 5), s.bankHead 0 (b 10), s.bankHead 0 ((b 10 + 16) % 32)]
      s.ok ∧ s.arg.n = 1 ∧ s.laneHead 1 = none ∧ s.laneHead 0 = none ∧ some (3, ready3 rs) ∈ heads ∧ s.node? 3 = some (ready3 rs)
      ∧ s.place 3 (ready3 rs) 1 s.arg.m = some ([1], 1) ∧ (ready3 rs).rec_.length = 8 ∧ (∀ h ∈ heads, ∀ p ∈ h, p = (3, ready3 rs))
      ∧ s.expired (ready3 rs) = false ∧ (ready3 rs).st = .ready
      ∧ s.refsFit (if 0 < rs then (ready3 rs).snapshot.getD [] else (ready3 rs).handles) (if 0 < rs then 1 else 1 - 1) (if rs = 0 then 1 else 0) = true)
    ∧ (let s := popping 0 4
       s.arg.n = 4 ∧ s.node? 4 = some ready4 ∧ s.poppable ready4 = true ∧ ready4.lane = none ∧ 2 ^ 14 ≤ ready4.passed) := by decide +kernel

/-- The ready node 1 cannot be placed, and node 0 can be taken for it. -/
def preempting : State := args paged { n := 1 }
theorem witness_TasksInterrupted_preemption : preempting.ok ∧ preempting.arg.n = 1 ∧ preempting.node? 1 = some high ∧ preempting.poppable high = true ∧ high.st = .ready
    ∧ preempting.place 1 high high.cls 0 = none ∧ preempting.node? 0 = some low ∧ preempting.victim 1 high low = true
    ∧ (∀ m ∈ preempting.nodes, preempting.victim 1 high m.2 = true → m.1 = 0) ∧ low.saves = [] ∧ low.gang.Nodup ∧ high.saves = []
    ∧ (∀ u ∈ low.gang, preempting.savable u = true ∧ (preempting.tile u).xe.inMma = false ∧ (preempting.tile u).spawning = none)
    ∧ ∃ s1 ks s2 keys, preempting.takeSlots low.ctx low.gang.length = some (s1, ks) ∧ s1.openSlots low.ctx true ks = .ok (s2, keys) := by
  refine ⟨by decide, by decide, by decide, by decide +kernel, by decide, by decide +kernel, by decide, by decide +kernel, by decide +kernel, by decide, by decide, by decide,
    by decide +kernel, ?_⟩
  obtain ⟨r, h⟩ := of_opened (e := (chosen preempting).openSlots 1 true [0]) (by decide +kernel)
  exact ⟨chosen preempting, [0], r.1, r.2, takes_slot _ (by decide +kernel) (by decide +kernel), h⟩
theorem witness_TasksInterrupted :
    (let x := { low with limit := 99999 }
     let s := { paged with nodes := [(0, x)] }
     s.arg.n = 0 ∧ s.node? 0 = some x ∧ x.st = .run ∧ x.outcome = none ∧ x.limit ≠ 0 ∧ x.limit < x.ran)
    ∧ (let s := args paged { n := 6 }
       s.here.task = some 0 ∧ s.node? 0 = some low ∧ low.outcome = none ∧ 1 ≤ s.arg.n ∧ s.arg.n ≤ 6) := by decide +kernel
/-- A command of the index engine of tile 0 that waits for a page. -/
def wanting (vpn : Nat) : Cmd := { begun .iq [(0, 1, 0x11)] with want := some (vpn, false) }
/-- A walk of a page that the index engine of tile 0 asked for. -/
def walking (vpn : Nat) (pre : Bool) : State :=
  { paged.setHere { paged.here with ie := { cmds := [wanting vpn] } } with walks := [{ ctx := 1, vpn := vpn, write := false, askers := [1], prefetch := pre }] }
/-- A page request of context 1. -/
def asked (w : Bool) : PageReq := { id := 0xFFFFF, vpn := 5, reason := 1, write := true, eng := 1, tile := 0, written := w }
/-- Context 1 with requests, and a value written by its driver. -/
def responding (w : Bool) (v : Word) : State := args (paged.modCtx 1 (fun c => { c with preqs := [asked w], iod := [(0x040, 4)], cgen := 7 })) { ctx := 1, v := v }
theorem witness_TranslationsAndRequests :
    (∀ p ∈ [true, false], (walking 5 p).ok ∧ (walking 5 p).walks[(walking 5 p).arg.n]? = some { ctx := 1, vpn := 5, write := false, askers := [1], prefetch := p }
      ∧ (walking 5 p).walk 1 5 = .leaf (2 ^ 64 + 0x10000) 0x20000023 true)
    ∧ (walking 9000 false).walk 1 9000 = .bad 0 ∧ [1].find? ((walking 9000 false).waitsAt 1 9000) = some 1 ∧ ((walking 9000 false).ctxAt 1).preqs = []
    ∧ (let s := { walking 9000 false with walks := [{ ctx := 1, vpn := 9000, write := false, askers := [2 ^ 20 + 16 + 9000 % 8], prefetch := false }] }
       s.walks.length = 1 ∧ [2 ^ 20 + 16 + 9000 % 8].find? (s.waitsAt 1 9000) = none)
    ∧ [2].find? ((walking 9000 false).waitsAt 1 9000) = none ∧ 2 ^ 20 + 16 + 9000 % 8 ∉ [2]
    ∧ ((responding false 0).ctxAt 1).preqs[0]? = some (asked false) ∧ (asked false).written = false
    ∧ queueRoom (((responding false 0).ctxAt 1).iodReg 0x040) ((responding false 0).ctxAt 1).prWritten = true
    ∧ (responding true 0).arg.ctx = 1 ∧ ((responding true 0).ctxAt 1).live = true
    ∧ (∀ code ∈ [0, 1], let s := responding true (BitVec.ofNat 64 (7 * 2 ^ 32 + code * 2 ^ 28 + 0xFFFFF))
       let v := s.arg.v.toNat
       v / 2 ^ 28 % 4 = code ∧ v / 2 ^ 32 % 2 ^ 16 = ((s.ctxAt 1).cgen) % 2 ^ 16
       ∧ (s.ctxAt 1).preqs.find? (fun r => decide (r.id = v % 2 ^ 20) && !r.failed) = some (asked true))
    ∧ (responding true 0x8000FFFFF).arg.v.toNat / 2 ^ 32 % 2 ^ 16 ≠ 7 ∧ 2 ≤ (responding true 0x7200FFFFF).arg.v.toNat / 2 ^ 28 % 4
    ∧ (∀ code ∈ [0, 1], let s := responding true (BitVec.ofNat 64 (7 * 2 ^ 32 + code * 2 ^ 28 + 3))
       (s.ctxAt 1).preqs.find? (fun r => decide (r.id = s.arg.v.toNat % 2 ^ 20) && !r.failed) = none)
    ∧ ((responding true 0).ctxAt 1).inv.length < 64
    ∧ ((paged.modCtx 1 (fun c => { c with inv := [5, 0x10000000000] })).ctxAt 1).inv = [5, 0x10000000000] ∧ bitN 0x10000000000 40 = true
    ∧ bitN ((responding true 0x10000).arg.v.toNat) 16 = true ∧ (∀ r ∈ ((responding true 0).ctxAt 1).preqs, r.written = true) := by decide +kernel

/-- Another package asks for buffer 9. -/
def spanning (b : Buf) (q : SpanReq) : State := args { paged with bufs := [(9, b)] } { span := some q }
theorem witness_FarMemoryFromOutside :
    (let s := args base { v := 0xFFFFFFFFFFFC0, k := 1, data := List.replicate 64 3, list := [0x2010] }
     s.ok ∧ s.arg.v.toNat + s.arg.data.length ≤ 2 ^ 52 ∧ s.arg.k ≤ 1 ∧ s.arg.v.toNat % 64 = 0 ∧ s.arg.data.length = 64 * s.arg.list.length)
    ∧ (let c := moves 1
       let s := moving c (moves 0x10)
       (s.here.cengine .ce).headOf s.arg.que = some c ∧ c.begun = true ∧ c.ended = none)
    ∧ (let s := spanning aBuf (.takeRef h9)
       s.arg.span = some (.takeRef h9) ∧ accOf h9 = 9 ∧ s.pkg.fmapen.getLsbD 2 = true ∧ s.fresh? aBuf.ctx h9 = true ∧ aBuf.proxy = none ∧ aBuf.count < 2 ^ 32 - 1)
    ∧ (∀ k ∈ [1, 2], let b := { aBuf with imports := [h9], count := k }
       let s := spanning b (.dropRef h9)
       s.buf (accOf h9) = b ∧ b.live = true ∧ h9 ∈ b.imports ∧ b.count = k)
    ∧ (let b := { aBuf with imports := [h9] }
       (spanning b (.bind 9 3 [])).buf 9 = b ∧ b.live = true ∧ b.imports ≠ [] ∧ 0 < b.pages
       ∧ (spanning { b with vbase := 0x5FFF0000 } (.bind 9 3 [0])).leafInUse (2 ^ 20 + 16 + (0 + 0x5FFF) % 8) 1 (0 + 0x5FFF) = none)
    ∧ (let b := { aBuf with binds := [{ tag := 3, view := 0 }], shadow := [(31, 0x30000)], stage := [(31, 0x40000)], vbase := 0x1F0000 }
       (spanning b (.read 9 3 0xFFFF)).buf 9 = b ∧ b.bindOf 3 = some { tag := 3, view := 0 } ∧ 0xFFFF < b.size ∧ b.swapping = none ∧ (spanning b (.read 9 3 0xFFFF)).walks = []
       ∧ 0xFFFC + 4 ≤ b.size ∧ 0xFFFC % 4 = 0 ∧ b.proxy = none
       ∧ (spanning b (.read 9 3 0xFFFF)).viewLeaf (2 ^ 20 + 16 + 31 % 8) b.ctx 9 0 31 = none
       ∧ 0xFFC0 + (List.replicate 64 (3 : Byte)).length ≤ b.size ∧ 0xFFC0 % 64 + (List.replicate 64 (3 : Byte)).length ≤ 64
       ∧ FMap.get? b.shadow ((b.vbase + 0xFFC0) / 2 ^ 16) = some 0x30000 ∧ FMap.get? b.stage ((b.vbase + 0xFFC0) / 2 ^ 16) = some 0x40000) := by decide +kernel

/-- A write of `v` to the register at `off` of a context's page. -/
def writing (p : Page) (off : Nat) (v : Word) (live : Bool) : State := args (paged.modCtx 1 (fun c => { c with live := live })) { ctx := 1, page := p, n := off, v := v }
/-- A context's tail is written; ring 1023 has taken two of four slots. -/
def tailing (r v : Nat) : State := args { paged with rings := [(1023, { ctx := 1, host := true, base := 0, widx := 0, lsize := 2, head := 2, tail := 3 })] }
  { ctx := 1, v := BitVec.ofNat 64 (r * 2 ^ 32 + v) }
theorem witness_ContextsAndRegisters :
    (let s := args paged { ctx := 4095 }
     s.ok ∧ 1 ≤ s.arg.ctx ∧ s.arg.ctx ≤ 4095 ∧ (s.ctxAt 4095).live = false ∧ s.pkg.fmapen ≠ 0 ∧ Rising (s.ctxAt 4095).iod ∧ Rising (s.ctxAt 4095).scd)
    ∧ ((writing .iod 0 0 true).ctxAt 1).live = true ∧ ((writing .iod 0 0 false).ctxAt 1).live = false
    ∧ (∃ f ∈ registerFields, f.1 = 0 ∧ f.2.1 = 0x058) ∧ (0x058 ≠ 0x068 ∧ 0x058 ≠ 0x070 ∧ 0x058 ≠ 0x078)
    ∧ (∃ f ∈ registerFields, f.1 = 0 ∧ f.2.1 = 0x068) ∧ 0x068 ∈ [0x000, 0x018, 0x020, 0x028, 0x038, 0x040, 0x068, 0x070, 0x078, 0x080, 0x088]
    ∧ (∃ f ∈ registerFields, f.1 = 1 ∧ f.2.1 = 0x060) ∧ ((writing .scd 0x040 0x20 true).ctxAt 1).drq.length < 16 ∧ 0x110 + 24 * 15 = 0x278
    ∧ (let s := tailing 1023 6
       let q : Ring := { ctx := 1, host := true, base := 0, widx := 0, lsize := 2, head := 2, tail := 3 }
       s.arg.v.toNat / 2 ^ 32 % 2 ^ 10 = 1023 ∧ FMap.get? s.rings 1023 = some q ∧ q.ctx = 1
       ∧ ¬ 2 ^ q.lsize < (6 + 2 ^ 32 - q.head.toNat % 2 ^ 32) % 2 ^ 32 ∧ 1 ≤ (6 + 2 ^ 32 - q.tail.toNat) % 2 ^ 32 ∧ (6 + 2 ^ 32 - q.tail.toNat) % 2 ^ 32 ≤ 2 ^ 31
       ∧ ¬ 2 ^ q.lsize < (3 + 2 ^ 32 - q.head.toNat % 2 ^ 32) % 2 ^ 32 ∧ ¬ 1 ≤ (3 + 2 ^ 32 - q.tail.toNat) % 2 ^ 32
       ∧ 2 ^ q.lsize < (7 + 2 ^ 32 - q.head.toNat % 2 ^ 32) % 2 ^ 32 ∧ FMap.get? (tailing 4 6).rings ((tailing 4 6).arg.v.toNat / 2 ^ 32 % 2 ^ 10) = none)
    ∧ (let s := { base with pkg := { base.pkg with fmapOn := false, linkUp := true } }
       s.pkg.fmapOn = false ∧ s.pkg.linkUp = true ∧ s.arg.n = 0 ∧ (args s { n := 8 }).arg.n = 8)
    ∧ (let s := args { paged with ctxs := [] } { page := .pkg, n := 0x048, v := 0x1000 }
       s.ok ∧ s.arg.page = .pkg ∧ s.arg.n = 0x048 ∧ s.pkg.fmapen.getLsbD 5 = true ∧ s.arg.v.getLsbD 0 = false ∧ (∀ y ∈ s.ctxs, y.2.live = true → s.drainedCtx y.1 = true))
    ∧ ({ base.pkg with booted := true } : Pkg).booted = true := by decide +kernel

/-- A driver request of context 1 with these words, at host address 0; buffers and rings as given. -/
def driving (w0 a b : Nat) (bufs : FMap Buf) (rings : FMap Ring) : State :=
  let s := mems (paged.modCtx 1 (fun c => { c with drq := [0], transit := [h9] })) [(2 ^ 65, 8, w0), (2 ^ 65 + 8, 8, a), (2 ^ 65 + 16, 8, b)]
  args { s with bufs := bufs, rings := rings } { ctx := 1, answer := some (0x10000, 63) }
/-- The first `n` accession numbers are taken. -/
def allBufs (n : Nat) : FMap Buf := (List.range n).map (fun a => (a, aBuf))
theorem get_of_mem {α : Type} (x : α) (k : Nat) : ∀ l : List Nat, l.Pairwise (· < ·) → k ∈ l → FMap.get? (l.map (fun a => (a, x))) k = some x
  | [], _, h => nomatch h
  | a :: l, hl, h => by
    by_cases hk : k = a
    · simp [FMap.get?, hk]
    · have hm : k ∈ l := by simpa [hk] using h
      have := get_of_mem x k l (List.pairwise_cons.1 hl).2 hm
      have ha := (List.pairwise_cons.1 hl).1 k hm
      simp [FMap.get?, hk, this]
      omega
theorem firstFree_none (ok : Nat → Bool) (lo n : Nat) (hn : 0 < n) (h : ∀ k, lo ≤ k → k < lo + n → ok k = false) :
    ∀ fuel start, firstFree ok lo n start fuel = none
  | 0, _ => rfl
  | fuel + 1, start => by
    have := Nat.mod_lt start hn
    simp [firstFree, h (lo + start % n) (by omega) (by omega), firstFree_none ok lo n hn h fuel]
theorem driving_full (bufs : FMap Buf) (h : ∀ k, k < 2 ^ 32 → FMap.get? bufs k = some aBuf) : (driving 1 0x10000 5 bufs []).freeAcc = none := by
  have hb : ∀ k, (driving 1 0x10000 5 bufs []).buf k = FMap.getD {} bufs k := fun _ => rfl
  unfold State.freeAcc
  refine firstFree_none _ _ _ (by decide) (fun k _ hk => ?_) _ _
  rw [hb, FMap.getD, h k (by omega)]
  rfl
theorem witness_DriverRequests_full : ∃ n, (driving 1 0x10000 5 (allBufs n) []).freeAcc = none :=
  ⟨2 ^ 32, driving_full _ (fun k hk => get_of_mem aBuf k _ List.pairwise_lt_range (List.mem_range.2 hk))⟩
theorem driving_finds (w0 a b : Nat) (rings : FMap Ring) : (driving w0 a b [] rings).freeAcc ≠ none := by
  have : ∀ k, (driving w0 a b [] rings).buf k = {} := fun _ => rfl
  simp [State.freeAcc, firstFree, this]
theorem witness_DriverRequests :
    (let s := driving 1 0x7FFFFFFFFF0000 (2 ^ 40) [] []
     s.ok ∧ s.arg.ctx = 1 ∧ (s.ctxAt 1).live = true ∧ (s.ctxAt 1).drq = [0] ∧ s.load (2 ^ 65) 1 = 1 ∧ s.load (2 ^ 65 + 1) 7 = 0
     ∧ s.load (2 ^ 65 + 8) 8 % 2 ^ 16 = 0 ∧ s.load (2 ^ 65 + 8) 8 < 2 ^ 55 ∧ s.load (2 ^ 65 + 16) 8 ≠ 0 ∧ s.load (2 ^ 65 + 16) 8 ≤ 2 ^ 40)
    ∧ (driving 1 1 5 [] []).load (2 ^ 65 + 8) 8 % 2 ^ 16 ≠ 0
    ∧ (∀ op ∈ [2, 3, 4, 6], (driving (0x100 + op) 1 5 [] []).load (2 ^ 65) 1 = op ∧ (driving (0x100 + op) 1 5 [] []).load (2 ^ 65 + 1) 7 ≠ 0)
    ∧ (let s := driving 2 h9.toNat 0 [(9, aBuf)] []
       s.load (2 ^ 65) 1 = 2 ∧ s.load (2 ^ 65 + 1) 7 = 0 ∧ s.fresh? 1 (BitVec.ofNat 64 (s.load (2 ^ 65 + 8) 8)) = true
       ∧ (s.buf (s.load (2 ^ 65 + 8) 8 % 2 ^ 32)).count < 2 ^ 32 - 1)
    ∧ (driving 2 h9.toNat 0 [] []).fresh? 1 h9 = false
    ∧ (driving 3 h9.toNat 0 [] []).load (2 ^ 65) 1 = 3 ∧ BitVec.ofNat 64 ((driving 3 h9.toNat 0 [] []).load (2 ^ 65 + 8) 8) ∈ ((driving 3 h9.toNat 0 [] []).ctxAt 1).transit
    ∧ BitVec.ofNat 64 ((driving 3 4 0 [] []).load (2 ^ 65 + 8) 8) ∉ ((driving 3 4 0 [] []).ctxAt 1).transit
    ∧ (let s := driving 4 h9.toNat 63 [] []
       s.load (2 ^ 65) 1 = 4 ∧ s.load (2 ^ 65 + 8) 8 < 2 ^ 54 ∧ s.load (2 ^ 65 + 8) 8 % 2 ^ 32 ≠ 0 ∧ s.load (2 ^ 65 + 16) 8 < 64 ∧ s.pkg.fmapen.getLsbD 2 = true ∧ s.arg.answer = some (0x10000, 63)
       ∧ (args s { ctx := 1 }).arg.answer = none ∧ 64 ≤ (driving 4 h9.toNat 64 [] []).load (2 ^ 65 + 16) 8)
    ∧ (let s := driving 0x1005 0x80 8 [] [(0, { ctx := 1, host := true, base := 0, widx := 0, lsize := 2 })]
       let seven := s.load (2 ^ 65 + 1) 7
       s.load (2 ^ 65) 1 = 5 ∧ 1 ≤ seven % 256 ∧ seven % 256 ≤ 16 ∧ seven / 256 < 2 ∧ s.load (2 ^ 65 + 8) 8 % 128 = 0 ∧ s.load (2 ^ 65 + 16) 8 % 8 = 0
       ∧ FMap.get? s.rings 1 = none ∧ FMap.get? s.rings 0 ≠ none ∧ ¬ (driving 0x1105 0x80 8 [] []).load (2 ^ 65 + 1) 7 % 256 ≤ 16)
    ∧ (let g : Ring := { ctx := 1, host := true, base := 0, widx := 0, lsize := 2 }
       let s := driving 6 1023 0 [] [(1023, g)]
       s.load (2 ^ 65) 1 = 6 ∧ s.load (2 ^ 65 + 16) 8 = 0 ∧ FMap.get? s.rings (s.load (2 ^ 65 + 8) 8) = some g ∧ g.ctx = 1 ∧ s.load (2 ^ 65 + 8) 8 < 1024
       ∧ FMap.get? (driving 6 4 0 [] []).rings ((driving 6 4 0 [] []).load (2 ^ 65 + 8) 8) = none)
    ∧ (driving 0 0 0 [] []).load (2 ^ 65) 1 = 0 ∧ 6 < (driving 7 0 0 [] []).load (2 ^ 65) 1 := by decide +kernel

/-- Tile 7 is marked for retirement; checkpoints are enabled. -/
def managed (n : Nat) (v : Word) (session : Nat) : State :=
  args { paged with pkg := { paged.pkg with marked := [{ kind := 1, die := 0, index := 7, reason := 2 }], spdm := { session := session } }, ctxs := [] } { n := n, v := v, list := [13] }
theorem witness_PackageManaged :
    (managed 0 1 0).ok ∧ State.reset.pkg.booted = false ∧ (∀ d ∈ (managed 0 1 0).arg.list, d < 16)
    ∧ (managed 0 1 0).pkg.fmapen.getLsbD 5 = true ∧ (managed 0 1 0).arg.v.getLsbD 0 = true ∧ (managed 0 1 0).pkg.ckpt = none
    ∧ (∀ y ∈ (managed 0 1 0).ctxs, y.2.live = true → (managed 0 1 0).drainedCtx y.1 = true)
    ∧ (let s := { paged with pkg := { paged.pkg with ckpt := some [(9, 0)] } }
       s.pkg.ckpt = some [(9, 0)] ∧ (∀ w ∈ [(9, 0)], (s.buf w.1).old = []) ∧ s.ctxs.filter (fun z => z.2.live) = [(1, s.ctxAt 1)])
    ∧ (managed 4 1 0).arg.n = 4 ∧ (managed 0 1 0).pkg.marked[0]? = some { kind := 1, die := 0, index := 7, reason := 2 }
    ∧ (managed 0 1 0).drainsNow { kind := 1, die := 0, index := 7, reason := 2 } = true ∧ (managed 0 1 0).pkg.deacc.length < 4096
    ∧ (managed 0 1 1).pkg.spdm.session = 1 ∧ (managed 255 1 2).pkg.spdm.session = 2 ∧ (managed 255 1 2).arg.n = 255 := by decide +kernel

theorem witness_PackageManaged_record (u : Deaccession) :
    4096 ≤ ({ (managed 0 1 0).pkg with deacc := List.replicate 4096 u } : Pkg).deacc.length := (List.length_replicate ..).ge

/-- A tile at a program counter, with an instruction cache, and an agenda. -/
def stepping (pc : Word) (code : Bank 32) (l : List Turn) : State := { paged.setHere { paged.here with pc := pc, icache := code } with agenda := l }
theorem witness_StepRunsDecodedInstruction :
    sequencerTurn (stepping 0 [] []) (stepping 0 [] [])
    ∧ (let s := stepping 0x1000 [(0x400, 7)] []
       s.seqRuns s.cur = true ∧ s.deliverable s.cur = false ∧ s.here.pc.toNat % 4 = 0 ∧ s.here.pc.toNat < 2 ^ 55 ∧ FMap.get? s.here.icache (s.here.pc.toNat / 4) = some 7)
    ∧ (let s := stepping 0x50000 [] []
       s.seqRuns s.cur = true ∧ s.deliverable s.cur = false ∧ FMap.get? s.here.icache (s.here.pc.toNat / 4) = none ∧ s.walk s.here.ctx 5 = .leaf (2 ^ 64 + 0x10000) 0x20000023 true)
    ∧ (let s := stepping 0x7FFFFFFFFFFFFC [] []
       FMap.get? s.here.icache (s.here.pc.toNat / 4) = none ∧ s.walk s.here.ctx (s.here.pc.toNat / 2 ^ 16) = .bad 0)
    ∧ (stepping 2 [] []).here.pc.toNat % 4 ≠ 0 ∧ 2 ^ 55 ≤ (stepping 0x80000000000000 [] []).here.pc.toNat
    ∧ (State.reset).seqRuns 0 = false
    ∧ (let s := tile (fun x => { x with tvec := 0x100, pend := [{ source := .landing, cause := 0x12, tval := 0 }] })
       s.seqRuns s.cur = true ∧ s.deliverable s.cur = true)
    ∧ (let s := { engaged with agenda := [.eng 0 .ve] }
       ((s.tile 0).engine .ve).run = some (runAt 2 4) ∧ (runAt 2 4).ended = none ∧ s.held 0 = false ∧ (runAt 2 4).nextBeat = none
       ∧ s.engFirst 0 .ve = none ∧ (args s {}).dueBeat (runAt 2 4) (decodeVe 0) = none
       ∧ ((s.tile 0).engine .ve).skips (runAt 2 4) = false ∧ (runAt 2 4).base + 4 * (runAt 2 4).step + 4 ≤ 0xC0000 ∧ s.unitLanding 0 ((runAt 2 4).base / 64) (runAt 2 4).entry.no = false
       ∧ ({ s with bits := [{ unit := .cmd 5 2, tile := 0, line := 0x40 }] } : State).unitLanding 0 0x40 3 = true
       ∧ 0xC0000 < ({ runAt 2 4 with base := 0xBFFFC } : Running).base + 4 * (runAt 2 4).step + 4 ∧ ((base.tile 0).engine .ve).run = none)
    ∧ (stepping 0 [] [.seqLate 0]).agenda = [.seqLate 0] ∧ (stepping 0x1000 [(0x400, 7)] []).here.awaits (decodeSeq 7) = false
    ∧ (stepping 0 [] []).keyFits 0x20000023 (2 ^ 64 + 0x20000000) = true
    ∧ (let s := stepping 0 [] []
       ({ s with pkg := { s.pkg with keyGen := [(0, 1)] }, frameKey := [] } : State).keyFits 0x20000023 (2 ^ 64 + 768 * 2 ^ 30) = false)
    ∧ (stepping 0 [] [.event .debugRelease 0 .ve {}]).agenda = [.event .debugRelease 0 .ve {}] ∧ (Instr.debugRelease).codeUnit = .event :=
  ⟨.inl ⟨rfl, rfl⟩, by decide +kernel⟩
theorem witness_DecodeEncodeAgree : (Instr.sub 31 31 31).wf = true ∧ (Instr.vaddF 31 1 31 2 31 7 0).wf = true ∧ (Instr.accz 7 1).wf = true
    ∧ (Instr.loop 3 1023).wf = true ∧ (Instr.sort 29 29 4 1 1).wf = true ∧ (Instr.tdir 31).wf = true ∧ (Instr.sub 31 31 31).codeUnit = .seq
    ∧ (Instr.vaddF 31 1 31 2 31 7 0).codeUnit = .ve ∧ (Instr.accz 7 1).codeUnit = .me ∧ (Instr.loop 3 1023).codeUnit = .ctl
    ∧ (Instr.sort 29 29 4 1 1).codeUnit = .oe ∧ (Instr.tdir 31).codeUnit = .se := by decide +kernel
theorem witness_StepKeepsOk : State.reset.ok ∧ step State.reset = .next State.reset := ⟨by decide, rfl⟩
/-! ### States that meet the hypotheses of further clauses -/

/-- Virtual tile 1 is saved, as its gang is; tile 5 held it. -/
def savedTwo (l : Bank 64) : State := { (regs l).modCtx 1 (fun c => { c with tmap := [(0, { phys := 0 }), (1, { phys := 5, saved := true })] }) with
  nodes := (regs l).nodes ++ [(1, { ctx := 1, rec_ := [], source := .spawn 0, st := .saved })] }
/-- A tile about to start a template: the word names the block at 0x1000 and barrier 15. -/
def starting (kind : Nat) : State := mems (caught [(1, 0xFF8), (9, 0xA500000000000040)]) [(0x1000, 1, kind)]
theorem witness_StoreResults_saved : (savedTwo [(1, 0x100040)]).near 1 ((savedTwo [(1, 0x100040)]).here.rd 1) 8 = .wait
    ∧ FMap.get? ((savedTwo []).ctxAt (savedTwo []).here.ctx).tmap (0x100040 / 2 ^ 20) = some { phys := 5, saved := true }
    ∧ templateOf (0x100040 % 2 ^ 20) 0 = none ∧ (savedTwo []).here.fresh := by decide +kernel
theorem witness_StoreResults_template : ∀ k ∈ [0, 1, 5], let s := starting k
    let r := (s.storeBytes (nearKey s.cur 0xFF8) (bytesOf (s.here.rd 9).toNat 8)).checkBlock s.cur 0x1000 .ce (some 15) false
    s.memOk ∧ s.ownNear s.cur (s.here.rd 1) 8 = .ok 0xFF8 ∧ templateOf 0xFF8 (s.here.rd 9) = some (0x40, 15) ∧ s.here.ce.cmds.length < 32
    ∧ s.here.reads = [] ∧ (∀ q ∈ s.accesses s.cur, q.orders s.cur 0xFF8 8 false = false) ∧ s.stalls s.cur 1 0xFF8 8 = false
    ∧ s.stalls s.cur 1 0x1000 64 = false ∧ (∀ f ∈ s.here.pend, f.source ≠ .ce)
    ∧ (k = 0 → r = .illegal) ∧ (k = 1 → blockTraps r = true) ∧ (k = 5 → blockPasses r = true) := by decide +kernel
/-- A tile that has arrived at a phase of its own scope, with one granule to commit. -/
def arrivedTile : State := tile (fun x => { x with arr := [(1, 1)], out := [(1, .phase, 0)], wait := some 1, psb := [(0x40, 7)] })
theorem witness_BarrierCompletion_granule : (args arrivedTile { n := 1, point := some 2 }).ok
    ∧ (args arrivedTile { n := 1, point := some 2 }).arg.point = some 2 ∧ (args arrivedTile { n := 1, point := some 2 }).barrierReady 0 1 = true := by decide +kernel
/-- The entry of `waiting`, with its footprint record at 0x3000. -/
def recorded : Entry := { no := 3, kind := .run 0x1000 0 1, pop := true, rec_ := some 0x3000 }
theorem witness_EngineEntries_records :
    (mems (waiting (.run 0x1000 0 1) none) [(0x3000, 4, 0x30000000)]).recordAt 0 0x3000 = .ok { rd := [(0, 24576)] }
    ∧ (mems (waiting (.run 0x1000 0 1) none) [(0x3000, 4, 0x30000000)]).freshRecord 0 recorded = some { recorded with fp := { rd := [(0, 24576)] } }
    ∧ base.freshRecord 0 { recorded with rec_ := none } = some { recorded with rec_ := none } := by decide +kernel
/-- A tile whose VE has a stamped entry at its head, with a footprint, and `tok` tokens; a command of the whole scratchpad is queued
before it. -/
def stampedHead (tok : Nat) (fp : Footprint) : State := { (tile (fun x => { x with
  lcTok := tok, ce := { cmds := [{ begun .lq [] with no := 2 }] }
  ve := { queue := [{ no := 3, kind := .run 0x1000 0 1, pop := true, stamp := some 0, fp := fp }] } })) with arg := { n := 3 } }
/-- That entry. -/
def stampedEntry (fp : Footprint) : Entry := { no := 3, kind := .run 0x1000 0 1, pop := true, stamp := some 0, fp := fp }
theorem witness_EngineEntries_misses : ∀ x ∈ [(0, {}), (1, whole), (1, ({} : Footprint))],
    let s := stampedHead x.1 x.2
    s.here.ve.flt = false ∧ s.held s.cur = false ∧ s.here.ve.queue.find? (fun k => decide (k.no = s.arg.n)) = some (stampedEntry x.2)
    ∧ s.dbc s.cur = 0 ∧ s.here.ve.run = none ∧ s.here.ve.queue.head? = some (stampedEntry x.2) ∧ s.here.pend = []
    ∧ s.here.tokenReady (stampedEntry x.2) = decide (x.1 = 1) ∧ s.freshRecord s.cur (stampedEntry x.2) = some (stampedEntry x.2)
    ∧ s.here.mayBegin 3 x.2 = decide (x.2 = {}) := by decide +kernel
/-- A block that copies 64 bytes of the buffer in c1 to 0x2000. -/
def farBlock : BitVec 512 := blockOf [(0, 1, 0x01), (16, 1, 129), (23, 5, 0x2000), (28, 2, 64)]
/-- A tile with that block at 0x1000; the buffer is another package's where `p` is. -/
def importing (p : Option (Nat × Word)) : State :=
  { (caught [(4, 0x1000)]).setHere { (caught [(4, 0x1000)]).here with caps := [(1, h9)] } with bufs := [(9, { aBuf with proxy := p })] }.storeBytes 0x1000 (bytesOf farBlock.toNat 64)
/-- The checks find buffers of other packages whose owners have not answered. -/
def blockUnbound : Accept → Bool
  | .unbound _ => true
  | _ => false
theorem witness_CommandsIssued_unbound : blockUnbound ((importing (some (5, h9))).checkBlock 0 0x1000 .ce (some 3) false) = true
    ∧ (importing (some (5, h9))).stalls 0 1 0x1000 64 = false ∧ (importing (some (5, h9))).ownNear 0 ((importing (some (5, h9))).here.rd 4) 64 = .ok 0x1000
    ∧ blockUnbound ((chained (importing (some (5, h9)))).checkBlock 0 0x1000 .ce none true) = true
    ∧ (chained (importing (some (5, h9)))).stalls 0 (cengRank .ce) 0x1000 64 = false := by decide +kernel
/-- A tile that spawns with slot c0: with the handles and buffers given. -/
def spawningWith (h : Word) (l : FMap Buf) : State :=
  { (caught [(4, 0x1000), (5, 1)]).setHere { (caught [(4, 0x1000), (5, 1)]).here with caps := [(0, h)] } with bufs := l }
theorem witness_TaskAndRingInstructions_handles :
    let slots := (List.range 64).filter (fun k => (1 : Word).getLsbD k)
    slots = [0] ∧ Fetchable ((spawningWith h9 []).here.rd 4)
    ∧ slots.find? (fun k => !(spawningWith h9 []).fresh? 1 ((spawningWith h9 []).here.cap k)) = some 0
    ∧ (spawningWith h9 []).here.cap 0 ≠ 0
    ∧ (spawningWith (handleOf 9 0 7) [(9, aBuf)]).fresh? 1 ((spawningWith (handleOf 9 0 7) [(9, aBuf)]).here.cap 0) = true
    ∧ hasRight ((spawningWith (handleOf 9 0 7) [(9, aBuf)]).here.cap 0) 3 = false
    ∧ (∀ k, k < 64 → (spawningWith h9 []).here.keptHandle k = 0) ∧ (spawningWith h9 []).here.canTrap := by decide +kernel
/-- The gang of node 0 has been given up by a yield on tile 0. -/
def lowGivenUp : Node := { low with yielding := some 0 }
def gaveUp : State := args (paged.modNode 0 (fun _ => lowGivenUp)) {}
theorem witness_TaskAndRingInstructions_yielding : gaveUp.ok ∧ gaveUp.arg.n = 0 ∧ gaveUp.node? 0 = some lowGivenUp ∧ lowGivenUp.yielding.isSome = true
    ∧ lowGivenUp.st = .run ∧ lowGivenUp.outcome = none ∧ gaveUp.heldCtx 1 = false ∧ gaveUp.yieldTo lowGivenUp = some (1, high)
    ∧ (gaveUp.takeSlots 1 1).isSome = true ∧ ∃ t, gaveUp.saveGang 0 lowGivenUp gaveUp.arg.list gaveUp.arg.k = .ok t := by
  refine ⟨by decide, by decide, by decide, by decide, by decide, by decide, by decide, by decide +kernel, ?_, ?_⟩
  · rw [takes_slot _ (by decide +kernel) (by decide +kernel)]; rfl
  · obtain ⟨r, h⟩ := of_opened (e := (chosen gaveUp).openSlots 1 true [0]) (by decide +kernel)
    exact saves_of _ _ _ _ _ _ r (takes_slot _ (by decide +kernel) (by decide +kernel)) (by decide +kernel) h
theorem witness_HandlersEndAndDeliver_engines :
    (let s := tile (fun x => { x with hm := true, epc := 0x1001, handling := some .ve, ve := { flt := true } })
     s.here.hm = true ∧ s.here.epc.toNat < 2 ^ 55 ∧ s.here.handling = some .ve ∧ (∀ d ∈ s.here.pend, d.source ≠ .ve)
     ∧ ∀ q ∈ s.here.ve.queue ++ s.here.xe.queue, q.stamp = none)
    ∧ (let s := tile (fun x => { x with hm := true, handling := some .ce, pend := [{ source := .ce, cause := 0x13, tval := 0 }] })
       ∃ d ∈ s.here.pend, d.source = .ce)
    ∧ (let s := tile (fun x => { x with hm := true, epc := 0x80000000000001 })
       s.ok ∧ s.here.hm = true ∧ 2 ^ 55 ≤ s.here.epc.toNat ∧ s.alone 0 ∧ s.here.inside = false ∧ (s.node? 0).isSome = true) := by decide +kernel
theorem witness_WindowsTokensRepliesAndTime_ends : base.suspended 0 = false ∧ base.givenUp 0 = false ∧ base.replyBefore 0 0 = false
    ∧ (tile (fun x => { x with slTok := 1 })).here.owed 2 < 1 ∧ 0 < ((regs [(5, 32)]).here.rd 5).toNat := by decide +kernel
theorem witness_SequencerQueues_accesses : (∀ p ∈ (queue 0 0).accesses 0, p.orders 0 0x1000 32 false = false) ∧ (queue 0 0).stalls 0 1 0x1000 32 = false
    ∧ (queue 0 1).stalls 0 1 0x1000 32 = false
    ∧ (queue 0 1).stalls 0 1 (elemAt ((queue 0 1).load 0x1008 8) 1) 8 = false ∧ (queue 0 1).stalls 0 1 (elemAt ((queue 0 1).load 0x1008 8) 0) 8 = false := by decide +kernel
theorem witness_EngineControls_landing :
    let s := { looping [] 0 with bits := [{ unit := .cmd 5 2, tile := 0, line := 0x40 }] }
    let r := runAt 2 5
    (s.here.engine s.eng).run = some r ∧ s.unitLanding s.cur ((r.base + 4 * 3) / 64) r.entry.no = true ∧ r.step < 3 ∧ 3 ≤ 4 ∧ 3 < r.wend
    ∧ r.base + 4 * 3 + 4 ≤ 0xC0000 ∧ s.stamped = false ∧ noFault s
    ∧ ({ s with tiles := [(0, { s.here with ve := { s.here.ve with run := some { r with entry := { r.entry with stamp := some 0 } } } })] } : State).stamped = true
    ∧ ∀ j, j < 5 → (looping [] 0).unitLanding 0 ((r.base + 4 * j) / 64) r.entry.no = false := by decide +kernel
/-- A state whose class engine's step already holds lines, in a turn bounded to `n` lines or row groups. -/
def holding (s : State) (lines : List Nat) (n : Nat) : State :=
  { s.setHere { s.here with xe := { s.here.xe with run := s.here.xe.run.map (fun r => { r with
    lines := lines.map (fun l => (l, List.replicate 64 0)), descs := lines.map (fun l => (l, s.descAt (64 * l))) }) } } with part := some n }
theorem witness_MatrixRegisters_lines :
    let s := matrix [(4, 0x8000), (6, 0x000000000B)] {} 0
    let rows := (List.range 32).flatMap (fun i => linesFrom (s.eReg 4 % 2 ^ 20 + i * 0) 128)
    (∀ r, s.here.xe.run = some r → ∀ l ∈ r.lines, l.2.length = 64) ∧ s.part = none
    ∧ (let t := holding s ((List.range 24).map (0x200 + ·)) 1
       t.part = some 1 ∧ (∀ l ∈ linesFrom (t.eReg 4 % 2 ^ 20) 1536, holdsLine t l = true) ∧ (∀ l ∈ rows, holdsLine t l = true)
       ∧ (∀ l ∈ linesFrom (t.eReg 4 % 2 ^ 20) 1536, t.accessCheck (lineAccess l false) = .pass
          ∧ (t.lineDesc l).toNat % 256 = 0x50 ∧ (t.lineDesc l).toNat < 2 ^ 14) ∧ t.rowLines (t.eReg 4 % 2 ^ 20) 0 rows false = .pass)
    ∧ (let t := holding s [0x200] 1
       ((linesFrom (t.eReg 4 % 2 ^ 20) 1536).map (lineAccess · false)).find? (fun a => !holdsLine t a.off.toNat) = some (lineAccess 0x8040 false)
       ∧ (rows.map (lineAccess · false)).find? (fun a => !holdsLine t a.off.toNat) = some (lineAccess 0x8040 false)
       ∧ t.accessCheck (lineAccess 0x8040 false) = .pass ∧ (t.lineDesc 0x8040).toNat % 256 = 0x50 ∧ (t.lineDesc 0x8040).toNat < 2 ^ 14
       ∧ t.eReg 5 % 64 = 0) := by decide +kernel
/-- An mma of ten rows and three columns over the lines from 0x9000 on, which begins or has applied a row group. -/
def tenRows (at_ : Option (Nat × Nat × Nat)) : State :=
  let s := matrix [(4, 0x9000), (6, 0x30A), (8, 0x9000)] {} 1000
  s.setHere { s.here with xe := { s.here.xe with run := s.here.xe.run.map (fun r => { r with mma := at_ }) } }
theorem witness_MatrixProducts_turns :
    let o := mmaOf 1 2 4 8 0 0 0
    let s := tenRows none
    let parts := s.aParts o 10 0 ++ s.bParts o 3 0
    s.mmaShape o = some (10, 3) ∧ s.mmaIssue o = .go 33 ∧ o.debit 16 10 ≤ s.here.ebud ∧ (10 + 7) / 8 = 2
    ∧ (let t := holding (tenRows none) ((List.range 8).map (0x240 + ·)) 1
       (∀ a ∈ parts, holdsLine t a.off.toNat = true) ∧ t.chunkCheck o 10 3 33 0 = .pass ∧ t.mmaAt = none ∧ t.mmaIssue o = .go 33)
    ∧ (let t := holding (tenRows (some (0, 1, 33))) ((List.range 8).map (0x240 + ·)) 1
       t.mmaAt = some (0, 1, 33) ∧ (∀ a ∈ parts, holdsLine t a.off.toNat = true) ∧ t.chunkCheck o 10 3 33 0 = .pass)
    ∧ (let t := holding (tenRows none) [] 1
       t.part = some 1 ∧ parts.find? (fun a => !holdsLine t a.off.toNat) = parts.head? ∧ (∀ a ∈ parts, a.write = false ∧ t.mmaLine o 33 a = .pass)
       ∧ t.alignCheck (t.eOff o.eA) (t.eReg (o.eA + 1)) 0 = .pass ∧ t.alignCheck (t.eOff o.eB) (t.eReg (o.eB + 1)) 0 = .pass) := by decide +kernel
theorem witness_TransfersRun_banks : (∀ k ∈ [0x01, 0x02, 0x04, 0x10, 0x12], (moves k).row = [])
    ∧ (let c := { begun .sq [(0, 1, 0x05), (1, 1, 4), (16, 1, 1)] with begun := false }
       let s := (moving c (moves 0x10)).setHere { (moving c (moves 0x10)).here with csTok := 1 }
       s.here.mayBegin c.no (s.refetch s.cur .ce c).fp = true ∧ s.blockWaits s.cur c = false)
    ∧ (let s := moving (begun .sq [(0, 1, 0x05)]) (moves 0x10)
       (∀ b ∈ (s.setHere { s.here with banks := [(3, cengRank .ce)] }).here.banks, b.2 = cengRank .ce))
    ∧ (let c := begun .sq [(0, 1, 0x03), (18, 5, 0xBFFC0), (23, 5, 0x1040), (28, 2, 64), (30, 2, 3)]
       let s := (moving c (moves 0x10)).modCtx 1 (fun c => { c with tmap := [(0, { phys := 0 }), (1, { phys := 5 })] })
       let tiles := ((List.range 16).filter (fun j => bitN (c.field 30 2) j)).filterMap (fun j =>
        (FMap.get? (s.ctxAt s.here.ctx).tmap (c.field 23 5 / 2 ^ 20 + j)).map (fun v => (c.field 23 5 / 2 ^ 20 + j, v.phys)))
       tiles = [(0, 0), (1, 5)] ∧ ∀ j ∈ [0, 63], ∀ k ∈ [0, 63], (c.ssrc + j) % 2 ^ 20 / 64 ≠ (c.field 23 5 % 2 ^ 20 + k) / 64) := by decide +kernel
theorem witness_InFlight_lines :
    (base.tile 0).bankTaken 0 (64 * landed.line) 64 = false ∧ (∀ b ∈ landed.data, b.1 < 64)
    ∧ (let c := { moves 1 with no := 2, refused := 1, torn := [(2 ^ 14 * 0 + 0x2FFF, 1)] }
       let s := { base.modTile 5 (fun x => { x with ce := { cmds := [c] } }) with land := [{ landed with desc := some 5 }] }
       s.landingCmd { landed with desc := some 5 } = some c ∧ Nat.testBit (FMap.getD 0 c.torn 0x2FFF) 0 = true ∧ ∀ k ∈ landed.data, k.1 ≠ 0)
    ∧ (let s := moving endedCmd (moves 0x10)
       s.receiverSaved 1 endedCmd = false ∧ (moving (moves 0x01) { endedCmd with que := .iq }).cmdReply 0 .ce = false) := by decide +kernel
theorem witness_Packets_homes :
    (∀ k, k < 2 → ∀ a ∈ [none, some anAmo], ∀ d ∈ [0, 5], let p := { accessOf k a with stile := d }
      (netted p {}).homeOf p = .ok p.dst p.addr ∧ (netted p {}).unitLanding p.dst (p.addr / 64) p.no = false ∧ (netted p {}).landing p.dst p.addr = false
      ∧ (∀ r ∈ [0, 1], ((netted p {}).tile p.dst).bankTaken r p.addr p.data.length = false))
    ∧ (∀ k, k < 2 → let p := { accessOf k none with vt := some 1 }
       let s := (netted p {}).modCtx 1 (fun c => { c with tmap := [(1, { phys := 5 })] })
       s.homeOf p = .ok 5 p.addr ∧ 5 ≠ p.dst)
    ∧ (let p := { arrived 1 0 [] with len := 65, arrived := false, point := 6 }
       10 < p.kind ∨ 64 < p.len)
    ∧ (let s := { base with pkg := { base.pkg with marked := [{ kind := 1, die := 0, index := 7, reason := 2 }] } }
       let p := (arrived 0 0 []).toRoute
       s.routerGone p 7 = true ∧ s.routerGone p 8 = false) := by decide +kernel
theorem witness_Meetings_entries :
    (let s := meeting { waiting := full16ops } (.operand (sent 0)) (fun c => { c with iod := [(0x080, 1)] }) {}
     s.entryTaken (sent 0) = false)
    ∧ (let w := { sent 0 with tag := 0x2000000, spilled := true, strAt := 0 }
       let s := meeting { waiting := full16ops ++ [w] } (.operand (sent 0)) (fun c => { c with iod := [(0x080, 1)] }) {}
       s.entryTaken (sent 0) = true ∧ s.storeroom 1 = true ∧ (s.station 0).waiting.find? (fun q => decide (q.ctx = 1 ∧ q.tag = 0x1000000)) = none
       ∧ ¬ ((s.station 0).waiting.filter (fun o => !o.spilled)).length < 16)
    ∧ (let s := meeting {} (.operand (sent 0)) id {}
       s.sender (sent 0) = .live 0 ∧ (s.tile 0).rq.length < 31 ∧ s.replyBefore 0 5 = false) := by decide +kernel
theorem witness_NodesArrive_spawnReply : (starving 1).replyBefore (starving 1).cur 6 = false := by decide +kernel
/-- Node 2 is over, and its one member on tile 3 has stopped. -/
def stoppedMember : State := (retiring 0x0200000000000101 (some (0, 0x16, 5)) 0).modTile 3 (fun x => { x with task := some 2, fin := true })
theorem witness_NodesRetire_stopped : (stoppedMember.members 2).map (·.1) = [3] ∧ ∀ m ∈ stoppedMember.members 2, m.2.drained = true ∧ m.2.fin = true := by decide +kernel
theorem witness_TaskAndRingInstructions_kept : interruptedSpawn.here.keptHandle 0 = h9 ∧ interruptedSpawn.here.cap 0 = 0
    ∧ ((List.range 64).filter (fun k => (1 : Word).getLsbD k)) = [0] := by decide +kernel
/-- Node 4 heads the strict lane of its class; a wide node of class 1 that cannot be placed heads it before node 3 pops. -/
def lane4 : Node := { ready4 with lane := some 1 }
def wide5 : Node := { ctx := 1, rec_ := [0x3000101, 0x1000, 0, 0, 0, 0, 0, 0], source := .spawn 0, st := .ready, cls := 1, bank := 2, lane := some 0 }
def laned (w : Bool) : State := args { paged.modTile 256 (fun x => { x with task := if w then some 0 else none }) with
  pkg := { paged.pkg with badDies := [2, 3, 4, 5, 6, 7] }
  nodes := if w then [(0, low), (3, ready3 0), (5, wide5)] else [(0, low), (4, lane4)] } { n := 1, m := 1 }
theorem witness_NodesDispatched_lanes :
    (let s := laned false
     s.ok ∧ s.arg.n = 1 ∧ s.laneHead 1 = some (4, lane4) ∧ s.node? 4 = some lane4 ∧ s.place 4 lane4 1 s.arg.m = some ([1], 1) ∧ lane4.rec_.length = 8
     ∧ s.expired lane4 = false ∧ lane4.st = .ready ∧ s.refsFit lane4.handles 0 0 = true ∧ recRstr lane4.rec_ = false)
    ∧ (let s := { laned false with nodes := [(0, low), (4, { lane4 with cls := 0 })] }
       s.laneHead 1 = none ∧ s.laneHead 0 = some (4, { lane4 with cls := 0 }))
    ∧ (let s := laned true
       s.laneHead 1 = some (5, wide5) ∧ s.place 5 wide5 1 1 = none ∧ s.laneHead 0 = none ∧ s.placeIn wide5 1 0 [] = none
     ∧ s.place 3 (ready3 0) 1 1 = some ([257], 1)
     ∧ (let r := ((s.groupsFor 1 (recWidth wide5.rec_)).filter (fun h => !h.isEmpty && h.all s.formable)).map (fun h => (h.head?, h.length, s.busyIn h))
        r = [(some 0, 128, 1), (some 256, 128, 1)])) := by decide +kernel
theorem witness_TasksInterrupted_inside : (tile (fun x => { x with sent := true })).here.inside = true ∧ (tile (fun x => { x with ret := some 0 })).here.inside = true
    ∧ base.here.inside = false ∧ base.here.task = some 0 := by decide
theorem witness_TranslationsAndRequests_takes :
    (responding true 0).pkg.linkUp = true ∧ (responding true 0).arg.size = 8
    ∧ (∀ code ∈ [0, 1], let s := responding true (BitVec.ofNat 64 (7 * 2 ^ 32 + code * 2 ^ 28 + 0xFFFFF))
       let t := s.modNode 0 (fun d => { d with overflow := some 5 })
       t.overflowing 1 5 = [0] ∧ s.overflowing 1 5 = [] ∧ t.node? 0 = some { low with overflow := some 5 } ∧ low.ctx = 1) := by decide +kernel
theorem witness_FarMemoryFromOutside_records :
    (let s := args { base with frameKey := [(0, { id := 0, gen := 1, lines := [] })] } { v := 0x40, k := 0, data := List.replicate 64 3, list := [0x2010] }
     s.ok ∧ s.arg.v.toNat + s.arg.data.length ≤ 2 ^ 52 ∧ s.arg.v.toNat % 64 = 0 ∧ s.arg.data.length = 64 * s.arg.list.length
     ∧ (FMap.get? s.frameKey 0).isSome = true ∧ s.arg.v.toNat / 64 ≤ 1024 * 0 + 1 ∧ 1024 * 0 + 1 ≤ (s.arg.v.toNat + s.arg.data.length - 1) / 64)
    ∧ (spanning aBuf (.bound 3)).arg.span = some (.bound 3) := by decide +kernel
theorem witness_ContextsAndRegisters_takes :
    (writing .iod 0 0 true).pkg.linkUp = true ∧ (writing .iod 0 0 true).arg.size = 8 ∧ (tailing 1023 6).pkg.linkUp = true ∧ (tailing 1023 6).arg.size = 8
    ∧ (args paged { ctx := 4095 }).pkg.linkUp = true ∧ ¬ (base.pkg.linkUp = true ∧ base.arg.size = 8)
    ∧ ¬ ((args paged { size := 4 }).pkg.linkUp = true ∧ (args paged { size := 4 }).arg.size = 8) := by decide +kernel
/-- An image that passes with no key fused; the images of every die. -/
def image (d : BitVec 512) : Image := { digest := d, manifest := 7, key := 0, signed := true, version := 0 }
def imaged (bad : Nat) : State := args State.reset { images := (List.range 27).map (fun d => (d, image (if d = bad then 8 else 7))) }
theorem witness_PackageManaged_images : (imaged 3).ok ∧ (imaged 3).pkg.booted = false
    ∧ (∀ d ∈ [25, 24, 16, 17, 18, 19, 20, 21, 22, 23, 26], FMap.get? (imaged 3).arg.images d = some (image 7))
    ∧ (image 7).digest = (image 7).manifest ∧ (image 7).key = (imaged 3).pkg.rootKey ∧ (image 7).signed = true
    ∧ (∀ d, d < 27 → FMap.getD 0 (imaged 3).pkg.fused (typeCode d) ≤ (image 7).version)
    ∧ FMap.get? (imaged 3).arg.images 3 = some (image 8) ∧ (image 8).digest ≠ (image 8).manifest
    ∧ FMap.get? (imaged 25).arg.images 25 = some (image 8) ∧ FMap.get? (imaged 26).arg.images 26 = some (image 8)
    ∧ (managed 0 1 0).pkg.linkUp = true ∧ (managed 0 1 0).arg.size = 8
    ∧ FMap.get? ({ (managed 1 1 0).pkg with images := [(25, image 7)] } : Pkg).images 25 = some (image 7) ∧ FMap.get? (managed 1 1 0).pkg.images 25 = none
    ∧ (2 : Word).getLsbD 1 = true ∧ (0x1000 : Word).getLsbD 1 = false ∧ (256 : Nat) ≤ 256 := by decide +kernel
theorem witness_PackageManaged_slice :
    let u : Retired := { kind := 2, die := 16, index := 5, reason := 2 }
    let s := { paged with pkg := { paged.pkg with marked := [u] } }
    s.pkg.marked[0]? = some u ∧ s.drainsNow u = true := by decide +kernel
theorem witness_StepRunsDecodedInstruction_turns :
    (let s := tile (fun x => { x with stop := true })
     s.seqRuns s.cur = true ∧ s.here.stop = true ∧ s.here.inside = false)
    ∧ ({ base with agenda := [.engPart 0 .xe 1] } : State).agenda = [.engPart 0 .xe 1]
    ∧ (let s := { base with agenda := [.time 0 5] }
       s.mayPass (fun _ => 0) 5 = true ∧ ∀ d, d < 27 → ¬ ((s.die d).outOfReset = true ∧ (s.die d).halted = false))
    ∧ (let s := { base.setDie 3 { outOfReset := true } with agenda := [.beats 3 2] }
       s.mayPass (fun d => if d = 3 then 2 else 0) 0 = true ∧ (s.die 3).outOfReset = true ∧ (s.die 3).halted = false)
    ∧ (let s := { (tile (fun x => { x with ve := { queue := [{ no := 3, kind := .run 0x1000 0 1, stamp := some 0 }] } })).setDie 0 { outOfReset := true } with agenda := [.beats 0 1] }
       s.mayPass (fun d => if d = 0 then 1 else 0) 0 = false) := by decide +kernel

theorem witness_MeetingTags_banks : (tagged 0x1000000 0xBFFC0 0x40).stalls 0 1 0xBFFC0 64 = false ∧ paged.frameFits 0x20000023 (2 ^ 64 + 0x20050000) = true
    ∧ (∀ g ∈ granulesOf base.here.psb, base.commitReady base.cur base.here.ctx g = true) := by decide +kernel

/-! ### Every word, field by field from its row of the opcode map (R32 to R38, R48 to R50) -/

theorem test_decode_seq_0 :
    decodeSeq 0b000001_00011_10101_01010_00000000000 = .add 3 21 10
    ∧ decodeSeq 0b000001_00011_10101_01010_00000000001 = .sub 3 21 10
    ∧ decodeSeq 0b000001_00011_10101_01010_00000000010 = .addw 3 21 10
    ∧ decodeSeq 0b000001_00011_10101_01010_00000000011 = .subw 3 21 10
    ∧ decodeSeq 0b000001_00011_10101_01010_00000000100 = .mul 3 21 10
    ∧ decodeSeq 0b000001_00011_10101_01010_00000000101 = .mulh 3 21 10
    ∧ decodeSeq 0b000001_00011_10101_01010_00000000110 = .mulhz 3 21 10
    ∧ decodeSeq 0b000001_00011_10101_01010_00000001000 = .div 3 21 10
    ∧ decodeSeq 0b000001_00011_10101_01010_00000001001 = .divz 3 21 10
    ∧ decodeSeq 0b000001_00011_10101_01010_00000001010 = .rem 3 21 10
    ∧ decodeSeq 0b000001_00011_10101_01010_00000001011 = .remz 3 21 10
    ∧ decodeSeq 0b000001_00011_10101_01010_00000010000 = .and 3 21 10 := by decide +kernel
theorem test_decode_seq_1 :
    decodeSeq 0b000001_00011_10101_01010_00000010001 = .or 3 21 10
    ∧ decodeSeq 0b000001_00011_10101_01010_00000010010 = .xor 3 21 10
    ∧ decodeSeq 0b000001_00011_10101_01010_00000010011 = .andn 3 21 10
    ∧ decodeSeq 0b000001_00011_10101_01010_00000011000 = .shl 3 21 10
    ∧ decodeSeq 0b000001_00011_10101_01010_00000011001 = .shr 3 21 10
    ∧ decodeSeq 0b000001_00011_10101_01010_00000011010 = .sar 3 21 10
    ∧ decodeSeq 0b000001_00011_10101_01010_00000100000 = .min 3 21 10
    ∧ decodeSeq 0b000001_00011_10101_01010_00000100001 = .max 3 21 10
    ∧ decodeSeq 0b000001_00011_10101_01010_00000100010 = .minz 3 21 10
    ∧ decodeSeq 0b000001_00011_10101_01010_00000100011 = .maxz 3 21 10
    ∧ decodeSeq 0b000001_00011_10101_0000000000101000 = .clz 3 21
    ∧ decodeSeq 0b000001_00011_10101_0000000000101001 = .ctz 3 21 := by decide +kernel
theorem test_decode_seq_2 :
    decodeSeq 0b000001_00011_10101_0000000000101010 = .popc 3 21
    ∧ decodeSeq 0b000010_00011_10101_1101010110011111 = .addi 3 21 0xD59F
    ∧ decodeSeq 0b000011_00011_10101_1101010110011111 = .andi 3 21 0xD59F
    ∧ decodeSeq 0b000100_00011_10101_1101010110011111 = .ori 3 21 0xD59F
    ∧ decodeSeq 0b000101_00011_10101_1101010110011111 = .xori 3 21 0xD59F
    ∧ decodeSeq 0b000110_00011_10101_0000000000_001010 = .shli 3 21 10
    ∧ decodeSeq 0b000110_00011_10101_0000000001_001010 = .shri 3 21 10
    ∧ decodeSeq 0b000110_00011_10101_0000000010_001010 = .sari 3 21 10
    ∧ decodeSeq 0b000111_00011_00000_1101010101111010 = .movw 3 0xD57A
    ∧ decodeSeq 0b001000_00011_000_01_1101010110011111 = .movk 3 1 0xD59F
    ∧ decodeSeq 0b001010_011_0101_01010_00101_000000000 = .cmp 3 5 10 5
    ∧ decodeSeq 0b001011_011_0101_01010_11010111000100 = .cmpi 3 5 10 0x35C4 := by decide +kernel
theorem test_decode_seq_3 :
    decodeSeq 0b001100_011_101_010_00000000000000000 = .pand 3 5 2
    ∧ decodeSeq 0b001100_011_101_010_00100000000000000 = .por 3 5 2
    ∧ decodeSeq 0b001100_011_101_010_01000000000000000 = .pxor 3 5 2
    ∧ decodeSeq 0b001100_011_101_010_01100000000000000 = .pandn 3 5 2
    ∧ decodeSeq 0b001100_011_101_00010000000000000000 = .pnot 3 5
    ∧ decodeSeq 0b001100_011_000000101_1_0000000000000 = .pset 3 1
    ∧ decodeSeq 0b001101_00011_10101_01010_00000000_101 = .sel 3 21 10 5
    ∧ decodeSeq 0b001110_00011_10101_001010_000101_0000 = .bfx 3 21 10 5
    ∧ decodeSeq 0b001110_00011_10101_001010_000101_0001 = .bfxs 3 21 10 5
    ∧ decodeSeq 0b001110_00011_10101_001010_000101_0010 = .bfi 3 21 10 5
    ∧ decodeSeq 0b010000_011_0_1101010101010101111010 = .br 3 0x35557A
    ∧ decodeSeq 0b010000_011_1_1101010101010101111010 = .brF 3 0x35557A := by decide +kernel
theorem test_decode_seq_4 :
    decodeSeq 0b010001_10000101010101010101010101 = .j 0x2155555
    ∧ decodeSeq 0b010010_10000101010101010101010101 = .jal 0x2155555
    ∧ decodeSeq 0b01001100000_00011_0000000000000000 = .jr 3
    ∧ decodeSeq 0b010011_00011_10101_0000000000000001 = .jalr 3 21
    ∧ decodeSeq 0b010100_00011_101010101010101111010 = .bdec 3 0x15557A
    ∧ decodeSeq 0b011000_00011_10101_10_1_1010111101001 = .ld 3 21 2 1 0x15E9
    ∧ decodeSeq 0b011001_00011_10101_10_0_1010111000100 = .st 3 21 2 0x15C4
    ∧ decodeSeq 0b011010_00011_10101_10_1_1010111101001 = .lde 3 21 2 1 0x15E9
    ∧ decodeSeq 0b011011_00011_10101_10_0_1010111000100 = .ste 3 21 2 0x15C4
    ∧ decodeSeq 0b011100_00011_10101_01010_0000_01_0_0000 = .amoAdd 3 21 10 1 0
    ∧ decodeSeq 0b011100_00011_10101_01010_0000_01_0_0001 = .amoAnd 3 21 10 1 0
    ∧ decodeSeq 0b011100_00011_10101_01010_0000_01_0_0010 = .amoOr 3 21 10 1 0 := by decide +kernel
theorem test_decode_seq_5 :
    decodeSeq 0b011100_00011_10101_01010_0000_01_0_0011 = .amoXor 3 21 10 1 0
    ∧ decodeSeq 0b011100_00011_10101_01010_0000_01_0_0100 = .amoMin 3 21 10 1 0
    ∧ decodeSeq 0b011100_00011_10101_01010_0000_01_0_0101 = .amoMax 3 21 10 1 0
    ∧ decodeSeq 0b011100_00011_10101_01010_0000_01_0_0110 = .amoMinz 3 21 10 1 0
    ∧ decodeSeq 0b011100_00011_10101_01010_0000_01_0_0111 = .amoMaxz 3 21 10 1 0
    ∧ decodeSeq 0b011100_00011_10101_01010_0000_01_0_1000 = .amoSwap 3 21 10 1 0
    ∧ decodeSeq 0b011100_00011_10101_01010_0000_01_0_1001 = .amoCas 3 21 10 1 0
    ∧ decodeSeq 0b011101000000000000000000_0011_0000 = .phase 3
    ∧ decodeSeq 0b011101000000000000000000_0011_0001 = .fence 3
    ∧ decodeSeq 0b011101000000000000000000_0011_0010 = .bar 3
    ∧ decodeSeq 0b011101000000000000000000_0011_0011 = .bara 3
    ∧ decodeSeq 0b011101000000000000000000_0011_0100 = .barw 3 := by decide +kernel
theorem test_decode_seq_6 :
    decodeSeq 0b011110_00011_010101_000000000000000 = .capq 3 21
    ∧ decodeSeq 0b01111000000_000011_010101_000000001 = .capdup 3 21
    ∧ decodeSeq 0b01111000000_000011_000000000000010 = .capdrop 3
    ∧ decodeSeq 0b011110_00011_010101_000000_01010_0011 = .capnew 3 21 10
    ∧ decodeSeq 0b01111000000_000011_000000000000100 = .cappub 3
    ∧ decodeSeq 0b01111000000_000011_000000_10101_0101 = .capnrw 3 21
    ∧ decodeSeq 0b011110_00011_010101_000000000000110 = .capxfer 3 21
    ∧ decodeSeq 0b01111000000_000011_000000_10101_0111 = .caprt 3 21
    ∧ decodeSeq 0b01111100000_00011_10101_00000000000 = .dset 3 21
    ∧ decodeSeq 0b011111_00011_10101_0000000000000001 = .dget 3 21
    ∧ decodeSeq 0b10000001_1_10101_01010_00101_0000_0010 = .erun 1 21 10 5 2
    ∧ decodeSeq 0b10000001_1_10101_00000_01010_00010000 = .eset 1 21 10 := by decide +kernel
theorem test_decode_seq_7 :
    decodeSeq 0b10000001_1_10101_00000_01010_00100000 = .eget 1 21 10
    ∧ decodeSeq 0b1000000_11_00000000000000000110000 = .ewait 3
    ∧ decodeSeq 0b1000000_11_10101_000000000001000000 = .estat 3 21
    ∧ decodeSeq 0b10000001_1_10101_01010_00101_01010000 = .ekld 1 21 10 5
    ∧ decodeSeq 0b1000000_11_10101_000000000001100000 = .estop 3 21
    ∧ decodeSeq 0b10000001_1_10101_01010_00101_01110000 = .eprg 1 21 10 5
    ∧ decodeSeq 0b10000001_1_10101_000000000010000000 = .fpr 1 21
    ∧ decodeSeq 0b100001_00011_10101_1010_000000000000 = .cpy 3 21 10
    ∧ decodeSeq 0b100010_00011_10101_1010_000000000000 = .idx 3 21 10
    ∧ decodeSeq 0b10001100000_01_0000000000000000000 = .tkpush 1
    ∧ decodeSeq 0b10001100000_10_0000000000000000001 = .tkpop 2
    ∧ decodeSeq 0b100011_00011_10_0000000000000000010 = .tktest 3 2 := by decide +kernel
theorem test_decode_seq_8 :
    decodeSeq 0b100100_00011_000000000000000000000 = .rddbc 3
    ∧ decodeSeq 0b100100_00011_000000000000000000001 = .rdaot 3
    ∧ decodeSeq 0b10010000000_00011_0000000000000010 = .sleepu 3
    ∧ decodeSeq 0b10010000000_00011_0000000000000011 = .sleepa 3
    ∧ decodeSeq 0b100100_00011_10101_0000000000000100 = .stamp 3 21
    ∧ decodeSeq 0b100101_00011_000000000000000000000 = .rqpop 3
    ∧ decodeSeq 0b100101_00011_000000000000000000001 = .rqpeek 3
    ∧ decodeSeq 0b100110_00011_00000_0101_000000000000 = .xbwait 3 5
    ∧ decodeSeq 0b100110_00011_00000_0101_000000000001 = .xbtest 3 5
    ∧ decodeSeq 0b10011000000_00011_0101_000000000010 = .xbarm 3 5
    ∧ decodeSeq 0b100111_00011_10101_010_0000000000000 = .hold 3 21 2
    ∧ decodeSeq 0b1001110000000000_011_0000000000001 = .free 3 := by decide +kernel
theorem test_decode_seq_9 :
    decodeSeq 0b101000_00011_0000_1_0000000000000000 = .chlink 3 1
    ∧ decodeSeq 0b101000000000000_1_0000000000000001 = .chkick 1
    ∧ decodeSeq 0b101000_00011_00000_0101_000000000010 = .scwait 3 5
    ∧ decodeSeq 0b101000_00011_00000_0101_000000000011 = .scpost 3 5
    ∧ decodeSeq 0b10100100000_00011_0000000000000000 = .qinit 3
    ∧ decodeSeq 0b10100100000_00011_10101_00000000001 = .qpush 3 21
    ∧ decodeSeq 0b101001_00011_10101_0000000000000010 = .qpop 3 21
    ∧ decodeSeq 0b101100_00011_10101_01010_00000000000 = .spawn 3 21 10
    ∧ decodeSeq 0b10110000000000000000000000000001 = .done
    ∧ decodeSeq 0b101100_00011_10101_01010_00000000010 = .condw 3 21 10
    ∧ decodeSeq 0b10110000000000000000000000000011 = .yield
    ∧ decodeSeq 0b101100_00011_000000000000000000100 = .self 3 := by decide +kernel
theorem test_decode_seq_10 :
    decodeSeq 0b101100_00011_000000000000000000101 = .deadl 3
    ∧ decodeSeq 0b101101_00011_10101_01010_00000000000 = .tailw 3 21 10
    ∧ decodeSeq 0b101101_00011_10101_0000000000000001 = .headr 3 21
    ∧ decodeSeq 0b101110_00011_10101_01010_00000000000 = .taga 3 21 10
    ∧ decodeSeq 0b10111000000_00011_0000000000000001 = .tagf 3
    ∧ decodeSeq 0b101110_00011_10101_01010_00000_01_0010 = .meet 3 21 10 1
    ∧ decodeSeq 0b110000_00011_000000000_0000001010_00 = .mfs 3 10
    ∧ decodeSeq 0b11000000000_00011_0001_0000001010_00 = .mts 3 10
    ∧ decodeSeq 0b11000000000000000010_1101010101_00 = .trap 853
    ∧ decodeSeq 0b11000000000000000011000000000000 = .rte
    ∧ decodeSeq 0b11000000000000000100_0011_00000000 = .icinv 3
    ∧ decodeSeq 0b11000000000000000101000000000000 = .wfe := by decide +kernel
theorem test_decode_seq_11 :
    decodeSeq 0b11000000000000000110000000000000 = .halt := by decide +kernel
theorem test_decode_ve_0 :
    decodeVe 0b00000001_00011_01_01010_01_10010_110_01 = .vaddF 3 1 10 1 18 6 1
    ∧ decodeVe 0b00000010_00011_01_01010_01_10010_110_01 = .vsubF 3 1 10 1 18 6 1
    ∧ decodeVe 0b00000011_00011_01_01010_01_10010_110_01 = .vmulF 3 1 10 1 18 6 1
    ∧ decodeVe 0b00000100_00011_01_01010_01_10010_110_01 = .vfmaF 3 1 10 1 18 6 1
    ∧ decodeVe 0b00000101_00011_01_01010_01_10010_110_01 = .vminF 3 1 10 1 18 6 1
    ∧ decodeVe 0b00000110_00011_01_01010_01_10010_110_01 = .vmaxF 3 1 10 1 18 6 1
    ∧ decodeVe 0b00000111_00011_01_01010_0000000_101_10 = .vabsF 3 1 10 5 2
    ∧ decodeVe 0b00001000_00011_01_01010_0000000_101_10 = .vnegF 3 1 10 5 2
    ∧ decodeVe 0b00001001_00011_01_01010_01_10010_110_01 = .vcvt 3 1 10 1 18 6 1
    ∧ decodeVe 0b00001010_00011_01_01010_0000000_101_00 = .vexp2 3 1 10 5
    ∧ decodeVe 0b00001011_00011_01_01010_0000000_101_00 = .vlog2 3 1 10 5
    ∧ decodeVe 0b00001100_00011_01_01010_0000000_101_00 = .vrcp 3 1 10 5 := by decide +kernel
theorem test_decode_ve_1 :
    decodeVe 0b00001101_00011_01_01010_0000000_101_00 = .vrsq 3 1 10 5
    ∧ decodeVe 0b00001110_00011_01_01010_0000000_101_00 = .vtanh 3 1 10 5
    ∧ decodeVe 0b00001111_10_101_10_00101_01_00110_001_10 = .vcmpF 2 5 2 5 1 6 1 2
    ∧ decodeVe 0b00010000_00011_01_01010_01_10010_110_01 = .vaddI 3 1 10 1 18 6 1
    ∧ decodeVe 0b00010001_00011_01_01010_01_10010_110_01 = .vsubI 3 1 10 1 18 6 1
    ∧ decodeVe 0b00010010_00011_01_01010_01_10010_110_01 = .vmulI 3 1 10 1 18 6 1
    ∧ decodeVe 0b00010011_00011_01_01010_01_10010_110_01 = .vmacI 3 1 10 1 18 6 1
    ∧ decodeVe 0b00010100_00011_01_01010_01_10010_110_00 = .vand 3 1 10 1 18 6
    ∧ decodeVe 0b00010101_00011_01_01010_01_10010_110_00 = .vor 3 1 10 1 18 6
    ∧ decodeVe 0b00010110_00011_01_01010_01_10010_110_00 = .vxor 3 1 10 1 18 6
    ∧ decodeVe 0b00010111_00011_01_01010_01_10010_110_01 = .vshl 3 1 10 1 18 6 1
    ∧ decodeVe 0b00011000_00011_01_01010_01_10010_110_01 = .vshr 3 1 10 1 18 6 1 := by decide +kernel
theorem test_decode_ve_2 :
    decodeVe 0b00011001_00011_01_01010_01_10010_110_01 = .vsar 3 1 10 1 18 6 1
    ∧ decodeVe 0b00011010_00011_01_01010_01_10010_110_01 = .vminI 3 1 10 1 18 6 1
    ∧ decodeVe 0b00011011_00011_01_01010_01_10010_110_01 = .vmaxI 3 1 10 1 18 6 1
    ∧ decodeVe 0b00011100_00011_01_01010_01_10010_110_01 = .vsat 3 1 10 1 18 6 1
    ∧ decodeVe 0b00011101_10_101_10_10101_01_00110_001_01 = .vcmpI 2 5 2 21 1 6 1 1
    ∧ decodeVe 0b0010000000_011_0_1_01010_0_1_10010_00000 = .mand 3 1 10 1 18
    ∧ decodeVe 0b0010000100_011_0_1_01010_0_1_10010_00000 = .mor 3 1 10 1 18
    ∧ decodeVe 0b0010001000_011_0_1_01010_0_1_10010_00000 = .mxor 3 1 10 1 18
    ∧ decodeVe 0b0010001100_011_0_1_01010_000000000000 = .mnot 3 1 10
    ∧ decodeVe 0b00100100_00011_0_1_10101_000000000000 = .mpopc 3 1 21
    ∧ decodeVe 0b00101000_00011_01_01010_0000000_101_00 = .vmov 3 1 10 5
    ∧ decodeVe 0b00101001_00011_01_01010_01_10010_110_00 = .vsel 3 1 10 1 18 6 := by decide +kernel
theorem test_decode_ve_3 :
    decodeVe 0b00101010_00011_00_10101_10_00101_010_00 = .vbcast 3 21 2 5 2
    ∧ decodeVe 0b00101011_00011_00_10101_00_01010_101_00 = .vperm 3 21 10 5
    ∧ decodeVe 0b00101100_00011_00_10101_00_01010_101_00 = .vred 3 21 10 5
    ∧ decodeVe 0b00110000_00011_10101_01010_1_000_010_00 = .vld 3 21 10 1 2
    ∧ decodeVe 0b00110001_00011_10101_01010_1_000_010_0_0 = .vst 3 21 10 1 2 0
    ∧ decodeVe 0b00110010_00011_10101_01010_0000_101_00 = .vldx 3 21 10 5
    ∧ decodeVe 0b00110011_00011_10101_01010_0000_101_00 = .vstx 3 21 10 5
    ∧ decodeVe 0b00111000_00011_00_10101_0000000000_10 = .vsk48 3 21 2
    ∧ decodeVe 0b00111001_00011_00_10101_00_01010_000_01 = .vxp48 3 21 10 1
    ∧ decodeVe 0b00111010_00100_00_10101_10_00101_010_00 = .vqnt 4 21 2 5 2
    ∧ decodeVe 0b00111011_00011_01_01010_01_10010_110_00 = .vdq 3 1 10 1 18 6
    ∧ decodeVe 0b010000000000000_00011_01_01010_101_00 = .vpushc 3 1 10 5 := by decide +kernel
theorem test_decode_ve_4 :
    decodeVe 0b01000001_00011_0000000_01_01010_101_00 = .vpopc 3 1 10 5 := by decide +kernel
theorem test_decode_ctl_0 :
    decodeVe 0b01001000_00011_1010101010101111010 = .eaddi 3 0x5557A
    ∧ decodeVe 0b01001001_00011_1010101010101111010 = .emovi 3 0x5557A
    ∧ decodeVe 0b010010100000000000000000_11010101 = .kbase 213
    ∧ decodeVe 0b01010000_11_1101111010_000000000000 = .loop 3 890
    ∧ decodeVe 0b01010001_11_1101111010_0101_00000000 = .loopp 3 890 5
    ∧ decodeVe 0b01010010000000000000000000000000 = .endl
    ∧ decodeVe 0b01010011000000000000000000000000 = .sstop
    ∧ decodeVe 0b01010100000000000000000000000000 = .snop
    ∧ (∀ d ∈ [decodeVe, decodeMe, decodeOe, decodeSe], d 0b01001000_00011_1010101010101111010 = .eaddi 3 0x5557A) := by decide +kernel
theorem test_decode_me_0 :
    decodeMe 0b00000001_011_10101_01010_101_10_000110 = .mma 3 21 10 5 2 6
    ∧ decodeMe 0b00000010_011_10101_01010_101_10_000110 = .mmaR 3 21 10 5 2 6
    ∧ decodeMe 0b00000011_011_10101_01010_101_10_000110 = .mmaS 3 21 10 5 2 6
    ∧ decodeMe 0b00001000_011_1_00000000000000000000 = .accnew 3 1
    ∧ decodeMe 0b00001001_011_1_00000000000000000000 = .accz 3 1
    ∧ decodeMe 0b00001010_011_1_01010_00101_0000000000 = .accld 3 1 10 5
    ∧ decodeMe 0b00001011_011_10101_01010_00101_000000 = .drain 3 21 10 5
    ∧ decodeMe 0b00001100_11_0_10101_0000000000000000 = .mdld 3 21
    ∧ decodeMe 0b00010000_0011_10101_000000000000000 = .bstr 3 21
    ∧ decodeMe 0b00010001_00011_10101_1010_0101_0_0_1_1_00 = .bfs 3 21 10 5 0 0 1 1
    ∧ decodeMe 0b00010010_00011_10101_1010_0101_0_0_1_1_00 = .bfc 3 21 10 5 0 0 1 1 := by decide +kernel
theorem test_decode_oe_0 :
    decodeOe 0b00000001_00011_00000_10101_010_1_0_0000 = .sort 3 21 2 1 0
    ∧ decodeOe 0b00000010_00011_10101_01010_100_1_0_0000 = .topk 3 21 10 4 1 0
    ∧ decodeOe 0b00000011_00011_10101_01010_100_1_0_0000 = .merge 3 21 10 4 1 0
    ∧ decodeOe 0b00000100_00011_10101_01010_100_1_0_0000 = .segsort 3 21 10 4 1 0
    ∧ decodeOe 0b00000101_00011_00000_10101_100_0_1_0000 = .uniq 3 21 4 0 1
    ∧ decodeOe 0b00000110_00011_10101_01010_100_1_0_0000 = .rankof 3 21 10 4 1 0 := by decide +kernel
theorem test_decode_se_0 :
    decodeSe 0b00000001_00011_10101_01010_1_0_0000000 = .spmv 3 21 10 1 0
    ∧ decodeSe 0b00000010_00011_10101_01010_1_0_0000000 = .spmm 3 21 10 1 0
    ∧ decodeSe 0b00000011_00011_10101_01010_000000000 = .spgemm 3 21 10
    ∧ decodeSe 0b00000100_00011_0000000000000000000 = .tdir 3 := by decide +kernel
/-! ### Ill-formed terms: each check refuses one, its word is an illegal word or micro-order, and the neighbour at the bound is
accepted -/

theorem test_illFormed_words : ∀ i ∈ ([.cmp 0 12 0 0, .cmpi 0 15 0 0, .bfx 0 0 40 24, .bfxs 0 0 63 1, .bfi 0 0 1 63, .ld 0 0 3 1 0,
    .lde 0 0 3 1 0, .phase 5, .fence 6, .bar 7, .bara 5, .barw 5, .tkpush 3, .tkpop 3, .tktest 0 3, .mfs 0 16, .mts 0 1023, .icinv 5] : List Instr),
    i.wf = false ∧ decodeSeq (encode i) = .illegalWord (BitVec.ofNat 32 (encode i)) := by decide +kernel

theorem test_boundary_words : ∀ i ∈ ([.cmp 0 11 0 0, .cmpi 0 11 0 0, .bfx 0 0 40 23, .bfxs 0 0 63 0, .bfi 0 0 0 63, .ld 0 0 3 0 0,
    .lde 0 0 2 1 0, .phase 4, .fence 4, .bar 4, .bara 4, .barw 4, .tkpush 2, .tkpop 2, .tktest 0 2, .mfs 0 15, .mts 0 15, .icinv 4] : List Instr),
    i.wf = true ∧ decodeSeq (encode i) = i := by decide +kernel

theorem test_illFormed_vector_words : ∀ i ∈ ([.vcvt 0 1 0 0 0x13 0 0, .vcvt 0 3 0 0 0x0A 0 0, .vcmpF 1 0 0 0 0 0 0 2, .vcmpI 2 0 0 0 0 0 0 2,
    .mand 0 0 8 1 0, .mor 0 1 0 0 8, .mxor 0 0 31 0 0, .mnot 0 0 8, .mpopc 0 0 8, .vbcast 0 0 0 0 0, .vred 0 0 11 0, .vsk48 31 0 0, .vqnt 2 0 1 0 0,
    .vqnt 4 31 1 0 0, .vqnt 0 0 3 0 0, .vdq 0 0 0 1 0 0, .vdq 0 1 0 0 0 0, .vpushc 0 0 0 0, .vpopc 0 3 0 0, .emovi 0 0x10800, .loop 0 0,
    .loopp 0 1 0, .loopp 0 1 9] : List Instr),
    i.wf = false ∧ decodeVe (encode i) = .illegalMicroOrder (BitVec.ofNat 32 (encode i)) := by decide +kernel

theorem test_boundary_vector_words : ∀ i ∈ ([.vcvt 0 1 0 0 0x12 0 0, .vcvt 0 3 0 0 0x10 0 0, .vcmpF 1 0 0 0 0 0 0 1, .vcmpF 2 0 0 0 0 0 0 2,
    .vcmpI 2 0 0 0 0 0 0 1, .mand 0 0 7 1 31, .mnot 0 0 7, .vbcast 0 0 1 0 0, .vred 0 0 10 0, .vsk48 30 0 0, .vqnt 7 30 2 0 0, .vqnt 1 31 1 0 0,
    .vdq 0 2 0 3 0 0, .vpushc 0 2 0 0, .emovi 1 0x10800, .emovi 0 0x10005, .loop 0 1, .loopp 0 1 1, .loopp 0 1 8] : List Instr),
    i.wf = true ∧ decodeVe (encode i) = i := by decide +kernel

theorem test_illFormed_matrix_words : ∀ i ∈ ([.mma 0 31 0 0 0 0, .mma 0 0 31 0 0 0, .mmaR 0 30 0 0 0 0, .mmaS 0 31 0 0 0 0, .bstr 12 0,
    .bfs 0 0 0 0 0 0 0 0, .bfs 0 0 13 0 0 0 0 0, .bfs 0 0 1 12 0 0 0 0, .bfs 0 0 1 1 1 0 0 0, .bfc 30 0 1 0 0 0 0 0, .bfc 0 31 1 0 0 0 0 0,
    .bfc 0 0 1 0 1 0 0 0, .bfc 0 8 1 0 0 1 0 1, .bfc 0 0 6 0 0 1 0 1, .bfc 0 0 1 0 0 1 0 0] : List Instr),
    i.wf = false ∧ decodeMe (encode i) = .illegalMicroOrder (BitVec.ofNat 32 (encode i)) := by decide +kernel

theorem test_boundary_matrix_words : ∀ i ∈ ([.mma 0 30 30 0 0 0, .mmaR 0 29 0 0 0 0, .bstr 11 0, .bfs 0 0 12 11 0 0 0 0, .bfc 29 30 1 1 1 0 0 0,
    .bfc 0 7 5 0 0 1 0 1] : List Instr), i.wf = true ∧ decodeMe (encode i) = i := by decide +kernel

theorem test_illFormed_sort_words : ∀ i ∈ ([.sort 30 0 0 0 0, .sort 0 30 0 0 0, .sort 0 0 5 0 0, .topk 30 0 0 0 0 0, .merge 0 30 0 0 0 0, .segsort 0 0 30 0 0 0,
    .uniq 0 0 0 1 0, .rankof 0 0 0 0 0 1] : List Instr),
    i.wf = false ∧ decodeOe (encode i) = .illegalMicroOrder (BitVec.ofNat 32 (encode i)) := by decide +kernel

theorem test_illFormed_sparse_words : (∀ i ∈ ([.spmv 0 0 30 0 0, .spmm 0 30 0 0 0, .spmm 0 0 30 0 0, .spgemm 0 0 30] : List Instr),
    i.wf = false ∧ decodeSe (encode i) = .illegalMicroOrder (BitVec.ofNat 32 (encode i)))
    ∧ ∀ i ∈ ([.spmv 0 31 29 0 0, .spmm 0 29 29 0 0, .spgemm 31 31 29] : List Instr), i.wf = true ∧ decodeSe (encode i) = i := by decide +kernel

/-- A sequencer word with an unused major, or with a one in a fixed field, is an illegal word (R38). -/
theorem test_unused_majors : ∀ w ∈ [0x00000000, 0xFFFFFFFF, 0x09 * 2 ^ 26, 0x17 * 2 ^ 26, 0x31 * 2 ^ 26],
    decodeSeq w = .illegalWord (BitVec.ofNat 32 w) := by decide +kernel

/-! ### Worked encodings of the manual: the source line and its word stand in the manual (R57, and the examples of the chapters) -/

theorem test_worked_words : decodeSeq 0x04A63800 = .add 5 6 7 ∧ decodeSeq 0x0842FFC0 = .addi 2 2 0xFFC0 ∧ decodeSeq 0x6083C008 = .ld 4 3 3 0 8
    ∧ decodeSeq 0x413FFFFD = .br 2 0x3FFFFD ∧ decodeSeq 0x08000000 = .addi 0 0 0 ∧ decodeSeq 0x04000007 = .illegalWord 0x04000007
    ∧ decodeSeq 0x6000C001 = .ld 0 0 3 0 1 ∧ decodeSeq 0x6000E000 = .illegalWord 0x6000E000 ∧ decodeSeq 0x1800C001 = .illegalWord 0x1800C001
    ∧ decodeSeq 0x38854072 = .bfi 4 5 16 7 ∧ decodeSeq 0x30A60000 = .pand 1 2 3 ∧ decodeSeq 0x32016000 = .pset 4 1
    ∧ decodeSeq 0x34853003 = .sel 4 5 6 3 ∧ decodeSeq 0x70C74079 = .amoCas 6 7 8 3 1 ∧ decodeSeq 0x7C053000 = .dset 5 6
    ∧ decodeSeq 0x84C73000 = .cpy 6 7 3 ∧ decodeSeq 0x98803000 = .xbwait 4 3 ∧ decodeSeq 0x9C854000 = .hold 4 5 2
    ∧ decodeSeq 0x8C080001 = .tkpop 1 ∧ decodeSeq 0x94800000 = .rqpop 4 ∧ decodeSeq 0xA0803003 = .scpost 4 3
    ∧ decodeSeq 0x78810006 = .capxfer 4 2 ∧ decodeSeq 0xB8C42802 = .meet 6 4 5 0 := by decide +kernel

theorem test_words_of_listings : decodeSeq 0x62A3C028 = .ld 21 3 3 0 40 ∧ decodeSeq 0x71982870 = .amoAdd 12 24 5 3 1
    ∧ decodeSeq 0x6CADC040 = .ste 5 13 3 64 ∧ decodeSeq 0xB4D52800 = .tailw 6 21 5 ∧ decodeSeq 0x68D1C040 = .lde 6 17 3 0 64
    ∧ decodeSeq 0x74000012 = .bar 1 ∧ decodeSeq 0x84C00000 = .cpy 6 0 0 ∧ decodeSeq 0x88A01000 = .idx 5 0 1
    ∧ decodeSeq 0x529FFFFF = .bdec 20 0x1FFFFF ∧ decodeSeq 0x99201000 = .xbwait 9 1 ∧ decodeSeq 0xB1153802 = .condw 8 21 7
    ∧ decodeSeq 0x74000001 = .fence 0 ∧ decodeSeq 0x79410173 = .capnew 10 2 23 ∧ decodeSeq 0x78008001 = .capdup 1 0
    ∧ decodeSeq 0x81A80B00 = .erun 1 10 0 11 0 ∧ decodeSeq 0x81280B00 = .erun 0 10 0 11 0 ∧ decodeSeq 0x81900C10 = .eset 1 4 12
    ∧ decodeSeq 0x81B00080 = .fpr 1 12 ∧ decodeSeq 0x78008004 = .cappub 1 ∧ decodeSeq 0x6CA40000 = .ste 5 4 0 0
    ∧ decodeSeq 0x81800030 = .ewait 3 := by decide +kernel

theorem test_worked_micro_orders : decodeVe 0x041848E9 = .vfmaF 3 0 4 2 7 2 1 ∧ decodeVe 0x02082470 = .vsubF 1 0 2 1 3 4 0
    ∧ decodeVe 0x09382063 = .vcvt 7 0 2 0 3 0 3 ∧ decodeVe 0x10286FA2 = .vaddI 5 0 6 3 0x1D 0 2 ∧ decodeVe 0x0F1840A2 = .vcmpF 0 3 0 4 0 5 0 2
    ∧ decodeVe 0x201034A0 = .mand 2 0 3 1 5 ∧ decodeVe 0x2C307004 = .vred 6 7 0 1 ∧ decodeVe 0x30810100 = .vld 16 4 0 1 0
    ∧ decodeVe 0x31A94100 = .vst 21 5 0 1 0 0 ∧ decodeVe 0x3A00A4E0 = .vqnt 0 10 1 7 0 ∧ decodeVe 0x38080002 = .vsk48 1 0 2
    ∧ decodeVe 0x33094604 = .vstx 1 5 3 1 ∧ decodeVe 0x31121208 = .vst 2 8 9 0 2 0 ∧ decodeVe 0x48280400 = .eaddi 5 1024
    ∧ decodeVe 0x49220200 = .emovi 4 0x20200 ∧ decodeVe 0x50007000 = .loop 0 7 ∧ decodeVe 0x52000000 = .endl ∧ decodeVe 0x53000000 = .sstop := by
  decide +kernel

theorem test_worked_matrix_words : decodeMe 0x01444345 = .mma 2 4 8 3 1 5 ∧ decodeMe 0x03244241 = .mmaS 1 4 8 2 1 1
    ∧ decodeMe 0x02044340 = .mmaR 0 4 8 3 1 0 ∧ decodeMe 0x0C490000 = .mdld 1 9 ∧ decodeMe 0x0B4A6380 = .drain 2 10 12 14
    ∧ decodeMe 0x08100000 = .accnew 0 1 ∧ decodeMe 0x101A0000 = .bstr 1 20 ∧ decodeOe 0x01201030 = .sort 4 8 0 1 1
    ∧ decodeOe 0x0221D030 = .topk 4 7 8 0 1 1 ∧ decodeOe 0x03221830 = .merge 4 8 12 0 1 1 ∧ decodeSe 0x02221880 = .spmm 4 8 12 0 1
    ∧ decodeSe 0x04200000 = .tdir 4 := by decide +kernel

/-! ### Results worked in the manual, and results worked by hand from its rules -/

/-- The state after an instruction. -/
def after (i : Instr) (s : State) : State := match exec i s with | .next t => t | _ => State.reset

/-- R64's example: −7 by 2, signed and unsigned. -/
theorem test_division :
    let s := regs [(4, 0xFFFFFFFFFFFFFFF9), (5, 2)]
    (after (.div 6 4 5) s).here.rd 6 = 0xFFFFFFFFFFFFFFFD ∧ (after (.rem 6 4 5) s).here.rd 6 = 0xFFFFFFFFFFFFFFFF
    ∧ (after (.divz 6 4 5) s).here.rd 6 = 0x7FFFFFFFFFFFFFFC ∧ (after (.remz 6 4 5) s).here.rd 6 = 1 := by decide +kernel
/-- R68's example, and a field of 64 bits. -/
theorem test_bit_fields :
    let s := regs [(4, 0x11111111), (5, 0x0ABC)]
    (after (.bfi 4 5 16 7) s).here.rd 4 = 0x11BC1111 ∧ (after (.bfxs 6 5 4 7) s).here.rd 6 = 0xFFFFFFFFFFFFFFAB
    ∧ (after (.bfx 6 5 0 63) s).here.rd 6 = 0x0ABC := by decide +kernel
/-- R63: wrapping, signed and unsigned high halves, word forms sign-extended, a result for s0 discarded. -/
theorem test_alu :
    let s := regs [(4, 0xFFFFFFFFFFFFFFFF), (5, 2), (7, 0x7FFFFFFF)]
    (after (.add 6 4 5) s).here.rd 6 = 1 ∧ (after (.mulh 6 4 5) s).here.rd 6 = 0xFFFFFFFFFFFFFFFF ∧ (after (.mulhz 6 4 5) s).here.rd 6 = 1
    ∧ (after (.addw 6 7 5) s).here.rd 6 = 0xFFFFFFFF80000001 ∧ (after (.add 0 4 5) s).here.rd 0 = 0
    ∧ (after (.clz 6 0) s).here.rd 6 = 64 ∧ (after (.movk 4 1 0x1234) s).here.rd 4 = 0xFFFFFFFF1234FFFF := by decide +kernel
/-- The word ld.64 s0, [s0+1] is refused at its operand check with MISALIGN_NEAR and address 1 (R18, R57's example, R358). -/
theorem test_misaligned_load :
    let t := after (.ld 0 0 3 0 1) (caught [])
    t.here.pc = 0x100 ∧ t.here.hm = true ∧ t.here.cause = 0x02 ∧ t.here.tval = 1 ∧ t.here.epc = (caught []).here.pc := by decide +kernel
/-- R72: a branch counts words from its own address; bdec decrements and branches while the result is not 0. -/
theorem test_branches :
    let s := regs [(4, 2)]
    (after (.br 0 5) s).here.pc = s.here.pc + 20 ∧ (after (.br 1 5) s).here.pc = s.here.pc + 4 ∧ (after (.bdec 4 3) s).here.pc = s.here.pc + 12
    ∧ (after (.bdec 4 3) s).here.rd 4 = 1 ∧ (after (.bdec 5 3) s).here.rd 5 = 0xFFFFFFFFFFFFFFFF := by decide +kernel

/-- A value n/d with a power of two for d. -/
def value (neg : Bool) (m : Nat) (e : Int) : Machine.Num := .fin neg m e

/-- R168's table of E4M3 bytes, and the last normal code before NaN. -/
theorem test_e4m3 : e4m3.decode 0x7F = .nan ∧ e4m3.decode 0xFF = .nan ∧ fp32.rne (e4m3.decode 0x7E) = 0x43E00000
    ∧ fp32.rne (e4m3.decode 0x08) = 0x3C800000 ∧ fp32.rne (e4m3.decode 0x01) = 0x3B000000 ∧ fp32.rne (e4m3.decode 0xB4) = 0xBF400000
    ∧ fp32.rne (e4m3.decode 0x80) = 0x80000000 := by decide +kernel
/-- R176's table, rows FP16, E5M2 and E4M3: modes RNE, RTZ, RUP, RDN, and RNE saturating. -/
theorem test_conversions_to_float :
    [0, 1, 2, 3].map (fun rm => fp16.cvt rm false (value false 65520 0)) = [0x7C00, 0x7BFF, 0x7C00, 0x7BFF]
    ∧ fp16.cvt 0 true (value false 65520 0) = 0x7BFF
    ∧ [0, 1, 2, 3].map (fun rm => e5m2.cvt rm false (value false 61440 0)) = [0x7C, 0x7B, 0x7C, 0x7B]
    ∧ [0, 1, 2, 3].map (fun rm => e4m3.cvt rm false (value false 464 0)) = [0x7E, 0x7E, 0x7E, 0x7E]
    ∧ [0, 1, 2, 3].map (fun rm => e4m3.cvt rm false (value true 1000 0)) = [0xFE, 0xFE, 0xFE, 0xFE]
    ∧ [0, 1, 2, 3].map (fun rm => fp16.cvt rm false (value false 1 (-25))) = [0, 0, 1, 0] := by decide +kernel
/-- R176's table, the FP4 and I8 rows; 0.3 and 300.7 stand here as the nearest 256ths. -/
theorem test_conversions_to_fp4 :
    [0, 1, 2, 3].map (fun rm => fp4Cvt 1 rm (value false 77 (-8))) = [1, 0, 1, 0]
    ∧ [0, 1, 2, 3].map (fun rm => fp4Cvt 1 rm (value true 77 (-8))) = [9, 0, 0, 9]
    ∧ [0, 1, 2, 3].map (fun rm => fp4Cvt 2 rm (value false 12 0)) = [6, 6, 7, 6]
    ∧ [0, 1, 2, 3].map (fun rm => fp4Cvt 3 rm (value false 6 0)) = [4, 4, 5, 4]
    ∧ [0, 1, 2, 3].map (fun rm => fp4Cvt 0 rm (value true 17 (-1))) = [8, 8, 8, 8]
    ∧ [0, 1, 2, 3].map (fun rm => numToInt rm (-128) 127 (value false 76979 (-8))) = [127, 127, 127, 127] := by decide +kernel
/-- R201's worked bag: 2^-24 and 1.0 add to 1.0 in FP32, and a third of 1.0 is 0x3EAAAAAB, in FP16 0x3555. -/
theorem test_worked_bag : fp32.add 0x33800000 0x3F800000 = 0x3F800000 ∧ divNum fp32 (fp32.decode 0x3F800000) (numOfInt 3) = 0x3EAAAAAB
    ∧ fp16.rne (fp32.decode 0x3EAAAAAB) = 0x3555 := by decide +kernel
/-- R216: exact powers of two and signed zeros. -/
theorem test_functions : vlog2Of 0x41000000 = 0x40400000 ∧ vlog2Of 0x3F800000 = 0 ∧ vexp2Of 0x40400000 = 0x41000000
    ∧ vrcpOf 0x40800000 = 0x3E800000 ∧ vrsqOf 0x40800000 = 0x3F000000 ∧ vtanhOf 0x80000000 = 0x80000000 := by decide +kernel
/-- R139's example: the first use of the dispatch LFSR reads banks 1 and 7, and the step leaves 0x5670. -/
theorem test_lfsr : lfsrStep 0xACE1 = 0x5670 ∧ (0xACE1 : BitVec 16).toNat % 32 = 1 ∧ (0xACE1 : BitVec 16).toNat / 32 % 32 = 7 := by decide

/-- R214, R217: a float sum with an inline literal, an 8-bit sum that wraps within its element, an inactive lane kept. -/
theorem test_vector_sums :
    let s := lanes [] [(64 * 2, 0x3F800000), (64 * 5 + 1, 77), (64 * 6, 0x80000001)] [(1, 1)]
    (after (.vaddI 5 0 6 3 0x1D 1 2) s).here.vec.lane 5 0 = 0x7DFDFDFE ∧ (after (.vaddI 5 0 6 3 0x1D 1 2) s).here.vec.lane 5 1 = 77
    ∧ (after (.vaddF 5 0 2 0 2 1 0) s).here.vec.lane 5 0 = 0x40000000 := by decide +kernel

/-- A copy of 64 bytes from line 4 to line 6, whose source line has a descriptor; a fill of line 6 with one. -/
def lineMove (kind : Nat) : State :=
  { moving (begun .lq [(0, 1, kind), (18, 4, 0x100), (22, 1, if kind = 4 then 1 else 0), (23, 5, 0x180), (28, 2, 64), (32, 2, 0x2010)]) (moves 0x10) with desc := [(4, 0x2012)] }
/-- R188, R192: the line takes the source line's descriptor, or DESC. -/
theorem test_line_descriptors : (after .copy (lineMove 1)).descAt 0x180 = 0x2012 ∧ (after .fill (lineMove 4)).descAt 0x180 = 0x2010 := by decide +kernel

end Sys2Proof.Tests
end

