-- ==== Sys2Proof/Proofs/Good.lean ====
section
/-! State.ok as a predicate that every operation of the model carries along, with the results of the operations that do not answer a
plain state. -/

namespace Sys2Proof

theorem FMap.mem_of_mem_set {α : Type} {m : FMap α} {k : Nat} {v : α} {x : Nat × α} (h : x ∈ FMap.set m k v) :
    x = (k, v) ∨ x ∈ m := by
  induction m with
  | nil => exact .inl (List.mem_singleton.1 h)
  | cons a t ih =>
    obtain ⟨j, w⟩ := a
    simp only [FMap.set] at h
    split at h
    · exact (List.mem_cons.1 h).imp id (List.mem_cons_of_mem _)
    · split at h
      · exact List.mem_cons.1 h
      · rcases List.mem_cons.1 h with rfl | h
        · exact .inr (List.mem_cons_self ..)
        · exact (ih h).imp id (List.mem_cons_of_mem _)

end Sys2Proof

namespace Sys2Proof.Machine

/-! ### What a table and the memory keep -/

theorem Rising.set {α : Type} {m : FMap α} {k : Nat} {v : α} (h : Rising m) : Rising (FMap.set m k v) := by
  induction m with
  | nil => exact List.pairwise_singleton ..
  | cons a t ih =>
    obtain ⟨j, w⟩ := a
    obtain ⟨hj, ht⟩ := List.pairwise_cons.1 h
    simp only [FMap.set]
    split
    · next e => exact List.pairwise_cons.2 ⟨fun b hb => e ▸ hj b hb, ht⟩
    · split
      · next hlt =>
        refine List.pairwise_cons.2 ⟨fun b hb => ?_, h⟩
        rcases List.mem_cons.1 hb with rfl | hb
        · exact hlt
        · exact Nat.lt_trans hlt (hj b hb)
      · next hne hnlt =>
        refine List.pairwise_cons.2 ⟨fun b hb => ?_, ih ht⟩
        rcases FMap.mem_of_mem_set hb with rfl | hb
        · exact Nat.lt_of_le_of_ne (Nat.le_of_not_lt hnlt) (Ne.symm hne)
        · exact hj b hb

/-- A change of a table entry by entry that leaves the keys alone. -/
theorem Rising.map {α β : Type} {m : FMap α} {f : Nat × α → Nat × β} (h : Rising m) (hf : ∀ x, (f x).1 = x.1) : Rising (m.map f) :=
  List.pairwise_map.2 (List.Pairwise.imp (fun {a b} hab => by rw [hf a, hf b]; exact hab) h)

theorem Memory.wf_foldl {α : Type} {l : List α} {f : List Host.Cell → α → List Host.Cell}
    (hf : ∀ {m a}, Memory.wf m = true → Memory.wf (f m a) = true) : ∀ {m}, Memory.wf m = true → Memory.wf (l.foldl f m) = true := by
  induction l with
  | nil => exact id
  | cons a t ih => exact fun h => ih (hf h)

theorem Memory.wf_copyLoop {src dst n : Nat} {m : List Host.Cell} (h : Memory.wf m = true) :
    Memory.wf (Mem.copyLoop m src dst n) = true := by
  induction n generalizing m src dst with
  | zero => exact h
  | succ n ih => exact ih (Memory.wf_set h ..)

theorem Memory.wf_putSlot {keys : List Nat} {off : Nat} {l : List Byte} {m : List Host.Cell} (h : Memory.wf m = true) :
    Memory.wf (putSlot m keys off l) = true := by
  induction l generalizing m off with
  | nil => exact h
  | cons b t ih => exact ih (Memory.wf_set h ..)

/-! ### The predicate, and what carries it -/

/-- State.ok as a predicate of its own, so that `h.settle` names the lemma that State.settle keeps it. It speaks of memory, tiles and
nodes only: a proof for `s` is one for `s` with any other field changed. -/
def State.Good (s : State) : Prop := s.ok

def OptionGood : Option State → Prop
  | some s => s.Good
  | none => True
def FstGood {α : Type} : Option (State × α) → Prop
  | some r => r.1.Good
  | none => True
def ExceptGood {α β : Type} : Except (State × α) (State × β) → Prop
  | .ok r => r.1.Good
  | .error r => r.1.Good
def Res.Good : Res → Prop
  | .next s => s.Good
  | _ => True
def FrameRes.Good : FrameRes → Prop
  | .ok s _ _ => s.Good
  | _ => True
def ShadowRes.Good : ShadowRes → Prop
  | .ok s _ => s.Good
  | _ => True
def ScdRes.Good : ScdRes → Prop
  | .ok s _ | .wait s | .failed s => s.Good
def Xfer.Good : Xfer → Prop
  | .go s _ | .fin s _ _ _ => s.Good
  | _ => True
def Got.Good : Got → Prop
  | .key s _ | .line s _ => s.Good
  | _ => True
def Put.Good : Put → Prop
  | .key s _ => s.Good
  | _ => True
def Lines.Good : Lines → Prop
  | .ok s _ | .format s _ => s.Good
  | _ => True
def ValRes.Good : ValRes → Prop
  | .ok s _ => s.Good
  | .stop x => x.Good
def ListRes.Good : ListRes → Prop
  | .ok s _ | .wait s => s.Good
def PagesRes.Good : PagesRes → Prop
  | .ok s _ | .wait s | .failed s => s.Good
def SaveRes.Good : SaveRes → Prop
  | .ok s | .wait s | .failed s => s.Good
  | .no => True
def SeqTurn.Good : SeqTurn → Prop
  | .done s | .word s _ => s.Good
  | .untranslated => True

theorem State.Good.ite {c : Prop} [Decidable c] {s t : State} (hs : s.Good) (ht : t.Good) : (if c then s else t).Good := by
  split
  · exact hs
  · exact ht

theorem Xfer.Good.ite {c : Prop} [Decidable c] {x y : Xfer} (hx : x.Good) (hy : y.Good) : (if c then x else y).Good := by
  split
  · exact hx
  · exact hy

theorem State.Good.fstIte {α : Type} {c : Prop} [Decidable c] {x y : State × α} (hx : x.1.Good) (hy : y.1.Good) :
    (if c then x else y).1.Good := by
  split
  · exact hx
  · exact hy

/-- The state that the reading of a line leaves. -/
theorem Got.Good.state {g : Got} {s : State} (hg : g.Good) (h : s.Good) :
    (match g with | .key s _ => s | .line s _ => s | _ => s).Good := by
  cases g with
  | key s k => exact hg
  | line s r => exact hg
  | _ => exact h

theorem Got.Good.line {g : Got} {s : State} (hg : g.Good) (h : s.Good) : (match g with | .line s _ => s | _ => s).Good := by
  cases g with
  | line s r => exact hg
  | _ => exact h

/-- The state that the finding of a destination leaves. -/
theorem Put.Good.state {d : Put} {s : State} (hd : d.Good) (h : s.Good) :
    (match (generalizing := false) d with | .key s' _ => s' | _ => s).Good := by
  cases d with
  | key s' k => exact hd
  | _ => exact h

/-- A destination found earlier, in a state reached since. -/
theorem Put.Good.moved {d : Put} {s : State} (hd : d.Good) (h : s.Good) :
    Put.Good (match (generalizing := false) d with | .key _ k => .key s k | d => d) := by
  cases d with
  | key s' k => exact h
  | _ => exact hd

theorem State.Good.foldl {α : Type} {l : List α} {f : State → α → State} {s : State} (h : s.Good)
    (hf : ∀ {s a}, s.Good → (f s a).Good) : (l.foldl f s).Good := by
  induction l generalizing s with
  | nil => exact h
  | cons a t ih => exact ih (hf h)

theorem OptionGood.getD {o : Option State} {s : State} (ho : OptionGood o) (h : s.Good) : (o.getD s).Good := by
  cases o with
  | none => exact h
  | some t => exact ho

theorem State.Good.mem {s : State} (h : s.Good) : Memory.wf s.mem = true := h.1
theorem State.Good.tiles {s : State} (h : s.Good) : Rising s.tiles := h.2.1
theorem State.Good.nodes {s : State} (h : s.Good) : Rising s.nodes := h.2.2
theorem State.Good.ofMem {s : State} {m : List Host.Cell} (h : s.Good) (hm : Memory.wf m = true) : { s with mem := m }.Good :=
  ⟨hm, h.tiles, h.nodes⟩
theorem State.Good.ofTiles {s : State} {m : FMap Tile} (h : s.Good) (hm : Rising m) : { s with tiles := m }.Good :=
  ⟨h.mem, hm, h.nodes⟩
theorem State.Good.ofNodes {s : State} {m : FMap Node} (h : s.Good) (hm : Rising m) : { s with nodes := m }.Good :=
  ⟨h.mem, h.tiles, hm⟩
/-- What reads the same memory, tiles and nodes is as good. -/
theorem State.Good.congr {s t : State} (h : s.Good) (hm : t.mem = s.mem) (ht : t.tiles = s.tiles) (hn : t.nodes = s.nodes) : t.Good :=
  ⟨(congrArg Memory.wf hm).trans h.mem, ht ▸ h.tiles, hn ▸ h.nodes⟩
/-- A change of the tiles, or of the nodes, entry by entry. -/
theorem State.Good.mapTiles {s : State} {f : Nat × Tile → Nat × Tile} (h : s.Good) (hf : ∀ x, (f x).1 = x.1) :
    { s with tiles := s.tiles.map f }.Good := h.ofTiles (h.tiles.map hf)
theorem State.Good.mapNodes {s : State} {f : Nat × Node → Nat × Node} (h : s.Good) (hf : ∀ x, (f x).1 = x.1) :
    { s with nodes := s.nodes.map f }.Good := h.ofNodes (h.nodes.map hf)

end Sys2Proof.Machine
end

