-- ==== Sys2Proof/Proofs/GoodMemory.lean ====
section
/-! The shared operations, near and far memory and the commands keep State.ok (R13, R16, R127). -/

namespace Sys2Proof.Machine

/-! ### The shared operations -/

theorem State.Good.setTile {s : State} {t : Nat} {x : Tile} (h : s.Good) : (s.setTile t x).Good :=
  h.ofTiles h.tiles.set
theorem State.Good.modTile {s : State} {t : Nat} {f : Tile → Tile} (h : s.Good) : (s.modTile t f).Good := h.setTile
theorem State.Good.setHere {s : State} {x : Tile} (h : s.Good) : (s.setHere x).Good := h.setTile
theorem State.Good.setCtx {s : State} {c : Nat} {x : Ctx} (h : s.Good) : (s.setCtx c x).Good := h
theorem State.Good.modCtx {s : State} {c : Nat} {f : Ctx → Ctx} (h : s.Good) : (s.modCtx c f).Good := h.setCtx
theorem State.Good.setDie {s : State} {d : Nat} {x : Die} (h : s.Good) : (s.setDie d x).Good := h
theorem State.Good.modDie {s : State} {d : Nat} {f : Die → Die} (h : s.Good) : (s.modDie d f).Good := h.setDie
theorem State.Good.setBuf {s : State} {a : Nat} {x : Buf} (h : s.Good) : (s.setBuf a x).Good := h
theorem State.Good.modBuf {s : State} {a : Nat} {f : Buf → Buf} (h : s.Good) : (s.modBuf a f).Good := h.setBuf
theorem State.Good.modNode {s : State} {n : Nat} {f : Node → Node} (h : s.Good) : (s.modNode n f).Good := by
  unfold State.modNode
  split
  · exact h.ofNodes h.nodes.set
  · exact h
theorem State.Good.modPkg {s : State} {f : Pkg → Pkg} (h : s.Good) : (s.modPkg f).Good := h
theorem State.Good.picked {s : State} (h : s.Good) : (s.picked).Good := h
theorem State.Good.retire {s : State} {d : BitVec 5} {v : Word} (h : s.Good) : (s.retire d v).Good := h.setHere
theorem State.Good.nextPc {s : State} (h : s.Good) : (s.nextPc).Good := h.setHere
theorem State.Good.store {s : State} {k n v : Nat} (h : s.Good) : (s.store k n v).Good :=
  h.ofMem (State.memOk_store h.mem k n v)
theorem State.Good.storeBytes {s : State} {k : Nat} {l : List Byte} (h : s.Good) : (s.storeBytes k l).Good :=
  h.ofMem (State.memOk_storeBytes h.mem k l)
theorem State.Good.setDesc {s : State} {k : Nat} {v : BitVec 16} (h : s.Good) : (s.setDesc k v).Good := h
theorem State.Good.clearMem {s : State} {k n : Nat} (h : s.Good) : (s.clearMem k n).Good :=
  h.ofMem (State.memOk_clearMem h.mem k n)
theorem State.Good.touch {s : State} {t rank off n : Nat} (h : s.Good) : (s.touch t rank off n).Good := h.modTile
theorem State.Good.raise {s : State} {t : Nat} {src : Source} {cause : Nat} {tval : Word} (h : s.Good) : (s.raise t src cause tval).Good :=
  h.modTile
theorem State.Good.orEntry {s : State} {k mask : Nat} (h : s.Good) : (s.orEntry k mask).Good := h.store
theorem State.Good.storeWords {s : State} {k : Nat} {l : List Nat} (h : s.Good) : (s.storeWords k l).Good := by
  induction l generalizing s k with
  | nil => exact h
  | cons a l ih => exact ih h.store
theorem State.Good.post {s : State} {c code cause a b : Nat} (h : s.Good) : (s.post c code cause a b).Good := by
  dsimp only [State.post]
  exact .ite (.modCtx h.storeWords) h.modCtx
theorem State.Good.freeFrames {s : State} {c : Nat} {l : List Nat} (h : s.Good) : (s.freeFrames c l).Good := h.modCtx
theorem State.Good.discardShadows {s : State} {a : Nat} (h : s.Good) : (s.discardShadows a).Good := .setBuf h.freeFrames
theorem State.Good.sendSpan {s : State} {p : Nat} {q : SpanReq} (h : s.Good) : (s.sendSpan p q).Good := h
theorem State.Good.dropXlat {s : State} {c lo n : Nat} (h : s.Good) : (s.dropXlat c lo n).Good := h
theorem State.Good.seenAll {s : State} {c lo n : Nat} (h : s.Good) : (s.seenAll c lo n).Good := h
theorem State.Good.invalidate {s : State} {c lo n : Nat} (h : s.Good) : (s.invalidate c lo n).Good := .seenAll h.dropXlat
theorem State.Good.unmapPages {s : State} {c vpn n : Nat} (h : s.Good) : (s.unmapPages c vpn n).Good := by
  induction n generalizing s vpn with
  | zero => exact h
  | succ n ih => exact ih (by split; exacts [.ite (.store (.ite h.freeFrames h)) h, h])
theorem State.Good.releaseFrame {s : State} {c : Nat} {o : OldLeaf} (h : s.Good) : (s.releaseFrame c o).Good := by
  dsimp only [State.releaseFrame]
  exact .ite h.freeFrames h.post
theorem State.Good.releaseUnread {s : State} {a : Nat} {views : List Nat} (h : s.Good) : (s.releaseUnread a views).Good :=
  .foldl h.setBuf fun h => h.releaseFrame
theorem State.Good.leavePool {s : State} {c vpn n : Nat} (h : s.Good) : (s.leavePool c vpn n).Good := by
  induction n generalizing s vpn with
  | zero => exact h
  | succ n ih => exact ih (by split; exacts [.ite h.modCtx h, h])
theorem State.Good.forgetWrites {s : State} {a : Nat} (h : s.Good) : (s.forgetWrites a).Good :=
  h.ofNodes (h.nodes.map fun _ => rfl)
theorem State.Good.settle {s : State} {a : Nat} (h : s.Good) : (s.settle a).Good := by
  dsimp only [State.settle]
  refine h.ite (.ite (.modBuf ?_) (h.ite (.forgetWrites h.discardShadows)))
  split
  · exact .sendSpan (.releaseUnread (.forgetWrites h.discardShadows))
  · exact .ite (.invalidate (.unmapPages (.releaseUnread (.forgetWrites h.discardShadows)))) (.post (.leavePool (.releaseUnread
      (.forgetWrites h.discardShadows))))
theorem State.Good.dropRef {s : State} {a : Nat} (h : s.Good) : (s.dropRef a).Good := .settle h.modBuf
theorem State.Good.dropRefs {s : State} {l : List Word} (h : s.Good) : (s.dropRefs l).Good := by
  induction l generalizing s with
  | nil => exact h
  | cons a l ih => exact ih (h.ite h.dropRef)
theorem State.Good.dropSlots {s : State} {t : Nat} (h : s.Good) : (s.dropSlots t).Good := .dropRefs h.modTile
theorem State.Good.releaseOld {s : State} {a : Nat} (h : s.Good) : (s.releaseOld a).Good := h.releaseUnread
theorem State.Good.endBinds {s : State} {born no : Nat} {l : List Word} (h : s.Good) : (s.endBinds born no l).Good :=
  h.foldl fun h => by split; exacts [h.sendSpan, h]
theorem State.Good.endRefs {s : State} {c : Cmd} (h : s.Good) : (s.endRefs c).Good := .foldl (.dropRefs h.endBinds) fun h => h.releaseOld
theorem State.Good.discardCmds {s : State} {t : Nat} {e : CEng} (h : s.Good) : (s.discardCmds t e).Good :=
  .foldl h.modTile fun h => h.endRefs
theorem State.Good.stopMember {s : State} {t : Nat} (h : s.Good) : (s.stopMember t).Good := by
  dsimp only [State.stopMember]
  exact .ite h.modTile (.dropSlots (.discardCmds (.discardCmds h.modTile)))
theorem State.Good.failTask {s : State} {n code cause : Nat} {tval : Word} (h : s.Good) : (s.failTask n code cause tval).Good :=
  .modNode (h.foldl fun h => h.stopMember)
theorem State.Good.fail {s : State} {t cause : Nat} {tval : Word} (h : s.Good) : (s.fail t cause tval).Good := by
  dsimp only [State.fail]
  split
  · exact h.failTask
  · exact h.stopMember
theorem State.Good.take {s : State} {t cause : Nat} {tval : Word} {d : Bool} (h : s.Good) : (s.take t cause tval d).Good := by
  dsimp only [State.take]
  exact .ite h.fail h.setTile
theorem State.Good.trap {s : State} {cause : Nat} {tval : Word} (h : s.Good) : (s.trap cause tval).Good := h.take
theorem State.Good.rte {s : State} {t : Nat} (h : s.Good) : (s.rte t).Good := by
  dsimp only [State.rte]
  exact .ite h.take h.setTile

/-! ### The scalar instructions -/

theorem State.Good.alu {f : Word → Word → Word} {d a b : BitVec 5} {s : State} (h : s.Good) : Res.Good (alu f d a b s) := h.retire
theorem State.Good.alu1 {f : Word → Word} {d a : BitVec 5} {s : State} (h : s.Good) : Res.Good (alu1 f d a s) := h.retire
theorem State.Good.execAdd {d a b : BitVec 5} {s : State} (h : s.Good) : Res.Good (execAdd d a b s) := h.alu
theorem State.Good.execSub {d a b : BitVec 5} {s : State} (h : s.Good) : Res.Good (execSub d a b s) := h.alu
theorem State.Good.execAddw {d a b : BitVec 5} {s : State} (h : s.Good) : Res.Good (execAddw d a b s) := h.alu
theorem State.Good.execSubw {d a b : BitVec 5} {s : State} (h : s.Good) : Res.Good (execSubw d a b s) := h.alu
theorem State.Good.execMul {d a b : BitVec 5} {s : State} (h : s.Good) : Res.Good (execMul d a b s) := h.alu
theorem State.Good.execMulh {d a b : BitVec 5} {s : State} (h : s.Good) : Res.Good (execMulh d a b s) := h.alu
theorem State.Good.execMulhz {d a b : BitVec 5} {s : State} (h : s.Good) : Res.Good (execMulhz d a b s) := h.alu
theorem State.Good.execDiv {d a b : BitVec 5} {s : State} (h : s.Good) : Res.Good (execDiv d a b s) := h.alu
theorem State.Good.execDivz {d a b : BitVec 5} {s : State} (h : s.Good) : Res.Good (execDivz d a b s) := h.alu
theorem State.Good.execRem {d a b : BitVec 5} {s : State} (h : s.Good) : Res.Good (execRem d a b s) := h.alu
theorem State.Good.execRemz {d a b : BitVec 5} {s : State} (h : s.Good) : Res.Good (execRemz d a b s) := h.alu
theorem State.Good.execAnd {d a b : BitVec 5} {s : State} (h : s.Good) : Res.Good (execAnd d a b s) := h.alu
theorem State.Good.execOr {d a b : BitVec 5} {s : State} (h : s.Good) : Res.Good (execOr d a b s) := h.alu
theorem State.Good.execXor {d a b : BitVec 5} {s : State} (h : s.Good) : Res.Good (execXor d a b s) := h.alu
theorem State.Good.execAndn {d a b : BitVec 5} {s : State} (h : s.Good) : Res.Good (execAndn d a b s) := h.alu
theorem State.Good.execShl {d a b : BitVec 5} {s : State} (h : s.Good) : Res.Good (execShl d a b s) := h.alu
theorem State.Good.execShr {d a b : BitVec 5} {s : State} (h : s.Good) : Res.Good (execShr d a b s) := h.alu
theorem State.Good.execSar {d a b : BitVec 5} {s : State} (h : s.Good) : Res.Good (execSar d a b s) := h.alu
theorem State.Good.execMin {d a b : BitVec 5} {s : State} (h : s.Good) : Res.Good (execMin d a b s) := h.alu
theorem State.Good.execMax {d a b : BitVec 5} {s : State} (h : s.Good) : Res.Good (execMax d a b s) := h.alu
theorem State.Good.execMinz {d a b : BitVec 5} {s : State} (h : s.Good) : Res.Good (execMinz d a b s) := h.alu
theorem State.Good.execMaxz {d a b : BitVec 5} {s : State} (h : s.Good) : Res.Good (execMaxz d a b s) := h.alu
theorem State.Good.execClz {d a : BitVec 5} {s : State} (h : s.Good) : Res.Good (execClz d a s) := h.alu1
theorem State.Good.execCtz {d a : BitVec 5} {s : State} (h : s.Good) : Res.Good (execCtz d a s) := h.alu1
theorem State.Good.execPopc {d a : BitVec 5} {s : State} (h : s.Good) : Res.Good (execPopc d a s) := h.alu1
theorem State.Good.execAddi {d a : BitVec 5} {imm : BitVec 16} {s : State} (h : s.Good) : Res.Good (execAddi d a imm s) := h.alu1
theorem State.Good.execAndi {d a : BitVec 5} {imm : BitVec 16} {s : State} (h : s.Good) : Res.Good (execAndi d a imm s) := h.alu1
theorem State.Good.execOri {d a : BitVec 5} {imm : BitVec 16} {s : State} (h : s.Good) : Res.Good (execOri d a imm s) := h.alu1
theorem State.Good.execXori {d a : BitVec 5} {imm : BitVec 16} {s : State} (h : s.Good) : Res.Good (execXori d a imm s) := h.alu1
theorem State.Good.execShli {d a : BitVec 5} {n : BitVec 6} {s : State} (h : s.Good) : Res.Good (execShli d a n s) := h.alu1
theorem State.Good.execShri {d a : BitVec 5} {n : BitVec 6} {s : State} (h : s.Good) : Res.Good (execShri d a n s) := h.alu1
theorem State.Good.execSari {d a : BitVec 5} {n : BitVec 6} {s : State} (h : s.Good) : Res.Good (execSari d a n s) := h.alu1
theorem State.Good.execBfx {d a : BitVec 5} {pos wm1 : BitVec 6} {s : State} (h : s.Good) : Res.Good (execBfx d a pos wm1 s) := h.alu1
theorem State.Good.execBfxs {d a : BitVec 5} {pos wm1 : BitVec 6} {s : State} (h : s.Good) : Res.Good (execBfxs d a pos wm1 s) := h.alu1
theorem State.Good.retireP {s : State} {pd : BitVec 3} {b : Bool} (h : s.Good) : (s.retireP pd b).Good := h.setHere

/-! ### Far memory: walks, requests, frames and shadows -/

theorem State.Good.askWalk {s : State} {holder c vpn : Nat} {write prefetch : Bool} (h : s.Good) :
    (s.askWalk holder c vpn write prefetch).Good := by
  dsimp only [State.askWalk]
  exact .ite h (by split; exacts [h, h])
theorem State.Good.notify {s : State} {c vpn count : Nat} (h : s.Good) : (s.notify c vpn count).Good := by
  dsimp only [State.notify]
  exact .ite (.modCtx h.storeWords) h.modCtx
theorem State.Good.countRead {s : State} {c vpn : Nat} (h : s.Good) : (s.countRead c vpn).Good := by
  dsimp only [State.countRead]
  split
  · exact .ite h.modCtx (.ite (.notify h.modCtx) h.modCtx)
  · exact h.ite (.ite (.notify h.modCtx) h.modCtx)
theorem State.Good.countLeaf {s : State} {c vpn pte : Nat} (h : s.Good) : (s.countLeaf c vpn pte).Good := by
  dsimp only [State.countLeaf]
  exact .ite h.countRead h
theorem State.Good.frameLine {s : State} {c vpn va pte : Nat} {large : Bool} (h : s.Good) : (s.frameLine c vpn va pte large).1.Good := by
  dsimp only [State.frameLine]
  exact h.ite h.picked
theorem State.Good.putHot {s : State} {h : HotLine} (hs : s.Good) : (s.putHot h).Good := by
  dsimp only [State.putHot]
  split
  · exact hs
  · exact hs
theorem State.Good.readFarLine {s : State} {holder c a v va : Nat} {count alloc : Bool} (h : s.Good) :
    FstGood (s.readFarLine holder c a v va count alloc) := by
  dsimp only [State.readFarLine]
  split
  · exact h.picked
  · split
    · exact trivial
    · split
      · exact State.Good.congr (State.Good.ite h.countLeaf h) rfl rfl rfl
      · exact State.Good.ite (State.Good.putHot (.frameLine (.ite h.countLeaf h))) (State.Good.frameLine (.ite h.countLeaf h))
theorem State.Good.request {s : State} {c vpn reason : Nat} {write : Bool} {eng tile : Nat} (h : s.Good) :
    (s.request c vpn reason write eng tile).1.Good := by
  dsimp only [State.request]
  split
  · exact h
  · exact State.Good.setCtx h.picked
theorem State.Good.takeFrame {s : State} {c : Nat} (h : s.Good) : FstGood (s.takeFrame c) := by
  dsimp only [State.takeFrame]
  split
  · exact trivial
  · split
    · exact trivial
    · exact State.Good.setCtx h.picked
theorem State.Good.copyRange {s : State} {src dst n : Nat} (h : s.Good) : (s.copyRange src dst n).Good :=
  (h.clearMem (k := dst) (n := n)).ofMem (Memory.wf_foldl (fun h => Memory.wf_set h ..) (State.Good.clearMem h).mem)
theorem State.Good.keyFrame {s : State} {frame key : Nat} (h : s.Good) : (s.keyFrame frame key).Good := h
theorem State.Good.scramble {s : State} {k : Nat} {l : List Nat} (h : s.Good) : (s.scramble k l).Good := by
  dsimp only [State.scramble]
  exact h.ite (.foldl h.picked fun h => h.storeBytes)
theorem State.Good.copyFrame {s : State} {pte k dst : Nat} (h : s.Good) : (s.copyFrame pte k dst).Good := .scramble h.copyRange
theorem State.Good.underKey {s : State} {pte k : Nat} {write : Bool} (h : s.Good) : (s.underKey pte k write).Good := by
  dsimp only [State.underKey]
  exact h.ite (.keyFrame h.scramble)
theorem State.Good.writeFrame {s : State} {holder c a vpn : Nat} (h : s.Good) : (s.writeFrame holder c a vpn).Good := by
  dsimp only [State.writeFrame]
  split
  · exact trivial
  · split
    · exact trivial
    · split
      · exact trivial
      · split
        · exact trivial
        · next _ _ e => exact State.Good.keyFrame (e ▸ h.takeFrame :)
theorem State.Good.shadowFor {s : State} {holder c a vpn : Nat} (h : s.Good) : (s.shadowFor holder c a vpn).Good := by
  dsimp only [State.shadowFor]
  split
  · exact h
  · split
    · exact trivial
    · exact trivial
    · next _ _ _ e => exact State.Good.modBuf (.copyFrame (e ▸ h.writeFrame :))
theorem State.Good.stageFor {s : State} {holder c a vpn : Nat} (h : s.Good) : (s.stageFor holder c a vpn).Good := by
  dsimp only [State.stageFor]
  split
  · exact h
  · split
    · exact trivial
    · exact trivial
    · next _ _ _ e => exact State.Good.modBuf (e ▸ h.writeFrame :)
theorem State.Good.forgetFailed {s : State} {c va : Nat} (h : s.Good) : (s.forgetFailed c va).Good := h.modCtx
theorem State.Good.scd {s : State} {c va : Nat} {write : Bool} (h : s.Good) : (s.scd c va write).Good := by
  have ask : ∀ {o : Option PageReq} {r : Nat}, ScdRes.Good (match o with
      | some _ => .failed s
      | none => .wait (s.request c (va / 2 ^ 16) r write 0 (26 * 256)).1) := by
    intro o r
    split
    · exact h
    · exact h.request
  unfold State.scd
  dsimp only
  split
  · exact ask
  · split
    · exact ask
    · exact State.Good.underKey h.orEntry

/-! ### Near memory -/

theorem State.Good.send {s : State} {p : Packet} (h : s.Good) : (s.send p).Good := .setHere h
theorem State.Good.sendRead {s : State} {p : Packet} {r : PendRead} (h : s.Good) : (s.sendRead p r).Good := .setHere h.send
theorem State.Good.loadNear {s : State} {d : BitVec 5} {n : Nat} {z buf : Bool} {a : Word} (h : s.Good) :
    (loadNear s d n z buf a).Good := by
  dsimp only [Machine.loadNear]
  refine h.ite ?_
  split
  · exact h.trap
  · exact h
  · exact .ite (h.ite (.retire h.touch)) h.sendRead
theorem State.Good.execSt {d base : BitVec 5} {size : BitVec 2} {off : BitVec 13} {s : State} (h : s.Good) :
    Res.Good (execSt d base size off s) := by
  dsimp only [Machine.execSt, Res.Good]
  split
  · exact h.trap
  · exact State.Good.ite h.trap h.setHere
theorem State.Good.exposedWrite {s : State} {a : Word} {n : Nat} {f : State → Nat → State} {p : Nat → Nat → Packet} (h : s.Good)
    (hf : ∀ {s : State} {a1 : Nat}, s.Good → (f s a1).Good) :
    (exposedWrite s a n f p).Good := by
  dsimp only [Machine.exposedWrite]
  split
  · exact h.trap
  · exact .nextPc h.send
  · exact .ite (h.ite (.nextPc (hf h.touch))) (.nextPc h.send)
theorem State.Good.storeExposed {s : State} {a : Word} {n : Nat} {l : List Byte} (h : s.Good) : (storeExposed s a n l).Good :=
  h.exposedWrite fun h => h.storeBytes
theorem State.Good.execDget {d a : BitVec 5} {s : State} (h : s.Good) : Res.Good (execDget d a s) := by
  dsimp only [Machine.execDget, Res.Good]
  refine h.ite ?_
  split
  · exact h.trap
  · exact h
  · exact State.Good.ite (h.ite (State.Good.retire h.touch)) h.sendRead
theorem State.Good.performAmo {s : State} {k n : Nat} {r : AmoReq} (h : s.Good) : (s.performAmo k n r).1.Good := by
  dsimp only [State.performAmo]
  split
  · exact h.store
  · exact h
theorem State.Good.amo {op : Nat} {d a b : BitVec 5} {ord : BitVec 2} {size : BitVec 1} {s : State} (h : s.Good) :
    Res.Good (amo op d a b ord size s) := by
  dsimp only [Machine.amo, Res.Good]
  refine h.ite ?_
  split
  · exact h.trap
  · exact h
  · exact h.ite (State.Good.ite (h.ite (State.Good.retire (.performAmo h.touch))) h.sendRead)
theorem State.Good.dropPacket {s : State} {n : Nat} (h : s.Good) : (s.dropPacket n).Good := h
theorem State.Good.performAccess {s : State} {p : Packet} (h : s.Good) : (performAccess s p).Good := by
  dsimp only [Machine.performAccess]
  exact .ite (.ite (.ite h.setDesc h.storeBytes) (.congr (.ite h.setDesc h.storeBytes) rfl rfl rfl))
      (by split; exacts [.congr h.performAmo rfl rfl rfl, h])
theorem State.Good.nearAccess {s : State} {kind : Nat} (h : s.Good) : (nearAccess s kind).Good := by
  dsimp only [Machine.nearAccess]
  split
  · exact h
  · split
    · exact .ite h (h.ite (.performAccess (.touch h.dropPacket)))
    · exact h
theorem State.Good.execReadReturn {s : State} (h : s.Good) : Res.Good (execReadReturn s) := by
  dsimp only [Machine.execReadReturn, Res.Good]
  split
  · exact h
  · exact State.Good.modTile h.dropPacket
theorem State.Good.execWriteAcknowledgement {s : State} (h : s.Good) : Res.Good (execWriteAcknowledgement s) := by
  dsimp only [Machine.execWriteAcknowledgement, Res.Good]
  split
  · exact h
  · exact h.dropPacket

/-! ### Command blocks -/

theorem State.Good.markDirty {s : State} {c : Nat} {l : List Nat} (h : s.Good) : (s.markDirty c l).Good := by
  induction l generalizing s with
  | nil => exact h
  | cons a l ih => exact ih (by split; exacts [h.ite h.orEntry, h])
theorem State.Good.askBinds {s : State} {t : Nat} {c : Cmd} (h : s.Good) : (s.askBinds t c).Good := h
theorem State.Good.accept {s : State} {t : Nat} {e : CEng} {c : Cmd} (h : s.Good) : (s.accept t e c).Good :=
  .congr (.markDirty (.foldl h.modTile fun h => h.modBuf)) rfl rfl rfl
theorem State.Good.issueBlock {s : State} {e : CEng} {a d : BitVec 5} {xb : BitVec 4} (h : s.Good) : (issueBlock s e a d xb).Good := by
  dsimp only [Machine.issueBlock]
  refine h.ite ?_
  split
  · exact h.trap
  · refine h.ite ?_
    split
    · exact h
    · exact h.askBinds
    · exact h.trap
    · exact .retire h.raise
    · split
      · exact .retire (.accept h.touch)
      · exact .retire (.accept (.touch h.picked))
theorem State.Good.startTemplate {s : State} {i : Nat} {r : Accept} (h : s.Good) : (startTemplate s i r).Good := by
  dsimp only [Machine.startTemplate]
  split
  · exact h.accept
  · exact h.raise
  · exact h.raise
  · exact h
  · exact h
theorem State.Good.execSte {d base : BitVec 5} {size : BitVec 2} {off : BitVec 13} {s : State} (h : s.Good) :
    Res.Good (execSte d base size off s) := by
  dsimp only [Machine.execSte, Res.Good]
  split
  · refine h.ite ?_
    split
    · exact h
    · exact h.askBinds
    · exact State.Good.startTemplate (.nextPc (.touch (.touch h.storeBytes)))
  · exact h.storeExposed
theorem State.Good.execChlink {a : BitVec 5} {n : BitVec 1} {s : State} (h : s.Good) : Res.Good (execChlink a n s) := by
  dsimp only [Machine.execChlink, Res.Good]
  split
  · exact h.trap
  · exact State.Good.nextPc h.setHere
theorem State.Good.execChainBlockFetch {s : State} (h : s.Good) : Res.Good (execChainBlockFetch s) := by
  dsimp only [Machine.execChainBlockFetch, Res.Good]
  split
  · exact h
  · refine h.ite ?_
    split
    · exact h.modTile
    · refine h.ite ?_
      split
      · exact h
      · exact h.askBinds
      · exact h.modTile
      · exact h.modTile
      · exact State.Good.modTile (.accept h.touch)
theorem State.Good.execCommandSignals {s : State} (h : s.Good) : Res.Good (execCommandSignals s) := by
  dsimp only [Machine.execCommandSignals, Res.Good]
  split
  · exact h
  · split
    · exact h
    · exact h.ite (State.Good.endRefs (.congr (.foldl h.modTile fun h => h.modTile) rfl rfl rfl))
theorem State.Good.execPromiseMiss {s : State} (h : s.Good) : Res.Good (execPromiseMiss s) := by
  dsimp only [Machine.execPromiseMiss, Res.Good]
  split
  · exact h
  · split
    · exact h
    · exact h.ite (State.Good.raise h.modTile)

/-! ### Byte-moving and index commands -/

theorem State.Good.putCmd {s : State} {t : Nat} {e : CEng} {c : Cmd} (h : s.Good) : (s.putCmd t e c).Good := h.modTile
theorem State.Good.beginCmd {s : State} {t : Nat} {e : CEng} {c : Cmd} (h : s.Good) : (s.beginCmd t e c).1.Good := by
  dsimp only [State.beginCmd]
  split
  · exact h
  · split
    · exact h
    · exact State.Good.ite (State.Good.putCmd h.modTile) h
theorem Xfer.Good.touching {t : Nat} {e : CEng} {l : List (Nat × Nat)} {x : Xfer} (h : x.Good) : (x.touching t e l).Good := by
  unfold Xfer.touching
  split
  · exact State.Good.foldl h fun h => h.touch
  · exact h
theorem Xfer.Good.banked {s : State} {t : Nat} {e : CEng} {l : List (Nat × Nat)} {x : Xfer} (h : x.Good) : (x.banked s t e l).Good := by
  unfold Xfer.banked
  split
  · trivial
  · exact h.touching
theorem State.Good.runUnits {t n : Nat} {e : CEng} {step : State → Cmd → Xfer} {last : State → Cmd → Option CmdEnd}
    (hstep : ∀ {s c}, s.Good → (step s c).Good) {fuel : Nat} {s : State} {c : Cmd} (h : s.Good) :
    (runUnits t e n step last fuel s c).Good := by
  induction fuel generalizing s c with
  | zero => exact h.putCmd
  | succ fuel ih =>
    unfold Machine.runUnits
    split
    · exact h.putCmd
    · split
      · next e => exact ih (e ▸ hstep h : Xfer.Good (.go ..))
      · exact h.putCmd
      · exact h.putCmd.askWalk
      · exact h.request.putCmd
      · next e =>
        have h1 := (e ▸ hstep h : Xfer.Good (.fin ..))
        dsimp only
        split
        · exact .raise (.putCmd h1)
        · exact .putCmd h1
theorem State.Good.runCmd {s : State} {q : Que} {kind : Nat} {n : State → Cmd → Nat} {step : State → Cmd → Xfer}
    {last : State → Cmd → Option CmdEnd} (h : s.Good) (hstep : ∀ {s : State} {a1 : Cmd}, s.Good → (step s a1).Good) :
    (runCmd s q kind n step last).Good := by
  dsimp only [Machine.runCmd]
  split
  · exact h
  · exact h.ite (.ite (.runUnits hstep (.putCmd h.beginCmd)) (.putCmd h.beginCmd))
theorem State.Good.fetchLine {s : State} {t : Nat} {e : CEng} {c : Cmd} {p : Nat} {count alloc : Bool} (h : s.Good) :
    (s.fetchLine t e c p count alloc).Good := by
  dsimp only [State.fetchLine]
  split
  · split
    · next _ _ e =>
        split
        · exact State.Good.sendSpan (e ▸ h.readFarLine :)
        · exact (e ▸ h.readFarLine :)
    · exact trivial
  · split
    · exact trivial
    · exact trivial
    · split
      · exact trivial
      · exact h.ite h.touch
theorem State.Good.sourceLine {s : State} {t : Nat} {e : CEng} {c : Cmd} {p : Nat} {first alloc : Bool} (h : s.Good) :
    (s.sourceLine t e c p first alloc).Good := by
  dsimp only [State.sourceLine]
  split
  · exact h
  · split
    · split
      · exact h
      · exact h.fetchLine
    · exact h.fetchLine
theorem State.Good.wroteShadow {s : State} {t a vpn : Nat} (h : s.Good) : (s.wroteShadow t a vpn).Good := by
  dsimp only [State.wroteShadow]
  split
  · exact h.modNode
  · exact h
theorem State.Good.findDest {s : State} {t : Nat} {e : CEng} {c : Cmd} {p : Nat} (h : s.Good) : (s.findDest t e c p).Good := by
  dsimp only [State.findDest]
  split
  · split
    · exact trivial
    · split
      · next _ _ e => exact State.Good.wroteShadow (e ▸ h.shadowFor :)
      · exact trivial
      · exact trivial
  · split
    · exact trivial
    · exact trivial
    · split
      · split
        · exact trivial
        · exact h
      · exact trivial
theorem State.Good.putChunk {s : State} {t p n : Nat} {c : Cmd} {src : Except Nat (List Byte)} {d : Option (BitVec 16)} {x : Put}
    (h : s.Good)
    (hx : x.Good) : FstGood (s.putChunk t c p src n d x) := by
  unfold State.putChunk
  split
  · have h1 : ∀ {s : State} {k : Nat}, s.Good → (match src with
        | .error sk => { s with mem := Mem.copyLoop s.mem sk k n }
        | .ok l => s.storeBytes k l : State).Good := by
      intro s k h
      split
      · exact h.ofMem (Memory.wf_copyLoop h.mem)
      · exact h.storeBytes
    dsimp only [FstGood]
    split
    · exact State.Good.setDesc (h1 hx)
    · exact h1 hx
  · exact h
  · exact h.sendSpan
  · trivial
theorem State.Good.moveStep {t : Nat} {e : CEng} {s : State} {c : Cmd} (h : s.Good) : (moveStep t e s c).Good := by
  have goOn : ∀ {s : State} {c : Cmd} {p n : Nat} {src : Except Nat (List Byte)} {d : Option (BitVec 16)} {x : Put} {f : Bool → Cmd},
      s.Good → x.Good → Xfer.Good (match s.putChunk t c p src n d x with
        | none => .stall
        | some (s, here) => .go s (f here)) := by
    intro s c p n src d x f h hx
    split
    · trivial
    · next e => exact (e ▸ h.putChunk hx :)
  unfold Machine.moveStep
  split
  · trivial
  next c _ =>
  dsimp only
  split
  · trivial
  refine .ite h ?_
  split
  · trivial
  split
  · exact h
  · trivial
  next c _ =>
  split
  · exact h
  generalize hx : s.findDest t e c _ = dest
  have hd : dest.Good := hx ▸ h.findDest
  have h1 := hd.state h
  split
  · trivial
  · exact h
  · trivial
  · trivial
  split
  · exact goOn h1 (hd.moved h1)
  split
  · trivial
  · trivial
  · exact h1
  · next e => exact goOn (e ▸ h1.sourceLine : Got.Good (.key ..)) (hd.moved (e ▸ h1.sourceLine : Got.Good (.key ..)))
  · next e => exact goOn (e ▸ h1.sourceLine : Got.Good (.line ..)) (hd.moved (e ▸ h1.sourceLine : Got.Good (.line ..)))
theorem State.Good.runMove {s : State} {q : Que} {kind : Nat} (h : s.Good) : (runMove s q kind).Good :=
  h.runCmd fun h => Xfer.Good.banked h.moveStep
theorem State.Good.execChnop {s : State} (h : s.Good) : Res.Good (execChnop s) := h.runCmd fun _ => trivial
theorem State.Good.mcastStep {t : Nat} {e : CEng} {s : State} {c : Cmd} (h : s.Good) : (mcastStep t e s c).Good := by
  unfold Machine.mcastStep
  dsimp only
  split
  · trivial
  next line lo x0 n _ =>
  split
  · trivial
  · exact h
  · trivial
  have h1 := h.sourceLine (t := t) (e := e) (c := c) (p := c.ssrc + x0) (first := decide (c.pos = 0 ∨ (c.ssrc + x0) % 64 = 0))
    (alloc := false)
  generalize State.sourceLine s t e c (c.ssrc + x0) _ false = g at *
  have h2 : Got.Good (if min n (64 - (c.ssrc + x0) % 64) < n then
        (match g with | .key s _ => s | .line s _ => s | _ => s).fetchLine t e c (c.ssrc + x0 + min n (64 - (c.ssrc + x0) % 64)) true false
      else g) := by
    split
    · exact State.Good.fetchLine (h1.state h)
    · exact h1
  revert h2
  generalize (if min n (64 - (c.ssrc + x0) % 64) < n then State.fetchLine _ _ _ _ _ _ _ else g) = g2
  intro h2
  cases g2 with
  | key s k => exact h2
  | line s r => exact h2
  | bad => exact h
  | _ => trivial
theorem State.Good.rebit {s : State} {u : LandUnit} {d : Nat} (h : s.Good) : (s.rebit u d).Good := h
theorem State.Good.delivered {s : State} {t : Nat} {o : Operand} (h : s.Good) : (s.delivered t o).Good := by
  dsimp only [State.delivered]
  exact .ite h.modNode h
theorem State.Good.resultLanded {s : State} {k t : Nat} {ok : Bool} (h : s.Good) : (s.resultLanded k t ok).Good := by
  dsimp only [State.resultLanded]
  split
  · exact h
  · exact .ite (.delivered h.delivered) h
/-- The bytes and the descriptor of a landing write, once performed (R103). -/
theorem State.Good.landed {s : State} {base : Nat} {l : List (Nat × Byte)} {d : Option (BitVec 16)} (h : s.Good) :
    (match d with
      | some d => State.setDesc { s with mem := l.foldl (fun m (b : Nat × Byte) => Mem.set m (base + b.1) b.2) s.mem } base d
      | none => { s with mem := l.foldl (fun m (b : Nat × Byte) => Mem.set m (base + b.1) b.2) s.mem } : State).Good := by
  have h1 : State.Good { s with mem := l.foldl (fun m (b : Nat × Byte) => Mem.set m (base + b.1) b.2) s.mem } :=
    h.ofMem (Memory.wf_foldl (fun h => Memory.wf_set h ..) h.mem)
  split
  · exact .setDesc h1
  · exact h1
theorem State.Good.execLandingWrite {s : State} (h : s.Good) : Res.Good (execLandingWrite s) := by
  dsimp only [Machine.execLandingWrite, Res.Good]
  split
  · exact h
  · refine .ite h ?_
    split
    · exact h
    · refine .ite h ?_
      split
      · exact .modTile (.ite (.rebit (.ite (.touch (.landed (s := { s with land := dropAt s.land s.arg.n }) h)) (.ite (.raise h) h)))
          (.ite (.touch (.landed (s := { s with land := dropAt s.land s.arg.n }) h)) (.ite (.raise h) h)))
      · exact .resultLanded (.ite (.rebit (.ite (.touch (.landed (s := { s with land := dropAt s.land s.arg.n }) h)) (.ite
          (.raise h) h))) (.ite (.touch (.landed (s := { s with land := dropAt s.land s.arg.n }) h)) (.ite (.raise h) h)))
theorem State.Good.putLine {s : State} {t off v : Nat} {d : BitVec 16} (h : s.Good) : (s.putLine t off v d).Good := .setDesc h.store
theorem State.Good.putElems {s : State} {t off w : Nat} {l : List Nat} {d : BitVec 16} {n : Nat} (h : s.Good) :
    (s.putElems t off w l d n).Good := by
  induction n generalizing s off l with
  | zero => exact h
  | succ n ih => exact ih h.putLine
theorem State.Good.readLines {s : State} {t p n : Nat} {e : CEng} {c : Cmd} {ok : LineFmt → Bool} (h : s.Good) :
    (s.readLines t e c ok p n).Good := by
  induction n generalizing s p with
  | zero => exact h
  | succ n ih =>
    have hg := h.fetchLine (t := t) (e := e) (c := c) (p := p) (count := true) (alloc := true)
    unfold State.readLines
    dsimp only
    split
    · trivial
    · trivial
    · trivial
    · split
      · exact hg.state h
      · have h1 := ih (p := p + 64) (hg.state h)
        split
        · next e => exact (e ▸ h1 :)
        · exact h1
theorem State.Good.poolRow {t : Nat} {s : State} {c : Cmd} {k : Nat} (h : s.Good) : (poolRow t s c k).Good := by
  dsimp only [Machine.poolRow]
  split
  · exact h
  · split
    · exact h
    · split
      · exact trivial
      · split
        · exact trivial
        · exact trivial
        · exact h
        · next _ _ e => exact (e ▸ h.readLines :)
        · next _ _ e => exact (e ▸ h.readLines :)
theorem State.Good.poolOut {t : Nat} {s : State} {c : Cmd} {b n : Nat} (h : s.Good) : (poolOut t s c b n).Good := by
  dsimp only [Machine.poolOut]
  split
  · exact trivial
  · exact State.Good.ite (State.Good.store h.putElems) h.putElems
theorem State.Good.poolStep {t : Nat} {s : State} {c : Cmd} (h : s.Good) : (poolStep t s c).Good := by
  unfold Machine.poolStep
  split
  · trivial
  · exact h
  · refine .ite h.poolOut ?_
    split
    · trivial
    · exact h
    · exact h.poolRow
theorem State.Good.addAt {s : State} {k : Nat} {f : LineFmt} {v : Nat} (h : s.Good) : (s.addAt k f v).Good := h.store
theorem State.Good.scaddSpan {s : State} {c : Cmd} {q : Nat × Word} {off line : Nat} {f : LineFmt} {fmt v : Nat} (h : s.Good) :
    (s.scaddSpan c q off line f fmt v).Good :=
  h.foldl fun h => h.sendSpan
theorem State.Good.scaddStep {t : Nat} {s : State} {c : Cmd} (h : s.Good) : (scaddStep t s c).Good := by
  have format : ∀ {o : Option LineFmt} {x y : CmdEnd} {u v : Option (Nat × Word)} {d : BitVec 16} {s : State} {c : Cmd}
      {f : LineFmt → Xfer},
      s.Good → (∀ {g}, (f g).Good) → Xfer.Good (match o with
        | none => .fin s c x u
        | some g => if addFmt d = some g then f g else .fin s c y v) := by
    intro o x y u v d s c f h hf
    split
    · exact h
    · exact .ite hf h
  unfold Machine.scaddStep
  split
  · trivial
  next c _ =>
  dsimp only
  refine .ite h ?_
  split
  · exact h
  refine .ite trivial (.ite ?_ (.ite trivial ?_))
  · split
    · trivial
    · next e =>
      have h1 : State.Good _ := (e ▸ h.fetchLine : Got.Good (.line ..))
      refine format h1 ?_
      intro g
      split
      · exact State.Good.scaddSpan h1
      · split
        · trivial
        · trivial
        · next e2 =>
          have h2 : State.Good _ := (e2 ▸ State.Good.stageFor h1 : ShadowRes.Good (.ok ..))
          exact State.Good.wroteShadow (.modBuf h2)
    · trivial
  · split
    · trivial
    · trivial
    · trivial
    · next e =>
      have h1 : State.Good _ := (e ▸ h.findDest : Put.Good (.key ..))
      have h2 {a : Prop} [Decidable a] {c p} :
          State.Good (if a then (match State.fetchLine _ t .ie c p false true with | .line s _ => s | _ => _) else _) :=
        .ite (Got.Good.line h1.fetchLine h1) h1
      exact format h2 h2.addAt
    · exact h
theorem State.Good.hashApply {t : Nat} {c : Cmd} {s : State} {row : List Num} {k j : Nat} {found : Bool} (h : s.Good) :
    (hashApply t c s row k j found).Good :=
  .putElems (h.ite h.store)
theorem State.Good.hashStep {t : Nat} {s : State} {c : Cmd} (h : s.Good) : (hashStep t s c).Good := by
  dsimp only [Machine.hashStep]
  split
  · exact trivial
  · exact h
  · split
    · exact h
    · split
      · exact trivial
      · exact h
      · split
        · exact h
        · split
          · exact trivial
          · exact h
          · split
            · next _ _ e => exact (e ▸ h.readLines :)
            · next _ _ e =>
                split
                · exact trivial
                · exact State.Good.hashApply (e ▸ h.readLines :)
            · next _ e => exact trivial
theorem State.Good.valueAt {s : State} {t q w : Nat} {c : Cmd} {out : CmdEnd} (h : s.Good) : (s.valueAt t c q w out).Good := by
  unfold State.valueAt
  dsimp only
  split
  · trivial
  split
  · trivial
  · trivial
  · exact h
  have h1 := (h.fetchLine (t := t) (e := .ie) (c := c) (p := q) (count := true) (alloc := false))
  generalize State.fetchLine s t .ie c q true false = g at *
  have h2 : Got.Good (if min w (64 - q % 64) < w then
        (match g with | .key s _ => s | .line s _ => s | _ => s).fetchLine t .ie c (q + min w (64 - q % 64)) true false else g) := by
    split
    · exact State.Good.fetchLine (h1.state h)
    · exact h1
  revert h2
  generalize (if min w (64 - q % 64) < w then State.fetchLine _ _ _ _ _ _ _ else g) = g2
  intro h2
  cases g2 with
  | key s k => exact h2
  | line s r => exact h2
  | bad => exact h
  | _ => trivial
theorem State.Good.densifyKey {t : Nat} {s : State} {c : Cmd} {r p col : Nat} (h : s.Good) : (densifyKey t s c r p col).Good := by
  refine Xfer.Good.ite h (Xfer.Good.ite h ?_)
  split
  · exact h
  · refine .ite trivial ?_
    split
    · next _ e => exact (e ▸ h.valueAt :)
    · next _ _ e => exact State.Good.storeBytes (e ▸ h.valueAt :)
theorem State.Good.densifyStep {t : Nat} {s : State} {c : Cmd} (h : s.Good) : (densifyStep t s c).Good := by
  dsimp only [Machine.densifyStep]
  split
  · split
    · exact h
    · split
      · exact trivial
      · exact h.putLine
  · split
    · exact trivial
    · exact h
    · split
      · exact h
      · split
        · exact trivial
        · exact h
        · exact h.densifyKey
theorem State.Good.compactElem {t r col v : Nat} {s : State} {c : Cmd} (h : s.Good) : (compactElem t s c r col v).Good := by
  have go : ∀ {s : State} {k x d : Nat} {w : BitVec 16} {l : List (Put × Nat × Nat)} {b : Put × Nat × Nat → List Byte} {c' : Cmd}, s.Good →
      Xfer.Good (.go (l.foldl (fun s (y : Put × Nat × Nat) => match y.1 with
        | .key _ k => (s.storeBytes k (b y)).setDesc k w
        | .remote p a off => s.sendSpan p (.write a (s.bindTag c.born c.no) off (b y) (some w))
        | _ => s) (s.store k x d)) c') := by
    intro s k x d w l b c' h
    refine State.Good.foldl h.store fun h => ?_
    split
    · exact h.storeBytes.setDesc
    · exact h.sendSpan
    · exact h
  have step : ∀ {s : State} {p : Nat} {f : State → Nat → Xfer} {g : Put → Xfer}, s.Good → (∀ {s k}, s.Good → (f s k).Good) → (∀ {d},
      (g d).Good) →
      Xfer.Good (match s.findDest t .ie c p with
        | .need v => .need v true
        | .park v r => .park v r true
        | .bad => .fin s c (faultEnd (r * 2 ^ 28 + c.count)) none
        | .stall => .stall
        | .key s k => f s k
        | d => g d) := by
    intro s p f g h hf hg
    have hd : (s.findDest t .ie c p).Good := h.findDest
    generalize s.findDest t .ie c p = d at hd
    cases d with
    | key s k => exact hf hd
    | bad => exact h
    | need | park | stall => trivial
    | _ => exact hg
  unfold Machine.compactElem
  refine .ite trivial ?_
  dsimp only
  split
  · exact step h (fun h => step h (fun h => go h) (go h)) (step h (fun h => go h) (go h))
  · exact step h (fun h => go h) (go h)
theorem State.Good.compactStep {t : Nat} {s : State} {c : Cmd} (h : s.Good) : (compactStep t s c).Good := by
  unfold Machine.compactStep
  split
  · exact .ite trivial h.store
  · refine .ite trivial (.ite h (.ite (.ite trivial h.store) ?_))
    split
    · exact h
    · exact h.compactElem

end Sys2Proof.Machine
end

