-- ==== Sys2Proof/Proofs/GoodUnits.lean ====
section
/-! The engines and the other units keep State.ok (R13, R16, R127). -/

namespace Sys2Proof.Machine

/-! ### The engines -/

theorem State.Good.enqueue {s : State} {e : Eng} {q : Entry} (h : s.Good) : (s.enqueue e q).Good := h.setHere
theorem State.Good.execErun {n : BitVec 1} {a b c : BitVec 5} {flags : BitVec 4} {s : State} (h : s.Good) :
    Res.Good (execErun n a b c flags s) := by
  dsimp only [Machine.execErun, Res.Good]
  refine State.Good.ite h.trap (h.ite ?_)
  split
  · exact h.trap
  · split
    · exact h
    · exact h.trap
    · exact State.Good.ite h.trap (State.Good.nextPc (.enqueue h.setHere))
theorem State.Good.execEkld {n : BitVec 1} {a b c : BitVec 5} {s : State} (h : s.Good) : Res.Good (execEkld n a b c s) := by
  dsimp only [Machine.execEkld, Res.Good]
  refine State.Good.ite h.trap (h.ite ?_)
  split
  · exact h.trap
  · exact State.Good.ite h.trap (State.Good.ite h.trap (State.Good.nextPc h.enqueue))
theorem State.Good.execEstop {n : BitVec 2} {a : BitVec 5} {s : State} (h : s.Good) : Res.Good (execEstop n a s) := by
  dsimp only [Machine.execEstop, Res.Good]
  split
  · exact State.Good.retire h.discardCmds
  · exact State.Good.retire h.discardCmds
  · exact State.Good.retire h.setHere
  · exact State.Good.ite h.retire (h.ite (State.Good.retire h.setHere))
theorem State.Good.execEprg {n : BitVec 1} {a b c : BitVec 5} {s : State} (h : s.Good) : Res.Good (execEprg n a b c s) := by
  dsimp only [Machine.execEprg, Res.Good]
  refine State.Good.ite h.trap (h.ite ?_)
  split
  · exact h.trap
  · exact State.Good.nextPc (.setHere h.enqueue)
theorem State.Good.execFpr {n : BitVec 1} {a : BitVec 5} {s : State} (h : s.Good) : Res.Good (execFpr n a s) := by
  dsimp only [Machine.execFpr, Res.Good]
  refine State.Good.ite h.trap ?_
  split
  · exact h.trap
  · exact h.trap
  · exact State.Good.nextPc h.setHere
theorem State.Good.modRun {s : State} {t : Nat} {e : Eng} {f : Running → Running} (h : s.Good) : (s.modRun t e f).Good := h.modTile
theorem State.Good.begun {s : State} (h : s.Good) : (s.begun).Good := h.modTile
theorem State.Good.stepTo {s : State} {f : Running → Running} (h : s.Good) : (s.stepTo f).Good := .modRun h.begun
theorem State.Good.stepDone {s : State} {beats : Nat} (h : s.Good) : (s.stepDone beats).Good := h.stepTo
theorem State.Good.readDone {s : State} {beats : Nat} (h : s.Good) : (s.readDone beats).Good := h.stepTo
theorem State.Good.rebase {s : State} (h : s.Good) : (s.rebase).Good := h.modTile
theorem State.Good.stepFault {s : State} {cause : Nat} {tval : Word} (h : s.Good) : (s.stepFault cause tval).Good :=
  .raise (.ite h.modTile h.stepTo)
theorem State.Good.after {s : State} {c : Check} {f : State → State} (h : s.Good) (hf : ∀ {s : State}, s.Good → (f s).Good) :
    (s.after c f).Good := by
  dsimp only [State.after]
  split
  · exact hf h
  · exact h
  · exact h.stepFault
theorem State.Good.touchAll {s : State} {l : List Access} (h : s.Good) : (s.touchAll l).Good := h.foldl fun h => h.touch
theorem State.Good.holdLine {s : State} {a : Access} (h : s.Good) : (s.holdLine a).Good := .modRun h.touchAll
theorem State.Good.readPart {s : State} {judge : State → Access → Check} {n : Nat} {l : List Access} (h : s.Good) :
    (s.readPart judge n l).Good := by
  induction l generalizing s n with
  | nil => cases n <;> exact h
  | cons a t ih =>
    unfold State.readPart
    split
    · exact ih h
    · split
      · exact ih h.holdLine
      · exact h
theorem State.Good.inParts {s : State} {judge : State → Access → Check} {l : List Access} {f : Option Nat → State} (h : s.Good)
    (hf : ∀ {a0 : Option Nat}, (f a0).Good) :
    (s.inParts judge l f).Good := by
  dsimp only [State.inParts]
  split
  · exact .ite hf h.readPart
  · exact hf
theorem State.Good.guarded {s : State} {l : List Access} {f : State → State} (h : s.Good) (hf : ∀ {s : State}, s.Good → (f s).Good) :
    (s.guarded l f).Good :=
  h.after fun h => hf h.touchAll
theorem State.Good.beginEntry {s : State} {t : Nat} {e : Eng} {q : Entry} (h : s.Good) : (s.beginEntry t e q).Good := by
  dsimp only [State.beginEntry]
  split
  · exact h.setTile
  · exact h.setTile
  · exact h.setTile
  · exact h.setTile
theorem State.Good.execEngineEntryStart {s : State} (h : s.Good) : Res.Good (execEngineEntryStart s) := by
  dsimp only [Machine.execEngineEntryStart, Res.Good]
  split
  · exact h.ite h.beginEntry
  · exact h
theorem State.Good.giveReply {s : State} {t : Nat} {w : Word} (h : s.Good) : (s.giveReply t w).Good := by
  dsimp only [State.giveReply]
  exact .ite h.modTile h.modTile
theorem State.Good.execEngineEntryComplete {s : State} (h : s.Good) : Res.Good (execEngineEntryComplete s) := by
  dsimp only [Machine.execEngineEntryComplete, Res.Good]
  split
  · exact h
  · split
    · exact h
    · exact h.ite h.setHere
theorem State.Good.execStampBeat {s : State} (h : s.Good) : Res.Good (execStampBeat s) := by
  dsimp only [Machine.execStampBeat, Res.Good]
  refine h.ite ?_
  split
  · split
    · exact h
    · refine h.ite (State.Good.ite h.setHere (State.Good.ite h.setHere ?_))
      split
      · exact h.setHere
      · exact State.Good.ite h.setHere h.beginEntry
  · exact h
theorem State.Good.execEngineWatchdog {s : State} (h : s.Good) : Res.Good (execEngineWatchdog s) := by
  dsimp only [Machine.execEngineWatchdog, Res.Good]
  split
  · exact h
  · exact State.Good.ite h.stepFault h

/-! ### Operands of a micro-order -/

theorem State.Good.modVec {s : State} {f : Vec → Vec} (h : s.Good) : (s.modVec f).Good := h.modTile
theorem State.Good.modEng {s : State} {f : Engine → Engine} (h : s.Good) : (s.modEng f).Good := h.modTile
theorem State.Good.laneStep {s : State} {d : BitVec 5} {m : BitVec 3} {f : Nat → Nat} (h : s.Good) : (s.laneStep d m f).Good :=
  .stepDone h.modVec
theorem State.Good.floatStep {s : State} {d : BitVec 5} {kA : BitVec 2} {A : BitVec 5} {kB : BitVec 2} {B : BitVec 5} {m : BitVec 3}
    {t : BitVec 2} {f : FFmt → Nat → Nat → Nat → Nat} (h : s.Good) :
    (s.floatStep d kA A kB B m t f).Good :=
  h.laneStep
theorem State.Good.intStep {s : State} {d : BitVec 5} {kA : BitVec 2} {A : BitVec 5} {kB : BitVec 2} {B : BitVec 5} {m : BitVec 3}
    {t : BitVec 2} {f : Nat → Bool → Nat → Nat → Nat → Nat} (h : s.Good) :
    (s.intStep d kA A kB B m t f).Good :=
  h.laneStep
theorem State.Good.unaryStep {s : State} {d : BitVec 5} {kA : BitVec 2} {A : BitVec 5} {m : BitVec 3} {f : Nat → Nat} (h : s.Good) :
    (s.unaryStep d kA A m f).Good :=
  h.laneStep
theorem State.Good.maskStep {s : State} {d : BitVec 3} {v : Word} (h : s.Good) : (s.maskStep d v).Good := .stepDone h.modVec
theorem State.Good.eStep {s : State} {d : BitVec 5} {v : Word} {beats : Nat} (h : s.Good) : (s.eStep d v beats).Good := .stepDone h.modEng

/-! ### The matrix engine -/

theorem State.Good.stepIllegal {s : State} (h : s.Good) : (s.stepIllegal).Good := h.stepFault
theorem State.Good.modMat {s : State} {f : Mat → Mat} (h : s.Good) : (s.modMat f).Good := h.modTile
theorem State.Good.afterDrains {s : State} {f : Drain → Bool} {g : State} (h : s.Good) (h2 : g.Good) : (s.afterDrains f g).Good := by
  dsimp only [State.afterDrains]
  split
  · exact h.modRun
  · exact h2
theorem State.Good.rowGroupStep {s : State} {o : Mma} {nrow ncol code c rg : Nat} (h : s.Good) :
    (s.rowGroupStep o nrow ncol code c rg).Good :=
  h.modMat
theorem State.Good.rowGroupsStep {s : State} {o : Mma} {nrow ncol code c rg n : Nat} (h : s.Good) :
    (s.rowGroupsStep o nrow ncol code c rg n).Good := by
  induction n generalizing s rg with
  | zero => exact h
  | succ n ih => exact ih h.rowGroupStep
theorem State.Good.mmaGoto {s : State} {c rg code beats : Nat} (h : s.Good) : (s.mmaGoto c rg code beats).Good := h.stepTo
theorem State.Good.mmaDone {s : State} {beats : Nat} (h : s.Good) : (s.mmaDone beats).Good := .rebase h.stepTo
theorem State.Good.holdDescs {s : State} {o : Mma} {lines : List Nat} (h : s.Good) : (s.holdDescs o lines).Good := by
  dsimp only [State.holdDescs]
  exact .ite h.modRun h
theorem State.Good.chunkRun {s : State} {o : Mma} {nrow ncol c rg code : Nat} {upTo : Option Nat} (h : s.Good) :
    (s.chunkRun o nrow ncol c rg code upTo).Good := by
  dsimp only [State.chunkRun]
  exact .ite (.mmaGoto (.rowGroupsStep (.holdDescs h.touchAll))) (.ite (.mmaDone (.rowGroupsStep (.holdDescs h.touchAll))) (.mmaGoto
      (.rowGroupsStep (.holdDescs h.touchAll))))
theorem State.Good.chunkTurn {s : State} {o : Mma} {nrow ncol c code : Nat} {upTo : Option Nat} {f : State → Option Nat → State}
    (h : s.Good) (hf : ∀ {s : State} {a1 : Option Nat}, s.Good → (f s a1).Good) :
    (s.chunkTurn o nrow ncol c code upTo f).Good :=
  h.inParts (h.after fun h => hf h)
theorem State.Good.mmaChunk {s : State} {o : Mma} {c rg code : Nat} {upTo : Option Nat} (h : s.Good) :
    (s.mmaChunk o c rg code upTo).Good := by
  dsimp only [State.mmaChunk]
  split
  · exact h.stepIllegal
  · exact h.chunkTurn fun h => h.chunkRun
theorem State.Good.mmaStart {s : State} {o : Mma} {upTo : Option Nat} (h : s.Good) : (s.mmaStart o upTo).Good := by
  dsimp only [State.mmaStart]
  split
  · exact h.after fun h => h
  · exact h.mmaDone
  · exact h.stepIllegal
  · exact h.chunkTurn fun h => .ite (.ite h.stepFault h.modRun) (.chunkRun h.modTile)
theorem State.Good.mmaIssues {s : State} {o : Mma} {upTo : Option Nat} (h : s.Good) : (s.mmaIssues o upTo).Good := by
  dsimp only [State.mmaIssues]
  split
  · exact h.stepIllegal
  · exact .ite h.mmaStart (h.afterDrains h.mmaStart)
theorem State.Good.mmaTurn {s : State} {o : Mma} {upTo : Option Nat} (h : s.Good) : (s.mmaTurn o upTo).Good := by
  dsimp only [State.mmaTurn]
  split
  · exact h.mmaChunk
  · exact h.mmaIssues
theorem State.Good.afterTile {s : State} {f : Nat → State} (h : s.Good) (hf : ∀ {a0 : Nat}, (f a0).Good) : (s.afterTile f).Good := by
  dsimp only [State.afterTile]
  split
  · exact hf
  · exact h.modRun
theorem State.Good.withTile {s : State} {n : Nat} {i32 : Bool} {f : State → Nat → State} (h : s.Good)
    (hf : ∀ {s : State} {a1 : Nat}, s.Good → (f s a1).Good) :
    (s.withTile n i32 f).Good :=
  h.afterTile (hf h.modMat)
theorem State.Good.execAccld {acc : BitVec 3} {ty : BitVec 1} {eA eS : BitVec 5} {s : State} (h : s.Good) :
    Res.Good (execAccld acc ty eA eS s) := by
  dsimp only [Machine.execAccld, Res.Good]
  exact State.Good.ite h.stepIllegal (h.afterDrains (h.afterTile (h.inParts (h.after fun h => .readDone (.modMat h.touchAll)))))
theorem State.Good.drainLines {s : State} {o : DrainOp} {acc l : Nat} {clip nan : Bool} {amax : Num} {n : Nat} (h : s.Good) :
    (s.drainLines o acc l clip nan amax n).1.Good := by
  induction n generalizing s l clip nan amax with
  | zero => exact h
  | succ n ih => exact ih (.setDesc h.store)
theorem State.Good.tensorStep {s : State} {t : Nat} (h : s.Good) : OptionGood (s.tensorStep t) := by
  dsimp only [State.tensorStep]
  split
  · exact trivial
  · split
    · exact h.modTile
    · exact trivial
    · split
      · exact trivial
      · exact State.Good.modTile h.store
theorem State.Good.tensorUpdate {s : State} {u : TensorUpd} (h : s.Good) : (s.tensorUpdate u).Good := by
  dsimp only [State.tensorUpdate]
  exact .ite (OptionGood.getD (State.Good.tensorStep h.modMat) h.modMat) h.modMat
theorem State.Good.execDrain {acc : BitVec 3} {eD eC eF : BitVec 5} {s : State} (h : s.Good) : Res.Good (execDrain acc eD eC eF s) := by
  dsimp only [Machine.execDrain, Res.Good]
  split
  · exact h.stepIllegal
  · refine State.Good.ite (h.after fun h => h) (h.after fun h => .stepDone ?_)
    split
    · exact .tensorUpdate (.modTile (.drainLines h.touchAll))
    · exact .modTile (.modTile (.drainLines h.touchAll))

/-! ### The butterfly engine -/

theorem State.Good.bflyPut {s : State} {o : Bfly} {i : Nat} {y : List Nat} (h : s.Good) : (s.bflyPut o i y).Good := by
  dsimp only [State.bflyPut]
  split
  · exact h.modMat
  · exact .foldl h.store fun h => h.setDesc
theorem State.Good.bflyRows {s w : State} {o : Bfly} {i n : Nat} (h : s.Good) : (s.bflyRows w o i n).Good := by
  induction n generalizing s i with
  | zero => exact h
  | succ n ih => exact ih h.bflyPut
theorem State.Good.bfly {s : State} {chain : Bool} {eX dst : BitVec 5} {L c : BitVec 4} {P D IF OF : BitVec 1} (h : s.Good) :
    (s.bfly chain eX dst L c P D IF OF).Good := by
  dsimp only [State.bfly]
  split
  · exact h.stepIllegal
  · exact .ite h.stepDone (.ite (h.after fun h => h) (h.afterDrains (h.after fun h => .stepDone (.bflyRows h.touchAll))))

/-! ### Capabilities, the arena and the swap -/

theorem State.Good.withSlot {s : State} {c : BitVec 6} {right : Option Nat} {f : State} (h : s.Good) (h2 : f.Good) :
    (s.withSlot c right f).Good := by
  dsimp only [State.withSlot]
  split
  · exact h.trap
  · exact h2
theorem State.Good.modTask {s : State} {f : Node → Node} (h : s.Good) : (s.modTask f).Good := by
  dsimp only [State.modTask]
  split
  · exact h.modNode
  · exact h
theorem State.Good.execCapdup {c c2 : BitVec 6} {s : State} (h : s.Good) : Res.Good (execCapdup c c2 s) :=
  h.withSlot (.ite h.nextPc (.ite h.trap (.nextPc (.modBuf (.setHere (.dropRefs h.setHere))))))
theorem State.Good.arenaPlace {s : State} {c n : Nat} (h : s.Good) : FstGood (s.arenaPlace c n) := by
  dsimp only [State.arenaPlace]
  split
  · exact trivial
  · split
    · exact trivial
    · exact State.Good.picked h.picked
theorem State.Good.mapPages {s : State} {c key vpn n : Nat} (h : s.Good) : OptionGood (s.mapPages c key vpn n) := by
  induction n generalizing s vpn with
  | zero => exact h
  | succ n ih =>
    unfold State.mapPages
    split
    · next e => exact ih (.store (.clearMem (.keyFrame (e ▸ h.takeFrame : FstGood (some (_, _))))))
    · trivial
theorem State.Good.execCapnew {d : BitVec 5} {c : BitVec 6} {b : BitVec 5} {s : State} (h : s.Good) : Res.Good (execCapnew d c b s) := by
  dsimp only [Machine.execCapnew, Res.Good]
  refine State.Good.ite h.trap (State.Good.ite h.trap ?_)
  split
  · exact h.retire
  · split
    · exact h.retire
    · next _ _ e =>
        split
        · exact h.retire
        · next _ e2 => exact State.Good.retire (.setHere (.setBuf (e2 ▸ State.Good.mapPages (e ▸ State.Good.arenaPlace h.picked :) :)))
theorem State.Good.redeem {s : State} {c : Nat} {h : Word} (hs : s.Good) : (s.redeem c h).Good := by
  dsimp only [State.redeem]
  split
  · exact .modNode hs.modCtx
  · exact hs.modCtx
theorem State.Good.beginSwap {s : State} {a : Nat} (h : s.Good) : (s.beginSwap a).Good :=
  ⟨h.mem, h.tiles.map fun _ => rfl, h.nodes.map fun _ => rfl⟩
theorem State.Good.execCappub {c : BitVec 6} {s : State} (h : s.Good) : Res.Good (execCappub c s) := by
  dsimp only [Machine.execCappub, Res.Good]
  exact State.Good.ite (State.Good.nextPc h.setHere) (State.Good.ite (State.Good.ite h.beginSwap h) (h.withSlot (.ite (.beginSwap
      (.setHere h.modTask)) (.setHere h.modTask))))
theorem State.Good.applyStaged {s : State} {c a : Nat} {u : Staged} (h : s.Good) : OptionGood (s.applyStaged c a u) := by
  dsimp only [State.applyStaged]
  split
  · next _ _ e =>
      split
      · exact State.Good.store (e ▸ h.shadowFor :)
      · exact (e ▸ h.shadowFor :)
  · next _ e => exact trivial
theorem State.Good.applyAll {s : State} {c a : Nat} {l : List Staged} (h : s.Good) : OptionGood (s.applyAll c a l) := by
  induction l generalizing s with
  | nil => exact h
  | cons a l ih =>
    dsimp only [Machine.State.applyAll]
    split
    · next _ e => exact ih (e ▸ h.applyStaged :)
    · exact trivial
theorem State.Good.installShadows {s : State} {c a : Nat} {l : List (Nat × Nat)} (h : s.Good) : OptionGood (s.installShadows c a l) := by
  induction l generalizing s with
  | nil => exact h
  | cons a l ih =>
    dsimp only [Machine.State.installShadows]
    split
    · exact trivial
    · split
      · exact trivial
      · exact ih (.modBuf h.store)
theorem State.Good.swap {s : State} {a : Nat} (h : s.Good) : OptionGood (s.swap a) := by
  unfold State.swap
  dsimp only
  split
  · trivial
  · next e =>
    split
    · trivial
    · next e2 =>
      have h2 := (e2 ▸ State.Good.installShadows (e ▸ h.applyAll :) :)
      exact .mapNodes (.modBuf (.forgetWrites (.freeFrames h2))) fun n => by split <;> rfl
theorem State.Good.askSwap {s : State} {a : Nat} (h : s.Good) : (s.askSwap a).Good := by
  dsimp only [State.askSwap]
  split
  · exact h.askWalk
  · exact h
theorem State.Good.execPageSwap {s : State} (h : s.Good) : Res.Good (execPageSwap s) := by
  dsimp only [Machine.execPageSwap, Res.Good]
  split
  · exact h
  · refine h.ite ?_
    split
    · exact h.askSwap
    · next _ e => exact State.Good.modTile (.releaseOld (e ▸ h.swap :))

/-! ### Branches -/

theorem State.Good.jumpTo {s : State} {target : Word} {f : Tile → Tile} (h : s.Good) : (jumpTo s target f).Good := by
  dsimp only [Machine.jumpTo]
  exact .ite h.setHere h.trap

/-! ### Micro-order control -/

theorem State.Good.lcStep {s : State} {imm : BitVec 19} {f : Engine → BitVec 24 → BitVec 24} (h : s.Good) : (s.lcStep imm f).Good :=
  .stepDone h.modEng
theorem State.Good.execKbase {k : BitVec 8} {s : State} (h : s.Good) : Res.Good (execKbase k s) :=
  State.Good.stepDone (by split; exacts [h.modVec, h])
theorem State.Good.enterLoop {s : State} {lc body stages : Nat} {piped : Bool} (h : s.Good) : (s.enterLoop lc body stages piped).Good := by
  dsimp only [State.enterLoop]
  split
  · exact h
  · split
    · exact .ite h.stepFault h
    · exact .ite h.stepFault (.ite h.stepTo (.stepTo h.modEng))
theorem State.Good.rotate {s : State} (h : s.Good) : (s.rotate).Good := by
  dsimp only [State.rotate]
  split
  · exact h.modVec
  · exact h
theorem State.Good.execEndl {s : State} (h : s.Good) : Res.Good (execEndl s) := by
  dsimp only [Machine.execEndl, Res.Good]
  split
  · exact h
  · split
    · exact h.stepFault
    · exact State.Good.ite h.stepFault (State.Good.stepTo (.modEng (.ite h.rotate h)))

/-! ### Barriers -/

theorem State.Good.performCovered {s : State} {t scope : Nat} (h : s.Good) : (s.performCovered t scope).Good :=
  .foldl (f := Machine.performAccess) h fun h => h.performAccess
theorem State.Good.commitBytes {s : State} {u c : Nat} {l : List (Nat × Byte)} (h : s.Good) : (s.commitBytes u c l).Good := by
  induction l generalizing s with
  | nil => exact h
  | cons a l ih =>
    unfold State.commitBytes
    refine ih ?_
    split
    · exact .touch (h.ofMem (Memory.wf_set h.mem ..))
    · exact h
theorem State.Good.commitPsb {s : State} {t : Nat} (h : s.Good) : (s.commitPsb t).Good := .modTile h.commitBytes
theorem State.Good.commitGranule {s : State} {t g : Nat} (h : s.Good) : (s.commitGranule t g).Good := .modTile h.commitBytes
theorem State.Good.completeBarrier {s : State} {t scope : Nat} (h : s.Good) : (s.completeBarrier t scope).Good := by
  dsimp only [State.completeBarrier]
  exact .ite (.foldl (.foldl (h.foldl fun h => h.performCovered) fun h => h.commitPsb) fun h => h.modTile) h
theorem State.Good.stepBarrier {s : State} {t scope g : Nat} (h : s.Good) : (s.stepBarrier t scope g).Good := by
  dsimp only [State.stepBarrier]
  refine .ite ?_ h
  split
  · exact .commitGranule (h.foldl fun h => h.performCovered)
  · exact h.foldl fun h => h.performCovered
theorem State.Good.arrived {s : State} {scope : Nat} (h : s.Good) : (s.arrived scope).Good := by
  dsimp only [State.arrived]
  exact h.ite h.completeBarrier
theorem State.Good.arriveAndWait {s : State} {scope : Nat} {k : SyncKind} (h : s.Good) : (arriveAndWait s scope k).Good := by
  dsimp only [Machine.arriveAndWait]
  exact h.ite (.arrived h.setHere)
theorem State.Good.execBarrierCompletion {s : State} (h : s.Good) : Res.Good (execBarrierCompletion s) := by
  dsimp only [Machine.execBarrierCompletion, Res.Good]
  split
  · exact h.completeBarrier
  · exact h.stepBarrier
theorem State.Good.execBarrierMessage {s : State} (h : s.Good) : Res.Good (execBarrierMessage s) := by
  dsimp only [Machine.execBarrierMessage, Res.Good]
  split
  · exact h
  · exact h.dropPacket

/-! ### Tokens, queues, time and the privileged instructions -/

theorem State.Good.execHold {a b : BitVec 5} {w : BitVec 3} {s : State} (h : s.Good) : Res.Good (execHold a b w s) := by
  dsimp only [Machine.execHold, Res.Good]
  split
  · exact h.trap
  · exact State.Good.ite h.trap (State.Good.ite h.trap (State.Good.nextPc h.setHere))
theorem State.Good.execRqpop {d : BitVec 5} {s : State} (h : s.Good) : Res.Good (execRqpop d s) := by
  dsimp only [Machine.execRqpop, Res.Good]
  split
  · exact h
  · exact State.Good.retire h.setHere
theorem State.Good.execReplyPlacement {s : State} (h : s.Good) : Res.Good (execReplyPlacement s) := by
  dsimp only [Machine.execReplyPlacement, Res.Good]
  split
  · exact h
  · exact State.Good.ite h.setHere h
theorem State.Good.execQinit {a : BitVec 5} {s : State} (h : s.Good) : Res.Good (execQinit a s) := by
  dsimp only [Machine.execQinit, Res.Good]
  exact State.Good.ite h.trap (State.Good.ite h.trap (h.ite (State.Good.nextPc (.storeBytes h.touch))))
theorem State.Good.openQueue {s : State} {a : Word} {f : Nat → Nat → Nat → State} (h : s.Good)
    (hf : ∀ {a0 : Nat} {a1 : Nat} {a2 : Nat}, (f a0 a1 a2).Good) :
    (s.openQueue a f).Good := by
  dsimp only [State.openQueue]
  split
  · exact h.trap
  · exact h
  · exact h.ite (.ite (.trap h.touch) hf)
theorem State.Good.sleepUntil {aot : Bool} {r : Word} {s : State} (h : s.Good) : (sleepUntil aot r s).Good := by
  dsimp only [Machine.sleepUntil]
  exact .ite (.nextPc h.setHere) h.setHere
theorem State.Good.execSleepExpiry {s : State} (h : s.Good) : Res.Good (execSleepExpiry s) := by
  dsimp only [Machine.execSleepExpiry, Res.Good]
  split
  · exact h
  · exact h.ite (State.Good.nextPc h.setHere)
theorem State.Good.dropCode {s : State} {l : List Nat} (h : s.Good) : (s.dropCode l).Good := by
  induction l generalizing s with
  | nil => exact h
  | cons a l ih => exact ih h.modTile
theorem State.Good.deliver {s : State} {t : Nat} (h : s.Good) : (s.deliver t).Good := by
  dsimp only [State.deliver]
  split
  · exact h
  · exact .take h.setTile

/-! ### Meetings -/

theorem State.Good.retireTag {s : State} {c tag : Nat} (h : s.Good) : (s.retireTag c tag).Good := by
  dsimp only [State.retireTag]
  exact .ite h.modCtx h
theorem State.Good.execTaga {d a b : BitVec 5} {s : State} (h : s.Good) : Res.Good (execTaga d a b s) := by
  dsimp only [Machine.execTaga, Res.Good]
  exact State.Good.ite h.trap (State.Good.ite h.trap (State.Good.ite h.trap (State.Good.retire (.modCtx h.picked))))
theorem State.Good.modStation {s : State} {n : Nat} {f : Station → Station} (h : s.Good) : (s.modStation n f).Good := h
theorem State.Good.execTagf {a : BitVec 5} {s : State} (h : s.Good) : Res.Good (execTagf a s) := by
  dsimp only [Machine.execTagf, Res.Good]
  split
  · exact h.trap
  · exact State.Good.nextPc (.congr h.retireTag rfl rfl rfl)
theorem State.Good.execMeet {d a b : BitVec 5} {op : BitVec 2} {s : State} (h : s.Good) : Res.Good (execMeet d a b op s) := by
  dsimp only [Machine.execMeet, Res.Good]
  refine h.ite ?_
  split
  · exact h.trap
  · split
    · exact h.trap
    · exact h.trap
    · exact h.ite (State.Good.nextPc (.congr h.touch rfl rfl rfl))
    · exact h
theorem State.Good.replyTo {s : State} {o : Operand} {st hi : Nat} (h : s.Good) : (s.replyTo o st hi).Good := by
  dsimp only [State.replyTo]
  split
  · exact h.giveReply
  · exact h.modNode
  · exact h
theorem State.Good.park {s : State} {n : Nat} {o : Operand} (h : s.Good) : (s.park n o).Good := h.modStation
theorem State.Good.pair {s : State} {n : Nat} {a b : Operand} (h : s.Good) : (s.pair n a b).Good :=
  .ite (.retireTag (.replyTo (.replyTo h.modStation))) h
theorem State.Good.spill {s : State} {n : Nat} {o : Operand} (h : s.Good) : (s.spill n o).1.Good := by
  dsimp only [State.spill]
  split
  · next _ _ e => exact State.Good.park (.storeBytes (e ▸ h.scd :))
  · next _ e => exact (e ▸ h.scd :)
  · next _ e => exact State.Good.forgetFailed (e ▸ h.scd :)
theorem State.Good.operandData {s : State} {o : Operand} (h : s.Good) : (s.operandData o).1.Good := by
  dsimp only [State.operandData]
  split
  · exact h
  · split
    · next _ _ e => exact (e ▸ h.scd :)
    · next _ e => exact (e ▸ h.scd :)
    · next _ e => exact State.Good.forgetFailed (e ▸ h.scd :)
theorem State.Good.takeOperand {s : State} {n : Nat} {o : Operand} {front : Bool} (h : s.Good) : (s.takeOperand n o front).1.Good := by
  dsimp only [State.takeOperand]
  split
  · split
    · exact h
    · exact h.modStation
  · split
    · exact h.replyTo
    · split
      · split
        · exact h
        · split
          · next _ _ e => exact State.Good.pair (e ▸ h.operandData :)
          · next _ e => exact (e ▸ h.operandData :)
      · split
        · exact h.park
        · split
          · exact h.spill
          · split
            · exact h
            · exact h.modStation
theorem State.Good.takeWithdraw {s : State} {n c tag : Nat} {front : Bool} (h : s.Good) : (s.takeWithdraw n c tag front).Good := by
  dsimp only [State.takeWithdraw]
  exact .ite h.modStation (by split; exacts [.replyTo h.modStation, h])
theorem State.Good.execMeetingOperand {s : State} (h : s.Good) : Res.Good (execMeetingOperand s) := by
  dsimp only [Machine.execMeetingOperand, Res.Good]
  split
  · exact h
  · split
    · refine State.Good.ite ?_ h
      split
      · next _ e => exact (e ▸ h.takeOperand :)
      · next _ e => exact (e ▸ h.takeOperand :)
    · exact h
theorem State.Good.execMeetingWithdrawal {s : State} (h : s.Good) : Res.Good (execMeetingWithdrawal s) := by
  dsimp only [Machine.execMeetingWithdrawal, Res.Good]
  split
  · exact h
  · split
    · exact State.Good.ite (State.Good.takeWithdraw h) h
    · exact h
theorem State.Good.execHeldOperandTaken {s : State} (h : s.Good) : Res.Good (execHeldOperandTaken s) := by
  dsimp only [Machine.execHeldOperandTaken, Res.Good]
  split
  · exact h
  · refine h.ite ?_
    split
    · exact State.Good.takeWithdraw h.modStation
    · split
      · next _ e => exact State.Good.modStation (e ▸ h.takeOperand :)
      · next _ e => exact (e ▸ h.takeOperand :)
theorem State.Good.execMeetingTimeout {s : State} (h : s.Good) : Res.Good (execMeetingTimeout s) := by
  dsimp only [Machine.execMeetingTimeout, Res.Good]
  split
  · exact h
  · exact h.ite (State.Good.retireTag (.replyTo h.modStation))
theorem State.Good.putMeeting {s : State} {m : Meeting} (h : s.Good) : (s.putMeeting m).Good := h
theorem State.Good.sendResult {s : State} {m : Meeting} {second : Bool} (h : s.Good) : (s.sendResult m second).Good := by
  dsimp only [State.sendResult]
  exact .ite h.putMeeting (by split; exacts [h, h.putMeeting, .putMeeting h])
theorem State.Good.execMeetingResult {s : State} (h : s.Good) : Res.Good (execMeetingResult s) := by
  dsimp only [Machine.execMeetingResult, Res.Good]
  split
  · exact h
  · exact State.Good.ite (h.ite h.sendResult) (State.Good.ite (h.ite h.sendResult) (h.ite (State.Good.replyTo (.replyTo h))))

/-! ### Page requests, invalidation and the SPAN -/

theorem State.Good.execFarRead {s : State} (h : s.Good) : Res.Good (execFarRead s) := by
  dsimp only [Machine.execFarRead, Res.Good]
  split
  · exact h
  · exact h
theorem State.Good.execFarWrite {s : State} (h : s.Good) : Res.Good (execFarWrite s) := by
  dsimp only [Machine.execFarWrite, Res.Good]
  split
  · exact h
  · refine State.Good.ite ?_ h
    split
    · exact h
    · exact h.storeBytes
theorem State.Good.parkAt {s : State} {vpn id h : Nat} (hs : s.Good) : (s.parkAt vpn id h).Good := hs.modTile
theorem State.Good.prefetch {s : State} {t : Nat} {e : CEng} {vpn : Nat} (h : s.Good) : (s.prefetch t e vpn).Good := by
  dsimp only [State.prefetch]
  exact .ite h.askWalk h
theorem State.Good.endWalk {s : State} {w : Walk} (h : s.Good) : (s.endWalk w).Good := by
  dsimp only [State.endWalk]
  split
  · exact .congr (h.ite h.orEntry) rfl rfl rfl
  · split
    · exact .ite h.request h
    · exact .foldl h.request fun h => h.parkAt
theorem State.Good.execPageWalkComplete {s : State} (h : s.Good) : Res.Good (execPageWalkComplete s) := by
  dsimp only [Machine.execPageWalkComplete, Res.Good]
  split
  · exact h
  · exact State.Good.endWalk h
theorem State.Good.writeRequest {s : State} {c : Nat} (h : s.Good) : (s.writeRequest c).Good := by
  dsimp only [State.writeRequest]
  split
  · exact h
  · exact .ite (.modCtx h.storeWords) h
theorem State.Good.writeRequests {s : State} {c n : Nat} (h : s.Good) : (s.writeRequests c n).Good := by
  induction n generalizing s with
  | zero => exact h
  | succ n ih => exact ih h.writeRequest
theorem State.Good.mapCmds {s : State} {c : Nat} {f : Cmd → Cmd} (h : s.Good) : (s.mapCmds c f).Good :=
  ⟨h.mem, h.tiles.map fun _ => by split <;> rfl, h.nodes.map fun _ => by split <;> rfl⟩
theorem State.Good.stale {s : State} {c : Nat} (h : s.Good) : (s.stale c).Good := h.modCtx
theorem State.Good.dropRequest {s : State} {c id : Nat} (h : s.Good) : (s.dropRequest c id).Good := h.modCtx
theorem State.Good.endOverflow {s : State} {c vpn : Nat} (h : s.Good) : (s.endOverflow c vpn).Good := h.foldl fun h => h.modNode
theorem State.Good.execPrespRetry {s : State} (h : s.Good) : Res.Good (execPrespRetry s) := by
  dsimp only [Machine.execPrespRetry, Res.Good]
  refine h.ite ?_
  split
  · exact h.stale
  · exact State.Good.endOverflow (.mapCmds (.dropXlat h.dropRequest))
theorem State.Good.execPrespFail {s : State} (h : s.Good) : Res.Good (execPrespFail s) := by
  dsimp only [Machine.execPrespFail, Res.Good]
  refine h.ite ?_
  split
  · exact h.stale
  · exact State.Good.foldl (.endOverflow (.mapCmds (.ite h.modCtx h.dropRequest))) fun h => h.failTask
theorem State.Good.execInvalidationComplete {s : State} (h : s.Good) : Res.Good (execInvalidationComplete s) := by
  dsimp only [Machine.execInvalidationComplete, Res.Good]
  split
  · exact h
  · exact State.Good.modCtx h.invalidate
theorem State.Good.overwrite {s : State} {k : Nat} {l : List Byte} (h : s.Good) : (s.overwrite k l).Good := by
  induction l generalizing s k with
  | nil => exact h
  | cons a l ih => exact ih (by split; exacts [h, h])
theorem State.Good.overwriteDescs {s : State} {k : Nat} {l : List Nat} (h : s.Good) : (s.overwriteDescs k l).Good := by
  induction l generalizing s k with
  | nil => exact h
  | cons a l ih => exact ih (by split; exacts [h, h])
theorem State.Good.outsideLines {s : State} {k n : Nat} (h : s.Good) : (s.outsideLines k n).Good := h
theorem State.Good.execCompanionFarWrite {s : State} (h : s.Good) : Res.Good (execCompanionFarWrite s) := by
  dsimp only [Machine.execCompanionFarWrite, Res.Good]
  exact h.ite (State.Good.congr (State.Good.ite (State.Good.outsideLines (.storeBytes (.overwriteDescs h.overwrite)))
      (State.Good.storeBytes (.overwriteDescs h.overwrite))) rfl rfl rfl)
theorem State.Good.execMemoryUncorrectableError {s : State} (h : s.Good) : Res.Good (execMemoryUncorrectableError s) := by
  dsimp only [Machine.execMemoryUncorrectableError, Res.Good]
  split
  · exact h
  · exact h.putCmd
theorem State.Good.askDie {s : State} {c vpn : Nat} {write : Bool} (h : s.Good) : (s.askDie c vpn write).Good := h.askWalk
theorem State.Good.spanWrite {s : State} {c vpn : Nat} {f : ShadowRes} {go : State → Nat → State} (h : s.Good) (hf : f.Good)
    (hgo : ∀ {s : State} {k : Nat}, s.Good → (go s k).Good) : (s.spanWrite c vpn f go).Good := by
  unfold State.spanWrite
  split
  · exact hgo hf
  · exact h.askDie
  · exact h.request
theorem State.Good.serveSpan {s : State} {q : SpanReq} (h : s.Good) : (s.serveSpan q).Good := by
  dsimp only [State.serveSpan]
  split
  · exact .ite h.modBuf h
  · exact .ite (.dropRef h.modBuf) h
  · exact h.ite (h.ite (.sendSpan (.modBuf h.markDirty)))
  · split
    · exact h
    · refine h.ite ?_
      split
      · next _ e => exact (e ▸ h.readFarLine :)
      · exact h.askDie
  · split
    · exact h
    · exact h.ite (h.spanWrite h.shadowFor fun h => by split; exacts [.setDesc h.storeBytes, h.storeBytes])
  · split
    · exact h.ite (h.spanWrite h.shadowFor fun h => h.addAt)
    · exact h
  · split
    · exact h
    · exact h.ite (h.spanWrite h.stageFor fun h => h.modBuf)
  · exact .releaseOld h.modBuf
  · exact h
theorem State.Good.execSpanRequest {s : State} (h : s.Good) : Res.Good (execSpanRequest s) := by
  dsimp only [Machine.execSpanRequest, Res.Good]
  split
  · exact h
  · exact h.serveSpan

end Sys2Proof.Machine
end

