-- ==== Sys2Proof/Proofs/GoodTasks.lean ====
section
/-! The task graph, dispatch, the driver, the network and the vector engine keep State.ok (R13, R16, R127). -/

namespace Sys2Proof.Machine

/-! ### The task graph -/

theorem State.Good.allot {s : State} {x : Node} (h : s.Good) : FstGood (s.allot x) := by
  unfold State.allot
  cases firstFree (fun k => (FMap.get? s.nodes k).isNone) 0 Config.tableSize s.pick (s.nodes.length + 1) with
  | none => trivial
  | some n => exact h.ofNodes h.nodes.set
theorem State.Good.endNode {s : State} {n code : Nat} (h : s.Good) : (s.endNode n code).Good := by
  dsimp only [State.endNode]
  split
  · exact h
  · exact .dropRefs h.modNode
theorem State.Good.takeHandles {s : State} {c : Nat} {l : List Word} (h : s.Good) : (s.takeHandles c l).1.Good := by
  induction l generalizing s with
  | nil => exact h
  | cons a l ih =>
    dsimp only [Machine.State.takeHandles]
    split
    · exact ih h.redeem
    · exact ih h
theorem State.Good.toBank {s : State} {n : Nat} (h : s.Good) : (s.toBank n).Good := .congr h.modNode rfl rfl rfl
theorem State.Good.makeReady {s : State} {n : Nat} (h : s.Good) : (s.makeReady n).Good := by
  dsimp only [State.makeReady]
  split
  · exact h
  · split
    · exact h.endNode
    · exact .toBank (.modNode h)
theorem State.Good.proceed {s : State} {n : Nat} (h : s.Good) : (s.proceed n).Good := by
  dsimp only [State.proceed]
  split
  · exact h
  · exact h.ite (.ite h.modNode (.ite h.modNode h.makeReady))
theorem State.Good.release {s : State} {n : Nat} (h : s.Good) : (s.release n).Good := by
  dsimp only [State.release]
  split
  · exact .ite h.proceed h
  · exact h
theorem State.Good.releaseAll {s : State} {l : List Nat} (h : s.Good) : (s.releaseAll l).Good := by
  induction l generalizing s with
  | nil => exact h
  | cons a l ih => exact ih h.release
theorem State.Good.ringNext {s : State} {n : Nat} {retired : Bool} (h : s.Good) : (s.ringNext n retired).Good := by
  dsimp only [State.ringNext]
  split
  · exact h
  · split
    · split
      · exact h
      · exact .releaseAll h
    · exact h
theorem State.Good.admitRing {s : State} {r : Nat} {q : Ring} {e : List Word} (h : s.Good) : (s.admitRing r q e).Good := by
  dsimp only [State.admitRing]
  split
  · exact h
  · next _ _ e => exact .ite (.endNode (e ▸ h.allot :)) (.ite (.proceed (.modNode (.takeHandles (e ▸ h.allot :)))) (.endNode (.modNode
      (.takeHandles (e ▸ h.allot :)))))
theorem State.Good.execRingConsume {s : State} (h : s.Good) : Res.Good (execRingConsume s) := by
  dsimp only [Machine.execRingConsume, Res.Good]
  split
  · exact h
  · refine h.ite ?_
    split
    · exact h
    · exact State.Good.ite (State.Good.ite (State.Good.admitRing (.congr h.store rfl rfl rfl)) h) (by split; exacts [h, h])
theorem State.Good.judgeTail {s : State} {c r : Nat} {v : BitVec 32} (h : s.Good) : (s.judgeTail c r v).1.Good := by
  dsimp only [State.judgeTail]
  split
  · exact h
  · split
    · exact h
    · split
      · exact h
      · split
        · exact h
        · exact h
theorem State.Good.atZero {s : State} {n c : Nat} {e : List Word} (h : s.Good) : (s.atZero n c e).Good := by
  dsimp only [State.atZero]
  split
  · exact h.modNode
  · exact .ite (.endNode (.modNode (.takeHandles h.modNode))) (.ite (.endNode (.modNode (.takeHandles h.modNode))) (.ite
      (.endNode h.modNode) (.ite (.proceed (.modNode (.takeHandles h.modNode))) (.endNode (.modNode (.takeHandles h.modNode))))))
theorem State.Good.decrement {s : State} {n c a kind : Nat} (h : s.Good) : (s.decrement n c a kind).Good := by
  dsimp only [State.decrement]
  split
  · exact h
  · refine .ite h.modNode ?_
    split
    · next _ e => exact (e ▸ h.scd :)
    · next _ e => exact .forgetFailed (.endNode (.modNode (.modNode (e ▸ h.scd :))))
    · next _ _ e => exact .atZero (.modNode (e ▸ h.scd :))
theorem State.Good.dropEdge {s : State} {n : Nat} (h : s.Good) : (s.dropEdge n).Good := h
theorem State.Good.execEdgeDecrement {s : State} (h : s.Good) : Res.Good (execEdgeDecrement s) := by
  dsimp only [Machine.execEdgeDecrement, Res.Good]
  split
  · exact h
  · refine h.ite ?_
    split
    · exact State.Good.ite h.decrement (State.Good.dropEdge h.decrement)
    · refine State.Good.ite (h.ite (State.Good.post h)) ?_
      split
      · next _ e => exact (e ▸ h.scd :)
      · next _ e => exact State.Good.forgetFailed (.dropEdge (.post (e ▸ h.scd :)))
      · next _ _ e =>
          split
          · exact (e ▸ h.scd :)
          · next _ _ e2 => exact State.Good.dropEdge (.decrement (.modNode (e2 ▸ State.Good.allot (e ▸ h.scd :) :)))
theorem State.Good.readList {s : State} {c base : Nat} {l : List (Nat × Nat)} (h : s.Good) : (s.readList c base l).Good := by
  induction l generalizing s with
  | nil => exact h
  | cons a l ih =>
    unfold State.readList
    dsimp only
    split
    · next e => exact (e ▸ h.scd :)
    · next e =>
      have h1 := ih (e ▸ h.scd :)
      split
      · next e2 => exact (e2 ▸ h1 :)
      · exact h1
    · next e =>
      have h1 := ih (e ▸ h.scd :)
      split
      · next e2 => exact (e2 ▸ h1 :)
      · exact h1
theorem State.Good.sendEdges {s : State} {c : Nat} {id : Word} {l : List (Nat × Nat × Option Nat)} (h : s.Good) :
    (s.sendEdges c id l).Good := by
  induction l generalizing s with
  | nil => exact h
  | cons a l ih =>
    unfold State.sendEdges
    refine ih ?_
    split
    · exact .ite h h.post
    · exact h.post.forgetFailed
theorem State.Good.vacateGang {s : State} {n : Nat} (h : s.Good) : (s.vacateGang n).Good := h.foldl fun h => h.modTile
theorem State.Good.freeGang {s : State} {n : Nat} {x : Node} (h : s.Good) : (s.freeGang n x).Good := .modCtx h.vacateGang
theorem State.Good.freeEntry {s : State} {n : Nat} {x : Node} (h : s.Good) : (s.freeEntry n x).Good :=
  have h1 : ((s.freeGang n x).ringNext n true).Good := h.freeGang.ringNext
  h1.ofNodes (h1.nodes.filter _)
theorem State.Good.outcomeEvent {s : State} {c n code cause : Nat} {tval : Word} (h : s.Good) :
    (s.outcomeEvent c n code cause tval).Good := by
  dsimp only [State.outcomeEvent]
  exact h.ite (.ite h.post h.post)
theorem State.Good.endRetire {s : State} {n : Nat} {x : Node} {code cause : Nat} {tval : Word} (h : s.Good) :
    (s.endRetire n x code cause tval).Good := by
  dsimp only [State.endRetire]
  exact h.ite (.freeEntry h.outcomeEvent)
theorem State.Good.retireAs {s : State} {n : Nat} {x : Node} {code cause : Nat} {tval : Word} {l : List (Nat × Nat × Option Nat)}
    (h : s.Good) :
    (s.retireAs n x code cause tval l).Good :=
  .endRetire (.sendEdges (.dropRefs h.modNode))
theorem State.Good.retireNode {s : State} {n : Nat} {x : Node} {code cause : Nat} {tval : Word} {sends : List (Nat × Nat)} (h : s.Good) :
    (s.retireNode n x code cause tval sends).Good := by
  dsimp only [State.retireNode]
  split
  · next _ e => exact (e ▸ h.readList :)
  · next _ _ e => exact .retireAs (e ▸ h.readList :)
theorem State.Good.discardPage {s : State} {a vpn : Nat} (h : s.Good) : (s.discardPage a vpn).Good :=
  h.ofNodes (h.nodes.map fun _ => rfl)
theorem State.Good.withdraw {s : State} {c : Nat} {l : List Word} (h : s.Good) : (s.withdraw c l).Good := by
  induction l generalizing s with
  | nil => exact h
  | cons a l ih => exact ih (.ite (.dropRef h.modCtx) h)
theorem State.Good.restart {s : State} {n : Nat} {x : Node} (h : s.Good) : (s.restart n x).Good :=
  .makeReady (.modNode (.vacateGang (.foldl (.withdraw (.modNode h.modCtx)) fun h => h.discardPage)))
theorem State.Good.evaluate {s : State} {n : Nat} {x : Node} (h : s.Good) : (s.evaluate n x).Good := by
  dsimp only [State.evaluate]
  split
  · next _ e => exact (e ▸ h.scd :)
  · next _ e => exact .forgetFailed (.endNode (e ▸ h.scd :))
  · next _ _ e =>
      refine .ite ?_ (.retireNode (e ▸ h.scd :))
      split
      · next _ e2 => exact (e2 ▸ State.Good.scd (e ▸ h.scd :) :)
      · next _ e2 => exact .forgetFailed (.endNode (e2 ▸ State.Good.scd (e ▸ h.scd :) :))
      · next _ _ e2 =>
          split
          · next _ e3 => exact (e3 ▸ State.Good.readList (e2 ▸ State.Good.scd (e ▸ h.scd :) :) :)
          · next _ _ e3 => exact .retireAs (.store (e3 ▸ State.Good.readList (e2 ▸ State.Good.scd (e ▸ h.scd :) :) :))
theorem State.Good.execNodeRetire {s : State} (h : s.Good) : Res.Good (execNodeRetire s) := by
  dsimp only [Machine.execNodeRetire, Res.Good]
  split
  · exact h
  · split
    · exact h.ite (State.Good.ite h.endRetire (State.Good.ite h.restart h.retireNode))
    · exact State.Good.ite h.evaluate h

/-! ### Issue -/

theorem State.Good.grouped {s : State} {i : Instr} (h : s.Good) : (s.grouped i).Good := h.modRun
theorem State.Good.focus {s : State} {t : Nat} {e : Eng} (h : s.Good) : (s.focus t e).Good := h

/-! ### Saving and resuming a task -/

theorem State.Good.scdPages {s : State} {c va : Nat} {write : Bool} {n : Nat} (h : s.Good) : (s.scdPages c va write n).Good := by
  induction n generalizing s va with
  | zero => exact h
  | succ n ih =>
    unfold State.scdPages
    split
    · next e => exact (e ▸ h.scd :)
    · next e => exact State.Good.forgetFailed (e ▸ h.scd :)
    · next e =>
      have h1 := ih (va := va + 0x10000) (e ▸ h.scd :)
      split
      · next e2 => exact (e2 ▸ h1 :)
      · exact h1
theorem State.Good.takeSlots {s : State} {c n : Nat} (h : s.Good) : FstGood (s.takeSlots c n) := by
  induction n generalizing s with
  | zero => exact h
  | succ n ih =>
    dsimp only [Machine.State.takeSlots]
    split
    · exact trivial
    · split
      · exact trivial
      · split
        · next _ _ e => exact (e ▸ ih (.modCtx h.picked) :)
        · exact trivial
theorem State.Good.freeSlots {s : State} {c : Nat} {l : List Nat} (h : s.Good) : (s.freeSlots c l).Good := h.modCtx
theorem State.Good.writeSlot {s : State} {keys : List Nat} {t tag : Nat} {x : Tile} {blocked : Bool} (h : s.Good) :
    (s.writeSlot keys t x blocked tag).Good :=
  h.ofMem (Memory.wf_foldl Memory.wf_putSlot (Mem.wfFrom_filter _ h.mem))
theorem State.Good.restoreWindow {s : State} {keys : List Nat} {t : Nat} (h : s.Good) : (s.restoreWindow keys t).Good :=
  have h1 : (s.clearMem (nearKey t 0) Config.scratchEnd).Good := h.clearMem
  ⟨Memory.wf_foldl (fun h => Memory.wf_set h ..) h1.mem, h1.tiles, h1.nodes⟩
theorem State.Good.stopMma {s : State} {t n : Nat} (h : s.Good) : (s.stopMma t n).Good := by
  dsimp only [State.stopMma]
  refine .modTile ?_
  split
  · exact h.ite (.congr (.mmaTurn h.focus) rfl rfl rfl)
  · exact h
theorem State.Good.stopGang {s : State} {gang groups : List Nat} (h : s.Good) : (s.stopGang gang groups).Good := h.foldl fun h => h.stopMma
theorem State.Good.openSlots {s : State} {c : Nat} {write : Bool} {l : List Nat} (h : s.Good) : ExceptGood (s.openSlots c write l) := by
  induction l generalizing s with
  | nil => exact h
  | cons a l ih =>
    dsimp only [Machine.State.openSlots]
    split
    · next _ e => exact (e ▸ h.scdPages :)
    · next _ e => exact (e ▸ h.scdPages :)
    · next _ _ e =>
        split
        · next _ _ e2 => exact (e2 ▸ ih (e ▸ h.scdPages :) :)
        · next _ e2 => exact (e2 ▸ ih (e ▸ h.scdPages :) :)
theorem State.Good.moveBits {s : State} {a b : Nat} (h : s.Good) : (s.moveBits a b).Good := h
theorem State.Good.saveMember {s : State} {n k : Nat} {keys : List Nat} {t tag : Nat} {blocked : Bool} (h : s.Good) :
    (s.saveMember n k keys t tag blocked).Good :=
  .setTile (.modNode (.writeSlot h.setTile))
theorem State.Good.saveMembers {s : State} {n tag blocked i : Nat} {x : Node} {l : List (Nat × List Nat × Nat)} (h : s.Good) :
    (s.saveMembers n tag blocked i x l).Good := by
  induction l generalizing s i with
  | nil => exact h
  | cons a l ih => exact ih (.moveBits h.saveMember)
theorem State.Good.saveGang {s : State} {n : Nat} {x : Node} {groups : List Nat} {blocked : Nat} (h : s.Good) :
    (s.saveGang n x groups blocked).Good := by
  dsimp only [State.saveGang]
  split
  · exact trivial
  · next _ _ e =>
      split
      · exact h
      · split
        · next _ _ e2 =>
            split
            · exact State.Good.freeSlots (e2 ▸ State.Good.openSlots (e ▸ h.takeSlots :) :)
            · exact State.Good.freeSlots (e2 ▸ State.Good.openSlots (e ▸ h.takeSlots :) :)
        · next _ _ e2 => exact State.Good.toBank (.modNode (.modCtx (.saveMembers (.congr (.stopGang (e2 ▸ State.Good.openSlots
            (e ▸ h.takeSlots :) :)) rfl rfl rfl))))
theorem State.Good.dropSaves {s : State} {n : Nat} {x : Node} (h : s.Good) : (s.dropSaves n x).Good := .dropRefs (.freeSlots h.modNode)
theorem State.Good.resumeMember {s : State} {c : Nat} {keys : List Nat} {tag : Nat} {x : Tile} {t : Nat} (h : s.Good) :
    (s.resumeMember c keys tag x t).Good :=
  .setTile h.restoreWindow
theorem State.Good.mapGang {s : State} {x : Node} {v : Nat} {g : List Nat} (h : s.Good) : (s.mapGang x v g).Good := h.modCtx
theorem State.Good.resumeGang {s : State} {n : Nat} {x : Node} {g : List Nat} (h : s.Good) : (s.resumeGang n x g).Good := by
  dsimp only [State.resumeGang]
  split
  · next _ _ e => exact .ite (.endNode (.dropSaves (e ▸ h.openSlots :))) (e ▸ h.openSlots :)
  · next _ _ e => exact .ite (.endNode (.dropSaves (e ▸ h.openSlots :))) (.modNode (.freeSlots (.mapGang (.foldl (.foldl
      (e ▸ h.openSlots :) fun h => h.resumeMember) fun h => h.moveBits))))

/-! ### Dispatch -/

theorem State.Good.addRefs {s : State} {extra : Nat} {l : List Word} (h : s.Good) : (s.addRefs extra l).Good := by
  induction l generalizing s with
  | nil => exact h
  | cons a l ih => exact ih h.modBuf
theorem State.Good.placeMember {s : State} {n : Nat} {x : Node} {hs : List Word} {t r m v : Nat} (h : s.Good) :
    (s.placeMember n x hs t r m v).Good :=
  .setTile (.storeBytes (h.ite h.clearMem))
theorem State.Good.dispatchNew {s : State} {n : Nat} {x : Node} {g : List Nat} {v : Nat} (h : s.Good) : (s.dispatchNew n x g v).Good := by
  dsimp only [State.dispatchNew]
  exact .ite h.endNode (.ringNext (.congr (.modNode (.mapGang (.foldl (.addRefs h.addRefs) fun h => h.placeMember))) rfl rfl rfl))
theorem State.Good.giveGroup {s : State} {n : Nat} {x : Node} {g : List Nat} {v : Nat} (h : s.Good) : (s.giveGroup n x g v).Good := by
  dsimp only [State.giveGroup]
  exact .ite h.resumeGang h.dispatchNew
theorem State.Good.passOver {s old : State} {n k : Nat} (h : s.Good) : (s.passOver old n k).Good :=
  h.ofNodes (h.nodes.map fun m => by split <;> [split <;> rfl; rfl])
theorem State.Good.sample {s : State} {k start : Nat} (h : s.Good) : (s.sample k start).1.Good := by
  unfold State.sample
  split
  · exact h
  · exact h
theorem State.Good.pop {s : State} {k start n : Nat} (h : s.Good) : (s.pop k start n).Good := by
  induction n generalizing s with
  | zero => exact h
  | succ n ih =>
    dsimp only [Machine.State.pop]
    split
    · next _ e => exact .ite (ih (e ▸ h.sample :)) (e ▸ h.sample :)
    · next _ _ _ e =>
        refine .ite (ih (.endNode (e ▸ h.sample :))) ?_
        split
        · exact (e ▸ h.sample :)
        · split
          · exact ih (.giveGroup (e ▸ h.sample :))
          · exact .ite (.passOver (.giveGroup (e ▸ h.sample :))) (.giveGroup (e ▸ h.sample :))
theorem State.Good.execStrictLanePromotion {s : State} (h : s.Good) : Res.Good (execStrictLanePromotion s) := by
  dsimp only [Machine.execStrictLanePromotion, Res.Good]
  split
  · exact h
  · exact State.Good.ite (State.Good.congr h.modNode rfl rfl rfl) h
theorem State.Good.giveFreed {s : State} {n : Nat} {g : List Nat} (h : s.Good) : (s.giveFreed n g).Good := by
  dsimp only [State.giveFreed]
  split
  · exact h
  · split
    · exact h
    · exact .ite h.endNode (by split; exacts [h.giveGroup, h])
theorem State.Good.preempt {s : State} {v : Nat} {y : Node} {n : Nat} {groups : List Nat} {blocked : Nat} (h : s.Good) :
    (s.preempt v y n groups blocked).Good := by
  dsimp only [State.preempt]
  split
  · exact h
  · next _ e => exact (e ▸ h.saveGang :)
  · next _ e => exact .failTask (e ▸ h.saveGang :)
  · next _ e => exact .giveFreed (e ▸ h.saveGang :)
theorem State.Good.saveYield {s : State} {v : Nat} {y : Node} (h : s.Good) : (s.saveYield v y).Good := by
  unfold State.saveYield
  split
  · exact h.preempt
  · exact h.modNode
theorem State.Good.execPreemption {s : State} (h : s.Good) : Res.Good (execPreemption s) := by
  dsimp only [Machine.execPreemption, Res.Good]
  split
  · exact h
  · exact State.Good.ite (h.ite h.saveYield) (h.ite (by split; exacts [h, h.preempt]))
theorem State.Good.execYield {s : State} (h : s.Good) : Res.Good (execYield s) := by
  dsimp only [Machine.execYield, Res.Good]
  split
  · exact h.nextPc
  · split
    · exact h.nextPc
    · exact State.Good.ite (State.Good.modNode h.nextPc) h.nextPc
theorem State.Good.execTaskWatchdog {s : State} (h : s.Good) : Res.Good (execTaskWatchdog s) := by
  dsimp only [Machine.execTaskWatchdog, Res.Good]
  split
  · exact h
  · exact State.Good.ite h.failTask h
theorem State.Good.execSoftError {s : State} (h : s.Good) : Res.Good (execSoftError s) := by
  dsimp only [Machine.execSoftError, Res.Good]
  split
  · exact h
  · exact h.ite (State.Good.modNode h.failTask)
theorem State.Good.execDebugHalt {s : State} (h : s.Good) : Res.Good (execDebugHalt s) :=
  h.ofTiles (h.tiles.map fun t => by split <;> rfl)
theorem State.Good.execDebugRelease {s : State} (h : s.Good) : Res.Good (execDebugRelease s) :=
  h.ofTiles (h.tiles.map fun t => by split <;> rfl)

/-! ### The driver and its registers -/

theorem State.Good.dropTraffic {s : State} {c : Nat} (h : s.Good) : (s.dropTraffic c).Good := h
theorem State.Good.endOld {s : State} {c : Nat} (h : s.Good) : (s.endOld c).Good := .congr (h.foldl fun h => h.releaseUnread) rfl rfl rfl
theorem State.Good.execContextEnd {s : State} (h : s.Good) : Res.Good (execContextEnd s) := by
  have h1 (l : List Cmd) :
      ((l.foldl (fun s k => s.endBinds k.born k.no k.refs) (s.dropTraffic s.arg.ctx)).invalidate s.arg.ctx 0 (2 ^ 39)).Good :=
    .invalidate (.foldl h.dropTraffic fun h => h.endBinds)
  exact .ite h (.setCtx (.endOld (.dropRefs ⟨(h1 _).mem, (h1 _).tiles.map fun _ => rfl, (h1 _).nodes.filter _⟩)))
theorem State.Good.writeIod {s : State} {c off : Nat} {v : Word} (h : s.Good) : (s.writeIod c off v).Good := by
  dsimp only [State.writeIod]
  split
  · exact h
  · exact h.ite h.setCtx
theorem State.Good.writeScd {s : State} {c off : Nat} {v : Word} (h : s.Good) : (s.writeScd c off v).Good := by
  dsimp only [State.writeScd]
  refine .ite (h.ite h.setCtx) ?_
  split
  · exact h
  · exact h.ite (.ite (.releaseAll h.setCtx) h.setCtx)
theorem State.Good.execRegisterWrite {s : State} (h : s.Good) : Res.Good (execRegisterWrite s) := by
  dsimp only [Machine.execRegisterWrite, Res.Good]
  refine h.ite ?_
  split
  · exact State.Good.ite h.modPkg h
  · exact State.Good.ite h.writeIod h
  · exact State.Good.ite h.writeScd h
theorem State.Good.finishReq {s : State} {c : Nat} {q : DrvReq} {r : Nat} (h : s.Good) : (s.finishReq c q r).Good := .modCtx h.store
theorem State.Good.request? {s : State} {op : Nat} {f : Nat → DrvReq → State × Nat} (h : s.Good)
    (hf : ∀ {a0 : Nat} {a1 : DrvReq}, (f a0 a1).1.Good) :
    (s.request? op f).Good := by
  dsimp only [State.request?]
  split
  · exact h
  · exact h.ite (.finishReq (by split; exacts [h, hf]))
theorem State.Good.inTransit {s : State} {c : Nat} {h : Word} (hs : s.Good) : (s.inTransit c h).Good := hs.modCtx
theorem State.Good.execCreate {s : State} (h : s.Good) : Res.Good (execCreate s) := by
  refine h.request? (hf := ?_)
  refine .fstIte h ?_
  split
  · exact h
  · exact .inTransit (.setBuf h.picked)
theorem State.Good.execImportBuf {s : State} (h : s.Good) : Res.Good (execImportBuf s) := by
  refine h.request? (hf := ?_)
  refine .fstIte h (.fstIte h ?_)
  split
  · exact .inTransit (.setBuf h.sendSpan.picked)
  · exact h
theorem State.Good.execRingreg {s : State} (h : s.Good) : Res.Good (execRingreg s) := by
  refine h.request? (hf := ?_)
  refine .fstIte h ?_
  split
  · exact h
  · exact h
theorem State.Good.unregister {s : State} {r : Nat} {g : Ring} (h : s.Good) : (s.unregister r g).Good :=
  .ite h (h.ofNodes (h.nodes.map fun n => by split <;> [split <;> rfl; rfl]))
theorem State.Good.execRingdel {s : State} (h : s.Good) : Res.Good (execRingdel s) := by
  refine h.request? (hf := ?_)
  refine .fstIte h ?_
  split
  · exact .fstIte h.unregister h
  · exact h
theorem State.Good.execDriverRequestUnknownOp {s : State} (h : s.Good) : Res.Good (execDriverRequestUnknownOp s) := by
  dsimp only [Machine.execDriverRequestUnknownOp, Res.Good]
  split
  · exact h
  · exact h.ite h.finishReq
theorem State.Good.streamed {s : State} {n : Nat} (h : s.Good) : (s.streamed n).Good := by
  dsimp only [State.streamed]
  exact h.ite (.storeBytes h.picked)
theorem State.Good.execCkptDone {s : State} (h : s.Good) : Res.Good (execCkptDone s) := by
  dsimp only [Machine.execCkptDone, Res.Good]
  split
  · exact h
  · exact State.Good.foldl (.foldl (.modPkg h.streamed) fun h => h.post) fun h => h.releaseOld

/-! ### The network -/

theorem State.Good.modRoute {s : State} {x : Traffic} {f : Route → Route} (h : s.Good) : (s.modRoute x f).Good := by
  dsimp only [State.modRoute]
  split
  · exact h
  · exact h
  · exact h
theorem State.Good.dropRouted {s : State} {x : Traffic} (h : s.Good) : (s.dropRouted x).Good := by
  dsimp only [State.dropRouted]
  split
  · exact h
  · exact h
  · exact h
theorem State.Good.reachEnd {s : State} {x : Traffic} (h : s.Good) : (s.reachEnd x).Good := by
  dsimp only [State.reachEnd]
  split
  · exact .congr h.modRoute rfl rfl rfl
  · exact h.modRoute
theorem State.Good.grant {s : State} {x : Traffic} (h : s.Good) : (s.grant x).Good := by
  dsimp only [State.grant]
  refine .ite (.modPkg h.dropRouted) ?_
  split
  · exact h.ite (.ite h.modRoute h)
  · exact .ite h.reachEnd h
theorem State.Good.execArbitrationGrant {s : State} (h : s.Good) : Res.Good (execArbitrationGrant s) := by
  dsimp only [Machine.execArbitrationGrant, Res.Good]
  split
  · exact h
  · exact h.grant
theorem State.Good.execPacketAging {s : State} (h : s.Good) : Res.Good (execPacketAging s) := by
  dsimp only [Machine.execPacketAging, Res.Good]
  split
  · exact h
  · exact h.modRoute
theorem State.Good.execSchedulerMessage {s : State} (h : s.Good) : Res.Good (execSchedulerMessage s) := by
  dsimp only [Machine.execSchedulerMessage, Res.Good]
  split
  · exact h
  · exact h.dropPacket

/-! ### Sorting -/

theorem State.Good.fullDescs {s : State} {ranges : List (Nat × Nat)} {d : BitVec 16} (h : s.Good) : (s.fullDescs ranges d).Good :=
  h.foldl fun h => h.setDesc
theorem State.Good.putArray {s : State} {off width : Nat} {l : List Nat} (h : s.Good) : (s.putArray off width l).Good := by
  induction l generalizing s off with
  | nil => exact h
  | cons a l ih => exact ih h.store
theorem State.Good.putArrays {s : State} {l : List OutArray} (h : s.Good) : (s.putArrays l).Good :=
  .foldl (h.foldl fun h => h.putArray) fun h => h.fullDescs
theorem State.Good.setE {s : State} {k v : Nat} (h : s.Good) : (s.setE k v).Good := h.modTile
theorem State.Good.sortStep {s : State} {o : SortOp} {eA eB eD : BitVec 5} {kt : BitVec 3} {ds pl : BitVec 1} (h : s.Good) :
    (s.sortStep o eA eB eD kt ds pl).Good := by
  dsimp only [State.sortStep]
  exact .ite h.stepIllegal (h.after fun h => h.guarded fun h => .stepDone (.setE (.putArrays h.touchAll)))

/-! ### Sparse products -/

theorem State.Good.unlessStamped {s f : State} (h : s.Good) (h2 : f.Good) : (s.unlessStamped f).Good := by
  dsimp only [State.unlessStamped]
  exact .ite h.stepFault h2
theorem State.Good.execSpmv {eH eX eY : BitVec 5} {acc xf : BitVec 1} {s : State} (h : s.Good) : Res.Good (execSpmv eH eX eY acc xf s) :=
  h.unlessStamped (.ite h.stepIllegal (h.after fun h => h.guarded fun h => .stepDone (.setE (.putArrays h.touchAll))))
theorem State.Good.execSpmm {eH eX eY : BitVec 5} {acc xf : BitVec 1} {s : State} (h : s.Good) : Res.Good (execSpmm eH eX eY acc xf s) :=
  h.unlessStamped (.ite h.stepIllegal (h.after fun h => h.after fun h => .stepDone (.setE (.fullDescs (.foldl h.touchAll
      fun h => h.putArray)))))
theorem State.Good.execSpgemm {eH eX eY : BitVec 5} {s : State} (h : s.Good) : Res.Good (execSpgemm eH eX eY s) :=
  h.unlessStamped (.ite h.stepIllegal (h.after fun h => h.guarded fun h => .stepDone (.setE (.setE (.store (.store (.store (.store
      (.store (.putArrays h.touchAll))))))))))

/-! ### Tasks -/

theorem State.Good.trySpawn {s : State} {d : BitVec 5} {p : Spawning} (h : s.Good) : (s.trySpawn d p).Good := by
  dsimp only [State.trySpawn]
  refine .ite h.setHere (.ite ?_ ?_)
  · split
    · exact h
    · next _ _ e => exact .retire (.modTask (.setHere (.modDie (e ▸ h.allot :))))
  · split
    · exact h
    · split
      · next _ e => exact .modTask (.setHere (e ▸ h.scd :))
      · next _ e =>
          split
          · exact .failTask (.forgetFailed (.setHere (e ▸ h.scd :)))
          · exact .forgetFailed (.setHere (e ▸ h.scd :))
      · next _ _ e =>
          split
          · exact (e ▸ h.scd :)
          · next _ _ e2 => exact .retire (.modTask (.setHere (.giveReply (.modDie (.storeWords (e2 ▸ State.Good.allot (e ▸ h.scd :) :))))))
theorem State.Good.execSpawn {d a b : BitVec 5} {s : State} (h : s.Good) : Res.Good (execSpawn d a b s) := by
  dsimp only [Machine.execSpawn, Res.Good]
  split
  · exact State.Good.retire h.setHere
  · split
    · exact h.trySpawn
    · split
      · exact h.trap
      · exact h
      · exact State.Good.trySpawn h.setHere
theorem State.Good.execSpawnQueueDrain {s : State} (h : s.Good) : Res.Good (execSpawnQueueDrain s) := by
  have refill : ∀ {s : State} {d : Nat}, s.Good → (match (s.die d).spill with
      | [] => s
      | n :: r =>
        if (s.die d).spawnQ.length < Config.spawnQueue then
          (s.modDie d (fun y => { y with spawnQ := y.spawnQ ++ [n], spill := r })).modNode n (fun x => { x with spillAt := none })
        else s).Good := by
    intro s d h
    split
    · exact h
    · exact .ite h.modDie.modNode h
  dsimp only [Machine.execSpawnQueueDrain, Res.Good]
  split
  · exact refill h
  · exact refill (.proceed (.modDie h))
theorem State.Good.execSpawnProbe {s : State} (h : s.Good) : Res.Good (execSpawnProbe s) := by
  dsimp only [Machine.execSpawnProbe, Res.Good]
  split
  · exact h
  · refine h.ite ?_
    split
    · exact h
    · next _ _ e => exact State.Good.modTask (.modTile (.giveReply (.modDie (e ▸ h.allot :))))
theorem State.Good.execSpawnStarved {s : State} (h : s.Good) : Res.Good (execSpawnStarved s) := by
  dsimp only [Machine.execSpawnStarved, Res.Good]
  split
  · exact h.ite (State.Good.post h.setHere)
  · exact h
theorem State.Good.stopFaulted {s : State} (h : s.Good) : (s.stopFaulted).Good := by
  dsimp only [State.stopFaulted]
  exact .ite (.discardCmds (.ite (.discardCmds (.ite (.setHere (.ite h.setHere h)) (.ite h.setHere h))) (.ite (.setHere
      (.ite h.setHere h)) (.ite h.setHere h)))) (.ite (.discardCmds (.ite (.setHere (.ite h.setHere h)) (.ite h.setHere h))) (.ite
      (.setHere (.ite h.setHere h)) (.ite h.setHere h)))
theorem State.Good.performAccesses {s : State} {t : Nat} (h : s.Good) : (s.performAccesses t).Good :=
  .foldl (f := Machine.performAccess) h fun h => h.performAccess
theorem State.Good.execDone {s : State} (h : s.Good) : Res.Good (execDone s) := by
  dsimp only [Machine.execDone, Res.Good]
  refine State.Good.ite h.stopFaulted ?_
  split
  · exact State.Good.modTile (.dropSlots (.commitPsb (.performAccesses h.stopFaulted)))
  · exact State.Good.ite (State.Good.modNode (.modTile (.dropSlots (.commitPsb (.performAccesses h.stopFaulted))))) (State.Good.modTile
      (.dropSlots (.commitPsb (.performAccesses h.stopFaulted))))
theorem State.Good.execCondw {d a b : BitVec 5} {s : State} (h : s.Good) : Res.Good (execCondw d a b s) := by
  dsimp only [Machine.execCondw, Res.Good]
  refine State.Good.ite h.trap ?_
  split
  · next _ _ e => exact State.Good.retire (.modTask (.setHere (.store (e ▸ h.scd :))))
  · next _ e => exact State.Good.retire (.setHere (.forgetFailed (e ▸ h.scd :)))
  · next _ e => exact State.Good.setHere (e ▸ h.scd :)

/-! ### The trust session -/

theorem State.Good.execPowerOn {s : State} (h : s.Good) : Res.Good (execPowerOn s) := by
  dsimp only [Machine.execPowerOn, Res.Good]
  refine h.ite ?_
  split
  · exact h.modPkg
  · exact State.Good.modPkg (.foldl h.modPkg fun h => h.modDie)
theorem State.Good.answer {s : State} {r : SpdmResp} (h : s.Good) : (s.answer r).Good := h.modPkg
theorem State.Good.session {s : State} {n : Nat} (h : s.Good) : (s.session n).Good := h.modPkg
theorem State.Good.recheck {s : State} {n : Nat} (h : s.Good) : (s.recheck n).Good := by
  dsimp only [State.recheck]
  split
  · exact h
  · exact h.ite (.ite (.modNode h.toBank) (.endNode h.dropSaves))
theorem State.Good.execUnitDrain {s : State} (h : s.Good) : Res.Good (execUnitDrain s) := by
  dsimp only [Machine.execUnitDrain, Res.Good]
  split
  · exact h
  · exact h.ite (State.Good.foldl (.modPkg (by split; exacts [h, h])) fun h => h.recheck)

/-! ### The vector engine -/

theorem State.Good.vmBump {s : State} {eb es : BitVec 5} {pi : BitVec 1} (h : s.Good) : (s.vmBump eb es pi).Good := by
  dsimp only [State.vmBump]
  exact .ite h.modEng h
theorem State.Good.loadLanes {s : State} {d : BitVec 5} {m : BitVec 3} {off : Nat → ℤ} (h : s.Good) : (s.loadLanes d m off).Good := h.modVec
theorem State.Good.storeLanes {s : State} {d : BitVec 5} {off : Nat → ℤ} {l : List Nat} (h : s.Good) : (s.storeLanes d off l).Good := by
  induction l generalizing s with
  | nil => exact h
  | cons a l ih => exact ih h.store
theorem State.Good.setDescs {s : State} {v : BitVec 16} {l : List Nat} (h : s.Good) : (s.setDescs v l).Good := by
  induction l generalizing s with
  | nil => exact h
  | cons a l ih => exact ih h.setDesc
theorem State.Good.execVxp48 {d A B : BitVec 5} {t : BitVec 2} {s : State} (h : s.Good) : Res.Good (execVxp48 d A B t s) := by
  dsimp only [Machine.execVxp48, Res.Good]
  split
  · exact h.stepFault
  · exact h.laneStep
theorem State.Good.execVdq {d : BitVec 5} {kA : BitVec 2} {A : BitVec 5} {kB : BitVec 2} {B : BitVec 5} {m : BitVec 3} {s : State}
    (h : s.Good) :
    Res.Good (execVdq d kA A kB B m s) := by
  dsimp only [Machine.execVdq, Res.Good]
  refine State.Good.ite h.stepDone (h.after fun h => ?_)
  split
  · exact h.stepFault
  · exact h.after fun h => .laneStep h.touchAll
theorem State.Good.openStream {s : State} {off r : Nat} {f : State → Nat → Nat → Nat → State} (h : s.Good)
    (hf : ∀ {s : State} {a1 : Nat} {a2 : Nat} {a3 : Nat}, s.Good → (f s a1 a2 a3).Good) :
    (s.openStream off r f).Good :=
  h.guarded fun h => .ite h.stepFault (.ite h.stepFault (hf h))
theorem State.Good.pushLanes {s : State} {q x j : Nat} {l : List Nat} (h : s.Good) : (s.pushLanes q x j l).Good := by
  induction l generalizing s j with
  | nil => exact h
  | cons a l ih => exact ih h.store
theorem State.Good.execVpushc {A : BitVec 5} {kB : BitVec 2} {B : BitVec 5} {m : BitVec 3} {s : State} (h : s.Good) :
    Res.Good (execVpushc A kB B m s) :=
  h.openStream fun h => .ite h.stepFault (h.guarded fun h => .stepDone (.store h.pushLanes))
theorem State.Good.popWords {s : State} {q x head n k n' : Nat} (h : s.Good) : (s.popWords q x head n k n').Good := by
  induction n' generalizing s k with
  | zero => exact h
  | succ n ih => exact ih h.modVec
theorem State.Good.execVpopc {d : BitVec 5} {kB : BitVec 2} {B : BitVec 5} {m : BitVec 3} {s : State} (h : s.Good) :
    Res.Good (execVpopc d kB B m s) :=
  h.openStream fun h => h.guarded fun h => .ite (.stepDone (.store h.popWords)) (.maskStep (.store h.popWords))

end Sys2Proof.Machine
end

