-- ==== Sys2Proof/Proofs/StepKeepsOk.lean ====
section
/-! Every instruction, and so every step, keeps State.ok (R13, R16, R127): O59. -/

namespace Sys2Proof.Machine

/-! ### Every instruction -/

theorem State.Good.exec {i : Instr} {s : State} (h : s.Good) : Res.Good (exec i s) :=
  match i with
  | .add .. => h.execAdd
  | .sub .. => h.execSub
  | .addw .. => h.execAddw
  | .subw .. => h.execSubw
  | .mul .. => h.execMul
  | .mulh .. => h.execMulh
  | .mulhz .. => h.execMulhz
  | .div .. => h.execDiv
  | .divz .. => h.execDivz
  | .rem .. => h.execRem
  | .remz .. => h.execRemz
  | .and .. => h.execAnd
  | .or .. => h.execOr
  | .xor .. => h.execXor
  | .andn .. => h.execAndn
  | .shl .. => h.execShl
  | .shr .. => h.execShr
  | .sar .. => h.execSar
  | .min .. => h.execMin
  | .max .. => h.execMax
  | .minz .. => h.execMinz
  | .maxz .. => h.execMaxz
  | .clz .. => h.execClz
  | .ctz .. => h.execCtz
  | .popc .. => h.execPopc
  | .addi .. => h.execAddi
  | .andi .. => h.execAndi
  | .ori .. => h.execOri
  | .xori .. => h.execXori
  | .shli .. => h.execShli
  | .shri .. => h.execShri
  | .sari .. => h.execSari
  | .movw .. | .movk .. | .sel .. | .bfi .. | .capq .. | .estat .. | .tktest .. | .rddbc .. | .rdaot .. | .rqpeek .. | .xbtest ..
    | .self .. | .deadl .. | .headr .. | .mfs .. => h.retire
  | .cmp .. | .cmpi .. | .pand .. | .por .. | .pxor .. | .pandn .. | .pnot .. | .pset .. => h.retireP
  | .bfx .. => h.execBfx
  | .bfxs .. => h.execBfxs
  | .br .. => State.Good.ite h.jumpTo h.nextPc
  | .brF .. => State.Good.ite h.nextPc h.jumpTo
  | .j .. | .jal .. | .jr .. | .jalr .. => h.jumpTo
  | .bdec .. => State.Good.ite h.retire h.jumpTo
  | .ld .. | .lde .. => h.loadNear
  | .st .. => h.execSt
  | .ste .. => h.execSte
  | .amoAdd .. | .amoAnd .. | .amoOr .. | .amoXor .. | .amoMin .. | .amoMax .. | .amoMinz .. | .amoMaxz .. | .amoSwap ..
    | .amoCas .. => h.amo
  | .phase .. | .bar .. => h.arriveAndWait
  | .fence .. => h.ite h.nextPc
  | .bara .. => State.Good.ite h.setHere (State.Good.arrived h.setHere)
  | .barw .. => State.Good.ite h.setHere h.setHere
  | .capdup .. => h.execCapdup
  | .capdrop .. => h.withSlot (.dropRef h.setHere)
  | .capnew .. => h.execCapnew
  | .cappub .. => h.execCappub
  | .capnrw .. => h.withSlot (.settle h.setHere)
  | .capxfer .. => h.withSlot (.retire (.setHere (.modTask h.modCtx)))
  | .caprt .. => State.Good.ite h.trap (State.Good.ite h.trap (State.Good.nextPc (.setHere h.redeem)))
  | .dset .. => h.ite (h.exposedWrite fun h => h.setDesc)
  | .dget .. => h.execDget
  | .erun .. => h.execErun
  | .eset .. => State.Good.ite h.trap (h.ite (State.Good.nextPc h.enqueue))
  | .eget .. => State.Good.ite h.trap (State.Good.ite h.retire h)
  | .ewait .. | .scwait .. => State.Good.ite h.nextPc h
  | .ekld .. => h.execEkld
  | .estop .. => h.execEstop
  | .eprg .. => h.execEprg
  | .fpr .. => h.execFpr
  | .cpy .. | .idx .. => h.issueBlock
  | .tkpush .. | .chkick .. => h.ite (State.Good.nextPc h.setHere)
  | .tkpop .. => State.Good.ite h.setHere (State.Good.nextPc h.setHere)
  | .sleepu .. | .sleepa .. => h.sleepUntil
  | .stamp .. => State.Good.retire h.setHere
  | .rqpop .. => h.execRqpop
  | .xbwait .. => h.ite (State.Good.retire h.setHere)
  | .xbarm .. => State.Good.ite h.trap (State.Good.nextPc h.setHere)
  | .hold .. => h.execHold
  | .free .. | .scpost .. => State.Good.nextPc h.setHere
  | .chlink .. => h.execChlink
  | .qinit .. => h.execQinit
  | .qpush .. => h.openQueue (h.ite (.nextPc (.store (.store h.touch))))
  | .qpop .. => h.openQueue (h.ite (.retire (.store h.touch)))
  | .spawn .. => h.execSpawn
  | .done => h.execDone
  | .condw .. => h.execCondw
  | .yield => h.execYield
  | .tailw .. => State.Good.retire (.ite (.modTask h.judgeTail) h.judgeTail)
  | .taga .. => h.execTaga
  | .tagf .. => h.execTagf
  | .meet .. => h.execMeet
  | .mts .. => State.Good.ite h.trap h.setHere
  | .trap .. | .illegalWord .. => h.trap
  | .rte => State.Good.ite h.rte h.trap
  | .icinv .. => State.Good.nextPc h.dropCode
  | .wfe => State.Good.ite (State.Good.nextPc h.setHere) h
  | .halt => State.Good.ite h.fail h.trap
  | .vaddF .. | .vsubF .. | .vmulF .. | .vfmaF .. | .vminF .. | .vmaxF .. | .vabsF .. | .vnegF .. => h.floatStep
  | .vcvt .. | .vmov .. | .vsel .. | .vbcast .. | .vperm .. | .vred .. => h.laneStep
  | .vexp2 .. | .vlog2 .. | .vrcp .. | .vrsq .. | .vtanh .. => h.unaryStep
  | .vcmpF .. | .vcmpI .. | .mand .. | .mor .. | .mxor .. | .mnot .. => h.maskStep
  | .vaddI .. | .vsubI .. | .vmulI .. | .vmacI .. | .vand .. | .vor .. | .vxor .. | .vshl .. | .vshr .. | .vsar .. | .vminI ..
    | .vmaxI .. | .vsat .. => h.intStep
  | .mpopc .. => h.eStep
  | .vld .. => h.guarded fun h => .stepDone (.vmBump h.loadLanes)
  | .vst .. => h.guarded fun h => .stepDone (.vmBump (.ite (.setDescs h.storeLanes) h.storeLanes))
  | .vldx .. => h.guarded fun h => .stepDone h.loadLanes
  | .vstx .. => h.guarded fun h => .stepDone h.storeLanes
  | .vsk48 .. => State.Good.stepDone h.modVec
  | .vxp48 .. => h.execVxp48
  | .vqnt .. => h.guarded fun h => .stepDone (.setDesc h.store)
  | .vdq .. => h.execVdq
  | .vpushc .. => h.execVpushc
  | .vpopc .. => h.execVpopc
  | .eaddi .. | .emovi .. => State.Good.ite h.lcStep h.eStep
  | .kbase .. => h.execKbase
  | .loop .. | .loopp .. => h.enterLoop
  | .endl => h.execEndl
  | .sstop => h.stepTo
  | .snop => h.stepDone
  | .mma .. | .mmaR .. | .mmaS .. => h.mmaTurn
  | .accnew .. => h.withTile fun h => h.stepDone
  | .accz .. => h.afterDrains (.stepDone h.modMat)
  | .accld .. => h.execAccld
  | .drain .. => h.execDrain
  | .mdld .. => h.afterDrains (h.inParts (h.after fun h => .readDone (.modMat h.touchAll)))
  | .bstr .. => State.Good.ite h.stepIllegal (State.Good.stepDone h.modMat)
  | .bfs .. | .bfc .. => h.bfly
  | .sort .. | .topk .. | .merge .. | .segsort .. | .uniq .. | .rankof .. => h.sortStep
  | .spmv .. => h.execSpmv
  | .spmm .. => h.execSpmm
  | .spgemm .. => h.execSpgemm
  | .tdir .. => h.unlessStamped (h.after fun h => h.guarded fun h => .stepDone (.putArrays h.touchAll))
  | .engineEntryStart => h.execEngineEntryStart
  | .engineEntryComplete => h.execEngineEntryComplete
  | .stampBeat => h.execStampBeat
  | .engineWatchdog => h.execEngineWatchdog
  | .copy | .gfill | .fill | .gather | .scatter => h.runMove
  | .mcast => h.runCmd fun h => Xfer.Good.banked h.mcastStep
  | .chnop => h.execChnop
  | .gpool => h.runCmd fun h => Xfer.Good.banked h.poolStep
  | .scadd => h.runCmd fun h => Xfer.Good.banked h.scaddStep
  | .hashacc => h.runCmd fun h => Xfer.Good.banked h.hashStep
  | .densify => h.runCmd fun h => Xfer.Good.banked h.densifyStep
  | .compact => h.runCmd fun h => Xfer.Good.banked h.compactStep
  | .commandSignals => h.execCommandSignals
  | .chainBlockFetch => h.execChainBlockFetch
  | .promiseMiss => h.execPromiseMiss
  | .scratchpadClear => h.ite (State.Good.modTile h.clearMem)
  | .barrierCompletion => h.execBarrierCompletion
  | .nearRead | .nearWrite => h.nearAccess
  | .farRead => h.execFarRead
  | .farWrite => h.execFarWrite
  | .readReturn => h.execReadReturn
  | .writeAcknowledgement => h.execWriteAcknowledgement
  | .landingWrite => h.execLandingWrite
  | .barrierMessage => h.execBarrierMessage
  | .schedulerMessage => h.execSchedulerMessage
  | .arbitrationGrant => h.execArbitrationGrant
  | .packetAging => h.execPacketAging
  | .meetingOperand => h.execMeetingOperand
  | .meetingResult => h.execMeetingResult
  | .meetingWithdrawal => h.execMeetingWithdrawal
  | .heldOperandTaken => h.execHeldOperandTaken
  | .meetingTimeout => h.execMeetingTimeout
  | .replyPlacement => h.execReplyPlacement
  | .ringConsume => h.execRingConsume
  | .edgeDecrement => h.execEdgeDecrement
  | .spawnQueueDrain => h.execSpawnQueueDrain
  | .spawnProbe => h.execSpawnProbe
  | .spawnStarved => h.execSpawnStarved
  | .dispatchPop => h.ite h.pop
  | .strictLanePromotion => h.execStrictLanePromotion
  | .nodeRetire => h.execNodeRetire
  | .preemption => h.execPreemption
  | .taskWatchdog => h.execTaskWatchdog
  | .faultDelivery => State.Good.ite h.deliver h
  | .softError => h.execSoftError
  | .debugHalt => h.execDebugHalt
  | .debugRelease => h.execDebugRelease
  | .pageWalkComplete => h.execPageWalkComplete
  | .pageRequest => h.writeRequest
  | .prespRetry => h.execPrespRetry
  | .prespFail => h.execPrespFail
  | .invreq | .acvalClr => h.ite h.modCtx
  | .invalidationComplete => h.execInvalidationComplete
  | .pageSwap => h.execPageSwap
  | .frameRelease => h.releaseOld
  | .nqctlWrite => State.Good.ite h.modCtx h
  | .prqctlWrite => State.Good.ite (State.Good.writeRequests h.modCtx) h
  | .contextCreate => h.ite h.setCtx
  | .contextEnd => h.execContextEnd
  | .create => h.execCreate
  | .grant => h.request? (.fstIte h h.modBuf.inTransit)
  | .revoke => h.request? (.fstIte h h.modCtx.dropRef)
  | .importBuf => h.execImportBuf
  | .ringreg => h.execRingreg
  | .ringdel => h.execRingdel
  | .rtail => h.ite (State.Good.modCtx h.judgeTail)
  | .registerWrite => h.execRegisterWrite
  | .fmapdrvWrite => h.ite (State.Good.ite h.modPkg (State.Good.ite h.modPkg h))
  | .ckptStart => h.ite h.modPkg
  | .ckptDone => h.execCkptDone
  | .ebudRefill => h.foldl fun h => h.modTile
  | .correctedError => h.ite (State.Good.ite (State.Good.modPkg h.modPkg) h.modPkg)
  | .unitDrain => h.execUnitDrain
  | .spanLinkFailure => h.ofTiles (h.tiles.map fun _ => rfl)
  | .memoryUncorrectableError => h.execMemoryUncorrectableError
  | .powerOn => h.execPowerOn
  | .linkTraining => State.Good.ite h.modPkg h
  | .getVersion | .getCapabilities | .negotiateAlgorithms | .getDigests | .getCertificate | .challenge | .spdmUnsupportedRequest =>
      h.answer
  | .getMeasurements => State.Good.ite h.answer h.answer
  | .keyExchange | .endSession => State.Good.answer h.session
  | .finish => State.Good.answer (.ite h.session h)
  | .keygen | .keydel => State.Good.ite h.answer (State.Good.answer h.modPkg)
  | .sleepExpiry => h.execSleepExpiry
  | .illegalMicroOrder .. => h.stepFault
  | .driverRequestUnknownOp => h.execDriverRequestUnknownOp
  | .companionFarWrite => h.execCompanionFarWrite
  | .spanRequest => h.execSpanRequest

/-! ### The fetch and the beat -/

theorem State.Good.cacheWord {s : State} {t k : Nat} {w : BitVec 32} (h : s.Good) : (s.cacheWord t k w).Good := h.modTile
theorem State.Good.fetchWord {s : State} {t : Nat} (h : s.Good) : FstGood (s.fetchWord t) := by
  dsimp only [State.fetchWord]
  split
  · exact h
  · split
    · refine State.Good.cacheWord ?_
      split
      · exact h.orEntry
      · exact State.Good.picked h.orEntry
    · exact trivial
theorem State.Good.seqTurn {s : State} {t : Nat} (h : s.Good) : (s.seqTurn t).Good := by
  dsimp only [State.seqTurn]
  split
  · exact h
  · split
    · exact h.stopMember
    · split
      · exact h.deliver
      · split
        · exact h.trap
        · split
          · next _ _ e =>
              split
              · exact (e ▸ h.fetchWord :)
              · exact (e ▸ h.fetchWord :)
          · exact trivial
theorem State.Good.engFirst {s : State} {t : Nat} {e : Eng} (h : s.Good) : OptionGood (s.engFirst t e) := by
  dsimp only [State.engFirst]
  split
  · split
    · exact trivial
    · exact h.tensorStep
  · exact trivial
theorem State.Good.issuing {s : State} {e : Eng} {i : Instr} (h : s.Good) : (s.issuing e i).Good := by
  dsimp only [State.issuing]
  split
  · exact h.grouped
  · exact h
theorem State.Good.skipStep {s : State} (h : s.Good) : (s.skipStep).Good := h.stepDone
theorem State.Good.onBeats {s : State} {beats : Nat → Nat} (h : s.Good) : (s.onBeats beats).Good :=
  h.ofTiles (h.tiles.map fun t => by split <;> rfl)
theorem State.Good.onTicks {s : State} {ticks : Nat} (h : s.Good) : (s.onTicks ticks).Good :=
  ⟨h.mem, h.tiles.map fun _ => by split <;> [split <;> rfl; rfl], h.nodes.map fun _ => by split <;> rfl⟩
theorem State.Good.pass {s : State} {beats ticks : Nat} (h : s.Good) : (s.pass beats ticks).Good := by
  dsimp only [State.pass]
  exact .ite (.onBeats h.onTicks) h
theorem State.Good.beat {s : State} {die n : Nat} (h : s.Good) : (s.beat die n).Good := by
  dsimp only [State.beat]
  exact .ite h.onBeats h
theorem State.Good.evictCode {s : State} {t n : Nat} (h : s.Good) : (s.evictCode t n).Good := h.modTile
theorem State.Good.evictXlat {s : State} {n : Nat} (h : s.Good) : (s.evictXlat n).Good := h

/-! ### The step -/

theorem State.Good.stepSeq {t : Nat} {s : State} (h : s.Good) : Res.Good (stepSeq t s) := by
  dsimp only [Machine.stepSeq]
  split
  · next _ e => exact (e ▸ State.Good.seqTurn h.focus :)
  · next _ _ e => exact State.Good.exec (e ▸ State.Good.seqTurn h.focus :)
  · exact trivial
theorem State.Good.stepLate {t : Nat} {s : State} (h : s.Good) : Res.Good (stepLate t s) := by
  have h1 : Res.Good (Machine.stepSeq t { s with late := true }) := State.Good.stepSeq h
  unfold Machine.stepLate
  split
  · next e => exact (e ▸ h1 :)
  · exact h1
theorem State.Good.stepEng {t : Nat} {e : Eng} {s : State} (h : s.Good) : Res.Good (stepEng t e s) := by
  dsimp only [Machine.stepEng]
  split
  · next _ e => exact (e ▸ State.Good.engFirst h.focus :)
  · split
    · exact h.focus
    · exact State.Good.skipStep h.focus
    · exact State.Good.stepFault h.focus
    · exact State.Good.exec (.issuing h.focus)
theorem State.Good.stepPart {t n : Nat} {e : Eng} {s : State} (h : s.Good) : Res.Good (stepPart t e n s) := by
  have h1 : Res.Good (Machine.stepEng t e { s with part := some n }) := State.Good.stepEng h
  unfold Machine.stepPart
  split
  · next e => exact (e ▸ h1 :)
  · exact h1
theorem State.Good.stepTurn {k : Turn} {s : State} (h : s.Good) : Res.Good (stepTurn k s) := by
  dsimp only [Machine.stepTurn]
  split
  · exact h.stepSeq
  · exact h.stepLate
  · exact h.stepEng
  · exact h.stepPart
  · split
    · exact State.Good.exec h
    · exact h
  · exact h.pass
  · exact h.beat
  · exact h.evictCode
  · exact h.evictXlat
  · exact h.prefetch
theorem State.Good.step {s : State} (h : s.Good) : Res.Good (step s) := by
  unfold Machine.step
  split
  · exact h.stepSeq
  · exact State.Good.stepTurn h

/-- Settles O59: State.Good is State.ok, and every step keeps it. -/
theorem stepKeepsOk : Obligations.StepKeepsOk :=
  fun _ _ hs e => (e ▸ State.Good.step hs : Res.Good (.next _))

end Sys2Proof.Machine
end

