-- ==== Sys2Proof/Proofs/NearAddresses.lean ====
section
/-! The checks of a near address (R18), and what each near access does with a refused one: O10. -/

namespace Sys2Proof.Machine

/-- Why R18's checks, in their order, refuse an access of `n` bytes at near address `x` by context `c`, if they do. -/
def State.NearRefused (s : State) (c : Nat) (x : Word) (n k : Nat) : Prop :=
  (2 ^ 33 ≤ x.toNat ∧ k = 0x03) ∨ (¬ 2 ^ 33 ≤ x.toNat ∧ x.toNat % n ≠ 0 ∧ k = 0x02)
    ∨ (¬ 2 ^ 33 ≤ x.toNat ∧ x.toNat % n = 0
      ∧ (FMap.get? (s.ctxAt c).tmap (x.toNat / Config.windowSize) = none ∨ Config.scratchEnd ≤ x.toNat % Config.windowSize) ∧ k = 0x03)

theorem State.near_of_refused {s : State} {c : Nat} {x : Word} {n k : Nat} (h : s.NearRefused c x n k) : s.near c x n = .bad k := by
  unfold State.near
  rcases h with ⟨hb, rfl⟩ | ⟨hb, ha, rfl⟩ | ⟨hb, ha, hh, rfl⟩
  · rw [if_pos hb]
  · rw [if_neg hb, if_pos ha]
  · rw [if_neg hb, if_neg (not_not.2 ha)]
    unfold State.findNear
    dsimp only
    split
    · rfl
    · next e => exact if_pos (hh.resolve_left fun hn => nomatch hn.symm.trans e)

/-- A refused address is none of the own window's where a live task holds that window (R16). -/
theorem State.ownNear_of_refused {s : State} {x : Word} {n k : Nat} (hv : FMap.get? (s.ctxAt s.here.ctx).tmap s.here.vtile ≠ none)
    (h : s.NearRefused s.here.ctx x n k) (o : Nat) : s.ownNear s.cur x n ≠ .ok o := by
  unfold State.ownNear
  dsimp only
  rcases h with ⟨hb, rfl⟩ | ⟨hb, ha, rfl⟩ | ⟨hb, ha, hh, rfl⟩
  · rw [if_pos hb]; exact nofun
  · rw [if_neg hb, if_pos ha]; exact nofun
  · rw [if_neg hb, if_neg (not_not.2 ha)]
    split
    · exact nofun
    · next hw =>
      rw [if_pos (hh.resolve_left fun hn => hv ((not_not.1 hw).symm ▸ hn))]
      exact nofun

/-! ### What a near access does with a refused address: it traps -/

theorem trapped_loadNear {s : State} {d : BitVec 5} {x : Word} {n k : Nat} {z b : Bool} (ht : s.here.canTrap) (hf : s.here.acquires = false)
    (h : s.near s.here.ctx x n = .bad k) : Trapped s (loadNear s d n z b x) k x := by
  have e : loadNear s d n z b x = s.trap k x := by simp only [loadNear, hf, h, Bool.false_eq_true, if_false]
  exact e ▸ trapped_trap ht k x

theorem trapped_exposedWrite {s : State} {x : Word} {n k : Nat} {f : State → Nat → State} {p : Nat → Nat → Packet} (ht : s.here.canTrap)
    (h : s.near s.here.ctx x n = .bad k) : Trapped s (exposedWrite s x n f p) k x := by
  have e : exposedWrite s x n f p = s.trap k x := by simp only [exposedWrite, h]
  exact e ▸ trapped_trap ht k x

theorem traps_st {s : State} {d base : BitVec 5} {size : BitVec 2} {off : BitVec 13} {k : Nat} (ht : s.here.canTrap)
    (h : s.near s.here.ctx (memAddr s.here base off) (sizeBytes size) = .bad k) :
    Traps s (.st d base size off) k (memAddr s.here base off) := by
  have e : exec (.st d base size off) s = .next (s.trap k (memAddr s.here base off)) := by
    change execSt d base size off s = _
    simp only [execSt, h]
  exact ⟨_, e, trapped_trap ht k _⟩

/-- An ste outside the own window is an exposed store: only the own window holds the template aperture (R197). -/
theorem traps_ste {s : State} {d base : BitVec 5} {size : BitVec 2} {off : BitVec 13} {k : Nat} (ht : s.here.canTrap)
    (hv : FMap.get? (s.ctxAt s.here.ctx).tmap s.here.vtile ≠ none)
    (h : s.NearRefused s.here.ctx (memAddr s.here base off) (sizeBytes size) k) :
    Traps s (.ste d base size off) k (memAddr s.here base off) := by
  have e : exec (.ste d base size off) s = .next (storeExposed s (memAddr s.here base off) (sizeBytes size)
      (leBytes (s.here.rd d).toNat (sizeBytes size))) := by
    change execSte d base size off s = _
    unfold execSte
    dsimp only
    split
    · next ho _ => exact absurd ho (State.ownNear_of_refused hv h _)
    · rfl
  exact ⟨_, e, trapped_exposedWrite ht (State.near_of_refused h)⟩

theorem traps_amo {i : Instr} {op : Nat} {d a b : BitVec 5} {ord : BitVec 2} {size : BitVec 1} {s : State} {k : Nat}
    (hi : exec i s = amo op d a b ord size s) (ht : s.here.canTrap) (hf : s.here.acquires = false)
    (h : s.near s.here.ctx (s.here.rd a) (4 * (size.toNat + 1)) = .bad k) : Traps s i k (s.here.rd a) :=
  ⟨_, by rw [hi, amo]; simp only [hf, h, Bool.false_eq_true, if_false], trapped_trap ht k _⟩

theorem traps_dset {s : State} {a b : BitVec 5} {k : Nat} (ht : s.here.canTrap) (hf : s.here.acquires = false)
    (h : s.near s.here.ctx (s.here.rd a) 1 = .bad k) : Traps s (.dset a b) k (s.here.rd a) :=
  ⟨_, congrArg Host.Outcome.next (if_neg (hf ▸ Bool.false_ne_true)), trapped_exposedWrite ht h⟩

theorem traps_dget {s : State} {d a : BitVec 5} {k : Nat} (ht : s.here.canTrap) (hf : s.here.acquires = false)
    (h : s.near s.here.ctx (s.here.rd a) 1 = .bad k) : Traps s (.dget d a) k (s.here.rd a) := by
  have e : exec (.dget d a) s = .next (s.trap k (s.here.rd a)) := by
    change execDget d a s = _
    simp only [execDget, hf, h, Bool.false_eq_true, if_false]
  exact ⟨_, e, trapped_trap ht k _⟩

/-- The bytes of an atomic's size (R82). -/
theorem amoBytes_eq (sz : BitVec 1) : 4 * (sz.toNat + 1) = if sz = 0 then 4 else 8 := by
  revert sz; decide

/-- Settles O10: R18's checks refuse the address, no access is made, and the trap of R358 is taken. -/
theorem nearAddressChecks : Obligations.NearAddressChecks := by
  intro s d a b base size z off ord sz ht hfresh hv addr n w bounds hole cause
  obtain ⟨-, -, -, hf⟩ := hfresh
  refine ⟨fun k hk i hi => ?_, fun k hk i hi => ?_, fun k hk => ?_⟩
  · have hr : s.NearRefused s.here.ctx (memAddr s.here base off) (sizeBytes size) k := hk
    have hn := State.near_of_refused hr
    simp only [List.mem_cons, List.not_mem_nil, or_false] at hi
    rcases hi with rfl | rfl | rfl | rfl
    · exact ⟨_, rfl, trapped_loadNear ht hf hn⟩
    · exact ⟨_, rfl, trapped_loadNear ht hf hn⟩
    · exact traps_st ht hn
    · exact traps_ste ht hv hr
  · have hn := State.near_of_refused (s := s) (c := s.here.ctx) (x := s.here.rd a) (n := w) (k := k) hk
    have hw : 4 * (sz.toNat + 1) = w := amoBytes_eq sz
    simp only [List.mem_cons, List.not_mem_nil, or_false] at hi
    obtain ⟨op, e⟩ : ∃ op, exec i s = amo op d a b ord sz s := by
      rcases hi with rfl | rfl | rfl | rfl | rfl | rfl | rfl | rfl | rfl | rfl <;> exact ⟨_, rfl⟩
    exact traps_amo e ht hf (hw ▸ hn)
  · have hn := State.near_of_refused (s := s) (c := s.here.ctx) (x := s.here.rd a) (n := 1) (k := k) hk
    exact ⟨traps_dset ht hf hn, traps_dget ht hf hn⟩

end Sys2Proof.Machine
end

