-- ==== Sys2Proof/Proofs/ResetState.lean ====
section
/-! The package at power-on (R24, R41, R139, R237, R375, R383): O60. -/

namespace Sys2Proof.Machine

/-! ### Every table is empty at power-on, and what none lists stands at its reset value -/

theorem State.tile_reset (t : Nat) : State.reset.tile t = {} := rfl
theorem State.ctxAt_reset (c : Nat) : State.reset.ctxAt c = {} := rfl
theorem State.die_reset (d : Nat) : State.reset.die d = {} := rfl
theorem State.node?_reset (n : Nat) : State.reset.node? n = none := rfl
theorem State.reset_ok : State.reset.ok := ⟨rfl, .nil, .nil⟩

/-- Settles O60: the tables of the package at power-on are empty. -/
theorem resetState : Obligations.ResetState := by
  refine ⟨State.reset_ok, rfl, rfl, rfl, rfl, fun c => ?_, fun t => ?_, fun d => ?_, State.node?_reset⟩
  · rw [State.ctxAt_reset]; exact ⟨rfl, rfl, rfl, rfl⟩
  · rw [State.tile_reset]; exact ⟨rfl, rfl, rfl, rfl⟩
  · rw [State.die_reset]; exact ⟨rfl, rfl⟩

end Sys2Proof.Machine
end

