-- ==== Sys2Proof/Proofs/Turns.lean ====
section
/-! What each turn of the agenda does: the fetch of a sequencer, the step of an engine, an event (R30, R31, R62, R95, R212, R363). -/

namespace Sys2Proof.Machine

/-! ### The sequencer's turn -/

/-- What a sequencer's turn is in the state of its focus. -/
def SeqTurn.result : SeqTurn → Host.Outcome State Fault Refusal
  | .done t => .next t
  | .word t i => exec i t
  | .untranslated => .fault .fetchUntranslated

theorem step_of_sequencerTurn {s f : State} (h : sequencerTurn s f) : step s = (f.seqTurn f.cur).result := by
  rcases h with ⟨ha, rfl⟩ | ⟨t, rest, ha, rfl⟩
  · unfold step; rw [ha]; rfl
  · unfold step; rw [ha]; rfl

section
variable {f : State} {t : Nat}

theorem State.seqTurn_of_not_seqRuns (h : f.seqRuns t = false) : f.seqTurn t = .done f := by
  simp [State.seqTurn, h]

theorem State.seqTurn_of_stop (h : f.seqRuns t = true) (hs : (f.tile t).stop = true ∧ (f.tile t).inside = false) :
    f.seqTurn t = .done (f.stopMember t) := by
  simp [State.seqTurn, h, hs]

theorem State.seqTurn_of_deliverable (h : f.seqRuns t = true) (hs : ¬ ((f.tile t).stop = true ∧ (f.tile t).inside = false))
    (hd : f.deliverable t = true) : f.seqTurn t = .done (f.deliver t) := by
  unfold State.seqTurn
  rw [if_neg (by simp [h]), if_neg (by simpa using hs), if_pos hd]

/-- A sequencer that has neither to stop nor to take a fault fetches its word (R62, R363). -/
theorem State.seqTurn_of_fetches (h : f.seqRuns t = true) (hs : ¬ ((f.tile t).stop = true ∧ (f.tile t).inside = false))
    (hd : f.deliverable t = false) : f.seqTurn t = if !pcOk (f.tile t).pc then .done (f.trap 0x04 (f.tile t).pc)
      else match f.fetchWord t with
        | some (g, w) => if (g.tile t).awaits (decodeSeq w) then .done g else .word g (decodeSeq w)
        | none => .untranslated := by
  unfold State.seqTurn
  exact (if_neg (by simp [h])).trans ((if_neg (by simpa using hs)).trans (if_neg (by simp [hd])))
end

theorem pcOk_iff (a : Word) : pcOk a = true ↔ a.toNat % 4 = 0 ∧ a.toNat < 2 ^ 55 := by simp [pcOk]

/-- A word that is fetched is executed, or waits for the registers that it names (R84). -/
theorem runsWord_of_fetchWord {s f g : State} {w : Nat} (hf : sequencerTurn s f) (hr : f.seqRuns f.cur = true)
    (hs : ¬ ((f.tile f.cur).stop = true ∧ (f.tile f.cur).inside = false)) (hd : f.deliverable f.cur = false)
    (hp : pcOk (f.tile f.cur).pc = true) (hw : f.fetchWord f.cur = some (g, w)) (hg : g.cur = f.cur) : runsWord s g w := by
  have e : step s = (if (g.tile g.cur).awaits (decodeSeq w) then SeqTurn.done g else .word g (decodeSeq w)).result := by
    rw [step_of_sequencerTurn hf, State.seqTurn_of_fetches hr hs hd, if_neg (by simp [hp]), hw, hg]
  constructor
  · intro h; rw [e, if_neg (by rw [show (g.tile g.cur).awaits (decodeSeq w) = false from h]; exact Bool.false_ne_true)]; rfl
  · intro h; rw [e, if_pos (show (g.tile g.cur).awaits (decodeSeq w) = true from h)]; rfl

theorem State.fetchWord_of_cached {f : State} {t : Nat} {w : BitVec 32}
    (h : FMap.get? (f.tile t).icache ((f.tile t).pc.toNat / 4) = some w) : f.fetchWord t = some (f, w.toNat) := by
  unfold State.fetchWord; simp only [h]

section
variable {f : State} {t k pte : Nat} {large : Bool} (hc : FMap.get? (f.tile t).icache ((f.tile t).pc.toNat / 4) = none)
include hc

theorem State.fetchWord_of_bad {why : Nat} (hw : f.walk (f.tile t).ctx ((f.tile t).pc.toNat / 2 ^ 16) = .bad why) : f.fetchWord t = none := by
  unfold State.fetchWord; simp only [hc, hw]

/-- A word of a frame whose key fits is that of memory, once A is set in the leaf (R247). -/
theorem State.fetchWord_of_fits (hw : f.walk (f.tile t).ctx ((f.tile t).pc.toNat / 2 ^ 16) = .leaf k pte large)
    (hk : f.keyFits pte (leafKey pte ((f.tile t).pc.toNat / 2 ^ 16) large + (f.tile t).pc.toNat % 2 ^ 16) = true) :
    let w := (f.orEntry k 8).load (leafKey pte ((f.tile t).pc.toNat / 2 ^ 16) large + (f.tile t).pc.toNat % 2 ^ 16) 4
    f.fetchWord t = some ((f.orEntry k 8).cacheWord t ((f.tile t).pc.toNat / 4) (BitVec.ofNat 32 w), w) := by
  unfold State.fetchWord; simp only [hc, hw, hk, if_true]

/-- A word of a frame whose key does not fit is a free one (log 83). -/
theorem State.fetchWord_of_misfit (hw : f.walk (f.tile t).ctx ((f.tile t).pc.toNat / 2 ^ 16) = .leaf k pte large)
    (hk : f.keyFits pte (leafKey pte ((f.tile t).pc.toNat / 2 ^ 16) large + (f.tile t).pc.toNat % 2 ^ 16) = false) :
    ∃ w, f.fetchWord t = some ((f.orEntry k 8).picked.cacheWord t ((f.tile t).pc.toNat / 4) (BitVec.ofNat 32 w), w) := by
  unfold State.fetchWord; simp only [hc, hw, hk, Bool.false_eq_true, if_false]
  exact ⟨_, rfl⟩
end

/-! ### The other turns -/

theorem eventRow_of_event {i : Instr} (h : i.codeUnit = .event) (hi : ∀ w, i ≠ .illegalMicroOrder w) : eventRow i = true := by
  cases i
  case illegalMicroOrder w => exact absurd rfl (hi w)
  all_goals first | rfl | exact nomatch h

theorem step_of_seqLate {s : State} {t : Nat} {rest : List Turn} (h : s.agenda = .seqLate t :: rest) :
    step s = match step { s with agenda := .seq t :: rest, late := true } with
      | .next u => .next { u with late := false }
      | r => r := by
  unfold step; rw [h]; rfl

theorem step_of_engPart {s : State} {t n : Nat} {e : Eng} {rest : List Turn} (h : s.agenda = .engPart t e n :: rest) :
    step s = match step { s with agenda := .eng t e :: rest, part := some n } with
      | .next u => .next { u with part := none }
      | r => r := by
  unfold step; rw [h]; rfl

theorem step_of_event {s : State} {i : Instr} {t : Nat} {e : Eng} {a : Arg} {rest : List Turn} (h : s.agenda = .event i t e a :: rest)
    (hi : eventRow i = true) : step s = exec i { s with agenda := rest, cur := t, eng := e, arg := a } := by
  unfold step; rw [h]; exact if_pos hi

theorem step_of_time {s : State} {n ticks : Nat} {rest : List Turn} (h : s.agenda = .time n ticks :: rest) :
    step s = .next (State.pass { s with agenda := rest } n ticks) := by
  unfold step; rw [h]; rfl

theorem step_of_beats {s : State} {k n : Nat} {rest : List Turn} (h : s.agenda = .beats k n :: rest) :
    step s = .next (State.beat { s with agenda := rest } k n) := by
  unfold step; rw [h]; rfl

/-! ### The turn of an engine -/

/-- What an engine's turn does in the state of its focus. -/
def EngTurn.result (f : State) (t : Nat) (e : Eng) : EngTurn → Host.Outcome State Fault Refusal
  | .idle => .next f
  | .skip => .next f.skipStep
  | .fault k v => .next (f.stepFault k v)
  | .word w => exec (decodeFor t e w) (f.issuing e (decodeFor t e w))

section
variable {s : State} {t : Nat} {e : Eng} {rest : List Turn} (h : s.agenda = .eng t e :: rest)
include h

theorem step_of_engFirst {g : State} (hg : State.engFirst { s with agenda := rest, cur := t, eng := e } t e = some g) : step s = .next g := by
  unfold step stepTurn stepEng; rw [h]; dsimp only [State.focus]; rw [hg]

theorem step_of_engTurn (hg : State.engFirst { s with agenda := rest, cur := t, eng := e } t e = none) {k : EngTurn}
    (hk : State.engTurn { s with agenda := rest, cur := t, eng := e } t e = k) :
    step s = k.result { s with agenda := rest, cur := t, eng := e } t e := by
  unfold step stepTurn stepEng; rw [h, ← hk]; dsimp only [State.focus]; rw [hg]; rfl
end

section
variable {f : State} {t : Nat} {e : Eng}

theorem State.engTurn_of_idle (h : ((f.tile t).engine e).run = none) : f.engTurn t e = .idle := by
  unfold State.engTurn; simp only [h]

variable {r : Running} (h : ((f.tile t).engine e).run = some r) (he : r.ended = none) (hh : f.held t = false)
include h he hh

theorem State.engTurn_of_skips (hs : ((f.tile t).engine e).skips r = true) : f.engTurn t e = .skip := by
  unfold State.engTurn; simp only [h, he, hh, hs, Option.isSome_none, Bool.or_self, Bool.false_eq_true, if_false, if_true]

variable (hs : ((f.tile t).engine e).skips r = false)
include hs

theorem State.engTurn_of_early {b : Word} (hb : f.dueBeat r (decodeFor t e (f.stepWord t r r.step)) = some b) (hn : b ≠ f.dbc t) :
    f.engTurn t e = .idle := by
  unfold State.engTurn
  simp only [h, he, hh, hs, hb, decide_eq_true hn, Option.isSome_none, Bool.or_self, Bool.false_eq_true, if_false, if_true]

/-- A step that is due: its word is read where the table lies in the scratchpad and its line is not landing (R95, R154). -/
theorem State.engTurn_of_due (hd : ∀ b, f.dueBeat r (decodeFor t e (f.stepWord t r r.step)) = some b → b = f.dbc t) : f.engTurn t e =
    let off := r.base + 4 * r.step
    let own := fun (k : Nat) => BitVec.ofNat 64 ((f.tile t).vtile * Config.windowSize + k)
    if Config.scratchEnd < off + 4 then .fault 0x03 (own off)
    else if f.unitLanding t (off / 64) r.entry.no then (if r.entry.stamp.isSome then .fault 0x11 (own (off / 64 * 64)) else .idle)
    else .word (f.load (nearKey t off) 4) := by
  have hdue : (match f.dueBeat r (decodeFor t e (f.stepWord t r r.step)) with
      | some b => decide (b ≠ f.dbc t)
      | none => false) = false := by
    split
    · next b hb => simp [hd b hb]
    · rfl
  unfold State.engTurn
  simp only [h, he, hh, hs, Option.isSome_none, Bool.or_self, Bool.false_eq_true, if_false]
  exact if_neg (ne_true_of_eq_false hdue)
end

end Sys2Proof.Machine
end

