-- ==== Sys2Proof/Proofs/Time.lean ====
section
/-! The passing of time (R22, R24, R25, log 6), and with it a step of every kind: O56. -/

namespace Sys2Proof
/-- A table changed entry by entry, with the keys left alone. -/
theorem FMap.get?_map {α β : Type} (m : FMap α) (f : Nat × α → Nat × β) (hf : ∀ x, (f x).1 = x.1) (k : Nat) :
    FMap.get? (m.map f) k = (FMap.get? m k).map fun v => (f (k, v)).2 := by
  induction m with
  | nil => rfl
  | cons a t ih =>
    obtain ⟨j, v⟩ := a
    have e : f (j, v) = (j, (f (j, v)).2) := Prod.ext (hf _) rfl
    rw [List.map_cons, e, FMap.get?, FMap.get?]
    split
    · next h => subst h; rfl
    · split
      · rfl
      · exact ih
end Sys2Proof

namespace Sys2Proof.Machine

/-! ### What passing time leaves (R22, R24, R25, R366, R372) -/

/-- The counters of the first `n` dies, once they have gone on. -/
theorem getD_foldl_dbc (dies : FMap Die) (beats : Nat → Nat) (n d : Nat) :
    FMap.getD {} ((List.range n).foldl (fun l d => if beats d = 0 then l else
      let x := FMap.getD {} l d
      FMap.set l d { x with dbc := x.dbc + BitVec.ofNat 64 (beats d) }) dies) d
    = let x := FMap.getD {} dies d
      { x with dbc := x.dbc + BitVec.ofNat 64 (if d < n then beats d else 0) } := by
  induction n with
  | zero => simp
  | succ n ih =>
    rw [List.range_succ, List.foldl_append]
    simp only [List.foldl_cons, List.foldl_nil]
    split
    · next hb =>
      rw [ih]
      by_cases h : d = n
      · subst h; simp [hb]
      · simp [show d < n + 1 ↔ d < n by omega]
    · by_cases h : d = n
      · subst h; rw [FMap.getD_set_same, ih]; simp
      · rw [FMap.getD_set_ne _ _ h, ih]; simp [show d < n + 1 ↔ d < n by omega]

theorem State.die_onBeats (s : State) (beats : Nat → Nat) (d : Nat) :
    (s.onBeats beats).die d = { s.die d with dbc := (s.die d).dbc + BitVec.ofNat 64 (if d < 27 then beats d else 0) } :=
  getD_foldl_dbc s.dies beats 27 d

theorem State.tile_onBeats (s : State) (beats : Nat → Nat) (u : Nat) :
    (s.onBeats beats).tile u = { s.tile u with banks := if beats (dieOf u) = 0 then (s.tile u).banks else [] } := by
  unfold State.tile State.onBeats FMap.getD
  rw [FMap.get?_map _ _ (fun x => by split <;> rfl)]
  cases FMap.get? s.tiles u with
  | none => simp
  | some x => simp only [Option.map_some, Option.getD_some]; split <;> rfl

theorem State.tile_onTicks (s : State) (ticks u : Nat) :
    (s.onTicks ticks).tile u = { s.tile u with
      sleep := (s.tile u).sleep.map (fun v => if v.1 = true ∧ s.held u = true then (v.1, v.2 + BitVec.ofNat 64 ticks) else v) } := by
  unfold State.tile State.onTicks FMap.getD
  dsimp only
  rw [FMap.get?_map _ _ (fun x => by split <;> [split <;> rfl; rfl])]
  cases FMap.get? s.tiles u with
  | none => rfl
  | some x =>
    simp only [Option.map_some, Option.getD_some]
    have keeps (h : ∀ v, x.sleep = some (true, v) → s.held u = false) :
        (x.sleep.map fun v => if v.1 = true ∧ s.held u = true then (v.1, v.2 + BitVec.ofNat 64 ticks) else v) = x.sleep := by
      cases hx : x.sleep with
      | none => rfl
      | some v => exact congrArg some (if_neg fun hv => ne_true_of_eq_false (h v.2 (hx.trans (congrArg some (Prod.ext hv.1 rfl)))) hv.2)
    split
    · next v e =>
      by_cases h : s.held u = true
      · simp [e, h]
      · rw [if_neg h, keeps fun _ _ => eq_false_of_ne_true h]
    · next hn => rw [keeps fun v hv => absurd hv (hn v)]

theorem State.node?_onTicks (s : State) (ticks n : Nat) : (s.onTicks ticks).node? n = (s.node? n).map (fun x =>
    if x.st = .run ∧ x.outcome = none ∧ s.heldCtx x.ctx = false then { x with ran := x.ran + ticks } else x) := by
  unfold State.node? State.onTicks
  dsimp only
  rw [FMap.get?_map _ _ (fun x => by split <;> rfl)]
  congr 1
  funext x
  simp only [Option.isNone_iff_eq_none, Bool.not_eq_true']
  split
  · rfl
  · rfl

theorem State.onTicks_zero (s : State) : s.onTicks 0 = s := by
  have h0 : ∀ w : Word, w + BitVec.ofNat 64 0 = w := fun w => BitVec.add_zero w
  unfold State.onTicks
  simp only [h0, Nat.add_zero, ite_self]
  congr 1
  · refine List.map_id'' (fun t => ?_) _
    split
    · next v e => rw [← e, ite_self]
    · rfl
  · simp
  · simp

/-- Time has passed from `s`, whose agenda is then `rest`: `beats` on each die, `ticks` of AOT. -/
def Passed (s : State) (rest : List Turn) (beats : Nat → Nat) (ticks : Nat) (t : State) : Prop :=
  t.aot = s.aot + BitVec.ofNat 64 ticks
  ∧ (∀ d, t.die d = { s.die d with dbc := (s.die d).dbc + BitVec.ofNat 64 (if d < 27 then beats d else 0) })
  ∧ (∀ u, t.tile u = { s.tile u with
      banks := if beats (u / 256) = 0 then (s.tile u).banks else []
      sleep := (s.tile u).sleep.map (fun v => if v.1 = true ∧ s.held u = true then (v.1, v.2 + BitVec.ofNat 64 ticks) else v) })
  ∧ (∀ n, t.node? n = (s.node? n).map (fun x =>
      if x.st = .run ∧ x.outcome = none ∧ s.heldCtx x.ctx = false then { x with ran := x.ran + ticks } else x))
  ∧ (∀ i : Nat, t.net[i]? = s.net[i]?.map (fun (p : Packet) =>
      if p.arrived then p else { p with waited := p.waited + beats (p.point / 65536) }))
  ∧ (∀ i : Nat, t.land[i]? = s.land[i]?.map (fun (p : Landing) =>
      if p.arrived then p else { p with waited := p.waited + beats (p.point / 65536) }))
  ∧ (∀ i : Nat, t.meets[i]? = s.meets[i]?.map (fun (p : Mail) =>
      if p.arrived then p else { p with waited := p.waited + beats (p.point / 65536) }))
  ∧ { t with aot := s.aot, dies := s.dies, tiles := s.tiles, nodes := s.nodes, net := s.net, land := s.land, meets := s.meets, stations := s.stations }
      = { s with agenda := rest }

theorem passed_onTicks_onBeats (s : State) (rest : List Turn) (beats : Nat → Nat) (ticks : Nat) :
    Passed s rest beats ticks ((State.onTicks { s with agenda := rest } ticks).onBeats beats) := by
  refine ⟨rfl, fun d => State.die_onBeats _ beats d, fun u => ?_, fun n => State.node?_onTicks { s with agenda := rest } ticks n,
    fun i => ?_, fun i => ?_, fun i => ?_, rfl⟩
  · rw [State.tile_onBeats, State.tile_onTicks]; rfl
  all_goals
    refine (List.getElem?_map).trans (congrArg (Option.map · _) (funext fun p => ?_))
    unfold Route.wait
    split
    · rfl
    · rfl

theorem State.counts_iff (s : State) (d : Nat) : s.counts d = true ↔ (s.die d).outOfReset = true ∧ (s.die d).halted = false := by
  rw [State.counts, Bool.and_eq_true, Bool.not_eq_true']

/-- What waits for a judgement (log 6) holds time up; with nothing to judge it passes. -/
theorem step_of_time_counts {s : State} {n ticks : Nat} {rest : List Turn} {beats : Nat → Nat} (h : s.agenda = .time n ticks :: rest)
    (hb : ∀ d, ((s.die d).outOfReset = true ∧ (s.die d).halted = false → beats d = n)
      ∧ (¬ ((s.die d).outOfReset = true ∧ (s.die d).halted = false) → beats d = 0)) :
    (State.mayPass { s with agenda := rest } beats ticks = false → step s = .next { s with agenda := rest })
      ∧ (State.mayPass { s with agenda := rest } beats ticks = true → ∃ t, step s = .next t ∧ Passed s rest beats ticks t) := by
  have e : (fun d => if State.counts { s with agenda := rest } d then n else 0) = beats := by
    funext d
    have hc := State.counts_iff { s with agenda := rest } d
    split
    · next hd => exact ((hb d).1 (hc.1 hd)).symm
    · next hd => exact ((hb d).2 (mt hc.2 hd)).symm
  rw [step_of_time h, State.pass, e]
  exact ⟨fun hj => congrArg _ (if_neg (ne_true_of_eq_false hj)), fun hj => ⟨_, congrArg _ (if_pos hj), passed_onTicks_onBeats ..⟩⟩

theorem step_of_beats_counts {s : State} {k n : Nat} {rest : List Turn} {beats : Nat → Nat} (h : s.agenda = .beats k n :: rest)
    (hb : ∀ d, (d = k → ((s.die d).outOfReset = true ∧ (s.die d).halted = false) → beats d = n)
      ∧ (d ≠ k ∨ ¬ ((s.die d).outOfReset = true ∧ (s.die d).halted = false) → beats d = 0)) :
    (State.mayPass { s with agenda := rest } beats 0 = false → step s = .next { s with agenda := rest })
      ∧ (State.mayPass { s with agenda := rest } beats 0 = true → ∃ t, step s = .next t ∧ Passed s rest beats 0 t) := by
  have e : (fun d => if d = k ∧ State.counts { s with agenda := rest } d then n else 0) = beats := by
    funext d
    have hc := State.counts_iff { s with agenda := rest } d
    split
    · next hd => exact ((hb d).1 hd.1 (hc.1 hd.2)).symm
    · next hd => exact ((hb d).2 ((not_and_or.1 hd).imp_right (mt hc.2))).symm
  have hp := passed_onTicks_onBeats s rest beats 0
  rw [State.onTicks_zero] at hp
  rw [step_of_beats h, State.beat, e]
  exact ⟨fun hj => congrArg _ (if_neg (ne_true_of_eq_false hj)), fun hj => ⟨_, congrArg _ (if_pos hj), hp⟩⟩

/-- The decoder of an engine of a tile (R50). -/
theorem decodeFor_eq (t : Nat) (e : Eng) (w : Nat) : decodeFor t e w = match e, Config.dieClass (t / 256) with
    | .ve, _ => decodeVe w
    | .xe, 1 => decodeMe w
    | .xe, 2 => decodeSe w
    | .xe, 4 => decodeOe w
    | .xe, _ => .illegalMicroOrder (BitVec.ofNat 32 w) := by
  cases e with
  | ve => rfl
  | xe =>
    unfold decodeFor dieOf
    dsimp only
    split <;> simp_all

/-- Settles O56: a turn of each kind is taken apart by its own lemma. -/
theorem stepRunsDecodedInstruction : Obligations.StepRunsDecodedInstruction := by
  intro s f
  refine ⟨fun hf => ?_, fun t rest h => step_of_seqLate h, fun t e n rest h => step_of_engPart h, fun rest beats ticks => ⟨?_, ?_⟩,
    fun t e rest h => ⟨fun g hg => step_of_engFirst h hg, fun hn => ?_⟩, fun i t e a rest h hi hw => step_of_event h (eventRow_of_event hi hw)⟩
  · intro x a stops
    have hstep := step_of_sequencerTurn hf
    refine ⟨fun hr => ?_, fun hr hs => ?_, fun hr hs hd => ?_, fun hr hs hd => ⟨fun hp => ?_, fun ha hb => ?_⟩⟩
    · rw [hstep, State.seqTurn_of_not_seqRuns hr]; rfl
    · rw [hstep, State.seqTurn_of_stop hr hs]; rfl
    · rw [hstep, State.seqTurn_of_deliverable hr hs hd]
      exact congrArg Host.Outcome.next (if_pos hd).symm
    · have hp' : ¬ pcOk (f.tile f.cur).pc = true := fun h =>
        have ⟨h4, h55⟩ := (pcOk_iff _).1 h
        hp.elim (· h4) (Nat.not_le.2 h55)
      rw [hstep, State.seqTurn_of_fetches hr hs hd, if_pos (by simp [hp'])]; rfl
    · have hok : pcOk (f.tile f.cur).pc = true := (pcOk_iff _).2 ⟨ha, hb⟩
      refine ⟨fun w hc => ?_, fun k pte large hc hw => ⟨fun hk => ?_, fun hk => ?_⟩, fun why hc hw => ?_⟩
      · exact runsWord_of_fetchWord hf hr hs hd hok (State.fetchWord_of_cached hc) rfl
      · exact runsWord_of_fetchWord hf hr hs hd hok (State.fetchWord_of_fits hc hw hk) rfl
      · obtain ⟨w, e⟩ := State.fetchWord_of_misfit hc hw hk
        exact ⟨w, runsWord_of_fetchWord hf hr hs hd hok e rfl⟩
      · rw [hstep, State.seqTurn_of_fetches hr hs hd, if_neg (by simp [hok]), State.fetchWord_of_bad hc hw]; rfl
  · exact fun n h hb => step_of_time_counts h hb
  · rintro k n h rfl hb
    exact step_of_beats_counts h hb
  · refine ⟨fun hr => step_of_engTurn h hn (State.engTurn_of_idle hr), ?_⟩
    intro r hr he hh decoder off own w due
    have hdec : decoder = decodeFor t e := (funext (decodeFor_eq t e)).symm
    have hdue : due = State.dueBeat { s with agenda := rest, cur := t, eng := e } r (decodeFor t e (s.stepWord t r r.step)) :=
      congrArg (fun d => State.dueBeat { s with agenda := rest, cur := t, eng := e } r (d (s.stepWord t r r.step))) hdec
    refine ⟨fun hs => step_of_engTurn h hn (State.engTurn_of_skips hr he hh hs), fun hs => ⟨fun b hb hne => ?_, fun hd => ?_⟩⟩
    · exact step_of_engTurn h hn (State.engTurn_of_early hr he hh hs (hdue.symm.trans hb) hne)
    · have hturn := State.engTurn_of_due (f := { s with agenda := rest, cur := t, eng := e }) hr he hh hs fun b hb => hd b (hdue.trans hb)
      refine ⟨fun ho => ?_, fun ho hl => ?_, fun ho hl => ?_⟩
      · exact step_of_engTurn h hn (hturn.trans (if_pos ho))
      · refine (step_of_engTurn h hn (hturn.trans ((if_neg (Nat.not_lt.2 ho)).trans (if_pos hl)))).trans ?_
        cases hst : r.entry.stamp with
        | none => rfl
        | some b => rw [Nat.mul_comm 64]; rfl
      · rw [hdec]
        exact step_of_engTurn h hn (hturn.trans ((if_neg (Nat.not_lt.2 ho)).trans (if_neg (ne_true_of_eq_false hl))))

end Sys2Proof.Machine
end

