-- ==== Sys2Proof/Proofs/Packets.lean ====
section
/-! A state that the clear of a scratchpad takes apart as no hypothesis of O45 excludes (R14). -/

namespace Sys2Proof.Machine

/-- A package at power-on, with tile 1 in focus, whose descriptor table lists the first line of that tile's slice before line 0: the
memory is in its canonical form, and nothing asks the same of the descriptors. -/
def unsortedDescs : State := { State.reset with cur := 1, desc := [(16384, 1), (0, 1)] }

/-- Line 0 of the package is read as without a descriptor, since a lower key is not looked for behind a higher one. -/
theorem descAt_unsortedDescs : FMap.getD 0 unsortedDescs.desc 0 = 0 := rfl

/-- The clear of tile 1's slice drops the entry in front of it, and line 0, which is no line of the slice, has its descriptor. -/
theorem exec_scratchpadClear_unsortedDescs :
    ∃ t, exec .scratchpadClear unsortedDescs = .next t ∧ FMap.getD 0 t.desc 0 = 1 := ⟨_, rfl, rfl⟩

/-- Refutes O45: its clause on the scratchpad clear says of every line outside the slice that its descriptor stands, and its hypotheses
require no order of the descriptor table, without which the clear of one entry can bring out another. -/
theorem not_packets : ¬ Obligations.Packets := by
  intro h
  obtain ⟨-, -, -, -, -, -, hclear⟩ := h unsortedDescs rfl
  obtain ⟨t, ht, -, hdesc, -⟩ := hclear rfl (by decide) rfl
  obtain ⟨u, hu, h1⟩ := exec_scratchpadClear_unsortedDescs
  obtain rfl : t = u := Host.Outcome.next.inj (ht.symm.trans hu)
  have outside : ¬ (nearKey 1 0 ≤ 64 * 0 ∧ 64 * 0 < nearKey 1 0 + 0xC0000) := by decide
  exact absurd (h1.symm.trans (((hdesc 0).trans (if_neg outside)).trans descAt_unsortedDescs)) (by decide)

end Sys2Proof.Machine
end

