-- ==== Sys2Proof/Proofs/Release.lean ====
section
/-! What the release of held nodes (R133, R134) leaves alone. -/

namespace Sys2Proof.Machine

/-! ### What the release of held nodes leaves alone -/

/-- A node but for the shadows that its attempt has written. -/
def Node.unwritten (x : Node) : Node := { x with wrote := [] }

/-- Entry `j`, other than `n`, stands held in `b`. -/
def State.heldBeside (b : State) (n j : Nat) : Prop := j ≠ n ∧ ∃ x, b.node? j = some x ∧ x.st = .held

/-- `s` is `b` after the release of held nodes other than `n`: no tile, reserve entry or virtual tile is touched, and no other node but
for the shadows that it has written. It speaks of these fields only, as State.Good does of its own. -/
def State.Beside (n : Nat) (b s : State) : Prop :=
  s.tiles = b.tiles ∧ s.reserve = b.reserve ∧ (∀ c, (s.ctxAt c).tmap = (b.ctxAt c).tmap)
    ∧ ∀ j, ¬ b.heldBeside n j → (s.node? j).map Node.unwritten = (b.node? j).map Node.unwritten

section
variable {n : Nat} {b s : State}

theorem State.Beside.refl (n : Nat) (b : State) : b.Beside n b := ⟨rfl, rfl, fun _ => rfl, fun _ _ => rfl⟩

theorem State.Beside.ite {c : Prop} [Decidable c] {t : State} (hs : b.Beside n s) (ht : b.Beside n t) : b.Beside n (if c then s else t) := by
  split
  · exact hs
  · exact ht

theorem State.Beside.foldl {α : Type} {l : List α} {f : State → α → State} (h : b.Beside n s)
    (hf : ∀ {s a}, b.Beside n s → b.Beside n (f s a)) : b.Beside n (l.foldl f s) := by
  induction l generalizing s with
  | nil => exact h
  | cons a t ih => exact ih (hf h)

theorem State.Beside.modCtx {c : Nat} {f : Ctx → Ctx} (h : b.Beside n s) (hf : ∀ x, (f x).tmap = x.tmap) : b.Beside n (s.modCtx c f) := by
  obtain ⟨ht, hr, hm, hn⟩ := h
  refine ⟨ht, hr, fun d => ?_, hn⟩
  refine Eq.trans ?_ (hm d)
  by_cases hd : d = c
  · subst hd; rw [State.modCtx, State.ctxAt_setCtx_same]; exact hf _
  · rw [State.modCtx, State.ctxAt_setCtx_ne _ _ hd]
theorem State.Beside.freeFrames {c : Nat} {l : List Nat} (h : b.Beside n s) : b.Beside n (s.freeFrames c l) := h.modCtx fun _ => rfl
theorem State.Beside.setBuf {a : Nat} {x : Buf} (h : b.Beside n s) : b.Beside n (s.setBuf a x) := h
theorem State.Beside.modBuf {a : Nat} {f : Buf → Buf} (h : b.Beside n s) : b.Beside n (s.modBuf a f) := h
theorem State.Beside.discardShadows {a : Nat} (h : b.Beside n s) : b.Beside n (s.discardShadows a) := .setBuf h.freeFrames
theorem State.Beside.store {k m v : Nat} (h : b.Beside n s) : b.Beside n (s.store k m v) := h
theorem State.Beside.storeWords {k : Nat} {l : List Nat} (h : b.Beside n s) : b.Beside n (s.storeWords k l) := by
  induction l generalizing s k with
  | nil => exact h
  | cons a t ih => exact ih (.store h)
theorem State.Beside.post {c code cause x y : Nat} (h : b.Beside n s) : b.Beside n (s.post c code cause x y) := by
  unfold State.post
  exact .ite (.modCtx h.storeWords fun _ => rfl) (h.modCtx fun _ => rfl)
theorem State.Beside.sendSpan {p : Nat} {q : SpanReq} (h : b.Beside n s) : b.Beside n (s.sendSpan p q) := h
theorem State.Beside.invalidate {c lo m : Nat} (h : b.Beside n s) : b.Beside n (s.invalidate c lo m) := h
theorem State.Beside.unmapPages {c vpn m : Nat} (h : b.Beside n s) : b.Beside n (s.unmapPages c vpn m) := by
  induction m generalizing s vpn with
  | zero => exact h
  | succ m ih => exact ih (by split; exacts [.ite (.store (.ite h.freeFrames h)) h, h])
theorem State.Beside.releaseFrame {c : Nat} {o : OldLeaf} (h : b.Beside n s) : b.Beside n (s.releaseFrame c o) := by
  unfold State.releaseFrame
  exact .ite h.freeFrames h.post
theorem State.Beside.releaseUnread {a : Nat} {views : List Nat} (h : b.Beside n s) : b.Beside n (s.releaseUnread a views) :=
  .foldl (.setBuf h) fun h => h.releaseFrame
theorem State.Beside.leavePool {c vpn m : Nat} (h : b.Beside n s) : b.Beside n (s.leavePool c vpn m) := by
  induction m generalizing s vpn with
  | zero => exact h
  | succ m ih => exact ih (by split; exacts [.ite (h.modCtx fun _ => rfl) h, h])
theorem State.Beside.forgetWrites {a : Nat} (h : b.Beside n s) : b.Beside n (s.forgetWrites a) := by
  obtain ⟨ht, hr, hm, hn⟩ := h
  refine ⟨ht, hr, hm, fun j hj => Eq.trans ?_ (hn j hj)⟩
  unfold State.node? State.forgetWrites
  dsimp only
  rw [FMap.get?_map _ _ fun _ => by rfl, Option.map_map]
  rfl
theorem State.Beside.settle {a : Nat} (h : b.Beside n s) : b.Beside n (s.settle a) := by
  unfold State.settle
  have h1 : b.Beside n (((s.discardShadows a).forgetWrites a).releaseUnread a (s.outerViews a)) := h.discardShadows.forgetWrites.releaseUnread
  refine .ite h (.ite (.modBuf ?_) (.ite h h.discardShadows.forgetWrites))
  split
  · exact h1.sendSpan
  · exact .ite h1.unmapPages.invalidate h1.leavePool.post
theorem State.Beside.dropRef {a : Nat} (h : b.Beside n s) : b.Beside n (s.dropRef a) := .settle h.modBuf
theorem State.Beside.dropRefs {l : List Word} (h : b.Beside n s) : b.Beside n (s.dropRefs l) := by
  induction l generalizing s with
  | nil => exact h
  | cons a t ih => exact ih (.ite h h.dropRef)

theorem State.Beside.modNode {j : Nat} {f : Node → Node} (h : b.Beside n s) (hj : b.heldBeside n j) : b.Beside n (s.modNode j f) := by
  obtain ⟨ht, hr, hm, hn⟩ := h
  unfold State.modNode
  split
  · refine ⟨ht, hr, hm, fun i hi => (congrArg _ ?_).trans (hn i hi)⟩
    exact FMap.get?_set_ne _ _ fun e => hi (e ▸ hj)
  · exact ⟨ht, hr, hm, hn⟩
theorem State.Beside.endNode {j code : Nat} (h : b.Beside n s) (hj : b.heldBeside n j) : b.Beside n (s.endNode j code) := by
  unfold State.endNode
  split
  · exact h
  · exact .dropRefs (h.modNode hj)
theorem State.Beside.toBank {j : Nat} (h : b.Beside n s) (hj : b.heldBeside n j) : b.Beside n (s.toBank j) := h.modNode hj
theorem State.Beside.makeReady {j : Nat} (h : b.Beside n s) (hj : b.heldBeside n j) : b.Beside n (s.makeReady j) := by
  unfold State.makeReady
  split
  · exact h
  · split
    · exact h.endNode hj
    · exact .toBank (.modNode h hj) hj
theorem State.Beside.proceed {j : Nat} (h : b.Beside n s) (hj : b.heldBeside n j) : b.Beside n (s.proceed j) := by
  unfold State.proceed
  split
  · exact h
  · exact .ite h (.ite (h.modNode hj) (.ite (h.modNode hj) (h.makeReady hj)))

/-- A node that stands held now, other than `n`, stood held from the start: only such nodes have been touched. -/
theorem State.Beside.heldBeside {j : Nat} {x : Node} (h : b.Beside n s) (hx : s.node? j = some x) (hs : x.st = .held) (hj : j ≠ n) :
    b.heldBeside n j := by
  by_contra hn
  have e := h.2.2.2 j hn
  rw [hx] at e
  obtain ⟨y, hy, hxy⟩ := Option.map_eq_some_iff.1 e.symm
  exact hn ⟨hj, y, hy, (congrArg Node.st hxy).trans hs⟩

theorem State.Beside.releaseAll {l : List Nat} (h : b.Beside n s) (hl : ∀ j ∈ l, j ≠ n) : b.Beside n (s.releaseAll l) := by
  induction l generalizing s with
  | nil => exact h
  | cons j l ih =>
    refine ih ?_ fun i hi => hl i (List.mem_cons_of_mem _ hi)
    unfold State.release
    split
    · next x hx =>
      split
      · next hs => exact h.proceed (h.heldBeside hx hs (hl j List.mem_cons_self))
      · exact h
    · exact h

end

/-- The ring of a dispatched node goes on (R133, R134): it releases held nodes other than that one. -/
theorem State.beside_ringNext (s : State) (n : Nat) (r : Bool) : s.Beside n (s.ringNext n r) := by
  have h := State.Beside.refl n s
  unfold State.ringNext
  split
  · exact h
  · split
    · split
      · exact h
      · refine State.Beside.releaseAll h fun j hj => ?_
        have hf := (List.mem_filter.1 (List.mem_of_mem_take hj)).2
        exact of_decide_eq_true hf
    · exact h

/-- A node of no ring has none to go on. -/
theorem State.ringNext_eq {s : State} {n : Nat} {x : Node} {r : Bool} (hx : s.node? n = some x) (hs : ∀ q j, x.source ≠ .ring q j) :
    s.ringNext n r = s := by
  unfold State.ringNext
  rw [hx]
  dsimp only
  split
  · next q j e => exact absurd e (hs q j)
  · rfl

end Sys2Proof.Machine
end

