-- ==== Sys2Proof/Proofs/Pops.lean ====
section
/-! The node that a pop takes, and the tiles that it may not give away (R139, R140). -/

namespace Sys2Proof.Machine

/-! ### The node that a pop takes (R139, R140) -/

theorem keyLt_irrefl : ∀ a : List Nat, keyLt a a = false
  | [] => rfl
  | a :: l => by simp [keyLt, keyLt_irrefl l]

theorem keyLt_asymm : ∀ {a b : List Nat}, keyLt a b = true → keyLt b a = false
  | _, [], h => by simp [keyLt] at h
  | [], _ :: _, _ => rfl
  | a :: l, b :: m, h => by
    simp only [keyLt, Bool.or_eq_true, Bool.and_eq_true, decide_eq_true_eq] at h
    rcases h with h | ⟨rfl, h⟩
    · simp [keyLt, Nat.not_lt.2 h.le, h.ne']
    · simp [keyLt, keyLt_asymm h]

theorem mem_of_bestOf {p : Nat × Node} : ∀ {l : List (Nat × Node)}, bestOf l = some p → p ∈ l
  | [], h => nomatch h
  | q :: t, h => by
    unfold bestOf at h
    split at h
    · next m hm =>
      split at h
      · exact List.mem_cons_of_mem _ (mem_of_bestOf (hm.trans h))
      · exact Option.some.inj h ▸ List.mem_cons_self
    · exact Option.some.inj h ▸ List.mem_cons_self

/-- The one whose key is less than every other's. -/
theorem bestOf_eq {p : Nat × Node} : ∀ {l : List (Nat × Node)}, p ∈ l → (∀ q ∈ l, q = p ∨ keyLt p.2.key q.2.key = true) → bestOf l = some p
  | q :: t, hp, hl => by
    have ht : ∀ r ∈ t, r = p ∨ keyLt p.2.key r.2.key = true := fun r hr => hl r (List.mem_cons_of_mem _ hr)
    unfold bestOf
    by_cases hpt : p ∈ t
    · rw [bestOf_eq hpt ht]
      rcases hl q List.mem_cons_self with rfl | hq
      · simp [keyLt_irrefl]
      · exact if_pos hq
    · obtain rfl : p = q := (List.mem_cons.1 hp).resolve_right hpt
      split
      · next m hm =>
        rcases ht m (mem_of_bestOf hm) with rfl | hlt
        · exact ite_self _
        · exact if_neg (ne_true_of_eq_false (keyLt_asymm hlt))
      · rfl

/-- What a choice down a list, of each element or of the one chosen before, comes to. -/
theorem mem_of_foldl_choice {α : Type} {f : Option α → α → Option α} (hf : ∀ o a, f o a = some a ∨ f o a = o) {p : α} {l : List α}
    {o : Option α} (h : l.foldl f o = some p) : o = some p ∨ p ∈ l := by
  induction l generalizing o with
  | nil => exact .inl h
  | cons a t ih =>
    rcases ih h with e | hp
    · rcases hf o a with ha | ha
      · exact .inr (Option.some.inj (e.symm.trans ha) ▸ List.mem_cons_self)
      · exact .inl (ha.symm.trans e)
    · exact .inr (List.mem_cons_of_mem _ hp)

theorem State.poppable_of_laneHead {s : State} {k n : Nat} {x : Node} (h : s.laneHead k = some (n, x)) : s.poppable x = true := by
  have hm := (mem_of_foldl_choice (fun o a => by split; exacts [ite_eq_or_eq .., .inl rfl]) h).resolve_left nofun
  have hp := (List.mem_filter.1 hm).2
  simp only [Bool.and_eq_true] at hp
  exact hp.1.1

theorem State.poppable_of_bankHead {s : State} {k b n : Nat} {x : Node} (h : s.bankHead k b = some (n, x)) : s.poppable x = true := by
  have hp := (List.mem_filter.1 (mem_of_bestOf h)).2
  simp only [Bool.and_eq_true] at hp
  exact hp.1

theorem State.outcome_of_poppable {s : State} {x : Node} (h : s.poppable x = true) : x.outcome = none := by
  simp only [State.poppable, Bool.and_eq_true, Option.isNone_iff_eq_none] at h
  exact h.1.1.1.2

/-- The heads of a list that no place is found for are none of the placeable ones. -/
theorem State.placeable_cons_of_unplaced {s : State} {k start : Nat} {o : Option (Nat × Node)} {l : List (Option (Nat × Node))}
    (h : ∀ m y, o = some (m, y) → s.place m y k start = none) : s.placeable k start (o :: l) = s.placeable k start l := by
  cases o with
  | none => rfl
  | some p => simp [State.placeable, h p.1 p.2 rfl]

theorem State.mem_placeable {s : State} {k start : Nat} {l : List (Option (Nat × Node))} {p : Nat × Node} :
    p ∈ s.placeable k start l ↔ some p ∈ l ∧ (s.place p.1 p.2 k start).isSome = true := by
  simp [State.placeable]

theorem State.sample_of_lane {s : State} {k start n : Nat} {x : Node} {g : List Nat} {v : Nat} (hp : s.place n x k start = some (g, v))
    (h : s.laneHead k = some (n, x) ∨ (∀ m y, s.laneHead k = some (m, y) → s.place m y k start = none) ∧ s.laneHead 0 = some (n, x)) :
    s.sample k start = (s, some (n, x)) := by
  have e : ∃ l, s.placeable k start [s.laneHead k, s.laneHead 0] = (n, x) :: l := by
    rcases h with h | ⟨hk, h⟩
    · rw [h]; exact ⟨_, by simp [State.placeable, hp]; rfl⟩
    · rw [State.placeable_cons_of_unplaced hk, h]; exact ⟨[], by simp [State.placeable, hp]⟩
  obtain ⟨l, e⟩ := e
  unfold State.sample
  rw [e]

theorem State.sample_of_banks {s : State} {k start : Nat} {p : Nat × Node}
    (hk : ∀ m y, s.laneHead k = some (m, y) → s.place m y k start = none) (h0 : ∀ m y, s.laneHead 0 = some (m, y) → s.place m y k start = none)
    (h : bestOf (s.placeable k start [s.bankHead k (sampled s.lfsr).1, s.bankHead k (sampled s.lfsr).2.1,
      s.bankHead 0 (sampled s.lfsr).2.2.1, s.bankHead 0 (sampled s.lfsr).2.2.2]) = some p) :
    s.sample k start = ({ s with lfsr := lfsrStep s.lfsr }, some p) := by
  unfold State.sample
  rw [State.placeable_cons_of_unplaced hk, State.placeable_cons_of_unplaced h0]
  exact Prod.ext rfl h

theorem State.pop_of_sample {s s1 : State} {k start n : Nat} {x y : Node} {g : List Nat} {v : Nat} (fuel : Nat)
    (hs : s.sample k start = (s1, some (n, x))) (he : s1.expired x = false) (hp : s1.place n x k start = some (g, v))
    (hy : (s1.giveGroup n x g v).node? n = some y) (ho : y.outcome = none) (hr : y.st = .run) :
    s.pop k start (fuel + 1) = (s1.giveGroup n x g v).passOver s1 n k := by
  unfold State.pop
  simp only [hs, he, hp, hy, ho, hr, Option.bind_some, Option.map_some, Bool.false_eq_true, if_false, if_true]

/-! ### The group (R140) -/

theorem State.mem_of_fewestBusy {s : State} {r : List Nat} : ∀ {l : List (List Nat)}, s.fewestBusy l = some r → r ∈ l
  | [], h => nomatch h
  | g :: t, h => by
    unfold State.fewestBusy at h
    split at h
    · next m hm =>
      split at h
      · exact List.mem_cons_of_mem _ (State.mem_of_fewestBusy (hm.trans h))
      · exact Option.some.inj h ▸ List.mem_cons_self
    · exact Option.some.inj h ▸ List.mem_cons_self

/-- The first of those with the fewest busy tiles. -/
theorem State.fewestBusy_eq {s : State} {r : List Nat} : ∀ {l : List (List Nat)} {i : Nat}, l[i]? = some r →
    (∀ (j : Nat) (h : List Nat), l[j]? = some h → s.busyIn r < s.busyIn h ∨ s.busyIn r = s.busyIn h ∧ i ≤ j) → s.fewestBusy l = some r
  | g :: t, 0, hr, hl => by
    obtain rfl : g = r := Option.some.inj hr
    unfold State.fewestBusy
    split
    · next m hm =>
      obtain ⟨j, hj⟩ := List.mem_iff_getElem?.1 (State.mem_of_fewestBusy hm)
      exact if_neg (by have := hl (j + 1) m hj; omega)
    · rfl
  | g :: t, i + 1, hr, hl => by
    have ih : s.fewestBusy t = some r := State.fewestBusy_eq (i := i) hr fun j h hj => by have := hl (j + 1) h hj; omega
    unfold State.fewestBusy
    rw [ih]
    exact if_pos (by have := hl 0 g rfl; omega)

/-- A group that is found for a node is none of the tiles reserved for others. -/
theorem State.not_mem_reserved_of_place {s : State} {n k start : Nat} {x : Node} {g : List Nat} {v t : Nat}
    (h : s.place n x k start = some (g, v)) (ht : t ∈ g) : t ∉ s.reserved n := by
  unfold State.place State.placeIn at h
  split at h
  · next l hl =>
    obtain ⟨w, -, e⟩ := Option.map_eq_some_iff.1 h
    obtain rfl : l = g := congrArg Prod.fst e
    have hf := List.find?_some hl
    simp only [Bool.and_eq_true, List.all_eq_true] at hf
    simpa using hf.2 t ht
  · cases h

/-- The group that is reserved for a lane head that cannot be placed. -/
theorem State.mem_reserved {s : State} {n j m i t : Nat} {y : Node} {r : List Nat} (hj : j < 5) (hy : s.laneHead j = some (m, y)) (hm : m ≠ n)
    (hp : s.placeIn y j 0 [] = none)
    (hr : ((s.groupsFor j (recWidth y.rec_)).filter (fun h => !h.isEmpty && h.all s.formable))[i]? = some r)
    (hl : ∀ (i' : Nat) (h : List Nat), ((s.groupsFor j (recWidth y.rec_)).filter (fun h => !h.isEmpty && h.all s.formable))[i']? = some h →
      s.busyIn r < s.busyIn h ∨ s.busyIn r = s.busyIn h ∧ i ≤ i') (ht : t ∈ r) : t ∈ s.reserved n := by
  refine List.mem_flatMap.2 ⟨j, List.mem_range.2 hj, ?_⟩
  rw [hy]
  dsimp only
  rw [if_neg (by simp [hm, hp]), State.fewestBusy_eq hr hl]
  exact ht

end Sys2Proof.Machine
end

