-- ==== Sys2Proof/Proofs/Members.lean ====
section
/-! The members of a gang: the clear of a slice, the dispatch page, the registers (R14, R40, R142, R330). -/

namespace Sys2Proof.Machine

/-! ### Bytes of words -/

theorem leBytes_eq_map (v n : Nat) : leBytes v n = (List.range n).map fun i => BitVec.ofNat 8 (v / 256 ^ i) := by
  refine List.ext_getElem (by simp) fun i h1 h2 => ?_
  have hi : i < n := by simpa using h1
  have e := leBytes_getD i v n hi
  rw [List.getD_eq_getElem _ _ h1] at e
  simpa using e

theorem leNat_leBytes : ∀ (n v : Nat), leNat (leBytes v n) = v % 256 ^ n
  | 0, v => by simp [leBytes, leNat, Nat.mod_one]
  | n + 1, v => by
    have e : v % 256 ^ (n + 1) = v % 256 + 256 * (v / 256 % 256 ^ n) := by rw [Nat.pow_succ', Nat.mod_mul]
    rw [leBytes, leNat, leNat_leBytes n (v / 256), e]
    rfl

/-- The bytes of a list of words of 64 bits. -/
def wordBytes (l : List Word) : List Byte := l.flatMap fun w => leBytes w.toNat 8

theorem length_wordBytes (l : List Word) : (wordBytes l).length = 8 * l.length := by
  induction l with
  | nil => rfl
  | cons w l ih => simp [wordBytes, Nat.mul_add] at ih ⊢; omega

theorem wordBytes_getD : ∀ {l : List Word} {i j : Nat}, i < l.length → j < 8 →
    (wordBytes l).getD (8 * i + j) 0 = BitVec.ofNat 8 ((l.getD i 0).toNat / 256 ^ j)
  | w :: l, 0, j, _, hj => by
    have e : (wordBytes (w :: l)).getD j 0 = (leBytes w.toNat 8).getD j 0 := List.getD_append _ _ _ _ (by simpa using hj)
    rw [Nat.mul_zero, Nat.zero_add, e, leBytes_getD j _ 8 hj]
    rfl
  | w :: l, i + 1, j, hi, hj => by
    have e : (wordBytes (w :: l)).getD (8 * (i + 1) + j) 0 = (wordBytes l).getD (8 * (i + 1) + j - 8) 0 := by
      refine (List.getD_append_right _ _ _ _ ?_).trans ?_
      · simp; omega
      · rw [leBytes_length]; rfl
    rw [e, show 8 * (i + 1) + j - 8 = 8 * i + j by omega, wordBytes_getD (by simpa using hi) hj]
    simp

/-! ### Memory and windows -/

theorem Mem.get_clearMem {s : State} (h : s.memOk) (k n j : Nat) :
    Mem.get (s.clearMem k n).mem j = if k ≤ j ∧ j < k + n then 0 else Mem.get s.mem j := by
  have e : Mem.get (s.clearMem k n).mem j = (if decide (j < k ∨ k + n ≤ j) then FMap.get? s.mem j else none).getD 0 :=
    congrArg (Option.getD · 0) (Mem.get?_filter (fun i => decide (i < k ∨ k + n ≤ i)) j h)
  rw [e]
  by_cases hj : k ≤ j ∧ j < k + n
  · rw [if_pos hj, if_neg (by simp; omega)]; rfl
  · rw [if_neg hj, if_pos (by simp; omega)]; rfl

theorem State.addRefs_eq (e : Nat) (l : List Word) : ∀ s : State, ∃ b, s.addRefs e l = { s with bufs := b } := by
  induction l with
  | nil => exact fun s => ⟨s.bufs, rfl⟩
  | cons h t ih => exact fun s => ih (s.modBuf (accOf h) fun b => { b with count := b.count + e })

end Sys2Proof.Machine

namespace Sys2Proof

/-- A table into which a list of entries is written, at a key for which they all give one value. -/
theorem FMap.get?_foldl_set {α β : Type} {f : β → α} {m : FMap α} {k : Nat} {w : β} {l : List (Nat × β)} (hk : (k, w) ∈ l)
    (hu : ∀ a ∈ l, a.1 = k → a.2 = w) : FMap.get? (l.foldl (fun m a => FMap.set m a.1 (f a.2)) m) k = some (f w) := by
  induction l using List.reverseRecOn with
  | nil => cases hk
  | append_singleton l a ih =>
    rw [List.foldl_append]
    by_cases h : a.1 = k
    · have e : a.2 = w := hu a (by simp) h
      subst h e
      exact FMap.get?_set_same ..
    · refine (FMap.get?_set_ne _ _ fun e => h e.symm).trans (ih ?_ fun b hb => hu b (by simp [hb]))
      rcases List.mem_append.1 hk with hl | hl
      · exact hl
      · exact absurd (congrArg Prod.fst (List.mem_singleton.1 hl)).symm h

end Sys2Proof

namespace Sys2Proof.Machine

/-! ### The members of a gang (R14, R40, R142) -/

theorem Node.length_page {x : Node} (h : x.rec_.length = 8) : x.page.length = 8 := by
  unfold Node.page
  split <;> simp [h]

/-- Place the members of a list, each with its rank. -/
def State.placeMembers (s : State) (n : Nat) (x : Node) (hs : List Word) (m v : Nat) (l : List (Nat × Nat)) : State :=
  l.foldl (fun s q => s.placeMember n x hs q.2 q.1 m (v + q.1)) s

/-- The byte at an offset of tile `u`'s window once a member of node `x` is placed there: of the dispatch page, of what the window held
of the same context, or cleared. -/
def State.placedByte (s : State) (x : Node) (u off : Nat) : Byte :=
  if off < 64 then (wordBytes x.page).getD off 0
  else if (s.tile u).lastCtx = some x.ctx ∨ Config.scratchEnd ≤ off then Mem.get s.mem (nearKey u off)
  else 0

section
variable {s : State} {n m v r t : Nat} {x : Node} {hs : List Word}

theorem State.newMember_congr {s' : State} (ht : s'.tile t = s.tile t) (hc : s'.ctxs = s.ctxs) (hi : s'.igen = s.igen) :
    s'.newMember n x hs t r m v = s.newMember n x hs t r m v := by
  unfold State.newMember State.ctxAt State.nodeId
  rw [ht, hc, hi]

theorem State.placeMember_frame (s : State) (n : Nat) (x : Node) (hs : List Word) (t r m v : Nat) :
    { s.placeMember n x hs t r m v with mem := s.mem, desc := s.desc, tiles := s.tiles } = s := by
  unfold State.placeMember
  split <;> rfl

theorem State.tile_placeMember_same : (s.placeMember n x hs t r m v).tile t = s.newMember n x hs t r m v :=
  State.tile_setTile_same ..

theorem State.tile_placeMember_ne {u : Nat} (h : u ≠ t) : (s.placeMember n x hs t r m v).tile u = s.tile u := by
  refine (State.tile_setTile_ne _ _ h).trans ?_
  split <;> rfl

theorem State.memOk_placeMember (h : s.memOk) : (s.placeMember n x hs t r m v).memOk := by
  refine State.memOk_storeBytes ?_ (nearKey t 0) (wordBytes x.page)
  split
  · exact h
  · exact State.memOk_clearMem h ..

theorem State.get_placeMember (h : s.memOk) (hp : x.page.length = 8) (k : Nat) :
    Mem.get (s.placeMember n x hs t r m v).mem k =
      if nearKey t 0 ≤ k ∧ k < nearKey t 0 + 64 then (wordBytes x.page).getD (k - nearKey t 0) 0
      else if (s.tile t).lastCtx = some x.ctx then Mem.get s.mem k
      else if nearKey t 0 ≤ k ∧ k < nearKey t 0 + Config.scratchEnd then 0 else Mem.get s.mem k := by
  have hl : (wordBytes x.page).length = 64 := by rw [length_wordBytes, hp]
  unfold State.placeMember
  change Mem.get (Mem.store _ (nearKey t 0) (wordBytes x.page)) k = _
  split
  · rw [Mem.get_store h, hl]
  · rw [Mem.get_store (State.memOk_clearMem h ..), hl, Mem.get_clearMem h]

theorem State.get_placeMember_same (h : s.memOk) (hp : x.page.length = 8) {off : Nat} :
    Mem.get (s.placeMember n x hs t r m v).mem (nearKey t off) = s.placedByte x t off := by
  rw [State.get_placeMember h hp]
  unfold State.placedByte
  have e : nearKey t off = nearKey t 0 + off := by simp only [nearKey, Nat.add_zero]
  rw [e, Nat.add_sub_cancel_left]
  by_cases h1 : off < 64
  · rw [if_pos (by omega), if_pos h1]
  · rw [if_neg (by omega), if_neg h1]
    by_cases h2 : (s.tile t).lastCtx = some x.ctx
    · rw [if_pos h2, if_pos (.inl h2)]
    · by_cases h3 : Config.scratchEnd ≤ off
      · rw [if_neg h2, if_neg (by omega), if_pos (.inr h3)]
      · rw [if_neg h2, if_pos (by omega), if_neg (by simp [h2, h3])]

theorem State.get_placeMember_ne (h : s.memOk) (hp : x.page.length = 8) {u off : Nat} (hu : u ≠ t) (ho : off < Config.windowSize) :
    Mem.get (s.placeMember n x hs t r m v).mem (nearKey u off) = Mem.get s.mem (nearKey u off) := by
  have apart : ¬ (nearKey t 0 ≤ nearKey u off ∧ nearKey u off < nearKey t 0 + Config.scratchEnd) := by
    simp only [nearKey, Config.windowSize, Config.scratchEnd] at ho ⊢
    omega
  have e : (64 : Nat) ≤ Config.scratchEnd := by decide
  rw [State.get_placeMember h hp, if_neg (by omega), if_neg apart, ite_self]

theorem State.placeMembers_frame {l : List (Nat × Nat)} :
    { s.placeMembers n x hs m v l with mem := s.mem, desc := s.desc, tiles := s.tiles } = s := by
  induction l generalizing s with
  | nil => rfl
  | cons q l ih =>
    have e := congrArg (fun t : State => { t with mem := s.mem, desc := s.desc, tiles := s.tiles })
      (ih (s := s.placeMember n x hs q.2 q.1 m (v + q.1)))
    exact e.trans (State.placeMember_frame ..)

/-- A tile that no member is placed on, with its window. -/
theorem State.tile_placeMembers_of_notMem {l : List (Nat × Nat)} {u : Nat} (hu : u ∉ l.map (·.2)) :
    (s.placeMembers n x hs m v l).tile u = s.tile u := by
  induction l generalizing s with
  | nil => rfl
  | cons q l ih =>
    obtain ⟨hq, hl⟩ := not_or.1 fun h => hu (List.mem_cons.2 h)
    exact (ih hl).trans (State.tile_placeMember_ne hq)

theorem State.get_placeMembers_of_notMem (h : s.memOk) (hp : x.page.length = 8) {l : List (Nat × Nat)} {u off : Nat}
    (hu : u ∉ l.map (·.2)) (ho : off < Config.windowSize) :
    Mem.get (s.placeMembers n x hs m v l).mem (nearKey u off) = Mem.get s.mem (nearKey u off) := by
  induction l generalizing s with
  | nil => rfl
  | cons q l ih =>
    obtain ⟨hq, hl⟩ := not_or.1 fun h => hu (List.mem_cons.2 h)
    exact (ih (State.memOk_placeMember h) hl).trans (State.get_placeMember_ne h hp hq ho)

/-- A tile that a member is placed on. -/
theorem State.tile_placeMembers_of_mem {l : List (Nat × Nat)} {q : Nat × Nat} (hl : (l.map (·.2)).Nodup) (hq : q ∈ l) :
    (s.placeMembers n x hs m v l).tile q.2 = s.newMember n x hs q.2 q.1 m (v + q.1) := by
  induction l generalizing s with
  | nil => cases hq
  | cons p l ih =>
    obtain ⟨hp, hl⟩ := List.nodup_cons.1 hl
    rcases List.mem_cons.1 hq with rfl | hq
    · exact (State.tile_placeMembers_of_notMem hp).trans State.tile_placeMember_same
    · have hne : q.2 ≠ p.2 := fun e => hp (List.mem_map.2 ⟨q, hq, e⟩)
      have hf := State.placeMember_frame s n x hs p.2 p.1 m (v + p.1)
      exact (ih hl hq).trans (State.newMember_congr (State.tile_placeMember_ne hne) (congrArg State.ctxs hf :)
        (congrArg State.igen hf :))

theorem State.get_placeMembers_of_mem (h : s.memOk) (hp : x.page.length = 8) {l : List (Nat × Nat)} {q : Nat × Nat} {off : Nat}
    (hl : (l.map (·.2)).Nodup) (hq : q ∈ l) (ho : off < Config.windowSize) :
    Mem.get (s.placeMembers n x hs m v l).mem (nearKey q.2 off) = s.placedByte x q.2 off := by
  induction l generalizing s with
  | nil => cases hq
  | cons p l ih =>
    obtain ⟨hn, hl⟩ := List.nodup_cons.1 hl
    rcases List.mem_cons.1 hq with rfl | hq
    · exact (State.get_placeMembers_of_notMem (State.memOk_placeMember h) hp hn ho).trans (State.get_placeMember_same h hp)
    · have hne : q.2 ≠ p.2 := fun e => hn (List.mem_map.2 ⟨q, hq, e⟩)
      refine (ih (State.memOk_placeMember h) hl hq).trans ?_
      unfold State.placedByte
      rw [State.tile_placeMember_ne hne, State.get_placeMember_ne h hp hne ho]

end

/-- The words of the dispatch page, read back. -/
theorem State.load_of_placedByte {s t : State} {x : Node} {u i : Nat} (hp : x.page.length = 8) (hi : i < 8)
    (h : ∀ off, off < Config.windowSize → Mem.get t.mem (nearKey u off) = s.placedByte x u off) :
    t.load (nearKey u (8 * i)) 8 = (x.page.getD i 0).toNat := by
  have e : Mem.bytes t.mem (nearKey u (8 * i)) 8 = leBytes (x.page.getD i 0).toNat 8 := by
    rw [Mem.bytes_eq, leBytes_eq_map]
    refine List.map_congr_left fun j hj => ?_
    have hj := List.mem_range.1 hj
    have hw : 64 ≤ Config.windowSize := by decide
    rw [show nearKey u (8 * i) + j = nearKey u (8 * i + j) from Nat.add_assoc .., h _ (by omega), State.placedByte,
      if_pos (by omega), wordBytes_getD (by omega) hj]
  unfold State.load
  rw [e, leNat_leBytes]
  exact Nat.mod_eq_of_lt (x.page.getD i 0).isLt

end Sys2Proof.Machine
end

