-- ==== Sys2Proof/Proofs/Dispatch.lean ====
section
/-! The dispatch of a node by a pop (R139 to R144, R356): O49. -/

namespace Sys2Proof.Machine

/-! ### The dispatch of a node (R142 to R144, R265) -/

/-- Node `x` once it runs on group `g`, with virtual block `v` and the handles `hs`. -/
def State.startNode (s : State) (x : Node) (hs : List Word) (g : List Nat) (v : Nat) : Node :=
  { x with
    st := .run, gang := g, vfirst := v, vsize := if x.vsize = 0 then blockSize g.length else x.vsize, handles := [], lane := none
    snapshot := if recRstr x.rec_ then some hs else none
    res := false, lastAot := s.aot, ran := 0, limit := ((s.ctxAt x.ctx).scdReg 0x028).toNat % 2 ^ 40 }

/-- The members of a dispatch, once its references are taken: all that a dispatch changes in the tiles and the memory. -/
def State.gangPlaced (s : State) (n : Nat) (x : Node) (hs : List Word) (extra snap : Nat) (g : List Nat) (v : Nat) : State :=
  ((s.addRefs extra hs).addRefs snap (oneEach hs)).placeMembers n x hs g.length v (g.mapIdx fun i t => (i, t))

/-- A dispatch whose references fit, but for what the node's ring does then. -/
def State.started (s : State) (n : Nat) (x : Node) (hs : List Word) (extra snap : Nat) (g : List Nat) (v : Nat) : State :=
  let p := s.gangPlaced n x hs extra snap g v
  { (p.mapGang x v g) with
    nodes := FMap.set s.nodes n (s.startNode x hs g v), reserve := if x.res then s.reserve + 1 else s.reserve }

theorem mem_mapIdx_of_lt {β : Type} {g : List Nat} {f : Nat → Nat → β} {r : Nat} (hr : r < g.length) : f r (g.getD r 0) ∈ g.mapIdx f := by
  rw [List.getD_eq_getElem _ _ hr]
  exact List.mem_mapIdx.2 ⟨r, hr, rfl⟩

theorem map_snd_mapIdx_pair (g : List Nat) : (g.mapIdx fun i t => (i, t)).map (·.2) = g :=
  List.ext_getElem (by simp) (by simp)

section
variable {s : State} {n extra snap v : Nat} {x : Node} {hs : List Word} {g : List Nat}

theorem State.addRefs_addRefs_eq (s : State) (e e' : Nat) (l l' : List Word) : ∃ b, (s.addRefs e l).addRefs e' l' = { s with bufs := b } := by
  obtain ⟨b, hb⟩ := State.addRefs_eq e l s
  obtain ⟨c, hc⟩ := State.addRefs_eq e' l' (s.addRefs e l)
  exact ⟨c, hc.trans (by rw [hb])⟩

/-- What stays as it was while the members are placed: all but the memory, the tiles and the references of the buffers. -/
theorem State.gangPlaced_eq : ∃ mem desc tiles bufs,
    s.gangPlaced n x hs extra snap g v = { s with mem := mem, desc := desc, tiles := tiles, bufs := bufs } := by
  obtain ⟨b, hb⟩ := State.addRefs_addRefs_eq s extra snap hs (oneEach hs)
  unfold State.gangPlaced
  rw [hb]
  have h := State.placeMembers_frame (s := { s with bufs := b }) (n := n) (x := x) (hs := hs) (m := g.length) (v := v)
    (l := g.mapIdx fun i t => (i, t))
  generalize State.placeMembers _ n x hs g.length v _ = p at h ⊢
  exact ⟨p.mem, p.desc, p.tiles, b, congrArg (fun t : State => { t with mem := p.mem, desc := p.desc, tiles := p.tiles }) h⟩

theorem State.modNode_eq {f : Node → Node} (hx : s.node? n = some x) : s.modNode n f = { s with nodes := FMap.set s.nodes n (f x) } := by
  unfold State.modNode
  unfold State.node? at hx
  rw [hx]

theorem State.dispatchNew_eq (hx : s.node? n = some x) (hh : hs = if 0 < x.restarts then x.snapshot.getD [] else x.handles)
    (he : extra = if 0 < x.restarts then g.length else g.length - 1) (hn : snap = if x.restarts = 0 ∧ recRstr x.rec_ then 1 else 0)
    (h : s.refsFit hs extra snap = true) : s.dispatchNew n x g v = (s.started n x hs extra snap g v).ringNext n false := by
  have hn' : (if (!decide (0 < x.restarts) && recRstr x.rec_) = true then 1 else 0) = snap := by simp [hn]
  unfold State.dispatchNew
  simp only [decide_eq_true_eq, hn', ← hh, ← he, h]
  rw [if_neg (by decide)]
  refine congrArg (fun t : State => t.ringNext n false) ?_
  obtain ⟨mem, desc, tiles, bufs, hp⟩ := State.gangPlaced_eq (s := s) (n := n) (x := x) (hs := hs) (extra := extra) (snap := snap)
    (g := g) (v := v)
  unfold State.started
  rw [hp]
  unfold State.gangPlaced State.placeMembers at hp
  rw [hp, State.modNode_eq (x := x)]
  · rfl
  · exact hx

theorem State.started_frame : ∃ bufs desc ctxs, s.started n x hs extra snap g v = { s with
    mem := (s.gangPlaced n x hs extra snap g v).mem, tiles := (s.gangPlaced n x hs extra snap g v).tiles, bufs := bufs, desc := desc
    ctxs := ctxs, nodes := FMap.set s.nodes n (s.startNode x hs g v), reserve := if x.res then s.reserve + 1 else s.reserve } := by
  obtain ⟨mem, desc, tiles, bufs, hp⟩ := State.gangPlaced_eq (s := s) (n := n) (x := x) (hs := hs) (extra := extra) (snap := snap)
    (g := g) (v := v)
  unfold State.started
  rw [hp]
  exact ⟨_, _, _, rfl⟩

theorem State.node?_started_same : (s.started n x hs extra snap g v).node? n = some (s.startNode x hs g v) := FMap.get?_set_same ..
theorem State.node?_started_ne {j : Nat} (h : j ≠ n) : (s.started n x hs extra snap g v).node? j = s.node? j := FMap.get?_set_ne _ _ h

theorem State.tmap_started {r : Nat} (hr : r < g.length) :
    FMap.get? ((s.started n x hs extra snap g v).ctxAt x.ctx).tmap (v + r) = some { phys := g.getD r 0 } := by
  have e : (s.started n x hs extra snap g v).ctxAt x.ctx = ((s.gangPlaced n x hs extra snap g v).mapGang x v g).ctxAt x.ctx := rfl
  rw [e, State.mapGang, State.modCtx, State.ctxAt_setCtx_same]
  refine FMap.get?_foldl_set (f := fun u : Nat => ({ phys := u } : VTile)) (mem_mapIdx_of_lt hr) fun a ha h => ?_
  obtain ⟨i, hi, rfl⟩ := List.mem_mapIdx.1 ha
  obtain rfl : i = r := Nat.add_left_cancel h
  exact (List.getD_eq_getElem g 0 hr).symm

theorem State.tile_started_of_notMem {u : Nat} (hu : u ∉ g) : (s.started n x hs extra snap g v).tile u = s.tile u := by
  obtain ⟨b, hb⟩ := State.addRefs_addRefs_eq s extra snap hs (oneEach hs)
  refine Eq.trans (State.tile_placeMembers_of_notMem ?_) (congrArg (fun t : State => t.tile u) hb :)
  rwa [map_snd_mapIdx_pair]

theorem State.tile_started_of_mem {r : Nat} (hg : g.Nodup) (hr : r < g.length) :
    (s.started n x hs extra snap g v).tile (g.getD r 0) = s.newMember n x hs (g.getD r 0) r g.length (v + r) := by
  obtain ⟨b, hb⟩ := State.addRefs_addRefs_eq s extra snap hs (oneEach hs)
  refine Eq.trans (State.tile_placeMembers_of_mem ?_ (mem_mapIdx_of_lt hr)) (congrArg (fun t : State => t.newMember n x hs _ r _ _) hb :)
  rwa [map_snd_mapIdx_pair]

theorem State.get_started_of_mem (h : s.memOk) (hp : x.page.length = 8) {r off : Nat} (hg : g.Nodup) (hr : r < g.length)
    (ho : off < Config.windowSize) :
    Mem.get (s.started n x hs extra snap g v).mem (nearKey (g.getD r 0) off) = s.placedByte x (g.getD r 0) off := by
  obtain ⟨b, hb⟩ := State.addRefs_addRefs_eq s extra snap hs (oneEach hs)
  have hm : ((s.addRefs extra hs).addRefs snap (oneEach hs)).memOk := by rw [hb]; exact h
  have hl : ((g.mapIdx fun i t => (i, t)).map (·.2)).Nodup := by rwa [map_snd_mapIdx_pair]
  have hq : (r, g.getD r 0) ∈ g.mapIdx fun i t => (i, t) := mem_mapIdx_of_lt hr
  have e := State.get_placeMembers_of_mem (n := n) (hs := hs) (m := g.length) (v := v) hm hp hl hq ho
  have e' : ((s.addRefs extra hs).addRefs snap (oneEach hs)).placedByte x (g.getD r 0) off = s.placedByte x (g.getD r 0) off := by
    rw [hb]; rfl
  exact e.trans e'

end

/-! ### The pops that passed over a node (R140) -/

theorem State.node?_passOver (s old : State) (n k m : Nat) : (s.passOver old n k).node? m = (s.node? m).map fun z =>
    match old.node? m with
    | some y => if m ≠ n ∧ (y.cls = k ∨ y.cls = 0) ∧ y.lane = none ∧ old.poppable y then { z with passed := z.passed + 1 } else z
    | none => z := by
  unfold State.node? State.passOver
  dsimp only
  rw [FMap.get?_map _ _ fun a => by split <;> [split <;> rfl; rfl]]
  refine congrArg (fun f => Option.map f _) (funext fun z => ?_)
  unfold State.node?
  cases FMap.get? old.nodes m with
  | none => rfl
  | some y => dsimp only; split <;> rfl

theorem State.node?_passOver_same (s old : State) (n k : Nat) : (s.passOver old n k).node? n = s.node? n := by
  rw [State.node?_passOver]
  cases old.node? n <;> simp

theorem State.node?_passOver_ready {s old : State} {n k m : Nat} {y : Node} (hm : m ≠ n) (hy : old.node? m = some y)
    (hc : y.cls = k ∨ y.cls = 0) (hl : y.lane = none) (hp : old.poppable y = true) :
    (s.passOver old n k).node? m = (s.node? m).map fun z => { z with passed := z.passed + 1 } := by
  rw [State.node?_passOver, hy]
  simp [hm, hc, hl, hp]

/-! ### A pop that dispatches the node it takes -/

/-- Once a node is dispatched by a pop of class `k`, its ring has gone on and the nodes that it was taken before are passed over. -/
def State.dispatched (s : State) (n : Nat) (x : Node) (hs : List Word) (extra snap : Nat) (g : List Nat) (v k : Nat) : State :=
  ((s.started n x hs extra snap g v).ringNext n false).passOver s n k

theorem State.fewestBusy_lfsr (s : State) (w : BitVec 16) : ∀ l, State.fewestBusy { s with lfsr := w } l = s.fewestBusy l
  | [] => rfl
  | g :: l => by
    unfold State.fewestBusy
    rw [State.fewestBusy_lfsr s w l]
    rfl

/-- The sampling bits are no matter to where a node can be placed. -/
theorem State.place_lfsr (s : State) (w : BitVec 16) (n : Nat) (x : Node) (k start : Nat) :
    State.place { s with lfsr := w } n x k start = s.place n x k start := by
  have hr : State.reserved { s with lfsr := w } n = s.reserved n := by
    unfold State.reserved
    simp only [State.fewestBusy_lfsr]
    rfl
  unfold State.place
  rw [hr]
  rfl

section
variable {s : State} {n extra snap v k start : Nat} {x : Node} {hs : List Word} {g : List Nat}

theorem State.reserve_dispatched :
    (s.dispatched n x hs extra snap g v k).reserve = if x.res then s.reserve + 1 else s.reserve := by
  obtain ⟨-, hr, -, -⟩ := State.beside_ringNext (s.started n x hs extra snap g v) n false
  exact hr

theorem State.tile_dispatched (u : Nat) :
    (s.dispatched n x hs extra snap g v k).tile u = (s.started n x hs extra snap g v).tile u := by
  obtain ⟨ht, -, -, -⟩ := State.beside_ringNext (s.started n x hs extra snap g v) n false
  exact congrArg (fun m => FMap.getD {} m u) ht

theorem State.tmap_dispatched (c : Nat) :
    ((s.dispatched n x hs extra snap g v k).ctxAt c).tmap = ((s.started n x hs extra snap g v).ctxAt c).tmap := by
  obtain ⟨-, -, hm, -⟩ := State.beside_ringNext (s.started n x hs extra snap g v) n false
  exact hm c

/-- The node that is dispatched, which its own ring leaves alone but for the shadows that it has written. -/
theorem State.node?_ringNext_started : ∃ y, ((s.started n x hs extra snap g v).ringNext n false).node? n = some y
    ∧ y.unwritten = (s.startNode x hs g v).unwritten := by
  obtain ⟨-, -, -, hn⟩ := State.beside_ringNext (s.started n x hs extra snap g v) n false
  have e := hn n fun h => h.1 rfl
  rw [State.node?_started_same] at e
  exact Option.map_eq_some_iff.1 e

theorem State.node?_dispatched_same : ∃ y, (s.dispatched n x hs extra snap g v k).node? n = some y
    ∧ y.unwritten = (s.startNode x hs g v).unwritten := by
  unfold State.dispatched
  rw [State.node?_passOver_same]
  exact State.node?_ringNext_started

theorem State.not_held_of_poppable {y : Node} (h : s.poppable y = true) : y.st ≠ .held := by
  intro e
  simp [State.poppable, e] at h

/-- A node that stood ready beside the one that is dispatched. -/
theorem State.passed_dispatched {m : Nat} {y : Node} (hm : m ≠ n) (hy : s.node? m = some y) (hc : y.cls = k ∨ y.cls = 0)
    (hl : y.lane = none) (hp : s.poppable y = true) :
    ((s.dispatched n x hs extra snap g v k).node? m).map (·.passed) = some (y.passed + 1) := by
  obtain ⟨-, -, -, hn⟩ := State.beside_ringNext (s.started n x hs extra snap g v) n false
  have hy' : (s.started n x hs extra snap g v).node? m = some y := (State.node?_started_ne hm).trans hy
  have e := hn m fun ⟨_, z, hz, hs⟩ => State.not_held_of_poppable hp (Option.some.inj (hy'.symm.trans hz) ▸ hs)
  rw [hy'] at e
  obtain ⟨z, hz, hzy⟩ := Option.map_eq_some_iff.1 e
  unfold State.dispatched
  rw [State.node?_passOver_ready hm hy hc hl hp, hz]
  have hp' : z.passed = y.passed := (congrArg Node.passed hzy :)
  exact congrArg (fun p => some (p + 1)) hp'

/-- A node of no ring: nothing but what State.started gives changes, the counts of the pops aside. -/
theorem State.dispatched_of_unringed (hx : ∀ r j, x.source ≠ .ring r j) :
    s.dispatched n x hs extra snap g v k = (s.started n x hs extra snap g v).passOver s n k := by
  unfold State.dispatched
  rw [State.ringNext_eq State.node?_started_same hx]

theorem State.lfsr_dispatched (hx : ∀ r j, x.source ≠ .ring r j) : (s.dispatched n x hs extra snap g v k).lfsr = s.lfsr := by
  obtain ⟨_, _, _, e⟩ := State.started_frame (s := s) (n := n) (x := x) (hs := hs) (extra := extra) (snap := snap) (g := g) (v := v)
  rw [State.dispatched_of_unringed hx]
  exact (congrArg State.lfsr e :)

/-- A member's window after the dispatch of a node of no ring. -/
theorem State.get_dispatched_of_mem (hx : ∀ r j, x.source ≠ .ring r j) (h : s.memOk) (hp : x.page.length = 8) {r off : Nat} (hg : g.Nodup)
    (hr : r < g.length) (ho : off < Config.windowSize) :
    Mem.get (s.dispatched n x hs extra snap g v k).mem (nearKey (g.getD r 0) off) = s.placedByte x (g.getD r 0) off := by
  rw [State.dispatched_of_unringed hx]
  exact State.get_started_of_mem h hp hg hr ho

theorem State.pop_eq_dispatched {w : BitVec 16} (fuel : Nat) (hs' : s.sample k start = ({ s with lfsr := w }, some (n, x)))
    (hx : s.node? n = some x) (hp : s.place n x k start = some (g, v)) (he : s.expired x = false) (hr : x.st = .ready)
    (ho : x.outcome = none) (hh : hs = if 0 < x.restarts then x.snapshot.getD [] else x.handles)
    (hxt : extra = if 0 < x.restarts then g.length else g.length - 1) (hsn : snap = if x.restarts = 0 ∧ recRstr x.rec_ then 1 else 0)
    (hf : s.refsFit hs extra snap = true) :
    s.pop k start (fuel + 1) = State.dispatched { s with lfsr := w } n x hs extra snap g v k := by
  have hg : State.giveGroup { s with lfsr := w } n x g v
      = (State.started { s with lfsr := w } n x hs extra snap g v).ringNext n false := by
    unfold State.giveGroup
    rw [if_neg (by simp [hr])]
    exact State.dispatchNew_eq hx hh hxt hsn hf
  obtain ⟨y, hy, hyx⟩ := State.node?_ringNext_started (s := { s with lfsr := w }) (n := n) (x := x) (hs := hs) (extra := extra)
    (snap := snap) (g := g) (v := v)
  rw [← hg] at hy
  have hyo : y.outcome = none := (congrArg Node.outcome hyx :).trans ho
  have hyr : y.st = .run := (congrArg Node.st hyx :)
  rw [State.pop_of_sample fuel hs' he ((State.place_lfsr ..).trans hp) hy hyo hyr, hg]
  rfl

end

/-! ### What a pop samples -/

/-- The heads of the banks that a pop of class `k` samples (R139). -/
def State.sampledHeads (s : State) (k : Nat) : List (Option (Nat × Node)) :=
  [s.bankHead k (sampled s.lfsr).1, s.bankHead k (sampled s.lfsr).2.1, s.bankHead 0 (sampled s.lfsr).2.2.1,
    s.bankHead 0 (sampled s.lfsr).2.2.2]

/-- Node `n` is the head of the strict lane that a pop of class `k` takes. -/
def State.takesLane (s : State) (k start n : Nat) (x : Node) : Prop :=
  s.laneHead k = some (n, x) ∨ (∀ m y, s.laneHead k = some (m, y) → s.place m y k start = none) ∧ s.laneHead 0 = some (n, x)

/-- Node `n` is the head of a sampled bank that a pop of class `k` takes. -/
def State.takesBank (s : State) (k start n : Nat) (x : Node) : Prop :=
  (∀ m y, s.laneHead k = some (m, y) → s.place m y k start = none) ∧ (∀ m y, s.laneHead 0 = some (m, y) → s.place m y k start = none)
    ∧ some (n, x) ∈ s.sampledHeads k
    ∧ ∀ m y, some (m, y) ∈ s.sampledHeads k → (s.place m y k start).isSome = true → (m, y) = (n, x) ∨ keyLt x.key y.key = true

section
variable {s : State} {k start n : Nat} {x : Node} {g : List Nat} {v : Nat}

theorem State.not_takesBank_of_takesLane (hp : s.place n x k start = some (g, v)) (h : s.takesLane k start n x) :
    ¬ s.takesBank k start n x := by
  rintro ⟨hk, h0, -⟩
  rcases h with h | ⟨-, h⟩
  · exact Option.some_ne_none _ (hp.symm.trans (hk n x h))
  · exact Option.some_ne_none _ (hp.symm.trans (h0 n x h))

theorem State.poppable_of_takes (h : s.takesLane k start n x ∨ s.takesBank k start n x) : s.poppable x = true := by
  rcases h with (h | ⟨-, h⟩) | ⟨-, -, h, -⟩
  · exact State.poppable_of_laneHead h
  · exact State.poppable_of_laneHead h
  · simp only [State.sampledHeads, List.mem_cons, List.not_mem_nil, or_false] at h
    rcases h with h | h | h | h <;> exact State.poppable_of_bankHead h.symm

/-- The pop takes the node, and steps the LFSR where it took it from a bank. -/
theorem State.sample_of_takes (hp : s.place n x k start = some (g, v)) (h : s.takesLane k start n x ∨ s.takesBank k start n x) :
    ∃ w, s.sample k start = ({ s with lfsr := w }, some (n, x))
      ∧ (s.takesLane k start n x → w = s.lfsr) ∧ (s.takesBank k start n x → w = lfsrStep s.lfsr) := by
  rcases h with h | h
  · exact ⟨s.lfsr, State.sample_of_lane hp h, fun _ => rfl, fun hb => absurd hb (State.not_takesBank_of_takesLane hp h)⟩
  · refine ⟨lfsrStep s.lfsr, ?_, fun hl => absurd h (State.not_takesBank_of_takesLane hp hl), fun _ => rfl⟩
    obtain ⟨hk, h0, hm, hb⟩ := h
    refine State.sample_of_banks hk h0 (bestOf_eq (State.mem_placeable.2 ⟨hm, by simp [hp]⟩) fun q hq => ?_)
    obtain ⟨hq, hqp⟩ := State.mem_placeable.1 hq
    exact hb q.1 q.2 hq hqp

end

theorem State.sampledHeads_eq (s : State) (k : Nat) :
    let b := fun (lo : Nat) => s.lfsr.toNat / 2 ^ lo % 32
    s.sampledHeads k = [s.bankHead k (b 0), s.bankHead k (if b 5 = b 0 then (b 0 + 16) % 32 else b 5), s.bankHead 0 (b 10),
      s.bankHead 0 ((b 10 + 16) % 32)] := by
  simp [State.sampledHeads, sampled, bitsN]

/-! ### O49 -/

theorem nearOf_eq (v off : Nat) : nearOf v off = BitVec.ofNat 64 (v * 2 ^ 20 + off) := rfl
theorem nearOf_zero (v : Nat) : nearOf v 0 = BitVec.ofNat 64 (v * 2 ^ 20) := by rw [nearOf_eq, Nat.add_zero (v * 2 ^ 20)]

theorem exec_dispatchPop {s : State} (h1 : 1 ≤ s.arg.n) (h4 : s.arg.n ≤ 4) : exec .dispatchPop s = .next (s.pop s.arg.n s.arg.m 131072) := by
  change execDispatchPop s = _
  exact congrArg Host.Outcome.next (if_neg (by omega))

theorem exec_strictLanePromotion {s : State} {x : Node} (hx : s.node? s.arg.n = some x) (hp : s.poppable x = true) (hl : x.lane = none)
    (hn : 2 ^ 14 ≤ x.passed) : exec .strictLanePromotion s
      = .next { s with nodes := FMap.set s.nodes s.arg.n { x with lane := some s.laneNo }, laneNo := s.laneNo + 1 } := by
  change execStrictLanePromotion s = _
  unfold execStrictLanePromotion
  rw [hx]
  dsimp only
  rw [if_pos ⟨hp, hl, hn⟩, State.modNode_eq hx]

/-- Settles O49: a pop samples the node (the lanes first, else the best head of the banks) and dispatches it; what the dispatch leaves in
the tiles, the memory and the tables is read off its members, and the node's ring, which goes on after it, touches none of it. -/
theorem nodesDispatched : Obligations.NodesDispatched := by
  intro s n x hok k b heads page hs unringed unplaced fromLane fromBanks
  obtain ⟨hmem, -, -⟩ := hok
  refine ⟨fun g v h1 h4 hfrom hx hp hg hlen he hr hfit => ?_, fun hn hx hp hl hc => ?_⟩
  · have hheads : s.sampledHeads k = heads := State.sampledHeads_eq s k
    have hbank : fromBanks = s.takesBank k s.arg.m n x := by unfold State.takesBank; rw [hheads]
    have hfrom' : s.takesLane k s.arg.m n x ∨ s.takesBank k s.arg.m n x := hbank ▸ hfrom
    obtain ⟨w, hw, hwl, hwb⟩ := State.sample_of_takes hp hfrom'
    have hpop := State.pop_eq_dispatched 131071 hw hx hp he hr (State.outcome_of_poppable (State.poppable_of_takes hfrom')) rfl rfl rfl hfit
    have hpage : x.page.length = 8 := Node.length_page hlen
    refine ⟨_, (exec_dispatchPop h1 h4).trans (congrArg Host.Outcome.next hpop), ?_, ?_, ?_, ?_, ?_, ?_, ?_⟩
    · exact fun hu => ⟨fun h => (State.lfsr_dispatched hu).trans (hwl h), fun h => (State.lfsr_dispatched hu).trans (hwb (hbank ▸ h))⟩
    · intro j m y i r hj hy hm hpl groups hr hl u hu hur
      exact State.not_mem_reserved_of_place hp hu (State.mem_reserved hj hy hm hpl hr hl hur)
    · obtain ⟨y, hy, e⟩ := State.node?_dispatched_same (s := { s with lfsr := w }) (n := n) (x := x) (hs := hs)
        (extra := if 0 < x.restarts then g.length else g.length - 1) (snap := if x.restarts = 0 ∧ recRstr x.rec_ then 1 else 0)
        (g := g) (v := v) (k := k)
      exact ⟨y, hy, (congrArg Node.st e :), (congrArg Node.gang e :), (congrArg Node.vfirst e :), (congrArg Node.vsize e :),
        (congrArg Node.handles e :), (congrArg Node.snapshot e :), (congrArg Node.lastAot e :), (congrArg Node.ran e :),
        (congrArg Node.rec_ e :), (congrArg Node.limit e :)⟩
    · exact fun m y hm hy hc hl hpo => State.passed_dispatched hm hy hc hl hpo
    · intro r hr'
      refine ⟨(State.tile_dispatched _).trans ((State.tile_started_of_mem hg hr').trans ?_), fun hu i hi => ?_,
        fun hu off h64 hoff => ?_, ?_⟩
      · unfold State.newMember
        rw [nearOf_zero, nearOf_eq]
        rfl
      · exact State.load_of_placedByte (s := { s with lfsr := w }) hpage hi fun off =>
          State.get_dispatched_of_mem (s := { s with lfsr := w }) hu hmem hpage hg hr'
      · have hwin : off < Config.windowSize := by simp only [Config.windowSize]; omega
        refine (State.get_dispatched_of_mem (s := { s with lfsr := w }) hu hmem hpage hg hr' hwin).trans ?_
        unfold State.placedByte
        rw [if_neg (by omega)]
        exact if_congr (or_iff_left (Nat.not_le.2 hoff)) rfl rfl
      · rw [State.tmap_dispatched, State.tmap_started hr']
        rfl
    · exact fun u hu => (State.tile_dispatched u).trans (State.tile_started_of_notMem hu)
    · exact State.reserve_dispatched
  · subst hn
    exact ⟨_, exec_strictLanePromotion hx hp hl hc, rfl⟩

end Sys2Proof.Machine
end

