-- ==== Sys2Proof/Proofs/Scalar.lean ====
section
/-! The arithmetic of the sequencer on the readings of words (R63, R64): O1 and O2. -/

namespace Sys2Proof.Machine

/-! ### The two shapes of an ALU instruction -/

/-- What an instruction of two operands writes (R63). -/
theorem retires_alu {s : State} {i : Instr} {f : Word → Word → Word} {d a b : BitVec 5} {v : Word} (hi : exec i s = alu f d a b s)
    (hv : f (s.here.rd a) (s.here.rd b) = v) : Retires s i d v :=
  retires_of_exec (hi.trans (congrArg (fun w => Host.Outcome.next (s.retire d w)) hv))

/-- What an instruction of one operand writes (R63, R65 to R68). -/
theorem retires_alu1 {s : State} {i : Instr} {f : Word → Word} {d a : BitVec 5} {v : Word} (hi : exec i s = alu1 f d a s)
    (hv : f (s.here.rd a) = v) : Retires s i d v :=
  retires_of_exec (hi.trans (congrArg (fun w => Host.Outcome.next (s.retire d w)) hv))

/-! ### Arithmetic on the readings of words (R63) -/

theorem ofInt_sub_toNat (w : Nat) (x y : Word) :
    BitVec.ofInt w (x.toNat - y.toNat) = BitVec.ofNat w x.toNat - BitVec.ofNat w y.toNat := by
  rw [Int.sub_eq_add_neg, BitVec.ofInt_add, BitVec.ofInt_neg, BitVec.ofInt_natCast, BitVec.ofInt_natCast, BitVec.sub_eq_add_neg]

theorem add_eq_ofNat (x y : Word) : x + y = BitVec.ofNat 64 (x.toNat + y.toNat) := by
  simp [BitVec.ofNat_add]

theorem sub_eq_ofInt (x y : Word) : x - y = BitVec.ofInt 64 (x.toNat - y.toNat) := by
  rw [ofInt_sub_toNat]; simp

theorem sextW_add (x y : Word) : sextW (x + y) = BitVec.ofInt 64 (BitVec.ofNat 32 (x.toNat + y.toNat)).toInt := by
  rw [add_eq_ofNat, ← BitVec.setWidth_ofNat_of_le (v := 32) (w := 64) (by decide)]
  rfl

theorem sextW_sub (x y : Word) : sextW (x - y) = BitVec.ofInt 64 (BitVec.ofInt 32 (x.toNat - y.toNat)).toInt := by
  have e : BitVec.ofNat 32 x.toNat - BitVec.ofNat 32 y.toNat = (x - y).setWidth 32 := by
    apply BitVec.eq_of_toNat_eq
    simp only [BitVec.toNat_sub, BitVec.toNat_ofNat, BitVec.toNat_setWidth]
    omega
  rw [ofInt_sub_toNat, e]
  rfl

theorem mul_eq_ofInt (x y : Word) : x * y = BitVec.ofInt 64 (x.toInt * y.toInt) := by
  rw [BitVec.ofInt_mul, BitVec.ofInt_toInt, BitVec.ofInt_toInt]

/-- The upper half of a number of 128 bits. -/
theorem upperHalf_ofInt (n : Int) : ((BitVec.ofInt 128 n >>> 64).setWidth 64 : Word) = BitVec.ofInt 64 (n / 2 ^ 64) := by
  apply BitVec.eq_of_toNat_eq
  simp only [BitVec.toNat_setWidth, BitVec.toNat_ushiftRight, BitVec.toNat_ofInt, Nat.shiftRight_eq_div_pow]
  omega

theorem mulHigh_eq (x y : Word) : mulHigh x y = BitVec.ofInt 64 (x.toInt * y.toInt / 2 ^ 64) := by
  rw [← upperHalf_ofInt, BitVec.ofInt_mul]
  rfl

theorem mulHighU_eq (x y : Word) : mulHighU x y = BitVec.ofNat 64 (x.toNat * y.toNat / 2 ^ 64) := by
  have e : x.zeroExtend 128 * y.zeroExtend 128 = BitVec.ofInt 128 ((x.toNat * y.toNat : Nat) : Int) := by
    rw [BitVec.ofInt_natCast]
    apply BitVec.eq_of_toNat_eq
    simp
  unfold mulHighU
  rw [e]
  refine (upperHalf_ofInt _).trans ?_
  norm_cast

theorem sdiv_eq_ofInt (x y : Word) : x.sdiv y = BitVec.ofInt 64 (x.toInt.tdiv y.toInt) := by
  apply BitVec.eq_of_toInt_eq
  rw [BitVec.toInt_sdiv, BitVec.toInt_ofInt]

theorem srem_eq_ofInt (x y : Word) : x.srem y = BitVec.ofInt 64 (x.toInt - y.toInt * x.toInt.tdiv y.toInt) := by
  rw [← Int.tmod_def, ← BitVec.toInt_srem, BitVec.ofInt_toInt]

theorem udiv_eq_ofNat (x y : Word) : x / y = BitVec.ofNat 64 (x.toNat / y.toNat) := by
  apply BitVec.eq_of_toNat_eq
  rw [BitVec.toNat_udiv, BitVec.toNat_ofNat, Nat.mod_eq_of_lt (Nat.lt_of_le_of_lt (Nat.div_le_self ..) x.isLt)]

theorem umod_eq_ofNat (x y : Word) : x % y = BitVec.ofNat 64 (x.toNat - y.toNat * (x.toNat / y.toNat)) := by
  rw [← Nat.mod_eq_sub_mul_div]
  exact ((BitVec.ofNat_toNat 64 (x % y)).trans (BitVec.setWidth_eq _)).symm

theorem shl_eq_ofNat (x : Word) (n : Nat) : x <<< n = BitVec.ofNat 64 (x.toNat * 2 ^ n) := by
  apply BitVec.eq_of_toNat_eq
  simp [Nat.shiftLeft_eq]

theorem shr_eq_ofNat (x : Word) (n : Nat) : x >>> n = BitVec.ofNat 64 (x.toNat / 2 ^ n) := by
  apply BitVec.eq_of_toNat_eq
  rw [BitVec.toNat_ushiftRight, Nat.shiftRight_eq_div_pow, BitVec.toNat_ofNat,
    Nat.mod_eq_of_lt (Nat.lt_of_le_of_lt (Nat.div_le_self ..) x.isLt)]

theorem sar_eq_ofInt (x : Word) (n : Nat) : x.sshiftRight n = BitVec.ofInt 64 (x.toInt / 2 ^ n) := by
  rw [BitVec.sshiftRight, Int.shiftRight_eq_div_pow, Nat.cast_pow, Nat.cast_ofNat]

theorem minS_eq_ofInt (x y : Word) : (if x.sle y then x else y) = BitVec.ofInt 64 (Min.min x.toInt y.toInt) := by
  by_cases h : x.toInt ≤ y.toInt
  · rw [if_pos (BitVec.sle_iff_toInt_le.2 h), Int.min_eq_left h, BitVec.ofInt_toInt]
  · rw [if_neg (mt BitVec.sle_iff_toInt_le.1 h), Int.min_eq_right (by omega), BitVec.ofInt_toInt]

theorem maxS_eq_ofInt (x y : Word) : (if x.sle y then y else x) = BitVec.ofInt 64 (Max.max x.toInt y.toInt) := by
  by_cases h : x.toInt ≤ y.toInt
  · rw [if_pos (BitVec.sle_iff_toInt_le.2 h), Int.max_eq_right h, BitVec.ofInt_toInt]
  · rw [if_neg (mt BitVec.sle_iff_toInt_le.1 h), Int.max_eq_left (by omega), BitVec.ofInt_toInt]

theorem minU_eq_ofNat (x y : Word) : (if x.ule y then x else y) = BitVec.ofNat 64 (Min.min x.toNat y.toNat) := by
  by_cases h : x.toNat ≤ y.toNat
  · rw [if_pos (BitVec.ule_iff_toNat_le.2 h), Nat.min_eq_left h, BitVec.ofNat_toNat, BitVec.setWidth_eq]
  · rw [if_neg (mt BitVec.ule_iff_toNat_le.1 h), Nat.min_eq_right (by omega), BitVec.ofNat_toNat, BitVec.setWidth_eq]

theorem maxU_eq_ofNat (x y : Word) : (if x.ule y then y else x) = BitVec.ofNat 64 (Max.max x.toNat y.toNat) := by
  by_cases h : x.toNat ≤ y.toNat
  · rw [if_pos (BitVec.ule_iff_toNat_le.2 h), Nat.max_eq_right h, BitVec.ofNat_toNat, BitVec.setWidth_eq]
  · rw [if_neg (mt BitVec.ule_iff_toNat_le.1 h), Nat.max_eq_left (by omega), BitVec.ofNat_toNat, BitVec.setWidth_eq]

/-! ### Counts of bits (R63) -/

theorem clzN_le (x : Word) (n : Nat) : clzN x n ≤ n := by
  induction n with
  | zero => exact Nat.le_refl 0
  | succ n ih => unfold clzN; split <;> omega

theorem getLsbD_of_clzN (x : Word) (n : Nat) : ∀ i, n - clzN x n ≤ i → i < n → x.getLsbD i = false := by
  induction n with
  | zero => exact fun i _ hi => absurd hi (Nat.not_lt_zero i)
  | succ n ih =>
    intro i hi hn
    unfold clzN at hi
    split at hi
    · omega
    · next h =>
      rcases Nat.lt_succ_iff_lt_or_eq.1 hn with hlt | rfl
      · exact ih i (by omega) hlt
      · simpa using h

theorem getLsbD_clzN (x : Word) (n : Nat) : clzN x n < n → x.getLsbD (n - 1 - clzN x n) = true := by
  induction n with
  | zero => exact fun h => absurd h (Nat.not_lt_zero _)
  | succ n ih =>
    unfold clzN
    split
    · next h => exact fun _ => h
    · intro hn
      have e : n + 1 - 1 - (clzN x n + 1) = n - 1 - clzN x n := by omega
      exact e ▸ ih (by omega)

theorem ctzN_le (x : Word) (n : Nat) : ∀ k, ctzN x k n ≤ n := by
  induction n with
  | zero => exact fun k => Nat.le_refl 0
  | succ n ih => intro k; have := ih (k + 1); unfold ctzN; split <;> omega

theorem getLsbD_of_ctzN (x : Word) (n : Nat) : ∀ k i, k ≤ i → i < k + ctzN x k n → x.getLsbD i = false := by
  induction n with
  | zero => exact fun k i hk hi => absurd hi (Nat.not_lt.2 hk)
  | succ n ih =>
    intro k i hk hi
    unfold ctzN at hi
    split at hi
    · omega
    · next h =>
      rcases Nat.eq_or_lt_of_le hk with rfl | hlt
      · simpa using h
      · exact ih (k + 1) i hlt (by omega)

theorem getLsbD_ctzN (x : Word) (n : Nat) : ∀ k, ctzN x k n < n → x.getLsbD (k + ctzN x k n) = true := by
  induction n with
  | zero => exact fun k h => absurd h (Nat.not_lt_zero _)
  | succ n ih =>
    intro k
    unfold ctzN
    split
    · next h => exact fun _ => h
    · intro hn
      have e : k + (ctzN x (k + 1) n + 1) = k + 1 + ctzN x (k + 1) n := by omega
      exact e ▸ ih (k + 1) (by omega)

theorem popN_eq_countP (x : Word) (n : Nat) : popN x n = (List.range n).countP (fun i => x.getLsbD i) := by
  induction n with
  | zero => rfl
  | succ n ih =>
    rw [List.range_succ, List.countP_append, ← ih, popN, Nat.add_comm]
    cases h : x.getLsbD n <;> simp [h]

/-! ### O1 and O2 -/

theorem divS_of_ne_zero {x y : Word} (h : y ≠ 0) : divS x y = x.sdiv y := if_neg h
theorem divU_of_ne_zero {x y : Word} (h : y ≠ 0) : divU x y = x / y := if_neg h
theorem remS_of_ne_zero {x y : Word} (h : y ≠ 0) : remS x y = x.srem y := if_neg h
theorem remU_of_ne_zero {x y : Word} (h : y ≠ 0) : remU x y = x % y := if_neg h

/-- Settles O1: each result, read as a number, is that of the model's operation on words. -/
theorem aluResults : Obligations.AluResults := by
  intro s d a b x y n
  refine ⟨?add, ?sub, ?addw, ?subw, ?mul, ?mulh, ?mulhz, fun hy => ⟨?div, ?divz, ?rem, ?remz⟩, ?and, ?or, ?xor, ?andn, ?shl, ?shr, ?sar,
    ?min, ?max, ?minz, ?maxz, ?clz, ?ctz, ?popc⟩
  case add => exact retires_alu (f := (· + ·)) rfl (add_eq_ofNat x y)
  case sub => exact retires_alu (f := (· - ·)) rfl (sub_eq_ofInt x y)
  case addw => exact retires_alu (f := fun a b => sextW (a + b)) rfl (sextW_add x y)
  case subw => exact retires_alu (f := fun a b => sextW (a - b)) rfl (sextW_sub x y)
  case mul => exact retires_alu (f := (· * ·)) rfl (mul_eq_ofInt x y)
  case mulh => exact retires_alu (f := mulHigh) rfl (mulHigh_eq x y)
  case mulhz => exact retires_alu (f := mulHighU) rfl (mulHighU_eq x y)
  case div => exact retires_alu (f := divS) rfl ((divS_of_ne_zero hy).trans (sdiv_eq_ofInt x y))
  case divz => exact retires_alu (f := divU) rfl ((divU_of_ne_zero hy).trans (udiv_eq_ofNat x y))
  case rem => exact retires_alu (f := remS) rfl ((remS_of_ne_zero hy).trans (srem_eq_ofInt x y))
  case remz => exact retires_alu (f := remU) rfl ((remU_of_ne_zero hy).trans (umod_eq_ofNat x y))
  case and => exact retires_alu (f := (· &&& ·)) rfl rfl
  case or => exact retires_alu (f := (· ||| ·)) rfl rfl
  case xor => exact retires_alu (f := (· ^^^ ·)) rfl rfl
  case andn => exact retires_alu (f := fun a b => a &&& ~~~b) rfl rfl
  case shl => exact retires_alu (f := fun a b => a <<< shamt b) rfl (shl_eq_ofNat x n)
  case shr => exact retires_alu (f := fun a b => a >>> shamt b) rfl (shr_eq_ofNat x n)
  case sar => exact retires_alu (f := fun a b => a.sshiftRight (shamt b)) rfl (sar_eq_ofInt x n)
  case min => exact retires_alu (f := fun a b => if a.sle b then a else b) rfl (minS_eq_ofInt x y)
  case max => exact retires_alu (f := fun a b => if a.sle b then b else a) rfl (maxS_eq_ofInt x y)
  case minz => exact retires_alu (f := fun a b => if a.ule b then a else b) rfl (minU_eq_ofNat x y)
  case maxz => exact retires_alu (f := fun a b => if a.ule b then b else a) rfl (maxU_eq_ofNat x y)
  case clz => exact ⟨clzN x 64, clzN_le x 64, getLsbD_of_clzN x 64, getLsbD_clzN x 64, retires_of_exec rfl⟩
  case ctz => exact ⟨ctzN x 0 64, ctzN_le x 64 0, fun i hi => getLsbD_of_ctzN x 64 0 i (Nat.zero_le i) (by omega),
    fun hk => by simpa using getLsbD_ctzN x 64 0 hk, retires_of_exec rfl⟩
  case popc => exact retires_alu1 (f := fun a => BitVec.ofNat 64 (popN a 64)) rfl (congrArg (BitVec.ofNat 64) (popN_eq_countP x 64))

/-- Settles O2: every operand gives a result; a zero divisor is a case of its own, and the overflowing quotient wraps. -/
theorem divisionEdgeCases : Obligations.DivisionEdgeCases := by
  intro s d a b
  refine ⟨fun i hi => ?_, fun hb => ?_, fun ha hb => ?_⟩
  · simp only [List.mem_cons, List.not_mem_nil, or_false] at hi
    rcases hi with rfl | rfl | rfl | rfl <;> exact ⟨_, retires_alu rfl rfl⟩
  · exact ⟨retires_alu rfl (if_pos hb), retires_alu rfl (if_pos hb), retires_alu rfl (if_pos hb), retires_alu rfl (if_pos hb)⟩
  · exact ⟨retires_alu rfl (by rw [ha, hb]; decide), retires_alu rfl (by rw [ha, hb]; decide)⟩

end Sys2Proof.Machine
end

