-- ==== Sys2Proof/Proofs/Fields.lean ====
section
/-! Immediates, bit fields, compares and predicates (R65 to R71): O3. -/

namespace Sys2Proof.Machine

/-! ### Immediates and constants (R65 to R67) -/

theorem addImm_eq (x : Word) (imm : BitVec 16) : x + imm.signExtend 64 = BitVec.ofInt 64 (x.toInt + imm.toInt) := by
  rw [BitVec.ofInt_add, BitVec.ofInt_toInt]
  rfl

theorem zeroExtend_imm_eq (imm : BitVec 16) : imm.zeroExtend 64 = BitVec.ofNat 64 imm.toNat := (BitVec.ofNat_toNat 64 imm).symm

/-! ### Bit fields, bit by bit (R67, R68) -/

theorem getLsbD_lowMask {w : Nat} (hw : w ≤ 64) (i : Nat) : (lowMask w).getLsbD i = decide (i < w) := by
  rw [lowMask, BitVec.getLsbD_ofNat, Nat.testBit_two_pow_sub_one]
  by_cases h : i < w
  · simp [h, Nat.lt_of_lt_of_le h hw]
  · simp [h]

/-- A word with `w` bits from bit `p` on replaced by those of another. -/
theorem getLsbD_replace (v u : Word) {p w i : Nat} (hw : w ≤ 64) (hi : i < 64) (hu : ∀ j, w ≤ j → u.getLsbD j = false) :
    ((v &&& ~~~(lowMask w <<< p)) ||| (u <<< p)).getLsbD i = if p ≤ i ∧ i < p + w then u.getLsbD (i - p) else v.getLsbD i := by
  simp only [BitVec.getLsbD_or, BitVec.getLsbD_and, BitVec.getLsbD_not, BitVec.getLsbD_shiftLeft, getLsbD_lowMask hw, hi, decide_true,
    Bool.true_and]
  by_cases hp : i < p
  · simp [hp, Nat.not_le.2 hp]
  · by_cases hq : i - p < w
    · rw [if_pos (by omega)]; simp [hp, hq]
    · rw [if_neg (by omega), hu _ (by omega)]; simp [hq]

theorem getLsbD_putHalf (v : Word) (k : BitVec 2) (imm : BitVec 16) {i : Nat} (hi : i < 64) :
    (putHalf v k imm).getLsbD i = if i / 16 = k.toNat then imm.getLsbD (i % 16) else v.getLsbD i := by
  have h : (putHalf v k imm).getLsbD i = _ := getLsbD_replace v (imm.zeroExtend 64) (p := 16 * k.toNat) (w := 16) (by decide) hi
    fun j hj => by simp [BitVec.getLsbD_of_ge imm j hj]
  rw [h]
  by_cases hk : i / 16 = k.toNat
  · rw [if_pos hk, if_pos (by omega), show i - 16 * k.toNat = i % 16 by omega]
    simp [show i % 16 < 64 by omega]
  · rw [if_neg hk, if_neg (by omega)]

theorem getLsbD_bfField (x : Word) (pos wm1 : BitVec 6) (i : Nat) :
    (bfField x pos wm1).getLsbD i = (decide (i < wm1.toNat + 1) && x.getLsbD (pos.toNat + i)) := by
  rw [bfField, BitVec.getLsbD_and, getLsbD_lowMask (by omega), BitVec.getLsbD_ushiftRight, Bool.and_comm]

theorem getLsbD_sextBits (v : Word) {w i : Nat} (h0 : 0 < w) (hw : w ≤ 64) (hi : i < 64) :
    (sextBits v w).getLsbD i = v.getLsbD (Min.min i (w - 1)) := by
  rw [sextBits, BitVec.getLsbD_sshiftRight]
  by_cases h : i < w
  · rw [Nat.min_eq_left (by omega)]
    simp [hi, Nat.not_le.2 hi, show 64 - w + i < 64 by omega]
  · rw [Nat.min_eq_right (by omega)]
    simp [Nat.not_le.2 hi, show ¬ 64 - w + i < 64 by omega, BitVec.msb_eq_getLsbD_last, show ¬ 63 < 64 - w by omega,
      show 63 - (64 - w) = w - 1 by omega, BitVec.getLsbD_eq_getElem (show w - 1 < 64 by omega)]

theorem getLsbD_bfInsert (v x : Word) (pos wm1 : BitVec 6) {i : Nat} (hi : i < 64) :
    (bfInsert v x pos wm1).getLsbD i
      = if pos.toNat ≤ i ∧ i < pos.toNat + (wm1.toNat + 1) then x.getLsbD (i - pos.toNat) else v.getLsbD i := by
  have hw : wm1.toNat + 1 ≤ 64 := by omega
  have h : (bfInsert v x pos wm1).getLsbD i = _ := getLsbD_replace v (x &&& lowMask (wm1.toNat + 1)) (p := pos.toNat) hw hi
    fun j hj => by rw [BitVec.getLsbD_and, getLsbD_lowMask hw, decide_eq_false (by omega), Bool.and_false]
  rw [h]
  by_cases hp : pos.toNat ≤ i ∧ i < pos.toNat + (wm1.toNat + 1)
  · rw [if_pos hp, if_pos hp, BitVec.getLsbD_and, getLsbD_lowMask hw, decide_eq_true (by omega), Bool.and_true]
  · rw [if_neg hp, if_neg hp]

/-! ### Compares (R37, R69) -/

theorem condHolds_iff {c : BitVec 4} (hc : c.toNat < 12) (x y : Word) : condHolds c x y = true ↔ condition c x y := by
  unfold condHolds condition
  obtain ⟨n, hn⟩ : ∃ n, c.toNat = n := ⟨_, rfl⟩
  rw [hn] at hc ⊢
  interval_cases n <;> simp [BitVec.slt, BitVec.sle, BitVec.ult, BitVec.ule]

theorem retiresP_of_exec {s : State} {i : Instr} {pd : BitVec 3} {b : Bool} (h : exec i s = .next (s.retireP pd b)) :
    RetiresP s i pd b := ⟨_, h, wroteP_setHere s pd b⟩

/-! ### O3 -/

/-- Settles O3: each word is given bit by bit, or by the reading of its immediate; a compare writes the condition's truth. -/
theorem immediatesFieldsAndPredicates : Obligations.ImmediatesFieldsAndPredicates := by
  refine ⟨?immediates, ?fields, ?predicates⟩
  case immediates =>
    intro s d a imm n k x
    refine ⟨?_, ?_, ?_, ?_, ?_, ?_, ?_, retires_of_exec rfl, putHalf (s.here.rd d) k imm, fun i hi => getLsbD_putHalf _ k imm hi,
      retires_of_exec rfl⟩
    · exact retires_alu1 (f := fun a => a + imm.signExtend 64) rfl (addImm_eq x imm)
    · exact retires_alu1 (f := fun a => a &&& imm.zeroExtend 64) rfl (congrArg (x &&& ·) (zeroExtend_imm_eq imm))
    · exact retires_alu1 (f := fun a => a ||| imm.zeroExtend 64) rfl (congrArg (x ||| ·) (zeroExtend_imm_eq imm))
    · exact retires_alu1 (f := fun a => a ^^^ imm.zeroExtend 64) rfl (congrArg (x ^^^ ·) (zeroExtend_imm_eq imm))
    · exact retires_alu1 (f := fun a => a <<< n.toNat) rfl (shl_eq_ofNat x n.toNat)
    · exact retires_alu1 (f := fun a => a >>> n.toNat) rfl (shr_eq_ofNat x n.toNat)
    · exact retires_alu1 (f := fun a => a.sshiftRight n.toNat) rfl (sar_eq_ofInt x n.toNat)
  case fields =>
    intro s d a b pos wm1 p hw x w
    refine ⟨⟨_, fun i _ => getLsbD_bfField x pos wm1 i, retires_of_exec rfl⟩, ⟨_, fun i hi => ?_, retires_of_exec rfl⟩,
      ⟨_, fun i hi => getLsbD_bfInsert (s.here.rd d) x pos wm1 hi, retires_of_exec rfl⟩, retires_of_exec rfl⟩
    have hm : Min.min i wm1.toNat < wm1.toNat + 1 := by omega
    rw [getLsbD_sextBits _ (Nat.succ_pos wm1.toNat) (by omega) hi, Nat.succ_sub_one, getLsbD_bfField, decide_eq_true hm, Bool.true_and]
  case predicates =>
    intro s pd pa pb c a b imm v
    refine ⟨fun hc => ⟨⟨_, condHolds_iff hc _ _, retiresP_of_exec rfl⟩, ⟨_, condHolds_iff hc _ _, retiresP_of_exec rfl⟩⟩,
      retiresP_of_exec rfl, retiresP_of_exec rfl, ?_, retiresP_of_exec rfl, retiresP_of_exec rfl, ?_⟩
    · exact retiresP_of_exec (b := xor (s.here.rdP pa) (s.here.rdP pb)) rfl
    · have hv : (decide (v = 1)) = decide (v.toNat = 1) := by revert v; decide
      exact hv ▸ retiresP_of_exec rfl

end Sys2Proof.Machine
end

