-- ==== Sys2Proof/Proofs/Control.lean ====
section
/-! Branches and jumps (R72, R73): O4 and O5. -/

namespace Sys2Proof.Machine

/-! ### Targets (R30, R72) -/

theorem dispTarget_eq (pc : Word) {n : Nat} (disp : BitVec n) : dispTarget pc disp = wordsFrom pc disp.toInt := by
  have e : (disp.signExtend 64 : Word) <<< 2 = BitVec.ofInt 64 (4 * disp.toInt) := by
    rw [BitVec.ofInt_mul]
    apply BitVec.eq_of_toNat_eq
    simp [BitVec.signExtend, Nat.shiftLeft_eq, Nat.mul_comm]
  unfold dispTarget wordsFrom
  rw [e, BitVec.ofInt_add, BitVec.ofInt_natCast, BitVec.ofNat_toNat, BitVec.setWidth_eq]

/-! ### What a transfer does with its target (R72, R73) -/

section
variable {s : State} {i : Instr} {target : Word} {d : BitVec 5} {v : Word}

theorem wentTo_jumpTo (h : Fetchable target) : WentTo s (jumpTo s target fun x => x.wr d v) target d v := by
  unfold jumpTo
  rw [if_pos ((pcOk_iff target).2 h)]
  exact wentTo_setHere s d v target

theorem wentTo_retire : WentTo s (s.retire d v) (s.here.pc + 4) d v := by
  obtain ⟨hr, hpc, hx, ho⟩ := wrote_retire s d v
  exact ⟨hr, hpc, hx, ho⟩

/-- A transfer to a good target. -/
theorem wentTo_of_exec (h : Fetchable target) (e : exec i s = .next (jumpTo s target fun x => x.wr d v)) :
    Completes i s (fun t => WentTo s t target d v) := ⟨_, e, wentTo_jumpTo h⟩

/-- A transfer that is not taken. -/
theorem wentTo_next_of_exec (e : exec i s = .next s.nextPc) : Completes i s (fun t => WentTo s t (s.here.pc + 4) 0 0) :=
  ⟨_, e, wentTo_retire (s := s) (d := 0) (v := 0)⟩

/-- A transfer to a bad target. -/
theorem traps_of_exec_jumpTo {f : Tile → Tile} (ht : s.here.canTrap) (h : ¬ Fetchable target) (e : exec i s = .next (jumpTo s target f)) :
    Traps s i 0x04 target := by
  have hj : jumpTo s target f = s.trap 0x04 target := if_neg (mt (pcOk_iff target).1 h)
  exact ⟨_, e, hj ▸ trapped_trap ht 0x04 target⟩

end

/-! ### The transfers (R72) -/

section
variable (s : State) (p : BitVec 3) (a d : BitVec 5) (d22 : BitVec 22) (d26 : BitVec 26) (d21 : BitVec 21)

theorem exec_br : exec (.br p d22) s
    = .next (if s.here.rdP p then jumpTo s (wordsFrom s.here.pc d22.toInt) fun x => x.wr 0 0 else s.nextPc) :=
  dispTarget_eq s.here.pc d22 ▸ rfl

theorem exec_brF : exec (.brF p d22) s
    = .next (if s.here.rdP p then s.nextPc else jumpTo s (wordsFrom s.here.pc d22.toInt) fun x => x.wr 0 0) :=
  dispTarget_eq s.here.pc d22 ▸ rfl

theorem exec_j : exec (.j d26) s = .next (jumpTo s (wordsFrom s.here.pc d26.toInt) fun x => x.wr 0 0) :=
  dispTarget_eq s.here.pc d26 ▸ rfl

theorem exec_jal : exec (.jal d26) s = .next (jumpTo s (wordsFrom s.here.pc d26.toInt) fun x => x.wr 1 (s.here.pc + 4)) :=
  dispTarget_eq s.here.pc d26 ▸ rfl

theorem exec_jr : exec (.jr a) s = .next (jumpTo s (s.here.rd a) fun x => x.wr 0 0) := rfl

theorem exec_jalr : exec (.jalr d a) s = .next (jumpTo s (s.here.rd a) fun x => x.wr d (s.here.pc + 4)) := rfl

theorem exec_bdec : exec (.bdec a d21) s = .next (if s.here.rd a - 1 = 0 then s.retire a (s.here.rd a - 1)
    else jumpTo s (wordsFrom s.here.pc d21.toInt) fun x => x.wr a (s.here.rd a - 1)) :=
  dispTarget_eq s.here.pc d21 ▸ rfl

theorem exec_br_taken (h : s.here.rdP p = true) :
    exec (.br p d22) s = .next (jumpTo s (wordsFrom s.here.pc d22.toInt) fun x => x.wr 0 0) := by rw [exec_br, if_pos h]
theorem exec_brF_taken (h : s.here.rdP p = false) :
    exec (.brF p d22) s = .next (jumpTo s (wordsFrom s.here.pc d22.toInt) fun x => x.wr 0 0) := by rw [exec_brF, h]; rfl
theorem exec_bdec_taken (h : s.here.rd a - 1 ≠ 0) : exec (.bdec a d21) s
    = .next (jumpTo s (wordsFrom s.here.pc d21.toInt) fun x => x.wr a (s.here.rd a - 1)) := by rw [exec_bdec, if_neg h]
theorem exec_br_not_taken (h : s.here.rdP p = false) : exec (.br p d22) s = .next s.nextPc := by rw [exec_br, h]; rfl
theorem exec_brF_not_taken (h : s.here.rdP p = true) : exec (.brF p d22) s = .next s.nextPc := by rw [exec_brF, if_pos h]
theorem exec_bdec_not_taken (h : s.here.rd a - 1 = 0) : exec (.bdec a d21) s = .next (s.retire a 0) := by rw [exec_bdec, if_pos h, h]

end

/-! ### O4 and O5 -/

/-- Settles O4: a taken transfer sets the counter to its target and writes its link; one not taken goes on. -/
theorem transfersOfControl : Obligations.TransfersOfControl := by
  intro s p a d d22 d26 d21 pc dec
  refine ⟨fun hp hf => ?_, fun hp => ?_, fun hp hf => ?_, fun hp => ?_, fun hf => ⟨?_, ?_⟩, fun hf => ⟨?_, ?_⟩, fun hd hf => ?_, fun hd => ?_⟩
  · exact wentTo_of_exec hf (exec_br_taken s p d22 hp)
  · exact wentTo_next_of_exec (exec_br_not_taken s p d22 hp)
  · exact wentTo_of_exec hf (exec_brF_taken s p d22 hp)
  · exact wentTo_next_of_exec (exec_brF_not_taken s p d22 hp)
  · exact wentTo_of_exec hf (exec_j s d26)
  · exact wentTo_of_exec hf (exec_jal s d26)
  · exact wentTo_of_exec hf (exec_jr s a)
  · exact wentTo_of_exec hf (exec_jalr s a d)
  · exact wentTo_of_exec hf (exec_bdec_taken s a d21 hd)
  · have e : dec = 0 := hd
    exact ⟨_, exec_bdec_not_taken s a d21 hd, e ▸ wentTo_retire⟩

/-- Settles O5: a target that fails the check of R30 takes the trap before the tile is changed. -/
theorem badTargetsAreRefused : Obligations.BadTargetsAreRefused := by
  intro s p a d d22 d26 d21 ht pc refuses
  refine ⟨fun hp hf => ?_, fun hp hf => ?_, fun hf => ?_, fun hf => ?_, fun hf => ?_, fun hf => ?_, fun hd hf => ?_, fun hp => ?_,
    fun hp => ?_, fun hd => ?_⟩
  · exact traps_of_exec_jumpTo ht hf (exec_br_taken s p d22 hp)
  · exact traps_of_exec_jumpTo ht hf (exec_brF_taken s p d22 hp)
  · exact traps_of_exec_jumpTo ht hf (exec_j s d26)
  · exact traps_of_exec_jumpTo ht hf (exec_jal s d26)
  · exact traps_of_exec_jumpTo ht hf (exec_jr s a)
  · exact traps_of_exec_jumpTo ht hf (exec_jalr s a d)
  · exact traps_of_exec_jumpTo ht hf (exec_bdec_taken s a d21 hd)
  · exact wentTo_next_of_exec (exec_br_not_taken s p d22 hp)
  · exact wentTo_next_of_exec (exec_brF_not_taken s p d22 hp)
  · exact ⟨_, exec_bdec_not_taken s a d21 hd, wentTo_retire⟩

end Sys2Proof.Machine
end

