-- ==== Sys2Proof/Proofs/Loads.lean ====
section
/-! Near loads (R74, R77, R78, R84): O6. -/

namespace Sys2Proof.Machine

/-! ### Bytes of a load (R74, R77) -/

theorem psbBytes_eq (psb : FMap Byte) : ∀ (n a : Nat), psbBytes psb a n = (List.range n).map fun i => FMap.get? psb (a + i)
  | 0, _ => rfl
  | n + 1, a => by
    rw [psbBytes, psbBytes_eq psb n (a + 1), List.range_succ_eq_map]
    simp [Function.comp_def, Nat.add_assoc, Nat.add_comm 1]

theorem overlay_map {α : Type} (f : α → Option Byte) (g : α → Byte) (l : List α) :
    overlay (l.map f) (l.map g) = l.map fun i => (f i).getD (g i) := by
  induction l with
  | nil => rfl
  | cons a l ih =>
    simp only [List.map_cons]
    cases h : f a <;> simp [overlay, ih]

/-- What a load reads: the buffer's bytes over those of home. -/
theorem overlay_psbBytes (psb : FMap Byte) (m : List Host.Cell) (a k n : Nat) :
    overlay (psbBytes psb a n) (Mem.bytes m k n) = (List.range n).map fun i => (FMap.get? psb (a + i)).getD (Mem.get m (k + i)) := by
  rw [psbBytes_eq, Mem.bytes_eq, overlay_map]

theorem overlay_nil (l : List Byte) : overlay [] l = l := by cases l <;> rfl

theorem bytesOf_eq (v n : Nat) : bytesOf v n = leBytes v n := (leBytes_eq_map v n).symm

theorem sum_mapIdx_eq (l : List Byte) : ∀ k, (l.mapIdx fun i b => b.toNat * 256 ^ (i + k)).sum = 256 ^ k * leNat l := by
  induction l with
  | nil => exact fun k => rfl
  | cons b l ih =>
    intro k
    have e : (fun i (b : Byte) => b.toNat * 256 ^ (i + 1 + k)) = fun i b => b.toNat * 256 ^ (i + (k + 1)) := by
      funext i b; rw [Nat.add_assoc, Nat.add_comm 1 k]
    rw [List.mapIdx_cons, List.sum_cons, e, ih (k + 1), leNat, Nat.pow_succ, Nat.zero_add]
    ring

theorem leNat_eq_sum (l : List Byte) : (l.mapIdx fun i b => b.toNat * 256 ^ i).sum = leNat l :=
  (sum_mapIdx_eq l 0).trans (Nat.one_mul _)

theorem leNat_lt (l : List Byte) : leNat l < 256 ^ l.length := by
  induction l with
  | nil => decide
  | cons b l ih =>
    have hb := b.isLt
    rw [leNat, List.length_cons, Nat.pow_succ]
    omega

/-- A value of `w` bits, moved to the top of a word and back by its sign. -/
theorem sshiftRight_top {w v : Nat} (h0 : 0 < w) (hw : w ≤ 64) (hv : v < 2 ^ w) :
    (BitVec.ofNat 64 (v * 2 ^ (64 - w)) : Word).sshiftRight (64 - w)
      = if v < 2 ^ (w - 1) then BitVec.ofNat 64 v else BitVec.ofInt 64 ((v : Int) - 2 ^ w) := by
  obtain ⟨m, hm⟩ : ∃ m, m = 64 - w := ⟨_, rfl⟩
  have h64 : 2 ^ w * 2 ^ m = 2 ^ 64 := by rw [← Nat.pow_add]; congr 1; omega
  have hhalf : 2 ^ (w - 1) * 2 ^ m = 2 ^ 63 := by rw [← Nat.pow_add]; congr 1; omega
  have hpos : 0 < 2 ^ m := Nat.two_pow_pos m
  have hlt : v * 2 ^ m < 2 ^ 64 := h64 ▸ Nat.mul_lt_mul_of_pos_right hv hpos
  have hx : (BitVec.ofNat 64 (v * 2 ^ m)).toNat = v * 2 ^ m := by rw [BitVec.toNat_ofNat, Nat.mod_eq_of_lt hlt]
  rw [← hm, sar_eq_ofInt, BitVec.toInt_eq_toNat_cond, hx]
  by_cases h : v < 2 ^ (w - 1)
  · have h2 : v * 2 ^ m < 2 ^ 63 := hhalf ▸ Nat.mul_lt_mul_of_pos_right h hpos
    rw [if_pos (by omega), if_pos h]
    have e : ((v * 2 ^ m : Nat) : Int) / 2 ^ m = (v : Int) := by
      rw [Nat.cast_mul, Nat.cast_pow, Nat.cast_ofNat]
      exact Int.mul_ediv_cancel _ (by positivity)
    rw [e, BitVec.ofInt_natCast]
  · have h2 : 2 ^ 63 ≤ v * 2 ^ m := hhalf ▸ Nat.mul_le_mul_right _ (Nat.not_lt.1 h)
    rw [if_neg (by omega), if_neg h]
    have e : ((v * 2 ^ m : Nat) : Int) - ((2 ^ 64 : Nat) : Int) = ((v : Int) - 2 ^ w) * 2 ^ m := by
      rw [← h64]; push_cast; ring
    rw [e, Int.mul_ediv_cancel _ (by positivity)]

/-- R74: the value of a load, extended by sign or by zero. -/
theorem extendLoad_eq_extended (l : List Byte) (z : BitVec 1) (h0 : 0 < l.length) (h8 : l.length ≤ 8) :
    extendLoad (leNat l) l.length (decide (z = 1)) = extended l z := by
  have hv : leNat l < 2 ^ (8 * l.length) := (Nat.pow_mul 2 8 l.length).symm ▸ leNat_lt l
  unfold extendLoad extended
  rw [leNat_eq_sum]
  by_cases hz : z = 1
  · rw [decide_eq_true hz, if_pos rfl, if_pos (.inl hz)]
  · rw [decide_eq_false hz, if_neg Bool.false_ne_true, sshiftRight_top (by omega) (by omega) hv]
    exact if_congr (or_iff_right hz).symm rfl rfl

theorem sizeBytes_bounds (size : BitVec 2) : 0 < sizeBytes size ∧ sizeBytes size ≤ 8 := by
  revert size; decide

/-! ### Reads that leave as packets (R77, R84) -/

theorem sentRead_sendRead (s : State) (p : Packet) (r : PendRead) : SentRead s (s.sendRead p r) p r := by
  refine ⟨rfl, ?_, fun u hu => ?_, fun _ => rfl, rfl⟩
  · simp [State.sendRead, State.send]
  · exact (State.tile_setHere_ne (s.send p) _ hu).trans (State.send_tile_ne s p hu)

/-! ### What a load does (R74, R77, R78) -/

section
variable {s : State} {d : BitVec 5} {n u o : Nat} {z : BitVec 1} {buf : Bool} {a : Word}

theorem loadNear_home (ha : s.here.acquires = false) (hn : s.near s.here.ctx a n = .ok s.cur o) (hh : s.atHome o n buf) :
    loadNear s d n (z = 1) buf a = (s.accessed o n).retire d
      (extendLoad (leNat (overlay (if buf then psbBytes s.here.psb a.toNat n else []) (Mem.bytes s.mem (nearKey s.cur o) n))) n (z = 1)) := by
  obtain ⟨h1, h2⟩ := hh
  simp only [loadNear, ha, hn, h1, h2, Bool.false_eq_true, if_false, if_true]

theorem loadNear_away (ha : s.here.acquires = false) (hn : s.near s.here.ctx a n = .ok u o) (h : s.atOnce u o n buf = false) :
    loadNear s d n (z = 1) buf a = s.sendRead { packetTo s 0 s.cur u o (bytesOf 0 n) with plain := buf }
      { txid := s.here.nextTx, d := d, home := u, bytes := n, zero := decide (z = 1),
        buf := if buf then psbBytes s.here.psb a.toNat n else [] } := by
  simp only [loadNear, ha, hn, h, Bool.false_eq_true, if_false, bytesOf_eq]

theorem extendLoad_range (f : Nat → Byte) (h0 : 0 < n) (h8 : n ≤ 8) :
    extendLoad (leNat ((List.range n).map f)) n (z = 1) = extended ((List.range n).map f) z := by
  have hl : ((List.range n).map f).length = n := by simp
  have e := extendLoad_eq_extended ((List.range n).map f) z (hl.symm ▸ h0) (hl.symm ▸ h8)
  rwa [hl] at e

end

/-- Settles O6: a load at home retires with the buffer's bytes over those of home, and any other sends its read. -/
theorem nearLoadResults : Obligations.NearLoadResults := by
  intro s d base size z off u o ha a n held home merged read wait
  obtain ⟨h0, h8⟩ := sizeBytes_bounds size
  refine ⟨fun hn => ⟨fun hh => ?_, fun hh => ?_⟩, fun hn => ⟨fun hh => ?_, fun hh => ?_⟩⟩
  · refine ⟨_, congrArg Host.Outcome.next (loadNear_home ha hn hh), ?_⟩
    rw [if_pos rfl, overlay_psbBytes, extendLoad_range _ h0 h8]
    exact wrote_retire ..
  · refine ⟨_, congrArg Host.Outcome.next (loadNear_home ha hn hh), ?_⟩
    rw [if_neg Bool.false_ne_true, overlay_nil, Mem.bytes_eq, extendLoad_range _ h0 h8]
    exact wrote_retire ..
  · refine ⟨_, congrArg Host.Outcome.next (loadNear_away ha hn hh), ?_⟩
    rw [if_pos rfl, psbBytes_eq]
    exact sentRead_sendRead ..
  · exact ⟨_, congrArg Host.Outcome.next (loadNear_away ha hn hh), sentRead_sendRead ..⟩

end Sys2Proof.Machine
end

