-- ==== Sys2Proof/Proofs/Buffers.lean ====
section
/-! The phase store buffer: what an st enters in it, and how much it holds (R75, R76): O7. -/

namespace Sys2Proof.Machine

/-! ### What is entered (R75) -/

theorem get?_psbEnter (k : Nat) : ∀ (l : List Byte) (psb : FMap Byte) (a : Nat),
    FMap.get? (psbEnter psb a l) k = if a ≤ k ∧ k < a + l.length then some (l.getD (k - a) 0) else FMap.get? psb k
  | [], psb, a => by rw [if_neg (by simp)]; rfl
  | b :: l, psb, a => by
    rw [psbEnter, get?_psbEnter k l, List.length_cons]
    by_cases e : k = a
    · subst e
      rw [if_neg (by omega), if_pos (by omega), FMap.get?_set_same, Nat.sub_self]
      rfl
    · rw [FMap.get?_set_ne _ _ e]
      by_cases h : a + 1 ≤ k ∧ k < a + 1 + l.length
      · obtain ⟨i, rfl⟩ : ∃ i, k = a + 1 + i := ⟨k - (a + 1), by omega⟩
        rw [if_pos h, if_pos (by omega), Nat.add_sub_cancel_left, show a + 1 + i - a = i + 1 by omega, List.getD_cons_succ]
      · rw [if_neg h, if_neg (by omega)]

/-! ### Granules (R75, R76) -/

theorem mem_granulesOf {psb : FMap Byte} {g : Nat} : g ∈ granulesOf psb ↔ ∃ c ∈ psb, c.1 / 32 = g := by
  unfold granulesOf
  rw [List.mem_eraseDups, List.mem_map]

theorem nodup_eraseDups {α : Type} [BEq α] [LawfulBEq α] : ∀ l : List α, l.eraseDups.Nodup
  | [] => by simp
  | a :: l => by
    rw [List.eraseDups_cons, List.nodup_cons, List.mem_eraseDups]
    exact ⟨by simp, nodup_eraseDups _⟩
termination_by l => l.length
decreasing_by exact Nat.lt_succ_of_le (List.length_filter_le ..)

theorem nodup_granulesOf (psb : FMap Byte) : (granulesOf psb).Nodup := nodup_eraseDups _

theorem mem_psbEnter {c : Nat × Byte} : ∀ {l : List Byte} {psb : FMap Byte} {a : Nat}, c ∈ psbEnter psb a l →
    c ∈ psb ∨ a ≤ c.1 ∧ c.1 < a + l.length
  | [], _, _, h => .inl h
  | b :: l, psb, a, h => by
    rw [List.length_cons]
    rcases mem_psbEnter (l := l) h with h | h
    · rcases FMap.mem_of_mem_set h with rfl | h
      · exact .inr (by simp)
      · exact .inl h
    · exact .inr (by omega)

/-- An aligned access lies in one granule. -/
theorem granule_of_aligned {a n k : Nat} (hn : n ∣ 32) (ha : a % n = 0) (h : a ≤ k ∧ k < a + n) : k / 32 = a / 32 := by
  obtain ⟨m, hm⟩ := hn
  obtain ⟨q, rfl⟩ := Nat.dvd_of_mod_eq_zero ha
  have hpos : 0 < n := Nat.pos_of_ne_zero fun e => by omega
  obtain ⟨r, hr⟩ : ∃ r, k = n * q + r := ⟨k - n * q, by omega⟩
  have h1 : k / n = q := by rw [hr, Nat.mul_add_div hpos, Nat.div_eq_of_lt (by omega), Nat.add_zero]
  have h2 : n * q / n = q := Nat.mul_div_cancel_left q hpos
  rw [hm, ← Nat.div_div_eq_div_mul, ← Nat.div_div_eq_div_mul, h1, h2]

theorem granulesOf_psbEnter_subset {psb : FMap Byte} {a n : Nat} {l : List Byte} (hl : l.length = n) (hn : n ∣ 32) (ha : a % n = 0) :
    granulesOf (psbEnter psb a l) ⊆ a / 32 :: granulesOf psb := by
  intro g hg
  obtain ⟨c, hc, rfl⟩ := mem_granulesOf.1 hg
  rcases mem_psbEnter hc with hc | hc
  · exact List.mem_cons_of_mem _ (mem_granulesOf.2 ⟨c, hc, rfl⟩)
  · rw [hl] at hc
    exact List.mem_cons.2 (.inl (granule_of_aligned hn ha hc))

/-- What is entered takes no more granules than there were, or room for one more is needed. -/
theorem length_granulesOf_psbEnter {psb : FMap Byte} {a n m : Nat} {l : List Byte} (hl : l.length = n) (hn : n ∣ 32) (ha : a % n = 0)
    (hm : (granulesOf psb).length ≤ m) (hr : (granulesOf psb).contains (a / 32) = true ∨ (granulesOf psb).length < m) :
    (granulesOf (psbEnter psb a l)).length ≤ m := by
  have hs := granulesOf_psbEnter_subset (psb := psb) hl hn ha
  rcases hr with hc | hlt
  · have hc : a / 32 ∈ granulesOf psb := by simpa using hc
    have hs' : granulesOf (psbEnter psb a l) ⊆ granulesOf psb := fun g hg => (List.mem_cons.1 (hs hg)).elim (· ▸ hc) id
    exact (List.subperm_of_subset (nodup_granulesOf _) hs').length_le.trans hm
  · exact (List.subperm_of_subset (nodup_granulesOf _) hs).length_le.trans hlt

/-! ### A trap keeps the buffer of a member, or empties it as it fails the task (R142, R358) -/

/-- The phase store buffers of `s` are those of `b`, or are empty, and the tile in focus is the same. It speaks of these fields only, as
State.Good does of its own. -/
def State.BuffersKept (b s : State) : Prop := s.cur = b.cur ∧ ∀ u, (s.tile u).psb = (b.tile u).psb ∨ (s.tile u).psb = []

section
variable {b s : State}

theorem State.BuffersKept.refl (b : State) : b.BuffersKept b := ⟨rfl, fun _ => .inl rfl⟩

theorem State.BuffersKept.ite {c : Prop} [Decidable c] {t : State} (hs : b.BuffersKept s) (ht : b.BuffersKept t) :
    b.BuffersKept (if c then s else t) := by
  split
  · exact hs
  · exact ht

theorem State.BuffersKept.foldl {α : Type} {l : List α} {f : State → α → State} (h : b.BuffersKept s)
    (hf : ∀ {s a}, b.BuffersKept s → b.BuffersKept (f s a)) : b.BuffersKept (l.foldl f s) := by
  induction l generalizing s with
  | nil => exact h
  | cons a t ih => exact ih (hf h)

theorem State.BuffersKept.setTile {t : Nat} {x : Tile} (h : b.BuffersKept s) (hx : x.psb = (s.tile t).psb ∨ x.psb = []) :
    b.BuffersKept (s.setTile t x) := by
  refine ⟨h.1, fun u => ?_⟩
  by_cases hu : u = t
  · subst hu
    rw [State.tile_setTile_same]
    exact hx.elim (fun e => e ▸ h.2 u) .inr
  · rw [State.tile_setTile_ne _ _ hu]
    exact h.2 u
theorem State.BuffersKept.modTile {t : Nat} {f : Tile → Tile} (h : b.BuffersKept s) (hf : ∀ x, (f x).psb = x.psb ∨ (f x).psb = []) :
    b.BuffersKept (s.modTile t f) := h.setTile (hf _)

theorem State.BuffersKept.modCtx {c : Nat} {f : Ctx → Ctx} (h : b.BuffersKept s) : b.BuffersKept (s.modCtx c f) := h
theorem State.BuffersKept.freeFrames {c : Nat} {l : List Nat} (h : b.BuffersKept s) : b.BuffersKept (s.freeFrames c l) := h
theorem State.BuffersKept.forgetShadows {a : Nat} (h : b.BuffersKept s) : b.BuffersKept ((s.discardShadows a).forgetWrites a) := h
theorem State.BuffersKept.sendSpan {p : Nat} {q : SpanReq} (h : b.BuffersKept s) : b.BuffersKept (s.sendSpan p q) := h
theorem State.BuffersKept.invalidate {c lo n : Nat} (h : b.BuffersKept s) : b.BuffersKept (s.invalidate c lo n) := h
theorem State.BuffersKept.store {k n v : Nat} (h : b.BuffersKept s) : b.BuffersKept (s.store k n v) := h
theorem State.BuffersKept.modBuf {a : Nat} {f : Buf → Buf} (h : b.BuffersKept s) : b.BuffersKept (s.modBuf a f) := h
theorem State.BuffersKept.storeWords {k : Nat} {l : List Nat} (h : b.BuffersKept s) : b.BuffersKept (s.storeWords k l) := by
  induction l generalizing s k with
  | nil => exact h
  | cons a l ih => exact ih h.store
theorem State.BuffersKept.post {c code cause x y : Nat} (h : b.BuffersKept s) : b.BuffersKept (s.post c code cause x y) := by
  unfold State.post
  exact .ite (.modCtx h.storeWords) h.modCtx
theorem State.BuffersKept.unmapPages {c vpn n : Nat} (h : b.BuffersKept s) : b.BuffersKept (s.unmapPages c vpn n) := by
  induction n generalizing s vpn with
  | zero => exact h
  | succ n ih => exact ih (by split; exacts [.ite (.store (.ite h.freeFrames h)) h, h])
theorem State.BuffersKept.releaseFrame {c : Nat} {o : OldLeaf} (h : b.BuffersKept s) : b.BuffersKept (s.releaseFrame c o) := by
  unfold State.releaseFrame
  exact .ite h h.post
theorem State.BuffersKept.releaseUnread {a : Nat} {views : List Nat} (h : b.BuffersKept s) : b.BuffersKept (s.releaseUnread a views) :=
  .foldl (s := s.setBuf a _) h fun h => h.releaseFrame
theorem State.BuffersKept.leavePool {c vpn n : Nat} (h : b.BuffersKept s) : b.BuffersKept (s.leavePool c vpn n) := by
  induction n generalizing s vpn with
  | zero => exact h
  | succ n ih => exact ih (by split; exacts [.ite h h, h])
theorem State.BuffersKept.settle {a : Nat} (h : b.BuffersKept s) : b.BuffersKept (s.settle a) := by
  unfold State.settle
  have h1 : b.BuffersKept (((s.discardShadows a).forgetWrites a).releaseUnread a (s.outerViews a)) :=
    h.forgetShadows.releaseUnread
  refine .ite h (.ite (.modBuf ?_) (.ite h h.forgetShadows))
  split
  · exact h1.sendSpan
  · exact .ite h1.unmapPages.invalidate h1.leavePool.post
theorem State.BuffersKept.dropRef {a : Nat} (h : b.BuffersKept s) : b.BuffersKept (s.dropRef a) := .settle h.modBuf
theorem State.BuffersKept.dropRefs {l : List Word} (h : b.BuffersKept s) : b.BuffersKept (s.dropRefs l) := by
  induction l generalizing s with
  | nil => exact h
  | cons a l ih => exact ih (.ite h h.dropRef)
theorem State.BuffersKept.endBinds {born no : Nat} {l : List Word} (h : b.BuffersKept s) : b.BuffersKept (s.endBinds born no l) :=
  h.foldl fun h => by split; exacts [h, h]
theorem State.BuffersKept.endRefs {c : Cmd} (h : b.BuffersKept s) : b.BuffersKept (s.endRefs c) :=
  .foldl h.endBinds.dropRefs fun h => h.releaseUnread

theorem Tile.psb_reply (x : Tile) (w : Word) : (x.reply w).psb = x.psb := by unfold Tile.reply; split <;> rfl
theorem Tile.psb_replyIf (p : Prop) [Decidable p] (x : Tile) (w : Word) : (if p then x.reply w else x).psb = x.psb := by
  split
  · exact Tile.psb_reply x w
  · rfl
theorem Tile.psb_setCengine (x : Tile) (e : CEng) (g : CmdEngine) : (x.setCengine e g).psb = x.psb := by cases e <;> rfl
theorem Tile.psb_foldl {α : Type} {f : Tile → α → Tile} (hf : ∀ x a, (f x a).psb = x.psb) (l : List α) (x : Tile) :
    (l.foldl f x).psb = x.psb := by
  induction l generalizing x with
  | nil => rfl
  | cons a l ih => exact (ih _).trans (hf x a)

theorem State.BuffersKept.discardCmds {t : Nat} {e : CEng} (h : b.BuffersKept s) : b.BuffersKept (s.discardCmds t e) := by
  unfold State.discardCmds
  refine .foldl (.modTile h fun x => .inl ((Tile.psb_foldl (fun x c => ?_) _ _).trans (Tile.psb_setCengine ..))) fun h => h.endRefs
  split
  · exact Tile.psb_replyIf ..
  · exact Tile.psb_replyIf ..
theorem State.BuffersKept.dropSlots {t : Nat} (h : b.BuffersKept s) : b.BuffersKept (s.dropSlots t) :=
  .dropRefs (h.modTile fun _ => .inl rfl)
theorem State.BuffersKept.stopMember {t : Nat} (h : b.BuffersKept s) : b.BuffersKept (s.stopMember t) := by
  unfold State.stopMember
  exact .ite (h.modTile fun _ => .inl rfl) (.dropSlots (.discardCmds (.discardCmds (h.modTile fun _ => .inr rfl))))
theorem State.BuffersKept.modNode {n : Nat} {f : Node → Node} (h : b.BuffersKept s) : b.BuffersKept (s.modNode n f) := by
  unfold State.modNode
  split
  · exact h
  · exact h
theorem State.BuffersKept.fail {t cause : Nat} {tval : Word} (h : b.BuffersKept s) : b.BuffersKept (s.fail t cause tval) := by
  unfold State.fail
  split
  · exact .modNode (h.foldl fun h => h.stopMember)
  · exact h.stopMember
theorem State.BuffersKept.trap {cause : Nat} {tval : Word} (h : b.BuffersKept s) : b.BuffersKept (s.trap cause tval) := by
  unfold State.trap State.take
  exact .ite h.fail (h.setTile (.inl rfl))

end

/-! ### O7 -/

theorem length_granulesOf_trap {s : State} {m cause : Nat} {tval : Word} (h : (granulesOf s.here.psb).length ≤ m) :
    (granulesOf (s.trap cause tval).here.psb).length ≤ m := by
  obtain ⟨hc, hp⟩ := (State.BuffersKept.refl s).trap (cause := cause) (tval := tval)
  unfold State.here
  rw [hc]
  rcases hp s.cur with e | e
  · exact e ▸ h
  · rw [e]; exact Nat.zero_le m

theorem sizeBytes_dvd (size : BitVec 2) : sizeBytes size ∣ 32 := by revert size; decide

/-- What R18's checks let pass is aligned. -/
theorem State.aligned_of_near {s : State} {c n : Nat} {a : Word} (h : ∀ k, s.near c a n ≠ .bad k) : a.toNat % n = 0 := by
  by_contra ha
  refine h (if 2 ^ 33 ≤ a.toNat then 0x03 else 0x02) ?_
  unfold State.near
  split
  · rfl
  · rfl

section
variable (s : State) (d base : BitVec 5) (size : BitVec 2) (off : BitVec 13)

/-- An st of a good address: it is refused where it needs a granule that a full buffer has not, and enters its bytes otherwise. -/
theorem exec_st (h : ∀ k, s.near s.here.ctx (memAddr s.here base off) (sizeBytes size) ≠ .bad k) :
    exec (.st d base size off) s = .next (
      if (granulesOf s.here.psb).contains ((memAddr s.here base off).toNat / 32) = false ∧ 512 ≤ (granulesOf s.here.psb).length then
        s.trap 0x18 (memAddr s.here base off)
      else s.setHere { s.here with
        psb := psbEnter s.here.psb (memAddr s.here base off).toNat (leBytes (s.here.rd d).toNat (sizeBytes size)) }.adv) := by
  change execSt d base size off s = _
  unfold execSt
  dsimp only
  split
  · next k e => exact absurd e (h k)
  · exact congrArg Host.Outcome.next (if_congr (by simp only [Bool.and_eq_true, Bool.not_eq_true', decide_eq_true_eq]; rfl) rfl rfl)

end

/-- Settles O7: the bytes of an aligned store lie in one granule, for which there is room or which is refused; a trap keeps the buffer
or empties it. -/
theorem fullBufferRefusesAStore : Obligations.FullBufferRefusesAStore := by
  intro s d base size off a
  refine ⟨fun hm t ht => ?_, fun hc hn hg hf => ?_⟩
  · by_cases hn : ∀ k, s.near s.here.ctx (memAddr s.here base off) (sizeBytes size) ≠ .bad k
    · rw [exec_st s d base size off hn] at ht
      obtain rfl := Host.Outcome.next.inj ht
      split
      · exact length_granulesOf_trap hm
      · next hr =>
        rw [State.here_setHere]
        refine length_granulesOf_psbEnter (leBytes_length ..) (sizeBytes_dvd size) (State.aligned_of_near hn) hm ?_
        by_cases hc : (granulesOf s.here.psb).contains ((memAddr s.here base off).toNat / 32) = true
        · exact .inl hc
        · exact .inr (Nat.not_le.1 fun h => hr ⟨Bool.not_eq_true _ ▸ hc, h⟩)
    · obtain ⟨k, hk⟩ := not_forall.1 hn
      have e : exec (.st d base size off) s = .next (s.trap k (memAddr s.here base off)) := by
        change execSt d base size off s = _
        simp only [execSt, not_not.1 hk]
      obtain rfl := Host.Outcome.next.inj (e.symm.trans ht)
      exact length_granulesOf_trap hm
  · exact ⟨_, (exec_st s d base size off hn).trans (congrArg Host.Outcome.next (if_pos ⟨hg, hf⟩)), trapped_trap hc 0x18 a⟩

end Sys2Proof.Machine
end

