-- ==== Sys2Proof/Proofs/Atomics.lean ====
section
/-! Atomics (R82 to R84): O9. -/

namespace Sys2Proof.Machine

/-- What a store of bytes leaves in memory. -/
theorem stored_of_mem {s t : State} {k : Nat} {l : List Byte} (h : s.memOk) (ht : t.mem = Mem.store s.mem k l) : Stored s t k l := by
  refine ⟨fun i hi => ?_, fun j hj => ?_⟩
  · rw [ht, Mem.get_store h, if_pos (by omega), Nat.add_sub_cancel_left]
  · rw [ht, Mem.get_store h, if_neg (by omega)]

/-! ### The values of an atomic (R83) -/

theorem asSigned_eq (w v : Nat) : (if (2 : Int) ^ (w - 1) ≤ (v : Int) then (v : Int) - 2 ^ w else (v : Int)) = asSigned w v := by
  have hc : (2 : Int) ^ (w - 1) ≤ (v : Int) ↔ 2 ^ (w - 1) ≤ v := by norm_cast
  unfold asSigned
  by_cases h : v < 2 ^ (w - 1)
  · rw [if_pos h, if_neg (mt hc.1 (Nat.not_le.2 h))]
  · rw [if_neg h, if_pos (hc.2 (Nat.not_lt.1 h))]

theorem amoNew_min (w old x y : Nat) : amoNew 4 w old x y = some (if asSigned w old ≤ asSigned w x then old else x) := by
  rw [← asSigned_eq, ← asSigned_eq]
  rfl

theorem amoNew_max (w old x y : Nat) : amoNew 5 w old x y = some (if asSigned w old ≤ asSigned w x then x else old) := by
  rw [← asSigned_eq, ← asSigned_eq]
  rfl

/-! ### An atomic at home and away (R82, R84) -/

section
variable {s : State} {d a b : BitVec 5} {ord : BitVec 2} {size : BitVec 1} {u o op n w new : Nat} {i : Instr}

/-- Nothing that R84 places before an atomic of these orders is under way. -/
def State.amoMay (s : State) (ord : BitVec 2) : Prop :=
  s.here.acquires = false ∧ (ord.getLsbD 1 = true → s.accesses s.cur = [] ∧ s.here.reads = [])

theorem State.amoMay.released (h : s.amoMay ord) :
    (ord.getLsbD 1 && !((s.accesses s.cur).isEmpty && s.here.reads.isEmpty)) = false := by
  cases hr : ord.getLsbD 1 with
  | false => rfl
  | true =>
    obtain ⟨ha, hb⟩ := h.2 hr
    rw [ha, hb]
    rfl

/-- The request of an atomic. -/
def State.amoReq (s : State) (d b : BitVec 5) (op : Nat) : AmoReq := { op := op, b := (s.here.rd b).toNat, d := (s.here.rd d).toNat }

theorem amo_home (hm : s.amoMay ord) (hz : 4 * (size.toNat + 1) = n) (hn : s.near s.here.ctx (s.here.rd a) n = .ok s.cur o)
    (hh : s.atHome o n false) : amo op d a b ord size s = .next
      ((((s.accessed o n).performAmo (nearKey s.cur o) n (s.amoReq d b op)).1).retire d (BitVec.ofNat 64 (s.load (nearKey s.cur o) n))) := by
  obtain ⟨h1, h2⟩ := hh
  unfold amo
  simp only [hz, hm.1, hn, h1, h2, hm.released, Bool.false_eq_true, if_false, if_true]
  rfl

theorem amo_away (hm : s.amoMay ord) (hz : 4 * (size.toNat + 1) = n) (hn : s.near s.here.ctx (s.here.rd a) n = .ok u o)
    (hh : s.atOnce u o n false = false) : amo op d a b ord size s = .next
      (s.sendRead { packetTo s 0 s.cur u o (bytesOf 0 n) with amo := some (s.amoReq d b op) }
        { txid := s.here.nextTx, d := d, home := u, bytes := n, acq := ord.getLsbD 0 }) := by
  unfold amo
  simp only [hz, hm.1, hn, hh, hm.released, Bool.false_eq_true, if_false, bytesOf_eq]
  rfl

/-- What the read, change and write of an atomic does. -/
theorem performAmo_of_some {t : State} {k : Nat} {r : AmoReq}
    (h : amoNew r.op (8 * n) (t.load k n) (r.b % 2 ^ (8 * n)) (r.d % 2 ^ (8 * n)) = some new) :
    (t.performAmo k n r).1 = t.store k n new := by
  unfold State.performAmo
  dsimp only
  rw [h]

theorem performAmo_of_none {t : State} {k : Nat} {r : AmoReq}
    (h : amoNew r.op (8 * n) (t.load k n) (r.b % 2 ^ (8 * n)) (r.d % 2 ^ (8 * n)) = none) : (t.performAmo k n r).1 = t := by
  unfold State.performAmo
  dsimp only
  rw [h]

/-- An atomic performed at once that writes. -/
theorem completes_amo_of_some (hmem : s.memOk) (hm : s.amoMay ord) (hz : 4 * (size.toNat + 1) = n) (hw : 8 * n = w)
    (hn : s.near s.here.ctx (s.here.rd a) n = .ok s.cur o) (hh : s.atHome o n false) (hi : exec i s = amo op d a b ord size s)
    (h : amoNew op w (s.load (nearKey s.cur o) n) ((s.here.rd b).toNat % 2 ^ w) ((s.here.rd d).toNat % 2 ^ w) = some new) :
    Completes i s (fun t => Stored s t (nearKey s.cur o) (bytesOf new n)
      ∧ Wrote { s.accessed o n with mem := t.mem } t d (BitVec.ofNat 64 (s.load (nearKey s.cur o) n))) := by
  subst hw
  have hp := performAmo_of_some (t := s.accessed o n) (k := nearKey s.cur o) (r := s.amoReq d b op) h
  refine ⟨_, hi.trans (amo_home hm hz hn hh), ?_⟩
  rw [hp]
  exact ⟨bytesOf_eq new n ▸ stored_of_mem hmem rfl, wrote_retire ..⟩

/-- An atomic performed at once that writes nothing. -/
theorem completes_amo_of_none (hm : s.amoMay ord) (hz : 4 * (size.toNat + 1) = n) (hw : 8 * n = w)
    (hn : s.near s.here.ctx (s.here.rd a) n = .ok s.cur o) (hh : s.atHome o n false) (hi : exec i s = amo op d a b ord size s)
    (h : amoNew op w (s.load (nearKey s.cur o) n) ((s.here.rd b).toNat % 2 ^ w) ((s.here.rd d).toNat % 2 ^ w) = none) :
    Completes i s (fun t => Wrote (s.accessed o n) t d (BitVec.ofNat 64 (s.load (nearKey s.cur o) n))) := by
  subst hw
  have hp := performAmo_of_none (t := s.accessed o n) (k := nearKey s.cur o) (r := s.amoReq d b op) h
  refine ⟨_, hi.trans (amo_home hm hz hn hh), ?_⟩
  rw [hp]
  exact wrote_retire ..

end

/-! ### O9 -/

/-- The bytes and bits of an atomic's size (R82). -/
theorem amoBits_eq (size : BitVec 1) :
    4 * (size.toNat + 1) = (if size = 0 then 32 else 64) / 8 ∧ 8 * ((if size = 0 then 32 else 64) / 8) = if size = 0 then 32 else 64 := by
  revert size; decide

/-- Settles O9: an atomic performed at once stores what its operation makes of the old value, and any other sends its operands. -/
theorem atomicResults : Obligations.AtomicResults := by
  intro s d a b ord size u o hmem hacq hord w sends
  have hm : s.amoMay ord := ⟨hacq, hord⟩
  obtain ⟨hz, hw⟩ : 4 * (size.toNat + 1) = w / 8 ∧ 8 * (w / 8) = w := amoBits_eq size
  refine ⟨fun hn hh => ?_, fun hn hh => ?_⟩
  · have hs : ∀ {i op}, exec i s = amo op d a b ord size s → sends i op := fun hi =>
      ⟨_, hi.trans (amo_away hm hz hn hh), sentRead_sendRead ..⟩
    exact ⟨hs rfl, hs rfl, hs rfl, hs rfl, hs rfl, hs rfl, hs rfl, hs rfl, hs rfl, hs rfl⟩
  · intro k old x s1 does
    have hd : ∀ {i op new}, exec i s = amo op d a b ord size s → amoNew op w old x ((s.here.rd d).toNat % 2 ^ w) = some new →
        does i new := fun hi h => completes_amo_of_some hmem hm hz hw hn hh hi h
    exact ⟨hd rfl rfl, hd rfl rfl, hd rfl rfl, hd rfl rfl, hd rfl (amoNew_min ..), hd rfl (amoNew_max ..), hd rfl rfl, hd rfl rfl,
      hd rfl rfl, fun hc => hd (op := 9) rfl (if_pos hc), fun hc => completes_amo_of_none hm hz hw hn hh (op := 9) rfl (if_neg hc)⟩

end Sys2Proof.Machine
end

