-- ==== Sys2Proof/Proofs/Stores.lean ====
section
/-! Exposed stores and descriptors (R78, R85), the template aperture (R197), and with the st of R75 all stores: O8. -/

namespace Sys2Proof.Machine

/-! ### Offsets of a near address (R16, R18) -/

theorem State.off_of_near {s : State} {c n u o : Nat} {a : Word} (h : s.near c a n = .ok u o) : o = a.toNat % Config.windowSize := by
  unfold State.near State.findNear at h
  split at h
  · cases h
  · split at h
    · cases h
    · dsimp only at h
      split at h
      · cases h
      · split at h
        · cases h
        · split at h
          · cases h
          · injection h with _ h
            exact h.symm

theorem State.ownNear_ok {s : State} {t n o : Nat} {a : Word} (h : s.ownNear t a n = .ok o) :
    a.toNat % n = 0 ∧ a.toNat / Config.windowSize = (s.tile t).vtile ∧ o = a.toNat % Config.windowSize := by
  unfold State.ownNear at h
  dsimp only at h
  split at h
  · cases h
  · split at h
    · cases h
    · next ha =>
      split at h
      · cases h
      · next hv =>
        split at h
        · cases h
        · injection h with h
          exact ⟨not_not.1 ha, not_not.1 hv, h.symm⟩

/-! ### Exposed accesses (R78, R85) -/

/-- The packet `p` is sent and the tile goes on (R78). -/
def SentWrite (s t : State) (p : Packet) : Prop :=
  t.net = s.net ++ [p] ∧ SameMem s t ∧ OtherTiles s t
    ∧ t.here = { s.here with nextTx := s.here.nextTx + 1, pc := s.here.pc + 4 } ∧ { t with tiles := s.tiles, net := s.net } = s

theorem sentWrite_send (s : State) (p : Packet) : SentWrite s (s.send p).nextPc p := by
  refine ⟨rfl, fun _ => rfl, fun u hu => ?_, ?_, rfl⟩
  · exact (State.tile_setHere_ne (s.send p) _ hu).trans (State.send_tile_ne s p hu)
  · simp [State.nextPc, State.send, Tile.adv]

/-- The current tile once its access to its own slice has taken its banks and it has gone on (R12, R349). -/
def State.wentOn (s : State) (o n : Nat) : Tile := { (s.accessed o n).here with pc := s.here.pc + 4 }

theorem here_accessed (s : State) (o n : Nat) : (s.accessed o n).here = s.here.useBanks 1 o n := by
  simp [State.here, State.touch]

theorem here_nextPc_of_accessed {s t : State} {o n : Nat} (hc : t.cur = s.cur) (ht : t.tiles = (s.accessed o n).tiles) :
    t.nextPc.here = s.wentOn o n := by
  have h : t.here = (s.accessed o n).here := by unfold State.here State.tile; rw [ht, hc]; rfl
  unfold State.nextPc State.wentOn
  rw [State.here_setHere, h, here_accessed]
  rfl

theorem otherTiles_nextPc_of_accessed {s t : State} {o n : Nat} (hc : t.cur = s.cur) (ht : t.tiles = (s.accessed o n).tiles) :
    OtherTiles s t.nextPc := by
  intro u hu
  have h : t.tile u = (s.accessed o n).tile u := by unfold State.tile; rw [ht]
  exact (State.tile_setHere_ne t _ (hc ▸ hu)).trans (h.trans (State.touch_tile_ne s 1 o n hu))

section
variable {s : State} {u o n : Nat} {a : Word} {f : State → Nat → State} {p : Nat → Nat → Packet}

theorem exposedWrite_home (hn : s.near s.here.ctx a n = .ok s.cur o) (hh : s.atHome o n false) :
    exposedWrite s a n f p = (f (s.accessed o n) (nearKey s.cur o)).nextPc := by
  obtain ⟨h1, h2⟩ := hh
  simp only [exposedWrite, hn, h1, h2, Bool.false_eq_true, if_false, if_true]

theorem exposedWrite_away (hn : s.near s.here.ctx a n = .ok u o) (hh : s.atOnce u o n false = false) :
    exposedWrite s a n f p = (s.send (p u o)).nextPc := by
  simp only [exposedWrite, hn, hh, Bool.false_eq_true, if_false]

theorem exposedWrite_wait {m : VTile} (hn : s.near s.here.ctx a n = .wait)
    (hm : FMap.get? (s.ctxAt s.here.ctx).tmap (a.toNat / Config.windowSize) = some m) : exposedWrite s a n f p
      = (s.send { p m.phys (a.toNat % Config.windowSize) with vt := some (a.toNat / Config.windowSize) }).nextPc := by
  simp only [exposedWrite, hn, hm]
  rfl

end

/-! ### Nothing but the current tile and memory -/

section
variable {s t : State}

theorem OnlyHereAndMem.refl (s : State) : OnlyHereAndMem s s := ⟨fun _ _ => rfl, rfl⟩

theorem OnlyHereAndMem.cur (h : OnlyHereAndMem s t) : t.cur = s.cur := (congrArg State.cur h.2 :)

theorem OnlyHereAndMem.dbc (h : OnlyHereAndMem s t) (u : Nat) : t.dbc u = s.dbc u := by
  have hd : t.dies = s.dies := (congrArg State.dies h.2 :)
  unfold State.dbc State.die
  rw [hd]

theorem OnlyHereAndMem.modTile {f : Tile → Tile} (h : OnlyHereAndMem s t) : OnlyHereAndMem s (t.modTile s.cur f) := by
  obtain ⟨ho, he⟩ := h
  exact ⟨fun u hu => (State.tile_modTile_ne t f hu).trans (ho u hu), he⟩

theorem OnlyHereAndMem.touch {rank o n : Nat} (h : OnlyHereAndMem s t) : OnlyHereAndMem s (t.touch s.cur rank o n) := h.modTile

theorem OnlyHereAndMem.storeBytes {k : Nat} {l : List Byte} (h : OnlyHereAndMem s t) : OnlyHereAndMem s (t.storeBytes k l) := h

theorem OnlyHereAndMem.nextPc (h : OnlyHereAndMem s t) : OnlyHereAndMem s t.nextPc := by
  unfold State.nextPc State.setHere State.here
  rw [h.cur]
  exact h.modTile (f := Tile.adv)

end

/-! ### ste (R78, R197) -/

section
variable {s : State} {d base : BitVec 5} {size : BitVec 2} {off : BitVec 13}

/-- An ste that starts no template copy is an exposed store. -/
theorem exec_ste_of_no_template
    (h : (size = 3 → templateOf ((memAddr s.here base off).toNat % Config.windowSize) (s.here.rd d) = none)
      ∨ s.here.vtile ≠ (memAddr s.here base off).toNat / Config.windowSize) :
    exec (.ste d base size off) s = .next (storeExposed s (memAddr s.here base off) (sizeBytes size)
      (bytesOf (s.here.rd d).toNat (sizeBytes size))) := by
  change execSte d base size off s = _
  unfold execSte
  dsimp only
  rw [bytesOf_eq]
  split
  · next o i x ho ht =>
    exfalso
    rcases h with h | h
    · split at ht
      · next hz => rw [h hz] at ht; cases ht
      · cases ht
    · exact h (State.ownNear_ok ho).2.1.symm
  · rfl

end

/-! ### What the checks of a block let pass (R99) -/

/-- A check that does not refuse goes on to the next. -/
theorem Accept.of_ite {p : Prop} [Decidable p] {x y : Accept} {c : Cmd} (h : (if p then x else y) = .ok c) (hx : x ≠ .ok c) : y = .ok c := by
  split at h
  · exact absurd h hx
  · exact h

theorem State.checkBlock_ok {s : State} {t off : Nat} {e : CEng} {xb : Option Nat} {chain : Bool} {c : Cmd}
    (h : s.checkBlock t off e xb chain = .ok c) : c = s.blockAt t off e xb chain := by
  unfold State.checkBlock at h
  dsimp only at h
  replace h := Accept.of_ite h nofun
  split at h
  · cases h
  split at h
  · cases h
  split at h
  · cases h
  split at h
  · cases h
  replace h := Accept.of_ite (Accept.of_ite (Accept.of_ite h nofun) nofun) nofun
  split at h
  · exact (Accept.ok.inj h).symm
  · cases h

/-! ### The acceptance of a block (R99, R257, R336) -/

theorem State.markDirty_eq (c : Nat) : ∀ (l : List Nat) (s : State), ∃ m, s.markDirty c l = { s with mem := m }
  | [], s => ⟨s.mem, rfl⟩
  | vpn :: l, s => by
    unfold State.markDirty
    split
    · split
      · exact State.markDirty_eq c l s
      · exact State.markDirty_eq c l (s.orEntry _ 16)
    · exact State.markDirty_eq c l s

/-- One reference more to each buffer that a list names (R264). -/
def State.countRefs (s : State) (l : List Word) : State :=
  l.foldl (fun s h => s.modBuf (accOf h) fun b => { b with count := b.count + 1 }) s

theorem State.countRefs_eq (l : List Word) : ∀ s : State, ∃ b, s.countRefs l = { s with bufs := b } := by
  induction l with
  | nil => exact fun s => ⟨s.bufs, rfl⟩
  | cons h l ih => exact fun s => ih (s.modBuf (accOf h) fun b => { b with count := b.count + 1 })

/-- The tile that has accepted command `c` (R99, R101, R336). -/
def Tile.taking (x : Tile) (e : CEng) (c : Cmd) : Tile :=
  { (x.setCengine e { x.cengine e with cmds := (x.cengine e).cmds ++ [c] }).armXb c.xb with issueNo := x.issueNo + 1 }

theorem State.accept_unfold (s : State) (t : Nat) (e : CEng) (c : Cmd) :
    s.accept t e c =
      let r := (s.modTile t (·.taking e c)).countRefs c.refs
      { r.markDirty (r.tile t).ctx (s.destPages t c) with bound := r.bound.filter (fun g => decide (g ≠ r.bindTag t c.no)) } := rfl

/-- Of the tiles, an acceptance changes the one that accepts alone; the memory it changes where it marks pages dirty (R257). -/
theorem State.accept_eq (s : State) (t : Nat) (e : CEng) (c : Cmd) : ∃ mem bufs bound,
    s.accept t e c = { s.modTile t (·.taking e c) with mem := mem, bufs := bufs, bound := bound }
      ∧ (s.destPages t c = [] → mem = s.mem) := by
  obtain ⟨b, hb⟩ := State.countRefs_eq c.refs (s.modTile t (·.taking e c))
  rw [State.accept_unfold, hb]
  dsimp only
  by_cases hp : s.destPages t c = []
  · rw [hp]
    exact ⟨s.mem, b, _, rfl, fun _ => rfl⟩
  · obtain ⟨m, hm⟩ := State.markDirty_eq _ (s.destPages t c) { s.modTile t (·.taking e c) with bufs := b }
    rw [hm]
    exact ⟨m, b, _, rfl, fun h => absurd h hp⟩

theorem State.cur_accept (s : State) (t : Nat) (e : CEng) (c : Cmd) : (s.accept t e c).cur = s.cur := by
  obtain ⟨_, _, _, he, -⟩ := s.accept_eq t e c
  rw [he]
  rfl

theorem State.tile_accept_same (s : State) (t : Nat) (e : CEng) (c : Cmd) : (s.accept t e c).tile t = (s.tile t).taking e c := by
  obtain ⟨_, _, _, he, -⟩ := s.accept_eq t e c
  rw [he]
  exact s.tile_modTile_same t (·.taking e c)

theorem State.tile_accept_ne (s : State) {t u : Nat} (e : CEng) (c : Cmd) (h : u ≠ t) : (s.accept t e c).tile u = s.tile u := by
  obtain ⟨_, _, _, he, -⟩ := s.accept_eq t e c
  rw [he]
  exact s.tile_modTile_ne (·.taking e c) h

theorem State.mem_accept {s : State} {t : Nat} {e : CEng} {c : Cmd} (h : s.destPages t c = []) : (s.accept t e c).mem = s.mem := by
  obtain ⟨_, _, _, he, hm⟩ := s.accept_eq t e c
  rw [he]
  exact hm h

/-- What a destination covers is read off the tile's slots and the buffers. -/
theorem State.destPages_congr {s s' : State} {t : Nat} (c : Cmd) (hc : (s'.tile t).caps = (s.tile t).caps) (hb : s'.bufs = s.bufs) :
    s'.destPages t c = s.destPages t c := by
  unfold State.destPages State.farPages Tile.cap State.buf
  dsimp only
  rw [hc, hb]

/-! ### The template aperture (R197) -/

theorem templateOf_eq_some {o : Nat} {v : Word} {i x : Nat} (h : templateOf o v = some (i, x)) (ho : o % 8 = 0) :
    64 ≤ i ∧ i ≤ 12287 ∧ o = 0xF80 + 8 * x := by
  unfold templateOf at h
  split at h
  · next hc =>
    obtain ⟨rfl, rfl⟩ := Prod.mk.inj (Option.some.inj h)
    obtain ⟨h1, -, -, h4, h5⟩ := hc
    exact ⟨h4, h5, by omega⟩
  · cases h

section
variable {s : State} {d base : BitVec 5} {off : BitVec 13} {o i x : Nat} {r : Accept}

/-- The state in which the block of a template copy is accepted or its fault becomes pending: the store is performed. -/
def State.templateStored (s : State) (o i : Nat) (v : Word) : State :=
  (((s.storeBytes (nearKey s.cur o) (bytesOf v.toNat 8)).touch s.cur 1 o 8).touch s.cur 1 (64 * i) 64).nextPc

/-- An ste to the template aperture that nothing holds up. -/
theorem exec_ste_template (ho : s.ownNear s.cur (memAddr s.here base off) 8 = .ok o) (ht : templateOf o (s.here.rd d) = some (i, x))
    (hf : s.here.ce.cmds.length < 32) (hr : s.here.reads = []) (ha : ∀ q ∈ s.accesses s.cur, q.orders s.cur o 8 false = false)
    (h1 : s.stalls s.cur 1 o 8 = false) (h2 : s.stalls s.cur 1 (64 * i) 64 = false)
    (hc : (s.storeBytes (nearKey s.cur o) (bytesOf (s.here.rd d).toNat 8)).checkBlock s.cur (64 * i) .ce (some x) false = r)
    (hr' : r ≠ .stall) (hu : ∀ c, r ≠ .unbound c) :
    exec (.ste d base 3 off) s = .next (startTemplate (s.templateStored o i (s.here.rd d)) i r) := by
  have hfull : s.here.cengFull .ce = false := decide_eq_false (Nat.not_le.2 hf)
  have hord : (s.accesses s.cur).any (fun q => q.orders s.cur o 8 false) = false := by
    rw [List.any_eq_false]
    exact fun q hq => by simp [ha q hq]
  obtain ⟨-, -, hoff⟩ := State.ownNear_ok ho
  change execSte d base 3 off s = _
  unfold execSte
  dsimp only
  rw [show sizeBytes 3 = 8 from rfl, ho, if_pos rfl, ← hoff, ht]
  dsimp only
  rw [hfull, hr, hord, h1, h2, ← bytesOf_eq, hc]
  cases r with
  | stall => exact absurd rfl hr'
  | unbound c => exact absurd rfl (hu c)
  | ok c => rfl
  | trap k v => rfl
  | illegal => rfl

end

/-! ### What the template copy leaves (R101, R197, R336, R361) -/

/-- The tile once the store has taken its banks, the block's line those of its reading, and the tile has gone on. -/
def Tile.templated (x : Tile) (o i : Nat) : Tile :=
  { x with banks := ((x.useBanks 1 o 8).useBanks 1 (64 * i) 64).banks, pc := x.pc + 4 }

theorem Tile.templated_eq (x : Tile) (o i : Nat) : x.templated o i = ((x.useBanks 1 o 8).useBanks 1 (64 * i) 64).adv := by
  simp only [Tile.templated, Tile.useBanks, Tile.adv]

theorem tile_templateStored (s : State) (o i : Nat) (v : Word) : (s.templateStored o i v).tile s.cur = s.here.templated o i := by
  have h1 : ((s.storeBytes (nearKey s.cur o) (bytesOf v.toNat 8)).touch s.cur 1 o 8).tile s.cur = s.here.useBanks 1 o 8 :=
    State.tile_modTile_same ..
  have h2 := State.tile_modTile_same ((s.storeBytes (nearKey s.cur o) (bytesOf v.toNat 8)).touch s.cur 1 o 8) s.cur
    fun x => x.useBanks 1 (64 * i) 64
  rw [h1] at h2
  rw [Tile.templated_eq]
  exact (State.tile_setTile_same ..).trans (congrArg Tile.adv h2)

theorem onlyHereAndMem_templateStored (s : State) (o i : Nat) (v : Word) : OnlyHereAndMem s (s.templateStored o i v) :=
  (OnlyHereAndMem.refl s).storeBytes.touch.touch.nextPc

theorem mem_templateStored (s : State) (o i : Nat) (v : Word) :
    (s.templateStored o i v).mem = Mem.store s.mem (nearKey s.cur o) (bytesOf v.toNat 8) := rfl

theorem Tile.taking_ce {x : Tile} {c : Cmd} {n : Nat} (h : c.xb = some n) : x.taking .ce c = { x with
    ce := { x.ce with cmds := x.ce.cmds ++ [c] }, issueNo := x.issueNo + 1
    xb := FMap.set x.xb n { x.xbar n with pending := (x.xbar n).pending + 1 } } := by
  unfold Tile.taking
  rw [h]
  rfl

theorem mem_insertDelivery (d : Delivery) (l : List Delivery) : d ∈ insertDelivery d l := by
  induction l with
  | nil => exact List.mem_singleton_self d
  | cons h t ih =>
    unfold insertDelivery
    split
    · exact List.mem_cons_self
    · exact List.mem_cons_of_mem _ ih

/-- A fault of the CE becomes pending where none of it is (R361). -/
theorem Tile.fault_ce {x : Tile} {cause : Nat} {tval beat : Word} (h : ∀ f ∈ x.pend, f.source ≠ .ce) :
    x.fault .ce cause tval beat = { x with
      pend := insertDelivery { source := .ce, cause := cause, tval := tval, beat := beat } x.pend, evLatch := true
      ce := { x.ce with flt := true } } := by
  have hn : ¬ x.pend.any (fun d => decide (d.source = .ce)) = true := by simpa using h
  unfold Tile.fault
  rw [if_neg hn]
  simp [Source.rank, Tile.setFlt]

section
variable {s : State} {o i x : Nat} {v : Word} {r : Accept}

/-- What the acceptance behind the store leaves. -/
theorem accepted_startTemplate {t : State} {c : Cmd} (hm : s.memOk) (hx : c.xb = some x)
    (ht : t = (s.templateStored o i v).accept s.cur .ce c) :
    t.here.ce.cmds = s.here.ce.cmds ++ [c] ∧ t.here.pc = s.here.pc + 4 ∧ (∀ q, t.here.rd q = s.here.rd q)
      ∧ t.here.issueNo = s.here.issueNo + 1 ∧ t.here.psb = s.here.psb ∧ OtherTiles s t
      ∧ (∀ k, (t.here.xbar k).pending = (s.here.xbar k).pending + (if k = x then 1 else 0))
      ∧ (s.destPages s.cur c = [] → Stored s t (nearKey s.cur o) (bytesOf v.toNat 8)) := by
  have hcur : (s.templateStored o i v).cur = s.cur := rfl
  have hh : t.here = (s.here.templated o i).taking .ce c := by
    rw [State.here, ht, State.cur_accept, hcur, State.tile_accept_same, tile_templateStored]
  rw [hh, Tile.taking_ce hx]
  refine ⟨?_, ?_, fun q => ?_, ?_, ?_, fun u hu => ?_, fun k => ?_, fun hp => stored_of_mem hm ?_⟩
  · simp only [Tile.templated]
  · simp only [Tile.templated]
  · simp only [Tile.templated, Tile.rd]
  · simp only [Tile.templated]
  · simp only [Tile.templated]
  · rw [ht, State.tile_accept_ne _ .ce c hu]
    exact (onlyHereAndMem_templateStored s o i v).1 u hu
  · unfold Tile.xbar
    by_cases hk : k = x
    · subst hk
      simp only [if_true, FMap.getD_set_same, Tile.templated]
    · simp only [if_neg hk, FMap.getD_set_ne _ _ hk, Tile.templated, Nat.add_zero]
  · have hcaps : ((s.templateStored o i v).tile s.cur).caps = (s.tile s.cur).caps := by
      rw [tile_templateStored, Tile.templated]
      rfl
    rw [ht, State.mem_accept ((State.destPages_congr c hcaps rfl).trans hp), mem_templateStored]

theorem State.here_raise (s : State) (src : Source) (cause : Nat) (tval : Word) :
    (s.raise s.cur src cause tval).here = s.here.fault src cause tval (s.dbc s.cur) := State.tile_modTile_same ..

/-- What a fault behind the store leaves. -/
theorem faulted_raise {t : State} {k : Nat} {w : Word} (hm : s.memOk) (hp : ∀ f ∈ s.here.pend, f.source ≠ .ce)
    (ht : t = (s.templateStored o i v).raise s.cur .ce k w) :
    Stored s t (nearKey s.cur o) (bytesOf v.toNat 8)
      ∧ { source := .ce, cause := k, tval := w, beat := s.dbc s.cur } ∈ t.here.pend
      ∧ t.here.ce.cmds = s.here.ce.cmds ∧ t.here.ce.flt = true ∧ t.here.pc = s.here.pc + 4 ∧ OnlyHereAndMem s t := by
  have hp' : ∀ f ∈ (s.here.templated o i).pend, f.source ≠ .ce := by simpa only [Tile.templated] using hp
  have hX := onlyHereAndMem_templateStored s o i v
  have hh : t.here = (s.here.templated o i).fault .ce k w (s.dbc s.cur) := by
    rw [ht, ← hX.cur, State.here_raise, State.here, hX.cur, tile_templateStored, hX.dbc]
  rw [hh, Tile.fault_ce hp', ht]
  refine ⟨stored_of_mem hm (mem_templateStored s o i v), mem_insertDelivery _ _, ?_, ?_, ?_, hX.modTile⟩
  · simp only [Tile.templated]
  · rfl
  · simp only [Tile.templated]

/-- A block that passes is accepted behind the store. -/
theorem startTemplate_ok (s : State) (o i : Nat) (v : Word) (c : Cmd) :
    startTemplate (s.templateStored o i v) i (.ok c) = (s.templateStored o i v).accept s.cur .ce c := by
  rw [startTemplate, (onlyHereAndMem_templateStored s o i v).cur]

/-- A check that fails is delivered behind the store. -/
theorem startTemplate_of_fault {k : Nat} {w : Word} (o : Nat) (hk : r = .trap k w ∨ (r = .illegal ∧ k = 0x13 ∧ w = nearOf s.here.vtile (64 * i))) :
    startTemplate (s.templateStored o i v) i r = (s.templateStored o i v).raise s.cur .ce k w := by
  have hX := onlyHereAndMem_templateStored s o i v
  have hv : (s.templateStored o i v).here.vtile = s.here.vtile := by
    rw [State.here, hX.cur, tile_templateStored, Tile.templated]
  rcases hk with rfl | ⟨rfl, rfl, rfl⟩
  · rw [startTemplate, hX.cur]
  · rw [startTemplate, hX.cur, hv]

end

/-! ### dset and dget (R85) -/

section
variable {s : State} {a b d : BitVec 5} {u o : Nat}

theorem exec_dset (ha : s.here.acquires = false) : exec (.dset a b) s = .next (exposedWrite s (s.here.rd a) 1
    (fun t k => t.setDesc k ((s.here.rd b).setWidth 16))
    (fun t off => { packetTo s 1 s.cur t off (bytesOf (s.here.rd b).toNat 2) with isDesc := true })) := by
  change execDset a b s = _
  simp only [execDset, ha, Bool.false_eq_true, if_false, bytesOf_eq]

theorem exec_dget_home (ha : s.here.acquires = false) (hn : s.near s.here.ctx (s.here.rd a) 1 = .ok s.cur o) (hh : s.atHome o 1 false) :
    exec (.dget d a) s = .next ((s.accessed o 1).retire d (BitVec.ofNat 64 (s.descAt (nearKey s.cur o)).toNat)) := by
  obtain ⟨h1, h2⟩ := hh
  change execDget d a s = _
  simp only [execDget, ha, hn, h1, h2, Bool.false_eq_true, if_false, if_true]

theorem exec_dget_away (ha : s.here.acquires = false) (hn : s.near s.here.ctx (s.here.rd a) 1 = .ok u o) (hh : s.atOnce u o 1 false = false) :
    exec (.dget d a) s = .next (s.sendRead { packetTo s 0 s.cur u o (bytesOf 0 2) with isDesc := true }
      { txid := s.here.nextTx, d := d, home := u, bytes := 2 }) := by
  change execDget d a s = _
  simp only [execDget, ha, hn, hh, Bool.false_eq_true, if_false]
  rfl

end

/-! ### O8 -/

/-- The bytes of a stored word in the buffer. -/
theorem get?_psbEnter_leBytes (psb : FMap Byte) (a n k : Nat) (v : Word) : FMap.get? (psbEnter psb a (leBytes v.toNat n)) k =
    if a ≤ k ∧ k < a + n then some (byteOf v (k - a)) else FMap.get? psb k := by
  refine (get?_psbEnter k _ psb a).trans ?_
  rw [leBytes_length]
  refine if_ctx_congr Iff.rfl (fun hk => ?_) fun _ => rfl
  rw [leBytes_getD _ _ n (Nat.sub_lt_left_of_lt_add hk.1 hk.2)]
  rfl

/-- Settles O8: an st enters its bytes in the buffer, an exposed store or a descriptor access is made at home or sent, and a marked store
to the template aperture is followed by the checks of the block that it names. -/
theorem storeResults : Obligations.StoreResults := by
  refine ⟨fun s d base size off => ?_, fun s d a b base size off u o hfresh => ?_⟩
  · -- st (R75)
    intro a n hn hr
    have hno : ¬ ((granulesOf s.here.psb).contains (a.toNat / 32) = false ∧ 512 ≤ (granulesOf s.here.psb).length) := by
      rintro ⟨hc, hl⟩
      exact hr.elim (fun h => Bool.false_ne_true (hc.symm.trans h)) (Nat.not_lt.2 hl)
    refine ⟨_, (exec_st s d base size off hn).trans (congrArg Host.Outcome.next (if_neg hno)), fun k => ?_, ?_, ?_, onlyHere_setHere ..⟩
    · rw [State.here_setHere]
      exact get?_psbEnter_leBytes ..
    · rw [State.here_setHere]; rfl
    · rw [State.here_setHere]; rfl
  · intro addr n next line sent
    obtain ⟨-, -, -, hacq⟩ := hfresh
    refine ⟨fun hm hn hh ht => ?_, fun hn hh ht => ?_, fun m hn hm ht => ?_, fun i x r hm ho ht hf hr ha h1 h2 hc => ?_, fun hn hh => ⟨?_, ?_⟩,
      fun hn hh => ⟨?_, ?_⟩⟩
    · -- ste at home (R78, R84)
      have hoff := State.off_of_near hn
      refine ⟨_, (exec_ste_of_no_template (.inl fun hz => hoff ▸ ht hz)).trans (congrArg Host.Outcome.next (exposedWrite_home hn hh)), ?_⟩
      exact ⟨stored_of_mem hm rfl, here_nextPc_of_accessed rfl rfl, (OnlyHereAndMem.refl s).touch.storeBytes.nextPc⟩
    · -- ste sent
      have hoff := State.off_of_near hn
      exact ⟨_, (exec_ste_of_no_template (ht.imp_left fun h hz => hoff ▸ h hz)).trans (congrArg Host.Outcome.next (exposedWrite_away hn hh)),
        sentWrite_send ..⟩
    · -- ste held for a saved window (R370)
      exact ⟨_, (exec_ste_of_no_template ht).trans (congrArg Host.Outcome.next (exposedWrite_wait hn hm)), sentWrite_send ..⟩
    · -- a marked ste to the template aperture (R197)
      obtain ⟨hal, -, hoff⟩ := State.ownNear_ok ho
      obtain ⟨h64, hmax, hox⟩ := templateOf_eq_some ht (by rw [hoff]; simp only [Config.windowSize]; omega)
      refine ⟨h64, hmax, hox, fun c hok => ?_, fun k v hk hp => ?_⟩
      · subst hok
        have hx : c.xb = some x := congrArg Cmd.xb (State.checkBlock_ok hc)
        obtain ⟨hcmds, hpc, hrd, hno, hpsb, hot, hxb, hst⟩ := accepted_startTemplate (o := o) (i := i) (v := s.here.rd d) hm hx rfl
        have he := exec_ste_template ho ht hf hr ha h1 h2 hc nofun fun _ => nofun
        rw [startTemplate_ok] at he
        exact ⟨_, he, hcmds, hx, hpc, hrd, hno, hpsb, hot, hxb, hst⟩
      · have he := exec_ste_template ho ht hf hr ha h1 h2 hc (by rcases hk with rfl | ⟨rfl, -⟩ <;> nofun)
          fun c => by rcases hk with rfl | ⟨rfl, -⟩ <;> nofun
        rw [startTemplate_of_fault o hk] at he
        exact ⟨_, he, faulted_raise hm hp rfl⟩
    · -- dset at home (R85)
      refine ⟨_, (exec_dset hacq).trans (congrArg Host.Outcome.next (exposedWrite_home hn hh)), fun l => ?_, fun _ => rfl,
        here_nextPc_of_accessed rfl rfl, otherTiles_nextPc_of_accessed rfl rfl, rfl⟩
      by_cases hl : l = line
      · subst hl
        rw [if_pos rfl]
        exact FMap.get?_set_same ..
      · rw [if_neg hl]
        exact FMap.get?_set_ne _ _ hl
    · -- dget at home
      exact ⟨_, exec_dget_home hacq hn hh, wrote_retire ..⟩
    · -- dset sent
      exact ⟨_, (exec_dset hacq).trans (congrArg Host.Outcome.next (exposedWrite_away hn hh)), sentWrite_send ..⟩
    · -- dget sent
      exact ⟨_, exec_dget_away hacq hn hh, sentRead_sendRead ..⟩

end Sys2Proof.Machine
end

