-- ==== Sys2Proof/Proofs/Queues.lean ====
section
/-! ### A queue operation takes the banks of its element alone

`openQueue` touches the header and passes the element's access a state that has not touched it, so the header's bank is free for
another accessor on the same beat, where the statement has both accesses take their banks (R349). -/
namespace Sys2Proof.Machine

/-- The banks of the tile in focus that are taken once a word has executed. -/
def takenAfter : Res → List (Nat × Nat)
  | .next t => t.here.banks
  | _ => []

/-- The qpop of the queue with one element takes bank 33 for the element at 0x1020, and not bank 32 of the header at 0x1000. -/
theorem takenAfter_qpop_queue : takenAfter (exec (.qpop 3 4) (Tests.queue 0 1)) = [(33, 1)] := by decide +kernel

/-- The accesses to the header and to the element take two banks. -/
theorem banks_touch_header_element :
    (((Tests.queue 0 1).touch 0 1 0x1000 32).touch 0 1 (elemAt ((Tests.queue 0 1).load 0x1008 8) ((Tests.queue 0 1).load 0x1000 4))
      (qcwSize ((Tests.queue 0 1).load 0x1008 8))).here.banks = [(33, 1), (32, 1)] := by decide +kernel

/-- Refutes O23: with one element in the queue at 0x1000, a qpop leaves the bank of the header free. -/
theorem not_sequencerQueues : ¬ Obligations.SequencerQueues := by
  unfold Obligations.SequencerQueues
  intro h
  obtain ⟨-, -, hmem, hnear, hord, hok, hoff, hsize, -, -, hne⟩ := Tests.witness_SequencerQueues
  obtain ⟨-, -, hhead, -, helem⟩ := Tests.witness_SequencerQueues_accesses
  have helem' : (Tests.queue 0 1).stalls 0 1 (elemAt ((Tests.queue 0 1).load 0x1008 8) ((Tests.queue 0 1).load 0x1000 4))
      (qcwSize ((Tests.queue 0 1).load 0x1008 8)) = false := by decide +kernel
  obtain ⟨-, -, hpop⟩ := h (Tests.queue 0 1) 4 0 3 0 0x1000 hmem
  obtain ⟨t, ht, -, -, -, hrest, -⟩ := hpop ⟨hnear, hhead, hord, hok, hoff, hsize⟩ hne helem'
  have htaken : t.here.banks = [(33, 1)] := (congrArg takenAfter ht).symm.trans takenAfter_qpop_queue
  have hboth : t.here.banks = [(33, 1), (32, 1)] := (congrArg Tile.banks hrest).trans banks_touch_header_element
  simp [htaken] at hboth

end Sys2Proof.Machine
end

