-- ==== Sys2Proof/Proofs/Barriers.lean ====
section
/-! What the completion of a barrier performs and commits, tile by tile (R88, R89, R149): O12. -/

namespace Sys2Proof

theorem FMap.get?_of_mem {α : Type} {k : Nat} {v : α} : ∀ {m : FMap α}, m.Pairwise (fun a b => a.1 < b.1) → (k, v) ∈ m →
    FMap.get? m k = some v
  | (j, w) :: m, hm, h => by
    obtain ⟨hj, hm⟩ := List.pairwise_cons.1 hm
    rcases List.mem_cons.1 h with e | h
    · obtain ⟨rfl, rfl⟩ := Prod.mk.inj e
      exact if_pos rfl
    · have hlt : j < k := hj _ h
      exact (if_neg (by omega)).trans ((if_neg (by omega)).trans (FMap.get?_of_mem hm h))

end Sys2Proof

namespace Sys2Proof.Machine

/-! ### The members of a phase group (R86) -/

theorem State.tile_of_mem {s : State} {m : Nat × Tile} (hs : Rising s.tiles) (h : m ∈ s.tiles) : s.tile m.1 = m.2 := by
  unfold State.tile FMap.getD
  rw [FMap.get?_of_mem hs h]
  rfl

theorem State.group_sublist (s : State) (t k : Nat) : (s.group t k).Sublist s.tiles := by
  unfold State.group
  split
  · exact List.filter_sublist.trans List.filter_sublist
  · exact List.nil_sublist _

theorem insertRank_perm (m : Nat × Tile) : ∀ l, (insertRank m l).Perm (m :: l)
  | [] => .refl _
  | h :: r => by
    unfold insertRank
    split
    · exact .refl _
    · exact ((insertRank_perm m r).cons h).trans (.swap ..)

theorem foldr_insertRank_perm : ∀ l : List (Nat × Tile), (l.foldr insertRank []).Perm l
  | [] => .refl _
  | m :: l => (insertRank_perm m _).trans ((foldr_insertRank_perm l).cons m)

/-- The members of a barrier that have not ended, by rank. -/
def State.arrivals (s : State) (t k : Nat) : List (Nat × Tile) := ((s.group t k).foldr insertRank []).filter (fun m => !m.2.fin)

theorem State.mem_arrivals {s : State} {t k : Nat} {m : Nat × Tile} :
    m ∈ s.arrivals t k ↔ m ∈ (s.group t k).filter (fun m => !m.2.fin) :=
  ((foldr_insertRank_perm _).filter _).mem_iff

theorem State.tile_of_mem_arrivals {s : State} {t k : Nat} {m : Nat × Tile} (hs : Rising s.tiles) (h : m ∈ s.arrivals t k) :
    s.tile m.1 = m.2 :=
  State.tile_of_mem hs ((s.group_sublist t k).subset (List.mem_of_mem_filter (State.mem_arrivals.1 h)))

theorem State.nodup_arrivals {s : State} {t k : Nat} (hs : Rising s.tiles) : ((s.arrivals t k).map (·.1)).Nodup := by
  have hg : ((s.group t k).map (·.1)).Nodup := List.Pairwise.map _ (fun _ _ => Nat.ne_of_lt) (hs.sublist (s.group_sublist t k))
  have hp := (foldr_insertRank_perm (s.group t k)).map (·.1)
  exact (hp.nodup_iff.2 hg).sublist (List.filter_sublist.map _)

/-! ### The accesses that a barrier covers (R88 step 1) -/

/-- Accesses were performed: none was added, and only memory, descriptors and the packets under way are other than before. -/
def State.Performed (s t : State) : Prop :=
  (∀ p ∈ t.net, p.kind < 2 → p ∈ s.net) ∧ { t with mem := s.mem, desc := s.desc, net := s.net } = s

section
variable {s t u : State}

theorem State.Performed.refl (s : State) : s.Performed s := ⟨fun _ h _ => h, rfl⟩

theorem State.Performed.trans (h : s.Performed t) (h' : t.Performed u) : s.Performed u :=
  ⟨fun p hp hk => h.1 p (h'.1 p hp hk) hk,
    (congrArg (fun x : State => { x with mem := s.mem, desc := s.desc, net := s.net }) h'.2 : _).trans h.2⟩

theorem State.Performed.tiles (h : s.Performed t) : t.tiles = s.tiles := (congrArg State.tiles h.2 :)

theorem State.Performed.tile (h : s.Performed t) (v : Nat) : t.tile v = s.tile v := by unfold State.tile; rw [h.tiles]

theorem State.Performed.foldl {α : Type} {f : State → α → State} (hf : ∀ (s : State) (a : α), s.Performed (f s a)) (l : List α) (s : State) :
    s.Performed (l.foldl f s) := by
  induction l generalizing s with
  | nil => exact .refl s
  | cons a l ih => exact (hf s a).trans (ih _)

/-- An answer under way is no access. -/
theorem State.Performed.answer {p : Packet} (h : s.Performed t) (hp : 2 ≤ p.kind) : s.Performed { t with net := t.net ++ [p] } := by
  refine ⟨fun q hq hk => ?_, h.2⟩
  rcases List.mem_append.1 hq with hq | hq
  · exact h.1 q hq hk
  · obtain rfl := List.mem_singleton.1 hq
    omega

theorem performAmo_performed (s : State) (k n : Nat) (r : AmoReq) : s.Performed (s.performAmo k n r).1 := by
  unfold State.performAmo
  dsimp only
  split
  · exact .refl s
  · exact .refl s

theorem performAccess_performed (s : State) (p : Packet) : s.Performed (performAccess s p) := by
  unfold performAccess
  dsimp only
  split
  · have h : s.Performed (if p.isDesc then s.setDesc (nearKey p.dst p.addr) (BitVec.ofNat 16 (leNat p.data))
        else s.storeBytes (nearKey p.dst p.addr) p.data) := by
      split
      · exact .refl s
      · exact .refl s
    split
    · exact h
    · exact h.answer (Nat.le_of_ble_eq_true rfl)
  · split
    · exact (performAmo_performed ..).answer (Nat.le_of_ble_eq_true rfl)
    · exact (State.Performed.refl s).answer (Nat.le_of_ble_eq_true rfl)

end

section
variable (s : State) (t k : Nat)

/-- The net without the accesses that the barrier covers. -/
def State.uncovered : List Packet :=
  s.net.filter (fun p => !(decide (p.kind < 2 ∧ p.src = t) && (s.covered t k).any (fun q => decide (q.txid = p.txid))))

theorem performCovered_eq : s.performCovered t k = (s.covered t k).foldl performAccess { s with net := s.uncovered t k } := rfl

theorem performed_performCovered : s.Performed (s.performCovered t k) := by
  rw [performCovered_eq]
  have h : s.Performed { s with net := s.uncovered t k } := ⟨fun _ hp _ => List.mem_of_mem_filter hp, rfl⟩
  exact h.trans (.foldl performAccess_performed _ _)

end

/-- No exposed access or atomic that tile `t` issued before its arrival is under way. -/
def State.NoneCovered (s : State) (t : Nat) (a : Option (SyncKind × Nat)) : Prop :=
  ∀ p ∈ s.net, ∀ b, a = some b → ¬ (p.kind < 2 ∧ p.src = t ∧ p.plain = false ∧ p.txid < b.2)

theorem State.NoneCovered.of_performed {s s' : State} {t : Nat} {a : Option (SyncKind × Nat)} (h : s.NoneCovered t a)
    (hp : s.Performed s') : s'.NoneCovered t a :=
  fun p hm b hb ho => h p (hp.1 p hm ho.1) b hb ho

theorem noneCovered_performCovered (s : State) (t k : Nat) : (s.performCovered t k).NoneCovered t ((s.tile t).arrivalOf k) := by
  rw [performCovered_eq]
  refine State.NoneCovered.of_performed (fun p hp b hb ho => ?_) (.foldl performAccess_performed _ _)
  obtain ⟨hk, hsrc, hplain, htx⟩ := ho
  obtain ⟨hnet, hnot⟩ := List.mem_filter.1 hp
  have hc : p ∈ s.covered t k := by
    unfold State.covered State.accesses
    rw [hb]
    simp [hnet, Nat.le_of_lt_succ hk, hsrc, hplain, htx]
  have hany : (s.covered t k).any (fun q => decide (q.txid = p.txid)) = true := List.any_eq_true.2 ⟨p, hc, by simp⟩
  simp [hk, hsrc, hany] at hnot

theorem noneCovered_foldl {k : Nat} {s s' : State} {m : Nat × Tile} {l : List (Nat × Tile)} (hs : s.Performed s') (hm : m ∈ l) :
    (l.foldl (fun s m => s.performCovered m.1 k) s').NoneCovered m.1 ((s.tile m.1).arrivalOf k) := by
  induction l generalizing s' with
  | nil => cases hm
  | cons x l ih =>
    rcases List.mem_cons.1 hm with rfl | hm
    · have h := noneCovered_performCovered s' m.1 k
      rw [hs.tile] at h
      exact h.of_performed (.foldl (fun s (m : Nat × Tile) => performed_performCovered s m.1 k) _ _)
    · exact ih (hs.trans (performed_performCovered s' x.1 k)) hm

/-! ### The commit (R88 step 2, R349) -/

/-- Bytes were written and banks taken, and nothing else is other than before. -/
def State.OnlyMemAndBanks (s t : State) : Prop :=
  (∀ u, SameButBanks (s.tile u) (t.tile u)) ∧ { t with tiles := s.tiles, mem := s.mem } = s

theorem SameButBanks.trans {x y z : Tile} (h : SameButBanks x y) (h' : SameButBanks y z) : SameButBanks x z := by
  have e : { z with banks := x.banks } = { y with banks := x.banks } := congrArg (fun w : Tile => { w with banks := x.banks }) h'
  exact e.trans h

section
variable {s t u : State}

theorem State.OnlyMemAndBanks.refl (s : State) : s.OnlyMemAndBanks s := ⟨fun _ => rfl, rfl⟩

theorem State.OnlyMemAndBanks.trans (h : s.OnlyMemAndBanks t) (h' : t.OnlyMemAndBanks u) : s.OnlyMemAndBanks u :=
  ⟨fun v => (h.1 v).trans (h'.1 v), (congrArg (fun x : State => { x with tiles := s.tiles, mem := s.mem }) h'.2 : _).trans h.2⟩

theorem sameButBanks_touch (s : State) (t rank o n v : Nat) : SameButBanks (s.tile v) ((s.touch t rank o n).tile v) := by
  by_cases h : v = t
  · subst h
    unfold State.touch
    rw [State.tile_modTile_same]
    exact Tile.useBanks_rest ..
  · rw [State.touch_tile_ne _ _ _ _ h]
    rfl

/-- The state once byte `b` of tile `u`, at near address `a` of context `c`, is at its home. -/
def State.commitByte (s : State) (u c : Nat) (e : Nat × Byte) : State :=
  match s.findNear c (BitVec.ofNat 64 e.1) with
  | .ok t off => { s with mem := Mem.set s.mem (nearKey t off) e.2 }.touch t (rankAt u t) off 1
  | _ => s

theorem commitBytes_eq_foldl (u c : Nat) : ∀ (l : List (Nat × Byte)) (s : State), s.commitBytes u c l = l.foldl (fun s e => s.commitByte u c e) s
  | [], _ => rfl
  | (_, _) :: l, _ => by
    rw [State.commitBytes, commitBytes_eq_foldl u c l]
    rfl

theorem onlyMemAndBanks_commitByte (s : State) (u c : Nat) (e : Nat × Byte) : s.OnlyMemAndBanks (s.commitByte u c e) := by
  unfold State.commitByte
  split
  · exact ⟨fun v => sameButBanks_touch { s with mem := _ } _ _ _ _ v, rfl⟩
  · exact .refl s

theorem onlyMemAndBanks_commitBytes (u c : Nat) (l : List (Nat × Byte)) (s : State) : s.OnlyMemAndBanks (s.commitBytes u c l) := by
  rw [commitBytes_eq_foldl]
  induction l generalizing s with
  | nil => exact .refl s
  | cons e l ih => exact (onlyMemAndBanks_commitByte s u c e).trans (ih _)

end

/-- Tile `x` with the buffer `psb` is `y`, but for the banks. -/
abbrev Tile.CommitsTo (x : Tile) (psb : FMap Byte) (y : Tile) : Prop := SameButBanks { x with psb := psb } y

/-- A commit by tile `t` that leaves `f` of its buffer. -/
theorem commitsTo_modTile {s s' : State} {t : Nat} {f : FMap Byte → FMap Byte} (h : s.OnlyMemAndBanks s') (u : Nat) :
    (s.tile u).CommitsTo (if u = t then f (s.tile t).psb else (s.tile u).psb)
      ((s'.modTile t fun x => { x with psb := f x.psb }).tile u) := by
  by_cases e : u = t
  · subst e
    have hp : (s'.tile u).psb = (s.tile u).psb := (congrArg Tile.psb (h.1 u) :)
    rw [State.tile_modTile_same, if_pos rfl, hp]
    exact (congrArg (fun x : Tile => { x with psb := f (s.tile u).psb }) (h.1 u) :)
  · rw [State.tile_modTile_ne _ _ e, if_neg e]
    exact h.1 u

theorem commitsTo_commitPsb (s : State) (t u : Nat) :
    (s.tile u).CommitsTo (if u = t then [] else (s.tile u).psb) ((s.commitPsb t).tile u) :=
  commitsTo_modTile (f := fun _ => []) (onlyMemAndBanks_commitBytes ..) u

theorem commitsTo_commitGranule (s : State) (t g u : Nat) :
    (s.tile u).CommitsTo (if u = t then (s.tile t).psb.filter (fun b => decide (b.1 / 32 ≠ g)) else (s.tile u).psb)
      ((s.commitGranule t g).tile u) :=
  commitsTo_modTile (f := fun l => l.filter (fun b => decide (b.1 / 32 ≠ g))) (onlyMemAndBanks_commitBytes ..) u

theorem Tile.CommitsTo.trans {x y z : Tile} {p q : FMap Byte} (h : x.CommitsTo p y) (h' : y.CommitsTo q z) : x.CommitsTo q z := by
  have e : { z with banks := x.banks } = { y with psb := q, banks := x.banks } :=
    congrArg (fun w : Tile => { w with banks := x.banks }) h'
  have e' : { y with psb := q, banks := x.banks } = { x with psb := q } := congrArg (fun w : Tile => { w with psb := q }) h
  exact e.trans e'

theorem ite_mem_cons {α : Type} (u a : Nat) (l : List Nat) (p q : α) :
    (if u ∈ a :: l then p else q) = if u ∈ l then p else if u = a then p else q := by
  by_cases hl : u ∈ l
  · rw [if_pos hl, if_pos (List.mem_cons_of_mem _ hl)]
  · exact (if_congr (List.mem_cons.trans (or_iff_left hl)) rfl rfl).trans (if_neg hl).symm

/-- The commits of the members `l`. -/
theorem commitsTo_foldl_commitPsb (u : Nat) : ∀ (l : List (Nat × Tile)) (s : State),
    (s.tile u).CommitsTo (if u ∈ l.map (·.1) then [] else (s.tile u).psb) ((l.foldl (fun s m => s.commitPsb m.1) s).tile u)
  | [], _ => rfl
  | m :: l, s => by
    have h1 := commitsTo_commitPsb s m.1 u
    have hp : ((s.commitPsb m.1).tile u).psb = if u = m.1 then [] else (s.tile u).psb := (congrArg Tile.psb h1 :)
    have h := h1.trans (commitsTo_foldl_commitPsb u l (s.commitPsb m.1))
    rw [hp, ← ite_mem_cons] at h
    exact h

/-- Only memory and tiles are other than before. -/
def State.OnlyMemAndTiles (s t : State) : Prop := { t with tiles := s.tiles, mem := s.mem } = s

theorem State.OnlyMemAndTiles.trans {s t u : State} (h : s.OnlyMemAndTiles t) (h' : t.OnlyMemAndTiles u) : s.OnlyMemAndTiles u := by
  have e : { u with tiles := s.tiles, mem := s.mem } = { t with tiles := s.tiles, mem := s.mem } :=
    congrArg (fun x : State => { x with tiles := s.tiles, mem := s.mem }) h'
  exact e.trans h

theorem State.OnlyMemAndTiles.foldl {α : Type} {f : State → α → State} (hf : ∀ (s : State) (a : α), s.OnlyMemAndTiles (f s a))
    (l : List α) (s : State) : s.OnlyMemAndTiles (l.foldl f s) := by
  induction l generalizing s with
  | nil => rfl
  | cons a l ih => exact (hf s a).trans (ih _)

theorem onlyMemAndTiles_commitPsb (s : State) (t : Nat) : s.OnlyMemAndTiles (s.commitPsb t) :=
  (onlyMemAndBanks_commitBytes ..).2

theorem onlyMemAndTiles_modTile (s : State) (t : Nat) (f : Tile → Tile) : s.OnlyMemAndTiles (s.modTile t f) := rfl

theorem onlyMemAndTiles_commitGranule (s : State) (t g : Nat) : s.OnlyMemAndTiles (s.commitGranule t g) :=
  (onlyMemAndBanks_commitBytes ..).2

/-! ### The members go on (R87, R88 step 3, R89) -/

section
variable (x : Tile) (k : Nat)

theorem Tile.resume_psb : (x.resume k).psb = x.psb := by
  unfold Tile.resume
  dsimp only
  split
  · rfl
  · rfl

theorem Tile.resume_comp : (x.resume k).comp = FMap.set x.comp k (FMap.getD 0 x.comp k + 1) := by
  unfold Tile.resume
  dsimp only
  split
  · rfl
  · rfl

theorem Tile.resume_waits (h : x.arrival k = some .phase ∨ x.arrival k = some .bar) (hw : x.wait = some k) :
    (x.resume k).wait = none ∧ (x.resume k).pc = x.pc + 4 := by
  unfold Tile.resume
  dsimp only
  rw [if_pos ⟨h, hw⟩]
  exact ⟨rfl, rfl⟩

end

/-- The members of `l` are resumed, each once. -/
theorem tile_foldl_resume (k u : Nat) : ∀ (l : List (Nat × Tile)) (s : State), (l.map (·.1)).Nodup →
    (l.foldl (fun s m => s.modTile m.1 (fun x => x.resume k)) s).tile u =
      if u ∈ l.map (·.1) then (s.tile u).resume k else s.tile u
  | [], _, _ => rfl
  | m :: l, s, h => by
    obtain ⟨hm, hl⟩ := List.nodup_cons.1 h
    rw [List.foldl_cons, tile_foldl_resume k u l _ hl, List.map_cons, ite_mem_cons]
    by_cases e : u = m.1
    · subst e
      rw [if_neg hm, if_neg hm, if_pos rfl, State.tile_modTile_same]
    · rw [State.tile_modTile_ne _ _ e, if_neg e]

/-! ### O12 -/

theorem completeBarrier_of_not_ready {s : State} {t k : Nat} (h : s.barrierReady t k = false) : s.completeBarrier t k = s := by
  unfold State.completeBarrier
  rw [h]
  rfl

theorem stepBarrier_of_not_ready {s : State} {t k g : Nat} (h : s.barrierReady t k = false) : s.stepBarrier t k g = s := by
  unfold State.stepBarrier
  rw [h]
  rfl

/-- The accesses that a barrier covers are performed. -/
def State.performMembers (s : State) (t k : Nat) : State := (s.arrivals t k).foldl (fun s m => s.performCovered m.1 k) s

/-- Its members that arrived by phase. -/
def State.phased (s : State) (t k : Nat) : List (Nat × Tile) := (s.arrivals t k).filter (fun m => m.2.arrival k = some .phase)

theorem completeBarrier_of_ready {s : State} {t k : Nat} (h : s.barrierReady t k = true) : s.completeBarrier t k =
    (s.arrivals t k).foldl (fun s m => s.modTile m.1 (fun x => x.resume k))
      ((s.phased t k).foldl (fun s m => s.commitPsb m.1) (s.performMembers t k)) := by
  unfold State.completeBarrier
  rw [if_pos h]
  rfl

theorem performed_performMembers (s : State) (t k : Nat) : s.Performed (s.performMembers t k) :=
  .foldl (fun s (m : Nat × Tile) => performed_performCovered s m.1 k) _ _

/-- What performing accesses and then writing memory and tiles leaves alone. -/
theorem State.Performed.frame {s s1 t : State} (h : s.Performed s1) (h' : s1.OnlyMemAndTiles t) :
    { t with tiles := s.tiles, mem := s.mem, desc := s.desc, net := s.net } = s := by
  have e : { t with tiles := s.tiles, mem := s.mem, desc := s.desc, net := s.net }
      = { s1 with tiles := s.tiles, mem := s.mem, desc := s.desc, net := s.net } :=
    congrArg (fun x : State => { x with tiles := s.tiles, mem := s.mem, desc := s.desc, net := s.net }) h'
  have e' : { s1 with tiles := s.tiles, mem := s.mem, desc := s.desc, net := s.net } = s :=
    congrArg (fun x : State => { x with tiles := s.tiles }) h.2
  exact e.trans e'

theorem State.NoneCovered.of_onlyMemAndTiles {s t : State} {u : Nat} {a : Option (SyncKind × Nat)} (h : s.NoneCovered u a)
    (ht : s.OnlyMemAndTiles t) : t.NoneCovered u a := by
  have e : t.net = s.net := (congrArg State.net ht :)
  unfold State.NoneCovered
  rw [e]
  exact h

section
variable {s : State} {k : Nat}

theorem mem_phased {m : Nat × Tile} (hs : Rising s.tiles) (hm : m ∈ s.arrivals s.cur k) :
    m.1 ∈ (s.phased s.cur k).map (·.1) ↔ m.2.arrival k = some .phase := by
  constructor
  · intro h
    obtain ⟨m', hm', e⟩ := List.mem_map.1 h
    obtain ⟨hm', hp⟩ := List.mem_filter.1 hm'
    rw [← State.tile_of_mem_arrivals hs hm, ← e, State.tile_of_mem_arrivals hs hm']
    exact of_decide_eq_true hp
  · exact fun h => List.mem_map_of_mem (List.mem_filter.2 ⟨hm, decide_eq_true h⟩)

/-- None of the accesses that it covers is under way after a barrier completes, or the first part of it. -/
theorem noneCovered_performMembers {m : Nat × Tile} (hs : Rising s.tiles) (hm : m ∈ s.arrivals s.cur k) :
    (s.performMembers s.cur k).NoneCovered m.1 (m.2.arrivalOf k) := by
  rw [← State.tile_of_mem_arrivals hs hm]
  exact noneCovered_foldl (.refl s) hm

/-- The tile of each member at the completion of its barrier. -/
theorem tile_completeBarrier (hs : Rising s.tiles) (h : s.barrierReady s.cur k = true) (u : Nat) :
    ∃ y, (s.tile u).CommitsTo (if u ∈ (s.phased s.cur k).map (·.1) then [] else (s.tile u).psb) y
      ∧ (s.completeBarrier s.cur k).tile u = if u ∈ (s.arrivals s.cur k).map (·.1) then y.resume k else y := by
  have hy := commitsTo_foldl_commitPsb u (s.phased s.cur k) (s.performMembers s.cur k)
  rw [(performed_performMembers s s.cur k).tile] at hy
  refine ⟨_, hy, ?_⟩
  rw [completeBarrier_of_ready h]
  exact tile_foldl_resume k u _ _ (State.nodup_arrivals hs)

theorem completeBarrier_onlyMemAndTiles (h : s.barrierReady s.cur k = true) :
    (s.performMembers s.cur k).OnlyMemAndTiles (s.completeBarrier s.cur k) := by
  rw [completeBarrier_of_ready h]
  exact (State.OnlyMemAndTiles.foldl (fun s (m : Nat × Tile) => onlyMemAndTiles_commitPsb s m.1) _ _).trans
    (.foldl (fun s (m : Nat × Tile) => onlyMemAndTiles_modTile s m.1 _) _ _)

/-- A member that arrived goes on from the commit. -/
theorem member_completeBarrier {m : Nat × Tile} (hs : Rising s.tiles) (h : s.barrierReady s.cur k = true) (hm : m ∈ s.arrivals s.cur k) :
    ∃ y, m.2.CommitsTo (if m.2.arrival k = some .phase then [] else m.2.psb) y ∧ (s.completeBarrier s.cur k).tile m.1 = y.resume k := by
  obtain ⟨y, hy, ht⟩ := tile_completeBarrier hs h m.1
  rw [if_congr (mem_phased hs hm) rfl rfl, State.tile_of_mem_arrivals hs hm] at hy
  rw [if_pos (List.mem_map_of_mem hm)] at ht
  exact ⟨y, hy, ht⟩

/-- What a completed barrier leaves. -/
theorem completeBarrier_leaves (hs : Rising s.tiles) (h : s.barrierReady s.cur k = true) :
    let t := s.completeBarrier s.cur k
    (∀ m ∈ s.arrivals s.cur k, t.NoneCovered m.1 (m.2.arrivalOf k)
        ∧ (t.tile m.1).psb = (if m.2.arrival k = some .phase then [] else m.2.psb)
        ∧ FMap.getD 0 (t.tile m.1).comp k = FMap.getD 0 m.2.comp k + 1
        ∧ (m.2.wait = some k → (m.2.arrival k = some .phase ∨ m.2.arrival k = some .bar) →
            (t.tile m.1).wait = none ∧ (t.tile m.1).pc = m.2.pc + 4))
      ∧ (∀ u, (∀ m ∈ s.arrivals s.cur k, u ≠ m.1) → SameButBanks (s.tile u) (t.tile u))
      ∧ { t with tiles := s.tiles, mem := s.mem, desc := s.desc, net := s.net } = s := by
  intro t
  refine ⟨fun m hm => ?_, fun u hu => ?_, (performed_performMembers ..).frame (completeBarrier_onlyMemAndTiles h)⟩
  · obtain ⟨y, hy, ht⟩ := member_completeBarrier hs h hm
    have hcomp : y.comp = m.2.comp := (congrArg Tile.comp hy :)
    have hout : y.out = m.2.out := (congrArg Tile.out hy :)
    have hwait : y.wait = m.2.wait := (congrArg Tile.wait hy :)
    have hpc : y.pc = m.2.pc := (congrArg Tile.pc hy :)
    have harr : y.arrival k = m.2.arrival k := by unfold Tile.arrival Tile.arrivalOf; rw [hout]
    refine ⟨(noneCovered_performMembers hs hm).of_onlyMemAndTiles (completeBarrier_onlyMemAndTiles h), ?_, ?_, fun hw ha => ?_⟩
    · rw [ht, Tile.resume_psb]
      exact (congrArg Tile.psb hy :)
    · rw [ht, Tile.resume_comp, hcomp]
      exact FMap.getD_set_same ..
    · rw [ht, ← hpc]
      exact y.resume_waits k (harr ▸ ha) (hwait.trans hw)
  · obtain ⟨y, hy, ht⟩ := tile_completeBarrier hs h u
    have hno : u ∉ (s.arrivals s.cur k).map (·.1) := fun hm => by
      obtain ⟨m, hm, e⟩ := List.mem_map.1 hm
      exact hu m hm e.symm
    have hnp : u ∉ (s.phased s.cur k).map (·.1) := fun hm => hno ((List.filter_sublist.map _).subset hm)
    rw [if_neg hno] at ht
    rw [if_neg hnp] at hy
    rw [show t.tile u = y from ht]
    exact hy

/-- A part of a completion performs the accesses, and commits at most one granule of one buffer (R149). -/
theorem stepBarrier_of_ready (g : Nat) (h : s.barrierReady s.cur k = true) :
    s.stepBarrier s.cur k g = s.performMembers s.cur k
      ∨ ∃ m, s.stepBarrier s.cur k g = (s.performMembers s.cur k).commitGranule m g := by
  unfold State.stepBarrier
  rw [if_pos h]
  dsimp only
  split
  · exact .inr ⟨_, rfl⟩
  · exact .inl rfl

theorem stepBarrier_leaves (g : Nat) (hs : Rising s.tiles) (h : s.barrierReady s.cur k = true) :
    let t := s.stepBarrier s.cur k g
    (∀ m ∈ s.arrivals s.cur k, t.NoneCovered m.1 (m.2.arrivalOf k))
      ∧ (∀ u, SameButBanks { s.tile u with psb := (t.tile u).psb } (t.tile u)
          ∧ ((t.tile u).psb = (s.tile u).psb ∨ (t.tile u).psb = (s.tile u).psb.filter (fun b => decide (b.1 / 32 ≠ g))))
      ∧ { t with tiles := s.tiles, mem := s.mem, desc := s.desc, net := s.net } = s := by
  intro t
  have hp := performed_performMembers s s.cur k
  rcases stepBarrier_of_ready g h with e | ⟨m, e⟩
  · rw [show t = _ from e]
    refine ⟨fun m hm => noneCovered_performMembers hs hm, fun u => ?_, hp.frame rfl⟩
    rw [hp.tile]
    exact ⟨rfl, .inl rfl⟩
  · rw [show t = _ from e]
    have hm := onlyMemAndTiles_commitGranule (s.performMembers s.cur k) m g
    refine ⟨fun m' hm' => (noneCovered_performMembers hs hm').of_onlyMemAndTiles hm, fun u => ?_, hp.frame hm⟩
    have hu := commitsTo_commitGranule (s.performMembers s.cur k) m g u
    have hpsb := (congrArg Tile.psb hu :)
    rw [hp.tile, hp.tile] at hu hpsb
    constructor
    · rw [hpsb]
      exact hu
    · rw [hpsb]
      by_cases eu : u = m
      · subst eu
        exact .inr (if_pos rfl)
      · exact .inl (if_neg eu)

end

/-- Settles O12: the members are put in order and are each performed, committed and resumed once. -/
theorem barrierCompletion : Obligations.BarrierCompletion := by
  intro s k g
  refine ⟨fun h => ⟨_, rfl, ?_⟩, fun hok hp h => ⟨_, rfl, ?_⟩, fun gr hok hp h => ⟨_, rfl, ?_⟩, fun p hp => ⟨_, rfl, ?_⟩⟩
  · dsimp only
    split
    · exact completeBarrier_of_not_ready h
    · exact stepBarrier_of_not_ready h
  · rw [hp]
    obtain ⟨hm, hu, hf⟩ := completeBarrier_leaves hok.2.1 h
    exact ⟨fun m hg => hm m (State.mem_arrivals.2 hg), fun u hg => hu u fun m hm => hg m (State.mem_arrivals.1 hm), hf⟩
  · rw [hp]
    obtain ⟨hm, hu, hf⟩ := stepBarrier_leaves gr hok.2.1 h
    exact ⟨fun m hg => hm m (State.mem_arrivals.2 hg), hu, hf⟩
  · rw [hp]
    rfl

end Sys2Proof.Machine
end

