-- ==== Sys2Proof/Proofs/Phases.lean ====
section
/-! Phases, barriers and fences of a tile whose phase group is itself (R87 to R90): O11. -/

namespace Sys2Proof

theorem FMap.any_set {α : Type} {d v : α} {k : Nat} {q : Nat × α → Bool} (hd : q (k, d) = false) : ∀ {m : FMap α},
    q (k, v) = q (k, FMap.getD d m k) → (FMap.set m k v).any q = m.any q
  | [], h => by
    rw [FMap.set, List.any_cons, h]
    exact (Bool.or_false _).trans hd
  | (j, w) :: m, h => by
    unfold FMap.set
    unfold FMap.getD FMap.get? at h
    split
    · next e =>
      rw [if_pos e, Option.getD_some] at h
      rw [List.any_cons, List.any_cons, h, e]
    · next e =>
      rw [if_neg e] at h
      split
      · next hlt =>
        rw [if_pos hlt] at h
        rw [List.any_cons, h]
        exact congrArg (· || _) hd
      · next hlt =>
        rw [if_neg hlt] at h
        rw [List.any_cons, List.any_cons, FMap.any_set hd h]

/-- The one entry that passes a test is replaced by one that passes it. -/
theorem FMap.filter_set {α : Type} {v w : α} {k : Nat} {q : Nat × α → Bool} (hv : q (k, v) = true) : ∀ {m : FMap α},
    m.Pairwise (fun a b => a.1 < b.1) → m.filter q = [(k, w)] → (FMap.set m k v).filter q = [(k, v)]
  | [], _, h => nomatch h
  | (j, x) :: m, hm, h => by
    obtain ⟨hj, hm⟩ := List.pairwise_cons.1 hm
    have hmem : ∀ {l : List (Nat × α)}, l.filter q = [(k, w)] → (k, w) ∈ l :=
      fun e => List.mem_of_mem_filter (e ▸ List.mem_singleton_self _)
    unfold FMap.set
    split
    · next e =>
      rw [List.filter_cons_of_pos hv]
      cases hq : q (j, x) with
      | true =>
        rw [List.filter_cons_of_pos hq] at h
        rw [(List.cons.inj h).2]
      | false =>
        rw [List.filter_cons_of_neg (by simp [hq])] at h
        have := hj _ (hmem h)
        omega
    · next e =>
      have hlt : j < k := by
        rcases List.mem_cons.1 (hmem h) with e' | h'
        · exact absurd (congrArg Prod.fst e') e
        · exact hj _ h'
      have hq : ¬ q (j, x) = true := fun hq => by
        rw [List.filter_cons_of_pos hq] at h
        exact e (congrArg Prod.fst (List.cons.inj h).1).symm
      rw [List.filter_cons_of_neg hq] at h
      rw [if_neg (by omega), List.filter_cons_of_neg hq]
      exact FMap.filter_set hv hm h

end Sys2Proof

namespace Sys2Proof.Machine

/-! ### Homes (R18, R370) -/

section
variable {s : State} {t : Nat} {x : Tile}

theorem heldCtx_setTile (ht : x.task = (s.tile t).task) (hc : x.ctx = (s.tile t).ctx) (c : Nat) : (s.setTile t x).heldCtx c = s.heldCtx c := by
  refine FMap.any_set (d := {}) rfl ?_
  change (x.task.isSome && decide (x.ctx = c) && _) = ((s.tile t).task.isSome && decide ((s.tile t).ctx = c) && _)
  rw [ht, hc]

/-- A near address keeps its home as long as each tile keeps its task and context. -/
theorem findNear_setTile (ht : x.task = (s.tile t).task) (hc : x.ctx = (s.tile t).ctx) (c : Nat) (a : Word) :
    (s.setTile t x).findNear c a = s.findNear c a := by
  have hheld : ∀ v, (s.setTile t x).held v = s.held v := by
    intro v
    unfold State.held
    rw [heldCtx_setTile ht hc]
    by_cases e : v = t
    · subst e
      rw [State.tile_setTile_same, ht, hc]
      rfl
    · rw [State.tile_setTile_ne _ _ e]
      rfl
  unfold State.findNear
  simp only [hheld]
  rfl

theorem stalls_setTile (hl : x.ownLanding = (s.tile t).ownLanding) (hb : x.bankTaken = (s.tile t).bankTaken) (u rank o n : Nat) :
    (s.setTile t x).stalls u rank o n = s.stalls u rank o n := by
  unfold State.stalls State.landing
  by_cases e : u = t
  · subst e
    rw [State.tile_setTile_same, hl, hb]
    rfl
  · rw [State.tile_setTile_ne _ _ e]
    rfl

end

theorem findNear_touch (s : State) (t rank o n c : Nat) (a : Word) : (s.touch t rank o n).findNear c a = s.findNear c a :=
  findNear_setTile (x := (s.tile t).useBanks rank o n) rfl rfl c a

theorem findNear_setMem (s : State) (m : List Host.Cell) (c : Nat) (a : Word) : ({ s with mem := m } : State).findNear c a = s.findNear c a := by
  unfold State.findNear State.held
  rfl

theorem findNear_commitByte (s : State) (u c : Nat) (e : Nat × Byte) (c' : Nat) (a : Word) :
    (s.commitByte u c e).findNear c' a = s.findNear c' a := by
  unfold State.commitByte
  split
  · rw [findNear_touch, findNear_setMem]
  · rfl

theorem findNear_commitBytes (u c : Nat) (l : List (Nat × Byte)) (s : State) (c' : Nat) (a : Word) :
    (s.commitBytes u c l).findNear c' a = s.findNear c' a := by
  rw [commitBytes_eq_foldl]
  induction l generalizing s with
  | nil => rfl
  | cons e l ih => exact (ih _).trans (findNear_commitByte ..)

/-! ### The bytes that a commit leaves (R88 step 2) -/

theorem homeKey_congr {s t : State} (h : ∀ c a, t.findNear c a = s.findNear c a) : t.homeKey = s.homeKey := by
  funext c a
  unfold State.homeKey
  rw [h]

theorem get_mem_commitByte {s : State} (hs : Memory.wf s.mem = true) (u c : Nat) (e : Nat × Byte) (j : Nat) :
    Mem.get (s.commitByte u c e).mem j = if s.homeKey c e.1 = some j then e.2 else Mem.get s.mem j := by
  unfold State.commitByte State.homeKey
  cases s.findNear c (BitVec.ofNat 64 e.1) with
  | ok t off =>
    dsimp only
    rw [State.touch_mem, Mem.get_set hs]
    exact if_congr (by rw [Option.some_inj, eq_comm]) rfl rfl
  | wait => rfl
  | bad k => rfl

theorem get_mem_commitBytes {s : State} (hs : s.Good) (u c : Nat) (l : List (Nat × Byte)) (j : Nat) :
    Mem.get (s.commitBytes u c l).mem j =
      (l.reverse.find? fun e => s.homeKey c e.1 = some j).elim (Mem.get s.mem j) (·.2) := by
  induction l using List.reverseRecOn with
  | nil => rfl
  | append_singleton l e ih =>
    have hl : (s.commitBytes u c (l ++ [e])) = (s.commitBytes u c l).commitByte u c e := by
      simp only [commitBytes_eq_foldl, List.foldl_append, List.foldl_cons, List.foldl_nil]
    rw [hl, get_mem_commitByte hs.commitBytes.mem, homeKey_congr (findNear_commitBytes u c l s), List.reverse_append, List.reverse_singleton,
      List.singleton_append, List.find?_cons]
    by_cases h : s.homeKey c e.1 = some j
    · rw [if_pos h, decide_eq_true h]
      rfl
    · rw [if_neg h, decide_eq_false h]
      exact ih

/-! ### A barrier of one member (R86 to R88) -/

theorem sameUnit_self (k t : Nat) : sameUnit k t t = true := by
  unfold sameUnit
  split
  · exact decide_eq_true rfl
  · split
    · exact decide_eq_true rfl
    · split
      · exact decide_eq_true rfl
      · rfl

section
variable {s : State} {n k : Nat} {x : Tile}

/-- A tile that changes but for its task stays the one member of its phase group. -/
theorem group_setHere (hs : Rising s.tiles) (hm : s.members n = [(s.cur, s.here)]) (hn : x.task = some n) :
    (s.setHere x).group s.cur k = [(s.cur, x)] := by
  have hx : (s.setHere x).tile s.cur = x := s.here_setHere x
  have hg : (s.setHere x).members n = [(s.cur, x)] := FMap.filter_set (decide_eq_true hn) hs hm
  unfold State.group
  rw [hx, hn]
  dsimp only
  rw [hg]
  exact List.filter_cons_of_pos (p := fun m : Nat × Tile => sameUnit k s.cur m.1) (sameUnit_self k s.cur)

end

section
variable {s : State} {k : Nat} {x : Tile}

theorem covered_of_plain {t : Nat} (h : ∀ p ∈ s.accesses t, p.plain = true) : s.covered t k = [] := by
  unfold State.covered
  split
  · exact List.filter_eq_nil_iff.2 fun p hp => by simp [h p hp]
  · rfl

theorem performCovered_of_covered_nil {t : Nat} (h : s.covered t k = []) : s.performCovered t k = s := by
  rw [performCovered_eq, h]
  unfold State.uncovered
  rw [h]
  simp

theorem barrierReady_of_group (hg : s.group s.cur k = [(s.cur, x)]) (hh : s.heldCtx s.here.ctx = false) (ha : (x.arrival k).isSome = true)
    (hc : s.covered s.cur k = []) (hp : x.arrival k = some .phase → ∀ g ∈ granulesOf x.psb, s.commitReady s.cur x.ctx g = true) :
    s.barrierReady s.cur k = true := by
  have hp' : (x.arrival k != some .phase || (granulesOf x.psb).all (s.commitReady s.cur x.ctx)) = true := by
    by_cases e : x.arrival k = some .phase
    · rw [List.all_eq_true.2 (hp e), Bool.or_true]
    · rw [bne_iff_ne.2 e, Bool.true_or]
  unfold State.barrierReady
  rw [hg, show (s.tile s.cur).ctx = s.here.ctx from rfl, hh]
  simp [hc, ha, hp']

/-- A barrier of one member with nothing to perform: its commit, if it arrived by phase, and its completion. -/
theorem completeBarrier_of_group (hg : s.group s.cur k = [(s.cur, x)]) (hf : x.fin = false) (hr : s.barrierReady s.cur k = true)
    (hc : s.covered s.cur k = []) :
    s.completeBarrier s.cur k = (if x.arrival k = some .phase then s.commitPsb s.cur else s).modTile s.cur (fun x => x.resume k) := by
  have ha : s.arrivals s.cur k = [(s.cur, x)] := by
    unfold State.arrivals
    rw [hg]
    simp [insertRank, hf]
  rw [completeBarrier_of_ready hr]
  unfold State.phased State.performMembers
  rw [ha, List.foldl_cons, List.foldl_nil, List.foldl_cons, List.foldl_nil, performCovered_of_covered_nil hc, List.filter_cons]
  congr 1
  by_cases e : x.arrival k = some .phase
  · rw [if_pos e, if_pos (decide_eq_true e)]
    rfl
  · rw [if_neg e, if_neg (by simpa using e)]
    rfl

end

/-! ### Arrival and completion of one tile (R87, R89) -/

/-- The tile once it has arrived at scope `k` and its barrier has completed. -/
def Tile.counted (x : Tile) (k : Nat) : Tile :=
  { x with
    arr := FMap.set x.arr k (FMap.getD 0 x.arr k + 1), comp := FMap.set x.comp k (FMap.getD 0 x.comp k + 1), pc := x.pc + 4 }

theorem arrivalOf_append {out : List (Nat × SyncKind × Nat)} {k : Nat} (h : ∀ e ∈ out, e.1 ≠ k) (a : SyncKind × Nat) :
    (out ++ [(k, a)]).find? (fun o => decide (o.1 = k)) = some (k, a) := by
  rw [List.find?_append, List.find?_eq_none.2 fun e he => by simpa using h e he]
  simp

theorem dropArrival_append (k : Nat) (a : SyncKind × Nat) : ∀ {out : List (Nat × SyncKind × Nat)}, (∀ e ∈ out, e.1 ≠ k) →
    dropArrival k (out ++ [(k, a)]) = out
  | [], _ => if_pos rfl
  | o :: out, h => by
    rw [List.cons_append, dropArrival, if_neg (h o (List.mem_cons_self ..)),
      dropArrival_append k a fun e he => h e (List.mem_cons_of_mem _ he)]

section
variable {x : Tile} {k : Nat}

theorem arrival_arrive (h : ∀ e ∈ x.out, e.1 ≠ k) (a : SyncKind) : (x.arrive k a).arrival k = some a := by
  unfold Tile.arrival Tile.arrivalOf
  rw [show (x.arrive k a).out = x.out ++ [(k, a, x.nextTx)] from rfl, arrivalOf_append h]
  rfl

theorem resume_arrive (hw : x.wait = none) (h : ∀ e ∈ x.out, e.1 ≠ k) {a : SyncKind} (ha : a = .phase ∨ a = .bar) :
    (x.arrive k a).resume k = x.counted k := by
  have hwait : (x.arrive k a).wait = some k := by rcases ha with rfl | rfl <;> rfl
  have hdrop : dropArrival k (x.arrive k a).out = x.out := dropArrival_append k _ h
  unfold Tile.resume
  rw [arrival_arrive h]
  dsimp only
  rw [hdrop, hwait, if_pos ⟨ha.imp (congrArg some) (congrArg some), rfl⟩]
  unfold Tile.counted Tile.adv
  rw [← hw]
  rfl

theorem resume_arrive_bara (h : ∀ e ∈ x.out, e.1 ≠ k) : (x.arrive k .bara).adv.resume k = x.counted k := by
  have hdrop : dropArrival k (x.arrive k .bara).out = x.out := dropArrival_append k _ h
  unfold Tile.resume
  rw [show (x.arrive k .bara).adv.arrival k = some .bara from arrival_arrive h _]
  dsimp only
  rw [if_neg (by simp), show (x.arrive k .bara).adv.out = (x.arrive k .bara).out from rfl, hdrop]
  rfl

end

/-! ### O11 -/

/-- The current tile runs the task of node `n` alone, and no exposed access or atomic of it is under way. -/
structure State.Quiet (s : State) (n : Nat) : Prop where
  tiles : Rising s.tiles
  members : s.members n = [(s.cur, s.here)]
  task : s.here.task = some n
  fin : s.here.fin = false
  held : s.heldCtx s.here.ctx = false
  late : s.late = false
  plain : ∀ p ∈ s.accesses s.cur, p.plain = true

section
variable {s : State} {n k : Nat} {x : Tile}

theorem commitReady_setHere (ht : x.task = s.here.task) (hc : x.ctx = s.here.ctx) (hl : x.ownLanding = s.here.ownLanding)
    (hb : x.bankTaken = s.here.bankTaken) (u c g : Nat) : (s.setHere x).commitReady u c g = s.commitReady u c g := by
  unfold State.commitReady State.setHere
  rw [findNear_setTile ht hc]
  simp only [stalls_setTile hl hb]

/-- The barrier of a tile alone completes in the turn of its arrival. -/
theorem arrived_setHere (hq : s.Quiet n) (ht : x.task = s.here.task) (hc : x.ctx = s.here.ctx) (hf : x.fin = s.here.fin)
    (ha : (x.arrival k).isSome = true)
    (hp : x.arrival k = some .phase → ∀ g ∈ granulesOf x.psb, (s.setHere x).commitReady s.cur x.ctx g = true) :
    (s.setHere x).arrived k =
      (if x.arrival k = some .phase then (s.setHere x).commitPsb s.cur else s.setHere x).modTile s.cur (fun x => x.resume k) := by
  have hg : (s.setHere x).group s.cur k = [(s.cur, x)] := group_setHere hq.tiles hq.members (ht.trans hq.task)
  have hcov : (s.setHere x).covered s.cur k = [] := covered_of_plain hq.plain
  have hheld : (s.setHere x).heldCtx (s.setHere x).here.ctx = false := by
    rw [State.here_setHere, hc]
    exact (heldCtx_setTile ht hc _).trans hq.held
  have hr : (s.setHere x).barrierReady s.cur k = true := barrierReady_of_group (s := s.setHere x) hg hheld ha hcov hp
  have hlate : (s.setHere x).late = false := hq.late
  unfold State.arrived
  rw [hlate]
  exact completeBarrier_of_group (s := s.setHere x) hg (hf.trans hq.fin) hr hcov

/-- A barrier that commits nothing. -/
theorem counted_arrived (hq : s.Quiet n) (ht : x.task = s.here.task) (hc : x.ctx = s.here.ctx) (hf : x.fin = s.here.fin)
    {a : SyncKind} (ha : x.arrival k = some a) (hp : a ≠ .phase) (hx : x.resume k = s.here.counted k) :
    ((s.setHere x).arrived k).here = s.here.counted k ∧ OnlyHere s ((s.setHere x).arrived k) := by
  have hn : x.arrival k ≠ some .phase := fun e => hp (Option.some_inj.1 (ha.symm.trans e))
  rw [arrived_setHere hq ht hc hf (ha ▸ rfl) fun e => absurd e hn, if_neg hn]
  refine ⟨?_, fun u hu => ?_, fun _ => rfl, rfl⟩
  · refine (State.tile_modTile_same ..).trans ?_
    rw [show (s.setHere x).tile s.cur = x from s.here_setHere x]
    exact hx
  · rw [State.tile_modTile_ne _ _ hu]
    exact s.tile_setHere_ne x hu

theorem bar_leaves (hq : s.Quiet n) (hw : s.here.wait = none) (ho : ∀ e ∈ s.here.out, e.1 ≠ k) :
    (arriveAndWait s k .bar).here = s.here.counted k ∧ OnlyHere s (arriveAndWait s k .bar) := by
  unfold arriveAndWait
  rw [hw]
  exact counted_arrived hq rfl rfl rfl (arrival_arrive ho _) nofun (resume_arrive hw ho (.inr rfl))

/-- The state of a tile that has arrived by phase. -/
def State.phasing (s : State) (k : Nat) : State := s.setHere (s.here.arrive k .phase)

theorem tile_phasing (s : State) (k : Nat) : (s.phasing k).tile s.cur = s.here.arrive k .phase := s.here_setHere _

theorem tile_phasing_ne (s : State) (k : Nat) {u : Nat} (h : u ≠ s.cur) : (s.phasing k).tile u = s.tile u := s.tile_setHere_ne _ h

theorem homeKey_phasing (s : State) (k : Nat) : (s.phasing k).homeKey = s.homeKey :=
  homeKey_congr (findNear_setTile (x := s.here.arrive k .phase) rfl rfl)

theorem onlyMemAndTiles_phasing (s : State) (k : Nat) : s.OnlyMemAndTiles (s.phasing k) := rfl

theorem get_mem_commitPsb_phasing (hs : s.Good) (j : Nat) : Mem.get ((s.phasing k).commitPsb s.cur).mem j =
    (s.here.psb.reverse.find? fun e => s.homeKey s.here.ctx e.1 = some j).elim (Mem.get s.mem j) (·.2) := by
  unfold State.commitPsb
  dsimp only
  have hg : (s.phasing k).Good := hs.setHere
  rw [tile_phasing, ← homeKey_phasing s k]
  exact get_mem_commitBytes hg s.cur s.here.ctx s.here.psb j

/-- A tile that arrived by phase, committed and goes on. -/
theorem resume_of_commitsTo {y : Tile} (hw : x.wait = none) (ho : ∀ e ∈ x.out, e.1 ≠ k) (hy : (x.arrive k .phase).CommitsTo [] y) :
    y.resume k = { x.counted k with psb := [], banks := (y.resume k).banks } := by
  have e : y = ({ x with psb := [], banks := y.banks } : Tile).arrive k .phase :=
    (congrArg (fun w : Tile => { w with banks := y.banks }) hy :)
  have hr : y.resume k = ({ x with psb := [], banks := y.banks } : Tile).counted k :=
    (congrArg (Tile.resume · k) e).trans (resume_arrive (x := { x with psb := [], banks := y.banks }) hw ho (.inl rfl))
  rw [hr]
  rfl

theorem arriveAndWait_phase (hq : s.Quiet n) (hw : s.here.wait = none) (ho : ∀ e ∈ s.here.out, e.1 ≠ k)
    (hg : ∀ g ∈ granulesOf s.here.psb, s.commitReady s.cur s.here.ctx g = true) :
    arriveAndWait s k .phase = ((s.phasing k).commitPsb s.cur).modTile s.cur (fun x => x.resume k) := by
  have ha := arrival_arrive ho SyncKind.phase
  have e := arrived_setHere (x := s.here.arrive k .phase) hq rfl rfl rfl (Option.isSome_iff_exists.2 ⟨_, ha⟩) fun _ g h =>
    (commitReady_setHere (x := s.here.arrive k .phase) rfl rfl rfl rfl ..).trans (hg g h)
  rw [if_pos ha] at e
  unfold arriveAndWait
  rw [hw]
  exact e

theorem phase_leaves (hs : s.Good) (hq : s.Quiet n) (hw : s.here.wait = none) (ho : ∀ e ∈ s.here.out, e.1 ≠ k)
    (hg : ∀ g ∈ granulesOf s.here.psb, s.commitReady s.cur s.here.ctx g = true) :
    let t := arriveAndWait s k .phase
    (∀ j, Mem.get t.mem j = (s.here.psb.reverse.find? fun e => s.homeKey s.here.ctx e.1 = some j).elim (Mem.get s.mem j) (·.2))
      ∧ t.here = { s.here.counted k with psb := [], banks := t.here.banks } ∧ (∀ u, u ≠ s.cur → SameButBanks (s.tile u) (t.tile u))
      ∧ s.OnlyMemAndTiles t := by
  intro t
  have et : t = ((s.phasing k).commitPsb s.cur).modTile s.cur (fun x => x.resume k) := arriveAndWait_phase hq hw ho hg
  have ht : s.OnlyMemAndTiles t := by
    rw [et]
    exact ((onlyMemAndTiles_phasing s k).trans (onlyMemAndTiles_commitPsb ..)).trans (onlyMemAndTiles_modTile ..)
  refine ⟨fun j => ?_, ?_, fun u hu => ?_, ht⟩
  · rw [et]
    exact get_mem_commitPsb_phasing hs j
  · have hy := commitsTo_commitPsb (s.phasing k) s.cur s.cur
    rw [if_pos rfl, tile_phasing] at hy
    have hcur : t.cur = s.cur := (congrArg State.cur ht :)
    have hh : t.here = (((s.phasing k).commitPsb s.cur).tile s.cur).resume k := by
      unfold State.here
      rw [hcur, et]
      exact State.tile_modTile_same ..
    rw [hh]
    exact resume_of_commitsTo hw ho hy
  · rw [et, State.tile_modTile_ne _ _ hu]
    have hy := commitsTo_commitPsb (s.phasing k) s.cur u
    rw [if_neg hu, tile_phasing_ne s k hu] at hy
    exact hy

/-- A bara goes on at once, its barrier complete. -/
theorem bara_leaves (hq : s.Quiet n) (hw : s.here.wait = none) (ho : ∀ e ∈ s.here.out, e.1 ≠ k) :
    let t := (s.setHere ({ s.here with wait := none }.arrive k .bara).adv).arrived k
    t.here = s.here.counted k ∧ OnlyHere s t := by
  have hx : ({ s.here with wait := none } : Tile).counted k = s.here.counted k := by
    unfold Tile.counted
    rw [← hw]
  exact counted_arrived hq rfl rfl rfl (arrival_arrive (x := { s.here with wait := none }) ho .bara) nofun
    ((resume_arrive_bara (x := { s.here with wait := none }) ho).trans hx)

theorem becomes_nextPc (s : State) : Becomes s s.nextPc s.here := ⟨s.here_setHere _, onlyHere_setHere ..⟩

end

theorem baraOut_eq_false {x : Tile} {k : Nat} (h : ∀ e ∈ x.out, ¬ (e.1 = k ∧ e.2.1 = .bara)) : x.baraOut k = false :=
  List.any_eq_false.2 fun e he => by simpa using h e he

/-- Settles O11: the phase group of a tile alone is itself, so that its arrival is the last; the commit gives a home the last of the
bytes that are bound for it. -/
theorem barriersOfOneTile : Obligations.BarriersOfOneTile := by
  intro s scope n k counted
  refine ⟨fun hs halone hlate hw hplain ho => ?_, fun hw hb => ⟨_, rfl, ?_⟩, fun ha hr => ⟨_, rfl, ?_⟩⟩
  · obtain ⟨hmem, htask, hfin, hheld⟩ := halone
    have hq : s.Quiet n := ⟨hs.2.1, hmem, htask, hfin, hheld, hlate, hplain⟩
    refine ⟨fun hg => ⟨_, rfl, ?_⟩, ⟨_, rfl, bar_leaves hq hw ho⟩, ⟨_, rfl, ?_⟩⟩
    · obtain ⟨hget, hhere, hother, hframe⟩ := phase_leaves hs hq hw ho hg
      refine ⟨fun j => (hget j).trans ?_, hhere, hother, hframe⟩
      cases s.here.psb.reverse.find? fun e => s.homeKey s.here.ctx e.1 = some j with
      | none => rfl
      | some e => rfl
    · rw [show s.here.baraOut scope.toNat = false from baraOut_eq_false fun e he h => ho e he h.1]
      exact bara_leaves hq hw ho
  · rw [show s.here.baraOut scope.toNat = false from baraOut_eq_false hb, show ({ s.here with wait := none } : Tile) = s.here by rw [← hw]]
    exact becomes_nextPc s
  · have ha' : (s.accesses s.cur).any (fun p => sameUnit scope.toNat s.cur p.dst) = false :=
      List.any_eq_false.2 fun p hp => Bool.not_eq_true _ ▸ ha p hp
    have hr' : s.here.reads.any (fun r => sameUnit scope.toNat s.cur r.home) = false :=
      List.any_eq_false.2 fun r hr' => Bool.not_eq_true _ ▸ hr r hr'
    rw [ha', hr']
    exact becomes_nextPc s

end Sys2Proof.Machine
end

