-- ==== Sys2Proof/Proofs/References.lean ====
section
/-! What the end of a reference changes, and what it leaves alone (R261, R263 to R266, R335). -/

namespace Sys2Proof.Machine

theorem State.tile_congr {s t : State} (h : t.tiles = s.tiles) (u : Nat) : t.tile u = s.tile u := by rw [State.tile, h]; rfl
theorem State.buf_congr {s t : State} (h : t.bufs = s.bufs) (a : Nat) : t.buf a = s.buf a := by rw [State.buf, h]; rfl

/-! ### Freeing frames -/

/-- A context but for its pool and the counts of its event queue. -/
def Ctx.SameButPool (x y : Ctx) : Prop :=
  { y with pool := x.pool, left := x.left, evWritten := x.evWritten, evLost := x.evLost } = x

/-- `s` is `b` once pages have been unmapped and frames given back: no tile, buffer or node is touched, and of a context only its pool
and the counts of its event queue. -/
def State.Freed (b s : State) : Prop :=
  { s with mem := b.mem, ctxs := b.ctxs, tlb := b.tlb, hot := b.hot, overwritten := b.overwritten, overDescs := b.overDescs, spanOut := b.spanOut } = b
    ∧ ∀ c, (b.ctxAt c).SameButPool (s.ctxAt c)

section
variable {b s : State}

theorem Ctx.SameButPool.refl (x : Ctx) : x.SameButPool x := rfl
theorem Ctx.SameButPool.trans {x y z : Ctx} (h : x.SameButPool y) (h' : y.SameButPool z) : x.SameButPool z := by
  unfold Ctx.SameButPool at *
  rw [← h, ← h']

theorem State.Freed.refl (b : State) : b.Freed b := ⟨rfl, fun _ => rfl⟩

theorem State.Freed.trans {u : State} (h : b.Freed s) (h' : s.Freed u) : b.Freed u := by
  obtain ⟨hf, hc⟩ := h
  obtain ⟨hf', hc'⟩ := h'
  refine ⟨?_, fun c => (hc c).trans (hc' c)⟩
  rw [← hf, ← hf']

theorem State.Freed.foldl {α : Type} {l : List α} {f : State → α → State} (h : b.Freed s)
    (hf : ∀ {s a}, b.Freed s → b.Freed (f s a)) : b.Freed (l.foldl f s) := by
  induction l generalizing s with
  | nil => exact h
  | cons a l ih => exact ih (hf h)

theorem State.Freed.modCtx {c : Nat} {f : Ctx → Ctx} (h : b.Freed s) (hf : ∀ x : Ctx, x.SameButPool (f x)) : b.Freed (s.modCtx c f) := by
  refine h.trans ⟨rfl, fun d => ?_⟩
  by_cases hd : d = c
  · subst hd; rw [State.modCtx, State.ctxAt_setCtx_same]; exact hf _
  · rw [State.modCtx, State.ctxAt_setCtx_ne _ _ hd]; exact .refl _
theorem State.Freed.freeFrames {c : Nat} {l : List Nat} (h : b.Freed s) : b.Freed (s.freeFrames c l) := h.modCtx fun _ => rfl
theorem State.Freed.store {k n v : Nat} (h : b.Freed s) : b.Freed (s.store k n v) := h
theorem State.Freed.storeWords {k : Nat} {l : List Nat} (h : b.Freed s) : b.Freed (s.storeWords k l) := by
  induction l generalizing s k with
  | nil => exact h
  | cons a l ih => exact ih h.store
theorem State.Freed.post {c code cause x y : Nat} (h : b.Freed s) : b.Freed (s.post c code cause x y) := by
  unfold State.post
  dsimp only
  split
  · exact .modCtx h.storeWords fun _ => rfl
  · exact h.modCtx fun _ => rfl
theorem State.Freed.sendSpan {p : Nat} {q : SpanReq} (h : b.Freed s) : b.Freed (s.sendSpan p q) := h
theorem State.Freed.invalidate {c lo m : Nat} (h : b.Freed s) : b.Freed (s.invalidate c lo m) := h
theorem State.Freed.unmapPage {c e k : Nat} (h : b.Freed s) :
    b.Freed (if e % 2 = 1 then (if pteTier e = 0 then s.freeFrames c [pteFrame e] else s).store k 8 (e / 2 * 2) else s) := by
  split
  · split
    · exact h.freeFrames
    · exact h
  · exact h
theorem State.Freed.unmapPages {c vpn m : Nat} (h : b.Freed s) : b.Freed (s.unmapPages c vpn m) := by
  induction m generalizing s vpn with
  | zero => exact h
  | succ m ih => exact ih (by split; exacts [h.unmapPage, h])
theorem State.Freed.releaseFrame {c : Nat} {o : OldLeaf} (h : b.Freed s) : b.Freed (s.releaseFrame c o) := by
  unfold State.releaseFrame
  dsimp only
  split
  · exact h.freeFrames
  · exact h.post
theorem State.Freed.leavePool {c vpn m : Nat} (h : b.Freed s) : b.Freed (s.leavePool c vpn m) := by
  induction m generalizing s vpn with
  | zero => exact h
  | succ m ih =>
    refine ih ?_
    split
    · split
      · exact h.modCtx fun _ => rfl
      · exact h
    · exact h

theorem State.Freed.bufs (h : b.Freed s) : s.bufs = b.bufs := (congrArg State.bufs h.1 :)
theorem State.Freed.nodes (h : b.Freed s) : s.nodes = b.nodes := (congrArg State.nodes h.1 :)
theorem State.Freed.tiles (h : b.Freed s) : s.tiles = b.tiles := (congrArg State.tiles h.1 :)
theorem State.Freed.buf (h : b.Freed s) (a : Nat) : s.buf a = b.buf a := State.buf_congr h.bufs a

end

/-! ### Buffers when a reference has gone -/

/-- A buffer without shadows and staged updates. -/
def Buf.unshadowed (x : Buf) : Buf := { x with shadow := [], staged := [], stage := [] }
/-- A buffer that has retired, of its replaced frames only those left that views still read (R261, R266). -/
def Buf.retired (x : Buf) (views : List Nat) : Buf :=
  { x.unshadowed with live := false, gen := x.gen + 1, old := x.old.filter fun o => views.any fun v => decide (v ≤ o.vgen) }

/-- The record of a buffer once a reference of it has gone. -/
def State.settledBuf (s : State) (a : Nat) : Buf :=
  let x := s.buf a
  if x.live = false then x
  else if x.count = 0 then x.retired (s.outerViews a)
  else if s.wRefs a then x else x.unshadowed

/-- `s` is `b` once references of buffers have gone: no tile, descriptor, ring or die is touched, of a node only the shadows that it has
written, of a context only its pool and the counts of its event queue. -/
def State.Settled (b s : State) : Prop :=
  { s with
    mem := b.mem, ctxs := b.ctxs, tlb := b.tlb, hot := b.hot, overwritten := b.overwritten, overDescs := b.overDescs, spanOut := b.spanOut
    bufs := b.bufs, nodes := b.nodes } = b
    ∧ (∀ c, (b.ctxAt c).SameButPool (s.ctxAt c)) ∧ ∀ n, (s.node? n).map Node.unwritten = (b.node? n).map Node.unwritten

theorem State.Settled.refl (b : State) : b.Settled b := ⟨rfl, fun _ => rfl, fun _ => rfl⟩

theorem State.Settled.trans {b s u : State} (h : b.Settled s) (h' : s.Settled u) : b.Settled u := by
  obtain ⟨hf, hc, hn⟩ := h
  obtain ⟨hf', hc', hn'⟩ := h'
  refine ⟨?_, fun c => (hc c).trans (hc' c), fun n => (hn' n).trans (hn n)⟩
  rw [← hf, ← hf']

theorem State.Freed.settled {b s : State} (h : b.Freed s) : b.Settled s :=
  ⟨by rw [h.bufs.symm, h.nodes.symm, ← h.1], h.2, fun n => by rw [State.node?, h.nodes]; rfl⟩

theorem State.settled_setBuf (s : State) (a : Nat) (x : Buf) : s.Settled (s.setBuf a x) := ⟨rfl, fun _ => rfl, fun _ => rfl⟩
theorem State.settled_forgetWrites (s : State) (a : Nat) : s.Settled (s.forgetWrites a) := by
  refine ⟨rfl, fun _ => rfl, fun n => ?_⟩
  unfold State.node? State.forgetWrites
  dsimp only
  rw [FMap.get?_map _ _ fun _ => by rfl, Option.map_map]
  rfl
theorem State.settled_discardShadows (s : State) (a : Nat) : s.Settled (s.discardShadows a) :=
  (State.Freed.refl s).freeFrames.settled.trans (State.settled_setBuf ..)

theorem State.buf_discardShadows (s : State) (a c : Nat) :
    (s.discardShadows a).buf c = if c = a then (s.buf a).unshadowed else s.buf c := by
  unfold State.discardShadows
  by_cases h : c = a
  · subst h; rw [if_pos rfl]; exact State.buf_setBuf_same ..
  · rw [if_neg h]; exact State.buf_setBuf_ne _ _ h

/-- The replaced frames that no view reads are given back, and the buffer keeps the rest (R261). -/
theorem State.freed_releaseUnread (s : State) (a : Nat) (views : List Nat) :
    (s.setBuf a { s.buf a with old := (s.buf a).old.filter fun o => views.any fun v => decide (v ≤ o.vgen) }).Freed
      (s.releaseUnread a views) := .foldl (.refl _) fun h => h.releaseFrame

/-- What the retirement of a buffer gives back, before its record is closed (R266). -/
theorem State.settle_eq (s : State) (a : Nat) : ∃ t,
    (((s.discardShadows a).forgetWrites a).releaseUnread a (s.outerViews a)).Freed t
      ∧ s.settle a = if (s.buf a).live = false then s
        else if (s.buf a).count = 0 then t.modBuf a (fun x => { x with live := false, gen := x.gen + 1 })
        else if s.wRefs a then s else (s.discardShadows a).forgetWrites a := by
  unfold State.settle
  dsimp only
  simp only [Bool.not_eq_true']
  generalize ((s.discardShadows a).forgetWrites a).releaseUnread a (s.outerViews a) = u
  refine ⟨_, ?_, rfl⟩
  have h := State.Freed.refl u
  split
  · exact h.sendSpan
  · split
    · exact h.unmapPages.invalidate
    · exact h.leavePool.post

theorem State.settled_settle (s : State) (a : Nat) : s.Settled (s.settle a) := by
  obtain ⟨t, ht, e⟩ := s.settle_eq a
  have hd : s.Settled ((s.discardShadows a).forgetWrites a) := (s.settled_discardShadows a).trans (State.settled_forgetWrites ..)
  rw [e]
  split
  · exact .refl s
  · split
    · exact (((hd.trans (State.settled_setBuf ..)).trans (State.freed_releaseUnread ..).settled).trans ht.settled).trans
        (State.settled_setBuf ..)
    · split
      · exact .refl s
      · exact hd

theorem State.buf_settle (s : State) (a c : Nat) : (s.settle a).buf c = if c = a then s.settledBuf a else s.buf c := by
  obtain ⟨t, ht, e⟩ := s.settle_eq a
  have hd : ∀ c, ((s.discardShadows a).forgetWrites a).buf c = if c = a then (s.buf a).unshadowed else s.buf c :=
    s.buf_discardShadows a
  have hr : ∀ c, t.buf c = if c = a then
      { (s.buf a).unshadowed with old := (s.buf a).old.filter fun o => (s.outerViews a).any fun v => decide (v ≤ o.vgen) } else s.buf c := by
    intro c
    rw [ht.buf, (State.freed_releaseUnread ..).buf]
    by_cases h : c = a
    · subst h; rw [State.buf_setBuf_same, hd, if_pos rfl, if_pos rfl]; rfl
    · rw [State.buf_setBuf_ne _ _ h, hd, if_neg h, if_neg h]
  rw [e]
  unfold State.settledBuf
  by_cases h : c = a
  · subst h
    dsimp only
    rw [if_pos rfl]
    split
    · rfl
    · split
      · rw [State.modBuf, State.buf_setBuf_same, hr, if_pos rfl]; rfl
      · split
        · rfl
        · rw [hd, if_pos rfl]
  · rw [if_neg h]
    split
    · rfl
    · split
      · rw [State.modBuf, State.buf_setBuf_ne _ _ h, hr, if_neg h]
      · split
        · rfl
        · rw [hd, if_neg h]

theorem State.mem_settle {s : State} {a : Nat} (h : (s.buf a).count ≠ 0) : (s.settle a).mem = s.mem := by
  obtain ⟨t, -, e⟩ := s.settle_eq a
  rw [e, if_neg h]
  split
  · rfl
  · split
    · rfl
    · rfl

theorem State.settled_dropRef (s : State) (a : Nat) : s.Settled (s.dropRef a) := (State.settled_setBuf ..).trans (State.settled_settle ..)
theorem State.settled_dropRefs (s : State) (l : List Word) : s.Settled (s.dropRefs l) := by
  induction l generalizing s with
  | nil => exact .refl s
  | cons h l ih =>
    refine State.Settled.trans ?_ (ih _)
    split
    · exact .refl s
    · exact s.settled_dropRef _

section
variable {b s : State}

theorem State.Settled.tiles (h : b.Settled s) : s.tiles = b.tiles := (congrArg State.tiles h.1 :)
theorem State.Settled.cur (h : b.Settled s) : s.cur = b.cur := (congrArg State.cur h.1 :)
theorem State.Settled.tile (h : b.Settled s) (u : Nat) : s.tile u = b.tile u := State.tile_congr h.tiles u
theorem State.Settled.here (h : b.Settled s) : s.here = b.here := by rw [State.here, h.cur, h.tile, State.here]

end

/-! ### A buffer that loses a reference -/

theorem State.buf_dropRef_ne (s : State) {a c : Nat} (h : c ≠ a) : (s.dropRef a).buf c = s.buf c := by
  unfold State.dropRef
  rw [State.buf_settle, if_neg h, State.modBuf, State.buf_setBuf_ne _ _ h]

theorem State.buf_modBuf_same (s : State) (a : Nat) (f : Buf → Buf) : (s.modBuf a f).buf a = f (s.buf a) := State.buf_setBuf_same ..
theorem State.buf_modBuf_ne (s : State) {a c : Nat} (f : Buf → Buf) (h : c ≠ a) : (s.modBuf a f).buf c = s.buf c := State.buf_setBuf_ne _ _ h

/-- A live buffer that something still names stays live, with its count. -/
theorem State.buf_settle_of_count {s : State} {a : Nat} (hl : (s.buf a).live = true) (hc : 0 < (s.buf a).count) :
    ((s.settle a).buf a).live = true ∧ ((s.settle a).buf a).count = (s.buf a).count ∧ (s.settle a).mem = s.mem := by
  refine ⟨?_, ?_, State.mem_settle (by omega)⟩ <;> rw [State.buf_settle, if_pos rfl, State.settledBuf]
  · rw [if_neg (by simp [hl]), if_neg (by omega)]; split <;> exact hl
  · rw [if_neg (by simp [hl]), if_neg (by omega)]; split <;> rfl

/-- A live buffer of other references stays live, its count one less (R264). -/
theorem State.buf_dropRef_of_many {s : State} {a : Nat} (hl : (s.buf a).live = true) (hc : 1 < (s.buf a).count) :
    ((s.dropRef a).buf a).live = true ∧ ((s.dropRef a).buf a).count = (s.buf a).count - 1 ∧ (s.dropRef a).mem = s.mem := by
  have e := s.buf_modBuf_same a fun b => { b with count := b.count - 1 }
  have h := State.buf_settle_of_count (a := a) (s := s.modBuf a fun b => { b with count := b.count - 1 }) (e ▸ hl)
    (by rw [e]; exact Nat.sub_pos_of_lt hc)
  rw [e] at h
  exact h

/-- The last reference of a live buffer retires it: its count is zero and its generation the next (R266). -/
theorem State.buf_dropRef_of_last {s : State} {a : Nat} (hl : (s.buf a).live = true) (hc : (s.buf a).count = 1) :
    ((s.dropRef a).buf a).count = 0 ∧ ((s.dropRef a).buf a).live = false ∧ ((s.dropRef a).buf a).gen = (s.buf a).gen + 1 := by
  have e := s.buf_modBuf_same a fun b => { b with count := b.count - 1 }
  have h0 : (s.buf a).count - 1 = 0 := by omega
  unfold State.dropRef
  rw [State.buf_settle, if_pos rfl, State.settledBuf, e]
  dsimp only
  rw [if_neg (by simp [hl]), if_pos h0]
  exact ⟨h0, rfl, rfl⟩

end Sys2Proof.Machine
end

