-- ==== Sys2Proof/Proofs/Handles.lean ====
section
/-! Capability slots: the handle instructions (R117, R118, R334), their traps, and new buffers (R243): O13, O14, O15. -/

namespace Sys2Proof.Machine

/-! ### Slots -/

theorem Tile.cap_set (x : Tile) (c k : Nat) (h : Word) : (x.setCap c h).cap k = if k = c then h else x.cap k := by
  unfold Tile.cap Tile.setCap
  by_cases e : k = c
  · subst e; rw [if_pos rfl]; exact Bank.get_set_same ..
  · rw [if_neg e]; exact Bank.get_set_ne _ _ e

/-- What a slot instruction leaves, given the tile that it leaves here. -/
theorem slotSet_of_here {s t : State} {c : BitVec 6} {h : Word} {d : BitVec 5} {v : Word} {caps : Bank 64}
    (hc : ∀ k, Bank.get caps k = if k = c.toNat then h else s.here.cap k) (he : t.here = ({ s.here with caps := caps }.wr d v).adv)
    (ho : OtherTiles s t) : slotSet s t c h d v := by
  unfold slotSet
  rw [he]
  refine ⟨fun k => ?_, fun r => ?_, ?_, ?_, ho⟩
  · rw [← hc k]; unfold Tile.wr; split <;> rfl
  · exact Tile.rd_wr ..
  · exact congrArg (· + 4) (Tile.wr_pc ..)
  · unfold Tile.wr; split <;> rfl

/-- A slot written, and the next word: nothing else of the tile changes. -/
theorem slotSet_of_setHere {s t : State} {c : BitVec 6} {h : Word} {d : BitVec 5} {v : Word} (hc : t.cur = s.cur)
    (ht : t.tiles = (s.setHere ((s.here.setCap c.toNat h).wr d v).adv).tiles) : slotSet s t c h d v := by
  have hu : ∀ u, t.tile u = (s.setHere ((s.here.setCap c.toNat h).wr d v).adv).tile u := State.tile_congr ht
  refine slotSet_of_here (fun k => Tile.cap_set s.here c.toNat k h) ?_ fun u hne => ?_
  · rw [State.here, hc, hu]; exact State.here_setHere ..
  · rw [hu]; exact State.tile_setHere_ne _ _ hne

/-- A slot written in a state that has the tiles of `s`, and a register written with it. -/
theorem slotSet_retire {s t : State} (hc : t.cur = s.cur) (hu : t.tiles = s.tiles) (c : BitVec 6) (h : Word) (d : BitVec 5) (v : Word) :
    slotSet s ((t.setHere (s.here.setCap c.toNat h)).retire d v) c h d v := by
  refine slotSet_of_here (Tile.cap_set s.here c.toNat · h) ?_ fun u hne => ?_
  · rw [State.retire, State.here_setHere, State.here_setHere]; rfl
  · rw [State.retire, State.tile_setHere_ne (t.setHere _) _ (hc ▸ hne), State.tile_setHere_ne t _ (hc ▸ hne), State.tile_congr hu]

theorem State.retire_setHere_frame (s : State) (x : Tile) (d : BitVec 5) (v : Word) : { (s.setHere x).retire d v with tiles := s.tiles } = s := by
  cases s; rfl

theorem slotNumber_eq (c : BitVec 6) : c.setWidth 64 = BitVec.ofNat 64 c.toNat := (BitVec.ofNat_toNat 64 c).symm

section
variable {s : State} {c : BitVec 6} {right : Option Nat}

theorem State.withSlot_of_none (h : s.slotUse c right = none) (f : State) : s.withSlot c right f = f := by
  unfold State.withSlot; rw [h]

theorem State.fresh_of_slotUse (h : s.slotUse c right = none) :
    s.here.cap c.toNat ≠ 0 ∧ s.fresh? s.here.ctx (s.here.cap c.toNat) = true := by
  unfold State.slotUse at h
  dsimp only at h
  split at h
  · exact absurd h nofun
  · next h0 =>
    split at h
    · exact absurd h nofun
    · next hf => exact ⟨h0, by simpa using hf⟩

theorem State.live_of_fresh {x : Nat} {h : Word} (hf : s.fresh? x h = true) : (s.buf (accOf h)).live = true := by
  simp only [State.fresh?, Bool.and_eq_true] at hf
  exact hf.1.1.1.2

theorem State.live_of_slotUse (h : s.slotUse c right = none) : (s.buf (accOf (s.here.cap c.toNat))).live = true :=
  State.live_of_fresh (State.fresh_of_slotUse h).2

end

/-! ### Reading, duplicating and dropping a handle (R118) -/

section
variable {s : State} {c c2 : BitVec 6}

/-- A slot takes a handle, whose buffer has one reference more. -/
def State.putHandle (s : State) (c : BitVec 6) (h : Word) : State :=
  ((s.setHere (s.here.setCap c.toNat h)).modBuf (accOf h) (fun b => { b with count := b.count + 1 })).nextPc

theorem State.buf_putHandle (s : State) (c : BitVec 6) (h : Word) (a : Nat) :
    (s.putHandle c h).buf a = if a = accOf h then { s.buf a with count := (s.buf a).count + 1 } else s.buf a := by
  split
  · next e => subst e; exact State.buf_setBuf_same ..
  · next e => exact State.buf_setBuf_ne _ _ e

theorem State.putHandle_frame (s : State) (c : BitVec 6) (h : Word) : { s.putHandle c h with tiles := s.tiles, bufs := s.bufs } = s := by
  cases s; rfl

/-- The slot empty, its handle's reference dropped. -/
def State.emptied (s : State) (c : BitVec 6) : State := (s.setHere (s.here.setCap c.toNat 0)).dropRefs [s.here.cap c.toNat]

theorem State.settled_emptied (s : State) (c : BitVec 6) : (s.setHere (s.here.setCap c.toNat 0)).Settled (s.emptied c) :=
  State.settled_dropRefs ..

theorem State.emptied_of_zero (h : s.here.cap c.toNat = 0) : s.emptied c = s.setHere (s.here.setCap c.toNat 0) := by
  rw [State.emptied, h]; rfl
theorem State.emptied_of_ne_zero (h : s.here.cap c.toNat ≠ 0) :
    s.emptied c = (s.setHere (s.here.setCap c.toNat 0)).dropRef (accOf (s.here.cap c.toNat)) := if_neg h

theorem exec_capdup_same (h : s.slotUse c (some 4) = none) : exec (.capdup c c) s = .next s.nextPc := by
  change execCapdup c c s = _
  unfold execCapdup
  rw [State.withSlot_of_none h, if_pos rfl]

theorem exec_capdup (h : s.slotUse c2 (some 4) = none) (hc : c ≠ c2) (hn : (s.buf (accOf (s.here.cap c2.toNat))).count < 2 ^ 32 - 1) :
    exec (.capdup c c2) s = .next ((s.emptied c).putHandle c (s.here.cap c2.toNat)) := by
  change execCapdup c c2 s = _
  unfold execCapdup
  rw [State.withSlot_of_none h]
  dsimp only
  rw [if_neg hc, if_neg (by omega)]
  rfl

/-- A capdup writes its slot, whatever it drops. -/
theorem slotSet_putHandle (s : State) (c : BitVec 6) (h : Word) : slotSet s ((s.emptied c).putHandle c h) c h 0 0 := by
  have hs := s.settled_emptied c
  generalize s.emptied c = t at hs
  have hh : t.here = s.here.setCap c.toNat 0 := hs.here.trans (State.here_setHere ..)
  have hu : t.cur = s.cur := hs.cur
  have e : (t.putHandle c h).tiles = ((t.setHere (t.here.setCap c.toNat h)).nextPc).tiles := by
    unfold State.putHandle State.nextPc State.here State.modBuf
    rfl
  refine slotSet_of_here (caps := FMap.set (FMap.set s.here.caps c.toNat 0) c.toNat h) (fun k => ?_) ?_ fun u hne => ?_
  · refine (Tile.cap_set (s.here.setCap c.toNat 0) c.toNat k h).trans ?_
    rw [Tile.cap_set]
    split <;> rfl
  · refine (State.tile_congr e _).trans ?_
    rw [State.nextPc, State.here_setHere, hh]
    exact State.here_setHere ..
  · rw [State.tile_congr e, State.nextPc, State.tile_setHere_ne (t.setHere _) _ (hu ▸ hne), State.tile_setHere_ne t _ (hu ▸ hne), hs.tile,
      State.tile_setHere_ne _ _ hne]

/-- Into an empty slot: nothing is dropped. -/
theorem putHandle_empty (hc : s.here.cap c.toNat = 0) (h : Word) :
    let t := (s.emptied c).putHandle c h
    t.buf (accOf h) = { s.buf (accOf h) with count := (s.buf (accOf h)).count + 1 } ∧ (∀ b, b ≠ accOf h → t.buf b = s.buf b)
      ∧ { t with tiles := s.tiles, bufs := s.bufs } = s := by
  rw [State.emptied_of_zero hc]
  refine ⟨?_, fun b hb => ?_, ?_⟩
  · rw [State.buf_putHandle, if_pos rfl]; rfl
  · rw [State.buf_putHandle, if_neg hb]; rfl
  · exact congrArg (fun t : State => { t with tiles := s.tiles, bufs := s.bufs }) (State.putHandle_frame _ c h)

/-- Onto a handle of another buffer that others name: that one loses a reference. -/
theorem putHandle_over {h : Word} (hc : s.here.cap c.toNat ≠ 0) (ha : accOf (s.here.cap c.toNat) ≠ accOf h)
    (hl : (s.buf (accOf (s.here.cap c.toNat))).live = true) (hn : 1 < (s.buf (accOf (s.here.cap c.toNat))).count) :
    let t := (s.emptied c).putHandle c h
    let a := accOf (s.here.cap c.toNat)
    t.buf (accOf h) = { s.buf (accOf h) with count := (s.buf (accOf h)).count + 1 } ∧ (t.buf a).count = (s.buf a).count - 1
      ∧ (t.buf a).live = true ∧ SameMem s t := by
  obtain ⟨hlive, hcount, hmem⟩ := State.buf_dropRef_of_many (s := s.setHere (s.here.setCap c.toNat 0)) hl hn
  have hb := State.buf_dropRef_ne (s.setHere (s.here.setCap c.toNat 0)) (Ne.symm ha)
  rw [← State.emptied_of_ne_zero hc] at hlive hcount hmem hb
  generalize s.emptied c = t at hlive hcount hmem hb
  refine ⟨?_, ?_, ?_, fun k => ?_⟩
  · rw [State.buf_putHandle, if_pos rfl, hb]; rfl
  · rw [State.buf_putHandle, if_neg ha]; exact hcount
  · rw [State.buf_putHandle, if_neg ha]; exact hlive
  · exact congrArg (Mem.get · k) hmem

theorem exec_capdrop (h : s.slotUse c none = none) :
    exec (.capdrop c) s = .next ((s.setHere (s.here.setCap c.toNat 0).adv).dropRef (accOf (s.here.cap c.toNat))) :=
  congrArg Host.Outcome.next (State.withSlot_of_none h _)

/-- A slot emptied of a handle whose reference is dropped. -/
theorem slotSet_dropRef (s : State) (c : BitVec 6) (a : Nat) : slotSet s ((s.setHere (s.here.setCap c.toNat 0).adv).dropRef a) c 0 0 0 :=
  have h := State.settled_dropRef (s.setHere (s.here.setCap c.toNat 0).adv) a
  slotSet_of_setHere h.cur h.tiles

end

/-! ### Narrowing, transit and redemption (R118, R334) -/

section
variable {s : State} {d b : BitVec 5} {c : BitVec 6}

theorem exec_capnrw (h : s.slotUse c (some 5) = none) :
    exec (.capnrw c b) s = .next ((s.setHere (s.here.setCap c.toNat (handleOf (accOf (s.here.cap c.toNat)) (genOf (s.here.cap c.toNat))
      ((s.here.cap c.toNat).toNat / 2 ^ 48 &&& (s.here.rd b).toNat % 256))).adv).settle (accOf (s.here.cap c.toNat))) :=
  congrArg Host.Outcome.next (State.withSlot_of_none h _)

theorem State.modTask_frame (s : State) (f : Node → Node) : { s.modTask f with nodes := s.nodes } = s := by
  unfold State.modTask State.modNode
  split
  · split <;> rfl
  · rfl

/-- The slot's handle goes into the context's set of transits, and into those of the attempt (R144). -/
def State.movedOut (s : State) (h : Word) : State :=
  (s.modCtx s.here.ctx (fun x => { x with transit := h :: x.transit })).modTask (fun n => { n with xfers := h :: n.xfers })

theorem exec_capxfer (h : s.slotUse c (some 3) = none) : exec (.capxfer d c) s =
    .next (((s.movedOut (s.here.cap c.toNat)).setHere (s.here.setCap c.toNat 0)).retire d (s.here.cap c.toNat)) :=
  congrArg Host.Outcome.next (State.withSlot_of_none h _)

theorem State.redeem_frame (s : State) (x : Nat) (h : Word) :
    { s.redeem x h with nodes := s.nodes } = s.modCtx x (fun y => { y with transit := removeOne h y.transit }) := by
  unfold State.redeem State.modNode
  dsimp only
  split
  · split <;> rfl
  · rfl

theorem exec_caprt (hc : s.here.cap c.toNat = 0) (hf : s.fresh? s.here.ctx (s.here.rd b) = true)
    (hm : s.here.rd b ∈ (s.ctxAt s.here.ctx).transit) :
    exec (.caprt c b) s = .next (((s.redeem s.here.ctx (s.here.rd b)).setHere (s.here.setCap c.toNat (s.here.rd b))).nextPc) := by
  change execCaprt c b s = _
  unfold execCaprt
  simp [hc, hf, hm]

theorem count_removeOne {h : Word} : ∀ {l : List Word}, h ∈ l → (removeOne h l).count h + 1 = l.count h
  | a :: l, hm => by
    unfold removeOne
    split
    · next e => subst e; rw [List.count_cons_self]
    · next e =>
      rw [List.count_cons_of_ne e, List.count_cons_of_ne e]
      exact count_removeOne ((List.mem_cons.1 hm).resolve_left (Ne.symm e))

theorem count_removeOne_ne {h g : Word} (hg : g ≠ h) : ∀ l : List Word, (removeOne h l).count g = l.count g
  | [] => rfl
  | a :: l => by
    unfold removeOne
    split
    · next e => rw [List.count_cons_of_ne (e ▸ Ne.symm hg)]
    · rw [List.count_cons, List.count_cons, count_removeOne_ne hg l]

end

/-- What a capxfer leaves: the handle in the set of transits, and the slot empty. -/
theorem movedOut_leaves (s : State) (d : BitVec 5) (c : BitVec 6) (h : Word) :
    let t := ((s.movedOut h).setHere (s.here.setCap c.toNat 0)).retire d h
    slotSet s t c 0 d h ∧ (t.ctxAt s.here.ctx).transit = h :: (s.ctxAt s.here.ctx).transit
      ∧ (∀ x, x ≠ s.here.ctx → t.ctxAt x = s.ctxAt x) ∧ { t with tiles := s.tiles, ctxs := s.ctxs, nodes := s.nodes } = s := by
  have hf := (s.modCtx s.here.ctx (fun x => { x with transit := h :: x.transit })).modTask_frame (fun n => { n with xfers := h :: n.xfers })
  have hctx : (s.movedOut h).ctxs = (s.modCtx s.here.ctx (fun x => { x with transit := h :: x.transit })).ctxs := (congrArg State.ctxs hf :)
  have hc : ∀ x, (s.movedOut h).ctxAt x = (s.modCtx s.here.ctx (fun x => { x with transit := h :: x.transit })).ctxAt x := fun x => by
    rw [State.ctxAt, hctx]; rfl
  have hu : (s.movedOut h).tiles = s.tiles := (congrArg State.tiles hf :)
  have hcur : (s.movedOut h).cur = s.cur := (congrArg State.cur hf :)
  refine ⟨slotSet_retire hcur hu .., ?_, fun x hx => ?_, ?_⟩
  · change ((s.movedOut h).ctxAt _).transit = _
    rw [hc, State.modCtx, State.ctxAt_setCtx_same]
  · change (s.movedOut h).ctxAt x = _
    rw [hc, State.modCtx, State.ctxAt_setCtx_ne _ _ hx]
  · exact congrArg (fun t : State => { t with tiles := s.tiles, ctxs := s.ctxs }) hf

/-- What a caprt leaves: one transit of the handle fewer, and the handle in its slot. -/
theorem redeem_leaves (s : State) (c : BitVec 6) (x : Nat) (h : Word) (hm : h ∈ (s.ctxAt x).transit) :
    let t := ((s.redeem x h).setHere (s.here.setCap c.toNat h)).nextPc
    slotSet s t c h 0 0 ∧ (t.ctxAt x).transit.count h + 1 = (s.ctxAt x).transit.count h
      ∧ (∀ g, g ≠ h → (t.ctxAt x).transit.count g = (s.ctxAt x).transit.count g)
      ∧ { t with tiles := s.tiles, ctxs := s.ctxs, nodes := s.nodes } = s := by
  have hf := s.redeem_frame x h
  have hu : (s.redeem x h).tiles = s.tiles := (congrArg State.tiles hf :)
  have hcur : (s.redeem x h).cur = s.cur := (congrArg State.cur hf :)
  have hctx : (s.redeem x h).ctxs = (s.modCtx x (fun y => { y with transit := removeOne h y.transit })).ctxs := (congrArg State.ctxs hf :)
  have hc : ((s.redeem x h).ctxAt x).transit = removeOne h (s.ctxAt x).transit := by
    rw [State.ctxAt, hctx]
    change ((s.modCtx x (fun y => { y with transit := removeOne h y.transit })).ctxAt x).transit = _
    rw [State.modCtx, State.ctxAt_setCtx_same]
  refine ⟨slotSet_retire hcur hu c h 0 0, ?_, fun g hg => ?_, ?_⟩
  · exact (congrArg (fun l => List.count h l + 1) hc).trans (count_removeOne hm)
  · exact (congrArg (List.count g) hc).trans (count_removeOne_ne hg _)
  · exact congrArg (fun t : State => { t with tiles := s.tiles, ctxs := s.ctxs }) hf

/-- Settles O13: each instruction writes its slot; the reference that it drops or adds is that of its buffer's record. -/
theorem handleInstructions : Obligations.HandleInstructions := by
  refine ⟨fun s d c c2 => ⟨retires_of_exec rfl, fun h => ⟨?_, ?_, ?_⟩, fun h => ?_⟩, fun s d b c => ⟨fun h hn => ?_, fun h => ?_, ?_⟩⟩
  · rintro rfl
    exact ⟨_, exec_capdup_same h, becomes_nextPc s⟩
  · exact fun hc h0 hn => ⟨_, exec_capdup h hc hn, slotSet_putHandle .., putHandle_empty h0 _⟩
  · exact fun hc ha hn hl hm h0 => ⟨_, exec_capdup h hc hn, slotSet_putHandle .., putHandle_over h0 ha hl hm⟩
  · have hl := State.live_of_slotUse h
    refine ⟨fun hn => ⟨_, exec_capdrop h, slotSet_dropRef .., ?_⟩, fun hn => ⟨_, exec_capdrop h, slotSet_dropRef .., ?_⟩⟩
    · obtain ⟨hlive, hcount, hmem⟩ := State.buf_dropRef_of_many (s := s.setHere (s.here.setCap c.toNat 0).adv) hl hn
      exact ⟨hcount, hlive, fun k => congrArg (Mem.get · k) hmem⟩
    · exact State.buf_dropRef_of_last (s := s.setHere (s.here.setCap c.toNat 0).adv) hl hn
  · have ht := State.settled_settle (s.setHere (s.here.setCap c.toNat (handleOf (accOf (s.here.cap c.toNat)) (genOf (s.here.cap c.toNat))
      ((s.here.cap c.toNat).toNat / 2 ^ 48 &&& (s.here.rd b).toNat % 256))).adv) (accOf (s.here.cap c.toNat))
    have hl := State.live_of_slotUse h
    refine ⟨_, exec_capnrw h, slotSet_of_setHere ht.cur ht.tiles, ?_⟩
    obtain ⟨hlive, hcount, hmem⟩ := State.buf_settle_of_count (s := s.setHere (s.here.setCap c.toNat (handleOf (accOf (s.here.cap c.toNat))
      (genOf (s.here.cap c.toNat)) ((s.here.cap c.toNat).toNat / 2 ^ 48 &&& (s.here.rd b).toNat % 256))).adv) hl hn
    exact ⟨hcount, hlive, fun k => congrArg (Mem.get · k) hmem⟩
  · exact ⟨_, exec_capxfer h, movedOut_leaves ..⟩
  · exact fun h0 hf hm => ⟨_, exec_caprt h0 hf hm, redeem_leaves _ _ _ _ hm⟩

/-! ### Traps of a slot (R117, R118) -/

section
variable {s : State} {c : BitVec 6}

/-- Why a slot's handle may not be used, if it may not: it is empty, stale, or lacks a right. -/
def State.SlotRefused (s : State) (h : Word) (right : Option Nat) (k : Nat) : Prop :=
  (h = 0 ∧ k = 0x08) ∨ (h ≠ 0 ∧ s.fresh? s.here.ctx h = false ∧ k = 0x0B)
    ∨ (h ≠ 0 ∧ s.fresh? s.here.ctx h = true ∧ (∃ r, right = some r ∧ hasRight h r = false) ∧ k = 0x09)

theorem State.slotUse_of_refused {right : Option Nat} {k : Nat} (h : s.SlotRefused (s.here.cap c.toNat) right k) :
    s.slotUse c right = some k := by
  unfold State.slotUse
  dsimp only
  rcases h with ⟨h0, rfl⟩ | ⟨h0, hf, rfl⟩ | ⟨h0, hf, ⟨r, rfl, hr⟩, rfl⟩
  · rw [if_pos h0]
  · rw [if_neg h0, hf]; rfl
  · rw [if_neg h0, hf]
    dsimp only
    rw [hr]
    rfl

theorem trapped_withSlot {right : Option Nat} {k : Nat} (ht : s.here.canTrap) (h : s.SlotRefused (s.here.cap c.toNat) right k) (f : State) :
    Trapped s (s.withSlot c right f) k (BitVec.ofNat 64 c.toNat) := by
  unfold State.withSlot
  rw [State.slotUse_of_refused h, ← slotNumber_eq]
  exact trapped_trap ht ..

/-- A trap that an instruction takes with its slot's number. -/
theorem traps_slot {i : Instr} {k : Nat} (ht : s.here.canTrap) (h : exec i s = .next (s.trap k (c.setWidth 64))) :
    Traps s i k (BitVec.ofNat 64 c.toNat) := ⟨_, h, slotNumber_eq c ▸ trapped_trap ht ..⟩

theorem exec_cappub_fresh (hf : s.here.fresh) : ∃ f, exec (.cappub c) s = .next (s.withSlot c (some 2) f) := by
  obtain ⟨hr, hs, -, -⟩ := hf
  refine ⟨_, congrArg Host.Outcome.next ((if_neg ?_).trans (if_neg ?_))⟩
  · rw [hr]; exact Bool.false_ne_true
  · rw [hs]; exact Bool.false_ne_true

end

/-- Settles O14: a refused slot traps before the instruction does anything; capnew judges its size before its slot (log 15). -/
theorem handleTraps : Obligations.HandleTraps := by
  intro s d b c c2 ht hfresh h bad slot
  have hslot : ∀ {i : Instr} {c : BitVec 6} {right : Option Nat} {k : Nat} {f : State}, exec i s = .next (s.withSlot c right f) →
      s.SlotRefused (s.here.cap c.toNat) right k → Traps s i k (BitVec.ofNat 64 c.toNat) := fun e hk => ⟨_, e, trapped_withSlot ht hk _⟩
  refine ⟨fun k hk => hslot rfl hk, fun k hk => hslot rfl hk, fun k hk => ?_, fun k hk => hslot rfl hk, fun k hk => hslot rfl hk,
    fun hz => ?_, fun h0 => ⟨fun hz => ?_, ?_⟩, fun h0 hg => ?_⟩
  · obtain ⟨f, e⟩ := exec_cappub_fresh (c := c) hfresh
    exact hslot e hk
  · exact traps_slot ht (congrArg Host.Outcome.next (if_pos hz))
  · exact traps_slot ht (congrArg Host.Outcome.next ((if_neg (by omega)).trans (if_pos h0)))
  · exact traps_slot ht (congrArg Host.Outcome.next (if_pos h0))
  · refine traps_slot ht (congrArg Host.Outcome.next ((if_neg (not_not.2 h0)).trans (if_pos ?_)))
    refine hg.imp (fun e => by rw [e]; rfl) fun hm => ?_
    simpa using hm

/-! ### New buffers (R118, R243) -/

theorem firstFree_spec {ok : Nat → Bool} {lo n : Nat} (hn : 0 < n) : ∀ {fuel start k : Nat}, firstFree ok lo n start fuel = some k →
    ok k = true ∧ lo ≤ k ∧ k < lo + n
  | 0, _, _, h => nomatch h
  | fuel + 1, start, k, h => by
    unfold firstFree at h
    dsimp only at h
    split at h
    · next hok =>
      obtain rfl := Option.some.inj h
      exact ⟨hok, Nat.le_add_right .., Nat.add_lt_add_left (Nat.mod_lt _ hn) _⟩
    · exact firstFree_spec hn h

/-- A free accession number names a record that is not live. -/
theorem State.freeAcc_spec {s : State} {a : Nat} (h : s.freeAcc = some a) : (s.buf a).live = false ∧ 1 ≤ a ∧ a < 2 ^ 32 := by
  obtain ⟨hok, hlo, hhi⟩ := firstFree_spec (by decide) h
  simp only [Bool.and_eq_true, Bool.not_eq_true'] at hok
  exact ⟨hok.1.1, hlo, by omega⟩

/-- `s` is `b` once frames have been taken and mapped: no tile and no buffer is touched. -/
def State.Mapped (b s : State) : Prop := s.tiles = b.tiles ∧ s.bufs = b.bufs ∧ s.cur = b.cur

theorem State.mapped_arenaPlace {s s1 : State} {c n v : Nat} (h : s.arenaPlace c n = some (s1, v)) : s.Mapped s1 := by
  unfold State.arenaPlace at h
  dsimp only at h
  split at h
  · exact nomatch h
  · split at h
    · exact nomatch h
    · obtain ⟨rfl, -⟩ := Prod.mk.inj (Option.some.inj h)
      exact ⟨rfl, rfl, rfl⟩

theorem State.mapped_takeFrame {s s1 : State} {c f : Nat} (h : s.takeFrame c = some (s1, f)) : s.Mapped s1 := by
  unfold State.takeFrame at h
  dsimp only at h
  split at h
  · exact nomatch h
  · split at h
    · exact nomatch h
    · obtain ⟨rfl, -⟩ := Prod.mk.inj (Option.some.inj h)
      exact ⟨rfl, rfl, rfl⟩

theorem State.Mapped.trans {a b s : State} (h : a.Mapped b) (h' : b.Mapped s) : a.Mapped s :=
  ⟨h'.1.trans h.1, h'.2.1.trans h.2.1, h'.2.2.trans h.2.2⟩

theorem State.mapped_mapPages {c key : Nat} : ∀ {n vpn : Nat} {s s2 : State}, s.mapPages c key vpn n = some s2 → s.Mapped s2
  | 0, _, _, _, h => by obtain rfl := Option.some.inj h; exact ⟨rfl, rfl, rfl⟩
  | n + 1, _, _, _, h => by
    unfold State.mapPages at h
    split at h
    · next hf =>
      have hm := State.mapped_mapPages h
      exact (State.mapped_takeFrame hf).trans hm
    · exact nomatch h

section
variable {s : State} {d b : BitVec 5} {c : BitVec 6}

/-- The record of a new buffer. -/
def State.newBuf (s : State) (a v size : Nat) : Buf :=
  { gen := (s.buf a).gen, vgen := (s.buf a).vgen, live := true, ctx := s.here.ctx, size := size, vbase := v, count := 1 }

/-- A new buffer stands in its record and in its slot, and nothing else has changed since the mapping. -/
theorem newBuf_leaves {s2 : State} (h : s.Mapped s2) (a v size : Nat) (x : Word) :
    let t := ((s2.setBuf a (s.newBuf a v size)).setHere ((s2.setBuf a (s.newBuf a v size)).here.setCap c.toNat x)).retire d 0
    slotSet s t c x d 0 ∧ t.buf a = s.newBuf a v size ∧ (∀ x, x ≠ a → t.buf x = s.buf x) ∧ { t with tiles := s2.tiles, bufs := s2.bufs } = s2 := by
  obtain ⟨hu, hb, hcur⟩ := h
  have hh : (s2.setBuf a (s.newBuf a v size)).here = s.here := by rw [State.here, State.setBuf_cur, hcur]; exact State.tile_congr hu _
  rw [hh]
  refine ⟨slotSet_retire hcur hu .., State.buf_setBuf_same .., fun y hy => ?_, ?_⟩
  · exact (State.buf_setBuf_ne s2 _ hy).trans (State.buf_congr hb y)
  · exact congrArg (fun t : State => { t with tiles := s2.tiles, bufs := s2.bufs })
      ((s2.setBuf a (s.newBuf a v size)).retire_setHere_frame (s.here.setCap c.toNat x) d 0)

variable (hc : s.here.cap c.toNat = 0) (h0 : 0 < (s.here.rd b).toNat) (hm : (s.here.rd b).toNat ≤ 2 ^ 40)
include hc h0 hm

theorem exec_capnew_of_no_number (ha : s.freeAcc = none) : exec (.capnew d c b) s = .next (s.retire d 1) := by
  refine congrArg Host.Outcome.next ((if_neg (by omega)).trans ((if_neg (not_not.2 hc)).trans ?_))
  rw [ha]

variable {a v : Nat} {s1 s2 : State} (ha : s.freeAcc = some a)
include ha

theorem exec_capnew_of_no_place
    (hp : s.picked.arenaPlace s.here.ctx (((s.here.rd b).toNat + 0xFFFF) / 0x10000 * 0x10000) = none) :
    exec (.capnew d c b) s = .next (s.retire d 1) := by
  refine congrArg Host.Outcome.next ((if_neg (by omega)).trans ((if_neg (not_not.2 hc)).trans ?_))
  rw [ha]
  simp only [hp]

variable (hp : s.picked.arenaPlace s.here.ctx (((s.here.rd b).toNat + 0xFFFF) / 0x10000 * 0x10000) = some (s1, v))
include hp

theorem exec_capnew_of_no_frames (hq : s1.mapPages s.here.ctx (((s.ctxAt s.here.ctx).iodReg 0x070).toNat / 256 % 256) (v / 2 ^ 16)
      (((s.here.rd b).toNat + 0xFFFF) / 0x10000) = none) :
    exec (.capnew d c b) s = .next (s.retire d 1) := by
  refine congrArg Host.Outcome.next ((if_neg (by omega)).trans ((if_neg (not_not.2 hc)).trans ?_))
  rw [ha]
  simp only [hp, hq]

theorem exec_capnew_of_frames (hq : s1.mapPages s.here.ctx (((s.ctxAt s.here.ctx).iodReg 0x070).toNat / 256 % 256) (v / 2 ^ 16)
      (((s.here.rd b).toNat + 0xFFFF) / 0x10000) = some s2) :
    exec (.capnew d c b) s = .next (((s2.setBuf a (s.newBuf a v (s.here.rd b).toNat)).setHere
      ((s2.setBuf a (s.newBuf a v (s.here.rd b).toNat)).here.setCap c.toNat (handleOf a (s.buf a).gen 63))).retire d 0) := by
  refine congrArg Host.Outcome.next ((if_neg (by omega)).trans ((if_neg (not_not.2 hc)).trans ?_))
  rw [ha]
  simp only [hp, hq, State.newBuf]

end

/-- Settles O15: with no free number, place or frame the instruction answers 1; else the record and the slot are written. -/
theorem newBuffers : Obligations.NewBuffers := by
  intro s d b c size n key hc h0 hm
  refine ⟨fun ha => ?_, fun a ha hp => ?_, fun a s1 v ha hp => ⟨fun hq => ?_, fun s2 hq => ?_⟩⟩
  · exact retires_of_exec (exec_capnew_of_no_number hc h0 hm ha)
  · exact retires_of_exec (exec_capnew_of_no_place hc h0 hm ha hp)
  · exact retires_of_exec (exec_capnew_of_no_frames hc h0 hm ha hp hq)
  · have hs : s.Mapped s2 := .trans ⟨rfl, rfl, rfl⟩ ((State.mapped_arenaPlace hp).trans (State.mapped_mapPages hq))
    obtain ⟨hl, hlo, hhi⟩ := State.freeAcc_spec ha
    exact ⟨_, exec_capnew_of_frames hc h0 hm ha hp hq, hl, hlo, hhi, newBuf_leaves hs ..⟩

end Sys2Proof.Machine
end

