-- ==== Sys2Proof/Proofs/Sequencer.lean ====
section
/-! Sequencer words that change the current tile alone, and the words that place entries for engines (R93 to R96): O17. -/

namespace Sys2Proof.Machine

/-! ### A word that changes the current tile, and goes on -/

section
variable (s : State) (x : Tile)

theorem here_setHere_nextPc : (s.setHere x).nextPc.here = x.adv := by
  rw [State.nextPc, State.here_setHere, State.here_setHere]

theorem onlyHere_setHere_setHere (y : Tile) : OnlyHere s ((s.setHere x).setHere y) :=
  ⟨fun _ h => (State.tile_setHere_ne (s.setHere x) _ h).trans (State.tile_setHere_ne s _ h), fun _ => rfl, rfl⟩

theorem onlyHere_setHere_nextPc : OnlyHere s (s.setHere x).nextPc := onlyHere_setHere_setHere ..

variable {s x}

theorem becomes_setHere_nextPc (h : x.pc = s.here.pc) : Becomes s (s.setHere x).nextPc x :=
  ⟨by rw [here_setHere_nextPc, Tile.adv, h], onlyHere_setHere_nextPc ..⟩

end

/-- A place of a table that a word has written, and every other place. -/
theorem FMap.getD_set {α : Type} (d : α) (m : FMap α) (k j : Nat) (v : α) :
    FMap.getD d (FMap.set m k v) j = if j = k then v else FMap.getD d m j := by
  split
  · next e => subst e; exact FMap.getD_set_same ..
  · next e => exact FMap.getD_set_ne _ _ e

/-! ### Entries (R93 to R96, R336, R347) -/

section
variable {s : State} {n : BitVec 1} {a b c : BitVec 5}

/-- The engine of an entry, with the entry behind those that it has. -/
def Engine.queued (g : Engine) (q : Entry) : Engine := { g with queue := g.queue ++ [q] }

theorem Tile.pc_setEngine (x : Tile) (e : Eng) (g : Engine) : (x.setEngine e g).pc = x.pc := by cases e <;> rfl

theorem Engine.not_full {g : Engine} (h : g.queue.length < 16) : g.full = false := decide_eq_false (Nat.not_le.2 h)

/-- An engine is written, and the word is done. -/
theorem engineBecomes_setEngine (s : State) (e : Eng) (g : Engine) : engineBecomes s (s.setHere (s.here.setEngine e g)).nextPc e g 0 := by
  refine ⟨?_, onlyHere_setHere_nextPc ..⟩
  rw [here_setHere_nextPc]
  cases e <;> rfl

/-- A tile with an entry in the queue of an engine. -/
def Tile.queued (x : Tile) (e : Eng) (q : Entry) : Tile :=
  { x.setEngine e ((x.engine e).queued { q with no := x.issueNo }) with issueNo := x.issueNo + 1 }

theorem Tile.queued_adv (x : Tile) (e : Eng) (q : Entry) :
    (x.queued e q).adv = { x.setEngine e ((x.engine e).queued { q with no := x.issueNo }) with issueNo := x.issueNo + 1, pc := x.pc + 4 } := by
  cases e <;> rfl
theorem Tile.queued_setEngine_adv (x : Tile) (e : Eng) (g : Engine) (q : Entry) : ((x.setEngine e g).queued e q).adv =
    { x.setEngine e (g.queued { q with no := x.issueNo }) with issueNo := x.issueNo + 1, pc := x.pc + 4 } := by
  cases e <;> rfl

/-- An entry takes its place in the queue of an engine, and the word is done. -/
theorem engineBecomes_enqueue (s : State) (e : Eng) (q : Entry) :
    engineBecomes s (s.enqueue e q).nextPc e ((s.here.engine e).queued { q with no := s.here.issueNo }) 1 :=
  ⟨(here_setHere_nextPc s (s.here.queued e q)).trans (Tile.queued_adv ..), onlyHere_setHere_nextPc ..⟩

/-- An entry takes its place in the queue of an engine that is written with it. -/
theorem engineBecomes_enqueue_setEngine (s : State) (e : Eng) (g : Engine) (q : Entry) :
    engineBecomes s ((s.setHere (s.here.setEngine e g)).enqueue e q).nextPc e (g.queued { q with no := s.here.issueNo }) 1 := by
  have h : (s.setHere (s.here.setEngine e g)).enqueue e q = (s.setHere (s.here.setEngine e g)).setHere ((s.here.setEngine e g).queued e q) := by
    rw [State.enqueue, State.here_setHere]; rfl
  rw [h]
  refine ⟨(here_setHere_nextPc ..).trans (Tile.queued_setEngine_adv ..), fun u hu => ?_, fun _ => rfl, rfl⟩
  exact (State.tile_setHere_ne ((s.setHere _).setHere _) _ hu).trans ((onlyHere_setHere_setHere s _ _).1 u hu)

variable {off : Nat} {fp : Footprint} {flags : BitVec 4}

/-- The entry that an erun places. -/
def State.runEntry (s : State) (g : Engine) (off : Nat) (fp : Footprint) (b c : BitVec 5) (flags : BitVec 4) : Entry :=
  { no := 0, kind := .run off (s.here.rd b).toNat (s.here.rd c).toNat, fp := fp, pop := flags.getLsbD 0, push := flags.getLsbD 1,
    reply := flags.getLsbD 3, stamp := if flags.getLsbD 2 then some s.here.stamp else none, rec_ := g.latch }

theorem exec_erun (he : s.noEngine n = false) (hq : (s.here.engine (engOf n)).queue.length < 16) (ho : s.ownNear s.cur (s.here.rd a) 4 = .ok off)
    (hl : (s.here.rd b).toNat + (s.here.rd c).toNat ≤ 65536) (hf : s.latched (s.here.engine (engOf n)) = .ok fp) :
    exec (.erun n a b c flags) s = .next (if flags.getLsbD 2 = true ∧ s.here.stamp.ult (s.dbc s.cur) = true then s.trap 0x11 s.here.stamp
      else ((s.setHere (s.here.setEngine (engOf n) { s.here.engine (engOf n) with latch := none })).enqueue (engOf n)
        (s.runEntry (s.here.engine (engOf n)) off fp b c flags)).nextPc) := by
  have ht : s.tableCheck (s.here.rd a) (s.here.rd b) (s.here.rd c) = .ok off := by
    simp only [State.tableCheck, ho, Nat.not_lt.2 hl, if_false]
  change execErun n a b c flags s = _
  simp only [execErun, he, Engine.not_full hq, ht, hf, Bool.false_eq_true, if_false]
  rfl

theorem exec_eset (he : s.noEngine n = false) (hq : (s.here.engine (engOf n)).queue.length < 16) :
    exec (.eset n a c) s = .next (s.enqueue (engOf n) { no := 0, kind := .eset c.toNat (s.here.rd a) }).nextPc := by
  change execEset n a c s = _
  simp only [execEset, he, Engine.not_full hq, Bool.false_eq_true, if_false]

theorem exec_ekld (he : s.noEngine n = false) (hq : (s.here.engine (engOf n)).queue.length < 16) (ho : s.ownNear s.cur (s.here.rd a) 4 = .ok off)
    (hs : off + 4 * (s.here.rd c).toNat ≤ 0xC0000) (hn : (s.here.rd c).toNat ≤ 256) :
    exec (.ekld n a b c) s = .next (s.enqueue (engOf n)
      { no := 0, kind := .ekld off ((s.here.rd b).toNat % 256) (s.here.rd c).toNat,
        fp := { rd := if s.here.rd c = 0 then [] else [(off / 32, (off + 4 * (s.here.rd c).toNat + 31) / 32 - off / 32)] } }).nextPc := by
  change execEkld n a b c s = _
  have hs' : ¬ Config.scratchEnd < off + 4 * (s.here.rd c).toNat := Nat.not_lt.2 hs
  simp only [execEkld, he, Engine.not_full hq, ho, hs', Nat.not_lt.2 hn, Bool.false_eq_true, if_false]

theorem exec_fpr (he : s.noEngine n = false) (h1 : ∀ k, s.near s.here.ctx (s.here.rd a) 8 ≠ .bad k)
    (h2 : ∀ k, s.near s.here.ctx (s.here.rd a + 16) 8 ≠ .bad k) : exec (.fpr n a) s =
      .next (s.setHere (s.here.setEngine (engOf n) { s.here.engine (engOf n) with latch := some (s.here.rd a).toNat })).nextPc := by
  change execFpr n a s = _
  simp only [execFpr, he, Bool.false_eq_true, if_false]

end

/-- Settles O17: each word places its entry behind the queue; an erun does so only while its beat is not past. -/
theorem engineEntriesQueued : Obligations.EngineEntriesQueued := by
  intro s n a b c flags off fp he e g va vb vc no stamped queued
  refine ⟨fun hq ho hl hf => ⟨fun hs => ⟨_, exec_erun he hq ho hl hf, ?_⟩, fun ht hs hb => ⟨_, exec_erun he hq ho hl hf, ?_⟩⟩,
    fun hq => ⟨_, exec_eset he hq, engineBecomes_enqueue s (engOf n) _⟩,
    fun hq ho hs hn => ⟨_, exec_ekld he hq ho hs hn, engineBecomes_enqueue s (engOf n) _⟩,
    fun h1 h2 => ⟨_, exec_fpr he h1 h2, engineBecomes_setEngine s (engOf n) _⟩⟩
  · have hn : ¬ (flags.getLsbD 2 = true ∧ s.here.stamp.ult (s.dbc s.cur) = true) := fun h =>
      absurd (hs h.1) (Nat.not_le.2 (by simpa [BitVec.ult] using h.2))
    rw [if_neg hn]
    exact engineBecomes_enqueue_setEngine s (engOf n) { g with latch := none } (s.runEntry g off fp b c flags)
  · rw [if_pos ⟨hs, by simpa [BitVec.ult] using hb⟩]
    exact trapped_trap ht ..

end Sys2Proof.Machine
end

