-- ==== Sys2Proof/Proofs/Tokens.lean ====
section
/-! Transfer barriers, chains and counters (R101, R107), windows, tokens, replies and time (R102 to R109, R350): O21, O22. -/

namespace Sys2Proof.Machine

/-! ### Transfer barriers, chains and slot counters (R101, R107) -/

section
variable {s : State} {a d : BitVec 5} {xb : BitVec 4}

theorem Tile.xbar_set (x : Tile) (n k : Nat) (b : XBar) : ({ x with xb := FMap.set x.xb n b } : Tile).xbar k = if k = n then b else x.xbar k :=
  FMap.getD_set ..

theorem exec_xbwait (h : (s.here.xbar xb.toNat).pending = 0) : exec (.xbwait d xb) s =
    .next ((s.setHere { s.here with xb := FMap.set s.here.xb xb.toNat { pending := 0, status := 0 } }).retire d
      (BitVec.ofNat 64 ((s.here.xbar xb.toNat).status * 256))) := by
  change execXbwait d xb s = _
  simp only [execXbwait, h, ne_eq, not_true_eq_false, if_false]

/-- A tile whose word has changed other fields than its registers, with a register written. -/
theorem here_setHere_retire (s : State) (x : Tile) (d : BitVec 5) (v : Word) : ((s.setHere x).retire d v).here = (x.wr d v).adv := by
  rw [State.retire, State.here_setHere, State.here_setHere]

theorem onlyHere_setHere_retire (s : State) (x : Tile) (d : BitVec 5) (v : Word) : OnlyHere s ((s.setHere x).retire d v) :=
  onlyHere_setHere_setHere ..

theorem xbwait_leaves (s : State) (d : BitVec 5) (n : Nat) (b : XBar) (v : Word) :
    let t := (s.setHere { s.here with xb := FMap.set s.here.xb n b }).retire d v
    ((∀ k, t.here.xbar k = if k = n then b else s.here.xbar k) ∧ t.here.pc = s.here.pc + 4 ∧ OnlyHere s t)
      ∧ (∀ r, t.here.rd r = if r = d ∧ d ≠ 0 then v else s.here.rd r)
      ∧ { t.here with s := s.here.s, xb := s.here.xb, pc := s.here.pc } = s.here := by
  dsimp only
  rw [here_setHere_retire]
  refine ⟨⟨fun k => ?_, congrArg (· + 4) (Tile.wr_pc ..), onlyHere_setHere_retire ..⟩, fun r => Tile.rd_wr .., ?_⟩
  · rw [← Tile.xbar_set s.here n k b]
    unfold Tile.wr
    split <;> rfl
  · unfold Tile.wr
    split <;> rfl

theorem exec_xbarm : exec (.xbarm a xb) s = .next (if 255 < (s.here.xbar xb.toNat).pending + (s.here.rd a).toNat then
      s.trap 0x18 (BitVec.ofNat 64 xb.toNat)
    else (s.setHere
      { s.here with
        xb := FMap.set s.here.xb xb.toNat
          { s.here.xbar xb.toNat with pending := (s.here.xbar xb.toNat).pending + (s.here.rd a).toNat } }).nextPc) := rfl

variable {n : BitVec 1} {sc : BitVec 4} {off : Nat}

theorem Tile.pc_setCengine (x : Tile) (e : CEng) (g : CmdEngine) : (x.setCengine e g).pc = x.pc := by cases e <;> rfl

theorem exec_chlink (h : s.ownNear s.cur (s.here.rd a) 64 = .ok off) : exec (.chlink a n) s =
    .next (s.setHere (s.here.setCengine (chainEng n) { s.here.cengine (chainEng n) with head := s.here.rd a })).nextPc := by
  change execChlink a n s = _
  simp only [execChlink, h]

theorem exec_chkick (h1 : (s.here.cengine (chainEng n)).chain = none) (h2 : (s.here.cengine (chainEng n)).chainLast = none) :
    exec (.chkick n) s = .next (s.setHere (s.here.setCengine (chainEng n)
      { s.here.cengine (chainEng n) with chain := some (s.here.cengine (chainEng n)).head })).nextPc := by
  change execChkick n s = _
  simp only [execChkick, CmdEngine.chainRuns, h1, h2, Option.isSome_none, Bool.or_self, Bool.false_eq_true, if_false]

theorem exec_scwait (h : ((s.here.counter sc.toNat) + 2 ^ 16 - (s.here.rd a).toNat % 2 ^ 16) % 2 ^ 16 < 2 ^ 15) :
    exec (.scwait a sc) s = .next s.nextPc :=
  congrArg Host.Outcome.next (if_pos (decide_eq_true (by rwa [Nat.mod_mod])))

end

/-- Settles O21: each word changes its barrier, its engine's chain or its counter, and goes on where the rule lets it. -/
theorem transferBarriersAndChains : Obligations.TransferBarriersAndChains := by
  refine ⟨fun s a d xb => ?_, fun s a n sc off => ?_⟩
  · intro b m after
    refine ⟨fun h => ⟨_, exec_xbwait h, xbwait_leaves ..⟩, retires_of_exec rfl, fun h => ⟨_, exec_xbarm, ?_⟩, fun ht h => ⟨_, exec_xbarm, ?_⟩⟩
    · have h' : ¬ 255 < (s.here.xbar xb.toNat).pending + (s.here.rd a).toNat := Nat.not_lt.2 h
      rw [if_neg h']
      refine ⟨⟨fun k => ?_, ?_, onlyHere_setHere_nextPc ..⟩, ?_⟩
      · rw [here_setHere_nextPc]; exact Tile.xbar_set ..
      · rw [here_setHere_nextPc]; rfl
      · rw [here_setHere_nextPc]; rfl
    · have h' : 255 < (s.here.xbar xb.toNat).pending + (s.here.rd a).toNat := h
      rw [if_pos h']
      exact trapped_trap ht ..
  · intro e g v c
    refine ⟨fun h => ⟨_, exec_chlink h, becomes_setHere_nextPc (Tile.pc_setCengine ..)⟩,
      fun h1 h2 => ⟨_, exec_chkick h1 h2, becomes_setHere_nextPc (Tile.pc_setCengine ..)⟩,
      fun h => ⟨_, exec_scwait h, becomes_nextPc s⟩, ⟨_, rfl, ?_⟩⟩
    dsimp only
    rw [here_setHere_nextPc]
    exact ⟨fun k => FMap.getD_set .., rfl, rfl, rfl, onlyHere_setHere_nextPc ..⟩

/-! ### Windows and tokens (R102, R104) -/

section
variable {s : State} {a b d : BitVec 5} {w : BitVec 3} {pair : BitVec 2} {off : Nat}

theorem exec_hold (ho : s.ownNear s.cur (s.here.rd a) 32 = .ok off) (ha : (s.here.rd b).toNat % 32 = 0) (h0 : 0 < (s.here.rd b).toNat)
    (hl : off + (s.here.rd b).toNat ≤ 0xC0000) : exec (.hold a b w) s = .next (s.setHere { s.here with
      win := FMap.set s.here.win w.toNat { base := off, len := (s.here.rd b).toNat, inUse := true } }).nextPc := by
  change execHold a b w s = _
  have hb : ¬ ((s.here.rd b).toNat = 0 ∨ Config.scratchEnd < off + (s.here.rd b).toNat) :=
    not_or.2 ⟨Nat.pos_iff_ne_zero.1 h0, Nat.not_lt.2 hl⟩
  simp only [execHold, ho, ha, hb, ne_eq, not_true_eq_false, if_false]

theorem exec_tkpush (h1 : s.accesses s.cur = []) (h2 : s.here.reads = []) (hn : s.here.tokens pair.toNat < 8) :
    exec (.tkpush pair) s = .next (s.setHere { s.here.setTokens pair.toNat (s.here.tokens pair.toNat + 1) with evLatch := true }).nextPc := by
  change execTkpush pair s = _
  have hn' : ¬ Config.tokenFifo ≤ s.here.tokens pair.toNat := Nat.not_le.2 hn
  simp only [execTkpush, h1, h2, hn', List.isEmpty_nil, Bool.not_true, Bool.false_eq_true, or_self, if_false]

theorem Tile.pc_setTokens (x : Tile) (p n : Nat) : (x.setTokens p n).pc = x.pc := by
  unfold Tile.setTokens
  split
  · rfl
  · split <;> rfl
theorem Tile.tkAt_setTokens (x : Tile) (p n : Nat) : (x.setTokens p n).tkAt = x.tkAt := by
  unfold Tile.setTokens
  split
  · rfl
  · split <;> rfl

/-- A tkpop that has not waited asks as a unit of the next issue number would (R343). -/
theorem exec_tkpop (hn : s.here.owed pair.toNat < s.here.tokens pair.toNat) (ha : s.here.tkAt = none)
    (hu : s.here.unitBefore pair.toNat s.here.issueNo = false) :
    exec (.tkpop pair) s = .next (s.setHere (s.here.setTokens pair.toNat (s.here.tokens pair.toNat - 1))).nextPc := by
  have hat : (s.here.tkAt.getD (4 * s.here.issueNo + pair.toNat)) / 4 = s.here.issueNo := by
    rw [ha, Option.getD_none]
    have := pair.isLt
    omega
  have hx : { s.here.setTokens pair.toNat (s.here.tokens pair.toNat - 1) with tkAt := none }
      = s.here.setTokens pair.toNat (s.here.tokens pair.toNat - 1) := by
    rw [← ha, ← Tile.tkAt_setTokens]
  change execTkpop pair s = _
  simp only [execTkpop, hat, hu, Nat.not_le.2 hn, hx, Bool.false_eq_true, or_self, if_false]

end

/-! ### Replies, the event latch and time (R105, R106, R109, R350) -/

section
variable {s : State} {a d : BitVec 5} {w : Word}

theorem removeOne_eq_erase {α : Type} [DecidableEq α] (x : α) : ∀ l : List α, removeOne x l = l.erase x
  | [] => rfl
  | a :: l => by
    unfold removeOne
    rw [List.erase_cons, removeOne_eq_erase x l]
    simp only [beq_iff_eq]

theorem exec_rqpop {rest : List Word} (h : s.here.rq = w :: rest) : exec (.rqpop d) s = .next ((s.setHere { s.here with rq := rest }).retire d w) := by
  change execRqpop d s = _
  simp only [execRqpop, h]

theorem exec_replyPlacement (hr : s.here.rq.length < 32) (hf : firstReply s.here.rqHeld = some w) (hh : s.held s.cur = false)
    (hb : s.replyBefore s.cur (w.toNat / 2 ^ 56) = false) : exec .replyPlacement s =
      .next (s.setHere { s.here with rq := s.here.rq ++ [w], rqHeld := s.here.rqHeld.erase w, evLatch := true }) := by
  have hroom : s.here.replyRoom = true := decide_eq_true hr
  have hreply : ({ s.here with rqHeld := removeOne w s.here.rqHeld } : Tile).reply w =
      { s.here with rq := s.here.rq ++ [w], rqHeld := s.here.rqHeld.erase w, evLatch := true } := by
    rw [removeOne_eq_erase]
    exact if_pos hroom
  change execReplyPlacement s = _
  simp only [execReplyPlacement, hf, hroom, hh, hb, hreply, Bool.not_false, Bool.and_self, if_true]

theorem exec_wfe (h : s.here.evLatch = true) : exec .wfe s = .next (s.setHere { s.here with evLatch := false }).nextPc :=
  congrArg Host.Outcome.next (if_pos h)

/-- A sleep whose count has been reached goes on at once. -/
theorem sleepUntil_reached {aot : Bool} {r : Word} (h : s.here.sleep = none) (hp : s.here.promiseDue (s.dbc s.cur) = false)
    (hr : r.toNat ≤ (s.clock aot).toNat) : sleepUntil aot r s = (s.setHere { s.here with sleep := none }).nextPc := by
  have hu : r.ule (s.clock aot) = true := by simpa [BitVec.ule] using hr
  unfold sleepUntil
  simp only [h, hu, hp, Bool.not_false, and_self, if_true]

theorem becomes_sleepUntil_reached {aot : Bool} {r : Word} (h : s.here.sleep = none) (hp : s.here.promiseDue (s.dbc s.cur) = false)
    (hr : r.toNat ≤ (s.clock aot).toNat) : Becomes s (sleepUntil aot r s) s.here := by
  have hx : ({ s.here with sleep := none } : Tile) = s.here := by rw [← h]
  rw [sleepUntil_reached h hp hr, hx]
  exact becomes_setHere_nextPc rfl

theorem sleepUntil_waits {aot : Bool} {r : Word} (h : s.here.sleep = none) (hr : (s.clock aot).toNat < r.toNat) :
    sleepUntil aot r s = s.setHere { s.here with sleep := some (aot, r) } := by
  have hu : r.ule (s.clock aot) = false := by simpa [BitVec.ule] using hr
  unfold sleepUntil
  simp only [h, hu, Bool.false_eq_true, false_and, if_false]

theorem exec_sleepu_waits (h : s.here.sleep = none) (hr : (s.clock false).toNat < (s.here.rd a).toNat) :
    exec (.sleepu a) s = .next (s.setHere { s.here with sleep := some (false, s.here.rd a) }) :=
  congrArg Host.Outcome.next (sleepUntil_waits h hr)

theorem exec_sleepExpiry {aot : Bool} {v : Word} (hs : s.here.sleep = some (aot, v)) (hv : v.toNat ≤ (s.clock aot).toNat)
    (hh : s.held s.cur = false) (hp : s.here.promiseDue (s.dbc s.cur) = false) (hu : s.suspended s.cur = false)
    (hg : s.givenUp s.cur = false) (hd : s.here.hm = true ∨ s.here.pend = []) :
    exec .sleepExpiry s = .next (s.setHere { s.here with sleep := none }).nextPc := by
  have hv' : v.ule (s.clock aot) = true := by simpa [BitVec.ule] using hv
  have hd' : ¬ ((!s.here.hm) = true ∧ (!s.here.pend.isEmpty) = true) := by
    rcases hd with e | e
    · simp [e]
    · simp [e]
  change execSleepExpiry s = _
  simp only [execSleepExpiry, hs, hh, hp, hu, hg, hv', hd', Bool.false_eq_true, Bool.not_true, or_self, if_false]

end

/-- Settles O22: each word writes its window, token count, queue or latch, and goes on where the rule lets it. -/
theorem windowsTokensRepliesAndTime : Obligations.WindowsTokensRepliesAndTime := by
  refine ⟨fun s a b d w pair off hpair => ?_, fun s a d w rest aot v => ?_⟩
  · intro len p n with_ count
    have hwin : ∀ x, with_ (s.setHere { s.here with win := FMap.set s.here.win w.toNat x }).nextPc x := fun x => by
      refine ⟨fun k => ?_, ?_, ?_, onlyHere_setHere_nextPc ..⟩
      · rw [here_setHere_nextPc]; exact FMap.getD_set ..
      · rw [here_setHere_nextPc]; rfl
      · rw [here_setHere_nextPc]; rfl
    refine ⟨fun ho ha h0 hl => ⟨_, exec_hold ho ha h0 hl, hwin _⟩, ⟨_, rfl, hwin _⟩,
      fun h1 h2 hn => ⟨_, exec_tkpush h1 h2 hn, becomes_setHere_nextPc (Tile.pc_setTokens ..)⟩,
      fun hn ha hu => ⟨_, exec_tkpop hn ha hu, becomes_setHere_nextPc (Tile.pc_setTokens ..)⟩, retires_of_exec rfl⟩
  · intro beat
    refine ⟨fun h => ⟨_, exec_rqpop h, wrote_retire ..⟩, retires_of_exec rfl,
      fun hr hf hh hb => ⟨_, exec_replyPlacement hr hf hh hb, State.here_setHere .., onlyHere_setHere ..⟩,
      fun h => ⟨_, exec_wfe h, becomes_setHere_nextPc rfl⟩, retires_of_exec rfl, retires_of_exec rfl, ⟨_, rfl, wrote_retire ..⟩,
      fun h hp hr => ⟨_, rfl, becomes_sleepUntil_reached h hp hr⟩,
      fun h hp hr => ⟨_, rfl, becomes_sleepUntil_reached h hp hr⟩,
      fun h hr => ⟨_, exec_sleepu_waits h hr, State.here_setHere .., onlyHere_setHere ..⟩,
      fun hs hv hh hp hu hg hd => ⟨_, exec_sleepExpiry hs hv hh hp hu hg hd, becomes_setHere_nextPc rfl⟩⟩

end Sys2Proof.Machine
end

