-- ==== Sys2Proof/Proofs/Failing.lean ====
section
/-! The failure of a task that a tile runs alone (R131, R142, R352): its member is stopped, and the node keeps the outcome. -/

namespace Sys2Proof.Machine

/-! ### What leaves a tile's end as it is -/

section
variable (x : Tile)

theorem Tile.fin_reply (w : Word) : (x.reply w).fin = x.fin := by unfold Tile.reply; split <;> rfl
theorem Tile.fin_signalXb (n code : Nat) : (x.signalXb n code).fin = x.fin := rfl
theorem Tile.fin_setCengine (e : CEng) (g : CmdEngine) : (x.setCengine e g).fin = x.fin := by cases e <;> rfl

/-- The completion of a command that is discarded (R97): barrier ABORT, reply STOPPED. -/
def Tile.discarded (e : CEng) (x : Tile) (c : Cmd) : Tile :=
  let x := match c.xb with | some n => x.signalXb n 3 | none => x
  if bitN (c.byte 1) 4 then x.reply (c.replyOf e 4 0) else x

theorem Tile.fin_discarded (e : CEng) (c : Cmd) : (x.discarded e c).fin = x.fin := by
  have h : (match c.xb with | some n => x.signalXb n 3 | none => x).fin = x.fin := by split <;> rfl
  unfold Tile.discarded
  dsimp only
  split
  · rw [Tile.fin_reply, h]
  · exact h
theorem Tile.fin_foldl_discarded (e : CEng) (l : List Cmd) : (l.foldl (Tile.discarded e) x).fin = x.fin := by
  induction l generalizing x with
  | nil => rfl
  | cons c l ih => rw [List.foldl_cons, ih, Tile.fin_discarded]

end

/-! ### References of a command that ends -/

theorem State.Settled.foldl {α : Type} {l : List α} {f : State → α → State} {b s : State} (h : b.Settled s)
    (hf : ∀ (s : State) (a : α), s.Settled (f s a)) : b.Settled (l.foldl f s) := by
  induction l generalizing s with
  | nil => exact h
  | cons a l ih => exact ih (h.trans (hf s a))

theorem State.settled_releaseUnread (s : State) (a : Nat) (views : List Nat) : s.Settled (s.releaseUnread a views) :=
  (State.settled_setBuf ..).trans (State.freed_releaseUnread ..).settled
theorem State.settled_endBinds (s : State) (born no : Nat) (l : List Word) : s.Settled (s.endBinds born no l) := by
  refine (State.Settled.refl s).foldl fun s h => ?_
  split
  · exact (State.Freed.refl s).sendSpan.settled
  · exact .refl s
theorem State.settled_endRefs (s : State) (c : Cmd) : s.Settled (s.endRefs c) :=
  ((s.settled_endBinds ..).trans (State.settled_dropRefs ..)).foldl fun s _ => s.settled_releaseUnread ..

/-! ### The member of a tile stops -/

/-- `s` is `b` once references of buffers have gone and tile `t` has changed. -/
def State.SettledBeside (t : Nat) (b s : State) : Prop := b.Settled { s with tiles := b.tiles } ∧ ∀ u, u ≠ t → s.tile u = b.tile u

section
variable {t : Nat} {b s u : State}

theorem State.Settled.withTiles (h : s.Settled u) (l : FMap Tile) : State.Settled { s with tiles := l } { u with tiles := l } :=
  ⟨(congrArg (fun v : State => { v with tiles := l }) h.1 :), h.2.1, h.2.2⟩

theorem State.SettledBeside.refl (t : Nat) (b : State) : b.SettledBeside t b := ⟨.refl b, fun _ _ => rfl⟩
theorem State.SettledBeside.modTile (h : b.SettledBeside t s) (f : Tile → Tile) : b.SettledBeside t (s.modTile t f) :=
  ⟨h.1, fun v hv => (State.tile_modTile_ne s f hv).trans (h.2 v hv)⟩
theorem State.SettledBeside.settled (h : b.SettledBeside t s) (hu : s.Settled u) : b.SettledBeside t u :=
  ⟨h.1.trans (hu.withTiles _), fun v hv => (hu.tile v).trans (h.2 v hv)⟩

theorem State.SettledBeside.discardCmds (h : b.SettledBeside t s) (e : CEng) : b.SettledBeside t (s.discardCmds t e) :=
  (h.modTile _).settled ((State.Settled.refl _).foldl fun s c => s.settled_endRefs c)
theorem State.SettledBeside.dropSlots (h : b.SettledBeside t s) : b.SettledBeside t (s.dropSlots t) :=
  (h.modTile _).settled (State.settled_dropRefs ..)

theorem State.fin_discardCmds (s : State) (t : Nat) (e : CEng) : ((s.discardCmds t e).tile t).fin = (s.tile t).fin := by
  have h : ∀ s1 : State, ∀ l : List Cmd, (l.foldl (·.endRefs) s1).tile t = s1.tile t := fun s1 l =>
    (State.Settled.foldl (.refl s1) fun s c => s.settled_endRefs c).tile t
  unfold State.discardCmds
  dsimp only
  rw [h, State.tile_modTile_same]
  exact (Tile.fin_foldl_discarded _ e _).trans (Tile.fin_setCengine ..)

theorem State.fin_dropSlots (s : State) (t : Nat) : ((s.dropSlots t).tile t).fin = (s.tile t).fin := by
  unfold State.dropSlots
  dsimp only
  rw [(State.settled_dropRefs ..).tile, State.tile_modTile_same]

/-- The member of tile `t` stops at once where it stands in no wait that runs to its end (R92, R142). -/
theorem State.stopMember_leaves (h : (s.tile t).inside = false) : s.SettledBeside t (s.stopMember t) ∧ ((s.stopMember t).tile t).fin = true := by
  unfold State.stopMember
  simp only [h, Bool.false_eq_true, if_false]
  exact ⟨((((State.SettledBeside.refl t s).modTile _).discardCmds .ce).discardCmds .ie).dropSlots,
    by rw [State.fin_dropSlots, State.fin_discardCmds, State.fin_discardCmds, State.tile_modTile_same]⟩

theorem State.SettledBeside.node? (h : b.SettledBeside t s) {n : Nat} {x : Node} (hx : b.node? n = some x) :
    ∃ y, s.node? n = some y ∧ y.unwritten = x.unwritten := by
  have e : (s.node? n).map Node.unwritten = some x.unwritten := (h.1.2.2 n).trans (by rw [hx]; rfl)
  exact Option.map_eq_some_iff.1 e

/-- A task that the current tile runs alone ends with a failure (R131, R142). -/
theorem State.fail_alone {n : Nat} {x : Node} {cause : Nat} {tval : Word} (ha : s.alone n) (hi : s.here.inside = false)
    (hx : s.node? n = some x) : ((s.fail s.cur cause tval).node? n).bind (·.outcome) = some (0x14, cause, tval)
      ∧ (s.fail s.cur cause tval).here.fin = true ∧ OtherTiles s (s.fail s.cur cause tval) := by
  obtain ⟨hm, ht, -, -⟩ := ha
  obtain ⟨hs, hfin⟩ := s.stopMember_leaves hi
  obtain ⟨y, hy, -⟩ := hs.node? hx
  have hcur : (s.stopMember s.cur).cur = s.cur := (congrArg State.cur hs.1.1 :)
  have e : s.fail s.cur cause tval = { s.stopMember s.cur with
      nodes := FMap.set (s.stopMember s.cur).nodes n { y with outcome := some (0x14, cause, tval), overflow := none, yielding := none } } := by
    have ht' : (s.tile s.cur).task = some n := ht
    unfold State.fail State.failTask
    simp only [ht', hm, List.foldl_cons, List.foldl_nil]
    exact State.modNode_eq hy
  rw [e]
  refine ⟨?_, ?_, hs.2⟩
  · rw [State.node?, FMap.get?_set_same]; rfl
  · rw [State.here]
    dsimp only
    rw [hcur]
    exact hfin

end

end Sys2Proof.Machine
end

