-- ==== Sys2Proof/Proofs/Returns.lean ====
section
/-! Handlers end and faults are delivered (R121, R358 to R364): O29. -/

namespace Sys2Proof.Machine

/-! ### rte (R359, R361) -/

/-- What the handling of a fault touches is neither a register nor where the tile stands (R361). -/
def Tile.SameRegisters (x y : Tile) : Prop := y.s = x.s ∧ y.p = x.p ∧ y.handling = x.handling ∧ y.epc = x.epc

section
variable (x : Tile)

theorem Tile.sameRegisters_setFlt (src : Source) (b : Bool) : x.SameRegisters (x.setFlt src b) := by
  cases src <;> exact ⟨rfl, rfl, rfl, rfl⟩
theorem Tile.sameRegisters_setEngine (e : Eng) (g : Engine) : x.SameRegisters (x.setEngine e g) := by
  cases e <;> exact ⟨rfl, rfl, rfl, rfl⟩
theorem Tile.SameRegisters.trans {x y z : Tile} (h : x.SameRegisters y) (h' : y.SameRegisters z) : x.SameRegisters z :=
  ⟨h'.1.trans h.1, h'.2.1.trans h.2.1, h'.2.2.1.trans h.2.2.1, h'.2.2.2.trans h.2.2.2⟩
theorem Tile.sameRegisters_fault (src : Source) (cause : Nat) (tval beat : Word) : x.SameRegisters (x.fault src cause tval beat) := by
  unfold Tile.fault
  split
  · exact ⟨rfl, rfl, rfl, rfl⟩
  · exact Tile.SameRegisters.trans ⟨rfl, rfl, rfl, rfl⟩ (Tile.sameRegisters_setFlt ..)

/-- The engine whose FLT clears drops the first of its entries whose beat has passed (R361). -/
def Tile.missIn (x : Tile) (beat : Word) (e : Eng) : Tile :=
  match (x.engine e).queue.find? (fun q => match q.stamp with | some b => b.ult beat | none => false) with
  | some q => x.missEntry e q 6 beat
  | none => x

theorem Tile.sameRegisters_missEntry (e : Eng) (q : Entry) (why : Nat) (beat : Word) : x.SameRegisters (x.missEntry e q why beat) :=
  (Tile.sameRegisters_setEngine ..).trans (Tile.sameRegisters_fault ..)

theorem Tile.sameRegisters_missIn (beat : Word) (e : Eng) : x.SameRegisters (x.missIn beat e) := by
  unfold Tile.missIn
  split
  · exact Tile.sameRegisters_missEntry ..
  · exact ⟨rfl, rfl, rfl, rfl⟩

theorem Tile.missHeld_eq (src : Source) (beat : Word) :
    x.missHeld src beat = match src with | .ve => x.missIn beat .ve | .xe => x.missIn beat .xe | _ => x := by
  cases src <;> rfl

theorem Tile.sameRegisters_missHeld (src : Source) (beat : Word) : x.SameRegisters (x.missHeld src beat) := by
  rw [Tile.missHeld_eq]
  cases src
  case ve => exact Tile.sameRegisters_missIn ..
  case xe => exact Tile.sameRegisters_missIn ..
  all_goals exact ⟨rfl, rfl, rfl, rfl⟩

theorem Tile.missIn_of_unstamped {beat : Word} {e : Eng} (h : ∀ q ∈ (x.engine e).queue, q.stamp = none) : x.missIn beat e = x := by
  have hn : (x.engine e).queue.find? (fun q => match q.stamp with | some b => b.ult beat | none => false) = none :=
    List.find?_eq_none.2 fun q hq => by rw [h q hq]; exact Bool.false_ne_true
  unfold Tile.missIn
  rw [hn]

theorem Tile.missHeld_of_unstamped {src : Source} {beat : Word} (h : ∀ q ∈ x.ve.queue ++ x.xe.queue, q.stamp = none) :
    x.missHeld src beat = x := by
  rw [Tile.missHeld_eq]
  cases src
  case ve => exact x.missIn_of_unstamped fun q hq => h q (List.mem_append_left _ hq)
  case xe => exact x.missIn_of_unstamped fun q hq => h q (List.mem_append_right _ hq)
  all_goals rfl

end

/-- The tile at the return from the handler of a fault of `src`, before its program counter is set. -/
def Tile.handled (x : Tile) (src : Source) (now : Word) : Tile :=
  if x.pend.any (fun d => decide (d.source = src)) then { x with handling := none }
  else { x.setFlt src false with handling := none }.missHeld src now

/-- FLT of the source of a fault. -/
def Tile.fltOf (x : Tile) : Source → Bool
  | .ce => x.ce.flt
  | .ie => x.ie.flt
  | .ve => x.ve.flt
  | .xe => x.xe.flt
  | .promise | .landing => false

section
variable (x : Tile) (src : Source) (now : Word)

theorem Tile.sameRegisters_handled : { x with handling := none }.SameRegisters (x.handled src now) := by
  unfold Tile.handled
  split
  · exact ⟨rfl, rfl, rfl, rfl⟩
  · refine Tile.SameRegisters.trans ?_ (Tile.sameRegisters_missHeld ..)
    obtain ⟨h1, h2, -, h4⟩ := x.sameRegisters_setFlt src false
    exact ⟨h1, h2, rfl, h4⟩

theorem Tile.handled_of_other (h : ∃ d ∈ x.pend, d.source = src) : x.handled src now = { x with handling := none } :=
  if_pos (List.any_eq_true.2 (h.imp fun _ hd => ⟨hd.1, decide_eq_true hd.2⟩))

theorem Tile.handled_of_last (h : ∀ d ∈ x.pend, d.source ≠ src) (hq : ∀ q ∈ x.ve.queue ++ x.xe.queue, q.stamp = none) :
    x.handled src now = { x.setFlt src false with handling := none } := by
  have hn : ¬ x.pend.any (fun d => decide (d.source = src)) = true := fun e => by
    obtain ⟨d, hd, he⟩ := List.any_eq_true.1 e
    exact h d hd (of_decide_eq_true he)
  unfold Tile.handled
  rw [if_neg hn]
  refine Tile.missHeld_of_unstamped _ ?_
  cases src <;> exact hq

end

section
variable {s : State}

/-- The low two bits of a word. -/
theorem getLsbD_three (i : Nat) : (3 : Word).getLsbD i = decide (i < 2) := by
  by_cases h : i < 2
  · interval_cases i <;> rfl
  · rw [decide_eq_false h]
    exact Nat.testBit_lt_two_pow (Nat.lt_of_lt_of_le (by decide : 3 < 2 ^ 2) (Nat.pow_le_pow_right (by omega) (by omega)))

/-- The resumption address: EPC with its low bits clear. -/
theorem resumption_eq (v : Word) : BitVec.ofNat 64 (v.toNat / 4 * 4) = v &&& ~~~(3 : Word) := by
  have h : v &&& ~~~(3 : Word) = (v >>> 2) <<< 2 := by
    refine BitVec.eq_of_getLsbD_eq fun i hi => ?_
    rw [BitVec.getLsbD_and, BitVec.getLsbD_not, getLsbD_three, BitVec.getLsbD_shiftLeft, BitVec.getLsbD_ushiftRight]
    by_cases h2 : i < 2
    · simp [h2]
    · simp [h2, hi, Nat.add_sub_cancel' (Nat.le_of_not_lt h2)]
  rw [h]
  apply BitVec.eq_of_toNat_eq
  have := v.isLt
  simp only [BitVec.toNat_ofNat, BitVec.toNat_shiftLeft, BitVec.toNat_ushiftRight, Nat.shiftLeft_eq, Nat.shiftRight_eq_div_pow]

/-- The tile as an rte leaves it. -/
def Tile.returned (x : Tile) (now : Word) : Tile :=
  let y := match x.handling with | some src => x.handled src now | none => x
  { y with pc := y.epc &&& ~~~(3 : Word), hm := false }

theorem exec_rte (hm : s.here.hm = true) (he : s.here.epc.toNat < 2 ^ 55) : exec .rte s = .next (s.setHere (s.here.returned (s.dbc s.cur))) := by
  have he' : ¬ (s.tile s.cur).epc.toNat ≥ 2 ^ 55 := Nat.not_le.2 he
  have hr : s.rte s.cur = s.setHere (s.here.returned (s.dbc s.cur)) := by
    unfold State.rte Tile.returned
    dsimp only
    simp only [if_neg he', resumption_eq, State.here]
    cases (s.tile s.cur).handling <;> rfl
  exact congrArg Host.Outcome.next ((if_pos hm).trans hr)

theorem exec_rte_misaligned (hm : s.here.hm = true) (he : 2 ^ 55 ≤ s.here.epc.toNat) :
    exec .rte s = .next (s.fail s.cur 0x04 (s.here.epc &&& ~~~(3 : Word))) := by
  have hm' : (s.tile s.cur).hm = true := hm
  have hr : s.rte s.cur = s.fail s.cur 0x04 (BitVec.ofNat 64 (s.here.epc.toNat / 4 * 4)) := by
    refine (if_pos he).trans ?_
    unfold State.take
    simp only [hm', Bool.true_or, if_true]
    rfl
  rw [resumption_eq] at hr
  exact congrArg Host.Outcome.next ((if_pos hm).trans hr)

theorem exec_halt (hm : s.here.hm = true) : exec .halt s = .next (s.fail s.cur s.here.cause.toNat s.here.tval) :=
  congrArg Host.Outcome.next (if_pos hm)

/-! ### icinv (R31, R121) -/

/-- A tile without the words that its instruction cache holds. -/
def Tile.codeless (x : Tile) : Tile := { x with icache := [] }

theorem State.dropCode_frame (l : List Nat) (s : State) : { s.dropCode l with tiles := s.tiles } = s := by
  induction l generalizing s with
  | nil => rfl
  | cons t l ih => exact (congrArg (fun v : State => { v with tiles := s.tiles }) (ih (s.modTile t Tile.codeless)) :)

theorem State.tile_dropCode (l : List Nat) (s : State) (u : Nat) :
    (s.dropCode l).tile u = if u ∈ l then (s.tile u).codeless else s.tile u := by
  induction l generalizing s with
  | nil => rw [if_neg List.not_mem_nil]; rfl
  | cons t l ih =>
    refine (ih (s.modTile t Tile.codeless)).trans ?_
    by_cases h : u = t
    · subst h
      rw [State.tile_modTile_same, if_pos List.mem_cons_self]
      split <;> rfl
    · rw [State.tile_modTile_ne _ _ h]
      simp only [List.mem_cons, h, false_or]

/-- A tile that an icinv of the current tile empties. -/
def State.codeHere (s : State) (scope u : Nat) : Prop :=
  ((s.tile u).lastCtx = some s.here.ctx ∨ ((s.tile u).task.isSome = true ∧ (s.tile u).ctx = s.here.ctx)) ∧ sameUnit scope s.cur u = true

theorem FMap.mem_of_get? {α : Type} {k : Nat} {v : α} : ∀ {m : FMap α}, FMap.get? m k = some v → (k, v) ∈ m
  | (j, w) :: m, h => by
    unfold FMap.get? at h
    split at h
    · next e => cases h; exact e ▸ List.mem_cons_self
    · split at h
      · cases h
      · exact List.mem_cons_of_mem _ (FMap.mem_of_get? h)

theorem State.mem_tiles_of_ne {u : Nat} (h : s.tile u ≠ {}) : (u, s.tile u) ∈ s.tiles := by
  refine FMap.mem_of_get? ?_
  unfold State.tile FMap.getD at h ⊢
  cases hg : FMap.get? s.tiles u with
  | none => rw [hg] at h; exact absurd rfl h
  | some x => rfl

theorem State.ne_of_codeHere {scope u : Nat} (h : s.codeHere scope u) : s.tile u ≠ {} := fun e => by
  unfold State.codeHere at h
  rw [e] at h
  simp at h

theorem State.mem_codeHere (hs : Rising s.tiles) (scope u : Nat) :
    u ∈ (s.tiles.filter (fun t => (decide (t.2.lastCtx = some s.here.ctx) || t.2.task.isSome && decide (t.2.ctx = s.here.ctx)) &&
      sameUnit scope s.cur t.1)).map (·.1) ↔ s.codeHere scope u := by
  rw [List.mem_map]
  constructor
  · rintro ⟨m, hm, rfl⟩
    obtain ⟨hm, hp⟩ := List.mem_filter.1 hm
    unfold State.codeHere
    rw [State.tile_of_mem hs hm]
    simpa using hp
  · intro h
    exact ⟨(u, s.tile u), List.mem_filter.2 ⟨State.mem_tiles_of_ne (State.ne_of_codeHere h), by simpa [State.codeHere] using h⟩, rfl⟩

/-- The state once the tiles that an icinv names have lost their words. -/
theorem State.icinv_leaves (hs : Rising s.tiles) (ht : s.here.task.isSome = true) (scope : BitVec 4) : Completes (.icinv scope) s (fun t =>
    t.here = { s.here with icache := [], pc := s.here.pc + 4 } ∧ SameMem s t ∧ { t with tiles := s.tiles } = s
      ∧ ∀ u, u ≠ s.cur → t.tile u =
        if ((s.tile u).lastCtx = some s.here.ctx ∨ ((s.tile u).task.isSome = true ∧ (s.tile u).ctx = s.here.ctx))
          ∧ sameUnit scope.toNat s.cur u = true
        then { s.tile u with icache := [] } else s.tile u) := by
  generalize hl : (s.tiles.filter (fun t => (decide (t.2.lastCtx = some s.here.ctx) || t.2.task.isSome && decide (t.2.ctx = s.here.ctx)) &&
    sameUnit scope.toNat s.cur t.1)).map (·.1) = l
  have hmem : ∀ u, u ∈ l ↔ s.codeHere scope.toNat u := fun u => hl ▸ State.mem_codeHere hs ..
  have hf := State.dropCode_frame l s
  have hcur : (s.dropCode l).cur = s.cur := (congrArg State.cur hf :)
  have hh : (s.dropCode l).here = s.here.codeless := by
    rw [State.here, hcur, State.tile_dropCode, if_pos ((hmem _).2 ⟨.inr ⟨ht, rfl⟩, sameUnit_self ..⟩), State.here]
  refine ⟨(s.dropCode l).nextPc, ?_, ?_, fun k => ?_, ?_, fun u hu => ?_⟩
  · rw [← hl]; rfl
  · rw [State.nextPc, State.here_setHere, hh]; rfl
  · exact (congrArg (fun v : State => Mem.get v.mem k) hf :)
  · exact (congrArg (fun v : State => { v with tiles := s.tiles }) hf :)
  · rw [State.nextPc, State.tile_setHere_ne _ _ (hcur.symm ▸ hu), State.tile_dropCode]
    exact if_congr (hmem u) rfl rfl

/-! ### Delivery (R358, R363) -/

theorem Tile.unspawn_keeps (x : Tile) : x.unspawn.hm = x.hm ∧ x.unspawn.tvec = x.tvec ∧ x.unspawn.pc = x.pc := by
  unfold Tile.unspawn
  split <;> exact ⟨rfl, rfl, rfl⟩

theorem State.take_of_canTrap {x : Tile} (ht : x.canTrap) (cause : Nat) (tval : Word) : (s.setHere x).take s.cur cause tval true =
    (s.setHere x).setHere { x with epc := x.pc ||| 1, cause := BitVec.ofNat 64 cause, tval := tval, hm := true, sleep := none, pc := x.tvec } := by
  obtain ⟨h1, h2, h3⟩ := ht
  have e : (s.setHere x).tile s.cur = x := State.tile_setTile_same ..
  unfold State.take
  simp only [e, h1, h3, decide_eq_false h2, Bool.or_self, Bool.not_true, Bool.false_eq_true, if_false, if_true]
  rfl

/-- The tile to which its first fault is delivered, before the handler is entered. -/
def Tile.interruptedBy (x : Tile) (d : Delivery) (rest : List Delivery) : Tile :=
  { x.unspawn with pend := rest, sleep := none, tkAt := none, handling := some d.source }

theorem State.deliver_eq {d : Delivery} {rest : List Delivery} (hp : s.here.pend = d :: rest) :
    s.deliver s.cur = (s.setHere (s.here.interruptedBy d rest)).take s.cur d.cause d.tval true := by
  have hp' : (s.tile s.cur).pend = d :: rest := hp
  unfold State.deliver
  simp only [hp']
  rfl

theorem exec_faultDelivery {d : Delivery} {rest : List Delivery} (hp : s.here.pend = d :: rest) (hd : s.deliverable s.cur = true)
    (ht : s.here.canTrap) : exec .faultDelivery s = .next ((s.setHere (s.here.interruptedBy d rest)).setHere { s.here.unspawn with
      pend := rest, sleep := none, tkAt := none, handling := some d.source, epc := s.here.pc ||| 1, cause := BitVec.ofNat 64 d.cause
      tval := d.tval, hm := true, pc := s.here.tvec }) := by
  obtain ⟨k1, k2, k3⟩ := s.here.unspawn_keeps
  have ht' : (s.here.interruptedBy d rest).canTrap := ⟨k1.trans ht.1, fun e => ht.2.1 (k2.symm.trans e), (congrArg pcOk k2).trans ht.2.2⟩
  have e := (State.deliver_eq hp).trans (State.take_of_canTrap ht' d.cause d.tval)
  have hpc : (s.here.interruptedBy d rest).pc = s.here.pc := k3
  have htv : (s.here.interruptedBy d rest).tvec = s.here.tvec := k2
  rw [← hpc, ← htv]
  exact congrArg Host.Outcome.next ((if_pos hd).trans e)

end

/-- Settles O29: rte and halt at once or by the failure of the task; an icinv tile by tile; a delivery sets EPC and goes to the handler. -/
theorem handlersEndAndDeliver : Obligations.HandlersEndAndDeliver := by
  refine ⟨fun s n x scope => ⟨fun hm he hh => ⟨_, exec_rte hm he, ?_, onlyHere_setHere ..⟩, fun src hm he hh => ⟨_, exec_rte hm he, ?_⟩,
      fun _ hm he ha hi hx => ⟨_, exec_rte_misaligned hm he, State.fail_alone ha hi hx⟩,
      fun _ hm ha hi hx => ⟨_, exec_halt hm, State.fail_alone ha hi hx⟩, fun hok ht => State.icinv_leaves hok.2.1 ht scope⟩,
    fun s d rest hp hd ht => ?_⟩
  · rw [State.here_setHere, Tile.returned, hh]
  · dsimp only
    rw [State.here_setHere, Tile.returned, hh]
    obtain ⟨h1, h2, h3, h4⟩ := s.here.sameRegisters_handled src (s.dbc s.cur)
    refine ⟨rfl, congrArg (· &&& _) h4, h3, h1, h2, fun hn hq => ?_, fun ho => ?_, onlyHere_setHere ..⟩
    · dsimp only
      rw [Tile.handled_of_last _ _ _ hn hq]
      cases src <;> exact ⟨rfl, rfl⟩
    · dsimp only
      rw [Tile.handled_of_other _ _ _ ho]
      cases src <;> exact ⟨rfl, rfl⟩
  · exact ⟨_, exec_faultDelivery hp hd ht, State.here_setHere .., onlyHere_setHere_setHere ..⟩

end Sys2Proof.Machine
end

