-- ==== Sys2Proof/Proofs/Tags.lean ====
section
/-! Meeting tags (R120, R309, R310, R354): O25. -/

namespace Sys2Proof.Machine

/-! ### A free value -/

theorem firstFree_none_of {ok : Nat → Bool} {lo n : Nat} : ∀ {fuel start : Nat}, firstFree ok lo n start fuel = none →
    ∀ j, j < fuel → ok (lo + (start + j) % n) = false
  | fuel + 1, start, h, j, hj => by
    unfold firstFree at h
    dsimp only at h
    split at h
    · cases h
    · next hok =>
      cases j with
      | zero => exact Bool.not_eq_true _ ▸ hok
      | succ j =>
        have := firstFree_none_of h j (by omega)
        rwa [show start + (j + 1) = start + 1 + j by omega]

/-- A search that tries every value of a range finds one, where there is one. -/
theorem firstFree_some {ok : Nat → Bool} {n start r : Nat} (hr : r < n) (hok : ok r = true) : ∃ k, firstFree ok 0 n start n = some k := by
  cases h : firstFree ok 0 n start n with
  | some k => exact ⟨k, rfl⟩
  | none =>
    have hn : 0 < n := by omega
    have hm : (start + (r + (n - start % n)) % n) % n = r := by
      have hs := Nat.div_add_mod start n
      have hl := Nat.mod_lt start hn
      have e : start + (r + (n - start % n)) = n * (start / n + 1) + r := by rw [Nat.mul_succ]; omega
      rw [Nat.add_mod_mod, e, Nat.mul_add_mod, Nat.mod_eq_of_lt hr]
    have := firstFree_none_of h _ (Nat.mod_lt (r + (n - start % n)) hn)
    rw [hm, Nat.zero_add, hok] at this
    cases this

/-- Fewer values than a range has leave one of it free. -/
theorem exists_unused {α : Type} (f : α → Nat) {l : List α} {n : Nat} (h : l.length < n) : ∃ r, r < n ∧ ∀ a ∈ l, f a ≠ r := by
  have hc : (l.map f).toFinset.card < (Finset.range n).card := by
    rw [Finset.card_range]
    exact Nat.lt_of_le_of_lt (List.toFinset_card_le _) (by rwa [List.length_map])
  obtain ⟨r, hr, hn⟩ := Finset.exists_mem_notMem_of_card_lt_card hc
  exact ⟨r, Finset.mem_range.1 hr, fun a ha e => hn (List.mem_toFinset.2 (List.mem_map.2 ⟨a, ha, e⟩))⟩

/-- The first free value of a field of the elements of a list: in its range, and no element has it. -/
theorem firstFree_unused {α : Type} (f : α → Nat) {l : List α} {n : Nat} (start : Nat) (h : l.length < n) {k : Nat}
    (hk : k = (firstFree (fun k => l.all (fun a => decide (f a ≠ k))) 0 n start n).getD 0) : k < n ∧ ∀ a ∈ l, f a ≠ k := by
  obtain ⟨r, hr, hu⟩ := exists_unused f h
  obtain ⟨j, hj⟩ := firstFree_some (ok := fun k => l.all (fun a => decide (f a ≠ k))) (start := start) hr
    (List.all_eq_true.2 fun a ha => decide_eq_true (hu a ha))
  obtain ⟨hok, -, hlt⟩ := firstFree_spec (Nat.zero_lt_of_lt hr) hj
  rw [hk, hj]
  exact ⟨by simpa using hlt, fun a ha => of_decide_eq_true (List.all_eq_true.1 hok a ha)⟩

/-! ### taga and tagf -/

section
variable {s : State} {d a b : BitVec 5} {op : BitVec 2}

/-- The tag that a taga makes live. -/
def State.newTag (s : State) (scope len : Nat) : Tag :=
  let x := s.ctxAt s.here.ctx
  let i := (firstFree (fun k => x.tags.all (fun t => decide (tagIndex t.tag ≠ k))) 0 (2 ^ 20) s.pick (2 ^ 20)).getD 0
  { tag := FMap.getD 0 x.tagGen i * 2 ^ 24 + scope * 2 ^ 20 + i, len := len, timeout := (x.iodReg 0x088).toNat % 2 ^ 32
    entry := (firstFree (fun k => x.tags.all (fun t => decide (t.entry ≠ k))) 0 Config.tagLimit s.pick Config.tagLimit).getD 0 }

/-- The scope and index of a tag, from its three fields. -/
theorem tag_fields {g scope i : Nat} (hs : scope < 16) (hi : i < 2 ^ 20) :
    tagScope (g * 2 ^ 24 + scope * 2 ^ 20 + i) = scope ∧ tagIndex (g * 2 ^ 24 + scope * 2 ^ 20 + i) = i := by
  unfold tagScope tagIndex bitsN
  omega

theorem State.newTag_spec {scope len : Nat} (hs : scope < 16) (hl : (s.ctxAt s.here.ctx).tags.length < 4096) :
    tagScope (s.newTag scope len).tag = scope ∧ (∀ h ∈ (s.ctxAt s.here.ctx).tags, tagIndex h.tag ≠ tagIndex (s.newTag scope len).tag)
      ∧ ∀ h ∈ (s.ctxAt s.here.ctx).tags, h.entry ≠ (s.newTag scope len).entry := by
  obtain ⟨hi, hu⟩ := firstFree_unused (fun t : Tag => tagIndex t.tag) s.pick (Nat.lt_trans hl (by decide : 4096 < 2 ^ 20)) rfl
  obtain ⟨hscope, hindex⟩ := tag_fields (g := FMap.getD 0 (s.ctxAt s.here.ctx).tagGen _) hs hi
  refine ⟨hscope, fun h hh => ?_, (firstFree_unused Tag.entry s.pick hl rfl).2⟩
  exact fun e => hu h hh (e.trans hindex)

theorem exec_taga (h1 : (s.here.rd a).toNat % 16 ≤ 4) (h2 : (s.here.rd a).toNat % 16 = 4 → s.pkg.fmapen.getLsbD 6 = true)
    (h3 : (s.here.rd b).toNat % 32 = 0 ∧ 32 ≤ (s.here.rd b).toNat ∧ (s.here.rd b).toNat ≤ 2048)
    (h4 : (s.ctxAt s.here.ctx).tags.length < 4096) : exec (.taga d a b) s =
      .next ((s.picked.modCtx s.here.ctx (fun x => { x with tags := x.tags ++ [s.newTag ((s.here.rd a).toNat % 16) (s.here.rd b).toNat] })).retire d
        (BitVec.ofNat 64 (s.newTag ((s.here.rd a).toNat % 16) (s.here.rd b).toNat).tag)) := by
  have k1 : ¬ (4 < (s.here.rd a).toNat % 16 ∨ ((s.here.rd a).toNat % 16 = 4 ∧ (!s.pkg.fmapen.getLsbD 6) = true)) := by
    rintro (h | ⟨h, hf⟩)
    · omega
    · rw [h2 h] at hf; cases hf
  have k2 : ¬ ((s.here.rd b).toNat % 32 ≠ 0 ∨ (s.here.rd b).toNat = 0 ∨ 2048 < (s.here.rd b).toNat) := by omega
  have k3 : ¬ Config.tagLimit ≤ (s.ctxAt s.here.ctx).tags.length := Nat.not_le.2 h4
  exact congrArg Host.Outcome.next ((if_neg k1).trans ((if_neg k2).trans (if_neg k3)))

theorem wrote_retire_ctx (s : State) (f : Ctx → Ctx) (c : Nat) (d : BitVec 5) (v : Word) :
    let t := (s.picked.modCtx c f).retire d v
    Wrote { s with ctxs := t.ctxs, fresh := t.fresh } t d v := wrote_retire (s.picked.modCtx c f) d v

theorem exec_tagf {tag : Tag} (h : s.liveTag s.here.ctx (s.here.rd a).toNat = some tag) :
    exec (.tagf a) s = .next ({ s.retireTag s.here.ctx (s.here.rd a).toNat with
      meets := (s.retireTag s.here.ctx (s.here.rd a).toNat).meets ++ [mailTo s.cur (s.stationOf s.cur (s.here.rd a).toNat) s.here.ctx
        (.withdraw s.here.ctx (s.here.rd a).toNat)] } : State).nextPc := by
  change execTagf a s = _
  simp only [execTagf, h]

theorem exec_tagf_dead (h : s.liveTag s.here.ctx (s.here.rd a).toNat = none) : exec (.tagf a) s = .next (s.trap 0x19 (s.here.rd a)) := by
  change execTagf a s = _
  simp only [execTagf, h]

theorem State.retireTag_of_live {c n : Nat} {tag : Tag} (h : s.liveTag c n = some tag) : s.retireTag c n =
    s.modCtx c (fun x => { x with
      tags := x.tags.filter (fun t => decide (t.tag ≠ n))
      tagGen := FMap.set x.tagGen (tagIndex n) ((n / 2 ^ 24 + 1) % 2 ^ 8) }) :=
  if_pos (by rw [h]; rfl)

/-- A context that is changed, and every other. -/
theorem State.ctxAt_modCtx_same (s : State) (c : Nat) (f : Ctx → Ctx) : (s.modCtx c f).ctxAt c = f (s.ctxAt c) := State.ctxAt_setCtx_same ..

/-! ### meet -/

theorem rankAt_eq (u t : Nat) : rankAt u t = if t = u then 1 else 0 := rfl

theorem State.meetRange_ok {v : Word} {len u off : Nat} (hn : s.near s.here.ctx v 32 = .ok u off) (hl : off + len ≤ 0xC0000) :
    s.meetRange v len = .ok u off := by
  have hl' : ¬ Config.scratchEnd < off + len := Nat.not_lt.2 hl
  unfold State.meetRange
  rw [hn]
  exact if_neg hl'

/-- The operand that a meet sends. -/
def State.operandOf (s : State) (a d : BitVec 5) (op : BitVec 2) (tag : Tag) (u off : Nat) : Operand :=
  { ctx := s.here.ctx, tag := (s.here.rd a).toNat, op := op.toNat, node := s.nodeId (s.here.task.getD 0), vtile := s.here.vtile
    ptile := s.cur, data := Mem.bytes s.mem (nearKey u off) tag.len, dest := s.here.rd d, timeout := tag.timeout, entry := tag.entry }

theorem exec_meet {tag : Tag} {u off : Nat} (ha : s.here.acquires = false) (ht : s.liveTag s.here.ctx (s.here.rd a).toNat = some tag)
    (hs : s.meetRange (s.here.rd b) tag.len = .ok u off)
    (hd : s.here.rd d = 0 ∨ ∃ v o, s.meetRange (s.here.rd d) tag.len = .ok v o)
    (hl : s.rangeLanding u off tag.len = false) (hb : s.stalls u (rankAt s.cur u) off tag.len = false)
    (hp : ∀ p ∈ s.accesses s.cur, p.orders u off tag.len false = false) : exec (.meet d a b op) s =
      .next ({ s.touch u (rankAt s.cur u) off tag.len with
        meets := s.meets ++ [mailTo s.cur (s.stationOf s.cur (s.here.rd a).toNat) s.here.ctx (.operand (s.operandOf a d op tag u off))] } : State).nextPc := by
  have hd' : ∃ v o, (if s.here.rd d = 0 then RangeRes.ok 0 0 else s.meetRange (s.here.rd d) tag.len) = .ok v o := by
    rcases hd with h | ⟨v, o, h⟩
    · exact ⟨0, 0, if_pos h⟩
    · by_cases h0 : s.here.rd d = 0
      · exact ⟨0, 0, if_pos h0⟩
      · exact ⟨v, o, (if_neg h0).trans h⟩
  obtain ⟨v, o, hd'⟩ := hd'
  have hp' : (s.accesses s.cur).any (fun q => q.orders u off tag.len false) = false :=
    List.any_eq_false.2 fun q hq => by simp [hp q hq]
  change execMeet d a b op s = _
  simp only [execMeet, ha, ht, hs, hd', hl, hb, hp', Bool.or_self, Bool.false_eq_true, if_false]
  rfl

theorem exec_meet_dead (ha : s.here.acquires = false) (h : s.liveTag s.here.ctx (s.here.rd a).toNat = none) :
    exec (.meet d a b op) s = .next (s.trap 0x19 (s.here.rd a)) := by
  change execMeet d a b op s = _
  simp only [execMeet, ha, h, Bool.false_eq_true, if_false]

end

/-- Settles O25: the new tag's index is free because fewer tags are live than there are indices; the other words act on the live tag. -/
theorem meetingTags : Obligations.MeetingTags := by
  intro s d a b op tag u off va scope len c tags lenOk
  refine ⟨fun h1 h2 h3 h4 => ⟨_, exec_taga h1 h2 h3 h4, s.newTag scope len, ?_⟩, fun h => ⟨_, exec_tagf h, ?_⟩,
    fun ha ht hn hlen hd hl hb hp => ⟨_, exec_meet ha ht (State.meetRange_ok hn hlen) ?_ hl hb hp, ⟨_, rfl, rfl, rfl, rfl, rfl, rfl, rfl, rfl, ?_⟩,
      becomes_nextPc _⟩,
    fun htrap => ⟨fun h => ⟨_, congrArg Host.Outcome.next (if_pos (.inl h)), trapped_trap htrap ..⟩, fun h hn => ⟨_, ?_, trapped_trap htrap ..⟩,
      fun h hok hfull => ⟨_, ?_, trapped_trap htrap ..⟩, fun h => ⟨⟨_, ?_, trapped_trap htrap ..⟩, fun ha => ⟨_, ?_, trapped_trap htrap ..⟩⟩⟩⟩
  · obtain ⟨hs, hi, he⟩ := State.newTag_spec (s := s) (len := len) (Nat.lt_of_le_of_lt h1 (by decide)) h4
    have hc := State.ctxAt_modCtx_same s.picked c fun x => { x with tags := x.tags ++ [s.newTag scope len] }
    exact ⟨congrArg Ctx.tags hc, rfl, hs, hi, he, wrote_retire_ctx ..,
      fun e hne => State.ctxAt_setCtx_ne s.picked _ hne⟩
  · rw [State.retireTag_of_live h]
    have hc := State.ctxAt_modCtx_same s s.here.ctx (fun x => { x with
      tags := x.tags.filter (fun t => decide (t.tag ≠ va.toNat))
      tagGen := FMap.set x.tagGen (tagIndex va.toNat) ((va.toNat / 2 ^ 24 + 1) % 2 ^ 8) })
    refine ⟨congrArg Ctx.tags hc, ?_, rfl, (becomes_nextPc _).1, (becomes_nextPc _).2.1, fun _ => rfl⟩
    exact (congrArg (fun x : Ctx => FMap.getD 0 x.tagGen (va.toNat % 2 ^ 20)) hc).trans (FMap.getD_set_same ..)
  · exact hd.imp id fun ⟨v, o, hv, ho⟩ => ⟨v, o, State.meetRange_ok hv ho⟩
  · exact Mem.bytes_eq ..
  · have k1 : ¬ (4 < scope ∨ (scope = 4 ∧ (!s.pkg.fmapen.getLsbD 6) = true)) := by omega
    have k2 : (s.here.rd b).toNat % 32 ≠ 0 ∨ (s.here.rd b).toNat = 0 ∨ 2048 < (s.here.rd b).toNat := by
      by_contra hc
      exact hn ⟨by omega, by omega, by omega⟩
    exact congrArg Host.Outcome.next ((if_neg k1).trans (if_pos k2))
  · have k1 : ¬ (4 < scope ∨ (scope = 4 ∧ (!s.pkg.fmapen.getLsbD 6) = true)) := by omega
    have k2 : ¬ ((s.here.rd b).toNat % 32 ≠ 0 ∨ (s.here.rd b).toNat = 0 ∨ 2048 < (s.here.rd b).toNat) := by
      obtain ⟨h1, h2, h3⟩ := hok
      omega
    exact congrArg Host.Outcome.next ((if_neg k1).trans ((if_neg k2).trans (if_pos hfull)))
  · exact exec_tagf_dead h
  · exact exec_meet_dead ha h

end Sys2Proof.Machine
end

