-- ==== Sys2Proof/Proofs/Issued.lean ====
section
/-! Commands issued by cpy and idx (R99, R100, R208, R264, R382): O20. -/

namespace Sys2Proof.Machine

/-! ### One reference for each buffer named (R99, R264) -/

theorem mem_oneEach {h : Word} : ∀ {l : List Word}, h ∈ oneEach l → h ∈ l
  | g :: l, hm => by
    rcases List.mem_cons.1 hm with e | hm
    · exact e ▸ List.mem_cons_self
    · exact List.mem_cons_of_mem _ (mem_oneEach (List.mem_filter.1 hm).1)

/-- Of the handles that a list names, one of each buffer is kept. -/
theorem countP_oneEach (a : Nat) : ∀ l : List Word, (oneEach l).countP (fun h => decide (accOf h = a)) =
    if l.any (fun h => decide (accOf h = a)) then 1 else 0
  | [] => rfl
  | h :: l => by
    have ih := countP_oneEach a l
    rw [oneEach, List.countP_cons, List.countP_filter]
    by_cases e : accOf h = a
    · have hz : (oneEach l).countP (fun g => decide (accOf g = a) && decide (accOf g ≠ accOf h)) = 0 :=
        List.countP_eq_zero.2 fun g _ => by simp [e]
      rw [hz]
      simp [e]
    · have hs : (oneEach l).countP (fun g => decide (accOf g = a) && decide (accOf g ≠ accOf h)) = (oneEach l).countP (fun g => decide (accOf g = a)) :=
        List.countP_congr fun g _ => by
          by_cases eg : accOf g = a
          · simp [eg, Ne.symm e]
          · simp [eg]
      rw [hs, ih]
      simp [e]

theorem State.count_countRefs (a : Nat) : ∀ (l : List Word) (s : State),
    ((s.countRefs l).buf a).count = (s.buf a).count + l.countP (fun h => decide (accOf h = a))
  | [], s => rfl
  | h :: l, s => by
    have e : ((s.modBuf (accOf h) fun b => { b with count := b.count + 1 }).buf a).count = (s.buf a).count + if accOf h = a then 1 else 0 := by
      split
      · next e => subst e; rw [State.buf_modBuf_same]
      · next e => rw [State.buf_modBuf_ne _ _ (Ne.symm e)]; rfl
    refine (State.count_countRefs a l (s.modBuf (accOf h) fun b => { b with count := b.count + 1 })).trans ?_
    rw [e, List.countP_cons]
    simp only [decide_eq_true_eq]
    omega

theorem Cmd.countP_refs (c : Cmd) (a : Nat) :
    c.refs.countP (fun h => decide (accOf h = a)) = if c.caps.any (fun y => decide (accOf y.2.1 = a)) then 1 else 0 := by
  rw [Cmd.refs, countP_oneEach, List.any_map]
  rfl

theorem State.count_accept (s : State) (t : Nat) (e : CEng) (c : Cmd) (a : Nat) : ((s.accept t e c).buf a).count =
    (s.buf a).count + if c.caps.any (fun y => decide (accOf y.2.1 = a)) then 1 else 0 := by
  have h := State.count_countRefs a c.refs (s.modTile t (·.taking e c))
  rw [Cmd.countP_refs] at h
  rw [State.accept_unfold]
  dsimp only
  generalize (s.modTile t (·.taking e c)).countRefs c.refs = r at h
  obtain ⟨m, hm⟩ := State.markDirty_eq (r.tile t).ctx (s.destPages t c) r
  rw [hm]
  exact h

/-! ### The tile that accepts -/

section
variable (x : Tile) (e : CEng) (c : Cmd)

theorem Tile.armXb_eq (xb : Option Nat) : ∃ b, x.armXb xb = { x with xb := b }
    ∧ ∀ n, FMap.getD {} b n = { x.xbar n with pending := (x.xbar n).pending + if xb = some n then 1 else 0 } := by
  cases xb with
  | none => exact ⟨x.xb, rfl, fun n => rfl⟩
  | some k =>
    refine ⟨_, rfl, fun n => ?_⟩
    rw [FMap.getD_set]
    by_cases h : n = k
    · subst h; simp
    · simp [h, Ne.symm h, Tile.xbar]

/-- The tile that has accepted a command: its engine, its barriers and its issue number. -/
theorem Tile.taking_eq : ∃ b, x.taking e c = { x.setCengine e { x.cengine e with cmds := (x.cengine e).cmds ++ [c] } with
      xb := b, issueNo := x.issueNo + 1 }
    ∧ ∀ n, FMap.getD {} b n = { x.xbar n with pending := (x.xbar n).pending + if c.xb = some n then 1 else 0 } := by
  obtain ⟨b, hb, hn⟩ := (x.setCengine e { x.cengine e with cmds := (x.cengine e).cmds ++ [c] }).armXb_eq c.xb
  refine ⟨b, ?_, fun n => (hn n).trans ?_⟩
  · unfold Tile.taking
    rw [hb]
  · cases e <;> rfl

/-- A word that writes a register and goes on. -/
theorem Tile.wr_adv_eq (d : BitVec 5) (v : Word) : ∃ r, (x.wr d v).adv = { x with s := r, pc := x.pc + 4 } := by
  unfold Tile.wr
  split
  · exact ⟨x.s, rfl⟩
  · exact ⟨_, rfl⟩

end

/-- The acceptance of a command, on the tile that has read its block and goes on. -/
theorem Tile.taking_leaves (x : Tile) (e : CEng) (c : Cmd) (d : BitVec 5) (v : Word) :
    let y := ((x.taking e c).wr d v).adv
    (y.cengine e).cmds = (x.cengine e).cmds ++ [c] ∧ y.issueNo = x.issueNo + 1
      ∧ (∀ n, (y.xbar n).pending = (x.xbar n).pending + if c.xb = some n then 1 else 0) ∧ (∀ n, (y.xbar n).status = (x.xbar n).status)
      ∧ y.pc = x.pc + 4 ∧ ∀ r, y.rd r = if r = d ∧ d ≠ 0 then v else x.rd r := by
  dsimp only
  have hrd : ∀ r, ((x.taking e c).wr d v).adv.rd r = if r = d ∧ d ≠ 0 then v else (x.taking e c).rd r := fun r => Tile.rd_wr ..
  obtain ⟨b, hb, hn⟩ := x.taking_eq e c
  obtain ⟨q, hq⟩ := (x.taking e c).wr_adv_eq d v
  have hx : (x.taking e c).rd = x.rd := by rw [hb]; cases e <;> rfl
  rw [hx] at hrd
  refine ⟨?_, ?_, fun n => ?_, fun n => ?_, ?_, hrd⟩
  · rw [hq, hb]; cases e <;> rfl
  · rw [hq, hb]
  · rw [hq, hb]; exact (congrArg XBar.pending (hn n) :)
  · rw [hq, hb]; exact (congrArg XBar.status (hn n) :)
  · rw [hq, hb]; cases e <;> rfl

/-- The command stands in its engine's queue once the block has been read, and `d` has the promised beat. -/
theorem accepted_retire {s s1 : State} (hc : s1.cur = s.cur) (ht : s1.tiles = s.tiles) (hb : s1.bufs = s.bufs) (hm : s1.mem = s.mem)
    (e : CEng) (c : Cmd) (off : Nat) (d : BitVec 5) (v : Word) :
    let t := ((s1.touch s.cur 1 off 64).accept s.cur e c).retire d v
    accepted s t e c ∧ t.here.pc = s.here.pc + 4 ∧ ∀ r, t.here.rd r = if r = d ∧ d ≠ 0 then v else s.here.rd r := by
  dsimp only
  have hcur : ((s1.touch s.cur 1 off 64).accept s.cur e c).cur = s.cur := (State.cur_accept ..).trans hc
  have htile : (s1.touch s.cur 1 off 64).tile s.cur = s.here.useBanks 1 off 64 := by
    refine (State.tile_modTile_same ..).trans ?_
    rw [State.tile_congr ht, State.here]
  have hh : (((s1.touch s.cur 1 off 64).accept s.cur e c).retire d v).here = (((s.here.useBanks 1 off 64).taking e c).wr d v).adv := by
    rw [State.retire, State.here_setHere, State.here, hcur, State.tile_accept_same, htile]
  obtain ⟨h1, h2, h3, h4, h5, h6⟩ := (s.here.useBanks 1 off 64).taking_leaves e c d v
  rw [← hh] at h1 h2 h3 h4 h5 h6
  refine ⟨⟨h1.trans ?_, h2, h3, h4, fun a => ?_, fun u hu => ?_, fun hp k => ?_⟩, h5, h6⟩
  · cases e <;> rfl
  · refine (State.count_accept (s1.touch s.cur 1 off 64) s.cur e c a).trans ?_
    rw [State.buf_congr (s := s) (t := s1.touch s.cur 1 off 64) hb]
  · refine (State.tile_setHere_ne _ _ (hcur.symm ▸ hu)).trans ?_
    rw [State.tile_accept_ne _ _ _ hu, State.touch_tile_ne _ _ _ _ hu, State.tile_congr ht]
  · have hcaps : ((s1.touch s.cur 1 off 64).tile s.cur).caps = (s.tile s.cur).caps := by rw [htile]; rfl
    exact congrArg (fun m => Mem.get m k) ((State.mem_accept ((State.destPages_congr c hcaps hb).trans hp)).trans hm)

/-! ### cpy and idx -/

/-- The word that issues a block to an engine. -/
def issueWord (e : CEng) (a d : BitVec 5) (xb : BitVec 4) : Instr := match e with | .ce => .cpy a d xb | .ie => .idx a d xb

/-- What an issued block leaves, as its checks came out. -/
def State.issued (s : State) (e : CEng) (a d : BitVec 5) (r : Accept) : State :=
  match r with
  | .stall => s
  | .unbound c => s.askBinds s.cur c
  | .trap k v => s.trap k v
  | .illegal => (s.raise s.cur (cengSource e) 0x13 (s.here.rd a)).retire d 0
  | .ok c => match s.promise s.cur e c d with
    | none => ((s.touch s.cur 1 c.at_ 64).accept s.cur e c).retire d 0
    | some p => ((s.picked.touch s.cur 1 c.at_ 64).accept s.cur e { c with promise := some p }).retire d p

section
variable {s : State} {a d : BitVec 5} {xb : BitVec 4} {e : CEng} {off : Nat}

/-- An issued block that nothing holds up goes as its checks came out. -/
theorem exec_issueWord (hf : (s.here.cengine e).cmds.length < (match e with | .ce => 32 | .ie => 16)) (hr : s.here.reads = [])
    (ho : s.ownNear s.cur (s.here.rd a) 64 = .ok off) (hs : s.stalls s.cur 1 off 64 = false) :
    exec (issueWord e a d xb) s = .next (s.issued e a d (s.checkBlock s.cur off e (some xb.toNat) false)) := by
  have hfull : s.here.cengFull e = false := by
    cases e <;> exact decide_eq_false (Nat.not_le.2 hf)
  have hi : exec (issueWord e a d xb) s = .next (issueBlock s e a d xb) := by cases e <;> rfl
  rw [hi]
  unfold issueBlock
  simp only [hfull, hr, ho, hs, List.isEmpty_nil, Bool.not_true, Bool.or_self, Bool.false_eq_true, if_false]
  cases hc : s.checkBlock s.cur off e (some xb.toNat) false with
  | ok c =>
    obtain rfl := State.checkBlock_ok hc
    rfl
  | stall => rfl
  | unbound c => rfl
  | trap k v => rfl
  | illegal => rfl

/-- A promise is given by the CE alone, and only where the word asks for one (R100, R208). -/
theorem State.promise_of_none {c : Cmd} (h : d = 0 ∨ e = .ie) : s.promise s.cur e c d = none := by
  unfold State.promise
  rw [if_neg]
  rintro ⟨hd, he, -⟩
  rcases h with rfl | rfl
  · exact hd rfl
  · cases he

/-- A fault of a command engine becomes pending where none of it is (R361). -/
theorem Tile.fault_cengine {x : Tile} {cause : Nat} {tval beat : Word} (h : ∀ f ∈ x.pend, f.source ≠ cengSource e) :
    x.fault (cengSource e) cause tval beat =
      { x.setCengine e { x.cengine e with flt := true } with
        pend := insertDelivery { source := cengSource e, cause := cause, tval := tval, beat := beat } x.pend, evLatch := true } := by
  have hn : ¬ x.pend.any (fun d => decide (d.source = cengSource e)) = true := by simpa using h
  unfold Tile.fault
  rw [if_neg hn]
  cases e <;> simp [Source.rank, Tile.setFlt, cengSource, Tile.setCengine, Tile.cengine]

/-- What an illegal block leaves: the fault pending, and `d` clear (log 24). -/
theorem illegal_leaves (v : Word) (hp : ∀ f ∈ s.here.pend, f.source ≠ cengSource e) :
    let t := (s.raise s.cur (cengSource e) 0x13 v).retire d 0
    { source := cengSource e, cause := 0x13, tval := v, beat := s.dbc s.cur } ∈ t.here.pend
      ∧ (t.here.cengine e).cmds = (s.here.cengine e).cmds ∧ (t.here.cengine e).flt = true
      ∧ (∀ r, t.here.rd r = if r = d ∧ d ≠ 0 then 0 else s.here.rd r) ∧ t.here.pc = s.here.pc + 4 ∧ OnlyHere s t := by
  dsimp only
  have hh : ((s.raise s.cur (cengSource e) 0x13 v).retire d 0).here = ((s.here.fault (cengSource e) 0x13 v (s.dbc s.cur)).wr d 0).adv := by
    rw [State.retire, State.here_setHere, State.here_raise]
  have hrd := Tile.rd_wr (s.here.fault (cengSource e) 0x13 v (s.dbc s.cur)) d
  obtain ⟨q, hq⟩ := (s.here.fault (cengSource e) 0x13 v (s.dbc s.cur)).wr_adv_eq d 0
  have hrd' : ∀ r, ((s.here.fault (cengSource e) 0x13 v (s.dbc s.cur)).wr d 0).adv.rd r = if r = d ∧ d ≠ 0 then 0 else s.here.rd r := fun r =>
    (hrd r 0).trans (by rw [Tile.fault_cengine hp]; cases e <;> rfl)
  rw [hh]
  refine ⟨?_, ?_, ?_, hrd', ?_, onlyHere_setHere_setHere ..⟩
  · rw [hq, Tile.fault_cengine hp]; exact mem_insertDelivery ..
  · rw [hq, Tile.fault_cengine hp]; cases e <;> rfl
  · rw [hq, Tile.fault_cengine hp]; cases e <;> rfl
  · rw [hq, Tile.fault_cengine hp]; cases e <;> rfl

theorem mem_askBinds (c : Cmd) (b : Nat × SpanReq) : b ∈ (s.askBinds s.cur c).spanOut ↔ b ∈ s.spanOut ∨ b ∈ s.bindsOf s.cur c := by
  unfold State.askBinds
  simp only [List.mem_append, List.mem_filter, Bool.not_eq_true']
  by_cases h : b ∈ s.spanOut <;> simp [h]

end

/-- Settles O20: the block goes as its checks came out; an accepted one takes one reference of each buffer that it names. -/
theorem commandsIssued : Obligations.CommandsIssued := by
  intro s a d xb e off i addr src hf hr ho hs
  have hi : i = issueWord e a d xb := by cases e <;> rfl
  have hsrc : src = cengSource e := by cases e <;> rfl
  have he := exec_issueWord (d := d) (xb := xb) hf hr ho hs
  rw [hi, hsrc]
  refine ⟨fun c hc => ?_, fun ht k v hc => ?_, fun c hc => ?_, fun hc hp => ?_⟩
  · rw [hc] at he
    obtain rfl := State.checkBlock_ok hc
    refine ⟨rfl, rfl, rfl, ?_⟩
    unfold State.issued at he
    dsimp only at he
    cases hp : s.promise s.cur e (s.blockAt s.cur off e (some xb.toNat) false) d with
    | none =>
      rw [hp] at he
      obtain ⟨h1, h2, h3⟩ := accepted_retire (s := s) rfl rfl rfl rfl e (s.blockAt s.cur off e (some xb.toNat) false) off d 0
      exact ⟨_, he, none, h1, h2, h3, fun _ => rfl⟩
    | some p =>
      rw [hp] at he
      obtain ⟨h1, h2, h3⟩ := accepted_retire (s := s) (s1 := s.picked) rfl rfl rfl rfl e
        { s.blockAt s.cur off e (some xb.toNat) false with promise := some p } off d p
      exact ⟨_, he, some p, h1, h2, h3, fun h => absurd (State.promise_of_none h) (by rw [hp]; exact nofun)⟩
  · rw [hc] at he
    exact ⟨_, he, trapped_trap ht ..⟩
  · rw [hc] at he
    exact ⟨_, he, mem_askBinds c, rfl⟩
  · rw [hc] at he
    exact ⟨_, he, illegal_leaves addr hp⟩

end Sys2Proof.Machine
end

