-- ==== Sys2Proof/Proofs/Companion.lean ====
section
/-! Writes of the companion and the driver to far memory (R241, R251, log 83, log 91): for O52. -/

namespace Sys2Proof

/-- A table into which the values of a list are written from key `b` on. -/
theorem FMap.getD_foldl_mapIdx {α : Type} (d : α) (f : Nat → α) (b : Nat) (l : List Nat) (m : FMap α) (k : Nat) :
    FMap.getD d ((l.mapIdx fun i v => (i, v)).foldl (fun m y => FMap.set m (b + y.1) (f y.2)) m) k =
      if b ≤ k ∧ k < b + l.length then f (l.getD (k - b) 0) else FMap.getD d m k := by
  induction l using List.reverseRecOn with
  | nil => rw [if_neg (by simp)]; rfl
  | append_singleton l v ih =>
    rw [List.mapIdx_append, List.foldl_append]
    simp only [List.mapIdx_cons, List.mapIdx_nil, List.foldl_cons, List.foldl_nil, Nat.zero_add, List.length_append, List.length_singleton]
    by_cases h : k = b + l.length
    · subst h
      rw [FMap.getD_set_same, if_pos (by omega)]
      simp
    · rw [FMap.getD_set_ne _ _ h, ih]
      by_cases hk : b ≤ k ∧ k < b + l.length
      · rw [if_pos hk, if_pos (by omega), List.getD_append _ _ _ _ (by omega)]
      · rw [if_neg hk, if_neg (by omega)]

end Sys2Proof

namespace Sys2Proof.Machine

/-! ### What published frames keep of what is overwritten (R251, log 91) -/

section
variable {s : State} {k : Nat}

/-- The byte at a key is recorded, unless no published view shows it or it is recorded already. -/
def State.overwriteAt (s : State) (k : Nat) : State :=
  if (s.mappedAt k).isEmpty ∨ s.overwritten.any (fun o => decide (o.key = k)) then s
  else { s with overwritten := { key := k, was := Mem.get s.mem k, maps := s.mappedAt k } :: s.overwritten }

/-- `s` is `b` once bytes have been recorded. -/
def State.Recorded (b s : State) : Prop := { s with overwritten := b.overwritten } = b ∧ ∀ o ∈ b.overwritten, o ∈ s.overwritten

theorem State.overwriteAt_spec (s : State) (k : Nat) : s.Recorded (s.overwriteAt k)
    ∧ (∀ o ∈ (s.overwriteAt k).overwritten, o ∈ s.overwritten ∨ o.key = k)
    ∧ (s.mappedAt k ≠ [] → (∀ o ∈ s.overwritten, o.key ≠ k) →
        ({ key := k, was := Mem.get s.mem k, maps := s.mappedAt k } : Overwritten) ∈ (s.overwriteAt k).overwritten) := by
  unfold State.overwriteAt
  split
  · next h =>
    refine ⟨⟨rfl, fun _ h => h⟩, fun o h => .inl h, fun hm hn => ?_⟩
    rcases h with h | h
    · exact absurd (List.isEmpty_iff.1 h) hm
    · obtain ⟨o, ho, he⟩ := List.any_eq_true.1 h
      exact absurd (of_decide_eq_true he) (hn o ho)
  · refine ⟨⟨rfl, fun _ h => List.mem_cons_of_mem _ h⟩, fun o h => ?_, fun _ _ => List.mem_cons_self⟩
    exact (List.mem_cons.1 h).elim (fun e => .inr (by rw [e])) .inl

theorem State.Recorded.mappedAt {b s : State} (h : b.Recorded s) (k : Nat) : s.mappedAt k = b.mappedAt k := by
  have e : ({ s with overwritten := b.overwritten } : State).mappedAt k = s.mappedAt k := rfl
  rw [← e, h.1]

theorem State.overwrite_spec : ∀ (l : List Byte) (s : State) (k : Nat), s.Recorded (s.overwrite k l)
    ∧ ∀ j, k ≤ j → j < k + l.length → s.mappedAt j ≠ [] → (∀ o ∈ s.overwritten, o.key ≠ j) →
        ({ key := j, was := Mem.get s.mem j, maps := s.mappedAt j } : Overwritten) ∈ (s.overwrite k l).overwritten
  | [], s, k => ⟨⟨rfl, fun _ h => h⟩, fun j h1 h2 => absurd h1 (Nat.not_le.2 h2)⟩
  | b :: l, s, k => by
    obtain ⟨hr, hk, hn⟩ := s.overwriteAt_spec k
    obtain ⟨hR, hN⟩ := State.overwrite_spec l (s.overwriteAt k) (k + 1)
    have hm : (s.overwriteAt k).mem = s.mem := (congrArg State.mem hr.1 :)
    refine ⟨⟨?_, fun o ho => hR.2 o (hr.2 o ho)⟩, fun j h1 h2 hj ho => ?_⟩
    · exact (congrArg (fun t : State => { t with overwritten := s.overwritten }) hR.1 :).trans hr.1
    · by_cases e : j = k
      · subst e
        exact hR.2 _ (hn hj ho)
      · have := hN j (by omega) (by simp only [List.length_cons] at h2; omega) (by rwa [hr.mappedAt]) fun o h =>
          (hk o h).elim (ho o) fun e' => by omega
        rwa [hr.mappedAt, hm] at this

/-- The descriptor of a line is recorded in the same way. -/
def State.overwriteDescAt (s : State) (k : Nat) : State :=
  if (s.mappedAt k).isEmpty ∨ s.overDescs.any (fun o => decide (o.line = k / 64)) then s
  else { s with overDescs := { line := k / 64, was := s.descAt k, maps := s.mappedAt k } :: s.overDescs }

/-- `s` is `b` once descriptors have been recorded. -/
def State.RecordedDescs (b s : State) : Prop := { s with overDescs := b.overDescs } = b ∧ ∀ o ∈ b.overDescs, o ∈ s.overDescs

theorem State.overwriteDescAt_spec (s : State) (k : Nat) : s.RecordedDescs (s.overwriteDescAt k)
    ∧ (∀ o ∈ (s.overwriteDescAt k).overDescs, o ∈ s.overDescs ∨ o.line = k / 64)
    ∧ (s.mappedAt k ≠ [] → (∀ o ∈ s.overDescs, o.line ≠ k / 64) →
        ({ line := k / 64, was := s.descAt k, maps := s.mappedAt k } : OverwrittenDesc) ∈ (s.overwriteDescAt k).overDescs) := by
  unfold State.overwriteDescAt
  split
  · next h =>
    refine ⟨⟨rfl, fun _ h => h⟩, fun o h => .inl h, fun hm hn => ?_⟩
    rcases h with h | h
    · exact absurd (List.isEmpty_iff.1 h) hm
    · obtain ⟨o, ho, he⟩ := List.any_eq_true.1 h
      exact absurd (of_decide_eq_true he) (hn o ho)
  · refine ⟨⟨rfl, fun _ h => List.mem_cons_of_mem _ h⟩, fun o h => ?_, fun _ _ => List.mem_cons_self⟩
    exact (List.mem_cons.1 h).elim (fun e => .inr (by rw [e])) .inl

theorem State.RecordedDescs.mappedAt {b s : State} (h : b.RecordedDescs s) (k : Nat) : s.mappedAt k = b.mappedAt k := by
  have e : ({ s with overDescs := b.overDescs } : State).mappedAt k = s.mappedAt k := rfl
  rw [← e, h.1]

theorem State.overwriteDescs_spec : ∀ (l : List Nat) (s : State) (k : Nat), s.RecordedDescs (s.overwriteDescs k l)
    ∧ ∀ j, j < l.length → s.mappedAt (k + 64 * j) ≠ [] → (∀ o ∈ s.overDescs, o.line ≠ k / 64 + j) →
        ({ line := k / 64 + j, was := s.descAt (k + 64 * j), maps := s.mappedAt (k + 64 * j) } : OverwrittenDesc) ∈ (s.overwriteDescs k l).overDescs
  | [], s, k => ⟨⟨rfl, fun _ h => h⟩, nofun⟩
  | b :: l, s, k => by
    obtain ⟨hr, hk, hn⟩ := s.overwriteDescAt_spec k
    obtain ⟨hR, hN⟩ := State.overwriteDescs_spec l (s.overwriteDescAt k) (k + 64)
    have hd : (s.overwriteDescAt k).desc = s.desc := (congrArg State.desc hr.1 :)
    refine ⟨⟨?_, fun o ho => hR.2 o (hr.2 o ho)⟩, fun j hj hm ho => ?_⟩
    · exact (congrArg (fun t : State => { t with overDescs := s.overDescs }) hR.1 :).trans hr.1
    · cases j with
      | zero => exact hR.2 _ (hn hm ho)
      | succ j =>
        have e1 : k + 64 * (j + 1) = k + 64 + 64 * j := by omega
        have e2 : k / 64 + (j + 1) = (k + 64) / 64 + j := by omega
        rw [e1] at hm
        rw [e2] at ho
        have := hN j (by simpa using hj) (by rwa [hr.mappedAt]) fun o h => (hk o h).elim (ho o) fun e' => by omega
        rw [hr.mappedAt, State.descAt, hd] at this
        rw [e1, e2]
        exact this

/-! ### The lines that stand outside the device's keys (R241, R267, log 83) -/

/-- The lines of HBM that `n` bytes from address `a` on lie in, by number. -/
def linesOf (a n : Nat) : List Nat := if n = 0 then [] else (List.range ((a + n - 1) / 64 - a / 64 + 1)).map (fun i => a / 64 + i)

theorem mem_linesOf (a n l : Nat) : l ∈ linesOf a n ↔ 0 < n ∧ a / 64 ≤ l ∧ l ≤ (a + n - 1) / 64 := by
  unfold linesOf
  split
  · simp; omega
  · simp only [List.mem_map, List.mem_range]
    constructor
    · rintro ⟨i, hi, rfl⟩
      omega
    · rintro ⟨h0, h1, h2⟩
      exact ⟨l - a / 64, by omega, by omega⟩

/-- The key record of a frame, once lines of HBM have been written from outside. -/
def FrameKey.outside (x : FrameKey) (f : Nat) (lines : List Nat) : FrameKey :=
  { x with lines := ((lines.filter (fun l => decide (l / 1024 = f))).map (· % 1024)).filter (fun l => !x.lines.contains l) ++ x.lines }

theorem FrameKey.mem_lines_outside (x : FrameKey) (f i : Nat) (lines : List Nat) :
    i ∈ (x.outside f lines).lines ↔ i ∈ x.lines ∨ i < 1024 ∧ 1024 * f + i ∈ lines := by
  unfold FrameKey.outside
  simp only [List.mem_append, List.mem_filter, List.mem_map, decide_eq_true_eq, Bool.not_eq_true']
  constructor
  · rintro (⟨⟨l, ⟨hl, hf⟩, hi⟩, -⟩ | h)
    · have e : 1024 * f + i = l := by omega
      exact .inr ⟨by omega, e ▸ hl⟩
    · exact .inl h
  · rintro (h | ⟨hi, hl⟩)
    · exact .inr h
    · by_cases hx : i ∈ x.lines
      · exact .inr hx
      · exact .inl ⟨⟨_, ⟨hl, by omega⟩, by omega⟩, by simpa using hx⟩

theorem State.frameKey_outsideLines (s : State) (a n f : Nat) : FMap.get? (s.outsideLines (2 ^ 64 + a) n).frameKey f =
    (FMap.get? s.frameKey f).map fun x => x.outside f (linesOf a n) := by
  have e : (if n = 0 then [] else (List.range ((2 ^ 64 + a + n - 1) / 64 - (2 ^ 64 + a) / 64 + 1)).map
      fun i => (2 ^ 64 + a - Config.hbmBase) / 64 + i) = linesOf a n := by
    have h1 : 2 ^ 64 + a - Config.hbmBase = a := by unfold Config.hbmBase; omega
    unfold linesOf
    split
    · rfl
    · have h2 : (2 ^ 64 + a + n - 1) / 64 - (2 ^ 64 + a) / 64 = (a + n - 1) / 64 - a / 64 := by omega
      rw [h1, h2]
  unfold State.outsideLines
  dsimp only
  rw [e]
  exact FMap.get?_map s.frameKey (fun y => (y.1, FrameKey.outside y.2 y.1 (linesOf a n))) (fun _ => rfl) f

end

/-! ### COMPANION_FAR_WRITE -/

section
variable {s : State}

/-- What is recorded before a write from outside. -/
def State.recorded (s : State) (k : Nat) : State := (s.overwrite k s.arg.data).overwriteDescs k s.arg.list

/-- The state that a write from outside leaves, at key `k` of its tier. -/
def State.companionWrote (s : State) (k : Nat) : State :=
  let s0 := (s.recorded k).storeBytes k s.arg.data
  let s1 := if s.arg.k = 0 then s0.outsideLines k s.arg.data.length else s0
  { s1 with desc := (s.arg.list.mapIdx (fun i d => (i, d))).foldl (fun m y => FMap.set m (k / 64 + y.1) (BitVec.ofNat 16 y.2)) s1.desc }

theorem exec_companionFarWrite (hr : s.arg.v.toNat + s.arg.data.length ≤ 2 ^ 52) (hk : s.arg.k ≤ 1)
    (hl : s.arg.list ≠ [] → s.arg.v.toNat % 64 = 0 ∧ s.arg.data.length = 64 * s.arg.list.length) :
    exec .companionFarWrite s = .next (s.companionWrote (farKey s.arg.k s.arg.v.toNat)) := by
  have hn : ¬ (2 ^ 52 < s.arg.v.toNat + s.arg.data.length ∨ 1 < s.arg.k
      ∨ (s.arg.list ≠ [] ∧ (s.arg.v.toNat % 64 ≠ 0 ∨ s.arg.data.length ≠ 64 * s.arg.list.length))) := by
    rintro (h | h | ⟨h, h'⟩)
    · omega
    · omega
    · obtain ⟨h1, h2⟩ := hl h
      exact h'.elim (· h1) (· h2)
  exact congrArg Host.Outcome.next (if_neg hn)

theorem State.recorded_frame (s : State) (k : Nat) : { s.recorded k with overwritten := s.overwritten, overDescs := s.overDescs } = s := by
  have h1 := (s.overwrite_spec s.arg.data k).1.1
  have h2 := (State.overwriteDescs_spec s.arg.list (s.overwrite k s.arg.data) k).1.1
  have h3 : (s.overwrite k s.arg.data).overDescs = s.overDescs := (congrArg State.overDescs h1 :)
  have h4 := (congrArg (fun t : State => { t with overwritten := s.overwritten }) h2 :).trans h1
  rw [h3] at h4
  exact h4

/-- The fields that a write from outside leaves, but for the lines outside the device's keys. -/
theorem State.companionWrote_eq (s : State) (k : Nat) : ∃ fk, s.companionWrote k = { s.recorded k with
      mem := Mem.store s.mem k s.arg.data, frameKey := fk
      desc := (s.arg.list.mapIdx (fun i d => (i, d))).foldl (fun m y => FMap.set m (k / 64 + y.1) (BitVec.ofNat 16 y.2)) s.desc }
    ∧ fk = if s.arg.k = 0 then (s.outsideLines k s.arg.data.length).frameKey else s.frameKey := by
  have hf := s.recorded_frame k
  have hm : (s.recorded k).mem = s.mem := (congrArg State.mem hf :)
  have hd : (s.recorded k).desc = s.desc := (congrArg State.desc hf :)
  have hk : (s.recorded k).frameKey = s.frameKey := (congrArg State.frameKey hf :)
  have ho : ∀ n, (((s.recorded k).storeBytes k s.arg.data).outsideLines k n).frameKey = (s.outsideLines k n).frameKey := fun n => by
    unfold State.outsideLines State.storeBytes
    dsimp only
    rw [hk]
  unfold State.companionWrote
  dsimp only
  rw [← hm, ← hd, ← hk]
  by_cases h : s.arg.k = 0
  · rw [if_pos h, if_pos h, ← ho]
    exact ⟨_, rfl, rfl⟩
  · rw [if_neg h, if_neg h]
    exact ⟨_, rfl, rfl⟩

end

end Sys2Proof.Machine
end

