-- ==== Sys2Proof/Proofs/Outside.lean ====
section
/-! Far memory from outside a tile: the companion, failures, and the requests of other packages (R101, R206, R241, R251, R264, R365,
R382): O52. -/

namespace Sys2Proof.Machine

section
variable {s : State}

/-! ### The companion -/

/-- The key record of a frame under a write from outside. -/
theorem State.frameKey_companionWrote {a : Nat} {fk : FMap FrameKey}
    (h : fk = if s.arg.k = 0 then (s.outsideLines (2 ^ 64 + a) s.arg.data.length).frameKey else s.frameKey) (f : Nat) :
    FMap.get? fk f = (FMap.get? s.frameKey f).map fun x => if s.arg.k = 0 then x.outside f (linesOf a s.arg.data.length) else x := by
  by_cases hk : s.arg.k = 0
  · simp only [if_pos hk] at h ⊢
    rw [h, State.frameKey_outsideLines]
  · simp only [if_neg hk] at h ⊢
    rw [h, Option.map_id']

theorem companionWrote_leaves (hm : s.memOk) (a : Nat) {k : Nat} (hk : k = farKey s.arg.k a) :
    let t := s.companionWrote k
    let data := s.arg.data
    Stored s t k data
      ∧ (∀ o ∈ s.overwritten, o ∈ t.overwritten)
      ∧ (∀ j, k ≤ j → j < k + data.length → s.mappedAt j ≠ [] → (∀ o ∈ s.overwritten, o.key ≠ j) →
          ({ key := j, was := Mem.get s.mem j, maps := s.mappedAt j } : Overwritten) ∈ t.overwritten)
      ∧ (∀ l, FMap.getD 0 t.desc l = if k / 64 ≤ l ∧ l < k / 64 + s.arg.list.length then BitVec.ofNat 16 (s.arg.list.getD (l - k / 64) 0)
          else FMap.getD 0 s.desc l)
      ∧ (∀ o ∈ s.overDescs, o ∈ t.overDescs)
      ∧ (∀ j, j < s.arg.list.length → s.mappedAt (k + 64 * j) ≠ [] → (∀ o ∈ s.overDescs, o.line ≠ k / 64 + j) →
          ({ line := k / 64 + j, was := s.descAt (k + 64 * j), maps := s.mappedAt (k + 64 * j) } : OverwrittenDesc) ∈ t.overDescs)
      ∧ (∀ f, (FMap.get? t.frameKey f).map (fun y => (y.id, y.gen)) = (FMap.get? s.frameKey f).map (fun y => (y.id, y.gen)))
      ∧ (∀ f x y i, FMap.get? s.frameKey f = some x → FMap.get? t.frameKey f = some y → (i ∈ y.lines ↔
          i ∈ x.lines ∨ s.arg.k = 0 ∧ data ≠ [] ∧ i < 1024 ∧ a / 64 ≤ 1024 * f + i ∧ 1024 * f + i ≤ (a + data.length - 1) / 64))
      ∧ { t with mem := s.mem, desc := s.desc, overwritten := s.overwritten, overDescs := s.overDescs, frameKey := s.frameKey } = s := by
  obtain ⟨fk, he, hfk⟩ := s.companionWrote_eq k
  obtain ⟨⟨hf1, hw1⟩, hw2⟩ := s.overwrite_spec s.arg.data k
  obtain ⟨⟨hf2, hd1⟩, hd2⟩ := State.overwriteDescs_spec s.arg.list (s.overwrite k s.arg.data) k
  have hover : (s.recorded k).overwritten = (s.overwrite k s.arg.data).overwritten := (congrArg State.overwritten hf2 :)
  have hdescs : (s.overwrite k s.arg.data).overDescs = s.overDescs := (congrArg State.overDescs hf1 :)
  have hdesc : (s.overwrite k s.arg.data).desc = s.desc := (congrArg State.desc hf1 :)
  have hmap : ∀ j, (s.overwrite k s.arg.data).mappedAt j = s.mappedAt j := State.Recorded.mappedAt ⟨hf1, hw1⟩
  have hkey : ∀ f, FMap.get? fk f = (FMap.get? s.frameKey f).map fun x => if s.arg.k = 0 then x.outside f (linesOf a s.arg.data.length) else x := by
    refine State.frameKey_companionWrote (hfk.trans ?_)
    split
    · next h => rw [hk, farKey, if_pos h]; rfl
    · rfl
  dsimp only
  rw [he]
  refine ⟨stored_of_mem hm rfl, fun o ho => hover ▸ hw1 o ho, fun j h1 h2 h3 h4 => hover ▸ hw2 j h1 h2 h3 h4,
    fun l => FMap.getD_foldl_mapIdx .., fun o ho => hd1 o (hdescs ▸ ho), fun j h1 h2 h3 => ?_, fun f => ?_, fun f x y i hx hy => ?_, ?_⟩
  · have := hd2 j h1 (by rwa [hmap]) (by rwa [hdescs])
    rwa [hmap, State.descAt, hdesc] at this
  · dsimp only
    rw [hkey, Option.map_map]
    congr 1
    funext x
    dsimp only [Function.comp]
    split <;> rfl
  · dsimp only at hy
    rw [hkey, hx, Option.map_some, Option.some_inj] at hy
    rw [← hy]
    by_cases h : s.arg.k = 0
    · rw [if_pos h, FrameKey.mem_lines_outside, mem_linesOf, List.length_pos_iff]
      constructor
      · rintro (h1 | ⟨h1, h2, h3, h4⟩)
        · exact .inl h1
        · exact .inr ⟨h, h2, h1, h3, h4⟩
      · rintro (h1 | ⟨-, h2, h1, h3, h4⟩)
        · exact .inl h1
        · exact .inr ⟨h1, h2, h3, h4⟩
    · rw [if_neg h]
      simp [h]
  · exact (congrArg (fun t : State => { t with mem := s.mem, desc := s.desc, frameKey := s.frameKey }) (s.recorded_frame k) :)

/-! ### Failures (R101, R206, R365, R382) -/

theorem Cmd.abort_eq (c : Cmd) : c.abort = if c.begun = true ∧ c.ended = none then
    { c with park := none, want := none, ended := some { code := 3, st := 3, val := c.partVal } } else c := by
  unfold Cmd.abort
  simp only [Option.isNone_iff_eq_none]

theorem memoryError_leaves {c : Cmd} (h : (s.here.cengine (queEng s.arg.que)).headOf s.arg.que = some c) (hb : c.begun = true) (hn : c.ended = none) :
    Completes .memoryUncorrectableError s (fun t => (t.here.cengine (queEng s.arg.que)).cmds = (s.here.cengine (queEng s.arg.que)).cmds.map (fun m =>
        if m.no = c.no then { c with park := none, want := none, ended := some { code := 3, st := 3, val := c.partVal } } else m)
      ∧ t.here.s = s.here.s ∧ t.here.pc = s.here.pc ∧ OnlyHere s t) := by
  have he : exec .memoryUncorrectableError s = .next (s.setHere (s.here.putCmd (queEng s.arg.que) c.abort)) := by
    change execMemoryUncorrectableError s = _
    simp only [execMemoryUncorrectableError, h]
    rfl
  have hc : c.abort = { c with park := none, want := none, ended := some { code := 3, st := 3, val := c.partVal } } :=
    c.abort_eq.trans (if_pos ⟨hb, hn⟩)
  refine ⟨_, he, ?_, ?_, ?_, onlyHere_setHere ..⟩
  · rw [State.here_setHere, hc]; cases queEng s.arg.que <;> rfl
  · rw [State.here_setHere]; cases queEng s.arg.que <;> rfl
  · rw [State.here_setHere]; cases queEng s.arg.que <;> rfl

theorem linkFailure_leaves : Completes .spanLinkFailure s (fun t => SameMem s t
    ∧ { t with tiles := s.tiles } = { s with spanOut := s.spanOut.filter (fun q => decide (q.1 ≠ s.arg.n)) }
    ∧ ∀ u e, ((t.tile u).cengine e).cmds = ((s.tile u).cengine e).cmds.map (fun c => if s.overLink s.arg.n c = true ∧ c.begun = true ∧ c.ended = none then
        { c with park := none, want := none, ended := some { code := 3, st := 3, val := c.partVal } } else c)) := by
  refine ⟨_, rfl, fun _ => rfl, rfl, fun u e => ?_⟩
  have hc : ∀ c : Cmd, (if s.overLink s.arg.n c = true ∧ c.begun = true ∧ c.ended = none then
      { c with park := none, want := none, ended := some { code := 3, st := 3, val := c.partVal } } else c) =
      if s.overLink s.arg.n c = true then c.abort else c := fun c => by
    rw [Cmd.abort_eq]
    by_cases h : s.overLink s.arg.n c = true <;> simp [h]
  simp only [hc]
  unfold State.tile FMap.getD
  dsimp only
  rw [FMap.get?_map _ _ fun _ => by rfl]
  cases FMap.get? s.tiles u with
  | none => cases e <;> rfl
  | some x => cases e <;> rfl

/-! ### Requests of other packages (R264, R272, R382) -/

theorem exec_spanRequest {q : SpanReq} (h : s.arg.span = some q) : exec .spanRequest s = .next (s.serveSpan q) := by
  change execSpanRequest s = _
  simp only [execSpanRequest, h]

theorem serveSpan_takeRef {h : Word} (h1 : s.pkg.fmapen.getLsbD 2 = true) (h2 : s.fresh? (s.buf (accOf h)).ctx h = true)
    (h3 : (s.buf (accOf h)).proxy = none) (h4 : (s.buf (accOf h)).count < 2 ^ 32 - 1) :
    s.serveSpan (.takeRef h) = s.modBuf (accOf h) (fun b => { b with count := b.count + 1, imports := b.imports ++ [h] }) :=
  if_pos (by simp only [h1, h2, h3, decide_eq_true h4, Option.isNone_none, Bool.and_self])

theorem serveSpan_dropRef {h : Word} (h1 : (s.buf (accOf h)).live = true) (h2 : h ∈ (s.buf (accOf h)).imports) :
    s.serveSpan (.dropRef h) = (s.modBuf (accOf h) (fun b => { b with imports := b.imports.erase h })).dropRef (accOf h) := by
  have e : s.serveSpan (.dropRef h) = (s.modBuf (accOf h) (fun b => { b with imports := removeOne h b.imports })).dropRef (accOf h) :=
    if_pos ⟨h1, List.contains_iff_mem.2 h2⟩
  simpa only [removeOne_eq_erase] using e

/-- A buffer that loses a reference keeps its imports. -/
theorem State.imports_settledBuf (s : State) (a : Nat) : (s.settledBuf a).imports = (s.buf a).imports := by
  unfold State.settledBuf
  dsimp only
  split
  · rfl
  · split
    · rfl
    · split <;> rfl
theorem State.count_settledBuf (s : State) (a : Nat) : (s.settledBuf a).count = (s.buf a).count := by
  unfold State.settledBuf
  dsimp only
  split
  · rfl
  · split
    · rfl
    · split <;> rfl

theorem dropRef_import {a : Nat} {l : List Word} (hl : (s.buf a).live = true) :
    let y := ((s.modBuf a (fun b => { b with imports := l })).dropRef a).buf a
    y.imports = l ∧ y.count = (s.buf a).count - 1 ∧ (1 < (s.buf a).count → y.live = true ∧ y.gen = (s.buf a).gen)
      ∧ ((s.buf a).count = 1 → y.live = false ∧ y.gen = (s.buf a).gen + 1) := by
  have e := s.buf_modBuf_same a fun b => { b with imports := l }
  have hy : ((s.modBuf a (fun b => { b with imports := l })).dropRef a).buf a =
      ((s.modBuf a (fun b => { b with imports := l })).modBuf a (fun b => { b with count := b.count - 1 })).settledBuf a := by
    rw [State.dropRef, State.buf_settle, if_pos rfl]
  have e2 : ((s.modBuf a (fun b => { b with imports := l })).modBuf a (fun b => { b with count := b.count - 1 })).buf a =
      { s.buf a with imports := l, count := (s.buf a).count - 1 } := by rw [State.buf_modBuf_same, e]
  dsimp only
  rw [hy]
  refine ⟨by rw [State.imports_settledBuf, e2], by rw [State.count_settledBuf, e2], fun hc => ?_, fun hc => ?_⟩
  · unfold State.settledBuf
    rw [e2]
    dsimp only
    rw [if_neg (by simp [hl]), if_neg (by omega)]
    split <;> exact ⟨hl, rfl⟩
  · unfold State.settledBuf
    rw [e2]
    dsimp only
    rw [if_neg (by simp [hl]), if_pos (by omega)]
    exact ⟨rfl, rfl⟩

/-! #### Bindings -/

section
variable {n g : Nat} {pages : List Nat}

/-- The pages of this package that a binding declares. -/
def Buf.declared (b : Buf) (pages : List Nat) : List Nat := (pages.filter (fun p => decide (p < b.pages))).map (· + b.vbase / 2 ^ 16)

/-- A page that a binding declares is write-blocked (R240). -/
def State.blockedIn (s : State) (b : Buf) (pages : List Nat) : Prop :=
  ∃ p ∈ pages, p < b.pages ∧ ∃ pte, s.leafInUse (2 ^ 20 + 16 + (p + b.vbase / 2 ^ 16) % 8) b.ctx (p + b.vbase / 2 ^ 16) = some pte ∧ bitN pte 2 = true

theorem State.any_declared (s : State) (b : Buf) (pages : List Nat) : (b.declared pages).any (fun p =>
    match s.leafInUse (dieHolder p) b.ctx p with | some pte => bitN pte 2 | none => false) = true ↔ s.blockedIn b pages := by
  have hp : ∀ o : Option Nat, (match o with | some pte => bitN pte 2 | none => false) = true ↔ ∃ pte, o = some pte ∧ bitN pte 2 = true := by
    intro o
    cases o <;> simp
  unfold Buf.declared State.blockedIn
  simp only [List.any_map, List.any_filter, List.any_eq_true, Bool.and_eq_true, decide_eq_true_eq, Function.comp, hp]
  rfl

theorem serveSpan_bind_blocked (hl : (s.buf n).live = true) (hi : (s.buf n).imports ≠ []) (hb : s.blockedIn (s.buf n) pages) :
    s.serveSpan (.bind n g pages) = s := by
  have h1 : ¬ ((!(s.buf n).live) = true ∨ (s.buf n).imports = []) := by simp [hl, hi]
  exact (if_neg h1).trans (if_pos ((s.any_declared _ _).2 hb))

theorem serveSpan_bind (hl : (s.buf n).live = true) (hi : (s.buf n).imports ≠ []) (hb : ¬ s.blockedIn (s.buf n) pages) :
    s.serveSpan (.bind n g pages) = ((s.markDirty (s.buf n).ctx ((s.buf n).declared pages)).modBuf n (fun b => { b with
      binds := b.binds ++ [{ tag := g, view := b.vgen, writes := !pages.isEmpty }] })).sendSpan (tagPackage g) (.bound g) := by
  have h1 : ¬ ((!(s.buf n).live) = true ∨ (s.buf n).imports = []) := by simp [hl, hi]
  exact (if_neg h1).trans (if_neg (mt (s.any_declared _ _).1 hb))

theorem bind_leaves (hp : pages ≠ []) (hl : (s.buf n).live = true) (hi : (s.buf n).imports ≠ []) (hb : ¬ s.blockedIn (s.buf n) pages) :
    ((s.serveSpan (.bind n g pages)).buf n).binds = (s.buf n).binds ++ [{ tag := g, view := (s.buf n).vgen, writes := true }]
      ∧ (s.serveSpan (.bind n g pages)).spanOut = s.spanOut ++ [(g / 2 ^ 13 % 64, .bound g)] := by
  have he : pages.isEmpty = false := by simpa using hp
  rw [serveSpan_bind hl hi hb, he]
  obtain ⟨m, hm⟩ := State.markDirty_eq (s.buf n).ctx ((s.buf n).declared pages) s
  rw [hm]
  exact ⟨congrArg Buf.binds (State.buf_setBuf_same ..), rfl⟩

theorem serveSpan_endCmd : ((s.serveSpan (.endCmd n g)).buf n).binds = (s.buf n).binds.filter (fun y => decide (y.tag ≠ g)) := by
  have h : s.serveSpan (.endCmd n g) = (s.modBuf n (fun b => { b with binds := b.binds.filter (fun y => decide (y.tag ≠ g)) })).releaseOld n := rfl
  rw [h, State.releaseOld, (State.freed_releaseUnread ..).buf, State.buf_setBuf_same]
  exact congrArg Buf.binds (State.buf_setBuf_same ..)

/-! #### Reads -/

/-- A walk that is asked for is under way, where a walker is free or the page's walk runs (R248). -/
theorem askWalk_leaves {h c vpn : Nat} {w p : Bool} (hn : s.walks.length < 256) :
    (∃ k ∈ (s.askWalk h c vpn w p).walks, k.ctx = c ∧ k.vpn = vpn ∧ h ∈ k.askers) ∧ { s.askWalk h c vpn w p with walks := s.walks } = s := by
  unfold State.askWalk
  split
  · next ha =>
    refine ⟨?_, rfl⟩
    obtain ⟨k, hk, he⟩ := List.any_eq_true.1 ha
    have he' := of_decide_eq_true he
    refine ⟨_, List.mem_map_of_mem hk, ?_⟩
    rw [if_pos he']
    refine ⟨he'.1, he'.2, ?_⟩
    dsimp only
    split
    · next hc => exact List.contains_iff_mem.1 hc
    · exact List.mem_append_right _ (List.mem_singleton_self _)
  · have hn' : ¬ Config.walkers ≤ s.walks.length := Nat.not_le.2 hn
    rw [if_neg hn']
    exact ⟨⟨_, List.mem_append_right _ (List.mem_singleton_self _), rfl, rfl, List.mem_singleton_self _⟩, rfl⟩

theorem serveSpan_read {off : Nat} {view : Bind} (hb : (s.buf n).bindOf g = some view) (ho : off < (s.buf n).size) (hp : (s.buf n).proxy = none)
    (hv : s.viewLeaf (2 ^ 20 + 16 + ((s.buf n).vbase + off) / 64 * 64 / 2 ^ 16 % 8) (s.buf n).ctx n view.view (((s.buf n).vbase + off) / 64 * 64 / 2 ^ 16) = none) :
    s.serveSpan (.read n g off) = s.askWalk (2 ^ 20 + 16 + ((s.buf n).vbase + off) / 64 * 64 / 2 ^ 16 % 8) (s.buf n).ctx
      (((s.buf n).vbase + off) / 64 * 64 / 2 ^ 16) false false := by
  have hr : s.readFarLine (2 ^ 20 + 16 + ((s.buf n).vbase + off) / 64 * 64 / 2 ^ 16 % 8) (s.buf n).ctx n view.view (((s.buf n).vbase + off) / 64 * 64)
      true false = none := by
    unfold State.readFarLine
    simp only [hp, hv, Option.isSome_none, Bool.false_eq_true, if_false]
  unfold State.serveSpan
  simp only [hb, Nat.not_le.2 ho, if_false, dieHolder, hr]
  rfl

/-- The bytes of a number are those of its low bits. -/
theorem leBytes_mod : ∀ (n v : Nat), leBytes (v % 256 ^ n) n = leBytes v n
  | 0, _ => rfl
  | n + 1, v => by
    have h1 : BitVec.ofNat 8 (v % 256 ^ (n + 1)) = BitVec.ofNat 8 v :=
      BitVec.eq_of_toNat_eq (by
        simp only [BitVec.toNat_ofNat]
        exact Nat.mod_mod_of_dvd v (Dvd.intro_left (256 ^ n) rfl))
    have h2 : v % 256 ^ (n + 1) / 256 = v / 256 % 256 ^ n := by rw [Nat.pow_succ, Nat.mul_comm, Nat.mod_mul_right_div_self]
    unfold leBytes
    rw [h1, h2, leBytes_mod n]

/-! #### Writes, additions and updates -/

variable {view : Bind} {off f : Nat}

theorem Buf.behind_of {b : Buf} {y : Bind} (h : b.swapping = none ∨ y.awaited = true) : b.behind y = false := by
  unfold Buf.behind
  rcases h with h | h <;> simp [h]

theorem State.shadowFor_of {holder c a vpn : Nat} (h : FMap.get? (s.buf a).shadow vpn = some f) : s.shadowFor holder c a vpn = .ok s f := by
  unfold State.shadowFor
  rw [h]
theorem State.stageFor_of {holder c a vpn : Nat} (h : FMap.get? (s.buf a).stage vpn = some f) : s.stageFor holder c a vpn = .ok s f := by
  unfold State.stageFor
  rw [h]

theorem serveSpan_write {data : List Byte} {d : Option (BitVec 16)} (hb : (s.buf n).bindOf g = some view)
    (hs : (s.buf n).swapping = none ∨ view.awaited = true) (h1 : off + data.length ≤ (s.buf n).size) (h2 : off % 64 + data.length ≤ 64)
    (hf : FMap.get? (s.buf n).shadow (((s.buf n).vbase + off) / 2 ^ 16) = some f) :
    s.serveSpan (.write n g off data d) = match d with
      | some v => (s.storeBytes (2 ^ 64 + f + ((s.buf n).vbase + off) % 2 ^ 16) data).setDesc (2 ^ 64 + f + ((s.buf n).vbase + off) % 2 ^ 16) v
      | none => s.storeBytes (2 ^ 64 + f + ((s.buf n).vbase + off) % 2 ^ 16) data := by
  unfold State.serveSpan
  simp only [hb, Buf.behind_of hs, Nat.not_lt.2 h1, Nat.not_lt.2 h2, State.shadowFor_of hf, Bool.false_eq_true, or_self, if_false]
  cases d <;> rfl

theorem serveSpan_add {fmt : Nat} {val : BitVec 32} {F : LineFmt} (hb : (s.buf n).bindOf g = some view)
    (hs : (s.buf n).swapping = none ∨ view.awaited = true) (hF : addFmt (BitVec.ofNat 16 (0x2000 + fmt)) = some F) (hw : F.width / 8 = 4)
    (h1 : off + 4 ≤ (s.buf n).size) (h2 : off % 4 = 0)
    (hf : FMap.get? (s.buf n).shadow (((s.buf n).vbase + off) / 2 ^ 16) = some f) :
    s.serveSpan (.add n g off fmt val) = s.addAt (2 ^ 64 + f + ((s.buf n).vbase + off) % 2 ^ 16) F val.toNat := by
  unfold State.serveSpan
  simp only [hb, hF, hw, Buf.behind_of hs, Nat.not_lt.2 h1, h2, State.shadowFor_of hf, Bool.false_eq_true, ne_eq, not_true_eq_false, or_self, if_false]
  rfl

theorem serveSpan_stage {key : List Nat} {fmt : Nat} {val : BitVec 32} (hb : (s.buf n).bindOf g = some view)
    (hs : (s.buf n).swapping = none ∨ view.awaited = true) (h1 : off < (s.buf n).size)
    (hf : FMap.get? (s.buf n).stage (((s.buf n).vbase + off) / 2 ^ 16) = some f) :
    s.serveSpan (.stage n g key off fmt val) = s.modBuf n (fun y => { y with staged := y.staged ++
      [{ key := key, page := ((s.buf n).vbase + off) / 2 ^ 16, off := ((s.buf n).vbase + off) % 2 ^ 16, fmt := fmt, val := val }] }) := by
  unfold State.serveSpan
  simp only [hb, Buf.behind_of hs, Nat.not_le.2 h1, State.stageFor_of hf, Bool.false_eq_true, or_self, if_false]
  rfl

end

end

/-- Settles O52: the bytes and descriptors of a write, one by one, with what is recorded of them; the requests of other packages, each by
its own equation. -/
theorem farMemoryFromOutside : Obligations.FarMemoryFromOutside := by
  intro s hok a data k aborted serves
  have serve : ∀ {q : SpanReq} {P : State → Prop}, P (s.serveSpan q) → serves q P := fun hp h => ⟨_, exec_spanRequest h, hp⟩
  have hm := hok.1
  refine ⟨fun h1 h2 h3 => ⟨_, exec_companionFarWrite h1 h2 h3, companionWrote_leaves hm _ rfl⟩, fun c h hb hn => memoryError_leaves h hb hn,
    linkFailure_leaves, fun h => ⟨fun h1 h2 h3 h4 => serve (serveSpan_takeRef h1 h2 h3 h4), fun h1 h2 => serve ?_⟩, fun n g =>
    ⟨fun h1 h2 => serve ?_, serve rfl, fun pages h1 h2 h3 => ⟨fun hb => serve (serveSpan_bind_blocked h1 h2 hb), fun hb => serve (bind_leaves h3 h1 h2 hb)⟩,
      serve serveSpan_endCmd, fun view off hb h1 h2 h3 h4 => serve ?_, fun view off data d f hb hs h1 h2 hf => serve ?_,
      fun view off val f hb hs h1 h2 hf => ⟨serve ?_, serve ?_⟩, fun view key off fmt val f hb hs h1 hf => serve (serveSpan_stage hb hs h1 hf)⟩⟩
  · dsimp only
    rw [serveSpan_dropRef h1 h2]
    exact dropRef_import h1
  · have hb : ¬ s.blockedIn (s.buf n) [] := by rintro ⟨p, hp, -⟩; cases hp
    exact serveSpan_bind h1 h2 hb
  · rw [serveSpan_read hb h1 h2 h3]
    exact askWalk_leaves h4
  · rw [serveSpan_write hb hs h1 h2 hf]
    cases d with
    | none => exact ⟨stored_of_mem hm rfl, fun _ => rfl, rfl⟩
    | some v =>
      refine ⟨stored_of_mem hm rfl, fun l => ?_, rfl⟩
      dsimp only
      split
      · next e => subst e; exact FMap.get?_set_same ..
      · next e => exact FMap.get?_set_ne _ _ e
  · rw [serveSpan_add (F := .flt fp32) hb hs rfl rfl h1 h2 hf, bytesOf_eq]
    exact ⟨stored_of_mem hm rfl, rfl⟩
  · rw [serveSpan_add (F := .int 32 true) hb hs rfl rfl h1 h2 hf, bytesOf_eq]
    exact ⟨stored_of_mem hm (by rw [← leBytes_mod]; rfl), rfl⟩

end Sys2Proof.Machine
end

