-- ==== Sys2Proof/Proofs/Arrivals.lean ====
section
/-! A state in which the drain of a spawn queue changes more of the node that it moves up than its place in the overflow area (R115, R135,
R141, R263). -/

namespace Sys2Proof.Machine

/-- A spawned node of class 5, which no package has: it ends NO_CLASS, and drops its handle of buffer 5 (R131, R141). -/
def classless : Node := { ctx := 1, rec_ := [0x501], handles := [5], source := .spawn 0, st := .queued }
/-- A spilled node whose last attempt wrote a shadow of buffer 5. -/
def spilled : Node := { ctx := 1, rec_ := [], source := .spawn 0, st := .queued, spillAt := some 0, wrote := [(5, 0)] }
/-- The two nodes on die 0, with the one reference to buffer 5. -/
def draining : State :=
  { State.reset.setDie 0 { spawnQ := [1], spill := [2] } with nodes := [(1, classless), (2, spilled)], bufs := [(5, { live := true, count := 1 })] }

/-- What node 2 has written, once an event has taken place. -/
def writtenAfter2 : Res → Option (List (Nat × Nat))
  | .next t => (t.node? 2).map (·.wrote)
  | _ => none

/-- The buffer retires with its last reference, and with it what node 2 had written of it. -/
theorem wroteAfter_drain : writtenAfter2 (exec .spawnQueueDrain draining) = some [] := by decide +kernel

/-- Refutes O47: its clause on a spilled node that moves up says that nothing of the node but its place in the overflow area changes, but
the node in front of it may end NO_CLASS, and a buffer that retires with its handles is struck from what every node has written. -/
theorem not_nodesArrive : ¬ Obligations.NodesArrive := by
  intro h
  obtain ⟨-, -, hdrain, -⟩ := h draining (by decide)
  obtain ⟨-, hspill⟩ := hdrain 1 classless [] rfl rfl rfl ⟨0, rfl⟩
  obtain ⟨t, ht, -, hnode, -⟩ := hspill 2 spilled [] rfl (by decide) rfl (by decide)
  have hw : (t.node? 2).map (·.wrote) = some [] := (congrArg writtenAfter2 ht).symm.trans wroteAfter_drain
  rw [hnode] at hw
  exact absurd hw (by decide)

end Sys2Proof.Machine
end

