-- ==== Sys2Proof/Proofs/Spawns.lean ====
section
/-! spawn: its checks, its record, and the node that it places (R115, R138; log 30): for O24. -/

namespace Sys2Proof.Machine

/-! ### The slots of a mask -/

theorem bitN_eq_getLsbD (v : Word) (k : Nat) : bitN v.toNat k = v.getLsbD k := by
  rw [BitVec.getLsbD, Nat.testBit_eq_decide_div_mod_eq]
  rfl

theorem maskSlots_eq (v : Word) : maskSlots v.toNat = (List.range 64).filter (fun k => v.getLsbD k) := by
  unfold maskSlots
  simp only [bitN_eq_getLsbD]

/-- Nothing is kept of a slot that no interrupted spawn of the word named (log 30). -/
theorem Tile.keptHandle_of_none {x : Tile} {k : Nat} (h : ∀ p ∈ x.interrupted, p.pc = x.pc → k ∉ p.slots) : x.keptHandle k = 0 := by
  have hn : x.interrupted.find? (fun p => decide (p.pc = x.pc) && p.slots.contains k) = none :=
    List.find?_eq_none.2 fun p hp hc => by
      obtain ⟨h1, h2⟩ := Bool.and_eq_true_iff.1 hc
      exact h p hp (of_decide_eq_true h1) (List.contains_iff_mem.1 h2)
  unfold Tile.keptHandle
  rw [hn]

/-- The slots that a spawn names are empty then; what interrupted spawns keep changes only where a slot was empty before. -/
theorem Tile.takeCaps_leaves : ∀ (l : List Nat) (x : Tile), l.Nodup → ∃ c i, x.takeCaps l = { x with caps := c, interrupted := i }
    ∧ (∀ k, Bank.get c k = if k ∈ l then 0 else x.cap k) ∧ ((∀ k ∈ l, x.cap k ≠ 0) → i = x.interrupted)
  | [], x, _ => ⟨x.caps, x.interrupted, rfl, fun k => by rw [if_neg List.not_mem_nil]; rfl, fun _ => rfl⟩
  | k :: l, x, hl => by
    obtain ⟨hk, hl⟩ := List.nodup_cons.1 hl
    by_cases h0 : x.cap k = 0
    · obtain ⟨c, i, he, hc, -⟩ := Tile.takeCaps_leaves l { x with interrupted := unkeep x.pc k x.interrupted } hl
      refine ⟨c, i, ?_, fun j => (hc j).trans ?_, fun h => absurd h0 (h k List.mem_cons_self)⟩
      · have e : x.takeCaps (k :: l) = { x with interrupted := unkeep x.pc k x.interrupted }.takeCaps l :=
          congrArg (fun y : Tile => y.takeCaps l) (if_pos h0)
        rw [e, he]
      · have hcap : ({ x with interrupted := unkeep x.pc k x.interrupted } : Tile).cap j = x.cap j := rfl
        rw [hcap]
        by_cases hj : j = k
        · subst hj; rw [if_neg hk, if_pos List.mem_cons_self, h0]
        · simp only [List.mem_cons, hj, false_or]
    · obtain ⟨c, i, he, hc, hi⟩ := Tile.takeCaps_leaves l (x.setCap k 0) hl
      refine ⟨c, i, ?_, fun j => (hc j).trans ?_, fun h => hi fun j hj => ?_⟩
      · have e : x.takeCaps (k :: l) = (x.setCap k 0).takeCaps l := congrArg (fun y : Tile => y.takeCaps l) (if_neg h0)
        rw [e, he]
        rfl
      · rw [Tile.cap_set]
        by_cases hj : j = k
        · subst hj; rw [if_neg hk, if_pos rfl, if_pos List.mem_cons_self]
        · simp only [List.mem_cons, hj, false_or, if_false]
      · have hne : j ≠ k := fun e => hk (e ▸ hj)
        rw [Tile.cap_set, if_neg hne]
        exact h j (List.mem_cons_of_mem _ hj)

/-! ### The record of a spawned node (R115) -/

/-- A flag of a record's first word. -/
def flagBit (b : Bool) (k : Nat) : Nat := if b then 2 ^ k else 0

theorem flagBit_eq (b : Bool) (k : Nat) : ∃ v, flagBit b k = v * 2 ^ k ∧ v < 2 ∧ b = decide (v = 1) := by
  cases b
  · exact ⟨0, (Nat.zero_mul _).symm, by decide, rfl⟩
  · exact ⟨1, (Nat.one_mul _).symm, by decide, rfl⟩

/-- The first word of a spawned node's record, from its fields. -/
def spawnWord (c : Nat) (r d l : Bool) (p n : Nat) : Nat :=
  1 + c * 2 ^ 8 + flagBit r 26 + flagBit d 27 + flagBit l 29 + p * 2 ^ 32 + n * 2 ^ 40

theorem spawnWord_fields {c p n : Nat} (r d l : Bool) (hc : c < 256) (hp : p < 256) (hn : n ≤ 7) :
    let w := spawnWord c r d l p n
    w < 2 ^ 64 ∧ w % 256 = 1 ∧ bitsN w 8 8 = c ∧ bitsN w 24 2 = 0 ∧ bitsN w 56 8 = 0 ∧ bitsN w 48 8 = 0 ∧ bitsN w 32 8 = p
      ∧ bitsN w 40 8 = n
      ∧ bitN w 27 = d ∧ bitN w 29 = l ∧ bitN w 26 = r := by
  obtain ⟨r', hr, hr2, hrb⟩ := flagBit_eq r 26
  obtain ⟨d', hd, hd2, hdb⟩ := flagBit_eq d 27
  obtain ⟨l', hl, hl2, hlb⟩ := flagBit_eq l 29
  unfold spawnWord bitsN bitN
  rw [hr, hd, hl, hrb, hdb, hlb]
  refine ⟨by omega, by omega, by omega, by omega, by omega, by omega, by omega, by omega, ?_, ?_, ?_⟩
  · exact decide_eq_decide.2 (by omega)
  · exact decide_eq_decide.2 (by omega)
  · exact decide_eq_decide.2 (by omega)

theorem spawnRecord_fields (y : Node) (x : Tile) (entry : Word) {n : Nat} (hn : n ≤ 7) :
    let r := spawnRecord y x entry n
    recKind r = 1 ∧ r.getD 1 0 = entry ∧ recClass r = recClass y.page ∧ recWidth r = 0 ∧ recNsucc r = 0 ∧ recNdep r = 0
      ∧ recPrio r = recPrio y.rec_ ∧ recNcap r = n ∧ r.getD 3 0 = y.rec_.getD 3 0
      ∧ recDlate r = recDlate y.rec_ ∧ recLtol r = recLtol y.rec_ ∧ recRstr r = recRstr y.rec_
      ∧ r.getD 5 0 = x.rd 4 ∧ r.getD 6 0 = x.rd 5 ∧ r.getD 7 0 = x.rd 6 := by
  have hb : ∀ a b : Nat, bitsN a b 8 < 256 := fun a b => Nat.mod_lt _ (by decide)
  obtain ⟨h0, h1, h2, h3, h4, h5, h6, h7, h8, h9, h10⟩ := spawnWord_fields (recRstr y.rec_) (recDlate y.rec_) (recLtol y.rec_)
    (hb (recW y.page 0) 8) (hb (recW y.rec_ 0) 32) hn
  have hw : recW (spawnRecord y x entry n) 0 = spawnWord (recClass y.page) (recRstr y.rec_) (recDlate y.rec_) (recLtol y.rec_) (recPrio y.rec_) n :=
    (BitVec.toNat_ofNat ..).trans (Nat.mod_eq_of_lt h0)
  dsimp only
  unfold recKind recWidth recNsucc recNdep recNcap
  simp only [recClass, recPrio, recDlate, recLtol, recRstr] at hw h1 h2 h3 h4 h5 h6 h7 h8 h9 h10 ⊢
  rw [hw]
  exact ⟨h1, rfl, h2, h3, h4, h5, h6, h7, rfl, h8, h9, h10, rfl, rfl, rfl⟩

/-! ### The checks (R115) -/

section
variable {s : State} {d a b : BitVec 5} {m n : Nat} {parent : Node}

theorem exec_spawn_trap {k : Nat} {v : Word} (hr : s.here.ret = none) (hs : s.here.spawning = none)
    (hb : s.spawnBad (s.here.rd a) (s.here.rd b) = some (k, v)) : exec (.spawn d a b) s = .next (s.trap k v) := by
  change execSpawn d a b s = _
  simp only [execSpawn, hr, hs, hb]

/-- The slots that a spawn names. -/
def slotsOf (mask : Word) : List Nat := (List.range 64).filter (fun k => mask.getLsbD k)

variable {entry mask : Word} {k : Nat}

theorem State.spawnBad_of_entry (h : ¬ Fetchable entry) : s.spawnBad entry mask = some (0x04, entry) := by
  have hp : pcOk entry = false := Bool.eq_false_iff.2 (mt (pcOk_iff entry).1 h)
  unfold State.spawnBad
  simp only [hp, Bool.not_false, if_true]

theorem State.spawnBad_of_count (h : Fetchable entry) (hl : 7 < (slotsOf mask).length) : s.spawnBad entry mask = some (0x0A, mask) := by
  unfold State.spawnBad
  rw [maskSlots_eq]
  simp only [(pcOk_iff entry).2 h, Bool.not_true, Bool.false_eq_true, if_false]
  exact if_pos hl

/-- What the slots come to, where the entry and their number pass. -/
theorem State.spawnBad_of_sound (h : Fetchable entry) (hl : (slotsOf mask).length ≤ 7) {r : Option (Nat × Word)}
    (hr : (match (slotsOf mask).find? (fun k => decide (s.here.spawnCap k = 0)) with
      | some k => some (0x08, BitVec.ofNat 64 k)
      | none => match (slotsOf mask).find? (fun k => !s.fresh? s.here.ctx (s.here.spawnCap k)) with
        | some k => some (0x0B, BitVec.ofNat 64 k)
        | none => ((slotsOf mask).find? (fun k => !hasRight (s.here.spawnCap k) 3)).map (fun k => (0x09, BitVec.ofNat 64 k))) = r) :
    s.spawnBad entry mask = r := by
  unfold State.spawnBad
  rw [maskSlots_eq]
  simp only [(pcOk_iff entry).2 h, Bool.not_true, Bool.false_eq_true, if_false]
  exact (if_neg (Nat.not_lt.2 hl)).trans hr

theorem find?_eq_none_of {l : List Nat} {p : Nat → Bool} (h : ∀ k ∈ l, p k = false) : l.find? p = none :=
  List.find?_eq_none.2 fun k hk => by rw [h k hk]; exact Bool.false_ne_true

theorem State.spawnBad_of_empty (h : Fetchable entry) (hl : (slotsOf mask).length ≤ 7)
    (hk : (slotsOf mask).find? (fun k => decide (s.here.spawnCap k = 0)) = some k) :
    s.spawnBad entry mask = some (0x08, BitVec.ofNat 64 k) :=
  State.spawnBad_of_sound h hl (by rw [hk])

theorem State.spawnBad_of_stale (h : Fetchable entry) (hl : (slotsOf mask).length ≤ 7) (h0 : ∀ k ∈ slotsOf mask, s.here.spawnCap k ≠ 0)
    (hk : (slotsOf mask).find? (fun k => !s.fresh? s.here.ctx (s.here.spawnCap k)) = some k) :
    s.spawnBad entry mask = some (0x0B, BitVec.ofNat 64 k) :=
  State.spawnBad_of_sound h hl (by rw [find?_eq_none_of fun k hk => decide_eq_false (h0 k hk), hk])

theorem State.spawnBad_of_right (h : Fetchable entry) (hl : (slotsOf mask).length ≤ 7)
    (h0 : ∀ k ∈ slotsOf mask, s.here.spawnCap k ≠ 0 ∧ s.fresh? s.here.ctx (s.here.spawnCap k) = true)
    (hk : (slotsOf mask).find? (fun k => !hasRight (s.here.spawnCap k) 3) = some k) :
    s.spawnBad entry mask = some (0x09, BitVec.ofNat 64 k) :=
  State.spawnBad_of_sound h hl (by
    rw [find?_eq_none_of fun k hk => decide_eq_false (h0 k hk).1, find?_eq_none_of fun k hk => by rw [(h0 k hk).2]; rfl, hk]
    rfl)

theorem State.count_of_spawnBad (h : s.spawnBad entry mask = none) : (slotsOf mask).length ≤ 7 := by
  unfold State.spawnBad at h
  rw [maskSlots_eq] at h
  refine Nat.not_lt.1 fun hl => ?_
  dsimp only at h
  split at h
  · cases h
  · have hl' : 7 < ((List.range 64).filter (fun k => mask.getLsbD k)).length := hl
    rw [if_pos hl'] at h
    cases h

/-! ### The node (R115, R127) -/

/-- The table with a node placed in entry `n`, which counts one generation on (R127). -/
def State.placed (s : State) (n : Nat) (x : Node) : State :=
  { s.picked with nodes := FMap.set s.nodes n x, igen := FMap.set s.igen n ((FMap.getD 0 s.igen n + 1) % 2 ^ 16) }

theorem State.allot_eq (h : firstFree (fun k => (FMap.get? s.nodes k).isNone) 0 Config.tableSize s.pick (s.nodes.length + 1) = some n) (x : Node) :
    s.allot x = some (s.placed n x, n) := by
  unfold State.allot
  rw [h]
  rfl

theorem State.node?_of_firstFree
    (h : firstFree (fun k => (FMap.get? s.nodes k).isNone) 0 Config.tableSize s.pick (s.nodes.length + 1) = some n) : s.node? n = none :=
  Option.isNone_iff_eq_none.1 (firstFree_spec (by decide) h).1

theorem State.node?_modNode_ne {j : Nat} (f : Node → Node) (h : j ≠ n) : (s.modNode n f).node? j = s.node? j := by
  unfold State.modNode
  split
  · exact FMap.get?_set_ne _ _ h
  · rfl

theorem State.node?_modTask_ne {j : Nat} (f : Node → Node) (h : s.here.task ≠ some j) : (s.modTask f).node? j = s.node? j := by
  unfold State.modTask
  split
  · next k e => exact State.node?_modNode_ne f fun hj => h (hj ▸ e)
  · rfl

theorem State.here_modTask (f : Node → Node) : (s.modTask f).here = s.here := by
  have h := s.modTask_frame f
  have hc : (s.modTask f).cur = s.cur := (congrArg State.cur h :)
  have ht : (s.modTask f).tiles = s.tiles := (congrArg State.tiles h :)
  rw [State.here, hc, State.tile_congr ht, State.here]

/-- The state in which the node of a spawn stands at the end of its die's queue. -/
def State.spawned (s : State) (n : Nat) (x : Node) : State :=
  (s.placed n x).modDie (dieOf s.cur) (fun y => { y with spawnQ := y.spawnQ ++ [n] })

/-- The spawn goes on, with the id of its node (R115). -/
def State.spawnDone (s : State) (d : BitVec 5) (n : Nat) : State :=
  ((s.setHere { s.here with spawning := none }).modTask (fun y => { y with noRestart := true })).retire d (BitVec.ofNat 64 (s.nodeId n))

theorem State.trySpawn_eq {p : Spawning} (ha : s.admits = true) (hr : s.spawnRoom (dieOf s.cur) = true)
    (h : firstFree (fun k => (FMap.get? s.nodes k).isNone) 0 Config.tableSize s.pick (s.nodes.length + 1) = some n) :
    s.trySpawn d p = (s.spawned n (spawnNode s.here s.cur p)).spawnDone d n := by
  unfold State.trySpawn
  simp only [ha, hr, State.allot_eq h, Bool.not_true, Bool.false_eq_true, if_false, if_true]
  rfl

theorem spawnDone_leaves (x : Node) (ht : s.here.task ≠ some n) :
    let t := (s.spawned n x).spawnDone d n
    t.node? n = some x ∧ (t.die (dieOf s.cur)).spawnQ = (s.die (dieOf s.cur)).spawnQ ++ [n]
      ∧ t.here = ({ s.here with spawning := none }.wr d (BitVec.ofNat 64 ((FMap.getD 0 s.igen n + 1) % 2 ^ 16 * 2 ^ 20 + n))).adv
      ∧ OtherTiles s t ∧ SameMem s t := by
  have hid : (s.spawned n x).nodeId n = (FMap.getD 0 s.igen n + 1) % 2 ^ 16 * 2 ^ 20 + n :=
    congrArg (· * 2 ^ 20 + n) (FMap.getD_set_same ..)
  have hh : ((s.spawned n x).setHere { (s.spawned n x).here with spawning := none }).here = { s.here with spawning := none } := State.here_setHere ..
  have hf := ((s.spawned n x).setHere { (s.spawned n x).here with spawning := none }).modTask_frame fun y => { y with noRestart := true }
  dsimp only
  unfold State.spawnDone
  refine ⟨?_, ?_, ?_, fun u hu => ?_, fun k => ?_⟩
  · refine (State.node?_modTask_ne _ ?_).trans (FMap.get?_set_same ..)
    rwa [hh]
  · refine (congrArg (fun v : State => (v.die (dieOf s.cur)).spawnQ) hf :).trans ?_
    exact congrArg Die.spawnQ (State.die_setDie_same (s.placed n x) ..)
  · rw [State.retire, State.here_setHere, State.here_modTask, hh, hid]
  · have hc := (congrArg State.cur hf :)
    refine (State.tile_setHere_ne _ _ (hc.symm ▸ hu)).trans ?_
    exact (State.tile_congr (congrArg State.tiles hf :) u).trans (State.tile_setHere_ne (s.spawned n x) _ hu)
  · exact (congrArg (fun v : State => Mem.get v.mem k) hf :)

/-! ### The instruction (R115) -/

/-- The spawn that waits, once its checks have passed. -/
def State.spawningOf (s : State) (parent : Node) (entry mask : Word) : Spawning :=
  { rec_ := spawnRecord parent s.here entry (slotsOf mask).length, handles := (slotsOf mask).map s.here.spawnCap, slots := slotsOf mask
    since := s.dbc s.cur, starved := s.aot, pc := s.here.pc }

/-- The tile whose spawn waits, with the slots that it names emptied. -/
def State.spawnWaits (s : State) (parent : Node) (entry mask : Word) : State :=
  s.setHere { s.here.takeCaps (slotsOf mask) with spawning := some (s.spawningOf parent entry mask) }

variable {a b : BitVec 5} {m : Nat} {parent : Node}

theorem exec_spawn (hr : s.here.ret = none) (hs : s.here.spawning = none) (ht : s.here.task = some m) (hm : s.node? m = some parent)
    (hb : s.spawnBad (s.here.rd a) (s.here.rd b) = none) :
    exec (.spawn d a b) s =
      .next ((s.spawnWaits parent (s.here.rd a) (s.here.rd b)).trySpawn d (s.spawningOf parent (s.here.rd a) (s.here.rd b))) := by
  change execSpawn d a b s = _
  simp only [execSpawn, hr, hs, hb, ht, Option.bind_some, hm, State.spawnWaits, State.spawningOf, slotsOf, maskSlots_eq]

theorem nodup_slotsOf (mask : Word) : (slotsOf mask).Nodup := List.nodup_range.filter _

theorem spawnWaits_leaves (s : State) (parent : Node) (entry mask : Word) :
    let w := s.spawnWaits parent entry mask
    (∃ c i, w.here = { s.here with caps := c, interrupted := i, spawning := some (s.spawningOf parent entry mask) }
      ∧ (∀ k, Bank.get c k = if k ∈ slotsOf mask then 0 else s.here.cap k)
      ∧ ((∀ k ∈ slotsOf mask, s.here.cap k ≠ 0) → i = s.here.interrupted))
    ∧ OtherTiles s w ∧ { w with tiles := s.tiles } = s := by
  obtain ⟨c, i, he, hc, hi⟩ := Tile.takeCaps_leaves (slotsOf mask) s.here (nodup_slotsOf mask)
  refine ⟨⟨c, i, ?_, hc, hi⟩, fun u hu => State.tile_setHere_ne _ _ hu, rfl⟩
  rw [State.spawnWaits, State.here_setHere, he]

/-- What a spawn leaves that passes its checks and finds room (R115, R127). -/
theorem spawn_leaves (hr : s.here.ret = none) (hs : s.here.spawning = none) (ht : s.here.task = some m) (hm : s.node? m = some parent)
    (hb : s.spawnBad (s.here.rd a) (s.here.rd b) = none) (had : s.admits = true) (hroom : s.spawnRoom (dieOf s.cur) = true)
    (hf : firstFree (fun k => (FMap.get? s.nodes k).isNone) 0 Config.tableSize s.pick (s.nodes.length + 1) = some n) :
    Completes (.spawn d a b) s fun t =>
      t.node? n = some (spawnNode s.here s.cur (s.spawningOf parent (s.here.rd a) (s.here.rd b)))
      ∧ (t.die (dieOf s.cur)).spawnQ = (s.die (dieOf s.cur)).spawnQ ++ [n]
      ∧ (∃ c i, t.here = ({ s.here with caps := c, interrupted := i }.wr d
            (BitVec.ofNat 64 ((FMap.getD 0 s.igen n + 1) % 2 ^ 16 * 2 ^ 20 + n))).adv
          ∧ (∀ k, Bank.get c k = if k ∈ slotsOf (s.here.rd b) then 0 else s.here.cap k)
          ∧ ((∀ k ∈ slotsOf (s.here.rd b), s.here.cap k ≠ 0) → i = s.here.interrupted))
      ∧ OtherTiles s t ∧ SameMem s t := by
  obtain ⟨⟨c, i, hw, hc, hi⟩, hu, hrest⟩ := spawnWaits_leaves s parent (s.here.rd a) (s.here.rd b)
  set w := s.spawnWaits parent (s.here.rd a) (s.here.rd b)
  have hn := State.node?_of_firstFree hf
  have htn : w.here.task ≠ some n := by
    rw [hw]
    intro e
    have e : s.here.task = some n := e
    rw [ht] at e
    cases e
    rw [hn] at hm
    cases hm
  obtain ⟨h1, h2, h3, h4, h5⟩ := spawnDone_leaves (s := w) (d := d) (spawnNode w.here w.cur (s.spawningOf parent (s.here.rd a) (s.here.rd b))) htn
  refine ⟨_, (exec_spawn hr hs ht hm hb).trans (congrArg Host.Outcome.next (State.trySpawn_eq (s := w) had hroom hf)), ?_, h2,
    ⟨c, i, ?_, hc, hi⟩, fun u hne => (h4 u hne).trans (hu u hne), h5⟩
  · rw [h1, hw]
    rfl
  · rw [h3, hw, ← hs]
    rfl

end

end Sys2Proof.Machine
end

