-- ==== Sys2Proof/Proofs/TaskEnds.lean ====
section
/-! self, deadl, rings (R113, R114), the condition word (R114, R267; log 83, 88), and done (R116): for O24. -/

namespace Sys2Proof.Machine

/-! ### Tails and heads of rings (R113) -/

section
variable {s : State} {d a b : BitVec 5} {q : Ring} {r : Nat} {v : BitVec 32}

theorem State.judgeTail_of_over (hq : FMap.get? s.rings r = some q) (hc : q.ctx = s.here.ctx) (hr : r < 1024)
    (h : 2 ^ q.lsize < (v.toNat + 2 ^ 32 - q.head.toNat % 2 ^ 32) % 2 ^ 32) : s.judgeTail s.here.ctx r v = (s, 2) := by
  unfold State.judgeTail
  simp only [hq]
  exact (if_neg fun e => e.elim (fun e => e hc) (by omega)).trans (if_pos h)

theorem State.judgeTail_of_not_over (hq : FMap.get? s.rings r = some q) (hc : q.ctx = s.here.ctx) (hr : r < 1024)
    (h : ¬ 2 ^ q.lsize < (v.toNat + 2 ^ 32 - q.head.toNat % 2 ^ 32) % 2 ^ 32) : s.judgeTail s.here.ctx r v =
      if 1 ≤ (v - q.tail).toNat ∧ (v - q.tail).toNat ≤ 2 ^ 31 then
        ({ s with rings := FMap.set s.rings r { q with tail := v, awake := true } }, 0)
      else (s, 1) := by
  unfold State.judgeTail
  simp only [hq]
  exact (if_neg fun e => e.elim (fun e => e hc) (by omega)).trans (if_neg h)

theorem State.judgeTail_of_other
    (h : FMap.get? s.rings r = none ∨ (FMap.get? s.rings r = some q ∧ (q.ctx ≠ s.here.ctx ∨ 1024 ≤ r))) :
    s.judgeTail s.here.ctx r v = (s, 3) := by
  unfold State.judgeTail
  rcases h with h | ⟨h, hc⟩
  · simp only [h]
  · simp only [h]
    exact if_pos hc

theorem tailDistance_eq (v t : BitVec 32) : (v - t).toNat = (v.toNat + 2 ^ 32 - t.toNat) % 2 ^ 32 := by
  have := t.isLt
  rw [BitVec.toNat_sub]
  congr 1
  omega

theorem exec_tailw_refused {k : Nat} (hk : k ≠ 0) (h : s.judgeTail s.here.ctx (s.here.rd a).toNat ((s.here.rd b).setWidth 32) = (s, k)) :
    Retires s (.tailw d a b) d (BitVec.ofNat 64 k) := by
  refine retires_of_exec ?_
  change execTailw d a b s = _
  unfold execTailw
  simp only [h, hk, if_false]

theorem exec_tailw_taken {u : State} (h : s.judgeTail s.here.ctx (s.here.rd a).toNat ((s.here.rd b).setWidth 32) = (u, 0)) :
    exec (.tailw d a b) s = .next ((u.modTask fun n => { n with noRestart := true }).retire d 0) := by
  change execTailw d a b s = _
  unfold execTailw
  simp only [h, if_true]
  rfl

/-- A state that differs from another in rings and nodes alone, before a word of it retires. -/
theorem wrote_modTask_retire (s : State) (m : FMap Ring) (f : Node → Node) (d : BitVec 5) (v : Word) :
    let t := (({ s with rings := m } : State).modTask f).retire d v
    Wrote { s with rings := t.rings, nodes := t.nodes } t d v := by
  have h := State.modTask_frame { s with rings := m } f
  have hr : (({ s with rings := m } : State).modTask f).rings = m := (congrArg State.rings h :)
  dsimp only
  generalize hu : ({ s with rings := m } : State).modTask f = u at h hr ⊢
  have e : ({ s with rings := (u.retire d v).rings, nodes := (u.retire d v).nodes } : State) = u := by
    change ({ s with rings := u.rings, nodes := u.nodes } : State) = u
    rw [hr]
    exact (congrArg (fun z : State => { z with nodes := u.nodes }) h).symm
  rw [e]
  exact wrote_retire u d v

/-- A tail that is accepted (R113). -/
theorem tailw_taken (hq : FMap.get? s.rings (s.here.rd a).toNat = some q) (hc : q.ctx = s.here.ctx) (hr : (s.here.rd a).toNat < 1024)
    (h : ¬ 2 ^ q.lsize < (((s.here.rd b).setWidth 32).toNat + 2 ^ 32 - q.head.toNat % 2 ^ 32) % 2 ^ 32)
    (hn : 1 ≤ ((s.here.rd b).setWidth 32 - q.tail).toNat ∧ ((s.here.rd b).setWidth 32 - q.tail).toNat ≤ 2 ^ 31) :
    Completes (.tailw d a b) s fun t =>
      t.rings = FMap.set s.rings (s.here.rd a).toNat { q with tail := (s.here.rd b).setWidth 32, awake := true }
        ∧ Wrote { s with rings := t.rings, nodes := t.nodes } t d 0 := by
  refine ⟨_, exec_tailw_taken ((State.judgeTail_of_not_over hq hc hr h).trans (if_pos hn)), ?_, wrote_modTask_retire ..⟩
  exact (congrArg State.rings (State.modTask_frame _ _) :)

theorem retires_headr (hq : FMap.get? s.rings (s.here.rd a).toNat = some q) (hc : q.ctx = s.here.ctx) (hr : (s.here.rd a).toNat < 1024) :
    Retires s (.headr d a) d (BitVec.ofNat 64 (q.head.toNat % 2 ^ 32)) := by
  refine retires_of_exec ?_
  change execHeadr d a s = _
  unfold execHeadr
  rw [hq]
  dsimp only
  rw [if_pos ⟨hc, hr⟩]

end

/-! ### The condition word (R114, R267; log 83, 88) -/

section
variable {s : State} {d a b : BitVec 5} {pte key : Nat}

/-- The scheduler die's key of the frame of a leaf, once it writes there (R247, R267). -/
def State.keyedFor (s : State) (pte key : Nat) : FMap FrameKey :=
  if pteTier pte ≠ 0 then s.frameKey else FMap.set s.frameKey ((key - Config.hbmBase) / 2 ^ 16) (s.leafKeyId pte)

/-- A write through a leaf whose frame reads as it stands changes only the frame's key. -/
theorem State.underKey_of_fits (h : s.frameFits pte key = true) : s.underKey pte key true = { s with frameKey := s.keyedFor pte key } := by
  have hu : s.unfit pte key = [] := if_pos h
  unfold State.underKey State.keyedFor
  rw [hu]
  dsimp only
  by_cases ht : pteTier pte ≠ 0
  · rw [if_pos (Or.inl ht), if_pos ht]
  · have hn : ¬ (pteTier pte ≠ 0 ∨ (([] : List Nat).isEmpty ∧ (!true) = true)) := not_or.2 ⟨ht, fun e => Bool.false_ne_true e.2⟩
    rw [if_neg hn, if_neg ht]
    rfl

/-- The condition word is written, and nothing but memory and its frame's key has changed before the word retires (R114, R267). -/
theorem exec_condw {k : Nat} {large : Bool} (hva : (s.here.rd a).toNat % 8 = 0) (hlt : (s.here.rd a).toNat < 2 ^ 55)
    (hw : s.walk s.here.ctx ((s.here.rd a).toNat / 2 ^ 16) = .leaf k pte large) (hbit : bitN pte 1 = true)
    (hf : s.frameFits pte (leafKey pte ((s.here.rd a).toNat / 2 ^ 16) large) = true) :
    exec (.condw d a b) s =
      let key := leafKey pte ((s.here.rd a).toNat / 2 ^ 16) large
      let marked := s.orEntry k 24
      let u : State := { marked with
        mem := Mem.store marked.mem (key + (s.here.rd a).toNat % 2 ^ 16) (leBytes (s.here.rd b).toNat 8), frameKey := s.keyedFor pte key }
      .next (((u.setHere { s.here with sent := false }).modTask fun n => { n with noRestart := true }).retire d 0) := by
  have hn : ¬ ((s.here.rd a).toNat % 8 ≠ 0 ∨ 2 ^ 55 ≤ (s.here.rd a).toNat) := by omega
  have hs : s.scd s.here.ctx (s.here.rd a).toNat true = .ok ((s.orEntry k 24).underKey pte (leafKey pte ((s.here.rd a).toNat / 2 ^ 16) large) true)
      (leafKey pte ((s.here.rd a).toNat / 2 ^ 16) large + (s.here.rd a).toNat % 2 ^ 16) := by
    unfold State.scd
    simp only [hw, hbit, Bool.not_true, Bool.and_false, Bool.false_eq_true, if_false, if_true]
  have hk : (s.orEntry k 24).underKey pte (leafKey pte ((s.here.rd a).toNat / 2 ^ 16) large) true =
      { s.orEntry k 24 with frameKey := s.keyedFor pte (leafKey pte ((s.here.rd a).toNat / 2 ^ 16) large) } :=
    State.underKey_of_fits (s := s.orEntry k 24) hf
  change execCondw d a b s = _
  unfold execCondw
  dsimp only
  rw [if_neg hn, hs, hk]
  rfl

/-- What a word leaves that goes on with a tile and memory of its own, and writes 0 to its register. -/
theorem wrote_retire_of_here {u : State} {d : BitVec 5} {v : Word} (hh : u.here = s.here) (h : OnlyHere s u) : Wrote s (u.retire d v) d v := by
  obtain ⟨hu, hm, hr⟩ := h
  obtain ⟨h1, h2, h3, h4, h5, h6⟩ := wrote_retire u d v
  have hc : u.cur = s.cur := (congrArg State.cur hr :)
  rw [hh] at h1 h2 h3
  exact ⟨h1, h2, h3, fun w hw => (h4 w (hc ▸ hw)).trans (hu w hw), fun j => (h5 j).trans (hm j),
    (congrArg (fun z : State => { z with tiles := s.tiles }) h6).trans hr⟩

theorem condw_leaves {k : Nat} {large : Bool} (hm : s.memOk) (hs : s.here.sent = false) (hva : (s.here.rd a).toNat % 8 = 0)
    (hlt : (s.here.rd a).toNat < 2 ^ 55) (hw : s.walk s.here.ctx ((s.here.rd a).toNat / 2 ^ 16) = .leaf k pte large) (hbit : bitN pte 1 = true)
    (hf : s.frameFits pte (leafKey pte ((s.here.rd a).toNat / 2 ^ 16) large) = true) : Completes (.condw d a b) s fun t =>
      Stored (s.orEntry k 24) t (leafKey pte ((s.here.rd a).toNat / 2 ^ 16) large + (s.here.rd a).toNat % 2 ^ 16) (bytesOf (s.here.rd b).toNat 8)
      ∧ (pteTier pte = 0 →
        FMap.get? t.frameKey ((leafKey pte ((s.here.rd a).toNat / 2 ^ 16) large - 2 ^ 64) / 2 ^ 16) = some (s.leafKeyId pte))
      ∧ Wrote { s with mem := t.mem, nodes := t.nodes, frameKey := t.frameKey } t d 0 := by
  set key := leafKey pte ((s.here.rd a).toNat / 2 ^ 16) large
  set u : State := { s.orEntry k 24 with
    mem := Mem.store (s.orEntry k 24).mem (key + (s.here.rd a).toNat % 2 ^ 16) (leBytes (s.here.rd b).toNat 8), frameKey := s.keyedFor pte key }
  have hfr := (u.setHere { s.here with sent := false }).modTask_frame fun n => { n with noRestart := true }
  have hh : ((u.setHere { s.here with sent := false }).modTask fun n => { n with noRestart := true }).here = s.here := by
    rw [State.here_modTask, State.here_setHere, ← hs]
  refine ⟨_, exec_condw hva hlt hw hbit hf, ?_, fun ht => ?_, ?_⟩
  · rw [bytesOf_eq]
    exact stored_of_mem (State.memOk_store hm ..) (congrArg State.mem hfr :)
  · refine (congrArg (fun v : State => FMap.get? v.frameKey ((key - 2 ^ 64) / 2 ^ 16)) hfr :).trans ?_
    refine (congrArg (fun m => FMap.get? m ((key - 2 ^ 64) / 2 ^ 16)) (if_neg (not_not.2 ht))).trans ?_
    exact FMap.get?_set_same ..
  · set w := (u.setHere { s.here with sent := false }).modTask fun n => { n with noRestart := true }
    have hmem : w.mem = u.mem := (congrArg State.mem hfr :)
    have hkey : w.frameKey = u.frameKey := (congrArg State.frameKey hfr :)
    have htiles : w.tiles = (u.setHere { s.here with sent := false }).tiles := (congrArg State.tiles hfr :)
    refine wrote_retire_of_here hh ⟨fun v hv => ?_, fun _ => rfl, ?_⟩
    · exact (State.tile_congr htiles v).trans (State.tile_setHere_ne u _ hv)
    · have e : ({ w with nodes := s.nodes } : State) = { u.setHere { s.here with sent := false } with nodes := s.nodes } :=
        (congrArg (fun z : State => { z with nodes := s.nodes }) hfr :)
      have e' : ({ s with mem := u.mem, nodes := w.nodes, frameKey := u.frameKey } : State) =
          { s with mem := w.mem, nodes := w.nodes, frameKey := w.frameKey } := by
        rw [hmem, hkey]
      exact (congrArg (fun z : State => { z with tiles := s.tiles, nodes := w.nodes }) e :).trans e'

theorem traps_condw (ht : s.here.canTrap) (h : (s.here.rd a).toNat % 8 ≠ 0 ∨ 2 ^ 55 ≤ (s.here.rd a).toNat) :
    Traps s (.condw d a b) 0x04 (s.here.rd a) := ⟨_, congrArg Host.Outcome.next (if_pos h), trapped_trap ht ..⟩

end

end Sys2Proof.Machine
end

