-- ==== Sys2Proof/Proofs/Yields.lean ====
section
/-! yield (R146, R355): for O24. -/

namespace Sys2Proof.Machine

section
variable {s : State} {n : Nat} {x : Node}

theorem State.yieldTo_eq_none (h : ∀ m ∈ s.nodes, m.2.st = .ready → m.2.cls = x.cls → recPrio x.rec_ ≤ recPrio m.2.rec_) :
    s.yieldTo x = none := by
  have hf : s.nodes.filter (fun m => decide (m.2.st = .ready ∧ m.2.cls = x.cls ∧ recPrio m.2.rec_ < recPrio x.rec_) && s.poppable m.2
      && ((s.freedGroup m.1 m.2 x.gang).bind (s.blockFor m.2)).isSome) = [] := by
    refine List.filter_eq_nil_iff.2 fun m hm hc => ?_
    obtain ⟨h1, -⟩ := Bool.and_eq_true_iff.1 hc
    obtain ⟨h1, -⟩ := Bool.and_eq_true_iff.1 h1
    obtain ⟨h1, h2, h3⟩ := of_decide_eq_true h1
    exact Nat.not_le.2 h3 (h m hm h1 h2)
  unfold State.yieldTo
  rw [hf]
  rfl

/-- A yield without a more urgent node goes on (R146). -/
theorem exec_yield_on (ht : s.here.task = some n) (hx : s.node? n = some x) (h : s.yieldTo x = none) : exec .yield s = .next s.nextPc := by
  change execYield s = _
  simp only [execYield, ht, hx, h, Option.isSome_none, Bool.false_eq_true, false_and, if_false]

/-- A yield that gives its gang up (R355). -/
theorem exec_yield_given (ht : s.here.task = some n) (hx : s.node? n = some x) (h : (s.yieldTo x).isSome = true)
    (hk : (s.takeSlots x.ctx x.gang.length).isSome = true) :
    exec .yield s = .next (s.nextPc.modNode n fun d => { d with yielding := some s.cur }) := by
  change execYield s = _
  simp only [execYield, ht, hx, h, hk, and_self, if_true]

theorem State.node?_modNode_same (f : Node → Node) (hx : s.node? n = some x) : (s.modNode n f).node? n = some (f x) := by
  rw [State.modNode_eq hx]
  exact FMap.get?_set_same ..

theorem yield_given_leaves (ht : s.here.task = some n) (hx : s.node? n = some x) :
    let t := s.nextPc.modNode n fun d => { d with yielding := some s.cur }
    t.here = { s.here with pc := s.here.pc + 4 } ∧ t.givenUp s.cur = true ∧ (t.node? n).bind (·.yielding) = some s.cur ∧ OtherTiles s t
      ∧ { t with tiles := s.tiles, nodes := s.nodes } = s := by
  have hn : (s.nextPc.modNode n fun d => { d with yielding := some s.cur }).node? n = some { x with yielding := some s.cur } :=
    State.node?_modNode_same (s := s.nextPc) _ hx
  have hh : (s.nextPc.modNode n fun d => { d with yielding := some s.cur }).here = { s.here with pc := s.here.pc + 4 } := by
    rw [State.modNode_eq (s := s.nextPc) hx]
    exact State.here_setHere ..
  have hc : (s.nextPc.modNode n fun d => { d with yielding := some s.cur }).cur = s.cur := State.modNode_cur ..
  refine ⟨hh, ?_, by rw [hn]; rfl, fun u hu => ?_, ?_⟩
  · unfold State.givenUp
    have hg : ((s.nextPc.modNode n fun d => { d with yielding := some s.cur }).tile s.cur).task = some n := by
      have hg := (congrArg Tile.task hh).trans ht
      rwa [State.here, hc] at hg
    rw [hg]
    change (match State.node? _ n with | some n => n.yielding.isSome | none => false) = true
    rw [hn]
    rfl
  · rw [State.modNode_eq (s := s.nextPc) hx]
    exact State.tile_setHere_ne s _ hu
  · rw [State.modNode_eq (s := s.nextPc) hx]
    rfl

end

end Sys2Proof.Machine
end

