-- ==== Sys2Proof/Proofs/Dones.lean ====
section
/-! done of a task that one tile runs alone (R88, R116): for O24. -/

namespace Sys2Proof.Machine

section
variable {s : State} {n : Nat} {x : Node}

/-- A tile that runs a task is one of its members. -/
theorem State.mem_members {u : Nat} (h : (s.tile u).task = some n) : (u, s.tile u) ∈ s.members n := by
  refine List.mem_filter.2 ⟨State.mem_tiles_of_ne fun e => ?_, decide_eq_true h⟩
  rw [e] at h
  cases h

theorem State.ne_cur_of_alone {u : Nat} (hm : s.members n = [(s.cur, s.here)]) (h : u ≠ s.cur) : (s.tile u).task ≠ some n := fun e => by
  have := State.mem_members e
  rw [hm, List.mem_singleton] at this
  exact h (congrArg Prod.fst this)

/-! ### The tile, once it has ended -/

/-- The state of a tile that has executed done, with nothing of it under way: its buffer is committed, its slots are empty (R116). -/
def State.ended (s : State) : State :=
  ((s.commitPsb s.cur).dropSlots s.cur).modTile s.cur (fun x => { x with fin := true })

/-- The tile has no access under way, and no engine of it has failed or is busy. -/
structure State.Finishing (s : State) : Prop where
  ve : s.here.ve.flt = false
  xe : s.here.xe.flt = false
  ce : s.here.ce.flt = false
  ie : s.here.ie.flt = false
  idle : s.here.allIdle = true
  accesses : s.accesses s.cur = []
  reads : s.here.reads = []
  commits : ∀ g ∈ granulesOf s.here.psb, s.commitReady s.cur s.here.ctx g = true

theorem State.Finishing.stopFaulted (h : s.Finishing) : s.stopFaulted = s := by
  unfold State.stopFaulted
  simp only [h.ve, h.xe, h.ce, h.ie, Bool.false_and, Bool.false_eq_true, if_false]

theorem State.Finishing.performAccesses (h : s.Finishing) : s.performAccesses s.cur = s := by
  have hn : s.net.filter (fun p => !decide (p.kind < 2 ∧ p.src = s.cur)) = s.net :=
    List.filter_eq_self.2 fun p hp => by
      have := List.filter_eq_nil_iff.1 h.accesses p hp
      rw [Bool.not_eq_true] at this
      rw [this]
      rfl
  unfold State.performAccesses
  rw [h.accesses, hn]
  rfl

theorem State.Finishing.commitsNow (h : s.Finishing) : s.commitsNow = true := by
  unfold State.commitsNow
  dsimp only
  rw [h.reads, h.accesses]
  exact List.all_eq_true.2 h.commits

/-- Ending changes memory and tiles, and what the references given back come to (R263, R266). -/
theorem State.settled_ended : State.Settled { s with mem := (s.commitPsb s.cur).mem, tiles := s.ended.tiles } s.ended := by
  have h := (State.settled_dropRefs ((s.commitPsb s.cur).modTile s.cur (fun x => { x with caps := [], spawning := none, interrupted := [] }))
    ((s.commitPsb s.cur).tile s.cur).slotHandles).withTiles s.ended.tiles
  have e : { (s.commitPsb s.cur).modTile s.cur (fun x => { x with caps := [], spawning := none, interrupted := [] }) with tiles := s.ended.tiles } =
      { s with mem := (s.commitPsb s.cur).mem, tiles := s.ended.tiles } :=
    (congrArg (fun v : State => { v with mem := (s.commitPsb s.cur).mem, tiles := s.ended.tiles }) (onlyMemAndTiles_commitPsb s s.cur) :)
  rw [e] at h
  exact h

theorem State.tile_ended_ne {u : Nat} (h : u ≠ s.cur) : SameButBanks (s.tile u) (s.ended.tile u) := by
  have hc := commitsTo_commitPsb s s.cur u
  rw [if_neg h] at hc
  unfold State.ended State.dropSlots
  dsimp only
  rw [State.tile_modTile_ne _ _ h, (State.settled_dropRefs ..).tile, State.tile_modTile_ne _ _ h]
  exact hc

theorem State.tile_ended_same : ∃ b, s.ended.tile s.cur =
    { s.here with psb := [], caps := [], spawning := none, interrupted := [], fin := true, banks := b } := by
  have hc := commitsTo_commitPsb s s.cur s.cur
  rw [if_pos rfl] at hc
  refine ⟨((s.commitPsb s.cur).tile s.cur).banks, ?_⟩
  unfold State.ended State.dropSlots
  dsimp only
  rw [State.tile_modTile_same, (State.settled_dropRefs ..).tile, State.tile_modTile_same]
  exact (congrArg (fun y : Tile => { y with
    caps := [], spawning := none, interrupted := [], fin := true, banks := ((s.commitPsb s.cur).tile s.cur).banks }) hc :)

/-- The task is over: its one member has executed done. -/
theorem State.members_ended_fin (hs : s.ok) (hm : s.members n = [(s.cur, s.here)]) : (s.ended.members n).all (·.2.fin) = true := by
  have hg : s.ended.Good := State.Good.modTile (.dropSlots (.commitPsb hs))
  refine List.all_eq_true.2 fun m hmem => ?_
  obtain ⟨hmem, ht⟩ := List.mem_filter.1 hmem
  have ht := of_decide_eq_true ht
  rw [← State.tile_of_mem hg.tiles hmem] at ht ⊢
  by_cases hc : m.1 = s.cur
  · obtain ⟨b, hb⟩ := s.tile_ended_same
    rw [hc, hb]
  · exact absurd ((congrArg Tile.task (State.tile_ended_ne hc) :).symm.trans ht) (State.ne_cur_of_alone hm hc)

theorem exec_done (hs : s.ok) (ha : s.alone n) (hf : s.Finishing) :
    exec .done s = .next (s.ended.modNode n fun d => if d.outcome.isSome then d else { d with outcome := some (0, 0, 0) }) := by
  obtain ⟨hm, ht, -, -⟩ := ha
  obtain ⟨b, hb⟩ := s.tile_ended_same
  have hcur : s.ended.cur = s.cur := (congrArg State.cur State.settled_ended.1 :)
  have htask : s.ended.here.task = some n := by rw [State.here, hcur, hb]; exact ht
  change execDone s = _
  unfold execDone
  dsimp only
  rw [hf.stopFaulted, hf.idle, hf.commitsNow, hf.performAccesses]
  change Host.Outcome.next (match s.ended.here.task with | none => s.ended | some n => _) = _
  rw [htask]
  exact congrArg Host.Outcome.next (if_pos (State.members_ended_fin hs hm))

theorem done_leaves (hs : s.ok) (ha : s.alone n) (hx : s.node? n = some x) (ho : x.outcome = none) (hf : s.Finishing) :
    Completes .done s fun t =>
      t.here = { s.here with psb := [], caps := [], spawning := none, interrupted := [], fin := true, banks := t.here.banks }
      ∧ (t.node? n).bind (·.outcome) = some (0, 0, 0) ∧ (∀ u, u ≠ s.cur → SameButBanks (s.tile u) (t.tile u))
      ∧ (s.here.slotHandles = [] → t.mem = (s.commitBytes s.cur s.here.ctx s.here.psb).mem) := by
  obtain ⟨b, hb⟩ := s.tile_ended_same
  have hset := State.settled_ended (s := s)
  have hcur : s.ended.cur = s.cur := (congrArg State.cur hset.1 :)
  obtain ⟨y, hy, hyx⟩ := Option.map_eq_some_iff.1 (((hset.2.2 n).trans (congrArg (Option.map Node.unwritten) hx)) :)
  have hyo : y.outcome = none := (congrArg Node.outcome hyx :).trans ho
  refine ⟨_, exec_done hs ha hf, ?_⟩
  rw [State.modNode_eq hy]
  refine ⟨?_, ?_, fun u hu => State.tile_ended_ne hu, fun h0 => ?_⟩
  · have hh : s.ended.here = { s.here with psb := [], caps := [], spawning := none, interrupted := [], fin := true, banks := b } := by
      rw [State.here, hcur, hb]
    change s.ended.here = { s.here with psb := [], caps := [], spawning := none, interrupted := [], fin := true, banks := s.ended.here.banks }
    rw [hh]
  · rw [State.node?, FMap.get?_set_same, hyo]
    rfl
  · have h0' : ((s.commitPsb s.cur).tile s.cur).slotHandles = [] := by
      have hc := commitsTo_commitPsb s s.cur s.cur
      exact (congrArg Tile.slotHandles hc :).trans h0
    change s.ended.mem = _
    unfold State.ended State.dropSlots
    dsimp only
    rw [h0']
    rfl

end

end Sys2Proof.Machine
end

