-- ==== Sys2Proof/Proofs/Saves.lean ====
section
/-! The save of a gang touches no node but its own (R146, R295, R367 to R369): for O24. -/

namespace Sys2Proof.Machine

section
variable {s : State} {l : FMap Node}

theorem nodes_foldl {α : Type} {f : State → α → State} (hf : ∀ s a, (f s a).nodes = s.nodes) :
    ∀ (l : List α) (s : State), (l.foldl f s).nodes = s.nodes
  | [], _ => rfl
  | a :: l, s => (nodes_foldl hf l (f s a)).trans (hf s a)

theorem nodes_ite {c : Prop} [Decidable c] {t : State} (hs : s.nodes = l) (ht : t.nodes = l) : (if c then s else t).nodes = l := by
  split
  · exact hs
  · exact ht

/-! ### The turn of an MMA (R278, R295) -/

theorem nodes_stepFault (s : State) (k : Nat) (v : Word) : (s.stepFault k v).nodes = s.nodes :=
  nodes_ite (s := s.modTile s.cur (fun x => x.setEngine s.eng { x.engine s.eng with run := none }))
    (t := s.stepTo (fun r => { r with ended := some (1, r.step), loops := [], mma := none, descs := [], lines := [] })) rfl rfl

theorem nodes_after {f : State → State} (hf : (f s).nodes = s.nodes) (c : Check) : (s.after c f).nodes = s.nodes := by
  cases c with
  | pass => exact hf
  | stall => rfl
  | fault k v => exact nodes_stepFault s k v

theorem nodes_touchAll (s : State) (l : List Access) : (s.touchAll l).nodes = s.nodes := by
  refine nodes_foldl ?_ l s
  exact fun _ _ => rfl
theorem nodes_holdLine (s : State) (a : Access) : (s.holdLine a).nodes = s.nodes := nodes_touchAll s [a]

theorem nodes_readPart (judge : State → Access → Check) : ∀ (l : List Access) (n : Nat) (s : State), (s.readPart judge n l).nodes = s.nodes
  | [], n, s => by cases n <;> rfl
  | a :: l, n, s => by
    unfold State.readPart
    split
    · exact nodes_readPart judge l n s
    · split
      · exact (nodes_readPart judge l _ _).trans (nodes_holdLine s a)
      · rfl

theorem nodes_inParts {f : Option Nat → State} (hf : ∀ n, (f n).nodes = s.nodes) (judge : State → Access → Check) (l : List Access) :
    (s.inParts judge l f).nodes = s.nodes := by
  unfold State.inParts
  split
  · exact nodes_ite (hf _) (nodes_readPart judge l _ s)
  · exact hf none

theorem nodes_rowGroupsStep (o : Mma) (nrow ncol code c : Nat) : ∀ (n rg : Nat) (s : State),
    (s.rowGroupsStep o nrow ncol code c rg n).nodes = s.nodes
  | 0, _, _ => rfl
  | n + 1, rg, _ => nodes_rowGroupsStep o nrow ncol code c n (rg + 1) _

theorem nodes_holdDescs (s : State) (o : Mma) (l : List Nat) : (s.holdDescs o l).nodes = s.nodes := nodes_ite rfl rfl

theorem nodes_chunkRun (s : State) (o : Mma) (nrow ncol c rg code : Nat) (upTo : Option Nat) :
    (s.chunkRun o nrow ncol c rg code upTo).nodes = s.nodes := by
  have h := fun n => (nodes_rowGroupsStep o nrow ncol code c n rg _).trans ((nodes_holdDescs _ o (s.aLines o nrow c ++ s.bLines o ncol c)).trans
    (nodes_touchAll s ((s.aParts o nrow c ++ s.bParts o ncol c).filter (fun a => !s.lineHeld a))))
  unfold State.chunkRun
  dsimp only
  exact nodes_ite (h _) (nodes_ite (h _) (h _))

theorem nodes_chunkTurn {f : State → Option Nat → State} (hf : ∀ n, (f s n).nodes = s.nodes) (o : Mma) (nrow ncol c code : Nat)
    (upTo : Option Nat) : (s.chunkTurn o nrow ncol c code upTo f).nodes = s.nodes :=
  nodes_inParts (fun _ => nodes_after (hf _) _) _ _

theorem nodes_mmaChunk (s : State) (o : Mma) (c rg code : Nat) (upTo : Option Nat) : (s.mmaChunk o c rg code upTo).nodes = s.nodes := by
  unfold State.mmaChunk
  split
  · exact nodes_stepFault ..
  · exact nodes_chunkTurn (fun n => nodes_chunkRun ..) ..

theorem nodes_mmaStart (s : State) (o : Mma) (upTo : Option Nat) : (s.mmaStart o upTo).nodes = s.nodes := by
  unfold State.mmaStart
  split
  · exact nodes_after (f := id) rfl _
  · rfl
  · exact nodes_stepFault ..
  · refine nodes_chunkTurn (fun n => ?_) ..
    dsimp only
    exact nodes_ite (nodes_ite (nodes_stepFault ..) rfl) (nodes_chunkRun ..)

theorem nodes_mmaTurn (s : State) (o : Mma) (upTo : Option Nat) : (s.mmaTurn o upTo).nodes = s.nodes := by
  unfold State.mmaTurn
  split
  · exact nodes_mmaChunk ..
  · unfold State.mmaIssues
    split
    · exact nodes_stepFault ..
    · refine nodes_ite (nodes_mmaStart ..) ?_
      unfold State.afterDrains
      split
      · rfl
      · exact nodes_mmaStart ..

theorem nodes_stopMma (s : State) (t n : Nat) : (s.stopMma t n).nodes = s.nodes := by
  unfold State.stopMma
  dsimp only
  change State.nodes (match s.mmaNow t with
    | some o => if n = 0 then s else { (s.focus t .xe).mmaTurn o (some n) with cur := s.cur, eng := s.eng }
    | none => s) = _
  split
  · exact nodes_ite rfl (nodes_mmaTurn (s.focus t .xe) _ _)
  · rfl

theorem nodes_stopGang (s : State) (g r : List Nat) : (s.stopGang g r).nodes = s.nodes := by
  refine nodes_foldl ?_ _ s
  exact fun s m => nodes_stopMma s m.2 _

/-! ### The slots (R368) -/

theorem nodes_scramble (s : State) (k : Nat) (l : List Nat) : (s.scramble k l).nodes = s.nodes := by
  unfold State.scramble
  split
  · rfl
  · refine nodes_foldl ?_ l s.picked
    exact fun _ _ => rfl

theorem nodes_underKey (s : State) (pte k : Nat) (w : Bool) : (s.underKey pte k w).nodes = s.nodes := by
  unfold State.underKey
  exact nodes_ite rfl (nodes_scramble s k _)

theorem nodes_scd {t : State} {c va k : Nat} {w : Bool} (h : s.scd c va w = .ok t k) : t.nodes = s.nodes := by
  unfold State.scd at h
  dsimp only at h
  repeat' split at h
  all_goals cases h
  all_goals exact nodes_underKey (s.orEntry _ _) ..

theorem nodes_scdPages {c : Nat} {w : Bool} : ∀ {n va : Nat} {s t : State} {l : List Nat}, s.scdPages c va w n = .ok t l → t.nodes = s.nodes
  | 0, _, _, _, _, h => by cases h; rfl
  | n + 1, va, s, t, l, h => by
    unfold State.scdPages at h
    split at h
    · cases h
    · cases h
    · next e =>
      split at h
      · next e' =>
        cases h
        exact (nodes_scdPages e').trans (nodes_scd e)
      · next hn => exact absurd h (hn _ _)

theorem nodes_openSlots {c : Nat} {w : Bool} :
    ∀ {l : List Nat} {s t : State} {r : List (List Nat)}, s.openSlots c w l = .ok (t, r) → t.nodes = s.nodes
  | [], _, _, _, h => by cases h; rfl
  | k :: l, s, t, r, h => by
    unfold State.openSlots at h
    split at h
    · cases h
    · cases h
    · next e =>
      split at h
      · next e' =>
        cases h
        exact (nodes_openSlots e').trans (nodes_scdPages e)
      · cases h

theorem nodes_takeSlots {c : Nat} : ∀ {n : Nat} {s t : State} {l : List Nat}, s.takeSlots c n = some (t, l) → t.nodes = s.nodes
  | 0, _, _, _, h => by cases h; rfl
  | n + 1, s, t, l, h => by
    unfold State.takeSlots at h
    dsimp only at h
    split at h
    · cases h
    · split at h
      · cases h
      · split at h
        · next e =>
          cases h
          exact (nodes_takeSlots e :)
        · cases h

/-! ### The members (R367) -/

/-- `s` is `b` but for entry `n` of the table, which still holds a node where it did. -/
def State.NodeBeside (n : Nat) (b s : State) : Prop :=
  (∀ j, j ≠ n → s.node? j = b.node? j) ∧ ((b.node? n).isSome = true → (s.node? n).isSome = true)

variable {n : Nat} {b : State}

theorem State.NodeBeside.of_nodes (h : s.nodes = b.nodes) : State.NodeBeside n b s := by
  have e : ∀ j, s.node? j = b.node? j := fun j => congrArg (FMap.get? · j) h
  exact ⟨fun j _ => e j, fun hn => e n ▸ hn⟩

theorem State.NodeBeside.trans {t : State} (h : State.NodeBeside n b s) (h' : State.NodeBeside n s t) : State.NodeBeside n b t :=
  ⟨fun j hj => (h'.1 j hj).trans (h.1 j hj), fun hn => h'.2 (h.2 hn)⟩

theorem State.NodeBeside.modNode (s : State) (n : Nat) (f : Node → Node) : State.NodeBeside n s (s.modNode n f) := by
  refine ⟨fun j hj => State.node?_modNode_ne f hj, fun hn => ?_⟩
  obtain ⟨x, hx⟩ := Option.isSome_iff_exists.1 hn
  rw [State.node?_modNode_same f hx]
  rfl

theorem State.nodeBeside_saveMember (s : State) (n k : Nat) (keys : List Nat) (t tag : Nat) (blocked : Bool) :
    State.NodeBeside n s (s.saveMember n k keys t tag blocked) :=
  (State.NodeBeside.of_nodes (s := (s.setTile t _).writeSlot keys t _ _ tag) rfl).trans (State.NodeBeside.modNode _ n _)

theorem State.nodeBeside_saveMembers (n tag blocked : Nat) (x : Node) : ∀ (l : List (Nat × List Nat × Nat)) (i : Nat) (s : State),
    State.NodeBeside n s (s.saveMembers n tag blocked i x l)
  | [], _, _ => .of_nodes rfl
  | (k, keys, t) :: l, i, s => (s.nodeBeside_saveMember n k keys t _ _).trans (State.nodeBeside_saveMembers n tag blocked x l (i + 1) _)

/-- The gang of node `n` is saved: its node stands saved, given up no more, and every other entry of the table is as it was (R146). -/
theorem saveGang_leaves {x : Node} {g : List Nat} {k : Nat} {t : State} (hx : (s.node? n).isSome = true) (h : s.saveGang n x g k = .ok t) :
    (∃ w, t.node? n = some w ∧ w.st = .saved ∧ w.yielding = none) ∧ ∀ j, j ≠ n → t.node? j = s.node? j := by
  unfold State.saveGang at h
  split at h
  · cases h
  · next _ ks e =>
    split at h
    · cases h
    · split at h
      · split at h <;> cases h
      · next s2 keys e' =>
        cases h
        have hs := (nodes_stopGang s2 x.gang g).trans ((nodes_openSlots e').trans (nodes_takeSlots e))
        have hb := (State.NodeBeside.of_nodes (n := n)
          (s := { s2.stopGang x.gang g with fresh := (s2.stopGang x.gang g).fresh + x.gang.length }) hs).trans
          (State.nodeBeside_saveMembers n (s2.stopGang x.gang g).fresh k x (List.zip ks (List.zip keys x.gang)) 0 _)
        obtain ⟨w, hw⟩ := Option.isSome_iff_exists.1 (hb.2 hx)
        refine ⟨⟨_, State.node?_modNode_same _ (State.node?_modNode_same _ hw), rfl, rfl⟩, fun j hj => ?_⟩
        exact (State.node?_modNode_ne _ hj).trans ((State.node?_modNode_ne _ hj).trans (hb.1 j hj))

end

end Sys2Proof.Machine
end

