-- ==== Sys2Proof/Proofs/TaskRings.lean ====
section
/-! The gang that a yield gave up is saved and given on (R146, R355), and the task and ring instructions together: O24. -/

namespace Sys2Proof.Machine

/-! ### The node that gets the gang (R139, R146) -/

section
variable {s : State} {n m : Nat} {w : Node}

/-- Another node, which is not held, keeps all but the shadows that it has written when a node ends. -/
theorem endNode_ne (hn : n ≠ m) (hw : s.node? n = some w) (code : Nat) :
    ∃ z, (s.endNode m code).node? n = some z ∧ z.unwritten = w.unwritten := by
  unfold State.endNode
  split
  · exact ⟨w, hw, rfl⟩
  · refine Option.map_eq_some_iff.1 (((State.settled_dropRefs ..).2.2 n).trans ?_)
    rw [State.node?_modNode_ne _ hn, hw]
    rfl

theorem dispatchNew_ne {y : Node} (hn : n ≠ m) (hw : s.node? n = some w) (hh : w.st ≠ .held) (hy : s.node? m = some y) (g : List Nat) (v : Nat) :
    ∃ z, (s.dispatchNew m y g v).node? n = some z ∧ z.unwritten = w.unwritten := by
  set hs := if 0 < y.restarts then y.snapshot.getD [] else y.handles with hhs
  set extra := if 0 < y.restarts then g.length else g.length - 1 with hextra
  set snap := if y.restarts = 0 ∧ recRstr y.rec_ then 1 else 0 with hsnap
  cases hf : s.refsFit hs extra snap with
  | true =>
    rw [State.dispatchNew_eq hy hhs hextra hsnap hf]
    have hw' : (s.started m y hs extra snap g v).node? n = some w := (State.node?_started_ne hn).trans hw
    obtain ⟨-, -, -, hb⟩ := State.beside_ringNext (s.started m y hs extra snap g v) m false
    have e := hb n fun ⟨_, z, hz, hst⟩ => hh (Option.some.inj (hw'.symm.trans hz) ▸ hst)
    rw [hw'] at e
    exact Option.map_eq_some_iff.1 e
  | false =>
    have hsnap' : (if (!decide (0 < y.restarts) && recRstr y.rec_) = true then 1 else 0) = snap := by simp [hsnap]
    have e : s.dispatchNew m y g v = s.endNode m 0x12 := by
      unfold State.dispatchNew
      simp only [decide_eq_true_eq, hsnap', ← hhs, ← hextra, hf]
      exact if_pos rfl
    rw [e]
    exact endNode_ne hn hw _

/-- The node that gets a freed gang, or expires, leaves another as it was, but for the shadows that it has written. -/
theorem giveFreed_ne {y : Node} (hn : n ≠ m) (hw : s.node? n = some w) (hh : w.st ≠ .held) (hy : s.node? m = some y) (hr : y.st = .ready)
    (g : List Nat) : ∃ z, (s.giveFreed m g).node? n = some z ∧ z.unwritten = w.unwritten := by
  unfold State.giveFreed
  rw [hy]
  dsimp only
  split
  · exact ⟨w, hw, rfl⟩
  · split
    · exact endNode_ne hn hw _
    · split
      · have hs : ¬ y.st = .saved := fun e => nomatch hr.symm.trans e
        unfold State.giveGroup
        rw [if_neg hs]
        exact dispatchNew_ne hn hw hh hy _ _
      · exact ⟨w, hw, rfl⟩

variable {x y : Node} {s' : State}

/-- The node that a yield gives its gang to stands ready in the table. -/
theorem State.ready_of_yieldTo (hs : Rising s.nodes) (h : s.yieldTo x = some (m, y)) : s.node? m = some y ∧ y.st = .ready := by
  obtain ⟨hm, hc⟩ := List.mem_filter.1 (mem_of_bestOf h)
  obtain ⟨hc, -⟩ := Bool.and_eq_true_iff.1 hc
  obtain ⟨hc, -⟩ := Bool.and_eq_true_iff.1 hc
  exact ⟨FMap.get?_of_mem hs hm, (of_decide_eq_true hc).1⟩

theorem exec_preemption_given (ha : s.arg.n = n) (hx : s.node? n = some x) (hy : x.yielding.isSome = true) (hr : x.st = .run)
    (ho : x.outcome = none) (hh : s.heldCtx x.ctx = false) (ht : s.yieldTo x = some (m, y)) (hk : (s.takeSlots x.ctx x.gang.length).isSome = true)
    (hg : s.saveGang n x s.arg.list s.arg.k = .ok s') : exec .preemption s = .next (s'.giveFreed m x.gang) := by
  obtain ⟨ks, hk⟩ := Option.isSome_iff_exists.1 hk
  have hp : s.saveYield n x = s'.giveFreed m x.gang := by
    unfold State.saveYield State.preempt
    rw [ht, hk, hg]
  change execPreemption s = _
  unfold execPreemption
  simp only [ha, hx, hy, hr, ho, hh, hp, and_self, if_true, Option.isSome_none, Bool.false_eq_true, or_self, if_false]

theorem preemption_given_leaves (hs : s.ok) (ha : s.arg.n = n) (hx : s.node? n = some x) (hy : x.yielding.isSome = true) (hr : x.st = .run)
    (ho : x.outcome = none) (hh : s.heldCtx x.ctx = false) (ht : s.yieldTo x = some (m, y)) (hk : (s.takeSlots x.ctx x.gang.length).isSome = true)
    (hg : s.saveGang n x s.arg.list s.arg.k = .ok s') :
    Completes .preemption s fun t => (t.node? n).map (·.st) = some .saved ∧ (t.node? n).bind (·.yielding) = none := by
  obtain ⟨hm, hready⟩ := State.ready_of_yieldTo hs.2.2 ht
  have hne : n ≠ m := fun e => by
    rw [e, hm] at hx
    cases hx
    cases hr.symm.trans hready
  obtain ⟨⟨v, hv, hst, hyv⟩, hother⟩ := saveGang_leaves (hx ▸ rfl) hg
  obtain ⟨z, hz, hzv⟩ := giveFreed_ne hne hv (fun e => nomatch hst.symm.trans e) ((hother m hne.symm).trans hm) hready x.gang
  refine ⟨_, exec_preemption_given ha hx hy hr ho hh ht hk hg, ?_, ?_⟩
  · rw [hz]
    exact congrArg some ((congrArg Node.st hzv :).trans hst)
  · rw [hz]
    exact (congrArg Node.yielding hzv :).trans hyv

end

/-- Settles O24: each word by what it leaves; a node that stands ready is another than the one that runs, and the save and the dispatch of
the one leave the other alone. -/
theorem taskAndRingInstructions : Obligations.TaskAndRingInstructions := by
  refine ⟨fun s d a b m n parent => ?_, fun s d a b n k pte large x => ?_, fun s d a b q => ?_⟩
  · intro entry mask slots die id first hret hspawning htask hparent handle
    refine ⟨fun k hk => Tile.keptHandle_of_none hk, fun _ hbad hadmits hroom hfirst => ?_, fun htrap => ⟨fun he => ?_, fun he hl => ?_,
      fun hsound k hk => ?_, fun hsound h0 k hk => ?_, fun hsound h0 k hk => ?_⟩⟩
    · obtain ⟨t, ht, hnode, hqueue, ⟨c, i, hhere, hcaps, hint⟩, hother, hmem⟩ :=
        spawn_leaves hret hspawning htask hparent hbad hadmits hroom hfirst (d := d)
      refine ⟨t, ht, State.node?_of_firstFree hfirst, ⟨_, hnode, spawnRecord_fields parent s.here entry (State.count_of_spawnBad hbad)⟩, hqueue,
        fun k => ?_, fun r => ?_, ?_, fun h => ?_, ?_, hother, hmem⟩
      all_goals have hrest := Tile.wr_rest { s.here with caps := c, interrupted := i } d (BitVec.ofNat 64 id)
      · rw [hhere]
        exact (congrArg (fun y : Tile => Bank.get y.caps k) hrest :).trans (hcaps k)
      · rw [hhere]
        exact Tile.rd_wr ..
      · rw [hhere]
        exact congrArg (· + 4) (Tile.wr_pc ..)
      · rw [hhere]
        exact (congrArg Tile.interrupted hrest :).trans (hint h)
      · rw [hhere]
        exact (congrArg (fun y : Tile => { y with caps := s.here.caps, pc := s.here.pc, interrupted := s.here.interrupted }) hrest :)
    all_goals refine ⟨_, exec_spawn_trap hret hspawning ?_, trapped_trap htrap ..⟩
    · exact State.spawnBad_of_entry he
    · exact State.spawnBad_of_count he hl
    · exact State.spawnBad_of_empty hsound.1 hsound.2 hk
    · exact State.spawnBad_of_stale hsound.1 hsound.2 h0 hk
    · exact State.spawnBad_of_right hsound.1 hsound.2 h0 hk
  · intro va key marked
    refine ⟨fun hs ha hx ho hve hxe hce hie hidle hacc hreads hready => ?_,
      fun hm hva hlt hsent hw hbit hf => condw_leaves hm hsent hva hlt hw hbit hf,
      fun ht h => traps_condw ht h, fun ht hx h => ⟨_, exec_yield_on ht hx (State.yieldTo_eq_none h), becomes_nextPc s⟩,
      fun m y _ ht hx hy hk => ⟨_, exec_yield_given ht hx (hy ▸ rfl) hk, yield_given_leaves ht hx⟩,
      fun m y s' hs ha hx hy hr ho hh ht hk hg => preemption_given_leaves hs ha hx hy hr ho hh ht hk hg, retires_of_exec rfl, retires_of_exec rfl⟩
    obtain ⟨t, ht, hhere, hout, hother, hmem⟩ := done_leaves hs ha hx ho ⟨hve, hxe, hce, hie, hidle, hacc, hreads, hready⟩
    refine ⟨t, ht, hhere, hout, hother, fun h0 j => ?_⟩
    rw [hmem h0, get_mem_commitBytes hs]
    cases s.here.psb.reverse.find? fun e => s.homeKey s.here.ctx e.1 = some j with
    | none => rfl
    | some e => rfl
  · intro r v ours over_ newer
    have hv : ((s.here.rd b).setWidth 32).toNat = v := BitVec.toNat_setWidth ..
    have hnew : 1 ≤ ((s.here.rd b).setWidth 32 - q.tail).toNat ∧ ((s.here.rd b).setWidth 32 - q.tail).toNat ≤ 2 ^ 31 ↔ newer := by
      rw [tailDistance_eq, hv]
    refine ⟨fun ⟨hq, hc, hr⟩ ho hn => ?_, fun ⟨hq, hc, hr⟩ ho hn => ?_, fun ⟨hq, hc, hr⟩ ho => ?_, fun h => ?_,
      fun ⟨hq, hc, hr⟩ => retires_headr hq hc hr⟩
    · obtain ⟨t, ht, hrings, hwrote⟩ := tailw_taken (a := a) (b := b) (d := d) hq hc hr (hv ▸ ho) (hnew.2 hn)
      have htail : (s.here.rd b).setWidth 32 = BitVec.ofNat 32 v := by rw [← hv, BitVec.ofNat_toNat, BitVec.setWidth_eq]
      refine ⟨t, ht, fun k => ?_, hwrote⟩
      rw [hrings, htail]
      split
      · next e => rw [e]; exact FMap.get?_set_same ..
      · next e => exact FMap.get?_set_ne _ _ e
    · exact exec_tailw_refused (by decide) ((State.judgeTail_of_not_over hq hc hr (hv ▸ ho)).trans (if_neg (mt hnew.1 hn)))
    · exact exec_tailw_refused (by decide) (State.judgeTail_of_over hq hc hr (hv ▸ ho))
    · exact exec_tailw_refused (by decide) (State.judgeTail_of_other h)

end Sys2Proof.Machine
end
